-- ==== Sys2Proof/Word.lean ====
section
/-! DEFINITION. The word types of the model and the one shape of every array and memory: a sparse table. -/
namespace Sys2Proof

/-- One byte (R12: every structure is byte-addressed). -/
abbrev Byte := BitVec 8

/-- A 32-bit register or descriptor word. -/
abbrev W32 := BitVec 32

/-- A sparse array or memory: (index, value) pairs, indices strictly rising, and no pair whose value is
what an unlisted index reads as. The default is given by the reader and the writer of each table. -/
abbrev Tab (α : Type) := List (Nat × α)

/-- A complex number of the data path, both parts exact integers (R100, R101, R125). -/
structure Cx where
  re : Int := 0
  im : Int := 0
deriving DecidableEq, Repr, Inhabited

end Sys2Proof
end

