-- ==== Sys2Proof/Syntax.lean ====
section
/-! DEFINITION. The commands of the block: one constructor of `Instr` for each row of spec/opcode_table.json, with its operands. -/
namespace Sys2Proof

/-- The BARs of Table 10.1. -/
inductive Bar where | bar0 | bar2 | bar4
deriving DecidableEq, Repr

/-- What the access of a host address met (R265, R267): the 8-byte table entries that the walk reads, root first. -/
structure HostAcc where
  walk : List (BitVec 64) := []
deriving DecidableEq, Repr

/-- A 64-byte command descriptor (Table 10.5) as the device reads it at the consumer index of ring `q` of function
`fn`, with the bytes of its buffer. `reserved` is true when a reserved bit is nonzero (R255). -/
structure RingCmd where
  fn       : Fin 256
  q        : Fin 128
  tag      : BitVec 16 := 0
  fence    : Bool := false
  version  : Byte := 1
  reserved : Bool := false
  desc     : HostAcc := {}
  arg0     : W32 := 0
  arg1     : W32 := 0
  arg2     : W32 := 0
  arg3     : W32 := 0
  arg4     : W32 := 0
  arg5     : W32 := 0
  arg6     : W32 := 0
  arg7     : W32 := 0
  bufIova  : BitVec 52 := 0
  buf      : List Byte := []
  bufAcc   : HostAcc := {}
  resIova  : BitVec 52 := 0
  resLen   : Nat := 0
  resAcc   : HostAcc := {}
deriving DecidableEq, Repr

/-- Which forwarded clock a count window belongs to (R55, R306). -/
inductive ClockSel where
  | ingest (g : Fin 36)
  | chain (p : Fin 2)
  | twin
deriving DecidableEq, Repr

/-- Outcome of the SECDED check of the words of one FIFO packet (R68): the number of words corrected, and whether
a word had a double-bit error. -/
structure EccResult where
  corrected : Nat := 0
  double    : Bool := false
deriving DecidableEq, Repr

/-- The fields of a TSB set that a receiver checks (Table 2.3). -/
structure Tsb where
  laneNo   : Byte
  version  : Byte
  mode     : Byte
  lmset    : Byte
  sourceId : W32
deriving DecidableEq, Repr

/-- What ended a burst of a DMA transfer early, if anything (Table 10.13). -/
inductive BurstEnd where | ok | decerr | resetting
deriving DecidableEq, Repr

/-- A report that reaches the hub's detection input (R149, R186). `slots` are absolute slot numbers. -/
inductive Detection where
  /-- channeliser threshold event (Table 3.2) -/
  | thresholdOpen (die : Fin 4) (fineCh slot : Nat)
  | thresholdClose (die : Fin 4) (fineCh slot : Nat)
  /-- carrier-chain burst post (R186): OPEN at j1, EXTEND at a slot, CLOSE at j2 -/
  | burst (chain : Fin 512) (j1 j2 : Nat)
  /-- TOPK entry of a DIRECT beam job -/
  | topkBeam (plan : Nat) (coarse first n : Nat)
  /-- TOPK entry of a correlation job: the two signals of the cell -/
  | topkCorr (sub : Nat) (coarse first n sigA sigB : Nat)
deriving DecidableEq, Repr

/-- The two memory access fields and the saturation bit of an instruction word (Table 8.3). -/
structure EngOp where
  ma  : BitVec 16 := 0
  mb  : BitVec 16 := 0
  sat : Bool := false
deriving DecidableEq, Repr

/-- A register of Table 8.1 as AGSET, AGGET and MVM name it. -/
inductive AgField where | base | idx | step | span | rev
deriving DecidableEq, Repr

/-- A register that MVM may name (R206, R209). -/
inductive EngReg where
  | d (n : Fin 16) | a (n : Fin 4) | ag (n : Fin 8) (f : AgField)
  | lc0 | lc1 | sr | spc | rpi | tmr | imaskLo | imaskHi
deriving DecidableEq, Repr

/-- A condition of BRC over SR's flags (R202; the manual lists the flags C, V, Z, N, not the condition codes). -/
inductive Cond where | z | nz | c | nc | n | nn | v | nv
deriving DecidableEq, Repr

/-- Where AGSET and LOOP take their value. -/
inductive ImmOrD where | imm (v : Int) | d (n : Fin 16)
deriving DecidableEq, Repr
inductive LoopCount where | imm (n : BitVec 16) | lc0
deriving DecidableEq, Repr

/-- The bus of a local access (Table 8.2). -/
inductive EBus where | x | y | c
deriving DecidableEq, Repr

/-- A chain frame as a port receives it (Table 12.1): header fields and payload words. -/
structure Frame where
  typ     : Byte := 0
  prio    : Fin 8 := 0
  westward : Bool := false
  wrapped : Bool := false
  ts      : Bool := false
  hops    : Byte := 128
  src     : BitVec 7 := 0
  dst     : BitVec 7 := 0
  seq     : W32 := 0
  lseq    : Byte := 0
  epoch   : BitVec 16 := 0
  payload : List W32 := []
deriving DecidableEq, Repr

/-- What the work of a start step found (R356, R359, R31). -/
structure WorkResult where
  imageOk     : Bool := true
  digestOk    : Bool := true
  retainedOk  : Bool := true
  failedTiles : List (Nat × Nat × Nat) := []
deriving DecidableEq, Repr

/-- The straps at their sampling edge (Table 14.1). -/
structure Straps where
  chainRole : BitVec 2 := 0
  ref       : BitVec 2 := 0
  boot      : BitVec 2 := 0
  mode4     : Bool := false
  hostLanes : BitVec 2 := 0
  safe      : Bool := false
deriving DecidableEq, Repr

/-- A reference or pulse input: 0 to 2 REFA to REFC, 3 CHAIN, 4 PPS_A, 5 PPS_B (Table 13.7). -/
abbrev RefInput := Fin 6

inductive Instr where
  -- host interface and rings
  | registerWrite (fn : Fin 256) (bar : Bar) (off size : Nat) (v : W32)
  | setupCommit
  | setupSeal
  | functionCommit (fn : Fin 256)
  | doorbell (fn : Fin 256) (q : Fin 128) (v : W32)
  | ringReadTimeout (fn : Fin 256) (q : Fin 128)
  | functionLevelReset (fn : Fin 256)
  | pcieHotReset
  | completionWrite (fn : Fin 256) (q : Fin 128) (acc : HostAcc)
  | outRecordWrite (fn : Fin 256) (q : Fin 128) (acc : HostAcc)
  | evtOverflow (fn : Fin 256)
  | nop (c : RingCmd)
  | dmaCopy (c : RingCmd)
  | memAlloc (c : RingCmd)
  | memFree (c : RingCmd)
  | tuInval (c : RingCmd)
  | dmaBurst (ch : Fin 32) (hostData : List Byte) (srcAcc dstAcc : HostAcc) (ending : BurstEnd)
  | dmaTransferEnd (ch : Fin 32)
  | dmaReadTimeout (ch : Fin 32)
  -- planning, lanes and ingest
  | planningFreeze
  | blockBoundary
  | ingestPacket (lane : Fin 288) (framed : Bool) (symbols : List Byte)
  | closeWaitExpiry (die : Fin 4)
  | cornerTurnRead (die : Fin 4) (lane : Fin 72) (ecc : EccResult)
  | laneMapSwitch (c : RingCmd)
  | laneGroupRestart (c : RingCmd)
  | clockWindowEnd (clk : ClockSel) (count : Nat)
  | detectTimeout (g : Fin 36)
  | trainComplete (g : Fin 36)
  | trainTimeout (g : Fin 36) (centred : BitVec 8)
  | lockComplete (g : Fin 36)
  | lockTimeout (g : Fin 36) (locked : BitVec 8)
  | tsbSetsReceived (lane : Fin 288) (tsb : Tsb)
  | laneErrorThreshold (lane : Fin 288)
  | laneRelock (lane : Fin 288)
  | relockTimeout (lane : Fin 288)
  | outRxDetect (g : Fin 8) (detected : BitVec 8)
  | outTrainEnd (g : Fin 8)
  | outCapsEnd (g : Fin 8)
  -- channeliser and HBM
  | chnGainLoad (c : RingCmd)
  | chnStatsRead (c : RingCmd)
  | gainSwitch (die : Fin 4) (t : Nat)
  | statsIntervalEnd (die : Fin 4) (firstSlot : Nat)
  | slotPowerCompare (die : Fin 4) (slot : Nat)
  | hbmTempRead (die : Fin 4) (stack : Fin 2) (celsius : Byte)
  | hbmRefresh (die : Fin 4) (stack : Fin 2)
  | hbmReadReturn (die : Fin 4) (stack : Fin 2) (ue : Bool) (fine band u : Nat)
  -- correlation
  | subarrayStart (c : RingCmd)
  | subarrayStop (c : RingCmd)
  | planLoad (c : RingCmd)
  | planRead (c : RingCmd)
  | passSwitch (die : Fin 4)
  | visEmit (die : Fin 4)
  | amendEmit (die : Fin 4)
  -- beams and top-k
  | beamStart (c : RingCmd)
  | beamStop (c : RingCmd)
  | beamWeights (c : RingCmd)
  | weightsReady (plan : Fin 4096)
  | beamCapture (c : RingCmd)
  | topkSet (c : RingCmd)
  | dbWaitExpiry (die : Fin 4)
  | sweepDeliver (die : Fin 4)
  | rotationStart (die : Fin 4) (slot : Nat)
  | bandsumTimeout (plan : Fin 4096)
  | subblockEnd (die : Fin 4) (tile : Fin 256) (subblock : Nat)
  -- excision
  | excPolicy (c : RingCmd)
  | flagPost (c : RingCmd)
  | detectionInput (tenant : Fin 256) (d : Detection)
  | flagAccept
  | flagReceive (die : Fin 4)
  -- carrier chains
  | cchStart (c : RingCmd)
  | cchRetune (c : RingCmd)
  | cchStop (c : RingCmd)
  | chainInputTimeout (ch : Fin 512) (channel : Fin 32)
  | chainSample (ch : Fin 512)
  | chainSettled (ch : Fin 512)
  | thresholdWindowEnd (ch : Fin 512)
  | agcWindowEnd (ch : Fin 512)
  | burstMaxLen (ch : Fin 512)
  | writebackApply (ch : Fin 512)
  | bitPortArrive (ch : Fin 512) (bit : Bool)
  -- Cellek engine instructions: issued by engine `e` at its program counter
  | engineNop (e : Fin 96) (o : EngOp)
  | add (e : Fin 96) (o : EngOp) (dst x y : Fin 16)
  | sub (e : Fin 96) (o : EngOp) (dst x y : Fin 16)
  | neg (e : Fin 96) (o : EngOp) (dst x : Fin 16)
  | abs (e : Fin 96) (o : EngOp) (dst x : Fin 16)
  | cmp (e : Fin 96) (o : EngOp) (x y : Fin 16)
  | min (e : Fin 96) (o : EngOp) (dst x y : Fin 16)
  | max (e : Fin 96) (o : EngOp) (dst x y : Fin 16)
  | and (e : Fin 96) (o : EngOp) (dst x y : Fin 16)
  | or (e : Fin 96) (o : EngOp) (dst x y : Fin 16)
  | xor (e : Fin 96) (o : EngOp) (dst x y : Fin 16)
  | shl (e : Fin 96) (o : EngOp) (dst x : Fin 16) (sh : Fin 25)
  | shr (e : Fin 96) (o : EngOp) (dst x : Fin 16) (sh : Fin 25)
  | sha (e : Fin 96) (o : EngOp) (dst x : Fin 16) (sh : Fin 25)
  | mac (e : Fin 96) (o : EngOp) (acc : Fin 4) (x y : Fin 16)
  | msu (e : Fin 96) (o : EngOp) (acc : Fin 4) (x y : Fin 16)
  | mac2 (e : Fin 96) (o : EngOp) (acc1 acc2 : Fin 4) (x1 y1 x2 y2 : Fin 16)
  | cmac (e : Fin 96) (o : EngOp) (pair : Fin 2) (x y : Fin 8)
  | cmacj (e : Fin 96) (o : EngOp) (pair : Fin 2) (x y : Fin 8)
  | lmsu (e : Fin 96) (o : EngOp) (ag : Fin 8) (mu : Fin 16) (err x : Fin 8) (sh : Fin 64)
  | rnd (e : Fin 96) (o : EngOp) (dst : Fin 16) (acc : Fin 4) (sh : Fin 33)
  | mva (e : Fin 96) (o : EngOp) (acc : Fin 4) (x : Fin 16) (sh : Fin 33)
  | clr (e : Fin 96) (o : EngOp) (acc : Fin 4)
  | agset (e : Fin 96) (o : EngOp) (ag : Fin 8) (f : AgField) (src : ImmOrD)
  | agget (e : Fin 96) (o : EngOp) (dst : Fin 16) (ag : Fin 8) (f : AgField)
  | ld (e : Fin 96) (o : EngOp) (bus : EBus) (dst : Fin 16) (ag : Fin 8) (adv : Bool)
  | st (e : Fin 96) (o : EngOp) (bus : EBus) (src : Fin 16) (ag : Fin 8) (adv : Bool)
  | ldh (e : Fin 96) (o : EngOp) (bus : EBus) (dst : Fin 16) (ag : Fin 8) (adv : Bool)
  | ldg (e : Fin 96) (o : EngOp) (bus : EBus) (dst : Fin 16) (ag : Fin 8) (adv : Bool)
  | stg (e : Fin 96) (o : EngOp) (bus : EBus) (src : Fin 16) (ag : Fin 8) (adv : Bool)
  | groupMemoryReturn (e : Fin 96)
  | mvm (e : Fin 96) (o : EngOp) (toMain : Bool) (src dst : EngReg)
  | br (e : Fin 96) (o : EngOp) (target : BitVec 13)
  | brc (e : Fin 96) (o : EngOp) (cond : Cond) (target : BitVec 13)
  | call (e : Fin 96) (o : EngOp) (target : BitVec 13)
  | ret (e : Fin 96) (o : EngOp)
  | dbnz (e : Fin 96) (o : EngOp) (target : BitVec 13)
  | loop (e : Fin 96) (o : EngOp) (n : LoopCount) (len : Nat)
  | rti (e : Fin 96) (o : EngOp)
  | waite (e : Fin 96) (o : EngOp) (mask : BitVec 64)
  | evs (e : Fin 96) (o : EngOp) (line : Fin 64)
  | clre (e : Fin 96) (o : EngOp) (input : Fin 64)
  | wbk (e : Fin 96) (o : EngOp) (chain gen freqLo freqHi time close evm : Fin 16)
  | flg (e : Fin 96) (o : EngOp) (ag : Fin 8)
  | bpb (e : Fin 96) (o : EngOp) (c : BitVec 10)
  | dsub (e : Fin 96) (o : EngOp) (ag : Fin 8)
  | tsk (e : Fin 96) (o : EngOp) (dn : Fin 16)
  | shfx (e : Fin 96) (o : EngOp) (dst : Fin 16) (n : Nat)
  | vmac64 (e : Fin 96) (o : EngOp) (agx agy agc : Fin 8) (sh : Nat)
  | fft4 (e : Fin 96) (o : EngOp) (agy agc : Fin 8) (q s : Nat)
  | hlt (e : Fin 96) (o : EngOp)
  -- engine events and commands
  | tmrExpiry (e : Fin 96)
  | interruptAccept (e : Fin 96)
  | abortApply (e : Fin 96)
  | haltTake (e : Fin 96)
  | engLoad (c : RingCmd)
  | engStart (c : RingCmd)
  | engHalt (c : RingCmd)
  | engResume (c : RingCmd)
  | shotClockExpiry (g : Fin 12)
  -- decoder fabric
  | decCodeLoad (c : RingCmd)
  | decProfileLoad (c : RingCmd)
  | decoderJobEnd (jobSeq : Nat)
  | modeSwitchEnd
  | deadlineExpiry (taskSeq : Nat)
  -- arbitration and possession
  | arbCommit
  | arbSet (c : RingCmd)
  | posAcquire (c : RingCmd)
  | posRelease (c : RingCmd)
  | posClear (c : RingCmd)
  | posWaitTimeout (lock : Fin 1024) (holder : Nat)
  | posHoldTimeout (lock : Fin 1024)
  -- management chain
  | managementCycle
  | beacon (p : Fin 2) (f : Frame)
  | enum (p : Fin 2) (f : Frame)
  | join (p : Fin 2) (f : Frame)
  | assign (p : Fin 2) (f : Frame)
  | topo (p : Fin 2) (f : Frame)
  | lockReq (p : Fin 2) (f : Frame)
  | lockResp (p : Fin 2) (f : Frame)
  | lockRel (p : Fin 2) (f : Frame)
  | chainAck (p : Fin 2) (lseq : Byte)
  | chainAckTimeout (p : Fin 2) (lseq : Byte)
  | chainPortTrainDone (p : Fin 2)
  | chainPortTrainTimeout (p : Fin 2)
  | chainPortSilence (p : Fin 2)
  | chainPortRetry (p : Fin 2)
  | beaconLoss
  | masterHoldFilter
  | benchStartWait
  | stateCopy (epoch : BitVec 16) (body : List Byte) (crcOk : Bool)
  | stateCopyAck (crcOk : Bool)
  | chainLockResend (tag : BitVec 16) (holder : Nat)
  | chainReenum (c : RingCmd)
  | chainPortOn (c : RingCmd)
  | chainTopoRead (c : RingCmd)
  | chainRoleSwap (c : RingCmd)
  | roleSwapTimeout
  | chainPosAcquire (c : RingCmd)
  | chainPosRelease (c : RingCmd)
  | chainPosClear (c : RingCmd)
  -- time and reference
  | syncSend
  | delayReqSend
  | sync (p : Fin 2) (f : Frame)
  | delayReq (p : Fin 2) (f : Frame)
  | delayResp (p : Fin 2) (f : Frame)
  | tuNowLatch (fn : Fin 256)
  | tuSet (c : RingCmd)
  | tuSetApply
  | tuLabel (c : RingCmd)
  | timecontEmit (k : Nat)
  | refSet (c : RingCmd)
  | refActivityWindow (x : RefInput) (count : Nat)
  | refGate (x : RefInput) (offsetPpb : Int)
  | refWtrExpiry (x : RefInput)
  | ppsEdge (n : Fin 2)
  | extTrig
  | refLoopWrite (v : W32)
  | rootSteerWrite (v : W32)
  | openTimeout
  | phaseReport (phase : W32)
  | refPhaseRead
  -- start-up, reset, sleep, power
  | powerOn
  | brownOut
  | pinReset
  | watchdogExpiry
  | debugReset
  | clockFailure
  | lockup
  | pwrGoodRise (straps : Straps)
  | pwrGoodFall (coreBelow90 : Bool)
  | domainRelease (n : Fin 14)
  | domainWorkEnd (n : Fin 14) (r : WorkResult)
  | rstBootGo (v : W32)
  | nvfsPulseEnd
  | softReset (c : RingCmd)
  | blockReset (c : RingCmd)
  | blockIdle (b : Fin 37)
  | blockIdleTimeout (b : Fin 37)
  | blockResetRelease (b : Fin 37)
  | dieSet (c : RingCmd)
  | sleepEnter (c : RingCmd)
  | sleepDrainTimeout
  | sleepReqAssert
  | wakeN
  | chainWakeDetect (p : Fin 2)
  | sleepTimerExpiry
  | wake (p : Fin 2) (f : Frame)
  | sleepNote (p : Fin 2) (f : Frame)
  | governorSample (source : Fin 17) (current : BitVec 12) (step : Nat)
  | thermalRead (source : Fin 17) (celsius : Int)
  | selfProtect (c : RingCmd)
  | faultLogRead (c : RingCmd)
  | chainReset (c : RingCmd)
  | resetReq (p : Fin 2) (f : Frame)
  | resetAck (p : Fin 2) (f : Frame)
  | chainResetTimeout
  | smbusBlockRead (code : Byte)
  | resetNRelease (straps : Straps)
  | latchedWake
  | wakeClockEnd (p : Fin 2)
  | badFrame (p : Fin 2)
  | unknownTypeFrame (p : Fin 2) (f : Frame)
  | masterHoldInAssert (withinTie : Bool)
  | missingCopy
  | dmaWithdrawalEnd (ch : Fin 32) (die : Fin 4) (stack : Fin 2) (port : Fin 8)
  | ppsNoEdge (n : Fin 2)
  | setupCommitDone
  | perstN
deriving DecidableEq, Repr

end Sys2Proof
end

