-- ==== Sys2Proof/Config.lean ====
section
/-! DEFINITION. What the manual leaves to the implementation: opaque constants without a body, so that no
proof can see a value of them. Each is named in the assumption log. -/
namespace Sys2Proof

/-- UNVERIFIED, safe: the built-in prototype coefficient h[j] for `log2F` (R79; the manual gives only its response, Table 3.1). -/
opaque Config.prototype : (log2F j : Nat) → BitVec 18

/-- UNVERIFIED, safe: the built-in stitch coefficient g_K[j] for K = 2^log2K (R171; not tabulated by the manual). -/
opaque Config.stitchCoef : (log2K j : Nat) → BitVec 18

/-- UNVERIFIED, safe: one output sample of the decimator and resampler of a chain (R174, R175: the device designs
the filter for the preset, D and RATIO; the manual gives its response only), from the mixed samples and the position. -/
opaque Config.filterOut : (preset d rs pos : Nat) → List Cx → Cx

/-- UNVERIFIED, safe: a fresh unsigned value where the manual states no result. Applied to the free-value counter. -/
opaque Config.freeNat : Nat → Nat

/-- UNVERIFIED, safe: the bit that a decoder decides for an LLR of 0 (R228: positive favours 0). -/
opaque Config.zeroLlrBit : Bool

/-- UNVERIFIED, safe: whether SHIFT of an LDPC circulant moves against its rows (Table 9.3 names SHIFT only). -/
opaque Config.ldpcShiftBack : Bool

/-- UNVERIFIED, safe: the sum of a variable as the decoder keeps it, from the exact sum (R229 gives the width of messages
only). -/
opaque Config.ldpcPosterior : Int → Int

/-- UNVERIFIED, safe: whether the newest bit meets the most significant bit of a TURBO polynomial (R262). -/
opaque Config.turboTapMsb : Bool

/-- UNVERIFIED, safe: the place among the 12 tail bytes of systematic and parity bit 2i and 2i + 1 of the first constituent,
and from 6 on of the second (R228 gives their number). -/
opaque Config.turboTail : Nat → Nat

/-- UNVERIFIED, safe: whether the newest bit meets the most significant of a generator's Kc bits (R262). -/
opaque Config.convTapMsb : Bool

/-- UNVERIFIED, safe: which of two paths of equal metric survives, by step and state (R229). -/
opaque Config.viterbiTie : (step state : Nat) → Bool

/-- UNVERIFIED, safe: METRIC of a CONV job (R237: the final path metric, whose scale R229 does not state). -/
opaque Config.convMetric : (code input : List Byte) → Nat

/-- UNVERIFIED, safe: ITERS of a CONV job (R237 states it for the kinds that iterate). -/
opaque Config.convIters : (code : List Byte) → Nat

/-- UNVERIFIED, safe: the sine-and-cosine pair of the NCO at the top 20 bits of phase, 18-bit amplitude (R172:
amplitude and spur level stated, rounding not). -/
opaque Config.ncoSinCos : (phase20 : Nat) → Cx

/-- UNVERIFIED, safe: the STEER weight of R133 for a phase and a gain (the exact real exponential is rounded; the
manual states the formula and at least 48 bits of phase, not the evaluation order). -/
opaque Config.steerWeight : (freqHz16 : Int) → (tau : Int) → (gain : Nat) → Cx

/-- UNVERIFIED, safe: the weights of a beam plan before its first BEAM_WEIGHTS (R132 gives the copies no contents): by the
number drawn at its start and the place in the table; real part in the lower half. -/
opaque Config.unsetWeight : (draw i : Nat) → BitVec 32

/-- UNVERIFIED, safe: 10·log10 of a ratio in 0.01 dB (R85 Table 3.2, R187): the manual states no rounding of the logarithm. -/
opaque Config.centiBel : (num den : Nat) → Int

/-- UNVERIFIED, safe: the multiplier 10^(GAIN/20) to a 24-bit mantissa, applied to a sample part (R179). -/
opaque Config.gainApply : (gainCentiDb : Int) → (part : Int) → Int

/-- UNVERIFIED, safe: the taps u of one stitch branch (R170: the inverse transform's twiddle rounding at each product
is stated, the order of its products is not). -/
opaque Config.stitchIfft : (log2K : Nat) → List Cx → List Cx

/-- UNVERIFIED, safe: the factory tile map and field repair list of the NVFS (R31, Table 14.6): bit i of (die, region)
is 1 where region tile index i is listed as active. -/
opaque Config.factoryMap : (die region : Nat) → BitVec 56

/-- UNVERIFIED, safe: code entries 0 to 15 as loaded from the NVFS at every start (R227). -/
opaque Config.nvCode : (codeId : Nat) → List Byte

/-- UNVERIFIED, safe: profile entries 0 to 31 as loaded from the NVFS at every start (R231). -/
opaque Config.nvProfile : (entry : Nat) → List Byte

/-- UNVERIFIED, safe: the 64-bit device identity sent in JOIN (Table 12.2; the manual gives no value). -/
opaque Config.identity : BitVec 64

/-- UNVERIFIED, safe: the ordered grade of the part: true for -E, false for -C (R2). -/
opaque Config.gradeE : Bool

end Sys2Proof
end

