-- ==== Sys2Proof/Machine/Bits.lean ====
section
/-! DEFINITION. Numbers, bit fields, byte order, rounding and CRC-32, and the operations on sparse tables. -/
namespace Sys2Proof.Machine

open Sys2Proof

/-- Bits `hi:lo` of a number (R8). -/
def fld (v hi lo : Nat) : Nat := v / 2 ^ lo % 2 ^ (hi + 1 - lo)

/-- Bit `k` of a number. -/
def bit (v k : Nat) : Bool := v / 2 ^ k % 2 == 1

def bnat (b : Bool) : Nat := if b then 1 else 0

/-- `n` in two's complement of `w` bits as an integer (R12). -/
def toSigned (w n : Nat) : Int :=
  if n % 2 ^ w < 2 ^ (w - 1) then (n % 2 ^ w : Nat) else (n % 2 ^ w : Nat) - (2 ^ w : Nat)

/-- An integer as a `w`-bit two's complement field (R12). -/
def ofSigned (w : Nat) (i : Int) : Nat := (i % (2 ^ w : Nat)).toNat

def clampI (lo hi i : Int) : Int := if i < lo then lo else if hi < i then hi else i

/-- A counter that stops at its maximum ("saturating"). -/
def satTo (m n : Nat) : Nat := min m n

/-- Convergent rounding, half to even, of `a / b` (R11). -/
def rneDiv (a : Int) (b : Nat) : Int :=
  let q := a / (b : Int)
  let r := a % (b : Int)
  if 2 * r < b then q else if (b : Int) < 2 * r then q + 1 else if q % 2 == 0 then q else q + 1

/-- Convergent rounding of `a / 2^n` (R11). -/
def rneShift (a : Int) (n : Nat) : Int := rneDiv a (2 ^ n)

def ceilDiv (a b : Nat) : Nat := (a + b - 1) / b

/-- log2 rounded down. -/
def log2 (n : Nat) : Nat := Nat.log2 n

def isPow2 (n : Nat) : Bool := n != 0 && 2 ^ Nat.log2 n == n

/-- `n` bytes, least significant first (R12). -/
def le : Nat → Nat → List Byte
  | 0, _ => []
  | n + 1, v => BitVec.ofNat 8 v :: le n (v / 256)

/-- The number that bytes spell, least significant first (R12). -/
def ofLe : List Byte → Nat
  | [] => 0
  | b :: r => b.toNat + 256 * ofLe r

/-- The number of `n` bytes at offset `off`. -/
def leAt (bs : List Byte) (off n : Nat) : Nat := ofLe ((bs.drop off).take n)

def le32 (v : Nat) : List Byte := le 4 v

/-- 32-bit rows (R13), each as its bytes. -/
def rows (ws : List Nat) : List Byte := ws.flatMap le32

def zeros (n : Nat) : List Byte := List.replicate n 0

/-- Bytes padded with zeros to a multiple of `n`. -/
def padTo (n : Nat) (bs : List Byte) : List Byte := bs ++ zeros ((n - bs.length % n) % n)

/-- One bit of the reflected CRC-32 of polynomial 0x04C1_1DB7 (R59). -/
def crcBit (c : Nat) : Nat := if c % 2 == 1 then (c / 2) ^^^ 0xEDB88320 else c / 2

def crcByte (c : Nat) (b : Byte) : Nat :=
  crcBit (crcBit (crcBit (crcBit (crcBit (crcBit (crcBit (crcBit (c ^^^ b.toNat))))))))

/-- CRC-32 of R59: initial value and final XOR 0xFFFF_FFFF. -/
def crc32 (bs : List Byte) : Nat := bs.foldl crcByte 0xFFFFFFFF ^^^ 0xFFFFFFFF

/-! ### Sparse tables -/

variable {α : Type}

/-- Read index `k`; an unlisted index reads as `d`. -/
def getT (d : α) : Tab α → Nat → α
  | [], _ => d
  | (a, v) :: r, k => if k = a then v else getT d r k

/-- Write index `k`, keeping the form: indices rising, no entry equal to `d`. -/
def setT [DecidableEq α] (d : α) : Tab α → Nat → α → Tab α
  | [], k, v => if v = d then [] else [(k, v)]
  | (a, w) :: r, k, v =>
    if k < a then (if v = d then (a, w) :: r else (k, v) :: (a, w) :: r)
    else if k = a then (if v = d then r else (k, v) :: r)
    else (a, w) :: setT d r k v

/-- Rewrite index `k` of a table. -/
def modT [DecidableEq α] (d : α) (t : Tab α) (k : Nat) (f : α → α) : Tab α := setT d t k (f (getT d t k))

/-- The canonical form: every index above `lo`, indices rising, no entry equal to `d`. -/
def wfFrom [DecidableEq α] (d : α) : Option Nat → Tab α → Bool
  | _, [] => true
  | lo, (a, v) :: r => (match lo with | none => true | some l => decide (l < a)) && !decide (v = d) && wfFrom d (some a) r

def wfT [DecidableEq α] (d : α) (t : Tab α) : Bool := wfFrom d none t

/-- Write a run of values from index `k` on. -/
def setRun [DecidableEq α] (d : α) (t : Tab α) (k : Nat) : List α → Tab α
  | [] => t
  | v :: r => setRun d (setT d t k v) (k + 1) r

/-- The entries of two tables, those of the second in force where both list an index. -/
def mergeT : Tab α → Tab α → Tab α
  | [], n => n
  | (a, v) :: r, n =>
    let lo := n.takeWhile fun e => decide (e.1 < a)
    match n.dropWhile fun e => decide (e.1 < a) with
    | [] => lo ++ (a, v) :: r
    | (b, w) :: n' => lo ++ if b = a then (a, w) :: mergeT r n' else (a, v) :: mergeT r ((b, w) :: n')

/-- Read `n` values from index `k` on. -/
def getRun (d : α) (t : Tab α) (k : Nat) : Nat → List α
  | 0 => []
  | n + 1 => getT d t k :: getRun d t (k + 1) n

/-- Erase every index of the half-open range. -/
def clearRun (t : Tab α) (k n : Nat) : Tab α := t.filter (fun e => decide (e.1 < k) || decide (k + n ≤ e.1))

/-- Replace the entries of a list that meet `p`. -/
def mapIf (p : α → Bool) (f : α → α) (l : List α) : List α := l.map (fun x => if p x then f x else x)

/-- The first element that meets `p`, and the list without it. -/
def takeFirst (p : α → Bool) : List α → Option (α × List α)
  | [] => none
  | x :: r => if p x then some (x, r) else (takeFirst p r).map (fun y => (y.1, x :: y.2))

/-- Insert in rising order of `key`, behind equal keys. -/
def insertBy (key : α → Nat) (x : α) : List α → List α
  | [] => [x]
  | y :: r => if key x < key y then x :: y :: r else y :: insertBy key x r

def sortBy (key : α → Nat) (l : List α) : List α := l.foldl (fun acc x => insertBy key x acc) []

/-- The element of the smallest key, the first of several. -/
def minBy (key : α → Nat) : List α → Option α
  | [] => none
  | x :: r => match minBy key r with
    | none => some x
    | some y => if key y < key x then some y else some x

/-- The numbers of a list without repeats, in order of first appearance. -/
def dedup (l : List Nat) : List Nat := l.foldl (fun acc x => if acc.contains x then acc else acc ++ [x]) []

def sumN (l : List Nat) : Nat := l.foldl (· + ·) 0

end Sys2Proof.Machine
end

