-- ==== Sys2Proof/Machine/State.lean ====
section
/-! DEFINITION. The state of the block as plain data, the reasons a step can stop, and the state after reset. -/
namespace Sys2Proof.Machine

open Sys2Proof

/-- A ring command waiting for its completion (R256, R257): its CMD ring, tag, opcode, and the completion ring that
RING_CFG.CPLQ named when it started. -/
structure CmdRef where
  fn  : Nat := 0
  q   : Nat := 0
  tag : BitVec 16 := 0
  opc : Byte := 0
  cplq : Nat := 0
deriving DecidableEq, Repr

/-- A completion waiting to be written (Table 10.6). -/
structure Cpl where
  cmd    : CmdRef := {}
  status : Byte := 0
  res0   : W32 := 0
  res1   : W32 := 0
deriving DecidableEq, Repr

/-- An output record before it is written: the fields of the common header (Table 10.10), its body bytes, and the
array die in whose record staging it waits, if any (R103). -/
structure Rec where
  typ    : Byte := 0
  tenant : Nat := 0
  sub    : BitVec 16 := 0
  block  : W32 := 0
  first  : Nat := 0
  tdom   : Nat := 0
  notc   : Bool := true
  tcseq  : Nat := 0
  body   : List Byte := []
  die    : Option Nat := none
deriving DecidableEq, Repr

/-- What the block has sent to the outside, in order: the model's own record of its outputs. -/
inductive Output where
  | hostWrite (fn iova : Nat) (bytes : List Byte)
  | msix (fn vec : Nat)
  | frame (port : Nat) (f : Frame)
  | ack (port : Nat) (lseq : Byte)
  | twinCopy (bytes : List Byte)
  | twinCrc (crc : W32)
  | smbus (word : W32)
  | read (fn : Nat) (v : W32)
  | lanePacket (lane : Nat) (bytes : List Byte)
  | detection (bytes : List Byte)
deriving DecidableEq, Repr

/-! ### Setup and functions -/

/-- SETUP_STATUS and SETUP_CONFLICT (Table 10.14), the result that SETUP_COMMIT_DONE will publish, and the highest
sample counter that had arrived at SETUP_SEAL (R82). -/
structure Setup where
  sealed    : Bool := false
  busy      : Bool := false
  lost      : Bool := false
  last      : Byte := 0
  confClass : Byte := 0
  confA     : BitVec 24 := 0
  confB     : BitVec 24 := 0
  result    : Option (Byte × Byte × BitVec 24 × BitVec 24) := none
  sealCtr   : Option Nat := none
deriving DecidableEq, Repr

/-- The RWS registers of one ring (Table 10.14): cold LOG2DEPTH is 4. -/
structure RingRegs where
  baseLo : W32 := 0
  baseHi : W32 := 0
  cfg    : W32 := 0x04000000
  wbLo   : W32 := 0
  wbHi   : W32 := 0
deriving DecidableEq, Repr

inductive RingState where | off | run | error
deriving DecidableEq, Repr

/-- One ring of one function (R249 to R254). `recEnds` are the record boundaries still in an OUT ring; `outstanding`
counts the started and uncompleted commands of a CMD ring. -/
structure Ring where
  sh          : RingRegs := {}
  co          : RingRegs := {}
  p           : BitVec 24 := 0
  c           : BitVec 24 := 0
  tail        : BitVec 24 := 0
  state       : RingState := .off
  armed       : Bool := false
  err         : Nat := 0
  discards    : Nat := 0
  recEnds     : List (BitVec 24) := []
  cplWait     : List Cpl := []
  staged      : List Rec := []
  outstanding : Nat := 0
deriving DecidableEq, Repr

/-- A protected band of SELF_PROTECT (R378), in Hz. -/
structure Band where
  lo : Nat := 0
  hi : Nat := 0
deriving DecidableEq, Repr

/-- A tenant's excision policy (Table 6.3). -/
structure Policy where
  preset    : Nat := 0
  dest      : Nat := 0
  pad       : Nat := 0
  self      : Nat := 0
  subscribe : List Nat := []
  latePub   : Nat := 0
  lateCap   : Nat := 65535
deriving DecidableEq, Repr

/-- A TU_LABEL on its way to its switch counter (R338): the C at which it passed its checks, and the counter once fixed. -/
structure LabelPend where
  dom  : Nat := 0
  dest : Nat := 0
  t0   : Nat := 0
  k    : Option Nat := none
  cmd  : CmdRef := {}
deriving DecidableEq, Repr

/-- A channeliser threshold event that a tenant's detection firmware follows while it is open (R149): the die-local fine
channel, the next slot to flag, and what it posts. -/
structure DetOpen where
  die  : Nat := 0
  fine : Nat := 0
  next : Nat := 0
  kind : Nat := 0
  cause : Nat := 1
deriving DecidableEq, Repr

/-- Per-function state: BAR0 registers other than rings, tenant policy, label and TIMECONT state. -/
structure Fn where
  evtLost   : Nat := 0
  evtFull   : Nat := 0
  last      : Byte := 0
  evtValidSh : Bool := false
  evtQSh    : Nat := 0
  evtValid  : Bool := false
  evtQ      : Nat := 0
  staleValidSh : Bool := false
  staleQSh  : Nat := 0
  staleValid : Bool := false
  staleQ    : Nat := 0
  tuNow     : List W32 := [0, 0, 0, 0, 0, 0, 0, 0]
  rsnap     : Tab (Option (BitVec 24 × BitVec 24)) := []
  msixMask  : List Nat := []
  msixPend  : List Nat := []
  charge    : Tab Nat := []
  chargeNow : Tab Nat := []
  flagDrop  : Tab Nat := []
  graceCnt  : Tab Nat := []
  unamend   : Tab Nat := []
  miss      : Nat := 0
  refused   : Nat := 0
  decoded   : Nat := 0
  blocking  : Bool := false
  tileUse   : Nat := 0
  useNow    : Nat := 0
  policy    : Policy := {}
  policyNext : Option Policy := none
  detOpen   : List DetOpen := []
  labelDom  : Nat := 0
  labelDest : Option Nat := none
  labelPend : Option LabelPend := none
  labelSw   : List (Nat × Nat) := []
  tcStarted : Bool := false
  tcCount   : Nat := 0
  tcList    : List (Nat × Nat) := []
  tcLast    : Nat := 0
  workStarted : Bool := false
  startK    : Option Nat := none
  bands     : List Band := []
  bandDest  : Option Nat := none
  bandsCmds : List CmdRef := []
deriving DecidableEq, Repr

/-! ### Ingest and lanes -/

inductive LaneState where | down | centred | locked | caps | active | relock | dead
deriving DecidableEq, Repr

inductive GrpState where | disabled | detect | train | lock | caps | active | failed
deriving DecidableEq, Repr

/-- A divot marker of a full FIFO (R70); `ord` is its place in the lane's order of opening. -/
structure Marker where
  ch     : Nat := 0
  sig    : Nat := 0
  cnt    : Nat := 0
  lo     : Nat := 0
  hi     : Nat := 0
  drops  : Nat := 0
  period : Nat := 0
  ord    : Nat := 0
deriving DecidableEq, Repr

/-- A stream of a lane (R62, R63): `next` is the expected counter e, `left` the counter up to which the corner turn has
taken it, `seen` says a packet passed check 7 since the die's last close, `inv` the open run of INVALID packets (R65),
`downOpen` that a LANE_DOWN divot is open. -/
structure Stream where
  ch       : Nat := 0
  sig      : Nat := 0
  cnt      : Nat := 0
  next     : Nat := 0
  left     : Nat := 0
  seen     : Bool := true
  inv      : Option (Nat × Nat) := none
  downOpen : Bool := false
  openM    : Option Marker := none
  closedM  : Option Marker := none
deriving DecidableEq, Repr

/-- What an ingest FIFO holds, oldest first (R67 to R71). -/
inductive FifoItem where
  | pkt (ch sig cnt ctr : Nat) (invalid sat : Bool) (samples : List Cx)
  | marker (m : Marker)
  | gap (cause : Byte) (ch sig cnt lo hi : Nat)
deriving DecidableEq, Repr

/-- One ingest data lane with its FIFO and its counters ING_CNT_x (Table 2.9). -/
structure Lane where
  st        : LaneState := .down
  streams   : List Stream := []
  lastSeq   : Option Byte := none
  marks     : Nat := 0
  fifo      : List FifoItem := []
  codeErr   : Nat := 0
  crcErr    : Nat := 0
  hdrErr    : Nat := 0
  mapErr    : Nat := 0
  streamOvf : Nat := 0
  orderErr  : Nat := 0
  eccCe     : Nat := 0
  drops     : Nat := 0
deriving DecidableEq, Repr

/-- An ingest group (ING_GRP_STAT_g, ING_GRP_SRC_g) and its clock windows (R55). -/
structure Group where
  st       : GrpState := .disabled
  retry    : Nat := 0
  laneOrder : Bool := false
  capsMis  : Bool := false
  absent   : Bool := false
  clkOk    : Bool := false
  srcId    : W32 := 0
  good     : Nat := 0
  bad      : Nat := 0
deriving DecidableEq, Repr

/-- An output group (OUT_GRP_STAT_g, R57): detected lanes and dead lanes as masks. -/
structure OutGroup where
  st       : GrpState := .disabled
  detected : BitVec 8 := 0
  dead     : BitVec 8 := 0
  active   : BitVec 8 := 0
deriving DecidableEq, Repr

/-- An output lane (R72, R73): the rest of the record in transmission, the whole records queued behind it (oldest
first, with their tenants), LANE_SEQ and the valid payload bytes sent. -/
structure OutLane where
  head  : List Byte := []
  queue : List (Nat × List Byte) := []
  seq   : Byte := 0
  sent  : Nat := 0
deriving DecidableEq, Repr

/-! ### Array dies -/

/-- One complete statistics interval (R84): per (die-local channel × 4,096 + signal), SRC_SAT and REQ_SAT. -/
structure StatIv where
  firstSlot : Nat := 0
  entries   : Tab (Nat × Nat) := []
deriving DecidableEq, Repr

/-- The running mean and the open threshold event of one fine channel (R85). -/
structure Thr where
  mean  : Option Nat := none
  isOpen : Bool := false
  ratio : Nat := 0
  pdb   : Int := 0
deriving DecidableEq, Repr

/-- A flag entry in a die's table (R143 to R146): `post` its post time, `seqno` its place in the order of acceptance,
`kind` 0 applied, 1 listed as SELF_MARKED, 2 listed as WATCH, `host` that FLAG_POST brought it. -/
structure Flag where
  all    : Bool := false
  cause  : Nat := 0
  ch     : Nat := 0
  sig    : Nat := 0
  first  : Nat := 0
  n      : Nat := 0
  tag    : W32 := 0
  tenant : Nat := 0
  post   : Nat := 0
  seqno  : Nat := 0
  kind   : Nat := 0
  host   : Bool := false
deriving DecidableEq, Repr

/-- One cluster job of a pass (Table 4.5): tile t computes (shared, other[t]) on the two axes. -/
structure Job where
  cluster : Nat := 0
  colShared : Bool := false
  shared  : Nat := 0
  fine    : Nat := 0
  other   : List (Option Nat) := []
deriving DecidableEq, Repr

/-- A pass on a die's timeline (R102, R109, R156): regular, or a correction of the part (flag, subarray, block) that
`correct` names. `mask` is the flags in force when it started, `ue` the bricks (fine channel, band, brick-time) returned
absent to it, `upTo` the fine samples accumulated when it was cut, `fixed` the entries that corrections have applied. -/
structure Pass where
  sub      : Nat := 0
  block    : Nat := 0
  no       : Nat := 0
  jobs     : List Job := []
  resident : Bool := false
  running  : Bool := false
  cut      : Bool := false
  mask     : List Flag := []
  correct  : Option (Nat × Nat × Nat) := none
  ue       : List (Nat × Nat × Nat) := []
  upTo     : Option Nat := none
  fixed    : List Flag := []
deriving DecidableEq, Repr

/-- The drained banks of a pass (R102, R103): for job j and tile t, entry 8j + t, its 256 cells in (r, c) order; or, with
`valid`, the lost counts of an integration that ends on the die. -/
structure Drained where
  pass  : Pass := {}
  banks : List (Nat × List Cx) := []
  blocks : Nat := 1
  first : Nat := 0
  valid : Option (Tab Nat) := none
deriving DecidableEq, Repr

/-- A tile: whether it is withheld, its mode and tenant, the two accumulator banks of its 256 cells and the bank that
integrates (R21, R102), the snapshot of its top-k unit and the counter it was taken at (R138), and its beam jobs. -/
structure Tile where
  withheld : Bool := false
  beam     : Bool := false
  tenant   : Nat := 0
  bank0    : List Cx := []
  bank1    : List Cx := []
  second   : Bool := false
  snap     : List Cx := []
  snapAt   : Option Nat := none
  jobs     : List (Nat × Nat × Nat × Nat) := []
deriving DecidableEq, Repr

/-- The classes of a flag part (Table 6.6). -/
inductive PartClass where
  | onTime | grace | late | unamendable | ignored | amendLost | selfMarked | watch
deriving DecidableEq, Repr

/-- A part of a flag entry: one block of one subarray on one die (R147), with the correction passes not yet ended. -/
structure Part where
  flag   : Nat := 0
  entry  : Flag := {}
  sub    : Nat := 0
  block  : Nat := 0
  cls    : PartClass := .onTime
  left   : Nat := 0
  final  : Bool := false
  amended : Bool := false
deriving DecidableEq, Repr

/-- A finished correction whose AMEND set is to be emitted (R160): the amended jobs with, for each tile t (entry 8j + t),
the differences of its 256 cells, and the changes of the valid counts by (fine channel, a, b). -/
structure Amend where
  part  : Part := {}
  jobs  : List Job := []
  diffs : List (Nat × List Cx) := []
  delta : List ((Nat × Nat × Nat) × Nat) := []
deriving DecidableEq, Repr

/-- A power integration of a beam plan in progress on a die (R127): the slots summed, and for each fine channel and
product its exact sum. -/
structure PowAcc where
  plan   : Nat := 0
  ch     : Nat := 0
  first  : Nat := 0
  slots  : Nat := 0
  sums   : List Cx := []
  sat    : Nat := 0
  zeroed : Nat := 0
deriving DecidableEq, Repr

/-- The VOLT16 values of a direct plan on one die-local channel in a sweep: 64 for each beam. -/
structure SweepVals where
  plan : Nat := 0
  ch   : Nat := 0
  vals : List (List Cx) := []
deriving DecidableEq, Repr

/-- A direct sweep whose values are on their way to the hub, or one that was skipped (R122, R123, R126). -/
structure Sweep where
  n       : Nat := 0
  skipped : Bool := false
  outs    : List SweepVals := []
deriving DecidableEq, Repr

/-- What the sweeps of a slot have given so far for a direct plan on one die-local channel (R125, R135): for each beam
its exact sums, the samples entered as zero, and how many of the 16 sweeps. -/
structure SlotVals where
  plan   : Nat := 0
  ch     : Nat := 0
  slot   : Nat := 0
  sweeps : Nat := 0
  zeroed : Nat := 0
  vals   : List (List Cx) := []
deriving DecidableEq, Repr

/-- A top-k unit's sums of one beam job over a sub-block of 2^size slots (R138): `sixteenths` of a slot summed, and the
power of each row. -/
structure RowAcc where
  plan  : Nat := 0
  block : Nat := 0
  size  : Nat := 0
  job   : Nat × Nat × Nat := (0, 0, 0)
  sixteenths : Nat := 0
  rows  : List Nat := []
deriving DecidableEq, Repr

/-- An array die: ingest side, channeliser, correlator timeline, flags and record staging. From `absentFrom` on samples are
absent (channeliser in reset, R86), `thrHeld` are the events it closed in `heldSlot` (R85); blocks that begin below
`lostBefore` were lost with an HBM controller (R367). -/
structure Die where
  lmset      : Nat := 0
  switch     : Option (Nat × Nat) := none
  oldSet     : Option (Nat × Nat) := none
  lateDiscard : Nat := 0
  closed     : Nat := 0
  highCtr    : Option Nat := none
  coarse     : Tab (Option Cx) := []
  lost       : List (Nat × Nat) := []
  pastSat    : Tab Nat := []
  gains      : List (Nat × Tab (BitVec 16)) := []
  gainLoad   : Option (Nat × List (BitVec 16)) := none
  gainOnce   : Bool := false
  requantTo  : Nat := 0
  srcSat     : Tab Nat := []
  stats      : List StatIv := []
  satAny     : Nat := 0
  gainClamp  : Nat := 0
  thr        : Tab Thr := []
  tiles      : Tab Tile := []
  passes     : List Pass := []
  doneP      : List Pass := []
  drained    : List Drained := []
  passRun    : Nat := 0
  passCount  : Nat := 0
  passCut    : Nat := 0
  stall      : Nat := 0
  ueLog      : List (Nat × Nat × Nat) := []
  ueOverflow : Bool := false
  flags      : List Flag := []
  flagTx     : List Flag := []
  flagRx     : List Flag := []
  parts      : List Part := []
  amends     : List Amend := []
  corrCyc    : Nat := 0
  corrNow    : Nat := 0
  cntLate    : Nat := 0
  cntUnam    : Nat := 0
  sweepOut   : List Sweep := []
  slotVals   : List SlotVals := []
  rowAccs    : List RowAcc := []
  rotDone    : Tab Nat := []
  direct     : Tab (Option Cx) := []
  skip       : Nat := 0
  zeroed     : Nat := 0
  zeroedNow  : Nat := 0
  wswDefer   : Nat := 0
  beamTiles  : Nat := 0
  topkDrop   : Nat := 0
  topkRecs   : Nat := 0
  topkNow    : Nat := 0
  enabled    : Bool := true
  dieReady   : Bool := true
  capture    : List (Nat × Nat × List Byte) := []
  staging    : Tab Nat := []
  powers     : List PowAcc := []
  sweepNext  : Option Nat := none
  sweepDue   : Nat := 0
  beamUe     : List (Nat × Nat × Nat) := []
  absentFrom : Option Nat := none
  thrHeld    : List (Nat × Thr) := []
  heldSlot   : Nat := 0
  lostBefore : Nat := 0
deriving DecidableEq, Repr

/-- One HBM stack and its controller (HBM_STAT_d_k, HBM_ARB_STAT_d_k) and the class B grant holder of each port. -/
structure Stack where
  temp     : Byte := 0
  refX2    : Bool := false
  hot      : Bool := false
  overtemp : Bool := false
  ue       : Nat := 0
  util     : Byte := 0
  refreshes : Nat := 0
  maxHint  : Nat := 0
  maxId    : Nat := 0
  preempt  : Nat := 0
  holders  : Tab (Option Nat) := []
  withdrawn : List (Nat × Nat) := []
deriving DecidableEq, Repr

/-! ### Plans -/

inductive PlanStatus where | free | waiting | deferred | running | stopping
deriving DecidableEq, Repr

/-- An expert plan for one die (R110). -/
structure Expert where
  die      : Nat := 0
  passes   : Nat := 0
  jobs     : List (Nat × Job) := []
deriving DecidableEq, Repr

/-- A correlation subarray (Table 4.3) and where it stands. -/
structure Sub where
  status  : PlanStatus := .free
  tenant  : Nat := 0
  sigs    : List Nat := []
  chans   : List Nat := []
  len     : Nat := 1048576
  integ   : Nat := 1
  packed  : Bool := true
  expE    : Nat := 31
  dest    : Nat := 0
  expert  : List Expert := []
  expertNext : List Expert := []
  wantExpert : Bool := false
  senior  : Nat := 0
  admitAt : Nat := 0
  freezes : Nat := 0
  cmd     : Option CmdRef := none
  first   : Option Nat := none
  intFirst : Tab Nat := []
  amendId : Tab Nat := []
  visSent : Tab Nat := []
  stopAt  : Option Nat := none
  plans   : List (Nat × List (Nat × List (List Job))) := []
  deficit : Tab Nat := []
deriving DecidableEq, Repr

inductive BeamSrc where | direct | fine | span
deriving DecidableEq, Repr

/-- TOPK_SET settings of an object (R139). -/
structure Topk where
  k        : Nat := 0
  sub      : Nat := 0
  exclAuto : Bool := false
  tshift   : Nat := 0
  min      : Nat := 0
  dest     : Nat := 0
deriving DecidableEq, Repr

/-- A weight table of a beam plan (R132, R133): the channels in order, and for each, [fine channel,] beam and signal its
weight. Before a first BEAM_WEIGHTS it is a table of free values, by the number drawn at the start. -/
structure WSet where
  chans : List Nat := []
  w     : List Cx := []
  draw  : Option Nat := none
deriving DecidableEq, Repr

/-- A pending BEAM_WEIGHTS (R134): the switch slot, the new weights, whether NEXT is complete, whether it was not when the
rotation before `slot` started, and its command until that completes. -/
structure WSwitch where
  slot  : Nat := 0
  w     : WSet := {}
  ready : Bool := false
  late  : Bool := false
  cmd   : Option CmdRef := none
deriving DecidableEq, Repr

/-- A die's part of a band sum at the hub (R128). -/
structure Partial where
  die    : Nat := 0
  first  : Nat := 0
  vals   : List Cx := []
  sat    : Nat := 0
  zeroed : Nat := 0
deriving DecidableEq, Repr

/-- A beam plan (Table 5.2), its ACTIVE weights, those in force below slot `prev.1`, the highest slot whose rotation has
started, the dies that lost its weights (and whether a BEAM_WEIGHTS has completed since), its band-sum partials at the hub
and the slot below which band sums are closed. -/
structure Beam where
  status   : PlanStatus := .free
  tenant   : Nat := 0
  src      : BeamSrc := .direct
  sigs     : List Nat := []
  beams    : Nat := 1
  chans    : List Nat := []
  len      : Nat := 1048576
  srcSub   : Option Nat := none
  steer    : Bool := true
  volt8    : Bool := false
  volt16   : Bool := false
  chains   : Bool := false
  power    : Bool := false
  int      : Nat := 1
  pairs    : Bool := false
  bandsum  : Bool := false
  vshift   : Nat := 0
  pshift   : Nat := 0
  dest     : Nat := 0
  capture  : Bool := false
  senior   : Nat := 0
  admitAt  : Nat := 0
  freezes  : Nat := 0
  cmd      : Option CmdRef := none
  first    : Option Nat := none
  active   : WSet := {}
  prev     : Option (Nat × WSet) := none
  next     : Option WSwitch := none
  rot      : Option Nat := none
  lostDies : List Nat := []
  reloaded : Bool := false
  partials : List Partial := []
  bandDone : Nat := 0
  stopAt   : Option Nat := none
deriving DecidableEq, Repr

/-- An HBM allocation handle (R259). -/
structure Handle where
  tenant   : Nat := 0
  die      : Nat := 0
  granules : Nat := 0
deriving DecidableEq, Repr

/-- A FLAG_POST that waits for its parts (R164): its entries are those accepted with seqno from `lo` to below `hi`;
`bad` is the worst final class so far: 0 none, 1 AMEND_LOST, 2 LATE_AMENDED, 3 UNAMENDABLE. -/
structure FlagWait where
  cmd : CmdRef := {}
  lo  : Nat := 0
  hi  : Nat := 0
  bad : Nat := 0
deriving DecidableEq, Repr

/-- A MEM_ALLOC waiting under R92 item 3. -/
structure AllocWait where
  handle   : Nat := 0
  tenant   : Nat := 0
  die      : Nat := 0
  granules : Nat := 0
  senior   : Nat := 0
  freezes  : Nat := 0
deriving DecidableEq, Repr

/-- What the planner has set for a die in a planning period (R43): the passes of each subarray's block, and for each
beam-mode tile, from the highest address down, its tenant and its jobs. -/
structure DiePart where
  die    : Nat := 0
  layout : List (Nat × List (List Job)) := []
  beams  : List (Nat × List (Nat × Nat × Nat × Nat)) := []
deriving DecidableEq, Repr

/-- The planning grid (R36, R66): the period P, the first counter of the block being filled, what is frozen, the
boundaries set (counter, C), and the stops that wait for the next freeze (command, whether of a beam plan, number). -/
structure Grid where
  period   : Nat := 1048576
  started  : Bool := false
  start    : Nat := 0
  firstCtr : Option Nat := none
  waited   : Bool := false
  frozen   : Bool := false
  newPeriod : Option Nat := none
  partSeq  : BitVec 16 := 0
  leadClamped : Bool := false
  dieSetCmds : List CmdRef := []
  dieTarget : Option (BitVec 4) := none
  bounds   : List (Nat × Nat) := []
  stops    : List (CmdRef × Bool × Nat) := []
  part     : List DiePart := []
  partNext : List DiePart := []
deriving DecidableEq, Repr

/-! ### Carrier chains -/

inductive ChainState where | free | idle | settling | run | burst
deriving DecidableEq, Repr

/-- A write-back message on its way to a chain (R173). -/
structure WriteBack where
  gen   : Byte := 0
  freq  : Int := 0
  time  : Int := 0
  close : Bool := false
  evm   : Int := 0
deriving DecidableEq, Repr

/-- One hypothesis of a CONT search (R181). -/
structure Hyp where
  len  : Nat := 16
  thr  : Nat := 0
  code : Option (List Bool) := none
deriving DecidableEq, Repr

inductive Search where
  | none
  | cont (h : List Hyp)
  | sync (sps : Nat) (fsk : Bool) (len : Nat) (word : Nat) (tol : Nat) (invOk : Bool) (bitsMax : Nat)
deriving DecidableEq, Repr

/-- A carrier chain: its configuration (Table 7.3) and its running state (Chapter 7). -/
structure Chain where
  state    : ChainState := .free
  tenant   : Nat := 0
  gen      : Byte := 0
  plan     : Nat := 0
  beam     : Nat := 0
  firstCh  : Nat := 0
  m        : Nat := 1
  d        : Nat := 0
  rs       : Nat := 4294967296
  center   : Option Nat := none
  freq0    : BitVec 48 := 0
  freq     : BitVec 48 := 0
  preset   : Nat := 0
  pull     : Nat := 0
  agcOn    : Bool := false
  target   : Nat := 1
  agcW     : Nat := 2
  attack   : Nat := 25
  decay    : Nat := 25
  thrOn    : Nat := 0
  thrOff   : Nat := 0
  thrW     : Nat := 0
  tau      : Nat := 0
  search   : Search := .none
  pre      : Nat := 0
  maxLen   : Nat := 64
  thrClose : Bool := false
  group    : Nat := 0
  ringOff  : Nat := 0
  ringSize : Nat := 4096
  always   : Bool := true
  dest     : Nat := 0
  line     : Nat := 0
  profile  : Nat := 255
  phase    : BitVec 48 := 0
  pos      : Nat := 0
  input    : List (List Cx) := []
  stitchMem : List (List Cx) := []
  mixed    : List Cx := []
  filt     : List Cx := []
  past     : List Cx := []
  hist     : List Cx := []
  posAdj   : Int := 0
  tagCtr   : Nat := 0
  settle   : Nat := 0
  gain     : Int := 0
  frozen   : Bool := false
  agcAcc   : Nat := 0
  agcN     : Nat := 0
  floorN   : Option Nat := none
  thrAcc   : Nat := 0
  thrN     : Nat := 0
  thrIsOpen : Bool := false
  thrRatio : Nat := 0
  bits     : List Bool := []
  symN     : Nat := 0
  bitsLeft : Nat := 0
  lastSym  : Cx := {}
  burstId  : Nat := 0
  sinceDet : Nat := 0
  startCtr : Nat := 0
  startFrac : BitVec 16 := 0
  hyp      : Nat := 0
  inv      : Bool := false
  ovr      : Bool := false
  metric   : Nat := 0
  evm      : Option Int := none
  freqSum  : Int := 0
  timeSum  : Int := 0
  burstPow : Nat := 0
  burstN   : Nat := 0
  floorDet : Nat := 0
  pending  : List WriteBack := []
  sat      : Nat := 0
  overrun  : Nat := 0
  staleWb  : Nat := 0
  pullClamp : Nat := 0
  zeroed   : Nat := 0
  abandoned : Nat := 0
  wrIdx    : Nat := 0
  filled   : Nat := 0
  boundTo  : Option Nat := none
  bitFifo  : List Bool := []
  lastSlot : Nat := 0
deriving DecidableEq, Repr

/-! ### Cellek engines -/

inductive EngState where | reset | halted | running | waiting | stalled | fault
deriving DecidableEq, Repr

/-- One address generator (Table 8.1). -/
structure AddrGen where
  base : BitVec 20 := 0
  idx  : BitVec 17 := 0
  step : BitVec 17 := 0
  span : BitVec 17 := 0
  rev  : Bool := false
deriving DecidableEq, Repr

/-- What a result in flight writes when it lands (R200, R201). -/
inductive Land where
  | d (n : Nat) (v : BitVec 24)
  | a (n : Nat) (v : BitVec 56) (mac : Bool)
  | ag (n : Nat) (f : AgField) (v : Int)
  | flags (cvzn : BitVec 4)
  | satf
  | ovf
  | store (addr : Nat) (bytes : List Byte)
  | load (reg : Nat) (bus : EBus) (word : Nat)
  | loadH (reg : Nat) (bus : EBus) (word : Nat)
deriving DecidableEq, Repr

structure LoopSt where
  start : Nat := 0
  len   : Nat := 1
  left  : Nat := 0
deriving DecidableEq, Repr

/-- A group-memory access in flight (R196): a load into register `reg`, or a store. -/
structure GrpAcc where
  reg   : Option Nat := none
  half  : Bool := false
  off   : Nat := 0
  data  : BitVec 24 := 0
deriving DecidableEq, Repr

/-- One register set of an engine with what is in flight in it: results to land, a WAITE's mask, a group-memory access,
a SHFX (register, count). -/
structure RegSet where
  d        : Tab (BitVec 24) := []
  a        : Tab (BitVec 56) := []
  ag       : Tab AddrGen := []
  lc0      : BitVec 16 := 0
  lc1      : BitVec 16 := 0
  sr       : W32 := 0
  retStack : List Nat := []
  branch   : Option (Nat × Nat) := none
  loopBlk  : Option LoopSt := none
  lands    : List (Nat × Land) := []
  cyc      : Nat := 0
  wait     : Option Nat := none
  grp      : Option GrpAcc := none
  shfx     : Option (Nat × Nat) := none
deriving DecidableEq, Repr

/-- A micro-routine in progress (R209): which one, its latches, and for VMAC64 the generators as they stood at issue. -/
inductive Micro where
  | vmac (ex ey ec sh : Nat) (agx agy agc : Nat) (gx gy gc : AddrGen) (sat : Bool)
  | fft (ey ec q s : Nat) (sat : Bool)
deriving DecidableEq, Repr

/-- A Cellek engine. Its four memories are one byte table keyed by the window offset of Table 8.2. -/
structure Eng where
  st       : EngState := .reset
  main     : RegSet := {}
  shad     : RegSet := {}
  inh      : Bool := false
  pc       : BitVec 13 := 0
  spc      : BitVec 13 := 0
  rpi      : BitVec 16 := 0
  shr      : BitVec 24 := 0
  shc      : BitVec 5 := 0
  tmr      : W32 := 0
  imaskLo  : W32 := 0
  imaskHi  : W32 := 0
  ivec     : BitVec 13 := 0
  abvec    : BitVec 13 := 0
  entry    : BitVec 13 := 0
  pend     : BitVec 64 := 0
  waitedAt : Nat := 0
  tmrAt    : Nat := 0
  cache    : Option (Nat × Nat) := none
  micro    : Option Micro := none
  fcode    : Nat := 0
  shipped  : Option Nat := none
  ints     : Nat := 0
  portRej  : Nat := 0
  aborts   : Nat := 0
  abortHeld : Bool := false
  abortReq : Bool := false
  haltReq  : List CmdRef := []
  haltWant : Bool := false
  issued   : Bool := true
  parked   : Nat := 0
  task     : Option Nat := none
  pool     : Option Nat := none
  mem      : List Host.Cell := []
  bound    : Option Nat := none
deriving DecidableEq, Repr

/-- An engine group: its group memory (R190) and its shot clock (R301 to R303). -/
structure EGroup where
  mem    : List Host.Cell := []
  frozen : Bool := false
  count  : Nat := 0
  snap   : List W32 := []
deriving DecidableEq, Repr

/-! ### Decoder fabric -/

/-- A task of the scheduler or a decoder job (R233, R236). -/
inductive Stage where | excision | demod | decode | assemble
deriving DecidableEq, Repr

structure Task where
  seq      : Nat := 0
  stage    : Stage := .decode
  tenant   : Nat := 0
  chain    : Nat := 0
  gen      : Byte := 0
  slot     : Nat := 0
  deadline : Nat := 0
  started  : Option Nat := none
  unit     : Option Nat := none
  released : Nat := 0
  profile  : Nat := 255
  slotCtr  : Nat := 0
  -- decoder job descriptor (Table 9.8)
  engine   : Nat := 0
  codeId   : Nat := 0
  imax     : Nat := 0
  line     : Nat := 0
  inAddr   : Nat := 0
  inLen    : Nat := 0
  outAddr  : Nat := 0
  outCap   : Nat := 0
  jobTag   : W32 := 0
  input    : List Byte := []
  det      : Option Detection := none
  dest     : Nat := 0
deriving DecidableEq, Repr

/-- The result of an ended decoder job of a carrier slot, kept for the slot's ASSEMBLE record (R241). -/
structure JobDone where
  chain  : Nat := 0
  gen    : Byte := 0
  slot   : Nat := 0
  status : Byte := 0
  iters  : Nat := 0
  conv   : Bool := false
  bits   : Nat := 0
  data   : List Byte := []
  tag    : W32 := 0
  seq    : Nat := 0
deriving DecidableEq, Repr

/-- What is known of a carrier slot: jobs accepted, jobs ended, whether its DEMOD task has ended (R233, R236), and EVM and
LQ of its BURST record (R241). -/
structure CSlot where
  chain    : Nat := 0
  gen      : Byte := 0
  slot     : Nat := 0
  accepted : Nat := 0
  ended    : Nat := 0
  demodEnded : Bool := false
  aborted  : Bool := false
  deadline : Nat := 0
  startCtr : Nat := 0
  evm      : Nat := 0x8000
  lq       : Nat := 0
deriving DecidableEq, Repr

/-- The decoder fabric and scheduler (Chapter 9). -/
structure Dec where
  trellis   : Bool := false
  switching : Option (List Cpl) := none
  switchWait : List (CmdRef × RingCmd) := []
  target    : Bool := false
  strayTsk  : Nat := 0
  codes     : Tab (Option (List Byte)) := []
  profiles  : Tab (Option (List Byte)) := []
  tasks     : List Task := []
  seq       : Nat := 0
  done      : List JobDone := []
  slots     : List CSlot := []
  jobsEnded : Tab Nat := []
  busyPct   : Tab Nat := []
deriving DecidableEq, Repr

/-! ### DMA -/

/-- A transfer of a hub DMA channel in progress (R269, R272). -/
structure Xfer where
  src     : Nat := 0
  dst     : Nat := 0
  srcA    : BitVec 64 := 0
  dstA    : BitVec 64 := 0
  len     : Nat := 0
  moved   : Nat := 0
  pulse   : Nat := 0
  pline   : Nat := 0
  pgroup  : Nat := 0
  pchain  : Nat := 0
  cmd     : Option CmdRef := none
  entry   : Option Nat := none
  status  : Byte := 0
deriving DecidableEq, Repr

/-- A hub DMA channel (DMA_CH_STAT_c) with the transfers queued on it. -/
structure Dma where
  cur     : Option Xfer := none
  queue   : List Xfer := []
  done    : BitVec 16 := 0
  nextEnt : Nat := 0
  gSteer  : Option Nat := none
deriving DecidableEq, Repr

/-- A cached translation (R266). -/
structure Tlb where
  tenant : Nat := 0
  iova   : Nat := 0
  size   : Nat := 4096
  addr   : Nat := 0
  r      : Bool := false
  w      : Bool := false
deriving DecidableEq, Repr

/-! ### Possession -/

/-- A request waiting for a lock (R297): its holder id, on a local ring its command, and its wait limit in µs. -/
structure Waiter where
  holder : Nat := 0
  cmd    : Option CmdRef := none
  limit  : Nat := 0
deriving DecidableEq, Repr

/-- A lock of the possession unit (R295 to R300). A holder is a global ring id, 32,768 for the management core; for a
chain lock it is package address × 65,536 + ring id (R321). `limitFrom` lists the
holders the hold limit took it from since their last grant (R299). -/
structure Lock where
  holder    : Option Nat := none
  mark      : Nat := 0
  grants    : Nat := 0
  waiters   : List Waiter := []
  limitFrom : List Nat := []
deriving DecidableEq, Repr

/-! ### Management chain -/

inductive PortState where | off | up | caution | training
deriving DecidableEq, Repr

/-- A frame sent and not yet acknowledged (R311). -/
structure Unacked where
  f     : Frame := {}
  tries : Nat := 0
deriving DecidableEq, Repr

structure Port where
  st      : PortState := .off
  badType : Nat := 0
  txErr   : Nat := 0
  rxErr   : Nat := 0
  drops   : Nat := 0
  reroute : Nat := 0
  recover : Nat := 0
  unacked : List Unacked := []
  lseq    : Byte := 0
  good    : Nat := 0
  bad     : Nat := 0
  clkOk   : Bool := false
  quiet   : Bool := false
  quietAddr : Nat := 0
  wakeClk : Bool := false
  loopErr : W32 := 0
  loopSym : W32 := 0
deriving DecidableEq, Repr

/-- An entry of the address table (R323). -/
structure AddrEnt where
  valid : Bool := false
  conf  : Bool := false
  id    : BitVec 64 := 0
  hopsE : Byte := 0
  hopsW : Byte := 0
  last  : Nat := 0
deriving DecidableEq, Repr

/-- A chain possession command waiting for LOCK_RESP (R321): its ring, lock, WAIT and wait limit. -/
structure LockWait where
  cmd    : CmdRef := {}
  holder : Nat := 0
  lock   : Nat := 0
  wait   : Bool := false
  limit  : Nat := 0
  tries  : Nat := 0
deriving DecidableEq, Repr

/-- A CHAIN_RESET waiting for RESET_ACK (R383): target, payload word, resends, and whether the first RESET_ACK of a block
reset has come. -/
structure ResetWait where
  cmd   : CmdRef := {}
  dst   : Nat := 0
  word  : Nat := 0
  tries : Nat := 0
  acked : Bool := false
deriving DecidableEq, Repr

/-- The package's part in the management chain and the master twin (Chapter 12). `swapPhase` is 1 for a role swap asked for,
2 with its last copy sent, 3 released; the first `copied` of the grants that wait stand in the copy sent; `lostRings` are
rings lost as chain holders that the master is still to be told of; `lastBeacon` is C at the last BEACON followed. -/
structure Mgmt where
  epoch      : BitVec 16 := 0
  acting     : Bool := false
  sidelined  : Bool := false
  master     : BitVec 7 := 0x40
  addr       : BitVec 7 := 0x40
  bkpValid   : Bool := false
  bkpConf    : Bool := false
  bkpAddr    : BitVec 7 := 0x40
  holdIn     : Bool := false
  holdOut    : Bool := false
  sync       : Bool := false
  twinUp     : Bool := false
  missed     : Nat := 0
  copies     : BitVec 16 := 0
  goodRun    : Nat := 0
  sinceGood  : Nat := 0
  cycle      : Nat := 0
  beacons    : Nat := 0
  eastEnd    : BitVec 7 := 0
  westEnd    : BitVec 7 := 0
  broken     : Bool := false
  table      : Tab AddrEnt := []
  seen       : List (Nat × Nat) := []
  seqno      : W32 := 0
  copyBody   : List Byte := []
  swap       : Option CmdRef := none
  swapPhase  : Nat := 0
  benchHeld  : Bool := true
  copied     : Nat := 0
  enumDue    : Bool := false
  tableNew   : Bool := false
  lostRings  : List Nat := []
  lastBeacon : Nat := 0
  reenumCmds : List CmdRef := []
  grantWait  : List (Nat × Nat) := []
  lockWait   : List LockWait := []
  resetWait  : List ResetWait := []
  reenum     : List (BitVec 64 × Nat × Nat) := []
  enumOpen   : Bool := false
  exchanges  : Nat := 0
  hopE       : Option (Nat × Nat) := none
  hopW       : Option (Nat × Nat) := none
  upstreamWas : Option Nat := none
deriving DecidableEq, Repr

/-! ### Time and references -/

/-- A time domain (R330, Table 13.1). -/
structure Dom where
  o     : Int := 0
  anchor : Nat := 0
  rate  : Int := 0
  valid : Bool := false
  hold  : Bool := false
  unc   : Nat := 0xFFFF
  holdAt : Nat := 0
  hist  : List (Nat × Int) := []
deriving DecidableEq, Repr

inductive Qual where | disqualified | checking | wait | qualified
deriving DecidableEq, Repr

/-- A reference or pulse input (Table 13.4). -/
structure Ref where
  st     : Qual := .disqualified
  gates  : Nat := 0
  badGates : Nat := 0
  activityOk : Bool := true
  offset : Int := 0
  fails  : Nat := 0
  cap    : Nat := 0
  capped : Bool := false
  waitAt : Nat := 0
deriving DecidableEq, Repr

inductive LoopMode where | closed | opened | holdover
deriving DecidableEq, Repr

/-- A TU_SET waiting for its apply counter (R333, R351). -/
structure TuPend where
  dom : Nat := 0
  op  : Nat := 0
  v   : Int := 0
  rate : Int := 0
  at_ : Nat := 0
  cmd : CmdRef := {}
deriving DecidableEq, Repr

/-- A multiple K of 2^20 whose arrival has occurred (R337, R338): C and the counter of the first packet at or past it,
the anchor where a packet at exactly K has come, and the package-wide TIMECONT causes of K. -/
structure KArr where
  k      : Nat := 0
  c      : Nat := 0
  ctr    : Nat := 0
  anchor : Option Nat := none
  causes : List Nat := []
deriving DecidableEq, Repr

structure Time where
  c        : Nat := 0
  running  : Bool := false
  entryC   : Nat := 0
  aoCount  : Nat := 0
  doms     : Tab Dom := []
  refs     : Tab Ref := []
  loop     : LoopMode := .holdover
  active   : Option Nat := none
  steer    : Int := 0
  steered  : Bool := false
  freq     : Int := 0
  phase    : W32 := 0
  phaseSeq : Byte := 0
  seqLatch : Byte := 0
  pend     : List TuPend := []
  kq       : List KArr := []
  lastAnchor : Option (Nat × Nat) := none
  highCtr  : Option Nat := none
  reqId    : Nat := 0
  exchange : List (Nat × Int) := []
  upDom    : Tab Dom := []
  upT1     : Nat := 0
  upT2     : Nat := 0
  upQl     : Nat := 15
  causes   : List Nat := []
  takeover : Nat := 15
  takeEnd  : Nat := 0
  lastTrig : Option Nat := none
deriving DecidableEq, Repr

/-! ### Start-up, reset, sleep, power -/

inductive Power where | off | starting | ready | stuck | asleep
deriving DecidableEq, Repr

/-- The steps of sleep entry (R370). -/
inductive SleepPhase where | awake | stopping | draining | drained | noted | requested | waking
deriving DecidableEq, Repr

/-- A block reset in progress (Table 14.7). -/
structure BlkReset where
  asserted : Bool := false
  cmds     : List CmdRef := []
  heldFrom : Nat := 0
  absorbed : Nat := 0
  remote   : Bool := false
deriving DecidableEq, Repr

/-- A fault record's reason (R365). -/
inductive FaultRec where
  | start (source : Nat) (warm : Bool)
  | blockReset (b : Nat)
  | thermalTrip (i : Nat)
  | warmImage
  | resetRefused
deriving DecidableEq, Repr

structure Gov where
  temp    : Int := 0
  current : BitVec 12 := 0
  excess  : Nat := 0
  warned  : Bool := false
  alert   : Bool := false
deriving DecidableEq, Repr

/-- An instance of the SELFLINE table (R377, R379): source, instance, F in 2^-16 Hz, F_MAX in kHz, and whether its
adjustable value is away from its default. -/
structure LineInst where
  src     : Nat := 0
  inst    : Nat := 0
  f       : Nat := 0
  fMax    : Nat := 0
  steered : Bool := false
deriving DecidableEq, Repr

/-- Straps, reset cause, start sequence, block resets, sleep and the always-on domain (Chapter 14). -/
structure Rst where
  power     : Power := .off
  powerGood : Bool := false
  resetLow  : Bool := false
  straps    : Straps := {}
  strapBad  : Bool := false
  bootBad   : Bool := false
  released  : Nat := 0
  workDone  : List Nat := []
  source    : Nat := 0
  warm      : Bool := false
  wake      : Nat := 0
  image     : Bool := false
  train     : Bool := true
  thermal   : Bool := false
  rept      : Nat := 0
  held      : W32 := 0
  bootWin   : List Host.Cell := []
  bootImg   : List Byte := []
  bootParts : Nat := 0
  booted    : Bool := false
  warmSlot  : Bool := false
  warmImg   : List (Nat × W32) := []
  imageSet  : Bool := false
  digest    : Bool := false
  retained  : List FaultRec := []
  faultLog  : List FaultRec := []
  logCount  : Nat := 0
  nvfsBusy  : Bool := false
  delayed   : Option (Nat × Bool × Bool) := none
  blocks    : Tab (Option BlkReset) := []
  absorbed  : Nat := 0
  resets    : Nat := 0
  sleep     : SleepPhase := .awake
  sleepCmd  : Option CmdRef := none
  sleepReq  : Bool := false
  latched   : Nat := 0
  bleed     : Bool := false
  ballast   : List Nat := []
  activeMap : Tab (BitVec 56) := []
  repair    : List (Nat × Nat × Nat) := []
  gov       : Tab Gov := []
  pad       : Tab Nat := []
  refN      : Tab Nat := []
  selfTable : List LineInst := []
  gpioIn    : Byte := 0
  divotAt   : Option Nat := none
  faultAt   : Option Nat := none
deriving DecidableEq, Repr

/-- Why a command stops with a fault. -/
inductive Fault where
  /-- An obligation stated with "must" was not met and no consequence is stated: the behaviour is not described
  (R5). `rule` names the rule. Safe: the model stops where the manual says nothing. -/
  | notDescribed (rule : Nat)
deriving DecidableEq, Repr

/-- Why a command is refused. -/
inductive Refusal where
  /-- An arm of exec that has no meaning yet. Safe: the model stops where the hardware goes on. -/
  | notModelled (mnemonic : String)
deriving DecidableEq, Repr

/-- The whole block. `pending` is the queue of commands that wait, first in, first out; `out` is the model's own
record of what was sent outside; `free` counts the free values drawn (the model's own field). -/
structure State where
  shadow  : Tab W32
  comm    : Tab W32
  setup   : Setup
  numVfs  : Nat
  fns     : Tab Fn
  rings   : Tab Ring
  lanes   : Tab Lane
  groups  : Tab Group
  outGrps : Tab OutGroup
  outLanes : Tab OutLane
  dies    : Tab Die
  hbmStacks  : Tab Stack
  grid    : Grid
  subs    : Tab Sub
  beams   : Tab Beam
  topks   : Tab Topk
  topkNext : List (Nat × Topk)
  handles : Tab (Option Handle)
  allocs  : List AllocWait
  hbm     : List Host.Cell
  posts   : List Flag
  flagSeq : Nat
  flagWaits : List FlagWait
  chains  : Tab Chain
  engs    : Tab Eng
  egroups : Tab EGroup
  dec     : Dec
  dmas    : Tab Dma
  tlb     : List Tlb
  invals  : List (CmdRef × Nat × Nat × Nat)
  locks   : Tab Lock
  tuFaults : Tab Nat
  arbCommits : BitVec 16
  fabDecerr : Nat
  fabDecAddr : Nat
  fabHold : Nat
  ports   : Tab Port
  mgmt    : Mgmt
  time    : Time
  rst     : Rst
  out     : List Output
  free    : Nat
  pending : List Instr
deriving DecidableEq, Repr

/-- The block right after power-on with VSTBY present and PWR_GOOD low: every register at its Cold value, nothing in
memory, no command waiting. The start sequence begins with PWR_GOOD_RISE (R354, R357). -/
def State.reset : State where
  shadow := []
  comm := []
  setup := {}
  numVfs := 255
  fns := []
  rings := []
  lanes := []
  groups := []
  outGrps := []
  outLanes := []
  dies := []
  hbmStacks := []
  grid := {}
  subs := []
  beams := []
  topks := []
  topkNext := []
  handles := []
  allocs := []
  hbm := []
  posts := []
  flagSeq := 0
  flagWaits := []
  chains := []
  engs := []
  egroups := []
  dec := {}
  dmas := []
  tlb := []
  invals := []
  locks := []
  tuFaults := []
  arbCommits := 0
  fabDecerr := 0
  fabDecAddr := 0
  fabHold := 0
  ports := []
  mgmt := {}
  time := {}
  rst := { retained := [.start 0 false] }
  out := []
  free := 0
  pending := []

end Sys2Proof.Machine
end

