-- ==== Sys2Proof/Machine/RegTable.lean ====
section
/-! DEFINITION. The BAR2 registers that hold setup, as data: offset, strides, writable bits by access code (Table 0.5)
and the Cold value; and reading their committed fields. -/
namespace Sys2Proof.Machine

open Sys2Proof

/-- One register or array of registers. `dims` are (stride, count) pairs, widest first; `ws` the RWS and RWL bits, `rw`
the RW bits, `cold` their Cold value with every strap at 0; `arb` marks the registers whose commit is ARB_COMMIT (R287). -/
structure RegDesc where
  base : Nat
  dims : List (Nat × Nat) := []
  ws   : Nat := 0
  rw   : Nat := 0
  cold : Nat := 0
  arb  : Bool := false
deriving DecidableEq, Repr

/-- Host interface, array and lane registers (Tables 10.14, 1.3, 2.9). -/
def regsHostLanes : List RegDesc :=
  [ { base := 0x10000, dims := [(8, 256)], ws := 0xFFFF0001 }
  , { base := 0x10004, dims := [(8, 256)], ws := 0x000FFFFF }
  , { base := 0x20000, dims := [(8, 32)], ws := 0xFFF0FFFF }
  , { base := 0x20100, dims := [(4, 32)], ws := 0x1F }
  , { base := 0x100000, ws := 0xFFFFFF01, cold := 0x20000800 }
  , { base := 0x200000, ws := 0xFFFFFFFF, cold := 0xFFFFFFFF }
  , { base := 0x200004, ws := 0xFF0F, cold := 0xFF0F }
  , { base := 0x200008, ws := 0xFFFFFFFF, cold := 0x03E80000 }
  , { base := 0x200100, dims := [(8, 4)], ws := 0x007F07FF, cold := 0x00460020 }
  , { base := 0x200104, dims := [(8, 4)], ws := 0xFFFF, cold := 4096 }
  , { base := 0x201000, dims := [(0x800, 4), (0x200, 4), (4, 72)], ws := 0x8FFFFFFF, cold := 0x8FFFF000 } ]

/-- Channeliser, HBM, correlation, beam, excision and chain registers (Tables 3.5, 4.10, 5.6, 6.8, 7.7). -/
def regsDies : List RegDesc :=
  [ { base := 0x300000, ws := 0xFCFC001F, cold := 0x40580010 }
  , { base := 0x300004, ws := 0xFFF, cold := 0x100 }
  , { base := 0x300008, ws := 0xFFFF800F, cold := 0x30108008 }
  , { base := 0x301000, dims := [(4, 1024)], ws := 0x3FFFF }
  , { base := 0x400000, ws := 0xFF, cold := 80 }
  , { base := 0x400010, dims := [(4, 4)], ws := 0x007F07FF }
  , { base := 0x500000, ws := 0x9F003F00, cold := 0x9F003F00 }
  , { base := 0x600000, ws := 0xFF00FF00, cold := 0x04003200 }
  , { base := 0x600004, ws := 0xFFFFFFFF }
  , { base := 0x600008, ws := 0x8000000F }
  , { base := 0x700000, ws := 0x0FFFFFFF, cold := 0x00C81000 }
  , { base := 0x800000, ws := 0x11F, cold := 17 }
  , { base := 0x801000, dims := [(4, 240)], ws := 0x3FFFF } ]

/-- Engine, decoder, tenant, arbitration and possession registers (Tables 8.9, 9.13, 11.8). -/
def regsTenants : List RegDesc :=
  [ { base := 0x900000, dims := [(4, 96)], ws := 0x1FF, cold := 0x100 }
  , { base := 0x900200, dims := [(4, 384)], ws := 0x1FF, cold := 0x100 }
  , { base := 0x902000, dims := [(4, 576)], ws := 0x1FF, cold := 0x100 }
  , { base := 0xA00000, ws := 0x8000007F, cold := 90 }
  , { base := 0xA00100, dims := [(4, 256)], ws := 0xFF }
  , { base := 0xB00000, ws := 0xFFFF, cold := 0x1008 }
  , { base := 0xB00010, ws := 0xFFFFFFFF, cold := 0x51433210, arb := true }
  , { base := 0xB00020, dims := [(4, 4)], ws := 0xFFFFFFFF, cold := 0x88888888, arb := true }
  , { base := 0xB10000, ws := 0x03FF03FF, cold := 0x80800340 }
  , { base := 0xB10004, ws := 0x01FF03FF, cold := 0x01000200 }
  , { base := 0xB10008, dims := [(4, 2)], ws := 0xFFFFFFFF, cold := 0xFFFFFFFF }
  , { base := 0xB10010, dims := [(4, 4)], ws := 0x1FFFF, cold := 73728 }
  , { base := 0xB10020, dims := [(32, 255)], ws := 0x83FF03FF, cold := 0x80000000 }
  , { base := 0xB10024, dims := [(32, 255)], ws := 0x01FF03FF }
  , { base := 0xB10028, dims := [(32, 255), (4, 2)], ws := 0xFFFFFFFF }
  , { base := 0xB10030, dims := [(32, 255), (4, 4)], ws := 0x1FFFF }
  , { base := 0xB20000, dims := [(4, 2048)], ws := 0xFFFFFFFF }
  , { base := 0xB22000, dims := [(4, 2048)], ws := 0xFFFFFFFF }
  , { base := 0xB30000, dims := [(8, 22)], ws := 0xFFFFFFFF, cold := 0x88888888 }
  , { base := 0xB30004, dims := [(8, 22)], ws := 0xFFFF, cold := 0x8888 }
  , { base := 0xB40000, dims := [(4, 960)], ws := 0x83FFFFFF }
  , { base := 0xB40F00, dims := [(4, 64)], ws := 0x03FFFFFF, cold := 0x80000000 }
  , { base := 0xB50000, dims := [(8, 12)], ws := 0x8000FFFF, cold := 100 } ]

/-- Chain, time, reset and pin registers (Tables 12.7, 13.8, 14.14, 15.10). -/
def regsSystem : List RegDesc :=
  [ { base := 0xC00000, ws := 0xFF03F000, cold := 0xE4031000 }
  , { base := 0xD00000, dims := [(4, 2)], ws := 0xC0FFFF0F, cold := 0x00640A04 }
  , { base := 0xD00008, dims := [(4, 2)], ws := 0xFFFFFFFF }
  , { base := 0xD00010, ws := 0xFF, cold := 16 }
  , { base := 0xD00100, ws := 0x8F07FFFF, cold := 0x0000000A }
  , { base := 0xD00104, ws := 0x8F07FFFF, cold := 0x0001000A }
  , { base := 0xD00108, ws := 0x8F07FFFF, cold := 0x0002000A }
  , { base := 0xD0010C, ws := 0x8007FFFF, cold := 0x0003000A }
  , { base := 0xD00140, rw := 0xFF03FFFF, cold := 0x0E0103E8 }
  , { base := 0xD0014C, rw := 0xFFFFFFFF }
  , { base := 0xE00010, ws := 0x00FFFFFF, cold := 0x00050064 }
  , { base := 0xE00014, ws := 0xF, cold := 0xF }
  , { base := 0xE00018, ws := 0xFFFF, cold := 0x3C1E }
  , { base := 0xE00020, rw := 0xFFFFFFFF }
  , { base := 0xE00024, rw := 0xFF07, cold := 0x6403 }
  , { base := 0xE00028, ws := 0xFFFF }
  , { base := 0xE00040, dims := [(4, 8)], rw := 0xFFFFFFFF }
  , { base := 0xF00000, ws := 0x3FFFF, cold := 0x30000 }
  , { base := 0xF00004, rw := 0xFF00 } ]

/-- Whether offset `r` above a base is an element of the array with these strides. -/
def inDims : List (Nat × Nat) → Nat → Bool
  | [], r => r == 0
  | (st, n) :: ds, r => decide (r / st < n) && inDims ds (r % st)

def RegDesc.holds (d : RegDesc) (off : Nat) : Bool := decide (d.base ≤ off) && inDims d.dims (off - d.base)

/-- The register at a BAR2 offset, by the block that the offset lies in. -/
def findReg (off : Nat) : Option RegDesc :=
  (if off < 0x300000 then regsHostLanes else if off < 0x900000 then regsDies
    else if off < 0xC00000 then regsTenants else regsSystem).find? (fun d => d.holds off)

/-- The Cold value of the word at an offset. -/
def coldReg (off : Nat) : W32 :=
  match findReg off with
  | some d => BitVec.ofNat 32 d.cold
  | none => 0

/-- Every index of an array, as offsets above its base. -/
def dimOffs : List (Nat × Nat) → List Nat
  | [] => [0]
  | (st, n) :: ds => (List.range n).flatMap (fun i => (dimOffs ds).map (fun o => i * st + o))

/-- The committed word at a BAR2 offset. -/
def State.reg (s : State) (off : Nat) : Nat := (getT (coldReg off) s.comm off).toNat

/-- The shadow word at a BAR2 offset (R17). -/
def State.shadowReg (s : State) (off : Nat) : Nat := (getT (coldReg off) s.shadow off).toNat

/-- Field `hi:lo` of a committed register. -/
def State.fieldOf (s : State) (off hi lo : Nat) : Nat := fld (s.reg off) hi lo

/-- Write a committed word. -/
def State.setReg (s : State) (off v : Nat) : State :=
  { s with comm := setT (coldReg off) s.comm off (BitVec.ofNat 32 v) }

/-- Write a shadow word. -/
def State.setShadow (s : State) (off v : Nat) : State :=
  { s with shadow := setT (coldReg off) s.shadow off (BitVec.ofNat 32 v) }

/-- Write a word whose shadow and committed value change together. -/
def State.setBoth (s : State) (off v : Nat) : State := (s.setShadow off v).setReg off v

/-- Replace the bits of `mask` in `old` by those of `v`. -/
def mergeBits (mask old v : Nat) : Nat := (v &&& mask) ||| (old &&& (0xFFFFFFFF ^^^ mask))

/-- Whether the committed words equal the shadows, apart from those that `skip` names. -/
def State.pendingAt (s : State) (off : Nat) : Bool := s.reg off != s.shadowReg off

/-- The offsets of every word that is listed in the shadow or the committed table, rising. -/
def State.touched (s : State) : List Nat := (s.shadow ++ s.comm).map (·.1)

/-- The lowest offset whose shadow differs from its committed value (R247). -/
def State.lowestPending (s : State) : Option Nat := minBy id (s.touched.filter s.pendingAt)

end Sys2Proof.Machine
end

