-- ==== Sys2Proof/Machine/Ops.lean ====
section
/-! DEFINITION. The named operations over the state that every family shares: units, events, rings, completions,
address translation, the prologue of a ring command, and output records. -/
namespace Sys2Proof.Machine

open Sys2Proof

/-! ### Status codes (Table 10.7) -/

def stOK : Nat := 0x00
def stDeferred : Nat := 0x01
def stQuota : Nat := 0x10
def stCapacity : Nat := 0x11
def stRank : Nat := 0x12
def stConflict : Nat := 0x13
def stSleeping : Nat := 0x14
def stFecMode : Nat := 0x15
def stSealed : Nat := 0x16
def stDecerr : Nat := 0x20
def stResetting : Nat := 0x21
def stBlockReset : Nat := 0x22
def stDataLost : Nat := 0x23
def stDeadlineMiss : Nat := 0x30
def stLateAmended : Nat := 0x31
def stUnamendable : Nat := 0x32
def stAbandoned : Nat := 0x40
def stStalemate : Nat := 0x41
def stAbandonedTimeout : Nat := 0x42
def stDivot : Nat := 0x50

/-! ### Units of the state -/

def State.fn (s : State) (t : Nat) : Fn := getT {} s.fns t
def State.modFn (s : State) (t : Nat) (f : Fn → Fn) : State := { s with fns := modT {} s.fns t f }
def State.ring (s : State) (fn q : Nat) : Ring := getT {} s.rings (fn * 128 + q)
def State.modRing (s : State) (fn q : Nat) (f : Ring → Ring) : State :=
  { s with rings := modT {} s.rings (fn * 128 + q) f }
def State.lane (s : State) (x : Nat) : Lane := getT {} s.lanes x
def State.modLane (s : State) (x : Nat) (f : Lane → Lane) : State := { s with lanes := modT {} s.lanes x f }
def State.group (s : State) (g : Nat) : Group := getT {} s.groups g
def State.modGroup (s : State) (g : Nat) (f : Group → Group) : State := { s with groups := modT {} s.groups g f }
def State.outGrp (s : State) (g : Nat) : OutGroup := getT {} s.outGrps g
def State.modOutGrp (s : State) (g : Nat) (f : OutGroup → OutGroup) : State :=
  { s with outGrps := modT {} s.outGrps g f }
def State.outLane (s : State) (x : Nat) : OutLane := getT {} s.outLanes x
def State.modOutLane (s : State) (x : Nat) (f : OutLane → OutLane) : State :=
  { s with outLanes := modT {} s.outLanes x f }
def State.die (s : State) (d : Nat) : Die := getT {} s.dies d
def State.modDie (s : State) (d : Nat) (f : Die → Die) : State := { s with dies := modT {} s.dies d f }
/-- Stack `k` of die `d` is entry `2d + k`. -/
def State.stack (s : State) (d k : Nat) : Stack := getT {} s.hbmStacks (2 * d + k)
def State.modStack (s : State) (d k : Nat) (f : Stack → Stack) : State :=
  { s with hbmStacks := modT {} s.hbmStacks (2 * d + k) f }
def State.subr (s : State) (n : Nat) : Sub := getT {} s.subs n
def State.modSub (s : State) (n : Nat) (f : Sub → Sub) : State := { s with subs := modT {} s.subs n f }
def State.beam (s : State) (n : Nat) : Beam := getT {} s.beams n
def State.modBeam (s : State) (n : Nat) (f : Beam → Beam) : State := { s with beams := modT {} s.beams n f }
/-- TOPK settings of subarray `n` are entry `2n`, of beam plan `n` entry `2n + 1` (R139). -/
def State.topk (s : State) (k : Nat) : Topk := getT {} s.topks k
def State.chain (s : State) (c : Nat) : Chain := getT {} s.chains c
def State.modChain (s : State) (c : Nat) (f : Chain → Chain) : State := { s with chains := modT {} s.chains c f }
def State.eng (s : State) (e : Nat) : Eng := getT {} s.engs e
def State.modEng (s : State) (e : Nat) (f : Eng → Eng) : State := { s with engs := modT {} s.engs e f }
def State.egroup (s : State) (g : Nat) : EGroup := getT {} s.egroups g
def State.modEGroup (s : State) (g : Nat) (f : EGroup → EGroup) : State :=
  { s with egroups := modT {} s.egroups g f }
def State.dma (s : State) (c : Nat) : Dma := getT {} s.dmas c
def State.modDma (s : State) (c : Nat) (f : Dma → Dma) : State := { s with dmas := modT {} s.dmas c f }
def State.lock (s : State) (n : Nat) : Lock := getT {} s.locks n
def State.modLock (s : State) (n : Nat) (f : Lock → Lock) : State := { s with locks := modT {} s.locks n f }
def State.port (s : State) (p : Nat) : Port := getT {} s.ports p
def State.modPort (s : State) (p : Nat) (f : Port → Port) : State := { s with ports := modT {} s.ports p f }
def State.modDec (s : State) (f : Dec → Dec) : State := { s with dec := f s.dec }
def State.modMgmt (s : State) (f : Mgmt → Mgmt) : State := { s with mgmt := f s.mgmt }
def State.modTime (s : State) (f : Time → Time) : State := { s with time := f s.time }
def State.modRst (s : State) (f : Rst → Rst) : State := { s with rst := f s.rst }
def State.modGrid (s : State) (f : Grid → Grid) : State := { s with grid := f s.grid }
def State.dom (s : State) (d : Nat) : Dom := getT {} s.time.doms d
def State.modDom (s : State) (d : Nat) (f : Dom → Dom) : State :=
  s.modTime fun t => { t with doms := modT {} t.doms d f }
def State.ref (s : State) (x : Nat) : Ref := getT {} s.time.refs x
def State.modRef (s : State) (x : Nat) (f : Ref → Ref) : State :=
  s.modTime fun t => { t with refs := modT {} t.refs x f }

/-- Apply a step for each element in order. -/
def State.forEach {α : Type} (s : State) (l : List α) (f : State → α → State) : State := l.foldl f s

/-- One output of the block to the outside, appended to the model's record of its outputs. -/
def State.emit (s : State) (o : Output) : State := { s with out := s.out ++ [o] }

/-- A fresh free value: the opaque constant at the next index. -/
def State.freeNat (s : State) : Nat := Config.freeNat s.free
def State.drawFree (s : State) : State := { s with free := s.free + 1 }

/-! ### Mode, functions and tenants -/

/-- 4-bit mode (R38). -/
def State.mode4 (s : State) : Bool := bit (s.reg 0x100000) 0
/-- log2 F (R76). -/
def State.log2F (s : State) : Nat := s.fieldOf 0x300000 31 28
def State.numF (s : State) : Nat := 2 ^ s.log2F
/-- ING_CFG.CH_BASE. -/
def State.chBase (s : State) : Nat := s.fieldOf 0x200008 15 0
/-- Coarse channels per die: 4 or 8 (Table 1.6). -/
def State.chPerDie (s : State) : Nat := if s.mode4 then 8 else 4
def State.ready (s : State) : Bool := s.rst.power == .ready
/-- The counter C of the time unit (R330). -/
def State.now (s : State) : Nat := s.time.c
def State.nowU48 (s : State) : Nat := s.time.c % 2 ^ 48

/-- A VF beyond NumVFs does not exist (R245). -/
def State.fnExists (s : State) (t : Nat) : Bool := decide (t ≤ s.numVfs)
def tenReg (t off : Nat) : Nat := 0xB10000 + 32 * t + off
/-- TEN_Q0_t.EN (R277). -/
def State.tenEn (s : State) (t : Nat) : Bool := t == 0 || bit (s.reg (tenReg t 0)) 31
def State.tenClass (s : State) (t : Nat) : Nat := s.fieldOf (tenReg t 0) 25 24
def State.outShare (s : State) (t : Nat) : Nat := s.fieldOf (tenReg t 4) 24 16
/-- Die `d` is enabled and released from reset (ARR_STATUS.DIES). -/
def State.dieOn (s : State) (d : Nat) : Bool := (s.die d).enabled && (s.die d).dieReady
def State.blockReset (s : State) (b : Nat) : Option BlkReset := getT none s.rst.blocks b
/-- The block's reset is asserted (Table 14.7). -/
def State.inReset (s : State) (b : Nat) : Bool := match s.blockReset b with | some r => r.asserted | none => false
/-- The block answers new requests with RESETTING: from the acceptance of its reset to the release. -/
def State.resetting (s : State) (b : Nat) : Bool := (s.blockReset b).isSome

/-- A write to BAR2: discarded before READY (R358), and while BUSY, when it sets SETUP_STATUS.LOST (R247). -/
def State.bar2Write (s : State) (k : State → State) : State :=
  if !s.ready then s else if s.setup.busy then { s with setup := { s.setup with lost := true } } else k s

/-- A response returning to a block in reset is absorbed and counted (Table 14.9). -/
def State.absorb (s : State) (b : Nat) : State :=
  s.modRst fun r => { r with absorbed := satTo 0xFFFF (r.absorbed + 1),
                             blocks := modT none r.blocks b fun x => x.map fun y => { y with absorbed := y.absorbed + 1 } }

/-! ### Rings (R249 to R254) -/

def Ring.cfgN (r : Ring) : Nat := r.co.cfg.toNat
def Ring.enabled (r : Ring) : Bool := bit r.cfgN 31
def Ring.kind (r : Ring) : Nat := fld r.cfgN 29 28
/-- LOG2DEPTH, 4 to 16: the field has 4 bits, so 16 stands in it as 0 (Table 10.14, R248). -/
def logDepth (cfg : Nat) : Nat := if fld cfg 27 24 == 0 then 16 else fld cfg 27 24
def Ring.depth (r : Ring) : Nat := 2 ^ logDepth r.cfgN
def Ring.vec (r : Ring) : Nat := fld r.cfgN 20 16
def Ring.cplq (r : Ring) : Nat := fld r.cfgN 14 8
def Ring.base (r : Ring) : Nat := fld r.co.baseHi.toNat 19 0 * 2 ^ 32 + fld r.co.baseLo.toNat 31 12 * 4096
def Ring.wb (r : Ring) : Nat := fld r.co.wbHi.toNat 19 0 * 2 ^ 32 + fld r.co.wbLo.toNat 31 2 * 4
/-- Capacity in the units of the index: entries, or bytes of an OUT ring (Table 10.3). -/
def Ring.capacity (r : Ring) : Nat := if r.kind == 2 then 64 * r.depth else r.depth
/-- (P − C) mod 2^24 (R250). -/
def Ring.used (r : Ring) : Nat := (r.p - r.c).toNat
def Ring.room (r : Ring) : Nat := r.capacity - r.used
def Ring.isFull (r : Ring) : Bool := decide (r.capacity ≤ r.used)
def Ring.runs (r : Ring) (k : Nat) : Bool := r.enabled && r.kind == k && r.state == .run
/-- PHASE of the entry written at index `i` (R251). -/
def Ring.phase (r : Ring) (i : Nat) : Nat := (i / r.depth + 1) % 2

/-- An MSI-X vector is raised, or its pending bit set while it is masked (R253). -/
def State.raiseVec (s : State) (fn v : Nat) : State :=
  if (s.fn fn).msixMask.contains v then
    s.modFn fn fun f => { f with msixPend := if f.msixPend.contains v then f.msixPend else f.msixPend ++ [v] }
  else s.emit (.msix fn v)

/-- RING_INTERRUPT: an armed ring raises its vector and is disarmed (R253). -/
def State.ringIrq (s : State) (fn q : Nat) : State :=
  if (s.ring fn q).armed then
    (s.modRing fn q fun r => { r with armed := false }).raiseVec fn (s.ring fn q).vec
  else s

/-- TU_ROOT_t.VALID (R266). -/
def State.rootValid (s : State) (t : Nat) : Bool := bit (s.reg (0x10000 + 8 * t)) 0

/-- TU_STAT_t counts a translation fault, saturating (R267). -/
def State.countTuFault (s : State) (t : Nat) : State :=
  { s with tuFaults := modT 0 s.tuFaults t fun n => satTo 0xFFFFFFFF (n + 1) }

/-- A ring in ERROR without an event: the event ring itself (R254, R267). -/
def State.ringToError (s : State) (fn q cause : Nat) : State :=
  s.modRing fn q fun r => { r with state := .error, err := cause }

/-- One 16-byte entry of an EVT ring (Table 10.9), written at P. -/
def State.writeEvt (s : State) (fn q w0 w1 d0 d1 : Nat) : State :=
  let r := s.ring fn q
  if !s.rootValid fn then (s.countTuFault fn).ringToError fn q 2
  else
    let i := r.p.toNat
    let bytes := rows [w0 + r.phase i * 2 ^ 31, w1, d0 % 2 ^ 32, d1 % 2 ^ 32]
    ((s.emit (.hostWrite fn (r.base + 16 * (i % r.depth)) bytes)).modRing fn q
      fun r => { r with p := r.p + 1 }).ringIrq fn q

/-- An event is counted in EVT_LOST and discarded (R263). -/
def State.loseEvt (s : State) (fn : Nat) : State :=
  s.modFn fn fun f => { f with evtLost := satTo 0xFFFF (f.evtLost + 1) }

/-- EVT_OVERFLOW: the first entry written when room returns, carrying the count (R263). -/
def State.overflowEvt (s : State) (fn : Nat) : State :=
  let f := s.fn fn
  let r := s.ring fn f.evtQ
  if f.evtFull != 0 && f.evtValid && r.runs 3 && !r.isFull then
    (s.writeEvt fn f.evtQ (0x06 * 256) (15 * 2 ^ 28) f.evtFull 0).modFn fn fun f => { f with evtFull := 0 }
  else s

/-- EVT_ENTRY_WRITE: a device event goes to the tenant's EVT ring, or is counted and discarded (R263). -/
def State.postEvt (s : State) (fn ev st kind id d0 d1 : Nat) : State :=
  let s := s.overflowEvt fn
  let f := s.fn fn
  let r := s.ring fn f.evtQ
  if !s.fnExists fn || !f.evtValid || !r.runs 3 then s.loseEvt fn
  else if r.isFull then
    (s.loseEvt fn).modFn fn fun f => { f with evtFull := f.evtFull + 1 }
  else s.writeEvt fn f.evtQ (st * 2 ^ 16 + ev * 256) (kind * 2 ^ 28 + id % 2 ^ 16) d0 d1

/-- EVENT 0x01 STATUS about an object (Table 10.9). -/
def State.postStatus (s : State) (fn st kind id d0 d1 : Nat) : State := s.postEvt fn 0x01 st kind id d0 d1

/-! ### Completions and locks -/

/-- A completion is queued for the CPL ring of the command's CMD ring (R257); COMPLETION_WRITE writes it. -/
def State.complete (s : State) (r : CmdRef) (st r0 r1 : Nat) : State :=
  (s.modRing r.fn r.cplq fun x =>
      { x with cplWait := x.cplWait ++ [{ cmd := r, status := BitVec.ofNat 8 st, res0 := BitVec.ofNat 32 r0, res1 := BitVec.ofNat 32 r1 }] }).modRing
    r.fn r.q fun x => { x with outstanding := x.outstanding - 1 }

/-- Complete a command that may be absent. -/
def State.completeOpt (s : State) (r : Option CmdRef) (st r0 r1 : Nat) : State :=
  match r with
  | none => s
  | some c => s.complete c st r0 r1

/-! ### Locks of the possession unit (R295 to R300) -/

/-- The status of a grant by the lock's mark (R298). -/
def grantStatus (mark : Nat) : Nat :=
  if mark == 1 then stAbandoned else if mark == 2 then stAbandonedTimeout else stOK

/-- LOCK_GRANT: a lock goes to a holder; a command that asked for it completes with the lock and its grant count (R297, R299). -/
def State.grantLock (s : State) (n holder : Nat) (cmd : Option CmdRef) : State :=
  let l := s.lock n
  let g := (l.grants + 1) % 2 ^ 32
  (s.modLock n fun l => { l with holder := some holder, grants := g, limitFrom := l.limitFrom.filter (· != holder) }).completeOpt
    cmd (grantStatus l.mark) n g

/-- A free lock goes to its first waiter (R297). -/
def State.grantNext (s : State) (n : Nat) : State :=
  let l := s.lock n
  match l.holder, l.waiters with
  | none, w :: ws => (s.modLock n fun l => { l with waiters := ws }).grantLock n w.holder w.cmd
  | _, _ => s

/-- A lock is released, with a mark where its holder was lost (R298), and goes to its first waiter. -/
def State.releaseLock (s : State) (n mark : Nat) : State :=
  (s.modLock n fun l => { l with holder := none, mark := if mark == 0 then l.mark else mark }).grantNext n

/-- Every lock number in the table, of those for host software. -/
def State.hostLocks (s : State) : List Nat := (s.locks.map (·.1)).filter (fun n => decide (n < 960))

/-- A ring is lost as a holder: its locks are marked ABANDONED and released, and its waiting request, if any, completes
REFUSED_CONFLICT with RESULT1 = 0 (R298, R300). The master of the chain is told at the next management cycle (R321). -/
def State.loseHolder (s : State) (ring : Nat) : State :=
  let s := s.forEach s.hostLocks fun s n =>
    let ws := (s.lock n).waiters.filter (fun w => w.holder == ring)
    let s := s.modLock n fun l => { l with waiters := l.waiters.filter (fun w => w.holder != ring) }
    s.forEach ws fun s w => s.completeOpt w.cmd stConflict 0x7FFFFFFF 0
  let s := s.forEach s.hostLocks fun s n =>
    if (s.lock n).holder == some ring then s.releaseLock n 1 else s
  let chain := s.mgmt.lockWait.filter fun w => w.holder == ring
  let s := s.modMgmt fun m => { m with lockWait := m.lockWait.filter (fun w => w.holder != ring), lostRings := m.lostRings ++ [ring] }
  s.forEach chain fun s w => s.complete w.cmd stConflict 0x7FFFFFFF 0

/-- RING_ERROR: a ring enters ERROR; the event is posted unless it is the function's event ring (R254). -/
def State.ringError (s : State) (fn q cause : Nat) : State :=
  let s := (s.ringToError fn q cause).loseHolder (fn * 128 + q)
  if (s.fn fn).evtValid && (s.fn fn).evtQ == q then s
  else s.postEvt fn 0x05 0 6 (fn * 128 + q) cause 0

/-- TRANSLATION_FAULT: TU_STAT_t is incremented and TU_FAULT posted (R267). -/
def State.tuFault (s : State) (t iova : Nat) (wr : Bool) : State :=
  (s.countTuFault t).postEvt t 0x07 0 15 0 (iova % 2 ^ 32) (iova / 2 ^ 32 % 2 ^ 20 + bnat wr * 2 ^ 31)

/-! ### Address translation (R265 to R267) -/

/-- A table entry that faults whatever its level: V = 0 or a reserved bit set (R265). -/
def badEntry (e : Nat) : Bool := !bit e 0 || fld e 63 52 != 0 || fld e 11 8 != 0 || fld e 6 3 != 0

/-- A leaf at page size `2^n`: the page's base and size, and its R and W, unless the address is misaligned. -/
def leafOf (n e : Nat) : Option (Nat × Nat × Bool × Bool) :=
  let base := fld e 51 12 * 4096
  if base % 2 ^ n != 0 then none else some (base, 2 ^ n, bit e 1, bit e 2)

/-- The walk of Table 10.11 over the entries read, root first. -/
def tuWalk (es : List Nat) : Option (Nat × Nat × Bool × Bool) :=
  match es with
  | [] => none
  | e4 :: r3 =>
    if badEntry e4 || bit e4 7 then none else
    match r3 with
    | [] => none
    | e3 :: r2 =>
      if badEntry e3 then none else
      if bit e3 7 then leafOf 30 e3 else
      match r2 with
      | [] => none
      | e2 :: r1 =>
        if badEntry e2 then none else
        if bit e2 7 then leafOf 21 e2 else
        match r1 with
        | [] => none
        | e1 :: _ => if badEntry e1 then none else leafOf 12 e1

/-- Translate an access of tenant `t` at `iova`: the address issued, or a fault that has been counted and posted.
A cached translation is used while TU_INVAL has not removed it (R266). -/
def State.translate (s : State) (t iova : Nat) (wr : Bool) (acc : HostAcc) : State × Option Nat :=
  if !s.rootValid t then (s.tuFault t iova wr, none)
  else match s.tlb.find? (fun e => e.tenant == t && decide (e.iova ≤ iova) && decide (iova < e.iova + e.size)) with
    | some e => if (if wr then e.w else e.r) then (s, some (e.addr + (iova - e.iova))) else (s.tuFault t iova wr, none)
    | none => match tuWalk (acc.walk.map (·.toNat)) with
      | none => (s.tuFault t iova wr, none)
      | some (base, size, r, w) =>
        let s := { s with tlb := s.tlb ++ [{ tenant := t, iova := iova / size * size, size := size, addr := base, r := r, w := w }] }
        if (if wr then w else r) then (s, some (base + iova % size)) else (s.tuFault t iova wr, none)

/-! ### Completions and the prologue of a ring command (R255 to R257, R259) -/

/-- RESULT0 when no single field failed (R257). -/
def noField : Nat := 0x7FFFFFFF

/-- A refusal: the failing field's offset (bit 31 for the buffer) and the check's order number (R257). -/
def State.refuse (s : State) (r : CmdRef) (st field check : Nat) : State := s.complete r st field check

/-- Byte offset of ARG `n` in the descriptor (Table 10.5). -/
def argOff (n : Nat) : Nat := 0x20 + 4 * n

/-- An offset in the command's buffer, as RESULT0 names it (R257). -/
def bufOff (n : Nat) : Nat := 2 ^ 31 + n

/-- Whether the device can start the command at the consumer index of this ring now: READY and sealed (R247), the
function exists (R245) and its tenant is enabled (R277), the ring runs and holds a descriptor, a fence waits for the
commands before it, the completion ring has room (R256), and the management core is not in reset (Table 14.8). -/
def State.canStart (s : State) (fn q : Nat) (fence : Bool) : Bool :=
  let r := s.ring fn q
  let cpl := s.ring fn r.cplq
  s.ready && s.setup.sealed && s.fnExists fn && s.tenEn fn && r.runs 0 && r.used != 0
    && (!fence || r.outstanding == 0) && (decide (cpl.used + cpl.cplWait.length < cpl.capacity))
    && !s.resetting 36

/-- The command's reference for its completion. -/
def State.refOf (s : State) (c : RingCmd) (opc : Nat) : CmdRef :=
  { fn := c.fn, q := c.q, tag := c.tag, opc := BitVec.ofNat 8 opc, cplq := (s.ring c.fn c.q).cplq }

/-- DESCRIPTOR start: the consumer index advances and the command counts as outstanding (R256). -/
def State.consume (s : State) (fn q : Nat) : State :=
  s.modRing fn q fun r => { r with c := r.c + 1, outstanding := r.outstanding + 1 }

/-- Start a ring command: what every command meets before its own checks, and then `body`. A command that cannot start
leaves the state as it is. -/
def State.startCmd (s : State) (opc : Nat) (pf : Bool) (c : RingCmd) (body : CmdRef → State → State) : State :=
  if !s.canStart c.fn c.q c.fence then s
  else
    let r := s.ring c.fn c.q
    match s.translate c.fn (r.base + 64 * (r.c.toNat % r.depth)) false c.desc with
    | (s, none) => s.ringError c.fn c.q 2
    | (s, some _) =>
      let ref := s.refOf c opc
      let s := s.consume c.fn c.q
      if s.rst.sleep != .awake then s.refuse ref stSleeping noField 0
      else if c.reserved || c.version != 1 then s.refuse ref stConflict 0 0
      else if pf && c.fn != 0 then s.refuse ref stDecerr 0 0
      else if c.buf.isEmpty then body ref s
      else match s.translate c.fn c.bufIova.toNat false c.bufAcc with
        | (s, none) => s.refuse ref stDecerr 0x08 0
        | (s, some _) => body ref s

/-- Write a command's result bytes to its RES buffer; a translation fault completes it DECERR (R267). -/
def State.writeRes (s : State) (c : RingCmd) (ref : CmdRef) (bytes : List Byte) (k : State → State) : State :=
  if c.resLen < bytes.length then s.refuse ref stConflict 0x1C 0
  else match s.translate c.fn c.resIova.toNat true c.resAcc with
    | (s, none) => s.refuse ref stDecerr 0x14 0
    | (s, some _) => k (s.emit (.hostWrite c.fn c.resIova.toNat bytes))

/-! ### Parameter lists (R260) -/

/-- One 16-byte entry: PID row, PID item and VALUE, with its byte offset in the buffer. -/
structure Param where
  row  : Nat := 0
  item : Nat := 0
  val  : Nat := 0
  off  : Nat := 0
deriving DecidableEq, Repr

/-- The first `n` entries of a buffer, or none where the buffer is too short. -/
def parseParams (buf : List Byte) (n : Nat) : Option (List Param) :=
  if buf.length < 16 * n then none
  else some ((List.range n).map fun i =>
    { row := leAt buf (16 * i + 1) 1, item := leAt buf (16 * i) 1, val := leAt buf (16 * i + 8) 8, off := 16 * i })

/-- A reserved half-word of an entry is nonzero (R255). -/
def paramReserved (buf : List Byte) (i : Nat) : Bool :=
  leAt buf (16 * i + 2) 2 != 0 || leAt buf (16 * i + 4) 4 != 0

/-- The value of an item, where present. -/
def param? (ps : List Param) (row item : Nat) : Option Nat :=
  (ps.find? (fun p => p.row == row && p.item == item)).map (·.val)

def paramD (ps : List Param) (row item d : Nat) : Nat := (param? ps row item).getD d

/-- Offset of an item's entry, as RESULT0 names it. -/
def paramOff (ps : List Param) (row item : Nat) : Nat :=
  match ps.find? (fun p => p.row == row && p.item == item) with
  | some p => bufOff p.off
  | none => noField

/-- The bytes that a list value names: offset in the low half, length in the high half (R260). -/
def paramBytes (buf : List Byte) (v : Nat) : Option (List Byte) :=
  let off := v % 2 ^ 32
  let len := v / 2 ^ 32
  if buf.length < off + len then none else some ((buf.drop off).take len)

/-- 16-bit numbers of a list. -/
def u16s : List Byte → List Nat
  | a :: b :: r => (a.toNat + 256 * b.toNat) :: u16s r
  | _ => []

/-- The indices of the bits of a bitmap of bytes (R260). -/
def bitmapOf (bs : List Byte) : List Nat :=
  (List.range (8 * bs.length)).filter fun n => bit (bs.getD (n / 8) 0).toNat (n % 8)

/-- The indices of the bits of a number below `n`. -/
def bitsOf (n v : Nat) : List Nat := (List.range n).filter (bit v)

/-- A repeated PID, or a PID that is none of the items `(row, item count)` of the owning table (R260). -/
def badPids (items : List (Nat × Nat)) (ps : List Param) : Option Nat :=
  match ps with
  | [] => none
  | p :: r =>
    if !items.any (fun x => x.1 == p.row && decide (p.item < x.2)) then some p.off
    else if r.any (fun x => x.row == p.row && x.item == p.item) then some p.off
    else badPids items r

/-! ### Output records (R252, R264, R103, R73) -/

/-- The domain that labels a record of tenant `t` with this FIRST_COUNTER: the one before the first switch counter above it,
else the latest (R338). -/
def State.labelDomAt (s : State) (t first : Nat) : Nat :=
  let f := s.fn t
  match f.labelSw.find? (fun e => decide (first < e.1)), f.labelPend with
  | some e, _ => e.2
  | none, some { dom := d, k := some k, .. } => if k ≤ first then d else f.labelDom
  | none, _ => f.labelDom

/-- TDOM, NOTC and TCSEQ of a record of tenant `t` with this FIRST_COUNTER (R335, R338). -/
def State.labelOf (s : State) (t first : Nat) : Nat × Bool × Nat :=
  let f := s.fn t
  let dom := s.labelDomAt t first
  match (f.tcList.filter (fun e => decide (e.1 ≤ first))).getLast? with
  | none => (dom, true, 0)
  | some (_, n) => (dom, false, n % 256)

def State.mkRec (s : State) (typ t sub block first : Nat) (body : List Byte) : Rec :=
  let l := s.labelOf t first
  { typ := BitVec.ofNat 8 typ, tenant := t, sub := BitVec.ofNat 16 sub, block := BitVec.ofNat 32 block,
    first := first % 2 ^ 48, tdom := l.1, notc := l.2.1, tcseq := l.2.2, body := body }

/-- LENGTH of a record: header and body, a multiple of 4 (R264). -/
def Rec.len (r : Rec) : Nat := 32 + (padTo 4 r.body).length

/-- The record's bytes: the header of Table 10.10, with the CRC over the whole record, and the body. -/
def Rec.bytes (r : Rec) : List Byte :=
  let h := rows
    [ r.tenant * 2 ^ 24 + 0x01 * 256 + r.typ.toNat
    , r.tdom * 2 ^ 30 + bnat r.notc * 2 ^ 29 + r.tcseq * 2 ^ 16 + r.sub.toNat
    , r.block.toNat, r.first % 2 ^ 32, r.first / 2 ^ 32 % 2 ^ 16, r.len, 0 ]
  let b := padTo 4 r.body
  h ++ le32 (crc32 (h ++ zeros 4 ++ b)) ++ b

/-- KIND of the object that the header's SUBARRAY field names, by record type (Tables 10.9, 10.15). -/
def recKind (typ : Nat) : Nat :=
  if typ == 1 || typ == 2 || typ == 5 || typ == 6 then 0
  else if typ == 3 then 1
  else if typ == 8 || typ == 9 || typ == 12 then 2 else 15

/-- A discarded record is reported with DATA_LOST on the tenant's EVT ring (R74, R103). -/
def State.dataLost (s : State) (r : Rec) : State :=
  s.postStatus r.tenant stDataLost (recKind r.typ.toNat) r.sub.toNat r.block.toNat 1

def recLaneBytes (l : OutLane) : Nat := l.head.length + sumN (l.queue.map (·.2.length))

/-- The ACTIVE output lanes of die `d`: groups 2d and 2d + 1, lanes 16d to 16d + 15. -/
def State.activeOutLanes (s : State) (d : Nat) : List Nat :=
  ((List.range 16).map (16 * d + ·)).filter fun x => bit (s.outGrp (x / 8)).active.toNat (x % 8)

/-- RECORD_PLACE: the ACTIVE output lane of the die with the fewest bytes queued (R73). -/
def State.placeLane (s : State) (d : Nat) : Option Nat :=
  minBy (fun x => recLaneBytes (s.outLane x)) (s.activeOutLanes d)

/-- The part of a die's 64 MiB of record staging that belongs to a tenant (R103, R275). -/
def State.stagingCap (s : State) (t : Nat) : Nat := 67108864 * s.outShare t / 256

def State.stagingUsed (s : State) (d t : Nat) : Nat := getT 0 (s.die d).staging t

def State.addStaging (s : State) (d t n : Nat) : State :=
  s.modDie d fun x => { x with staging := modT 0 x.staging t (· + n) }

def State.subStaging (s : State) (d t n : Nat) : State :=
  s.modDie d fun x => { x with staging := modT 0 x.staging t (· - n) }

/-- A record joins those waiting for an OUT ring; one longer than the ring is discarded (R252). -/
def State.stageRing (s : State) (q : Nat) (r : Rec) : State :=
  let g := s.ring r.tenant q
  if !g.enabled || g.kind != 2 then s.dataLost r
  else if g.capacity < r.len then
    (s.modRing r.tenant q fun g => { g with discards := satTo 0xFFFF (g.discards + 1) }).postStatus r.tenant stDataLost 6
      (r.tenant * 128 + q) r.typ.toNat r.len
  else
    let s := match r.die with
      | some d => s.addStaging d r.tenant r.len
      | none => s
    s.modRing r.tenant q fun g => { g with staged := g.staged ++ [r] }

/-- A record placed whole on an output lane of die `d`, or discarded where no lane is ACTIVE (R73, R74). -/
def State.stageLane (s : State) (d : Nat) (r : Rec) : State :=
  match s.placeLane d with
  | none => s.dataLost r
  | some x => (s.addStaging d r.tenant r.len).modOutLane x fun l => { l with queue := l.queue ++ [(r.tenant, r.bytes)] }

/-- A record of die `d` enters record staging and its destination, or is discarded at full staging (R103). The result
says whether it was kept. -/
def State.emitDie (s : State) (d dest : Nat) (r : Rec) : State × Bool :=
  if s.stagingCap r.tenant < s.stagingUsed d r.tenant + r.len then (s.dataLost r, false)
  else if dest == 0 then
    match s.placeLane d with
    | none => (s.dataLost r, false)
    | some _ => (s.stageLane d r, true)
  else
    let g := s.ring r.tenant (dest - 0x100)
    if !g.enabled || g.kind != 2 || decide (g.capacity < r.len) then (s.stageRing (dest - 0x100) { r with die := some d }, false)
    else (s.stageRing (dest - 0x100) { r with die := some d }, true)

/-- A record that the hub produces, for an OUT ring of its tenant. -/
def State.emitHub (s : State) (dest : Nat) (r : Rec) : State := s.stageRing (dest - 0x100) r

/-- A DEST value is well formed: the lanes, or an enabled OUT ring of the tenant (R259). -/
def State.destOk (s : State) (t dest : Nat) : Bool :=
  dest == 0 || (decide (0x100 ≤ dest) && decide (dest < 0x180) && (s.ring t (dest - 0x100)).enabled
    && (s.ring t (dest - 0x100)).kind == 2)

/-- A DEST value that names an enabled OUT ring (R261). -/
def State.destRing (s : State) (t dest : Nat) : Bool := dest != 0 && s.destOk t dest

/-! ### Sample counters and channels -/

/-- Packages' coarse channel `c` (package-local) lies on this die (R26). -/
def State.dieOfCh (s : State) (c : Nat) : Nat := c / s.chPerDie

/-- The counter as it stands (R61): the highest SAMPLE_COUNTER that has passed check 7. -/
def State.highCtr (s : State) : Nat := s.time.highCtr.getD 0

/-- TILE_CLK cycles per coarse sample (R40). -/
def tilePerSample : Nat := 640

/-- Fault record into retained memory, then the log, 32 and 1,024 the most recent (R364, R365). -/
def State.faultRec (s : State) (r : FaultRec) : State :=
  s.modRst fun x => { x with retained := (x.retained ++ [r]).drop ((x.retained.length + 1) - 32), faultAt := some s.now }

end Sys2Proof.Machine
end

