-- ==== Sys2Proof/Machine/Decoder.lean ====
section
/-! DEFINITION. Codes and the arithmetic of the decoder fabric: layered offset min-sum, max-log-MAP and Viterbi decoding
(R227 to R230, R237, R262). Bit orders, ties and widths that the manual does not state are constants of Config. -/
namespace Sys2Proof.Machine

open Sys2Proof

/-! ### Codes (R227 to R230, R262) -/

/-- A code entry: its 16-byte header and its tables. -/
abbrev CodeBytes := List Byte

def codeW (c : CodeBytes) (i : Nat) : Nat := leAt c (4 * i) 4
def codeKind (c : CodeBytes) : Nat := fld (codeW c 0) 31 30
def codeImax (c : CodeBytes) : Nat := fld (codeW c 0) 13 8
def ldpcZ (c : CodeBytes) : Nat := fld (codeW c 1) 8 0
def ldpcMb (c : CodeBytes) : Nat := fld (codeW c 1) 22 16
def ldpcNb (c : CodeBytes) : Nat := fld (codeW c 1) 31 24
def ldpcE (c : CodeBytes) : Nat := fld (codeW c 2) 9 0
def turboK (c : CodeBytes) : Nat := fld (codeW c 1) 12 0
def convK (c : CodeBytes) : Nat := fld (codeW c 1) 13 0
def convKc (c : CodeBytes) : Nat := fld (codeW c 1) 19 16
def convN (c : CodeBytes) : Nat := fld (codeW c 1) 22 20
def convTerm (c : CodeBytes) : Nat := fld (codeW c 1) 25 24

/-- Information bits K. -/
def codeBits (c : CodeBytes) : Nat :=
  match codeKind c with | 0 => (ldpcNb c - ldpcMb c) * ldpcZ c | 1 => turboK c | _ => convK c

/-- Input length in bytes (R228). -/
def codeInLen (c : CodeBytes) : Nat :=
  match codeKind c with
  | 0 => ldpcNb c * ldpcZ c
  | 1 => 3 * turboK c + 12
  | _ => convN c * (if convTerm c == 0 then convK c + convKc c - 1 else convK c)

/-- Bytes of the tables that follow the header. -/
def codeTables (c : CodeBytes) : Nat := match codeKind c with | 0 => 4 * ldpcE c | 1 => 2 * turboK c | _ => 0

def within (lo n hi : Nat) : Bool := decide (lo ≤ n) && decide (n ≤ hi)

/-- The entries of an LDPC table: in range and sorted by ROW. -/
def ldpcTableOk (c : CodeBytes) : Bool :=
  let e (i : Nat) : Nat := codeW c (4 + i)
  (List.range (ldpcE c)).all fun i =>
    decide (fld (e i) 31 26 < ldpcMb c) && decide (fld (e i) 25 19 < ldpcNb c) && decide (fld (e i) 18 10 < ldpcZ c)
      && fld (e i) 9 0 == 0 && (i == 0 || decide (fld (e (i - 1)) 31 26 ≤ fld (e i) 31 26))

/-- Generators of Kc bits, the unused ones 0. -/
def convGensOk (c : CodeBytes) : Bool :=
  let g (i : Nat) : Nat := if i == 3 then fld (codeW c 3) 8 0 else fld (codeW c 2) (9 * i + 8) (9 * i)
  (List.range 4).all fun i => if i < convN c then decide (g i < 2 ^ convKc c) else g i == 0

/-- The reserved bits of the header are 0. -/
def codeReservedOk (c : CodeBytes) : Bool :=
  fld (codeW c 0) 29 14 == 0
    && match codeKind c with
      | 0 => fld (codeW c 1) 9 9 == 0 && fld (codeW c 1) 15 13 == 0 && fld (codeW c 1) 23 23 == 0 && fld (codeW c 2) 31 10 == 0 && codeW c 3 == 0
      | 1 => fld (codeW c 1) 31 13 == 0 && fld (codeW c 2) 31 8 == 0 && codeW c 3 == 0
      | _ => fld (codeW c 1) 15 14 == 0 && fld (codeW c 1) 31 26 == 0 && fld (codeW c 2) 31 27 == 0 && fld (codeW c 3) 31 9 == 0

/-- Table 9.3 and R262. -/
def codeOk (c : CodeBytes) : Bool :=
  decide (16 ≤ c.length) && fld (codeW c 0) 7 0 == 1 && codeReservedOk c && decide (codeTables c ≤ 4096)
    && decide (c.length = 16 + codeTables c)
    && match codeKind c with
      | 0 => within 8 (ldpcZ c) 384 && within 1 (ldpcMb c) 64 && within (ldpcMb c + 1) (ldpcNb c) 128 && decide (ldpcE c ≤ 512)
          && decide (fld (codeW c 1) 12 10 ≤ 4) && within 1 (codeImax c) 32 && ldpcTableOk c
      | 1 => within 40 (turboK c) 6144 && turboK c % 8 == 0 && within 1 (codeImax c) 16
          && (List.range (turboK c)).all fun i => decide (leAt c (16 + 2 * i) 2 < turboK c)
      | 2 => within 3 (convKc c) 9 && within 2 (convN c) 4 && decide (convTerm c ≤ 2) && within 8 (convK c) 8192 && convGensOk c
      | _ => false

/-- Worst-case cost of a job in FAB_CLK cycles (Table 9.4). -/
def codeCost (c : CodeBytes) : Nat :=
  match codeKind c with
  | 0 => ceilDiv (ldpcNb c * ldpcZ c) 64 + codeImax c * (ldpcE c * ceilDiv (ldpcZ c) 96 + 6 * ldpcMb c)
      + ceilDiv ((ldpcNb c - ldpcMb c) * ldpcZ c) 64
  | 1 => ceilDiv (3 * turboK c + 12) 64 + codeImax c * 2 * (ceilDiv (turboK c) 8 + 48) + ceilDiv (turboK c) 64
  | _ =>
    let n := match convTerm c with | 0 => convK c + convKc c - 1 | 2 => convK c | _ => convK c + 2 * min (convK c) 48
    n * max 1 (2 ^ (convKc c - 1) / 16) + 40

/-! ### Input and decisions (R228) -/

/-- The LLR of an input byte: 6-bit two's complement, −32 taken as −31. -/
def llr (b : Byte) : Int := max (-31) (toSigned 6 (b.toNat % 64))

def llrs (input : List Byte) : Array Int := (input.map llr).toArray

/-- A positive value favours bit 0; what 0 decides is not stated. -/
def hardBit (l : Int) : Bool := if l == 0 then Config.zeroLlrBit else decide (l < 0)

/-- A message of 8 bits, saturating (R229). -/
def sat8 (x : Int) : Int := clampI (-128) 127 x

/-- Bits packed least significant first (R237). -/
def packBits (n : Nat) (f : Nat → Bool) : List Byte :=
  (List.range (ceilDiv n 8)).map fun i => BitVec.ofNat 8 (sumN ((List.range 8).map fun k => if 8 * i + k < n && f (8 * i + k) then 2 ^ k else 0))

/-! ### LDPC: layered offset min-sum (R229) -/

/-- The sums of the variables, and the message of every edge. -/
structure Ldpc where
  post : Array Int
  msg  : Array Int

/-- The edges of check `z` of a layer: their place among the messages, and their variable. -/
def ldpcEdges (c : CodeBytes) (row z : Nat) : List (Nat × Nat) :=
  let n := ldpcZ c
  ((List.range (ldpcE c)).filter fun i => fld (codeW c (4 + i)) 31 26 == row).map fun i =>
    let e := codeW c (4 + i)
    let shift := fld e 18 10
    (i * n + z, fld e 25 19 * n + (if Config.ldpcShiftBack then z + n - shift else z + shift) % n)

/-- Offset min-sum: the least magnitude of the other messages less 1 LSB, and the product of their signs. -/
def minSum (qs : List Int) (k : Nat) : Int :=
  let others := qs.eraseIdx k
  let mag : Nat := (others.map Int.natAbs).foldl min 128 - 1
  if (others.filter (· < 0)).length % 2 == 1 then -(mag : Int) else mag

/-- One check: its messages to and from the variables. -/
def ldpcCheck (s : Ldpc) (es : List (Nat × Nat)) : Ldpc :=
  let qs := es.map fun e => sat8 (s.post.getD e.2 0 - s.msg.getD e.1 0)
  (List.range es.length).foldl (fun t k =>
    let e := es.getD k (0, 0)
    let m := minSum qs k
    { post := t.post.setIfInBounds e.2 (Config.ldpcPosterior (qs.getD k 0 + m)), msg := t.msg.setIfInBounds e.1 m }) s

def ldpcChecks (c : CodeBytes) : List (List (Nat × Nat)) :=
  (List.range (ldpcMb c)).flatMap fun r => (List.range (ldpcZ c)).map fun z => ldpcEdges c r z

/-- The parity checks that do not hold. -/
def ldpcBad (c : CodeBytes) (s : Ldpc) : Nat :=
  ((ldpcChecks c).filter fun es => (es.filter fun e => hardBit (s.post.getD e.2 0)).length % 2 == 1).length

/-- Iterations until every check holds, at most `n`: how many ran, and what they left. -/
def ldpcRun (c : CodeBytes) : (n done : Nat) → Ldpc → Nat × Ldpc
  | 0, done, s => (done, s)
  | n + 1, done, s =>
    let t := (ldpcChecks c).foldl ldpcCheck s
    if ldpcBad c t == 0 then (done + 1, t) else ldpcRun c n (done + 1) t

def decodeLdpc (c : CodeBytes) (input : List Byte) (imax : Nat) : Bool × Nat × Nat × List Byte :=
  let r := ldpcRun c imax 0 { post := llrs input, msg := Array.replicate (ldpcE c * ldpcZ c) 0 }
  let bad := ldpcBad c r.2
  (bad == 0, r.1, bad, packBits (codeBits c) fun i => hardBit (r.2.post.getD i 0))

/-! ### Path metrics -/

/-- The metric of the best path to or from each state; none where no path leads. -/
abbrev Metrics := List (Option Int)

def metricAt (m : Metrics) (s : Nat) : Option Int := (m[s]?).join

def maxMetric (a b : Option Int) : Option Int :=
  match a, b with
  | some x, some y => some (max x y)
  | some x, none => some x
  | none, y => y

def bestOf (l : List (Option Int)) : Option Int := l.foldl maxMetric none

/-- Only state 0. -/
def fromZero (n : Nat) : Metrics := (List.range n).map fun s => if s == 0 then some 0 else none

/-! ### TURBO: max-log-MAP (R229) -/

/-- Tap `j` of a 4-bit polynomial, 0 the newest. -/
def turboTap (p j : Nat) : Bool := bit p (if Config.turboTapMsb then 3 - j else j)

/-- Bit `j` of the register behind the newest, 1 the most recent. -/
def regBit (s j : Nat) : Bool := bit s (j - 1)

/-- What enters the register for input `u`. -/
def turboIn (c : CodeBytes) (s : Nat) (u : Bool) : Bool :=
  let fb := fld (codeW c 2) 3 0
  [1, 2, 3].foldl (fun a j => a != (turboTap fb j && regBit s j)) u

def turboParity (c : CodeBytes) (s : Nat) (u : Bool) : Bool :=
  let fw := fld (codeW c 2) 7 4
  [1, 2, 3].foldl (fun a j => a != (turboTap fw j && regBit s j)) (turboTap fw 0 && turboIn c s u)

def turboNext (c : CodeBytes) (s : Nat) (u : Bool) : Nat := (2 * s + bnat (turboIn c s u)) % 8

/-- One step of a constituent's trellis: the LLR of its systematic bit with the a priori value, that of its parity bit, and
whether it terminates the trellis. -/
structure TurboStep where
  sys  : Int
  par  : Int
  tail : Bool

def turboGain (c : CodeBytes) (x : TurboStep) (s : Nat) (u : Bool) : Option Int :=
  if x.tail && turboIn c s u then none
  else some ((if u then 0 else x.sys) + if turboParity c s u then 0 else x.par)

def addMetric (a b : Option Int) : Option Int := match a, b with | some x, some y => some (x + y) | _, _ => none

/-- Metrics one step later. -/
def turboForward (c : CodeBytes) (m : Metrics) (x : TurboStep) : Metrics :=
  (List.range 8).map fun t => bestOf ((List.range 8).flatMap fun s => [false, true].map fun u =>
    if turboNext c s u == t then addMetric (metricAt m s) (turboGain c x s u) else none)

/-- Metrics of the rest of the paths, one step earlier. -/
def turboBackward (c : CodeBytes) (x : TurboStep) (m : Metrics) : Metrics :=
  (List.range 8).map fun s => bestOf ([false, true].map fun u => addMetric (metricAt m (turboNext c s u)) (turboGain c x s u))

/-- The value of a step's bit: the best path with 0 less the best with 1. -/
def turboValue (c : CodeBytes) (a : Metrics) (x : TurboStep) (b : Metrics) : Int :=
  let best (u : Bool) : Int :=
    (bestOf ((List.range 8).map fun s => addMetric (addMetric (metricAt a s) (turboGain c x s u)) (metricAt b (turboNext c s u)))).getD 0
  best false - best true

/-- The values of the steps from metrics `a` on, and the metrics before them. -/
def turboValues (c : CodeBytes) : Metrics → List TurboStep → List Int × Metrics
  | _, [] => ([], fromZero 8)
  | a, x :: r =>
    let (vs, b) := turboValues c (turboForward c a x) r
    (turboValue c a x b :: vs, turboBackward c x b)

/-- π(i). -/
def turboPi (c : CodeBytes) (i : Nat) : Nat := leAt c (16 + 2 * i) 2

/-- One half-iteration of constituent 0 (natural order) or 1 (interleaved): from a priori values in natural order, the values
and the scaled extrinsic values, both in natural order. -/
def turboHalf (c : CodeBytes) (l : Array Int) (which : Nat) (apriori : Array Int) : Array Int × Array Int :=
  let k := turboK c
  let place (i : Nat) : Nat := if which == 0 then i else turboPi c i
  let at_ (i : Nat) : Int := l.getD i 0
  let prior (i : Nat) : Int := at_ (place i) + apriori.getD (place i) 0
  let body := (List.range k).map fun i => { sys := prior i, par := at_ (k * (1 + which) + i), tail := false : TurboStep }
  let tail := (List.range 3).map fun i =>
    { sys := at_ (3 * k + Config.turboTail (6 * which + 2 * i)), par := at_ (3 * k + Config.turboTail (6 * which + 2 * i + 1)), tail := true : TurboStep }
  let vs := (turboValues c (fromZero 8) (body ++ tail)).1
  let put (f : Nat → Int) : Array Int := (List.range k).foldl (fun a i => a.setIfInBounds (place i) (f i)) (Array.replicate k 0)
  (put fun i => vs.getD i 0, put fun i => sat8 (rneDiv (3 * (vs.getD i 0 - prior i)) 4))

/-- Half-iterations until the hard decisions of two in a row agree, at most `n` more: how many ran, whether they stopped
early, and the last values. -/
def turboRun (c : CodeBytes) (l : Array Int) : (n done : Nat) → (last ext : Array Int) → Nat × Bool × Array Int
  | 0, done, last, _ => (done, false, last)
  | n + 1, done, last, ext =>
    let r := turboHalf c l (done % 2) ext
    if done != 0 && r.1.map hardBit == last.map hardBit then (done + 1, true, r.1) else turboRun c l n (done + 1) r.1 r.2

def decodeTurbo (c : CodeBytes) (input : List Byte) (imax : Nat) : Bool × Nat × Nat × List Byte :=
  let r := turboRun c (llrs input) (2 * imax) 0 #[] (Array.replicate (turboK c) 0)
  (r.2.1, ceilDiv r.1 2, 0, packBits (turboK c) fun i => hardBit (r.2.2.getD i 0))

/-! ### CONV: Viterbi (R229) -/

/-- Generator `g`. -/
def convGen (c : CodeBytes) (g : Nat) : Nat := if g == 3 then fld (codeW c 3) 8 0 else fld (codeW c 2) (9 * g + 8) (9 * g)

/-- Output `g` of the encoder in a state, the latest input in its bit 0, for input `u`. -/
def convOut (c : CodeBytes) (g s : Nat) (u : Bool) : Bool :=
  let kc := convKc c
  let tap (j : Nat) : Bool := bit (convGen c g) (if Config.convTapMsb then kc - 1 - j else j)
  (List.range (kc - 1)).foldl (fun a j => a != (tap (j + 1) && bit s j)) (tap 0 && u)

/-- The best path into a state: its metric and its inputs, the latest first. -/
abbrev Survivor := Option (Int × List Bool)

/-- The better of two paths; which of two equal ones survives is not stated. -/
def better (tie : Bool) (a b : Survivor) : Survivor :=
  match a, b with
  | some x, some y => if x.1 < y.1 || (x.1 == y.1 && tie) then some y else some x
  | some x, none => some x
  | none, y => y

/-- One step with the LLRs of its n outputs. -/
def viterbiStep (c : CodeBytes) (t : Nat) (l : Nat → Int) (m : List Survivor) : List Survivor :=
  let half := 2 ^ (convKc c - 2)
  (List.range (2 * half)).map fun s' =>
    let u := bit s' 0
    let from_ (s : Nat) : Survivor := ((m[s]?).join).map fun x =>
      (x.1 + (List.range (convN c)).foldl (fun a g => a + if convOut c g s u then 0 else l g) 0, u :: x.2)
    better (Config.viterbiTie t s') (from_ (s' / 2)) (from_ (s' / 2 + half))

/-- A block's steps: `pre` before its first information bit and `total` in all, circular where they wrap. -/
def viterbi (c : CodeBytes) (l : Array Int) (pre total : Nat) (start : List Survivor) : List Survivor :=
  let n := convN c
  let len := l.size / n
  (List.range total).foldl (fun m t => viterbiStep c t (fun g => l.getD (n * ((t + len - pre % max 1 len) % max 1 len) + g) 0) m) start

def decodeConv (c : CodeBytes) (input : List Byte) : Bool × Nat × Nat × List Byte :=
  let k := convK c
  let states := 2 ^ (convKc c - 1)
  let zero : List Survivor := (List.range states).map fun s => if s == 0 then some (0, []) else none
  let w := min k 48
  let (pre, total, start) : Nat × Nat × List Survivor := match convTerm c with
    | 0 => (0, k + convKc c - 1, zero)
    | 1 => (w, k + 2 * w, List.replicate states (some (0, [])))
    | _ => (0, k, zero)
  let m := viterbi c (llrs input) pre total start
  let last : Survivor := if convTerm c == 0 then (m[0]?).join
    else (List.range states).foldl (fun a s => better (Config.viterbiTie total s) a ((m[s]?).join)) none
  let path := ((last.map (·.2)).getD []).reverse.drop pre
  (true, Config.convIters c, Config.convMetric c input, packBits k fun i => path.getD i false)

/-- What a job yields: CONV, ITERS, METRIC and the decoded bits (R229, R237). -/
def decodeJob (c : CodeBytes) (input : List Byte) (imax : Nat) : Bool × Nat × Nat × List Byte :=
  match codeKind c with
  | 0 => decodeLdpc c input imax
  | 1 => decodeTurbo c input imax
  | _ => decodeConv c input

end Sys2Proof.Machine
end

