-- ==== Sys2Proof/Machine/EngOps.lean ====
section
/-! DEFINITION. The shared operations of the Cellek engines: ownership, memories, the event hub, faults, landing of
results, address generators, and the issue of an instruction (Chapter 8, R190 to R209). -/
namespace Sys2Proof.Machine

open Sys2Proof

/-! ### Ownership (R191, R214) -/

def ownerOf (w : Nat) : Option Nat := if bit w 8 then some (fld w 7 0) else none
def State.engOwner (s : State) (e : Nat) : Option Nat := ownerOf (s.reg (0x900000 + 4 * e))
def State.pageOwner (s : State) (g k : Nat) : Option Nat := ownerOf (s.reg (0x900200 + 4 * (32 * g + k)))
def State.lineOwner (s : State) (g n : Nat) : Option Nat := ownerOf (s.reg (0x902000 + 4 * (48 * g + n)))
/-- The owning tenant of an engine that has one. -/
def State.engTenant (s : State) (e : Nat) : Nat := (s.engOwner e).getD 0
/-- Line `n` of the group is an event line and the tenant's. -/
def State.lineOk (s : State) (g n t : Nat) : Bool := decide (n < 48) && s.lineOwner g n == some t

/-- A range of group memory within pages of the tenant. -/
def State.rangeOk (s : State) (g t a n : Nat) : Bool :=
  decide (a + n ≤ 2097152) && (List.range ((a + n + 65535) / 65536 - a / 65536)).all fun k => s.pageOwner g (a / 65536 + k) == some t

/-! ### Memories (Table 8.2, R195) -/

/-- Window offset of a bus word; none where nothing is mapped. -/
def busOff (b : EBus) (w : Nat) : Option Nat :=
  match b with
  | .x => if w < 0x6000 then some (0x10000 + 4 * w) else none
  | .y => if w < 0x6000 then some (0x28000 + 4 * w) else none
  | .c => if w < 0x4000 then some (0x40000 + 4 * w) else none

/-- A group-memory word address of the X or Y bus. -/
def isGroupWord (b : EBus) (w : Nat) : Bool := b != .c && decide (0x80000 ≤ w)

def Eng.bytesAt (e : Eng) (off n : Nat) : List Byte := getRun 0 e.mem off n
def Eng.putBytes (e : Eng) (off : Nat) (bs : List Byte) : Eng := { e with mem := setRun 0 e.mem off bs }
/-- The word at a window offset, bits 23:0 (R195). -/
def Eng.word24 (e : Eng) (off : Nat) : BitVec 24 := BitVec.ofNat 24 (ofLe (e.bytesAt off 3))
/-- The four bytes of a stored data word: bits 31:24 are copies of bit 23. -/
def container (v : BitVec 24) : List Byte := le 4 (ofSigned 32 v.toInt)
def EGroup.bytesAt (g : EGroup) (off n : Nat) : List Byte := getRun 0 g.mem off n
def EGroup.putBytes (g : EGroup) (off : Nat) (bs : List Byte) : EGroup := { g with mem := setRun 0 g.mem off bs }

/-! ### Register sets -/

def Eng.set (e : Eng) : RegSet := if e.inh then e.shad else e.main
def Eng.modSet (e : Eng) (f : RegSet → RegSet) : Eng := if e.inh then { e with shad := f e.shad } else { e with main := f e.main }
def RegSet.dv (r : RegSet) (n : Nat) : BitVec 24 := getT 0 r.d n
def RegSet.av (r : RegSet) (n : Nat) : BitVec 56 := getT 0 r.a n
def RegSet.gen (r : RegSet) (k : Nat) : AddrGen := getT {} r.ag k
def RegSet.setD (r : RegSet) (n : Nat) (v : BitVec 24) : RegSet := { r with d := setT 0 r.d n v }
def RegSet.setA (r : RegSet) (n : Nat) (v : BitVec 56) : RegSet := { r with a := setT 0 r.a n v }
def RegSet.setGen (r : RegSet) (k : Nat) (g : AddrGen) : RegSet := { r with ag := setT {} r.ag k g }
def RegSet.setBits (r : RegSet) (mask v : Nat) : RegSet := { r with sr := BitVec.ofNat 32 (mergeBits mask r.sr.toNat v) }
/-- C, V, Z, N of SR, bits 11 to 8. -/
def RegSet.flag (r : RegSet) (k : Nat) : Bool := bit r.sr.toNat k
def RegSet.setZ (r : RegSet) (b : Bool) : RegSet := r.setBits (2 ^ 9) (bnat b * 2 ^ 9)

/-- The bits 47:24 of an accumulator replaced. -/
def accInsert (a : BitVec 56) (v : BitVec 24) : BitVec 56 :=
  BitVec.ofNat 56 (a.toNat / 2 ^ 48 * 2 ^ 48 + v.toNat * 2 ^ 24 + a.toNat % 2 ^ 24)

/-- A register as a memory access field names it: d0 to d15, or a0 to a3 bits 47:24 as 16 to 19 (R199). -/
def RegSet.readReg (r : RegSet) (n : Nat) : BitVec 24 :=
  if n < 16 then r.dv n else BitVec.ofNat 24 ((r.av (n - 16)).toNat / 2 ^ 24)
def RegSet.writeReg (r : RegSet) (n : Nat) (v : BitVec 24) : RegSet :=
  if n < 16 then r.setD n v else r.setA (n - 16) (accInsert (r.av (n - 16)) v)

/-! ### Address generators (R192) -/

/-- E = (BASE + IDX) mod 2^20. -/
def AddrGen.ea (g : AddrGen) : Nat := (g.base.toNat + g.idx.toNat) % 2 ^ 20

/-- REV = 1 needs a SPAN that is a power of two from 2 to 65,536. -/
def AddrGen.legal (g : AddrGen) : Bool := !g.rev || (isPow2 g.span.toNat && decide (2 ≤ g.span.toNat) && decide (g.span.toNat ≤ 65536))

def brev : Nat → Nat → Nat
  | 0, _ => 0
  | n + 1, i => i % 2 * 2 ^ n + brev n (i / 2)

/-- IDX after moving by `n` words, or after one bit-reversed advance. -/
def AddrGen.move (g : AddrGen) (n : Int) : AddrGen :=
  let v : Int := (g.idx.toNat : Int) + n
  let m : Int := if g.span == 0 then 2 ^ 17 else (g.span.toNat : Int)
  { g with idx := BitVec.ofNat 17 (v % m).toNat }

def AddrGen.advance (g : AddrGen) : AddrGen :=
  if g.rev then
    let r := Nat.log2 g.span.toNat
    { g with idx := BitVec.ofNat 17 (brev r ((brev r (g.idx.toNat % 2 ^ r) + 1) % 2 ^ r)) }
  else g.move g.step.toInt

/-- One field as a number, and one field written (AGSET, AGGET, MVM). -/
def AddrGen.field (g : AddrGen) (f : AgField) : Nat :=
  match f with
  | .base => g.base.toNat | .idx => g.idx.toNat | .step => g.step.toNat | .span => g.span.toNat | .rev => bnat g.rev
def AddrGen.setField (g : AddrGen) (f : AgField) (v : Int) : AddrGen :=
  match f with
  | .base => { g with base := BitVec.ofInt 20 v }
  | .idx => { g with idx := BitVec.ofInt 17 v }
  | .step => { g with step := BitVec.ofInt 17 v }
  | .span => { g with span := BitVec.ofInt 17 v }
  | .rev => { g with rev := v % 2 == 1 }

/-! ### Landing of results (R200, R201) -/

/-- One result lands in the running set or in the engine's memory. -/
def Eng.land (e : Eng) (l : Land) : Eng :=
  match l with
  | .d n v => e.modSet fun r => r.setD n v
  | .a n v _ => e.modSet fun r => r.setA n v
  | .ag n f v => e.modSet fun r => r.setGen n ((r.gen n).setField f v)
  | .flags v => e.modSet fun r => r.setBits 0xF00 (v.toNat * 256)
  | .satf => e.modSet fun r => r.setBits 16 16
  | .ovf => e.modSet fun r => r.setBits 8 8
  | .store a bs => e.putBytes a bs
  | .load n b w => match busOff b w with
    | some off => let v := e.word24 off; e.modSet fun r => r.writeReg n v
    | none => e
  | .loadH n b w => match busOff b w with
    | some off =>
      let lo := ofLe (e.bytesAt off 2)
      let hi := ofLe (e.bytesAt (off + 2) 2)
      e.modSet fun r => (r.setD n (BitVec.ofInt 24 (toSigned 16 lo * 256))).setD (n + 1) (BitVec.ofInt 24 (toSigned 16 hi * 256))
    | none => e

/-- Every result due at or before cycle `c` of the running set lands, by cycle and then by order of issue. -/
def Eng.landTo (e : Eng) (c : Nat) : Eng :=
  let due := sortBy (·.1) (e.set.lands.filter fun l => decide (l.1 ≤ c))
  due.foldl (fun e l => e.land l.2) (e.modSet fun r => { r with lands := r.lands.filter fun l => decide (c < l.1) })

/-- Put a result in flight, visible `n` cycles after the issue at cycle `c`. -/
def Eng.fly (e : Eng) (n : Nat) (l : Land) : Eng := e.modSet fun r => { r with lands := r.lands ++ [(r.cyc + n, l)] }

/-- The value that a multiply-accumulate adds to: the latest pending multiply-accumulate result, else the register (R201). -/
def Eng.accBase (e : Eng) (n : Nat) : BitVec 56 :=
  let p := e.set.lands.filterMap fun l => match l.2 with
    | .a m v true => if m == n then some v else none
    | _ => none
  p.getLast?.getD (e.set.av n)

/-! ### The event hub (R204, R213) -/

/-- An input pends; an engine that waits on it goes on with the lowest pending input of its mask in d0. -/
def Eng.wake (e : Eng) : Eng :=
  match e.set.wait with
  | some m =>
    if e.st != .waiting then e
    else match (List.range 51).find? (fun n => bit e.pend.toNat n && bit m n) with
      | some n =>
        let e := (e.landTo e.set.cyc).modSet fun r => { r.setD 0 (BitVec.ofNat 24 n) with wait := none }
        { e with st := .running, pend := e.pend &&& ~~~(BitVec.ofNat 64 (2 ^ n)) }
      | none => e
  | none => e

def Eng.pulse (e : Eng) (n : Nat) : Eng := ({ e with pend := e.pend ||| BitVec.ofNat 64 (2 ^ n) } : Eng).wake

def Eng.imask (e : Eng) : Nat := e.imaskHi.toNat * 2 ^ 32 + e.imaskLo.toNat

/-- The engine waits on input `n`, in either set. -/
def Eng.waitsOn (e : Eng) (n : Nat) : Bool :=
  (match e.main.wait with | some m => bit m n | none => false) || (match e.shad.wait with | some m => bit m n | none => false)

/-- EVENT_PULSE: a source of tenant `t` pulses a line of the group, if the line is the tenant's: the input pends on every
engine of the tenant in the group that has it enabled or waits on it (R213, R214). -/
def State.pulseLine (s : State) (g n t : Nat) : State :=
  if !s.lineOk g n t then s
  else s.forEach ((List.range 8).map (8 * g + ·)) fun s e =>
    if s.engOwner e == some t && (bit (s.eng e).imask n || (s.eng e).waitsOn n) then s.modEng e fun x => x.pulse n else s

/-- A pulse of an engine's own input 48 to 50. -/
def State.pulseInput (s : State) (e n : Nat) : State := s.modEng e fun x => x.pulse n

/-! ### Faults, stalls and the issue of an instruction -/

/-- ENG_FAULT: the engine parks in FAULT with FCODE, and the tenant's event names it and the PC (R216). -/
def State.engFault (s : State) (e code : Nat) : State :=
  (s.modEng e fun x => { x with st := .fault, fcode := code, parked := satTo 7 x.set.lands.length }).postEvt (s.engTenant e)
    0x04 0 3 e code (s.eng e).pc.toNat

/-- FCODE values. -/
def fcIllegal : Nat := 1
def fcDecerr : Nat := 2
def fcSeq : Nat := 3
def fcPort : Nat := 4

/-- One memory access field (R199). -/
structure Field where
  store : Bool := false
  bus   : EBus := .x
  reg   : Nat := 0
  ag    : Nat := 0
  adv   : Bool := false
deriving DecidableEq, Repr

/-- A field decoded: none for no access; the error is ILLEGAL for bus 3 or a register above 19. -/
def fieldOfBits (w : BitVec 16) : Except Unit (Option Field) :=
  let n := w.toNat
  if !bit n 15 then .ok none
  else if fld n 13 12 == 3 || decide (19 < fld n 11 7) then .error ()
  else .ok (some { store := bit n 14, bus := if fld n 13 12 == 0 then .x else if fld n 13 12 == 1 then .y else .c,
                   reg := fld n 11 7, ag := fld n 6 4, adv := bit n 3 })

/-- What an instruction does to memory: each access with its effective word address. -/
def accessesOf (e : Eng) (fs : List Field) : List (Field × Nat) := fs.map fun f => (f, (e.set.gen f.ag).ea)

/-- The fault of a list of accesses made together, if any: a bad generator or two on one bus or in group memory is
ILLEGAL_SEQ, an unmapped address or a page of another owner DECERR (R192, R194, R196). -/
def State.accessFault (s : State) (e : Nat) (fs : List (Field × Nat)) : Option Nat :=
  let x := s.eng e
  let grp := fs.filter fun f => isGroupWord f.1.bus f.2
  let sameBus := match fs with
    | [a, b] => a.1.bus == b.1.bus
    | _ => false
  if fs.any fun f => !(x.set.gen f.1.ag).legal then some fcSeq
  else if sameBus || decide (1 < grp.length) then some fcSeq
  else if fs.any fun f =>
      if isGroupWord f.1.bus f.2 then s.pageOwner (e / 8) ((f.2 - 0x80000) * 4 / 65536) != some (s.engTenant e)
      else (busOff f.1.bus f.2).isNone then some fcDecerr
  else none

/-- A group-memory access starts and stalls the engine (R196). -/
def Eng.groupAccess (e : Eng) (a : GrpAcc) : Eng := ({ e with st := .stalled } : Eng).modSet fun r => { r with grp := some a }

/-- One access starts: a load lands after 3 cycles, a store writes after 2; a group access stalls the engine (R196, R200). -/
def Eng.access (e : Eng) (f : Field) (w : Nat) : Eng :=
  if isGroupWord f.bus w then
    let off := (w - 0x80000) * 4
    e.groupAccess (if f.store then { off := off, data := e.set.readReg f.reg } else { reg := some f.reg, off := off })
  else if f.store then match busOff f.bus w with
    | some off => e.fly 2 (.store off (container (e.set.readReg f.reg)))
    | none => e
  else e.fly 3 (.load f.reg f.bus w)

def Eng.advance (e : Eng) (f : Field) : Eng :=
  if f.adv then e.modSet fun r => r.setGen f.ag (r.gen f.ag).advance else e

/-- The PC after an instruction: the loop block, the delay slots of a branch, or the next word (R202, R203). -/
def Eng.nextPc (e : Eng) : Eng :=
  let r := e.set
  let next : BitVec 13 := e.pc + 1
  match r.branch with
  | some (t, 0) => ({ e with pc := BitVec.ofNat 13 t } : Eng).modSet fun r => { r with branch := none }
  | some (t, k + 1) =>
    if k == 0 then ({ e with pc := BitVec.ofNat 13 t } : Eng).modSet fun r => { r with branch := none }
    else ({ e with pc := next } : Eng).modSet fun r => { r with branch := some (t, k) }
  | none => match r.loopBlk with
    | none => { e with pc := next }
    | some l =>
      if e.pc.toNat + 1 < l.start + l.len then { e with pc := next }
      else if l.left == 0 then ({ e with pc := next } : Eng).modSet fun r => { r with loopBlk := none }
      else ({ e with pc := BitVec.ofNat 13 l.start, cache := some (l.start, l.len) } : Eng).modSet fun r =>
        { r with loopBlk := some { l with left := l.left - 1 }, lc0 := BitVec.ofNat 16 (l.left - 1) }

/-- Kinds of instruction that a delay slot or a loop block refuses (R202, R203). -/
inductive IssueKind where | plain | jump | wait | hold | micro
deriving DecidableEq, Repr

/-- Whether the sequence around the PC refuses an instruction: a jump (branch, LOOP, RTI, HLT, micro-routine) in a delay
slot or a loop block, WAITE or SHFX in a loop block. SHFX (`hold`) and a
micro-routine keep the PC until they end. -/
def seqFault (r : RegSet) (k : IssueKind) : Bool :=
  match k with
  | .plain => false
  | .jump | .micro => r.branch.isSome || r.loopBlk.isSome
  | .wait => r.loopBlk.isSome
  | .hold => r.loopBlk.isSome

/-- Whether an engine can issue: RUNNING, outside reset. -/
def State.canIssue (s : State) (e : Nat) : Bool :=
  (s.eng e).st == .running && !s.inReset (21 + e / 8) && ((s.eng e).inh || (s.eng e).micro.isNone)

/-- Issue an instruction on engine `e`: results due land; the fields are checked with the operation's own accesses `own`;
then `body`, the accesses, the advances and the next PC, `issue` cycles later. The body may fault with an FCODE, and then
nothing of the instruction happens. -/
def State.issue (s : State) (e : Nat) (k : IssueKind) (cycles : Nat) (o : EngOp) (own : List Field)
    (body : State → Except Nat State) : State :=
  if !s.canIssue e then s
  else
    let s := s.modEng e fun x => { (x.landTo x.set.cyc) with issued := x.issued || !x.inh }
    let x := s.eng e
    match fieldOfBits o.ma, fieldOfBits o.mb with
    | .ok fa, .ok fb =>
      if seqFault x.set k then s.engFault e fcSeq
      else
        let fields := fa.toList ++ fb.toList
        let fs := accessesOf x fields
        let os := accessesOf x own
        let grp := (fs ++ os).filter fun f => isGroupWord f.1.bus f.2
        match s.accessFault e fs, s.accessFault e os with
        | some c, _ => s.engFault e c
        | none, some c => s.engFault e c
        | none, none =>
          if 1 < grp.length then s.engFault e fcSeq
          else match body s with
            | .error c => s.engFault e c
            | .ok s =>
              s.modEng e fun y =>
                let y := fs.foldl (fun y f => y.access f.1 f.2) y
                let y := (fields ++ own).foldl Eng.advance y
                (if k == .hold || k == .micro then y else y.nextPc).modSet fun r => { r with cyc := r.cyc + cycles }
    | _, _ => s.engFault e fcIllegal

/-- A body that changes only the engine. -/
def State.engBody (e : Nat) (f : Eng → Eng) (s : State) : Except Nat State := .ok (s.modEng e f)

/-- Issue a plain instruction that changes only the engine. -/
def State.issueEng (s : State) (e cycles : Nat) (o : EngOp) (f : Eng → Eng) : State :=
  s.issue e .plain cycles o [] (State.engBody e f)

/-- An engine's bit-port binding, the engine that holds chain `c`. -/
def State.boundEng (s : State) (c : Nat) : Option Nat := (s.chain c).boundTo

/-- Registers, parked state, RPI, SHR, SHC and pending bits are cleared (R216, R219). -/
def Eng.cleared (e : Eng) : Eng :=
  { e with main := {}, shad := {}, inh := false, rpi := 0, shr := 0, shc := 0, pend := 0, micro := none, tmr := 0,
           imaskLo := 0, imaskHi := 0, spc := 0, pc := 0, parked := 0, issued := true, cache := none, abortHeld := false,
           abortReq := false }

end Sys2Proof.Machine
end

