-- ==== Sys2Proof/Machine/Dec.lean ====
section
/-! DEFINITION. The decoder fabric and the deadline scheduler: profiles, tasks, jobs, deadlines and their records
(Chapter 9). -/
namespace Sys2Proof.Machine

open Sys2Proof

/-! ### Profiles (R231) -/

abbrev ProfBytes := List Byte

def profW (p : ProfBytes) (i : Nat) : Nat := leAt p (4 * i) 4
def profFramed (p : ProfBytes) : Bool := !bit (profW p 0) 8
def profDemod (p : ProfBytes) : Bool := bit (profW p 0) 9
def profDecode (p : ProfBytes) : Bool := bit (profW p 0) 10
def profAssemble (p : ProfBytes) : Bool := bit (profW p 0) 11
def profCrc (p : ProfBytes) : Nat := fld (profW p 0) 13 12
def profCode (p : ProfBytes) : Nat := fld (profW p 0) 21 16
def profImage (p : ProfBytes) : Nat := fld (profW p 0) 31 24
def profPeriod (p : ProfBytes) : Nat := profW p 1
def profPhase (p : ProfBytes) : Nat := profW p 2
def profBudget (p : ProfBytes) : Nat := fld (profW p 3) 15 0
def profJobs (p : ProfBytes) : Nat := fld (profW p 3) 31 16
def profShipped (p : ProfBytes) : Bool := fld (profW p 6) 31 30 == 0
def profEngines (p : ProfBytes) : Nat := fld (profW p 6) 23 16

/-- The profile entry `n`, where loaded. -/
def State.profile (s : State) (n : Nat) : Option ProfBytes := getT none s.dec.profiles n
def State.code (s : State) (n : Nat) : Option CodeBytes := getT none s.dec.codes n

/-- The checks of Table 9.5. -/
def State.profileOk (s : State) (p : ProfBytes) : Bool :=
  decide (32 ≤ p.length) && fld (profW p 0) 7 0 == 1 && crc32 (p.take 28) == profW p 7
    && fld (profW p 0) 15 14 == 0 && fld (profW p 0) 23 22 == 0 && decide (profCrc p ≤ 2)
    && decide (1024 ≤ profPeriod p) && decide (profPhase p < profPeriod p) && within 1 (profBudget p) 65535 && decide (profJobs p ≤ 64)
    && decide (fld (profW p 6) 31 30 ≤ 1) && fld (profW p 6) 29 24 == 0 && fld (profW p 6) 15 0 == 0 && within 1 (profEngines p) 8
    && profDecode p == decide (1 ≤ profJobs p) && (profJobs p == 0 || (s.code (profCode p)).isSome)
    && (!profAssemble p || profDecode p) && ((!profDemod p && !profAssemble p) || profShipped p)

/-- The profile of a chain, where it has one. -/
def State.chainProfile (s : State) (c : Nat) : Option ProfBytes :=
  if (s.chain c).profile == 255 then none else s.profile (s.chain c).profile

/-- The running chains with a profile: the carrier plan (R225). -/
def State.carriers (s : State) : List (Nat × Chain) := s.chains.filter fun e => e.2.state != .free && e.2.profile != 255

/-- DEC_CODE_LOAD (0x38), (R227). -/
def State.decCodeLoad (s : State) (c : RingCmd) (r : CmdRef) : State :=
  let id := c.arg0.toNat
  if c.buf.length < 16 then s.refuse r stConflict 0x10 0
  else
    let code := c.buf.take (16 + codeTables c.buf)
    if 64 ≤ id || s.carriers.any fun e => (s.chainProfile e.1).any fun p => profCode p == id && decide (1 ≤ profJobs p) then
      s.refuse r stConflict (argOff 0) 0
    else if !codeOk code then s.refuse r stConflict (bufOff 0) 0
    else (s.modDec fun d => { d with codes := setT none d.codes id (some code) }).complete r stOK 0 0

def execDecCodeLoad (c : RingCmd) (s : State) : Host.Outcome State Fault Refusal :=
  .next (s.startCmd 0x38 true c fun r s => s.decCodeLoad c r)

/-- DEC_PROFILE_LOAD (0x39), (R231). -/
def State.decProfileLoad (s : State) (c : RingCmd) (r : CmdRef) : State :=
  let n := c.arg0.toNat
  if c.buf.length < 32 then s.refuse r stConflict 0x10 0
  else if 255 ≤ n || s.carriers.any fun e => e.2.profile == n then s.refuse r stConflict (argOff 0) 0
  else if !s.profileOk (c.buf.take 32) then s.refuse r stConflict (bufOff 0) 0
  else (s.modDec fun d => { d with profiles := setT none d.profiles n (some (c.buf.take 32)) }).complete r stOK 0 0

def execDecProfileLoad (c : RingCmd) (s : State) : Host.Outcome State Fault Refusal :=
  .next (s.startCmd 0x39 true c fun r s => s.decProfileLoad c r)

/-! ### The scheduler (R233 to R235) -/

def Stage.code (x : Stage) : Nat := match x with | .excision => 0 | .demod => 1 | .decode => 2 | .assemble => 3

/-- The order of queued tasks: deadline, service class, sequence number (R234). -/
def State.taskRank (s : State) (t : Task) : Nat := (t.deadline * 4 + s.tenClass t.tenant) * 2 ^ 64 + t.seq

def State.queued (s : State) (p : Task → Bool) : List Task :=
  sortBy s.taskRank (s.dec.tasks.filter fun t => t.started.isNone && p t)

def State.modTask (s : State) (seq : Nat) (f : Task → Task) : State :=
  s.modDec fun d => { d with tasks := mapIf (fun t => t.seq == seq) f d.tasks }

def State.dropTask (s : State) (seq : Nat) : State := s.modDec fun d => { d with tasks := d.tasks.filter fun t => t.seq != seq }

/-- Decoder units of the mode in force. -/
def State.decUnits (s : State) : Nat := if s.dec.trellis then 128 else 16

def State.freeUnit (s : State) : Option Nat :=
  (List.range s.decUnits).find? fun u => !s.dec.tasks.any fun t => t.stage == .decode && t.unit == some u

/-- DECODER_JOB_START: the first queued job starts on a free unit, unless a mode switch is in progress (R226, R234). -/
def State.startJob (s : State) : State :=
  if s.dec.switching.isSome || s.resetting 33 then s
  else match s.freeUnit, s.queued (fun t => t.stage == .decode) with
    | some u, t :: _ =>
      s.modTask t.seq fun t => { t with started := some s.now, unit := some u, input := (s.egroup (t.engine / 8)).bytesAt t.inAddr t.inLen }
    | _, _ => s

def State.startJobs (s : State) : State := s.forEach s.dec.tasks fun s _ => s.startJob

/-- The engines of a tenant's pool for an image: the shipped image they hold. -/
def State.poolFree (s : State) (t image : Nat) : Option Nat :=
  (List.range 96).find? fun e => s.engOwner e == some t && (s.eng e).pool == some image && (s.eng e).task.isNone
    && (s.eng e).st != .reset && (s.eng e).st != .fault

def State.taskImage (s : State) (t : Task) : Nat := ((s.profile t.profile).map profImage).getD 256

/-- TASK_DISPATCH: the mailbox of Table 9.7, and the DISPATCH pulse. -/
def State.dispatch (s : State) (e : Nat) (t : Task) : State :=
  let left := satTo 0xFFFFFF ((t.deadline - s.now) * 4 / 5 / 16)
  let words := [t.seq, t.stage.code * 2 ^ 20 + t.chain, t.slot, left]
  let s := s.modEng e fun x =>
    { (x.putBytes (0x10000 + 4 * 0x5FFC) (words.flatMap fun w => container (BitVec.ofNat 24 w))) with task := some t.seq }
  (s.modTask t.seq fun t => { t with started := some s.now, unit := some e }).pulseInput e 50

/-- Every queued DEMOD or ASSEMBLE task that finds a free engine of its pool is dispatched, in order. -/
def State.dispatchAll (s : State) : State :=
  s.forEach (s.queued fun t => t.stage != .decode && t.stage != .excision) fun s t => match s.poolFree t.tenant (s.taskImage t) with
    | some e => s.dispatch e t
    | none => s

/-- A task is released: it takes the next sequence number. -/
def State.release (s : State) (t : Task) : State :=
  s.modDec fun d => { d with tasks := d.tasks ++ [{ t with seq := d.seq, released := s.now }], seq := d.seq + 1 }

/-! ### Carrier slots (R232, R233) -/

def CSlot.isOf (x : CSlot) (c : Nat) (g : Byte) (n : Nat) : Bool := x.chain == c && x.gen == g && x.slot == n

def State.slotOf (s : State) (c : Nat) (g : Byte) (n : Nat) : Option CSlot := s.dec.slots.find? fun x => x.isOf c g n

/-- Change a slot's entry, made where it is not there. -/
def State.modSlot (s : State) (c : Nat) (g : Byte) (n : Nat) (f : CSlot → CSlot) : State :=
  s.modDec fun d =>
    let l := if d.slots.any fun x => x.isOf c g n then d.slots else d.slots ++ [{ chain := c, gen := g, slot := n }]
    { d with slots := mapIf (fun x => x.isOf c g n) f l }

/-- The slot's ASSEMBLE task is released once its DEMOD task has ended and every job of the closed set has ended (R233). -/
def State.releaseAssemble (s : State) (c : Nat) (g : Byte) (n : Nat) : State :=
  match s.slotOf c g n, s.chainProfile c with
  | some x, some p =>
    if profAssemble p && x.demodEnded && !x.aborted && x.accepted == x.ended then
      let s := s.modSlot c g n fun x => { x with aborted := true }
      let y := s.chain c
      let t : Task := { stage := .assemble, tenant := y.tenant, chain := c, gen := g, slot := n, deadline := x.deadline, dest := y.dest }
      (s.release { t with profile := y.profile, slotCtr := x.startCtr }).dispatchAll
    else s
  | _, _ => s

/-- CARRIER_SLOT_END: the slot's deadline is fixed, for jobs that wait for it too, and its DEMOD task released (R232, R233). EVM and
LQ are those of a burst's record. -/
def State.slotEnd (s : State) (c slot startCtr evm lq : Nat) : State :=
  match s.chainProfile c with
  | none => s
  | some p =>
    let x := s.chain c
    let dl := s.now + profBudget p * 1250
    let s := s.modSlot c x.gen slot fun y => { y with deadline := dl, startCtr := startCtr, evm := evm, lq := lq }
    let mine (t : Task) : Bool := t.stage == .decode && t.chain == c && t.gen == x.gen && t.slot == slot
    let s := s.modDec fun d => { d with tasks := mapIf mine (fun t => { t with deadline := dl }) d.tasks }
    if profDemod p then
      let t : Task := { stage := .demod, tenant := x.tenant, chain := c, gen := x.gen, slot := slot, deadline := dl, dest := x.dest }
      (s.release { t with profile := x.profile, slotCtr := startCtr }).dispatchAll
    else s

/-! ### Records (R240, R241) -/

/-- The DEADLINE record and its event; `cause` 0 RUNNING, 1 QUEUED, 2 MODE_SWITCH. -/
def State.deadlineRec (s : State) (t : Task) (cause cancelled : Nat) : State :=
  let exc := t.stage == .excision
  let waited := ((t.started.getD s.now) - t.released) / 2
  let ran := match t.started with | some c => (s.now - c) / 2 | none => 0
  let body := rows
    [ t.stage.code * 2 ^ 28 + cause * 2 ^ 24 + cancelled * 2 ^ 20 + bnat exc * 2 ^ 15 + t.chain, t.slot, waited, ran
    , t.profile * 2 ^ 24 + t.unit.getD 0xFFFF, t.deadline % 2 ^ 32, t.deadline / 2 ^ 32, t.jobTag.toNat ]
  let dest := if exc then (s.fn t.tenant).policy.dest else t.dest
  let s := s.emitHub dest (s.mkRec 0x0C t.tenant t.chain (t.slotCtr / 2 ^ 20) t.slotCtr body)
  let s := s.postStatus t.tenant stDeadlineMiss (if exc then 15 else 2) (if exc then 0 else t.chain) t.slot 0
  s.modFn t.tenant fun f => { f with miss := satTo 0xFFFF (f.miss + 1) }

def crc16Bit (c : Nat) (b : Bool) : Nat := let x := bit c 15 != b; let c := c * 2 % 65536; if x then c ^^^ 0x1021 else c

/-- The appended CRC holds over a payload of `n` bits (R241): CRC-16 of polynomial 0x1021 over the bits before the last 16,
or CRC-32 of R59 over the bytes before the last 32 bits. -/
def payloadCrcOk (kind n : Nat) (bs : List Byte) : Bool :=
  let bitAt (i : Nat) : Bool := bit (bs.getD (i / 8) 0).toNat (i % 8)
  if kind == 1 then
    decide (16 ≤ n) && ((List.range (n - 16)).map bitAt).foldl crc16Bit 0xFFFF
      == (List.range 16).foldl (fun a i => a * 2 + bnat (bitAt (n - 16 + i))) 0
  else if kind == 2 then
    decide (32 ≤ n) && n % 8 == 0 && crc32 (bs.take (n / 8 - 4)) == leAt bs (n / 8 - 4) 4
  else false

/-- The DECODED record for results of the carrier slot of a task. -/
def State.decodedRec (s : State) (t : Task) (outcome code : Nat) (js : List JobDone) : State :=
  let x := (s.slotOf t.chain t.gen t.slot).getD {}
  let p := (s.profile t.profile).getD []
  let ok := outcome == 0
  let status := if !ok then stDataLost else ((js.find? fun j => j.status != 0).map (·.status.toNat)).getD stOK
  let data := if ok then js.flatMap (·.data) else []
  let bits := if ok then sumN (js.map (·.bits)) else 0
  let body := rows
    [ status * 2 ^ 24 + outcome * 2 ^ 22 + code * 2 ^ 16 + t.chain, t.slot
    , (js.foldl (fun m j => max m j.iters) 0) * 2 ^ 24 + profCrc p * 2 ^ 22 + bnat (payloadCrcOk (profCrc p) bits data) * 2 ^ 21
        + bnat (js.all (·.conv)) * 2 ^ 20 + js.length * 256 + t.profile
    , bits, x.evm * 2 ^ 16 + x.lq, ((js.head?.map (·.tag.toNat)).getD 0), 0, 0 ] ++ data
  s.emitHub t.dest (s.mkRec 0x09 t.tenant t.chain (t.slotCtr / 2 ^ 20) t.slotCtr body)

/-! ### Jobs (R236, R237, R239) -/

/-- A result header, with the bits of a job that ended OK, at OUT_ADDR, and the pulse of EVT_LINE. -/
def State.writeResult (s : State) (g outAddr line status iters bits metric tag tenant : Nat) (conv : Bool) (data : List Byte) : State :=
  let bs := rows [bnat conv * 2 ^ 16 + iters * 256 + status, bits, metric, tag] ++ data
  (s.modEGroup g fun x => x.putBytes outAddr bs).pulseLine g line tenant

/-- The end of a job with its slot's bookkeeping; its result is kept where an ASSEMBLE task is to come. -/
def State.jobEnded (s : State) (t : Task) (r : JobDone) : State :=
  let s := (s.dropTask t.seq).modDec fun d =>
    { d with done := if (s.profile t.profile).any profAssemble then d.done ++ [{ r with seq := t.seq }] else d.done, jobsEnded := match t.unit with
      | some u => modT 0 d.jobsEnded (if d.trellis then u / 8 else u) fun n => satTo 0xFFFF (n + 1)
      | none => d.jobsEnded }
  (s.modSlot t.chain t.gen t.slot fun x => { x with ended := x.ended + 1 }).releaseAssemble t.chain t.gen t.slot

def fitBytes (n : Nat) (bs : List Byte) : List Byte := (bs ++ zeros n).take n

/-- DECODER_JOB_END of a running job. -/
def State.decoderJobEnd (s : State) (seq : Nat) : State :=
  match s.dec.tasks.find? (fun t => t.seq == seq && t.stage == .decode && t.started.isSome) with
  | none => s
  | some t =>
    let code := (s.code t.codeId).getD []
    let k := codeBits code
    let (conv, iters, metric, bits) := decodeJob code t.input (if t.imax == 0 then codeImax code else t.imax)
    let data := fitBytes ((k + 7) / 8) bits
    let s := s.writeResult (t.engine / 8) t.outAddr t.line stOK (satTo 255 iters) k metric t.jobTag.toNat t.tenant conv data
    let s := s.modFn t.tenant fun f => { f with decoded := satTo 0xFFFFFFFF (f.decoded + 1) }
    let r : JobDone := { chain := t.chain, gen := t.gen, slot := t.slot, iters := satTo 255 iters, conv := conv, bits := k, data := data, tag := t.jobTag }
    let s := s.jobEnded t r
    let s := match s.profile t.profile with
      | some p => if profAssemble p then s else s.decodedRec t 0 t.codeId [r]
      | none => s
    s.startJobs

def execDecoderJobEnd (jobSeq : Nat) (s : State) : Host.Outcome State Fault Refusal :=
  .next (if s.inReset 33 then s else s.decoderJobEnd jobSeq)

/-- Later stages of a task's slot that its profile has. -/
def State.laterStages (s : State) (t : Task) : Nat :=
  match s.profile t.profile with
  | none => 0
  | some p => (if t.stage == .demod && profDecode p then 1 else 0) + (if t.stage != .assemble && t.stage != .excision && profAssemble p then 1 else 0)

/-- DEADLINE_EXPIRY of a task that has not ended (R239). -/
def State.deadlineExpiry (s : State) (seq : Nat) : State :=
  match s.dec.tasks.find? (fun t => t.seq == seq) with
  | none => s
  | some t =>
    let cancelled := s.laterStages t
    let s := if t.stage == .excision then s else s.modSlot t.chain t.gen t.slot fun x => { x with aborted := true }
    match t.started with
    | none =>
      let cause := if t.stage == .decode && s.dec.switching.isSome then 2 else 1
      (s.dropTask seq).deadlineRec t cause cancelled
    | some _ =>
      if t.stage == .decode then
        let s := s.writeResult (t.engine / 8) t.outAddr t.line stDeadlineMiss 0 0 0 t.jobTag.toNat t.tenant false []
        let r : JobDone := { chain := t.chain, gen := t.gen, slot := t.slot, status := BitVec.ofNat 8 stDeadlineMiss, tag := t.jobTag }
        ((s.jobEnded t r).deadlineRec t 0 cancelled).startJobs
      else
        let s := match t.unit with
          | some e => s.modEng e fun x => { x with abortReq := true }
          | none => s
        (s.dropTask seq).deadlineRec t 0 cancelled

def execDeadlineExpiry (taskSeq : Nat) (s : State) : Host.Outcome State Fault Refusal := .next (s.deadlineExpiry taskSeq)

/-- Shipped engines of a tenant's image that no chain uses return to the tenant, HALTED, once they hold no task (R221, R242). -/
def State.returnEngines (s : State) (t image : Nat) : State :=
  if s.carriers.any fun e => e.2.tenant == t && (s.chainProfile e.1).any fun p => profShipped p && profImage p == image then s
  else s.forEach (List.range 96) fun s e =>
    if (s.eng e).pool == some image && s.engOwner e == some t && (s.eng e).task.isNone then
      s.modEng e fun x => { x with st := .halted, shipped := none, pool := none }
    else s

/-- The engines of an engine's pool that a task kept and that are no longer used return. -/
def State.returnIdle (s : State) (e : Nat) : State :=
  match (s.eng e).pool with
  | some i => if i < 256 then s.returnEngines (s.engTenant e) i else s
  | none => s

/-- TSK: the task of an engine ends with an outcome (R233, R235, R241). -/
def State.endTask (s : State) (e outcome : Nat) : State :=
  match (s.eng e).task.bind fun n => s.dec.tasks.find? fun t => t.seq == n with
  | none => (s.modEng e fun x => { x with task := none }).modDec fun d => { d with strayTsk := satTo 31 (d.strayTsk + 1) }
  | some t =>
    let s := (s.modEng e fun x => { x with task := none }).dropTask t.seq
    let s := match t.stage with
      | .demod => (s.modSlot t.chain t.gen t.slot fun x => { x with demodEnded := true }).releaseAssemble t.chain t.gen t.slot
      | .assemble =>
        let mine (j : JobDone) : Bool := j.chain == t.chain && j.gen == t.gen && j.slot == t.slot
        let js := sortBy (fun (j : JobDone) => j.seq) (s.dec.done.filter mine)
        (s.decodedRec t outcome (((s.profile t.profile).map profCode).getD 0) js).modDec fun d =>
          { d with done := d.done.filter fun j => !mine j }
      | _ => s
    s.dispatchAll.returnIdle e

/-! ### DSUB (R236) -/

/-- The descriptor of Table 9.8 and where it came from. -/
def taskOfDesc (e tenant : Nat) (w : Nat → Nat) : Task :=
  { stage := .decode, tenant := tenant, engine := e, line := fld (w 0) 25 20, imax := fld (w 0) 13 8, codeId := fld (w 0) 5 0,
    gen := BitVec.ofNat 8 (fld (w 1) 31 24), chain := fld (w 1) 8 0, slot := w 2, inAddr := w 3, inLen := w 4, outAddr := w 5,
    outCap := w 6, jobTag := BitVec.ofNat 32 (w 7) }

/-- The counter at which a carrier slot starts: its record's, for a FRAMED slot by its number, for a burst that is open the chain's. -/
def State.slotStart (s : State) (t : Task) : Nat :=
  let x := s.chain t.chain
  match s.slotOf t.chain t.gen t.slot, s.chainProfile t.chain with
  | some y, some p =>
    if y.deadline != 0 then y.startCtr
    else if profFramed p then (profPhase p + t.slot * profPeriod p) / 16 else if x.burstId == t.slot then x.startCtr else 0
  | none, some p => if profFramed p then (profPhase p + t.slot * profPeriod p) / 16 else if x.burstId == t.slot then x.startCtr else 0
  | _, none => 0

/-- A chain's new generation: what stands of the one 256 before it is dropped. -/
def State.freshGen (s : State) (c : Nat) (g : Byte) : State :=
  s.modDec fun d => { d with slots := d.slots.filter (fun x => !(x.chain == c && x.gen == g)), done := d.done.filter fun j => !(j.chain == c && j.gen == g) }

/-- The slot deadline that an EXPERT profile's job takes: the slot's, or for a slot not yet ended the BUDGET from now. -/
def State.jobDeadline (s : State) (t : Task) : Nat :=
  match s.slotOf t.chain t.gen t.slot with
  | some x => if x.deadline != 0 then x.deadline else s.now + ((s.chainProfile t.chain).map profBudget).getD 0 * 1250
  | none => s.now + ((s.chainProfile t.chain).map profBudget).getD 0 * 1250

/-- Table 9.9: the number of the first check that fails and its status. -/
def State.dsubCheck (s : State) (t : Task) : Option (Nat × Nat) :=
  let x := s.chain t.chain
  let g := t.engine / 8
  let slot := s.slotOf t.chain t.gen t.slot
  match s.chainProfile t.chain with
  | none => some (1, stConflict)
  | some p =>
    if x.state == .free || x.tenant != t.tenant || x.gen != t.gen || slot.any (fun y => y.deadline != 0 && decide (y.deadline ≤ s.now))
        || !s.lineOk g t.line t.tenant then some (1, stConflict)
    else match s.code t.codeId with
      | none => some (2, stConflict)
      | some code =>
        let range := if codeKind code == 0 then 32 else if codeKind code == 1 then 16 else 63
        if t.codeId != profCode p || decide (range < t.imax) then some (2, stConflict)
        else if codeKind code != 2 && s.dec.trellis then some (3, stFecMode)
        else if t.inLen != codeInLen code || decide (t.outCap < 16 + (codeBits code + 7) / 8) then some (4, stConflict)
        else if !s.rangeOk g t.tenant t.inAddr t.inLen || !s.rangeOk g t.tenant t.outAddr t.outCap || t.outAddr % 4 != 0 then some (5, stDecerr)
        else if 1024 ≤ (s.dec.tasks.filter fun y => y.stage == .decode && y.started.isNone).length then some (6, stCapacity)
        else if slot.any (fun y => decide (profJobs p ≤ y.accepted) || (profShipped p && y.demodEnded)) || profJobs p == 0 then some (7, stQuota)
        else none

/-- DSUB of a descriptor: whether the job was queued, and what a refusal writes (R236). -/
def State.dsub (s : State) (t : Task) : State × Bool :=
  match s.dsubCheck t with
  | some (n, st) =>
    let s := s.modFn t.tenant fun f => { f with refused := satTo 0xFFFF (f.refused + 1) }
    if n == 5 || !s.rangeOk (t.engine / 8) t.tenant t.outAddr 16 then (s, false)
    else (s.writeResult (t.engine / 8) t.outAddr t.line st 0 0 0 t.jobTag.toNat t.tenant false [], false)
  | none =>
    let x := s.chain t.chain
    let dl := s.jobDeadline t
    let start := s.slotStart t
    let s := s.modSlot t.chain t.gen t.slot fun y => { y with accepted := y.accepted + 1 }
    ((s.release { t with deadline := dl, profile := x.profile, slotCtr := start, dest := x.dest }).startJobs, true)

end Sys2Proof.Machine
end

