-- ==== Sys2Proof/Machine/Cch.lean ====
section
/-! DEFINITION. The carrier chains: stages, tags, AGC, thresholds, searches, bursts and their records (R167 to R188). -/
namespace Sys2Proof.Machine

open Sys2Proof

/-! ### Rates and tags (R168, R170, R175) -/

/-- log2 K: K is the smallest power of two ≥ M. -/
def Chain.logK (x : Chain) : Nat := if x.m ≤ 1 then 0 else if x.m ≤ 2 then 1 else if x.m ≤ 4 then 2 else if x.m ≤ 8 then 3 else 4
def Chain.k (x : Chain) : Nat := 2 ^ x.logK
/-- f_s in Hz. -/
def Chain.fs (x : Chain) : Nat := x.k * 1953125
/-- Advance of the input position per output sample, in 2^-32 input samples (R175). -/
def Chain.adv (x : Chain) : Nat := (rneDiv (2 ^ 64) (max 1 x.rs)).toNat

/-- Settling count and group delay of a preset in output samples (Table 7.2). -/
def settleOf (p : Nat) : Nat := 24 * 2 ^ p
def delayOf (p : Nat) : Nat := 12 * 2 ^ p

/-- A position in 2^-32 decimated samples as 2^-16 coarse counts. -/
def Chain.toCounts (x : Chain) (p : Int) : Int := rneDiv (p * 2 ^ x.d * 65536) (x.k * 2 ^ 32)

/-- The tag of the output sample at the chain's position, in 2^-16 counts: every group delay removed. -/
def Chain.tag (x : Chain) : Nat :=
  let p : Int := (x.pos : Int) - (delayOf x.preset * x.adv : Nat) - 2 * 2 ^ 32
  let t : Int := (x.tagCtr * 65536 : Nat) + x.toCounts p - (if 2 ≤ x.m then 4 * 65536 else 0)
  t.toNat

def Chain.tagSlot (x : Chain) : Nat := x.tag / 65536 / 1024

def satCx (lim : Int) (v : Cx) : Cx × Nat :=
  ({ re := clampI (-lim) lim v.re, im := clampI (-lim) lim v.im },
    bnat (decide (v.re < -lim) || decide (lim < v.re)) + bnat (decide (v.im < -lim) || decide (lim < v.im)))

/-! ### Stitch and mix (R170 to R172) -/

/-- Stitch coefficient g_K[j]. -/
def State.stitchG (s : State) (logK j : Nat) : Int :=
  let base := match logK with | 1 => 0 | 2 => 16 | 3 => 48 | _ => 112
  if bit (s.reg 0x800000) 8 then toSigned 18 (s.reg (0x801000 + 4 * (base + j))) else (Config.stitchCoef logK j).toInt

/-- Whether sky frequency falls with channel index (BEAM_FREQ_HI.DIR). -/
def State.skyFalls (s : State) : Bool := bit (s.reg 0x600008) 31

/-- The branch that channel FIRST_CH + j feeds. -/
def State.branchOf (s : State) (x : Chain) (j : Nat) : Nat :=
  let c := (x.k - x.m + 1) / 2
  if s.skyFalls then x.k - 1 - j - c else j + c

/-- One coarse time through the stitch: K samples, the new memory and the saturations. -/
def State.stitch (s : State) (x : Chain) (heads : List Cx) : List Cx × List (List Cx) × Nat :=
  if x.m ≤ 1 then (heads.take 1, [], 0)
  else
    let c := (List.range x.k).map fun i => match (List.range x.m).find? (fun j => s.branchOf x j == i) with
      | some j => heads.getD j {}
      | none => {}
    let mem := (Config.stitchIfft x.logK c :: x.stitchMem).take 8
    let ys := (List.range x.k).map fun p =>
      let v := (List.range 8).foldl (fun (a : Cx) t =>
        let g := s.stitchG x.logK (t * x.k + p)
        let u := (mem.getD t []).getD p {}
        { re := a.re + g * u.re, im := a.im + g * u.im }) {}
      let sh := s.fieldOf 0x800000 4 0
      satCx 8388607 { re := rneShift v.re sh, im := rneShift v.im sh }
    (ys.map (·.1), mem, sumN (ys.map (·.2)))

/-- NCO mix of one sample at the phase after adding FREQ, and its saturations. -/
def mixOne (ph : BitVec 48) (y : Cx) : Cx × Nat :=
  let w := Config.ncoSinCos (ph.toNat / 2 ^ 28)
  satCx 8388607 { re := rneShift (y.re * w.re - y.im * w.im) 17, im := rneShift (y.re * w.im + y.im * w.re) 17 }

def mixAll (freq ph : BitVec 48) : List Cx → List (Cx × Nat) × BitVec 48
  | [] => ([], ph)
  | y :: r =>
    let (ys, e) := mixAll freq (ph + freq) r
    (mixOne (ph + freq) y :: ys, e)

/-- Every channel has a coarse sample waiting. -/
def Chain.inputReady (x : Chain) : Bool := (List.range x.m).all fun j => !(x.input.getD j []).isEmpty

/-- Take coarse times until `n` mixed samples wait; none where the input does not suffice. -/
def State.fillMixed (s : State) (n : Nat) : Nat → Chain → Option Chain
  | 0, x => if n ≤ x.mixed.length then some x else none
  | fuel + 1, x =>
    if n ≤ x.mixed.length then some x
    else if !x.inputReady then none
    else
      let (ys, mem, sats) := s.stitch x ((List.range x.m).map fun j => (x.input.getD j []).headD {})
      let (ms, ph) := mixAll x.freq x.phase ys
      s.fillMixed n fuel { x with input := x.input.map (·.drop 1), stitchMem := mem, mixed := x.mixed ++ ms.map (·.1), phase := ph,
                                  sat := satTo 0xFFF (x.sat + sats + sumN (ms.map (·.2))) }

/-! ### Sky frequencies (R133, R170), in units of 2^-16 Hz -/

/-- Width of a coarse channel. -/
def coarseWidth : Int := 1953125 * 65536

/-- BEAM_FREQ.F0. -/
def State.f0 (s : State) : Nat := s.reg 0x600004 + s.fieldOf 0x600008 3 0 * 2 ^ 32

def State.skySign (s : State) : Int := if s.skyFalls then -1 else 1

/-- f_coarse of a chain-global channel (R133). -/
def State.coarseFreq (s : State) (n : Nat) : Int := (s.f0 : Int) * 65536 + s.skySign * n * coarseWidth

/-- The sky frequency at the centre of a chain's stitched band: branch K / 2 (R170). -/
def State.stitchCentre (s : State) (x : Chain) : Int :=
  if x.m ≤ 1 then s.coarseFreq (s.chBase + x.firstCh)
  else
    let c := (x.k - x.m + 1) / 2
    let n : Int := (s.chBase + x.firstCh : Nat) + ((x.k / 2 : Nat) : Int) - c - (if s.skyFalls then 1 else 0)
    (s.f0 : Int) * 65536 + s.skySign * n * coarseWidth

/-! ### CARRIER records (R187) -/

/-- FREQ_OFS in 0.01 Hz: the tuned frequency, which FREQ shifts to 0 Hz, minus CENTER, or under expert tuning minus where it began. -/
def State.freqOfs (s : State) (x : Chain) : Int :=
  let moved (f : BitVec 48) : Int := f.toInt * (100 * x.fs : Nat)
  match x.center with
  | some c => rneDiv (s.stitchCentre x * 100 * 2 ^ 32 - moved x.freq - (c * 2 ^ 48 : Nat)) (2 ^ 48)
  | none => rneDiv (moved x.freq0 - moved x.freq) (2 ^ 48)

/-- LQ and EVM of a burst. -/
def Chain.lq (x : Chain) : Nat :=
  if x.burstN == 0 then 0 else ofSigned 16 (clampI (-32768) 32767 (Config.centiBel (x.burstPow * 65536) (x.burstN * max 1 x.floorDet)))
def Chain.evmWord (x : Chain) : Nat := match x.evm with | some e => ofSigned 16 e | none => 0x8000

/-- TIME_OFS in ps: a count is 512,000 ps. -/
def Chain.timeOfs (x : Chain) : Int := rneDiv (x.timeSum * (x.adv * 2 ^ x.d * 512000 : Nat)) (x.k * 2 ^ 32 * 65536)

def searchCode (q : Search) : Nat := match q with | .none => 0 | .cont _ => 1 | .sync .. => 2

/-- A CARRIER record of the chain. KIND 0 STATE, 1 DETECT, 2 BURST, 3 THRESH. -/
def State.carrierRec (s : State) (c kind cause : Nat) : State :=
  let x := s.chain c
  let burst := kind == 2
  let t := if kind == 1 || kind == 2 then x.startCtr * 65536 + x.startFrac.toNat else x.tag
  let endT := if burst then x.tag else 0
  let lq := if burst then x.lq else 0
  let evm := if burst then x.evmWord else if kind == 1 then 0 else 0x8000
  let metric := if kind == 3 then x.thrRatio else x.metric
  let body := rows
    [ kind * 2 ^ 28 + cause * 2 ^ 24 + x.hyp * 2 ^ 21 + bnat x.inv * 2 ^ 20 + bnat x.ovr * 2 ^ 19 + searchCode x.search * 2 ^ 17
        + x.gen.toNat % 128 * 2 ^ 9 + c
    , x.burstId % 2 ^ 32, endT / 65536 % 2 ^ 32, t % 65536 * 2 ^ 16 + endT / 65536 / 2 ^ 32 % 2 ^ 16
    , ofSigned 32 (s.freqOfs x), if kind == 1 then 0 else ofSigned 32 x.timeOfs, lq * 2 ^ 16 + evm
    , ofSigned 16 x.gain * 2 ^ 16 + satTo 0xFFFF metric
    , (if kind == 1 then 0 else satTo 0xFFFF x.abandoned) * 2 ^ 16 + satTo 0xFFFF x.zeroed
    , x.freq.toNat % 2 ^ 32, x.freq.toNat / 2 ^ 32, 0 ]
  let s := s.emitHub x.dest (s.mkRec 0x08 x.tenant c (t / 65536 / 2 ^ 20) (t / 65536) body)
  s.modChain c fun x => if kind == 3 then { x with sat := 0 } else { x with sat := 0, zeroed := 0, abandoned := 0 }

/-- A burst post to the detection input: 4 OPEN, 5 EXTEND, 6 CLOSE, chain, slot (R186). -/
def State.postBurst (s : State) (c kind slot : Nat) : State :=
  s.emit (.detection (rows [kind * 2 ^ 24 + c, slot % 2 ^ 32, slot / 2 ^ 32]))

/-! ### Outputs (R184) -/

/-- One sample to the chain's ring; one that finds the ring full, or its engine group in reset, is dropped (R184, R188). The
ring is full while the bytes written and not yet freed by a DMA pulse (R272) fill it. -/
def State.writeRing (s : State) (c : Nat) (v : Cx) : State :=
  let x := s.chain c
  if s.resetting (21 + x.group) || decide (x.ringSize < x.filled + 4) then
    s.modChain c fun x => { x with overrun := satTo 0xFFFF (x.overrun + 1), ovr := true }
  else
    let bs := le 2 (ofSigned 16 v.re) ++ le 2 (ofSigned 16 v.im)
    (s.modEGroup x.group fun g => g.putBytes (x.ringOff + 4 * x.wrIdx) bs).modChain c fun x =>
      { x with wrIdx := (x.wrIdx + 1) % (max 1 (x.ringSize / 4)), filled := x.filled + 4 }

/-! ### Bursts (R185, Table 7.4) -/

/-- BURST_DETECT at the last sample delivered: the history holds it and up to 1,024 before it. -/
def State.openBurst (s : State) (c hyp metric : Nat) (inv : Bool) : State :=
  let x := s.chain c
  let back := if x.always then 0 else min x.pre (x.hist.length - 1)
  let t := x.tag - (x.toCounts (back * x.adv : Nat)).toNat
  let bmax := match x.search with | .sync _ _ _ _ _ _ b => b | _ => 0
  let x' : Chain := { x with state := .burst, frozen := true, hyp := hyp, inv := inv, ovr := false, metric := metric }
  let x' : Chain := { x' with sinceDet := 0, lastSlot := x.tagSlot, startCtr := t / 65536, startFrac := BitVec.ofNat 16 t }
  let x' : Chain := { x' with timeSum := 0, burstPow := 0, burstN := 0, floorDet := x.floorN.getD 0, evm := none, bitsLeft := bmax }
  let s := (s.modChain c fun _ => x').carrierRec c 1 0
  let s := s.postBurst c 4 x.tagSlot
  let s := s.forEach ((x.hist.drop (x.hist.length - (back + 1)))) fun s v => if x.always then s else s.writeRing c v
  s.pulseLine x.group x.line x.tenant

/-- BURST_CLOSE with its cause; bits left in the port's FIFO are the engine's. -/
def State.closeBurst (s : State) (c cause : Nat) : State :=
  let x := s.chain c
  if x.state != .burst then s
  else
    let s := (s.carrierRec c 2 cause).postBurst c 6 x.tagSlot
    let s := s.modChain c fun x => { x with state := .run, frozen := false, agcAcc := 0, agcN := 0, bitsLeft := 0, burstId := x.burstId + 1 }
    let s := s.pulseLine x.group x.line x.tenant
    match s.chainProfile c with
    | some p => if profFramed p then s else s.slotEnd c x.burstId x.startCtr x.evmWord x.lq
    | none => s

/-- The carrier plan's required mode (R225). -/
def State.wantTrellis (s : State) (size : Nat) : Bool := bit (s.reg 0xA00000) 31 || decide (129 ≤ size)

/-- MODE_SWITCH_BEGIN where the required mode is not the one in force; the completion waits for its end (R226). -/
def State.modeFollow (s : State) (cpl : Option Cpl) : State :=
  let want := s.wantTrellis s.carriers.length
  let finish (s : State) : State := match cpl with
    | some c => s.complete c.cmd c.status.toNat c.res0.toNat c.res1.toNat
    | none => s
  match s.dec.switching with
  | some _ => finish s
  | none =>
    if want == s.dec.trellis then finish s
    else s.modDec fun d => { d with switching := some cpl.toList, target := want }

/-- A chain's queued tasks are removed without records (R242). -/
def State.dropQueued (s : State) (c : Nat) : State :=
  s.modDec fun d => { d with tasks := d.tasks.filter fun t => !(t.chain == c && t.stage != .excision && t.started.isNone) }

/-- A chain is freed: an open burst closes, the STATE record, its tasks, its engines (Table 7.4). `cause` 1 STOP,
2 SOURCE_STOP; a burst's cause is 4 more. -/
def State.freeChain (s : State) (c cause : Nat) : State :=
  let x := s.chain c
  if x.state == .free then s
  else
    let image := (s.chainProfile c).map profImage
    let s := ((s.closeBurst c (cause + 4)).carrierRec c 0 cause).dropQueued c
    let s := s.modChain c fun x => { gen := x.gen, boundTo := x.boundTo, bitFifo := x.bitFifo }
    match image with
    | some i => s.returnEngines x.tenant i
    | none => s

/-- Every chain whose source plan ends stops with SOURCE_STOP. -/
def State.sourceStop (s : State) (plan : Nat) : State :=
  let cs := (s.chains.filter fun e => e.2.state != .free && e.2.plan == plan).map (·.1)
  if cs.isEmpty then s else (s.forEach cs fun s c => s.freeChain c 2).modeFollow none

/-! ### Searches (R181, R182) -/

def norm2 (v : Cx) : Nat := v.re.natAbs ^ 2 + v.im.natAbs ^ 2

/-- The metric of a hypothesis over the last LEN samples, in 2^-16; none before there are LEN samples or a floor. -/
def hypMetric (h : Hyp) (past : List Cx) (floor : Option Nat) : Option Nat :=
  if past.length < h.len then none
  else
    let ys := past.drop (past.length - h.len)
    let e := sumN (ys.map norm2)
    match h.code with
    | some code =>
      let v := (ys.zip code).foldl (fun (a : Cx) y =>
        if y.2 then { re := a.re + y.1.re, im := a.im + y.1.im } else { re := a.re - y.1.re, im := a.im - y.1.im }) {}
      if e == 0 then some 0 else some (satTo 65535 (rneDiv (norm2 v * 65536 : Nat) (h.len * e)).toNat)
    | none => match floor with
      | none => none
      | some n => if n == 0 then none else some (satTo 65535 (rneDiv (e * 65536 * 65536 : Nat) (h.len * n * 64)).toNat)

/-- The hypothesis that wins: the highest metric at or above its threshold, the lowest h of several. -/
def bestHyp (hs : List Hyp) (past : List Cx) (floor : Option Nat) : Option (Nat × Nat) :=
  hs.zipIdx.foldl (fun acc e => match hypMetric e.1 past floor with
    | some m => if e.1.thr ≤ m && (match acc with | some (_, b) => decide (b < m) | none => true) then some (e.2, m) else acc
    | none => acc) none

/-- One symbol's bit: the sign of the real part, or of the phase difference; zero slices to 0, positive to 1. -/
def sliceBit (fsk : Bool) (last y : Cx) : Bool :=
  if fsk then decide (0 < y.im * last.re - y.re * last.im) else decide (0 < y.re)

/-- Bits in which the last LEN bits, newest first, differ from WORD, whose bit 0 is the newest. -/
def syncDiff (bits : List Bool) (len word : Nat) : Nat :=
  ((List.range len).filter fun i => (bits.getD i false) != bit word i).length

/-- The search on one output sample; a detection opens a burst. -/
def State.searchOn (s : State) (c : Nat) (y : Cx) : State :=
  let x := s.chain c
  match x.search with
  | .none => s
  | .cont hs =>
    if x.state == .run then match bestHyp hs x.past x.floorN with
      | some (h, m) => s.openBurst c h m false
      | none => s
    else s
  | .sync sps fsk len word tol invOk _ =>
    if (x.symN + 1) % sps != 0 then s.modChain c fun x => { x with symN := x.symN + 1 }
    else
      let bits := (sliceBit fsk x.lastSym y :: x.bits).take 64
      let s := s.modChain c fun x => { x with symN := 0, lastSym := y, bits := bits }
      if x.state != .run || decide (bits.length < len) then s
      else
        let n := syncDiff bits len word
        if n ≤ tol then s.openBurst c 0 0 false
        else if invOk && decide (len - n ≤ tol) then s.openBurst c 0 0 true
        else s

/-! ### One output sample (R167 to R187) -/

/-- AGC of a sample: 16+16 bits and its saturations (R179). -/
def Chain.agc (x : Chain) (y : Cx) : Cx × Nat :=
  satCx 32767 (if x.gain == 0 then y else { re := Config.gainApply x.gain y.re, im := Config.gainApply x.gain y.im })

/-- A FRAMED carrier slot that the tag has passed ends, after at least one sample delivered in it. -/
def State.framedEnd (s : State) (c before after : Nat) : State :=
  match s.chainProfile c with
  | none => s
  | some p =>
    if !profFramed p then s
    else
      let idx (t : Nat) : Nat := (t / 4096 + profPeriod p - profPhase p) / max 1 (profPeriod p)
      if idx before < idx after && 1 ≤ idx before then s.slotEnd c (idx before - 1) ((profPhase p + (idx before - 1) * profPeriod p) / 16) 0x8000 0 else s

/-- The windows, the history and the running sums of a chain after an output sample. -/
def Chain.afterOutput (x : Chain) (y : Cx) : Chain :=
  let p := norm2 y
  let x' : Chain := { x with sat := satTo 0xFFF (x.sat + (x.agc y).2), thrAcc := x.thrAcc + p, thrN := x.thrN + 1 }
  let x' : Chain :=
    { x' with past := (x.past ++ [y]).drop (x.past.length + 1 - 4096), hist := (x.hist ++ [(x.agc y).1]).drop (x.hist.length + 1 - 1025) }
  let x' : Chain := if x.agcOn && !x.frozen then { x' with agcAcc := x.agcAcc + p, agcN := x.agcN + 1 } else x'
  if x.state == .burst then { x' with sinceDet := x.sinceDet + 1, burstPow := x.burstPow + p, burstN := x.burstN + 1 } else x'

/-- What an output sample does once the chain delivers: windows, ring, bursts and search. -/
def State.deliver (s : State) (c before : Nat) (y : Cx) : State :=
  let x := s.chain c
  let x' := x.afterOutput y
  let inBurst := x.state == .burst
  let s := s.modChain c fun _ => x'
  let s := if x.always || inBurst then s.writeRing c (x.agc y).1 else s
  let s := if inBurst && x'.tagSlot != x.lastSlot then
      (s.postBurst c 5 x'.tagSlot).modChain c fun x => { x with lastSlot := x'.tagSlot } else s
  let s := s.searchOn c y
  if x.past.isEmpty then s else s.framedEnd c before x'.tag

/-- CHAIN_SAMPLE: one output sample, where the input suffices. -/
def State.chainSample (s : State) (c : Nat) : State :=
  let x := s.chain c
  if x.state == .free || x.state == .idle then s
  else
    let pos := ((x.pos : Int) + x.adv + x.posAdj).toNat
    let n := (pos / 2 ^ 32 - x.pos / 2 ^ 32) * 2 ^ x.d
    match s.fillMixed n n x with
    | none => s
    | some x' =>
      let filt := x'.filt ++ x'.mixed.take n
      let keep := 4 * settleOf x.preset * 2 ^ x.d
      let (y, sats) := satCx 8388607 (Config.filterOut x.preset x.d x.rs (pos % 2 ^ 32) filt)
      let before := x.tag
      let x' : Chain := { x' with mixed := x'.mixed.drop n, filt := filt.drop (filt.length - keep), pos := pos, posAdj := 0 }
      let x' : Chain := { x' with sat := satTo 0xFFF (x'.sat + sats) }
      if x.state == .settling then s.modChain c fun _ => { x' with settle := x'.settle - 1 }
      else (s.modChain c fun _ => x').deliver c before y

def execChainSample (ch : Fin 512) (s : State) : Host.Outcome State Fault Refusal :=
  .next (if s.inReset 20 then s else s.chainSample ch)

/-- CHAIN_SETTLED: the settling count has been produced; GAIN starts at 0.00 dB (Table 7.4, R179). -/
def execChainSettled (ch : Fin 512) (s : State) : Host.Outcome State Fault Refusal :=
  .next (if (s.chain ch).state == .settling && (s.chain ch).settle == 0 then
    s.modChain ch fun x => { x with state := .run, gain := 0, agcAcc := 0, agcN := 0, thrAcc := 0, thrN := 0, floorN := none } else s)

/-- THRESHOLD_WINDOW_END: P over 2^THR_W output samples against the floor (R180). -/
def State.thrWindow (s : State) (c : Nat) : State :=
  let x := s.chain c
  if (x.state != .run && x.state != .burst) || decide (x.thrN < 2 ^ x.thrW) then s
  else
    let p := (rneDiv (x.thrAcc * 65536 : Nat) (max 1 x.thrN)).toNat
    let s := s.modChain c fun x => { x with thrAcc := 0, thrN := 0 }
    match x.floorN with
    | none => s.modChain c fun x => { x with floorN := some p }
    | some n =>
      let ratio := if n == 0 then 0xFFFF else satTo 0xFFFF (rneDiv (p * 256 : Nat) n).toNat
      let s := s.modChain c fun x => { x with thrRatio := ratio }
      if x.thrIsOpen then
        if p * 16 < n * (16 + x.thrOff) then
          let s := (s.modChain c fun x => { x with thrIsOpen := false }).carrierRec c 3 2
          if x.thrClose then s.closeBurst c 2 else s
        else s
      else if n * (16 + x.thrOn) < p * 16 then
        let s := (s.modChain c fun x => { x with thrIsOpen := true }).carrierRec c 3 1
        if x.search == .none && x.state == .run then s.openBurst c 0 ratio false else s
      else s.modChain c fun x => { x with floorN := some ((n : Int) + rneDiv ((p : Int) - n) (2 ^ x.tau)).toNat }

def execThresholdWindowEnd (ch : Fin 512) (s : State) : Host.Outcome State Fault Refusal := .next (s.thrWindow ch)

/-- AGC_WINDOW_END: GAIN moves by at most ATTACK down and DECAY up, within ±60 dB (R179). The mean is per part. -/
def State.agcWindow (s : State) (c : Nat) : State :=
  let x := s.chain c
  if !x.agcOn || x.frozen || (x.state != .run && x.state != .burst) || decide (x.agcN < 2 ^ x.agcW) then s
  else
    let step := clampI (-(x.attack : Int)) x.decay (Config.centiBel (x.target ^ 2 * 2 * x.agcN) (max 1 x.agcAcc))
    s.modChain c fun x => { x with gain := clampI (-6000) 6000 (x.gain + step), agcAcc := 0, agcN := 0 }

def execAgcWindowEnd (ch : Fin 512) (s : State) : Host.Outcome State Fault Refusal := .next (s.agcWindow ch)

/-- BURST_MAX_LEN: MAX_LEN output samples since detection (R185). -/
def execBurstMaxLen (ch : Fin 512) (s : State) : Host.Outcome State Fault Refusal :=
  .next (if (s.chain ch).state == .burst && decide ((s.chain ch).maxLen ≤ (s.chain ch).sinceDet) then s.closeBurst ch 3 else s)

/-! ### Write-back and the bit port (R173, R183, R212) -/

/-- WRITEBACK_APPLY: the first message waiting takes effect at an output sample boundary. -/
def State.writebackApply (s : State) (c : Nat) : State :=
  let x := s.chain c
  match x.pending with
  | [] => s
  | w :: r =>
    if w.gen != x.gen || x.state == .free then s.modChain c fun x => { x with pending := r, staleWb := satTo 255 (x.staleWb + 1) }
    else
      let lim : Int := 2 ^ x.pull
      let sum := x.freqSum + w.freq
      let cl := clampI (-lim) lim sum
      let move := rneDiv (w.time * x.adv) 65536
      let x' : Chain := { x with pending := r, freqSum := cl, freq := x.freq0 + BitVec.ofInt 48 cl, posAdj := x.posAdj + move }
      let x' : Chain := { x' with timeSum := x.timeSum + w.time, pullClamp := if cl == sum then x.pullClamp else satTo 255 (x.pullClamp + 1) }
      let x' : Chain := if w.close && x.state == .burst then { x' with evm := some w.evm } else x'
      let s := s.modChain c fun _ => x'
      if w.close then s.closeBurst c 1 else s

def execWritebackApply (ch : Fin 512) (s : State) : Host.Outcome State Fault Refusal := .next (s.writebackApply ch)

/-- The engine bound to a chain shifts one bit of a SHFX that waits; the last one writes its register (R212). -/
def Eng.shiftBit (e : Eng) (b : Bool) : Eng :=
  match e.set.shfx with
  | none => e
  | some (n, cnt) =>
    let v := BitVec.ofNat 24 (e.shr.toNat * 2 + bnat b)
    if cnt ≤ e.shc.toNat + 1 then
      (({ e with shr := 0, shc := 0, st := .running } : Eng).modSet fun r => { (r.setD n v) with shfx := none, cyc := r.cyc + 1 }).nextPc
    else { e with shr := v, shc := e.shc + 1 }

/-- The FIFO of a binding feeds the SHFX in progress of the engine, unless a handler runs over a parked one. -/
def State.feedShfx (s : State) (e c : Nat) : State :=
  s.forEach (s.chain c).bitFifo fun s b =>
    if (s.eng e).set.shfx.isSome && ((s.eng e).st == .stalled || (s.eng e).st == .running) then
      (s.modEng e fun x => x.shiftBit b).modChain c fun x => { x with bitFifo := x.bitFifo.drop 1 }
    else s

/-- BIT_PORT_ARRIVE: a bit after the sync word, up to BITS_MAX of them; dropped and counted where there is no binding or
its 64-bit FIFO is full. -/
def State.bitArrive (s : State) (c : Nat) (b : Bool) : State :=
  let x := s.chain c
  let unlimited := match x.search with | .sync _ _ _ _ _ _ m => m == 0 | _ => false
  let drop (s : State) : State := s.modChain c fun x => { x with abandoned := satTo 0xFFFF (x.abandoned + 1) }
  if x.state != .burst || searchCode x.search != 2 || (!unlimited && x.bitsLeft == 0) then s
  else
    let s := s.modChain c fun x => { x with bitsLeft := x.bitsLeft - 1 }
    match x.boundTo with
    | none => drop s
    | some e =>
      if s.inReset (21 + x.group) || 64 ≤ x.bitFifo.length then drop s
      else (s.modChain c fun x => { x with bitFifo := x.bitFifo ++ [b] }).feedShfx e c

def execBitPortArrive (ch : Fin 512) (bit : Bool) (s : State) : Host.Outcome State Fault Refusal := .next (s.bitArrive ch bit)

/-! ### Input (R169, R178) -/

/-- Coarse samples of one channel reach the chain; `zeroed` of them entered as zero. The first sweep of the source takes
an IDLE chain to SETTLING, and its counter is the origin of the tags. -/
def State.chainInput (s : State) (c j ctr : Nat) (xs : List Cx) (zeroed : Nat) : State :=
  s.modChain c fun x =>
    let x := if x.state == .idle || (x.state == .settling && x.input.isEmpty) then
      { x with state := .settling, settle := settleOf x.preset, tagCtr := ctr, pos := 0, input := List.replicate x.m [] } else x
    let add (l : List Cx) (i : Nat) : List Cx := if i == j then l ++ xs else l
    { x with input := x.input.mapIdx (fun i l => add l i), zeroed := satTo 0xFFFF (x.zeroed + zeroed) }

/-- CHAIN_INPUT_TIMEOUT: a channel's sweep that has not reached the hub enters as zero. -/
def execChainInputTimeout (ch : Fin 512) (channel : Fin 32) (s : State) : Host.Outcome State Fault Refusal :=
  let x := s.chain ch
  .next (if x.state == .free || x.state == .idle || x.input.isEmpty || decide (channel < x.firstCh) || decide (x.firstCh + x.m ≤ channel) then s
    else s.chainInput ch (channel - x.firstCh) 0 (List.replicate 64 {}) 64)

end Sys2Proof.Machine
end

