-- ==== Sys2Proof/Machine/TimeOps.lean ====
section
/-! DEFINITION. The shared operations of the time unit: domains, holdover, reference selection and the loop, the
arrival of counters, and TIMECONT and SELFLINE records (Chapter 13, R379). -/
namespace Sys2Proof.Machine

open Sys2Proof

/-! ### Domains (R330 to R334) -/

/-- T_d(C) in units of 2^-32 ns: O + round_conv((C − A) × 0.8 × 2^32 × (1 + R × 2^-40)) (R330). -/
def Dom.time (d : Dom) (c : Nat) : Int :=
  d.o + rneDiv (((c : Int) - d.anchor) * 4 * (2 ^ 40 + d.rate)) (5 * 2 ^ 8)

/-- One second in units of 2^-32 ns. -/
def secUnits : Int := 1000000000 * 4294967296

/-- TU_DOM_CFG_d.SRC: 0 HOST, 1 PPS_A, 2 PPS_B, 3 CHAIN. -/
def State.domSrc (s : State) (d : Nat) : Nat := s.fieldOf (0xD00000 + 4 * d) 31 30

/-- UNC grows by HO_PPB ns per second of C in holdover (R342), saturating at 0xFFFF. -/
def State.domUnc (s : State) (d : Nat) : Nat :=
  let x := s.dom d
  if x.hold then satTo 0xFFFF (x.unc + s.fieldOf (0xD00000 + 4 * d) 23 16 * (s.now - x.holdAt) / 1250000000) else x.unc

/-- A new rate from C1 on: no step (R333). -/
def Dom.setRate (d : Dom) (c1 : Nat) (r : Int) : Dom :=
  { d with o := d.time c1, anchor := c1, rate := r, hist := d.hist ++ [(c1, r)] }

/-- The mean rate over the last 64 s of C (R342), convergently rounded. -/
def Dom.meanRate (d : Dom) (c : Nat) : Int :=
  let from_ := c - 80000000000
  let pieces := d.hist.foldl (fun (acc : Int × Nat × Int) e =>
      let t := max e.1 from_
      (acc.1 + acc.2.2 * ((t : Int) - acc.2.1), t, e.2))
    ((0 : Int), from_, (match d.hist with | [] => d.rate | e :: _ => if e.1 ≤ from_ then e.2 else 0))
  let total := pieces.1 + pieces.2.2 * ((c : Int) - pieces.2.1)
  if c ≤ from_ then d.rate else rneDiv total (c - from_)

/-- A package-wide TIMECONT cause waits for the next multiple of 2^20 (R336). -/
def State.addCause (s : State) (k : Nat) : State :=
  s.modTime fun t => { t with causes := if t.causes.contains k then t.causes else t.causes ++ [k] }

/-- TIME_STEP carries the step in ns, saturating at ±(2^31 − 1) (R333, Table 13.7). -/
def State.postStep (s : State) (d : Nat) (delta : Int) : State :=
  let ns := clampI (-2147483647) 2147483647 (rneDiv delta 4294967296)
  (s.postEvt 0 0x2C 0 15 0 d (ofSigned 32 ns)).addCause 2

def State.changeRate (s : State) (d c1 : Nat) (r : Int) : State := s.modDom d fun x => x.setRate c1 r

/-- Step by Δ (R333). -/
def State.stepDom (s : State) (d : Nat) (delta : Int) : State :=
  (s.modDom d fun x => { x with o := x.o + delta }).postStep d delta

/-- Set to V at C1: a step by V − T_d(C1); the domain has then been set (R331, R333). -/
def State.setDom (s : State) (d c1 : Nat) (v : Int) : State :=
  let delta := v - (s.dom d).time c1
  (s.modDom d fun x => { x with o := v, anchor := c1, valid := true }).postStep d delta

/-- SERVO_CORRECTION: an error within STEP_LIMIT is corrected by rate, whose law the manual does not state (a free
value); a larger one by one step (R334). -/
def State.servo (s : State) (d : Nat) (err : Int) : State :=
  let limit : Int := s.fieldOf (0xD00000 + 4 * d) 15 8 * 1000 * 4294967296
  if err ≤ limit && -limit ≤ err then
    (s.changeRate d s.now (toSigned 32 s.freeNat)).drawFree
  else
    (s.stepDom d (-err)).modDom d fun x => { x with valid := true }

/-- HOLDOVER_ENTRY of a domain: its mean rate is held, HOLD set, UNC grows from here (R342). -/
def State.enterHold (s : State) (d : Nat) : State :=
  if (s.dom d).hold then s
  else
    let c := s.now
    ((s.modDom d fun x => { x.setRate c (x.meanRate c) with hold := true, holdAt := c }).postEvt 0 0x2B 0 15 0 d 1).addCause 4

def State.leaveHold (s : State) (d : Nat) : State :=
  if !(s.dom d).hold then s
  else
    let u := s.domUnc d
    ((s.modDom d fun x => { x with hold := false, unc := u }).postEvt 0 0x2B 0 15 0 d 0).addCause 5

/-- Every domain of this source enters holdover. -/
def State.holdSrc (s : State) (src : Nat) : State :=
  s.forEach [0, 1] fun s d => if s.domSrc d == src then s.enterHold d else s

/-- The 32-byte layout of Table 13.1, as words. -/
def State.domWords (s : State) (d : Nat) : List Nat :=
  let x := s.dom d
  let o := ofSigned 96 x.o
  [ o % 2 ^ 32, o / 2 ^ 32 % 2 ^ 32, o / 2 ^ 64, ofSigned 32 x.rate, x.anchor % 2 ^ 32, x.anchor / 2 ^ 32
  , bnat x.valid * 2 ^ 31 + bnat x.hold * 2 ^ 30 + s.domSrc d * 2 ^ 28, s.domUnc d ]

/-- The domain that eight words of Table 13.1 describe. -/
def domOfWords (w : List Nat) : Dom :=
  let g (i : Nat) := w.getD i 0
  { o := toSigned 96 (g 0 + 2 ^ 32 * g 1 + 2 ^ 64 * g 2), rate := toSigned 32 (g 3), anchor := g 4 + 2 ^ 32 * g 5,
    valid := bit (g 6) 31, hold := bit (g 6) 30, unc := fld (g 7) 15 0 }

/-! ### The upstream port (R340) -/

def Port.isUp (p : Port) : Bool := p.st == .up || p.st == .caution

/-- A BEACON copy counts as arriving while it is among the two latest beacons seen. -/
def State.hopsBy (s : State) (east : Bool) : Option Nat :=
  let latest := max (s.mgmt.hopE.map (·.1) |>.getD 0) (s.mgmt.hopW.map (·.1) |>.getD 0)
  match (if east then s.mgmt.hopE else s.mgmt.hopW) with
  | some (q, h) => if latest ≤ q + 1 then some h else none
  | none => none

/-- The port toward the acting master on the shorter complete path, EAST on equal paths: the eastward BEACON copy
arrives on WEST (port 1), the westward one on EAST (port 0). -/
def State.upstream (s : State) : Option Nat :=
  if s.mgmt.acting then none
  else
    let w := if (s.port 1).isUp then s.hopsBy true else none
    let e := if (s.port 0).isUp then s.hopsBy false else none
    match e, w with
    | some he, some hw => some (if he ≤ hw then 0 else 1)
    | some _, none => some 0
    | none, some _ => some 1
    | none, none => none

/-- A change of the upstream port restarts the count of exchanges (R340). -/
def State.noteUpstream (s : State) : State :=
  let u := s.upstream
  if s.mgmt.upstreamWas == u then s
  else
    let s := s.modMgmt fun m => { m with upstreamWas := u, exchanges := 0 }
    s.modTime fun t => { t with exchange := [] }

/-! ### Reference selection and the loop (R344 to R348) -/

def State.refCfg (s : State) (x : Nat) : Nat := s.reg (0xD00100 + 4 * x)
def State.refLoop (s : State) : Nat := s.reg 0xD00140

/-- The QL in use of an input: the register's, or for CHAIN the upstream's last SYNC (R344). -/
def State.refQl (s : State) (x : Nat) : Nat := if x == 3 then s.time.upQl else fld (s.refCfg x) 27 24

/-- Whether an input may ever be selected (R344). -/
def State.isCandidate (s : State) (x : Nat) : Bool :=
  let crystal := s.rst.straps.ref == 3#2
  if x == 3 then !crystal && !s.mgmt.acting && s.upstream.isSome
  else if crystal then x == 2 else decide (x < 3)

/-- A QUALIFIED candidate with QL below 15 (R347). -/
def State.selectable (s : State) (x : Nat) : Bool :=
  s.isCandidate x && (s.ref x).st == .qualified && decide (s.refQl x < 15)

/-- The order of R347: QL, then PRIO, then x. -/
def State.refRank (s : State) (x : Nat) : Nat := (s.refQl x * 8 + fld (s.refCfg x) 18 16) * 4 + x

/-- The reference that R347 selects, given the one in use. -/
def State.bestRef (s : State) : Option Nat :=
  let lp := s.refLoop
  if bit lp 30 then
    let f := fld lp 29 28
    if s.isCandidate f && (s.ref f).st == .qualified then some f else none
  else
    match minBy s.refRank ([0, 1, 2, 3].filter s.selectable) with
    | none => none
    | some b => match s.time.active with
      | some a => if s.selectable a && decide (s.refRank a ≤ s.refRank b) then some a else some b
      | none => some b

def loopCode (m : LoopMode) : Nat := match m with | .closed => 0 | .opened => 1 | .holdover => 2

def State.loopMode (s : State) : LoopMode := if bit s.refLoop 31 then .opened else .closed

/-- The loop enters a state: LOOP_MODE is posted on a change. The mean that the root holds in HOLDOVER, and the frequency to
which the hardware loop brings it in CLOSED, are free values. -/
def State.setLoop (s : State) (m : LoopMode) : State :=
  if s.time.loop == m then s
  else
    let old := s.time.loop
    let s := match m with
      | .holdover => (s.modTime fun t => { t with loop := m, freq := toSigned 32 s.freeNat, steered := false }).drawFree
      | .closed => (s.modTime fun t => { t with loop := m, freq := toSigned 32 s.freeNat }).drawFree
      | .opened => s.modTime fun t => { t with loop := m }
    s.postEvt 0 0x2A 0 15 0 (loopCode m) (loopCode old)

/-- REF_SWITCH: the active reference changes with phase build-out; the phase report restarts from 0 (R348, R350). -/
def State.setActive (s : State) (a : Option Nat) : State :=
  if s.time.active == a then s
  else
    let old := s.time.active
    let s := s.modTime fun t => { t with active := a, phase := 0, phaseSeq := t.phaseSeq + 1 }
    s.postEvt 0 0x28 0 15 0 (a.getD 7) (old.getD 7)

/-- Selection is evaluated (R347), and the loop follows Table 13.5. -/
def State.reselect (s : State) : State :=
  let b := s.bestRef
  let s := s.setActive b
  match b with
  | none => s.setLoop .holdover
  | some _ =>
    if s.time.loop == .holdover then
      match s.loopMode with
      | .closed => s.setLoop .closed
      | _ => s
    else s

def qualCode (q : Qual) : Nat := match q with | .disqualified => 0 | .checking => 1 | .wait => 2 | .qualified => 3

/-- REF_QUAL: an input changes its state and the event is posted (Tables 13.4, 13.7). -/
def State.postQual (s : State) (x : Nat) : State := s.postEvt 0 0x29 0 15 0 x (qualCode (s.ref x).st)

/-- The domain source that a pulse input is: PPS_A is input 4 and source 1, PPS_B input 5 and source 2. -/
def ppsSrc (x : Nat) : Nat := x - 3

/-- What follows an input's change of state: selection, or for a pulse input its domains' holdover (R342, R347). -/
def State.afterQual (s : State) (x : Nat) : State :=
  if x < 4 then s.reselect
  else if (s.ref x).st == .qualified then
    s.forEach [0, 1] fun s d => if s.domSrc d == ppsSrc x then s.leaveHold d else s
  else s.holdSrc (ppsSrc x)

/-- An input fails: it is removed from selection in the same cycle (Table 13.4, first row). -/
def State.refFail (s : State) (x : Nat) : State :=
  let was := (s.ref x).st
  let s := s.modRef x fun r =>
    { r with st := .disqualified, gates := 0, badGates := 0, activityOk := false,
             fails := if was == .disqualified then r.fails else satTo 0xFFFF (r.fails + 1) }
  if was == .disqualified then s else (s.postQual x).afterQual x

/-- One gate of an input with its offset from the root in ppb (Table 13.4, R345). -/
def State.refGateAt (s : State) (x : Nat) (off : Int) : State :=
  let r := s.ref x
  let near := decide (-100 ≤ off) && decide (off ≤ 100)
  let wide := decide (-1000 ≤ off) && decide (off ≤ 1000)
  let s := s.modRef x fun r => { r with offset := clampI (-8388608) 8388607 off }
  match r.st with
  | .disqualified =>
    s.modRef x fun r => if r.activityOk then { r with st := .checking, gates := 0 } else { r with activityOk := true }
  | .checking =>
    if !near then s.modRef x fun r => { r with gates := 0 }
    else if r.gates + 1 < 4 then s.modRef x fun r => { r with gates := r.gates + 1 }
    else s.modRef x fun r => { r with st := .wait, gates := 0, waitAt := s.now }
  | .wait => if wide then s else s.modRef x fun r => { r with st := .checking, gates := 0 }
  | .qualified =>
    if wide then s.modRef x fun r => { r with badGates := 0 }
    else if r.badGates == 0 then s.modRef x fun r => { r with badGates := 1 }
    else ((s.modRef x fun r => { r with st := .disqualified, gates := 0, badGates := 0, activityOk := false,
                                        fails := satTo 0xFFFF (r.fails + 1) }).postQual x).afterQual x

/-- The QL a package advertises (R340, R343). -/
def State.advertisedQl (s : State) : Nat :=
  let own := match s.time.loop, s.time.active with
    | .holdover, _ => fld s.refLoop 27 24
    | _, some a => s.refQl a
    | _, none => fld s.refLoop 27 24
  if s.now < s.time.takeEnd then max own s.time.takeover else own

/-! ### Records of the time unit and the arrival of counters (R335 to R338, R379) -/

/-- A hub record for a DEST: an OUT ring once, or on the lanes one copy on each enabled die with the die in `f`. -/
def State.emitEach (s : State) (t dest : Nat) (mk : Nat → Rec) : State :=
  if dest == 0 then s.forEach ((List.range 4).filter s.dieOn) fun s d => (s.emitDie d 0 (mk d)).1
  else s.emitHub dest { mk 0 with tenant := t }

/-- Table 13.2. -/
def State.timecontBody (s : State) (new old cause d anchor : Nat) (est : Bool) : List Byte :=
  let t (i : Nat) := let v := ofSigned 96 ((s.dom i).time anchor); [v % 2 ^ 32, v / 2 ^ 32 % 2 ^ 32, v / 2 ^ 64]
  rows ([new * 2 ^ 30 + old * 2 ^ 28 + cause * 2 ^ 24 + bnat est * 2 ^ 23 + d * 2 ^ 16, anchor % 2 ^ 32, anchor / 2 ^ 32]
    ++ t 0 ++ t 1 ++ [ofSigned 32 (s.dom 0).rate, ofSigned 32 (s.dom 1).rate, s.domUnc 0 * 2 ^ 16 + s.domUnc 1,
      bnat (s.dom 0).valid * 2 ^ 31 + bnat (s.dom 1).valid * 2 ^ 30 + bnat (s.dom 0).hold * 2 ^ 29 + bnat (s.dom 1).hold * 2 ^ 28,
      0, 0, 0])

/-- A line n × F of an instance, at most F_MAX, lies in a widened protected band (R378, R379). -/
def LineInst.inBand (l : LineInst) (bands : List Band) (guardHz : Nat) : Bool :=
  bands.any fun b =>
    let lo := (b.lo - guardHz) * 65536
    let hi := min ((b.hi + guardHz) * 65536) (l.fMax * 1000 * 65536)
    let n := max 1 (ceilDiv lo (max 1 l.f))
    decide (l.f != 0) && decide (n * l.f ≤ hi)

end Sys2Proof.Machine
end

