-- ==== Sys2Proof/Machine/SelfLine.lean ====
section
/-! DEFINITION. The SELFLINE table: its instances, cadence steering at a freeze, and its records (R377 to R379, R401). -/
namespace Sys2Proof.Machine

open Sys2Proof

/-- A frequency `num / den` Hz in units of 2^-16 Hz, convergently rounded. -/
def freqUnits (num den : Nat) : Nat := (rneDiv ((num : Int) * 65536) den).toNat

/-- TILE_CLK cycles of one pass without its switch (R40, R401): a resident integration is one pass. -/
def State.passCycles (s : State) (x : Sub) (resident : Bool) : Nat :=
  (if resident then x.integ else 1) * x.len / s.numF / (if s.mode4 then 2 else 1)

/-- The distinct pass lengths of the regular passes on a die's timeline (R401). -/
def State.passLengths (s : State) (d : Nat) : List Nat :=
  dedup (((s.die d).passes.filter fun p => p.correct.isNone).map fun p => s.passCycles (s.subr p.sub) p.resident)

/-- G of R271 for a channel with a transfer in progress: the burst spacing in FAB_CLK cycles, 0 for no limit. -/
def State.dribbleG (s : State) (ch : Nat) : Nat :=
  let n := s.fieldOf (0x20000 + 8 * ch) 15 8
  match (s.dma ch).cur with
  | none => 0
  | some x =>
    if n == 0 then 0
    else
      let host := match s.rst.straps.hostLanes with
        | 0#2 => 63015000000 | 1#2 => 31508000000 | _ => 15754000000
      let p := if x.src == 0 || x.dst == 0 then host
        else if 2 ≤ x.src || 2 ≤ x.dst then 40000000000 else 1000000000000
      ceilDiv (512 * 256 * 625000000) (n * p)

def passLine (d cycles pad : Nat) : LineInst :=
  { src := 11, inst := d, f := freqUnits 1250000000 (cycles + 64 + pad), fMax := 200000, steered := pad != 0 }

/-- The refresh cadence HBM_CLK / N of a stack; N is halved at the doubled rate (Table 14.12). -/
def State.refreshLine (s : State) (k n : Nat) : LineInst :=
  let x := if (getT ({} : Stack) s.hbmStacks k).refX2 then 2 else 1
  { src := 12, inst := k, f := freqUnits (20000000000 * x) (12 * n), fMax := 2000000, steered := n != 6500 }

def dribbleLine (ch g g' : Nat) : LineInst :=
  { src := 13, inst := ch, f := freqUnits 625000000 g', fMax := 1000000, steered := g' != g }

/-- The instances whose lines no choice moves (Table 14.12, R401). -/
def State.fixedLines (s : State) : List LineInst :=
  let clk := [20000000000, 10000000000, 1250000000, 0, 1000000000, 625000000, 250000000]
  let c := (List.range 7).map fun i =>
    { src := i, f := if i == 3 then freqUnits 20000000000 12 else freqUnits (clk.getD i 0) 1, fMax := 20000000 : LineInst }
  let link := (s.port 0).isUp || (s.port 1).isUp
  c ++ [{ src := 7, f := freqUnits 2500000000 1, fMax := 20000000 }]
    ++ (if link then [{ src := 8, f := freqUnits 1000 1, fMax := 50000 }] else [])
    ++ [ { src := 9, f := freqUnits 1250000000 655360, fMax := 200000 }
       , { src := 10, f := freqUnits 1250000000 40960, fMax := 200000 }
       , { src := 14, f := freqUnits 32768 1, fMax := 10000 }
       , { src := 15, f := freqUnits 10000000 1, fMax := 200000 }
       , { src := 16, f := freqUnits 1000 1, fMax := 50000 } ]
    ++ (if s.upstream.isSome then [{ src := 17, f := freqUnits 125 2, fMax := 50000 }] else [])

def State.padOf (s : State) (d : Nat) : Nat := getT 0 s.rst.pad d
def State.refNOf (s : State) (k : Nat) : Nat := getT 6500 s.rst.refN k

/-- The adjustable instances at their chosen values. -/
def State.adjLines (s : State) : List LineInst :=
  (List.range 4).flatMap (fun d => (s.passLengths d).map fun c => passLine d c (s.padOf d))
    ++ ((List.range 8).filter fun k => s.dieOn (k / 2)).map (fun k => s.refreshLine k (s.refNOf k))
    ++ (List.range 32).filterMap fun ch =>
        let g := s.dribbleG ch
        if g == 0 then none else some (dribbleLine ch g ((s.dma ch).gSteer.getD g))

/-- The whole table as the activities stand, ordered by source. -/
def State.lines (s : State) : List LineInst := sortBy (·.src) (s.fixedLines ++ s.adjLines)

/-- Every tenant's protected bands. -/
def State.allBands (s : State) : List Band := s.fns.flatMap fun e => e.2.bands
/-- SELF_CFG.GUARD in Hz. -/
def State.guardHz (s : State) : Nat := 1000 * s.fieldOf 0xE00028 15 0

def State.clear (s : State) (l : LineInst) : Bool := !l.inBand s.allBands s.guardHz

/-- The lowest-numbered tenant whose band a line hits. -/
def State.hitTenant (s : State) (l : LineInst) : Nat :=
  match s.fns.find? (fun e => l.inBand e.2.bands s.guardHz) with
  | some e => e.1
  | none => 0

/-- SELF_UNSTEERABLE names the source and instance (R378, R382). -/
def State.unsteerable (s : State) (l : LineInst) : State :=
  s.postEvt 0 0x32 0 15 0 (l.inst * 2 ^ 16 + l.src) (s.hitTenant l)

/-- PAD of a die: the first from 0 for which no pass line lies in a protected band; `fits` keeps R41 (R378). -/
def State.steerPad (s : State) (fits : Nat → Nat → Bool) (d : Nat) : State :=
  let ls := s.passLengths d
  match (List.range 256).find? (fun p => (ls.all fun c => s.clear (passLine d c p)) && (p == 0 || fits d p)) with
  | some p => s.modRst fun r => { r with pad := setT 0 r.pad d p }
  | none =>
    let s := s.modRst fun r => { r with pad := setT 0 r.pad d 0 }
    match ls with
    | c :: _ => s.unsteerable (passLine d c 0)
    | [] => s

/-- N of a stack: the first from 6,500 downwards. -/
def State.steerRefresh (s : State) (k : Nat) : State :=
  match ((List.range 196).map (6500 - ·)).find? (fun n => s.clear (s.refreshLine k n)) with
  | some n => s.modRst fun r => { r with refN := setT 6500 r.refN k n }
  | none => (s.modRst fun r => { r with refN := setT 6500 r.refN k 6500 }).unsteerable (s.refreshLine k 6500)

/-- G' of a channel: the first from G upwards, at most ⌊9G / 8⌋. -/
def State.steerDribble (s : State) (ch : Nat) : State :=
  let g := s.dribbleG ch
  if g == 0 then s
  else match ((List.range (9 * g / 8 - g + 1)).map (g + ·)).find? (fun x => s.clear (dribbleLine ch g x)) with
    | some x => s.modDma ch fun c => { c with gSteer := some x }
    | none => (s.modDma ch fun c => { c with gSteer := none }).unsteerable (dribbleLine ch g g)

/-- The bitmap of sources that still have a line in a protected band (R378). -/
def State.inBandSources (s : State) : Nat :=
  sumN ((dedup ((s.lines.filter fun l => !s.clear l).map (·.src))).map (2 ^ ·))

/-- SELF_STEER: every adjustable value is chosen, and SELF_PROTECTs that wait for the first choice complete (R378). The
table that changes takes effect at the next K. -/
def State.selfSteer (s : State) (fits : Nat → Nat → Bool) : State :=
  let s := s.forEach (List.range 4) fun s d => s.steerPad fits d
  let s := s.forEach (List.range 8) State.steerRefresh
  let s := s.forEach (List.range 32) State.steerDribble
  let m := s.inBandSources
  s.forEach (s.fns.filter fun e => !e.2.bandsCmds.isEmpty) fun s e =>
    (s.modFn e.1 fun f => { f with bandsCmds := [] }).forEach e.2.bandsCmds fun s r => s.complete r stOK 0 m

/-- The body of a SELFLINE record (R379). -/
def selflineBody (ls : List LineInst) (bands : List Band) (guardHz : Nat) : List Byte :=
  rows (ls.length % 65536 :: ls.flatMap fun l =>
    [ l.src * 2 ^ 24 + bnat (decide (11 ≤ l.src) && decide (l.src ≤ 13)) * 2 ^ 23 + bnat l.steered * 2 ^ 22
        + bnat (l.inBand bands guardHz) * 2 ^ 21 + l.inst
    , l.f % 2 ^ 32, l.f / 2 ^ 32, l.fMax ])

/-- A SELFLINE record for one tenant at counter K. -/
def State.emitSelfline (s : State) (t k : Nat) : State :=
  let f := s.fn t
  let dest := match f.bandDest with
    | some d => d
    | none => f.labelDest.getD 0
  s.emitEach t dest fun _ => s.mkRec 0x0A t 0 (k / 2 ^ 20) k (selflineBody s.rst.selfTable f.bands s.guardHz)

/-- SELFLINE_RECORD: at a K where the table changes, the new table comes into force and every tenant with a
time-continuity record or a SELF_PROTECT of its own receives a record. -/
def State.switchSelfTable (s : State) (k : Nat) : State :=
  let t := s.lines
  if t == s.rst.selfTable then s
  else
    let s := s.modRst fun r => { r with selfTable := t }
    s.forEach ((s.fns.filter fun e => e.2.tcStarted || e.2.bandDest.isSome).map (·.1)) fun s x => s.emitSelfline x k

end Sys2Proof.Machine
end

