-- ==== Sys2Proof/Machine/ChainOps.lean ====
section
/-! DEFINITION. The shared operations of the management chain: sending and forwarding frames, the ports and their
error counters, sidelining, addresses and the interlock (Chapter 12). -/
namespace Sys2Proof.Machine

open Sys2Proof

/-! ### Sending (R308 to R311) -/

/-- With TS = 1 the port overwrites payload bytes 0 to 7 with C as the frame leaves (R310). -/
def State.stamp (s : State) (f : Frame) : Frame :=
  if f.ts then { f with payload := BitVec.ofNat 32 s.now :: BitVec.ofNat 32 (s.now / 2 ^ 32) :: f.payload.drop 2 } else f

/-- A frame waits on a port until it is acknowledged; one of priority 1 to 7 that finds 16 of its priority waiting is
dropped and counted, one of priority 0 never is (R311). The port sends it. -/
def State.sendOn (s : State) (p : Nat) (f : Frame) : State :=
  let x := s.port p
  if !x.isUp then s
  else if f.prio != 0 && decide (16 ≤ (x.unacked.filter fun u => u.f.prio == f.prio).length) then
    s.modPort p fun x => { x with drops := satTo 0xFFFF (x.drops + 1) }
  else
    let f := { f with lseq := x.lseq }
    (s.modPort p fun x => { x with unacked := x.unacked ++ [{ f := f }], lseq := x.lseq + 1 }).emit (.frame p (s.stamp f))

/-- The next number of this source (Table 12.1). -/
def State.nextSeq (s : State) : State := s.modMgmt fun m => { m with seqno := m.seqno + 1 }

/-- A frame of this package's own. -/
def State.ownFrame (s : State) (typ prio dst : Nat) (payload : List Nat) : Frame :=
  { typ := BitVec.ofNat 8 typ, prio := Fin.ofNat 8 prio, src := s.mgmt.addr, dst := BitVec.ofNat 7 dst,
    seq := s.mgmt.seqno, epoch := s.mgmt.epoch, payload := payload.map (BitVec.ofNat 32) }

/-- A broadcast goes out on both rings (R309). -/
def State.broadcast (s : State) (typ prio : Nat) (payload : List Nat) : State :=
  let f := s.ownFrame typ prio 0x7F payload
  ((s.sendOn 0 { f with westward := false }).sendOn 1 { f with westward := true }).nextSeq

/-- A link-local frame on one port (R339). -/
def State.sendLocal (s : State) (p typ prio : Nat) (ts : Bool) (payload : List Nat) : State :=
  let f := s.ownFrame typ prio 0x7F payload
  (s.sendOn p { f with ts := ts, westward := p == 1 }).nextSeq

/-- Eastward distance of an address from the master by the address table (R323). -/
def State.posOf (s : State) (a : BitVec 7) : Option Nat :=
  if a == s.mgmt.master then some 0
  else (s.mgmt.table.find? fun e => e.2.valid && e.1 == a.toNat).map (·.2.hopsE.toNat)

/-- Packages on the ring, where a table entry shows both distances. -/
def State.ringLen (s : State) : Option Nat :=
  (s.mgmt.table.find? fun e => e.2.valid && e.2.hopsE != 0 && e.2.hopsW != 0).map fun e => e.2.hopsE.toNat + e.2.hopsW.toNat

/-- Whether a path over the cables named by their western ends is complete in the latest map (R313). -/
def State.pathOk (s : State) (cables : List Nat) : Bool :=
  !s.mgmt.broken || match s.posOf s.mgmt.eastEnd with
    | some e => !cables.contains e
    | none => true

/-- The port by which a unicast frame leaves: the shorter complete path, the eastward ring on equal paths (R309). -/
def State.pathPort (s : State) (dst : BitVec 7) : Nat :=
  let dst := if dst == 0x7E then s.mgmt.master else dst
  match s.posOf s.mgmt.addr, s.posOf dst, s.ringLen with
  | some a, some b, some n =>
    let east := (b + n - a % n) % n
    let west := (n - east) % n
    let okE := s.pathOk ((List.range east).map fun i => (a + i) % n) && (s.port 0).isUp
    let okW := s.pathOk ((List.range west).map fun i => (a + n - 1 - i % n) % n) && (s.port 1).isUp
    if okE && (!okW || decide (east ≤ west)) then 0 else if okW then 1 else if (s.port 0).isUp then 0 else 1
  | _, _, _ => match dst == s.mgmt.master, s.upstream with
    | true, some p => p
    | _, _ => if (s.port 0).isUp then 0 else 1

/-- A unicast frame (R309). -/
def State.unicast (s : State) (typ prio : Nat) (dst : BitVec 7) (payload : List Nat) : State :=
  let p := s.pathPort dst
  (s.sendOn p { s.ownFrame typ prio dst.toNat payload with westward := p == 1 }).nextSeq

/-- Whether the latest BEACON shows this package's port `q` as an end of the chain (R313). -/
def State.endShown (s : State) (q : Nat) : Bool :=
  s.mgmt.broken && (if q == 0 then s.mgmt.eastEnd else s.mgmt.westEnd) == s.mgmt.addr

/-- Pass a frame on from the port it arrived on: HOPS is decremented and the frame discarded at 0. At an OFF port it is
turned around once with WRAPPED = 1, until a BEACON shows the break; from then on a broadcast ends there, and any other
frame is dropped (R309, R316). -/
def State.forward (s : State) (p : Nat) (f : Frame) : State :=
  let f := { f with hops := f.hops - 1 }
  let q := 1 - p
  if f.hops == 0 then s
  else if (s.port q).isUp then s.sendOn q f
  else if s.endShown q && f.dst == 0x7F then s
  else if s.endShown q then s.modPort q fun x => { x with drops := satTo 0xFFFF (x.drops + 1) }
  else if f.wrapped then s.modPort q fun x => { x with drops := satTo 0xFFFF (x.drops + 1) }
  else s.sendOn p { f with wrapped := true, westward := !f.westward }

/-- At most once per (SRC, SEQ), over the last 64 pairs of each source (R309). -/
def State.seenBefore (s : State) (f : Frame) : Bool := s.mgmt.seen.contains (f.src.toNat, f.seq.toNat)

def State.noteSeen (s : State) (f : Frame) : State :=
  s.modMgmt fun m =>
    let mine := (m.seen ++ [(f.src.toNat, f.seq.toNat)]).filter (fun e => e.1 == f.src.toNat)
    { m with seen := m.seen.filter (fun e => e.1 != f.src.toNat) ++ mine.drop (mine.length - 64) }

/-- Whether a frame is for this package: its address, the acting master's alias, or everyone (R309). -/
def State.isForMe (s : State) (f : Frame) : Bool :=
  f.dst == s.mgmt.addr || (f.dst == 0x7E && s.mgmt.acting) || f.dst == 0x7F

/-! ### Receiving -/

/-- CHAIN_PORT: port, new state 0 OFF, 1 UP, 2 CAUTION (Table 12.6). -/
def State.postPort (s : State) (p st : Nat) : State := s.postEvt 0 0x20 0 15 0 p st

/-- CAUTION while a counter stands at 128 or more, UP below (Table 12.3). -/
def State.gradePort (s : State) (p : Nat) : State :=
  let x := s.port p
  let high := decide (128 ≤ x.txErr) || decide (128 ≤ x.rxErr)
  if x.st == .up && high then (s.modPort p fun x => { x with st := .caution }).postPort p 2
  else if x.st == .caution && !high then (s.modPort p fun x => { x with st := .up }).postPort p 1
  else s

/-- Release MASTER_HOLD_OUT and stop acting, in one cycle (R319). -/
def State.stopActing (s : State) : State := s.modMgmt fun m => { m with acting := false, holdOut := false }

/-- SIDELINE: both ports OFF; time with source CHAIN enters holdover, and an acting master stops acting (R316, R318,
R319, R342). -/
def State.sideline (s : State) : State :=
  if s.mgmt.sidelined || (s.port 0).st != .off || (s.port 1).st != .off then s
  else
    let s := (s.modMgmt fun m => { m with sidelined := true }).postEvt 0 0x24 0 15 0 1 0
    let s := if s.mgmt.acting then s.stopActing else s
    s.holdSrc 3

/-- A port is up again: a sidelined package no longer is. -/
def State.unsideline (s : State) : State :=
  if s.mgmt.sidelined then (s.modMgmt fun m => { m with sidelined := false }).postEvt 0 0x24 0 15 0 0 0 else s

/-- One CHAIN_DROP event per priority with frames dropped (R316). -/
def State.postDrops (s : State) (p : Nat) (us : List Unacked) : State :=
  s.forEach [1, 2, 3, 4, 5, 6, 7] fun s k =>
    let n := (us.filter fun u => u.f.prio.val == k).length
    if n == 0 then s else s.postEvt 0 0x21 0 15 0 (p + k * 256) n

/-- The frames of a port that turns OFF: priority 0 is rerouted from the other port with WRAPPED = 1, the rest are
dropped and counted (R316). -/
def State.emptyPort (s : State) (p : Nat) : State :=
  let us := (s.port p).unacked
  let zero := us.filter fun u => u.f.prio == 0
  let rest := us.filter fun u => u.f.prio != 0
  let s := s.modPort p fun x =>
    { x with unacked := [], reroute := satTo 255 (x.reroute + zero.length), drops := satTo 0xFFFF (x.drops + rest.length) }
  let s := s.forEach zero fun s u => s.sendOn (1 - p) { u.f with wrapped := true, westward := !u.f.westward }
  s.postDrops p rest

/-- CHAIN_PORT_OFF: both counters 255, the queues dealt with, the event posted (Table 12.3, R316). Where it was the
upstream port and no other is, the CHAIN domains enter holdover (R342). -/
def State.portOff (s : State) (p : Nat) : State :=
  if !(s.port p).isUp then s
  else
    let up := s.upstream
    let s := s.modPort p fun x => { x with st := .off, txErr := 255, rxErr := 255, clkOk := false, good := 0, bad := 0 }
    let t := ((s.emptyPort p).postPort p 0).sideline
    let t := if up == some p && t.upstream.isNone then t.holdSrc 3 else t
    (t.noteUpstream).reselect

/-- After a change of the error counters: OFF at 255, else CAUTION or UP (R315). -/
def State.checkPort (s : State) (p : Nat) : State :=
  let x := s.port p
  if x.isUp && (decide (255 ≤ x.txErr) || decide (255 ≤ x.rxErr)) then s.portOff p else s.gradePort p

/-- The acting master notes the cycle of a frame from a package in its table (R323). -/
def State.noteCycle (s : State) (src : Nat) : State :=
  if s.mgmt.acting && (getT {} s.mgmt.table src).valid then
    s.modMgmt fun m => { m with table := modT {} m.table src fun e => { e with last := m.cycle % 2 ^ 32 } }
  else s

/-- A good frame: RX_ERR falls by 1 and the frame is acknowledged (R311, R315). -/
def State.goodFrame (s : State) (p : Nat) (f : Frame) : State :=
  (((s.modPort p fun x => { x with rxErr := x.rxErr - 1 }).emit (.ack p f.lseq)).checkPort p).noteCycle f.src.toNat

/-- A good frame at a port: acknowledged; then delivered at most once and, unless it is link-local or unicast to this
package, passed on. A broadcast that has come back to its source stops. -/
def State.receive (s : State) (p : Nat) (f : Frame) (link : Bool) (deliver : State → State) : State :=
  if !(s.port p).isUp then s
  else
    let s := s.goodFrame p f
    let back := f.src == s.mgmt.addr && f.src != 0x40
    let stays := link || back || (f.dst != 0x7F && s.isForMe f)
    let s := if s.isForMe f && !back && !s.seenBefore f then deliver (s.noteSeen f) else s
    if stays then s else s.forward p f

/-! ### Joining and addresses (R314) -/

/-- JOIN: the sticky address or 0x40, the identity and the hops from the master. An acting master has its own entry. -/
def State.sendJoin (s : State) : State :=
  if s.mgmt.acting then s else
  let want := if s.mgmt.bkpValid then s.mgmt.bkpAddr.toNat else 0x40
  let id := Config.identity.toNat
  let h (x : Option (Nat × Nat)) := (x.map (·.2)).getD 0
  s.unicast 0x03 1 0x7E [want, id % 2 ^ 32, id / 2 ^ 32, h s.mgmt.hopE + h s.mgmt.hopW * 256]

/-- An ASSIGN for this package: written to CHAIN_BKP; CHAIN_ADDR where the address changed (R314). -/
def State.takeAddr (s : State) (a : BitVec 7) : State :=
  let old := s.mgmt.addr
  let s := s.modMgmt fun m => { m with addr := a, bkpValid := a != 0x40, bkpConf := true, bkpAddr := a }
  if old == a then s else s.postEvt 0 0x22 0 15 0 old.toNat a.toNat

/-! ### Chain locks 992 to 1,023 (R321) -/

/-- A chain holder: package address and ring. -/
def chainHolder (addr ring : Nat) : Nat := addr * 65536 + ring

/-- LOCK_RESP to the package of a holder (Table 12.2): lock and status. -/
def State.sendLockResp (s : State) (lock st holder : Nat) : State :=
  s.unicast 0x09 2 (BitVec.ofNat 7 (holder / 65536)) [lock, st]

end Sys2Proof.Machine
end

