-- ==== Sys2Proof/Machine/Time.lean ====
section
/-! DEFINITION. The commands of the time unit and of reference selection (Chapter 13), and what the arrival of a sample
counter brings about. -/
namespace Sys2Proof.Machine

open Sys2Proof

/-! ### Arrival of counters (R337, R338, R379) -/

/-- The smallest multiple of 2^20 above a counter. -/
def nextK (c : Nat) : Nat := (c / 2 ^ 20 + 1) * 2 ^ 20

/-- TU_LABELs whose millisecond has passed fix their switch counter (R338). -/
def State.fixLabels (s : State) (ctr : Nat) : State :=
  s.forEach s.fns fun s e => match e.2.labelPend with
    | some l =>
      if l.k.isNone && decide (l.t0 + 1250000 ≤ s.now) then
        s.modFn e.1 fun f => { f with labelPend := some { l with k := some (nextK (s.time.highCtr.getD ctr)) } }
      else s
    | none => s

/-- A TU_LABEL reaches its switch counter: the new domain and DEST hold from K and the command completes (R338). -/
def State.switchLabels (s : State) (ctr : Nat) : State :=
  s.forEach s.fns fun s e => match e.2.labelPend with
    | some { dom := d, dest := dst, k := some k, cmd := cmd, .. } =>
      if k ≤ ctr then
        (s.modFn e.1 fun f => { f with labelPend := none, labelSw := f.labelSw ++ [(k, f.labelDom)], labelDom := d, labelDest := some dst }).complete
          cmd stOK (k / 2 ^ 20) 0
      else s
    | _ => s

/-- The multiples of 2^20 above the highest counter so far and at or below `ctr`. -/
def State.newKs (s : State) (ctr : Nat) : List Nat :=
  match s.time.highCtr with
  | none => if ctr % 2 ^ 20 == 0 then [ctr] else []
  | some h => (List.range (ctr / 2 ^ 20 - h / 2 ^ 20)).map fun i => (h / 2 ^ 20 + 1 + i) * 2 ^ 20

/-- The arrival of K: the package-wide causes that wait are K's, and a new self-line table comes into force. -/
def State.arriveK (s : State) (ctr k : Nat) : State :=
  let s := s.modTime fun t =>
    { t with kq := t.kq ++ [{ k := k, c := t.c, ctr := ctr, anchor := if k == ctr then some t.c else none, causes := t.causes }],
             causes := [] }
  let s := s.forEach (s.fns.filter fun e => e.2.workStarted && e.2.startK.isNone) fun s e =>
    s.modFn e.1 fun f => { f with startK := some k }
  s.switchSelfTable k

/-- An ingest packet with this SAMPLE_COUNTER has passed check 7 (R337, R338). -/
def State.arrive (s : State) (ctr : Nat) : State :=
  let s := s.fixLabels ctr
  let s := if ctr % 2 ^ 20 == 0 then
      s.modTime fun t => { t with kq := mapIf (fun e => e.k == ctr && e.anchor.isNone) (fun e => { e with anchor := some t.c }) t.kq }
    else s
  let s := s.forEach (s.newKs ctr) fun s k => s.arriveK ctr k
  let s := s.switchLabels ctr
  s.modTime fun t => { t with highCtr := some (max ctr (t.highCtr.getD 0)),
                              lastAnchor := if ctr % 2 ^ 20 == 0 && !(t.lastAnchor.any fun a => decide (ctr ≤ a.1)) then some (ctr, t.c) else t.lastAnchor }

/-- A tenant's first subarray, beam plan or chain starts (R336). -/
def State.noteWork (s : State) (t : Nat) : State :=
  if (s.fn t).workStarted then s
  else s.modFn t fun f => { f with workStarted := true }

/-! ### TIMECONT (R336) -/

/-- The cause of a tenant's record at K, the lowest code that holds. -/
def State.tcCause (s : State) (t : Nat) (e : KArr) : Option Nat :=
  let f := s.fn t
  let n := s.fieldOf 0xD00010 7 0
  let per := f.tcStarted && n != 0 && decide (f.tcLast + n * 2 ^ 20 ≤ e.k)
  let sw := f.labelSw.any (fun x => x.1 == e.k)
  let start := f.startK == some e.k
  let c (k : Nat) := f.tcStarted && e.causes.contains k
  if per then some 0 else if sw then some 1 else if c 2 then some 2 else if start then some 3
    else if c 4 then some 4 else if c 5 then some 5 else none

/-- Whether K is the tenant's START counter, whatever code its record carries (R336, R379). -/
def State.isStartK (s : State) (t k : Nat) : Bool := (s.fn t).startK == some k

/-- The anchor of K and whether it is estimated (R337). -/
def State.anchorOf (s : State) (e : KArr) : Nat × Bool :=
  match e.anchor with
  | some c => (c, false)
  | none => match s.time.lastAnchor with
    | some (k0, c0) => if k0 < e.k then (c0 + tilePerSample * (e.k - k0), true) else (e.c - tilePerSample * (e.ctr - e.k), true)
    | none => (e.c - tilePerSample * (e.ctr - e.k), true)

/-- One tenant's TIMECONT record at K, numbered, on its TU_LABEL DEST or the lanes (R335, R336). -/
def State.emitTimecont (s : State) (t : Nat) (e : KArr) : State :=
  match s.tcCause t e with
  | none => s
  | some cause =>
    let f := s.fn t
    let new := s.labelDomAt t e.k
    let old := (f.labelSw.find? (fun x => x.1 == e.k)).elim new (·.2)
    let (a, est) := s.anchorOf e
    let start := s.isStartK t e.k
    let s := s.modFn t fun f =>
      { f with tcList := f.tcList ++ [(e.k, f.tcCount)], tcCount := f.tcCount + 1, tcLast := e.k,
               tcStarted := f.tcStarted || cause == 1 || start }
    let s := s.emitEach t (f.labelDest.getD 0) fun d =>
      s.mkRec 0x0B t 0 (e.k / 2 ^ 20) e.k (s.timecontBody new old cause d a est)
    if start then s.emitSelfline t e.k else s

/-- TIMECONT_EMIT: CLOSE_WAIT after the first packet past K, the records of K are emitted (R336, R337). -/
def execTimecontEmit (k : Nat) (s : State) : Host.Outcome State Fault Refusal :=
  .next (match s.time.kq.find? (fun e => e.k == k) with
    | none => s
    | some e =>
      let s := s.modTime fun t => { t with kq := t.kq.filter (fun e => e.k != k) }
      s.forEach ((List.range 256).filter fun t => s.fnExists t) fun s t => s.emitTimecont t e)

/-! ### Time across the chain (R339 to R343) -/

/-- HOPS to the master on the upstream path. -/
def State.masterHops (s : State) : Nat :=
  match s.upstream with
  | some 0 => (s.hopsBy false).getD 0
  | some _ => (s.hopsBy true).getD 0
  | none => 0

/-- The payload of a SYNC frame behind T1 (Table 13.3). -/
def State.syncPayload (s : State) : List Nat :=
  [0, 0] ++ s.domWords 0 ++ s.domWords 1 ++ [s.masterHops % 256 + s.advertisedQl * 256]

/-- SYNC_SEND: on every UP or CAUTION port, 200 µs after each management-cycle start. -/
def execSyncSend (s : State) : Host.Outcome State Fault Refusal :=
  .next (s.forEach [0, 1] fun s p => s.sendLocal p 0x10 1 true s.syncPayload)

/-- DELAY_REQ_SEND: upstream, 400 µs after the start of every 16th cycle. -/
def execDelayReqSend (s : State) : Host.Outcome State Fault Refusal :=
  .next (match s.upstream with
    | none => s
    | some p => (s.sendLocal p 0x11 1 true [0, 0, s.time.reqId % 2 ^ 32]).modTime fun t => { t with reqId := t.reqId + 1 })

def payloadNat (f : Frame) (i : Nat) : Nat := (f.payload.getD i 0).toNat
def payload64 (f : Frame) (i : Nat) : Nat := payloadNat f i + 2 ^ 32 * payloadNat f (i + 1)

/-- The path delay in half counts: the mean, rounded down, of the smallest quarter of the last 1,024 exchanges (R340). -/
def State.pathDelay2 (s : State) : Int :=
  let ds := (s.time.exchange.map fun e => e.2)
  let sorted := ds.foldl (fun acc d => (acc.filter (· ≤ d)) ++ [d] ++ acc.filter (fun x => d < x)) []
  let q := sorted.take (max 1 (sorted.length / 4))
  if q.isEmpty then 0 else q.foldl (· + ·) 0 / q.length

/-- e_d = T_d(T2) − (T_up,d(T1) + D × 0.8 ns), D = (path delay of both ways) / 2 (R340). -/
def State.chainError (s : State) (d : Nat) : Int :=
  (s.dom d).time s.time.upT2 - ((getT {} s.time.upDom d).time s.time.upT1 + rneDiv (s.pathDelay2 * 4 * 4294967296) 10)

/-- Domains with SRC CHAIN are steered once 64 exchanges of a SYNC and a DELAY pair have been made with this upstream
(R340, R342). -/
def State.steerChain (s : State) : State :=
  if s.mgmt.exchanges < 64 || s.time.exchange.isEmpty || s.inReset 36 then s
  else s.forEach [0, 1] fun s d =>
    if s.domSrc d == 3 && !s.mgmt.acting then (s.leaveHold d).servo d (s.chainError d) else s

/-- What a SYNC on the upstream port tells: T1, T2, both domains' parameters and the QL. -/
def State.takeSync (s : State) (p : Nat) (f : Frame) : State :=
  let s := s.noteUpstream
  if s.upstream != some p then s
  else
    let d (i : Nat) := domOfWords ((f.payload.drop (2 + 8 * i)).take 8 |>.map (·.toNat))
    let s := s.modTime fun t => { t with upT1 := payload64 f 0, upT2 := t.c, upDom := setT {} (setT {} t.upDom 0 (d 0)) 1 (d 1),
                                         upQl := fld (payloadNat f 18) 11 8 }
    (s.steerChain).reselect

/-- SYNC received (type 0x10), link-local. -/
def execSync (p : Fin 2) (f : Frame) (s : State) : Host.Outcome State Fault Refusal :=
  .next (s.receive p f true fun s => s.takeSync p f)

/-- DELAY_REQ received (type 0x11): answered with T4, REQ_ID and T3. -/
def execDelayReq (p : Fin 2) (f : Frame) (s : State) : Host.Outcome State Fault Refusal :=
  .next (s.receive p f true fun s =>
    s.sendLocal p 0x12 1 false
      [s.now % 2 ^ 32, s.now / 2 ^ 32, payloadNat f 2, payloadNat f 0, payloadNat f 1])

/-- DELAY_RESP received (type 0x12) on the upstream port: (T2 − T1) + (T4 − T3) of one exchange,
the last 1,024 kept. -/
def State.takeDelayResp (s : State) (p : Nat) (f : Frame) : State :=
  if s.upstream != some p then s
  else
    let d : Int := ((s.time.upT2 : Int) - s.time.upT1) + ((payload64 f 0 : Int) - payload64 f 3)
    let s := s.modTime fun t =>
      let l := t.exchange ++ [(payloadNat f 2, d)]
      { t with exchange := l.drop (l.length - 1024) }
    (s.modMgmt fun m => { m with exchanges := m.exchanges + 1 }).steerChain

def execDelayResp (p : Fin 2) (f : Frame) (s : State) : Host.Outcome State Fault Refusal :=
  .next (s.receive p f true fun s => s.takeDelayResp p f)

/-! ### The host's view and TU_SET, TU_LABEL (R332, R333, R338, R351) -/

/-- The host interface is released, so that a read of a BAR reaches the device (R358, R370). -/
def State.hostOut (s : State) : Bool := decide (5 ≤ s.rst.released) && s.rst.power != .asleep

/-- TU_NOW_LATCH: a read of TU_NOW_CLO latches C, T_0(C) and T_1(C) for the function (R332). Before READY a BAR read
returns 0 and latches nothing (R358); before the host interface is released none arrives. -/
def execTuNowLatch (fn : Fin 256) (s : State) : Host.Outcome State Fault Refusal :=
  .next (if !s.fnExists fn then s
    else if !s.ready then if s.hostOut then s.emit (.read fn 0) else s
    else
      let t (i : Nat) := let v := ofSigned 96 ((s.dom i).time s.now); [v % 2 ^ 32, v / 2 ^ 32 % 2 ^ 32, v / 2 ^ 64]
      let ws := ([s.now % 2 ^ 32, s.now / 2 ^ 32] ++ t 0 ++ t 1).map (BitVec.ofNat 32)
      (s.modFn fn fun f => { f with tuNow := ws }).emit (.read fn (BitVec.ofNat 32 s.now)))

/-- One TU_SET applied at C1 (R333). -/
def State.applyTuSet (s : State) (x : TuPend) (c1 : Nat) : State :=
  let s := match x.op with
    | 0 => s.setDom x.dom c1 x.v
    | 1 => s.stepDom x.dom x.v
    | _ => s.changeRate x.dom c1 x.rate
  s.complete x.cmd stOK (c1 % 2 ^ 32) (c1 / 2 ^ 32)

/-- TU_SET (0x50): the refusals of Table 13.6, then at once for C1 = 0, else at C1. -/
def State.tuSet (s : State) (c : RingCmd) (r : CmdRef) : State :=
  let a := c.arg0.toNat
  let d := a % 2
  let op := fld a 9 8
  let c1 := c.arg5.toNat + 2 ^ 32 * c.arg6.toNat
  let src := s.domSrc d
  if !(src == 0 || (src == 3 && s.mgmt.acting)) then s.refuse r stConflict (argOff 0) 0
  else if op == 3 || a / 1024 != 0 || fld a 7 1 != 0 then s.refuse r stConflict (argOff 0) 0
  else if c1 != 0 && decide (c1 < s.now) then s.refuse r stConflict (argOff 5) 0
  else
    let v := toSigned 96 (c.arg1.toNat + 2 ^ 32 * c.arg2.toNat + 2 ^ 64 * c.arg3.toNat)
    let x : TuPend := { dom := d, op := op, v := v, rate := toSigned 32 c.arg4.toNat, at_ := c1, cmd := r }
    if c1 == 0 then s.applyTuSet x s.now else s.modTime fun t => { t with pend := t.pend ++ [x] }

def execTuSet (c : RingCmd) (s : State) : Host.Outcome State Fault Refusal :=
  .next (s.startCmd 0x50 true c fun r s => s.tuSet c r)

/-- TU_SET_APPLY: C has reached the apply counter of the earliest waiting TU_SET. -/
def execTuSetApply (s : State) : Host.Outcome State Fault Refusal :=
  .next (match minBy (·.at_) s.time.pend with
    | none => s
    | some x =>
      if s.now < x.at_ then s
      else match takeFirst (· == x) s.time.pend with
        | some (_, rest) => (s.modTime fun t => { t with pend := rest }).applyTuSet x x.at_
        | none => s)

/-- TU_LABEL (0x51): refused while another waits for its switch counter, or with a DEST that is no DEST of the tenant. -/
def State.tuLabel (s : State) (c : RingCmd) (r : CmdRef) : State :=
  let dest := fld c.arg1.toNat 15 0
  if (s.fn c.fn).labelPend.isSome then s.refuse r stConflict noField 0
  else if !s.destOk c.fn dest then s.refuse r stConflict (argOff 1) 0
  else s.modFn c.fn fun f => { f with labelPend := some { dom := c.arg0.toNat % 2, dest := dest, t0 := s.now, cmd := r } }

def execTuLabel (c : RingCmd) (s : State) : Host.Outcome State Fault Refusal :=
  .next (s.startCmd 0x51 false c fun r s => s.tuLabel c r)

/-! ### References and pulses (R344 to R350) -/

/-- The changed setup of the block goes to the warm image (R365); the model's image is the committed table itself. -/
def State.writeWarmImage (s : State) : State :=
  s.modRst fun r => { r with warmImg := s.comm, imageSet := true, warmSlot := !r.warmSlot, nvfsBusy := true }

/-- REF_SET (0x52): QL and PRIO of an input; the QL of CHAIN is read-only (Table 13.8). -/
def State.refSet (s : State) (c : RingCmd) (r : CmdRef) : State :=
  let x := fld c.arg0.toNat 2 0
  if 3 < x then s.refuse r stConflict (argOff 0) 0
  else
    let ql := fld c.arg0.toNat 11 8 * 2 ^ 24
    let prio := fld c.arg0.toNat 18 16 * 2 ^ 16
    let mask := if x == 3 then 0x00070000 else 0x0F070000
    let off := 0xD00100 + 4 * x
    let s := s.setBoth off (mergeBits mask (s.reg off) (ql + prio))
    ((s.reselect).writeWarmImage).complete r stOK 0 0

def execRefSet (c : RingCmd) (s : State) : Host.Outcome State Fault Refusal :=
  .next (s.startCmd 0x52 true c fun r s => s.refSet c r)

/-- Nominal edges in a 10 µs window: 100 at 10 MHz, 1,000 at 100 MHz; CHAIN's forwarded clock at 2.5 GHz gives 25,000. -/
def State.refNominal (s : State) (x : Nat) : Nat :=
  if x == 3 then 25000 else if bit (s.refCfg x) 31 then 1000 else 100

/-- REF_ACTIVITY_WINDOW: a count outside ±25 % fails the input (Table 13.4). Pulse inputs are watched by their edges. -/
def execRefActivityWindow (x : RefInput) (count : Nat) (s : State) : Host.Outcome State Fault Refusal :=
  .next (if 4 ≤ x.val || !s.time.running then s
    else
      let n := s.refNominal x
      if 3 * n ≤ 4 * count && 4 * count ≤ 5 * n then s else s.refFail x)

/-- REF_GATE: a 1 s gate of C ends with the input's offset from the root (R345). -/
def execRefGate (x : RefInput) (offsetPpb : Int) (s : State) : Host.Outcome State Fault Refusal :=
  .next (if 4 ≤ x.val || !s.time.running then s else s.refGateAt x offsetPpb)

/-- REF_WTR_EXPIRY: WAIT ends in QUALIFIED (Table 13.4). -/
def execRefWtrExpiry (x : RefInput) (s : State) : Host.Outcome State Fault Refusal :=
  .next (if (s.ref x).st == .wait then
      ((s.modRef x fun r => { r with st := .qualified, badGates := 0 }).postQual x).afterQual x
    else s)

/-- MFP_CFG.PPS_EN bit of a pulse input. -/
def State.ppsOn (s : State) (i : Nat) : Bool := bit (s.reg 0xF00000) (16 + i)

/-- The error of a pulse edge: the edge plus TU_PPS_DELAY of the domain against its nearest whole second (R334). -/
def State.ppsError (s : State) (d c : Nat) : Int :=
  let t := (s.dom d).time c + toSigned 32 (s.reg (0xD00008 + 4 * d)) * 4294967296
  (t + secUnits / 2) % secUnits - secUnits / 2

/-- A captured edge of a pulse input: the period from the last one is a gate, with 1 ns per s as 1 ppb; one that is off by
more than 1 µs fails the input, and a new period starts. A qualified edge steers its domains. -/
def State.ppsCapture (s : State) (i : Nat) : State :=
  let x := 4 + i
  let r := s.ref x
  let c := s.now
  let s := s.modRef x fun r => { r with cap := c, capped := true }
  let period : Int := (c : Int) - r.cap
  let off : Int := rneDiv ((period - 1250000000) * 8) 10
  let fresh (s : State) : State := s.modRef x fun r => { r with activityOk := true }
  let s := if !r.capped then fresh s
    else if period < 1250000000 - 1250 || 1250000000 + 1250 < period then fresh (s.refFail x)
    else s.refGateAt x off
  if (s.ref x).st == .qualified && !s.inReset 36 then
    s.forEach [0, 1] fun s d => if s.domSrc d == 1 + i then s.servo d (s.ppsError d c) else s
  else s

/-- PPS_EDGE: a rising edge on PPS_A or PPS_B, kept only while the input is enabled. -/
def execPpsEdge (i : Fin 2) (s : State) : Host.Outcome State Fault Refusal :=
  .next (if s.ppsOn i && s.time.running then s.ppsCapture i else s)

/-- PPS_NO_EDGE: no edge within 1 s + 1 µs of the last (Table 13.4). -/
def execPpsNoEdge (i : Fin 2) (s : State) : Host.Outcome State Fault Refusal :=
  .next (if s.ppsOn i && (s.ref (4 + i)).capped then s.refFail (4 + i) else s)

/-- EXT_TRIG: a rising edge on MFP3 in that function is captured as PPS_B's unit would, and posted unless it follows
within 1 µs of one (R394). -/
def execExtTrig (s : State) : Host.Outcome State Fault Refusal :=
  .next (if fld (s.reg 0xF00000) 7 6 != 2 || !s.time.running then s
    else
      let c := s.now
      let s := s.modRef 5 fun r => { r with cap := c, capped := true }
      match s.time.lastTrig with
      | some t =>
        if c < t + 1250 then s
        else (s.modTime fun x => { x with lastTrig := some c }).postEvt 0 0x34 0 15 0 (c % 2 ^ 32) (c / 2 ^ 32)
      | none => (s.modTime fun x => { x with lastTrig := some c }).postEvt 0 0x34 0 15 0 (c % 2 ^ 32) (c / 2 ^ 32))

/-- A write of REF_LOOP: BW = 3 keeps its value; MODE takes the loop to that mode, or to HOLDOVER without a candidate. -/
def State.writeRefLoop (s : State) (v : Nat) : State :=
  let mask := if fld v 17 16 == 3 then 0xFF00FFFF else 0xFF03FFFF
  let s := s.setBoth 0xD00140 (mergeBits mask s.refLoop v)
  let s := s.reselect
  match s.time.active with
  | none => s.setLoop .holdover
  | some _ => s.setLoop s.loopMode

def execRefLoopWrite (v : W32) (s : State) : Host.Outcome State Fault Refusal :=
  .next (s.bar2Write fun s => s.writeRefLoop v.toNat)

/-- A write of ROOT_STEER, clamped to ±2^24; it ends HOLDOVER under MODE OPEN with a candidate selected (Table 13.5). -/
def State.writeRootSteer (s : State) (v : Nat) : State :=
  let x := clampI (-16777216) 16777216 (toSigned 32 v)
  let s := s.setBoth 0xD0014C (ofSigned 32 x)
  let s := s.modTime fun t => { t with steer := x, steered := true }
  if s.time.loop == .holdover && s.loopMode == .opened && s.time.active.isSome then s.setLoop .opened else s

def execRootSteerWrite (v : W32) (s : State) : Host.Outcome State Fault Refusal :=
  .next (s.bar2Write fun s => s.writeRootSteer v.toNat)

/-- OPEN_TIMEOUT: no write to ROOT_STEER for OPEN_TO ms (Table 13.5). -/
def execOpenTimeout (s : State) : Host.Outcome State Fault Refusal :=
  .next (if s.time.loop == .opened then s.setLoop .holdover else s)

/-- The root moves toward ROOT_STEER by at most 2^14 × 2^-40 per ms (R348). -/
def slewTo (cur target : Int) : Int := cur + clampI (-16384) 16384 (target - cur)

/-- PHASE_REPORT: under OPEN, every 1 ms, the report is written with the next sequence number (R348, R349). -/
def execPhaseReport (phase : W32) (s : State) : Host.Outcome State Fault Refusal :=
  .next (if s.time.loop == .opened then
      s.modTime fun t => { t with phase := phase, phaseSeq := t.phaseSeq + 1, freq := slewTo t.freq t.steer }
    else s)

/-- REF_PHASE_READ latches the report's sequence number into REF_PHASE_SEQ (R349). -/
def execRefPhaseRead (s : State) : Host.Outcome State Fault Refusal :=
  .next (if s.ready then
      (s.modTime fun t => { t with seqLatch := t.phaseSeq }).emit (.read 0 s.time.phase)
    else if s.hostOut then s.emit (.read 0 0) else s)

end Sys2Proof.Machine
end

