-- ==== Sys2Proof/Machine/Ingest.lean ====
section
/-! DEFINITION. Ingest: the packet checks, the stream rules, the lane FIFO and its divot markers, the corner turn's read
of a FIFO, divot records, and the close of a block on a die (Chapter 2, R59 to R71). -/
namespace Sys2Proof.Machine

open Sys2Proof

/-! ### Packets (R59 to R61) -/

/-- The header fields of Table 2.5 and the samples of the payload. -/
structure Packet where
  version : Nat := 0
  laneSeq : Nat := 0
  lmset   : Nat := 0
  invalid : Bool := false
  sat     : Bool := false
  sig     : Nat := 0
  cnt     : Nat := 0
  ctr     : Nat := 0
  ch      : Nat := 0
  samples : List Cx := []
deriving DecidableEq, Repr

/-- Samples of 8-bit mode: real part in the lower byte (R60). -/
def samples8 : List Byte → List Cx
  | a :: b :: r => { re := toSigned 8 a.toNat, im := toSigned 8 b.toNat } :: samples8 r
  | _ => []

/-- Samples of 4-bit mode: real part in bits 3:0 (R60). -/
def samples4 (bs : List Byte) : List Cx :=
  bs.map fun b => { re := toSigned 4 (b.toNat % 16), im := toSigned 4 (b.toNat / 16) }

def parsePacket (mode4 : Bool) (bs : List Byte) : Packet :=
  let flags := leAt bs 3 1
  let pay := (bs.drop 16).take 1024
  { version := leAt bs 0 1, laneSeq := leAt bs 1 1, lmset := leAt bs 2 1, invalid := bit flags 7, sat := bit flags 6,
    sig := leAt bs 4 2, cnt := leAt bs 6 2, ctr := leAt bs 8 6, ch := leAt bs 14 2,
    samples := if mode4 then samples4 pay else samples8 pay }

/-- Time samples per packet N (R60). -/
def State.timeSamples (s : State) (cnt : Nat) : Nat := (if s.mode4 then 1024 else 512) / cnt

/-- Check 3 of Table 2.6. -/
def State.headerOk (s : State) (p : Packet) : Bool :=
  p.version == 1 && isPow2 p.cnt && decide (p.cnt ≤ if s.mode4 then 1024 else 512)
    && p.ctr % s.timeSamples p.cnt == 0 && decide (p.sig + p.cnt ≤ 4096)

/-- The die-local channel of a chain-global channel, where die `d` owns it (check 4). -/
def State.localCh (s : State) (d ch : Nat) : Option Nat :=
  if s.chBase ≤ ch && (ch - s.chBase) / s.chPerDie == d then some ((ch - s.chBase) % s.chPerDie) else none

/-- The lane-map set that holds for a counter, a pending switch left aside: the old set below the last T (R64). -/
def Die.baseSet (d : Die) (ctr : Nat) : Nat :=
  match d.oldSet with
  | some (t, old) => if ctr < t then old else d.lmset
  | none => d.lmset

/-- The lane-map set accepted for a counter (check 5, R64). -/
def Die.setFor (d : Die) (ctr : Nat) : Nat :=
  match d.switch with
  | some (set, t) => if t ≤ ctr then set else d.baseSet ctr
  | none => d.baseSet ctr

/-- Check 6: the lane's entry in the set is VALID, for this channel and signal range. -/
def State.mapOk (s : State) (d lane set ch : Nat) (p : Packet) : Bool :=
  let w := s.reg (0x201000 + 0x200 * (4 * d + set) + 4 * lane)
  bit w 31 && (fld w 27 24 == 0xF || fld w 27 24 == ch) && decide (fld w 11 0 ≤ p.sig) && decide (p.sig + p.cnt - 1 ≤ fld w 23 12)

def Stream.isOf (x : Stream) (ch : Nat) (p : Packet) : Bool := x.ch == ch && x.sig == p.sig && x.cnt == p.cnt

/-! ### FIFO and markers (R67 to R70) -/

def FifoItem.words (i : FifoItem) : Nat := match i with | .pkt .. => 130 | .marker _ => 1 | .gap .. => 0

def Lane.words (l : Lane) : Nat := sumN (l.fifo.map FifoItem.words)

/-- Spill chunks that `w` FIFO words need: 7 words in each 64-byte transfer, 1,024 transfers in a chunk (R69). -/
def chunksFor (w : Nat) : Nat := ceilDiv (w - 2048) 7168

/-- Chunks in use on a die (ING_DIE_STAT_d.SPILL_USED). -/
def State.spillUsed (s : State) (d : Nat) : Nat :=
  sumN ((List.range 72).map fun l => chunksFor (s.lane (72 * d + l)).words)

/-- A FIFO cannot take a packet of 130 words: its tail is full and no further chunk can be had (R70). -/
def State.fifoFull (s : State) (x : Nat) : Bool :=
  let d := x / 72
  let w := (s.lane x).words
  let need := chunksFor (w + 130)
  let cap := s.fieldOf (0x200104 + 8 * d) 15 0
  let region := 1024 * s.fieldOf (0x200100 + 8 * d) 10 0
  decide (chunksFor w < need) && (decide (cap < need) || decide (region < s.spillUsed d - chunksFor w + need))

/-- The planning period that a counter lies in (R36). -/
def State.periodOf (s : State) (ctr : Nat) : Nat := ctr / s.grid.period

/-- Lost counters `lo` to `hi` of one period join the stream's open marker, or open one; an open marker of an earlier
period is closed, and a third marker discards the oldest (R70). `drop` is the drop count they bring. -/
def Stream.addLost (x : Stream) (period lo hi drop ord : Nat) : Stream :=
  match x.openM with
  | some m =>
    if m.period == period then
      { x with openM := some { m with lo := min m.lo lo, hi := max m.hi hi, drops := satTo 0xFFFF (m.drops + drop) } }
    else
      { x with closedM := some m,
               openM := some { ch := x.ch, sig := x.sig, cnt := x.cnt, lo := lo, hi := hi, drops := drop, period := period, ord := ord } }
  | none =>
    { x with openM := some { ch := x.ch, sig := x.sig, cnt := x.cnt, lo := lo, hi := hi, drops := drop, period := period, ord := ord } }

/-- The pieces of a counter range at multiples of P. -/
def splitAt (p lo hi : Nat) : List (Nat × Nat) :=
  if hi < lo then [] else
  (List.range (hi / p - lo / p + 1)).map fun i => (max lo ((lo / p + i) * p), min hi ((lo / p + i + 1) * p - 1))

/-- FIFO_DROP: the newest packet is dropped; the counters of the gap it revealed and its own are lost (R70). -/
def Stream.dropPacket (x : Stream) (p ord gapLo ctr n : Nat) : Stream :=
  let x := (splitAt p gapLo (ctr - 1)).foldl (fun x e => if gapLo < ctr then x.addLost (e.1 / p) e.1 e.2 0 ord else x) x
  x.addLost (ctr / p) ctr (ctr + n - 1) 1 ord

/-- The markers of a lane in their order of opening. -/
def Lane.markers (l : Lane) : List Marker :=
  sortBy (·.ord) (l.streams.flatMap fun x => x.closedM.toList ++ x.openM.toList)

def Lane.clearMarkers (l : Lane) : Lane :=
  { l with streams := l.streams.map fun x => { x with openM := none, closedM := none } }

/-- Markers enter the FIFO ahead of the next packet; one whose period has closed is discarded (R70). -/
def Lane.pushMarkers (l : Lane) (p closed : Nat) : Lane :=
  { l.clearMarkers with fifo := l.fifo ++ ((l.markers.filter fun m => decide (closed < (m.period + 1) * p)).map FifoItem.marker) }

/-! ### INGEST_PACKET (R61 to R64) -/

def State.bumpLane (s : State) (x : Nat) (f : Lane → Lane) : State := s.modLane x f

def sat32 (n : Nat) : Nat := satTo 0xFFFFFFFF (n + 1)

/-- LANE_MAP_SWITCH_REACHED: a lane of the die first accepts a packet at or past T (R64). -/
def Die.reachSwitch (d : Die) (ctr : Nat) : Die :=
  match d.switch with
  | some (set, t) => if t ≤ ctr then { d with switch := none, oldSet := some (t, d.lmset), lmset := set } else d
  | none => d

/-- The gap that an accepted packet reveals: none, or its cause and first counter (R63). -/
def gapOf (x : Stream) (l : Lane) (p : Packet) : Option (Nat × Nat) :=
  if x.downOpen then (if x.next < p.ctr then some (4, x.next) else none)
  else if p.ctr ≤ x.next then none
  else if l.lastSeq == some (BitVec.ofNat 8 (p.laneSeq + 255)) then some (6, x.next) else some (2, x.next)

/-- Key of a coarse sample by channel, signal and counter. -/
def sampleKey (ch sig ctr : Nat) : Nat := (ch * 4096 + sig) * 2 ^ 48 + ctr

/-- Write the samples of a packet, time-major, into a sample table. -/
def putSamples (t : Tab (Option Cx)) (ch sig cnt ctr : Nat) (xs : List Cx) : Tab (Option Cx) :=
  let a := xs.toArray
  mergeT t ((List.range cnt).flatMap fun i => (List.range (xs.length / cnt)).map fun n =>
    (sampleKey ch (sig + i) (ctr + n), some (a.getD (n * cnt + i) {})))

/-- The direct sample buffer takes a valid packet as it enters its FIFO, what lies below the next sweep left out (R122). -/
def Die.feedDirect (y : Die) (ch : Nat) (p : Packet) : Die :=
  let n := y.sweepNext.getD (p.ctr / 64)
  let y : Die := { y with sweepNext := some n }
  if p.invalid then y
  else { y with direct := (putSamples y.direct ch p.sig p.cnt p.ctr p.samples).filter fun e => decide (64 * n ≤ e.1 % 2 ^ 48) }

/-- A packet that passed check 7, on its stream `x`: Table 2.7, and then the FIFO. -/
def State.streamPacket (s : State) (lane ch : Nat) (x : Stream) (isNew : Bool) (p : Packet) : State :=
  let l := s.lane lane
  let n := s.timeSamples p.cnt
  if !isNew && p.ctr < x.next then s.modLane lane fun l => { l with orderErr := sat32 l.orderErr }
  else
    let gap := if isNew then none else gapOf x l p
    let x := { x with next := p.ctr + n, downOpen := false }
    let put (y : Stream) (l : Lane) : Lane := { l with streams := mapIf (fun z => z.isOf ch p) (fun _ => y) l.streams }
    let s := s.modDie (lane / 72) fun d =>
      { (d.reachSwitch p.ctr) with highCtr := some (max p.ctr (d.highCtr.getD 0)) }
    let s := s.modLane lane fun l => { l with lastSeq := some (BitVec.ofNat 8 p.laneSeq) }
    let closed := (s.die (lane / 72)).closed
    if s.fifoFull lane then
      let lo := match gap with | some (c, g) => if c == 4 then p.ctr else g | none => p.ctr
      let down := match gap with | some (4, g) => [FifoItem.gap 4 ch p.sig p.cnt g (p.ctr - 1)] | _ => []
      s.modLane lane fun l =>
        { put (x.dropPacket s.grid.period l.marks lo p.ctr n) l with drops := sat32 l.drops, marks := l.marks + 1, fifo := l.fifo ++ down }
    else
      (s.modDie (lane / 72) fun y => y.feedDirect ch p).modLane lane fun l =>
        let l := (put x l).pushMarkers s.grid.period closed
        let g := match gap with | some (c, g) => [FifoItem.gap (BitVec.ofNat 8 c) ch p.sig p.cnt g (p.ctr - 1)] | none => []
        { l with fifo := l.fifo ++ g ++ [.pkt ch p.sig p.cnt p.ctr p.invalid p.sat p.samples] }

/-- INGEST_PACKET: the checks of Table 2.6 in order, the first that fails being counted. -/
def State.ingestPacket (s : State) (lane : Nat) (framed : Bool) (bs : List Byte) : State :=
  let d := lane / 72
  if (s.lane lane).st != .active then s
  else if !framed || bs.length != 1044 || crc32 (bs.take 1040) != leAt bs 1040 4 then
    s.modLane lane fun l => { l with crcErr := sat32 l.crcErr }
  else
    let p := parsePacket s.mode4 bs
    if !s.headerOk p then s.modLane lane fun l => { l with hdrErr := sat32 l.hdrErr }
    else match s.localCh d p.ch with
      | none => s.modLane lane fun l => { l with mapErr := sat32 l.mapErr }
      | some ch =>
        let set := (s.die d).setFor p.ctr
        if p.lmset != set || !s.mapOk d (lane % 72) set ch p then s.modLane lane fun l => { l with mapErr := sat32 l.mapErr }
        else match (s.lane lane).streams.find? (fun x => x.isOf ch p) with
          | some x =>
            let s := s.arrive p.ctr
            let s := s.modLane lane fun l => { l with streams := mapIf (fun z => z.isOf ch p) (fun z => { z with seen := true }) l.streams }
            s.streamPacket lane ch { x with seen := true } false p
          | none =>
            if 16 ≤ (s.lane lane).streams.length then s.modLane lane fun l => { l with streamOvf := sat32 l.streamOvf }
            else
              let s := s.arrive p.ctr
              let x : Stream := { ch := ch, sig := p.sig, cnt := p.cnt, next := p.ctr, left := p.ctr }
              let s := s.modLane lane fun l => { l with streams := l.streams ++ [x] }
              s.streamPacket lane ch x true p

/-! ### Divots (R71) -/

/-- A plan that a divot or flag piece may touch: number, kind (0 subarray, 1 beam plan), tenant, DEST, BLOCK of the piece. -/
structure Touched where
  num    : Nat
  kind   : Nat
  tenant : Nat
  dest   : Nat
  block  : Nat
deriving DecidableEq, Repr

/-- Block of a counter in a plan whose first block starts at S_0. -/
def blockOf (s0 len ctr : Nat) : Nat := (max ctr s0 - s0) / len

def PlanStatus.runs (p : PlanStatus) : Bool := p == .running || p == .stopping

def inRange (l : List Nat) (sig cnt : Nat) : Bool := l.any fun x => decide (sig ≤ x) && decide (x < sig + cnt)

/-- The running plans that a piece touches, by rising number (R71). -/
def State.touchedPlans (s : State) (pl sig cnt lo hi : Nat) : List Touched :=
  let a := s.subs.filterMap fun e => match e.2.first with
    | some s0 =>
      if e.2.status.runs && e.2.chans.contains pl && inRange e.2.sigs sig cnt && decide (s0 ≤ hi)
          && !(e.2.stopAt.any fun t => decide (t ≤ lo)) then
        some { num := e.1, kind := 0, tenant := e.2.tenant, dest := e.2.dest, block := blockOf s0 e.2.len lo : Touched }
      else none
    | none => none
  let b := s.beams.filterMap fun e => match e.2.first with
    | some s0 =>
      if e.2.status.runs && e.2.chans.contains pl && inRange e.2.sigs sig cnt && decide (s0 ≤ hi)
          && !(e.2.stopAt.any fun t => decide (t ≤ lo)) then
        some { num := e.1, kind := 1, tenant := e.2.tenant, dest := e.2.dest,
               block := if e.2.src == .direct then max lo s0 / 2 ^ 20 else blockOf s0 e.2.len lo : Touched }
      else none
    | none => none
  sortBy (·.num) (a ++ b)

def dedupBy {α : Type} (same : α → α → Bool) (l : List α) : List α :=
  l.foldl (fun acc x => if acc.any (same x) then acc else acc ++ [x]) []

/-- Table 2.8. -/
def divotBody (lane cause sig cnt drops ch hi : Nat) : List Byte :=
  rows [cause * 2 ^ 24 + lane, (sig + cnt - 1) * 2 ^ 16 + sig, drops * 2 ^ 16 + ch % 65536, hi % 2 ^ 32, hi / 2 ^ 32, 0]

/-- DIVOT_RECORD: one copy for each destination, one event for each tenant, or one for the PF where no running plan is
touched (R71). `ch` is die-local. -/
def State.divotPiece (s : State) (d lane cause ch sig cnt lo hi drops : Nat) : State :=
  let pl := ch + d * s.chPerDie
  let ts := s.touchedPlans pl sig cnt lo hi
  let lost := hi - lo + 1
  if ts.isEmpty then s.postStatus 0 stDivot 4 lane (lo / 1024 % 2 ^ 32) lost
  else
    let copies := dedupBy (fun a b => a.tenant == b.tenant && a.dest == b.dest) ts
    let s := s.modRst fun r => { r with divotAt := some s.now }
    let s := s.forEach copies fun s t =>
      let r := s.mkRec 0x07 t.tenant t.num t.block lo
        (divotBody lane cause sig cnt (if 4 ≤ cause then 0 else drops) (s.chBase + pl) hi)
      (s.emitDie d t.dest r).1
    s.forEach (dedupBy (fun a b => a.tenant == b.tenant) ts) fun s t =>
      s.postStatus t.tenant stDivot t.kind t.num t.block lost

/-- A divot split at the planning boundaries, the part in a closed period left out (R65, R71). -/
def State.divot (s : State) (d lane cause ch sig cnt lo hi drops : Nat) : State :=
  s.forEach (splitAt s.grid.period lo hi) fun s e => s.divotPiece d lane cause ch sig cnt e.1 e.2 drops

/-! ### The corner turn's read and the close of a block (R65, R66, R68) -/

/-- First counter after the block that is being filled. -/
def State.blockEnd (s : State) : Nat := s.grid.start + s.grid.period

def streamIs (ch sig cnt : Nat) (x : Stream) : Bool := x.ch == ch && x.sig == sig && x.cnt == cnt

def State.modStream (s : State) (lane ch sig cnt : Nat) (f : Stream → Stream) : State :=
  s.modLane lane fun l => { l with streams := mapIf (streamIs ch sig cnt) f l.streams }

/-- A run of INVALID packets of a stream ends: its SOURCE_INVALID divot (R65). -/
def State.flushInv (s : State) (d lane : Nat) (x : Stream) : State :=
  match x.inv with
  | none => s
  | some (lo, hi) => (s.modStream lane x.ch x.sig x.cnt fun x => { x with inv := none }).divot d lane 5 x.ch x.sig x.cnt lo hi 0

def State.findStream (s : State) (lane ch sig cnt : Nat) : Option Stream :=
  (s.lane lane).streams.find? (streamIs ch sig cnt)

/-- The samples of one packet enter the corner turn: INVALID ones join the stream's run, others are stored; SRC_SAT
counts those of packets with SAT (R65, R84). -/
def State.takePacket (s : State) (d lane ch sig cnt ctr : Nat) (invalid sat : Bool) (xs : List Cx) : State :=
  let n := s.timeSamples cnt
  let st := s.findStream lane ch sig cnt
  let s := if invalid then
      s.modStream lane ch sig cnt fun x => { x with inv := match x.inv with
        | some (lo, hi) => if hi + 1 == ctr then some (lo, ctr + n - 1) else some (ctr, ctr + n - 1)
        | none => some (ctr, ctr + n - 1) }
    else match st with
      | some x => s.flushInv d lane x
      | none => s
  let s := match st with
    | none => if invalid then s.divot d lane 5 ch sig cnt ctr (ctr + n - 1) 0 else s
    | some _ => s
  let s := s.modStream lane ch sig cnt fun x => { x with left := max x.left (ctr + n) }
  s.modDie d fun y =>
    let iv := 16384 * 2 ^ s.fieldOf 0x300000 21 18
    let sats := if sat then (List.range cnt).foldl (fun t i =>
        modT 0 t ((ctr / iv) * 65536 + ch * 4096 + sig + i) (· + n)) y.srcSat else y.srcSat
    { y with requantTo := max y.requantTo (ctr + n), coarse := if invalid then y.coarse else putSamples y.coarse ch sig cnt ctr xs, srcSat := sats }

/-- A divot range leaves the FIFO: the part of closed periods is left out, the part of later blocks waits. -/
def State.takeGap (s : State) (d lane cause ch sig cnt lo hi drops : Nat) : State :=
  let lo := max lo (s.die d).closed
  let s := match s.findStream lane ch sig cnt with
    | some x => s.flushInv d lane x
    | none => s
  let s := s.modStream lane ch sig cnt fun x => { x with left := max x.left (hi + 1) }
  if hi < lo then s else s.divot d lane cause ch sig cnt lo hi drops

/-- FIRST_BLOCK_SET: the first sample to leave a FIFO fixes the first block (R66). -/
def State.fixFirst (s : State) (ctr : Nat) : State :=
  match s.grid.firstCtr with
  | some _ => s
  | none => s.modGrid fun g => { g with firstCtr := some ctr, start := ceilDiv ctr g.period * g.period }

def State.popFifo (s : State) (lane : Nat) : State := s.modLane lane fun l => { l with fifo := l.fifo.drop 1 }

/-- CORNER_TURN_READ of the head of a lane's FIFO. A packet of a later block is held; one of a closed block is discarded
and counted; before the first boundary, samples below it are discarded and the rest held (R65, R66, R68). -/
def State.readFifo (s : State) (d lane : Nat) (ecc : EccResult) : State :=
  match (s.lane lane).fifo with
  | [] => s
  | .pkt ch sig cnt ctr invalid sat xs :: _ =>
    let n := s.timeSamples cnt
    let s := s.fixFirst ctr
    if !s.grid.started && decide (s.grid.start ≤ ctr) then s
    else if s.grid.started && decide (s.blockEnd ≤ ctr) then s
    else
      let s := s.modLane lane fun l => { l with eccCe := satTo 0xFFFFFFFF (l.eccCe + ecc.corrected) }
      if !s.grid.started then
        (s.popFifo lane).modStream lane ch sig cnt fun x => { x with left := max x.left (ctr + n) }
      else if ctr < (s.die d).closed then
        (s.popFifo lane).modDie d fun y => { y with lateDiscard := satTo 0xFFF (y.lateDiscard + 1) }
      else if ecc.double then
        ((s.popFifo lane).modLane lane fun l => { l with drops := sat32 l.drops }).takeGap d lane 3 ch sig cnt ctr (ctr + n - 1) 1
      else (s.popFifo lane).takePacket d lane ch sig cnt ctr invalid sat xs
  | .marker m :: _ =>
    if !s.grid.started || decide (s.blockEnd ≤ m.lo) then s
    else (s.popFifo lane).takeGap d lane 1 m.ch m.sig m.cnt m.lo m.hi m.drops
  | .gap cause ch sig cnt lo hi :: _ =>
    if !s.grid.started || decide (s.blockEnd ≤ lo) then s
    else if s.blockEnd ≤ hi then
      (s.modLane lane fun l => { l with fifo := .gap cause ch sig cnt s.blockEnd hi :: l.fifo.drop 1 }).takeGap d lane
        cause.toNat ch sig cnt lo (s.blockEnd - 1) 0
    else (s.popFifo lane).takeGap d lane cause.toNat ch sig cnt lo hi 0

def dieLanes (d : Nat) : List Nat := (List.range 72).map (72 * d + ·)

/-- Every stream of the die, with its lane. -/
def State.dieStreams (s : State) (d : Nat) : List (Nat × Stream) :=
  (dieLanes d).flatMap fun x => (s.lane x).streams.map fun y => (x, y)

def State.activeStreams (s : State) (d : Nat) : List (Nat × Stream) :=
  (s.dieStreams d).filter fun e => (s.lane e.1).st == .active

/-- The die has reported its close of the block being filled (R66). -/
def State.dieClosed (s : State) (d : Nat) : Bool := decide (s.blockEnd ≤ (s.die d).closed)

/-- BLOCK_CLOSE: missing samples become divots, LATE on an ACTIVE lane and LANE_DOWN on another; streams without a
packet since the last close are retired (R62, R65). -/
def State.closeDie (s : State) (d : Nat) : State :=
  let end_ := s.blockEnd
  let s := s.forEach (s.dieStreams d) fun s e =>
    let x := e.2
    let s := s.flushInv d e.1 x
    let lo := max x.left s.grid.start
    if lo < end_ then
      (s.modStream e.1 x.ch x.sig x.cnt fun x => { x with left := end_ }).divot d e.1
        (if (s.lane e.1).st == .active then 7 else 4) x.ch x.sig x.cnt lo (end_ - 1) 0
    else s
  let s := s.forEach (dieLanes d) fun s x =>
    if (s.lane x).streams.isEmpty then s
    else s.modLane x fun l => { l with streams := (l.streams.filter (·.seen)).map fun y => { y with seen := false } }
  s.modDie d fun y => { y with closed := end_ }

/-- A die closes once every stream on an ACTIVE lane has delivered all its samples of the block (R65). -/
def State.tryClose (s : State) (d : Nat) : State :=
  if s.grid.started && s.dieOn d && !s.dieClosed d
      && (s.activeStreams d).all (fun e => decide (s.blockEnd ≤ e.2.left)) then s.closeDie d
  else s

/-- A sample at or past the end of the block being filled has been delivered (R65, R66). -/
def State.laterDelivered (s : State) (d bound : Nat) : Bool :=
  (s.dieStreams d).any fun e => decide (bound < e.2.next)

def execCornerTurnRead (die : Fin 4) (lane : Fin 72) (ecc : EccResult) (s : State) : Host.Outcome State Fault Refusal :=
  .next (if s.dieOn die && !s.inReset (4 + 2 * die) && !s.inReset (5 + 2 * die) then (s.readFifo die (72 * die + lane) ecc).tryClose die else s)

end Sys2Proof.Machine
end

