-- ==== Sys2Proof/Machine/Pool.lean ====
section
/-! DEFINITION. The HBM map and pool of a die: regions, granules held, and the checks of R92. -/
namespace Sys2Proof.Machine

open Sys2Proof

/-- Granules of 2 MiB in a die's pool after the committed regions are taken out (Table 3.3). -/
def State.poolSize (s : State) (d : Nat) : Nat :=
  36864 - 512 - 32 * s.fieldOf (0x200100 + 8 * d) 10 0 - 32 * s.fieldOf (0x400010 + 4 * d) 10 0

/-- Bytes per sample w (R87). -/
def State.sampleBytes (s : State) : Nat := if s.mode4 then 1 else 2

def roundUp16 (n : Nat) : Nat := (n + 15) / 16 * 16

/-- The coarse channels of a list that lie on die `d`. -/
def State.chansOn (s : State) (d : Nat) (chans : List Nat) : List Nat := chans.filter (fun c => s.dieOfCh c == d)

/-- Granules of a corner-turn buffer on die `d`: 2H rounded up (R87). -/
def State.bufferGranules (s : State) (d sigs len : Nat) (chans : List Nat) : Nat :=
  ceilDiv (2 * (s.chansOn d chans).length * roundUp16 sigs * len * s.sampleBytes) 2097152

def PlanStatus.holds (p : PlanStatus) : Bool := p == .running || p == .stopping

def Sub.granules (x : Sub) (s : State) (d : Nat) : Nat := s.bufferGranules d x.sigs.length x.len x.chans

/-- Beam jobs of a plan on a die (R130). -/
def Beam.jobsOn (x : Beam) (s : State) (d : Nat) : Nat :=
  roundUp16 x.beams / 16 * (roundUp16 x.sigs.length / 16) * (s.chansOn d x.chans).length * (if x.src == .fine then s.numF else 1)

/-- Granules of a beam plan: two weight copies of 1 KiB a job (R132), and the buffer of a buffered plan that reads no
other's (R90). -/
def Beam.granules (x : Beam) (s : State) (d : Nat) : Nat :=
  2 * ceilDiv (x.jobsOn s d) 2048
    + (if x.src == .direct || x.srcSub.isSome then 0 else s.bufferGranules d x.sigs.length x.len x.chans)

/-- Granules that a tenant holds on a die: plans and allocations. -/
def State.granulesOf (s : State) (t d : Nat) : Nat :=
  sumN (s.subs.map fun e => if e.2.tenant == t && e.2.status.holds then e.2.granules s d else 0)
    + sumN (s.beams.map fun e => if e.2.tenant == t && e.2.status.holds then e.2.granules s d else 0)
    + sumN (s.handles.map fun e => match e.2 with
        | some h => if h.tenant == t && h.die == d then h.granules else 0
        | none => 0)

/-- HBM_POOL_d.USED: granules mapped, over every tenant. -/
def State.poolUsed (s : State) (d : Nat) : Nat :=
  sumN (s.subs.map fun e => if e.2.status.holds then e.2.granules s d else 0)
    + sumN (s.beams.map fun e => if e.2.status.holds then e.2.granules s d else 0)
    + sumN (s.handles.map fun e => match e.2 with
        | some h => if h.die == d then h.granules else 0
        | none => 0)

/-- TEN_QH_t_d in granules (Table 11.1). -/
def State.hbmQuota (s : State) (t d : Nat) : Nat := s.fieldOf (tenReg t (0x10 + 4 * d)) 16 0 / 2

inductive Admit where | ok | quota | capacity | deferred
deriving DecidableEq, Repr

/-- R92 items 1 to 3 for `n` granules on one die: quota, then the empty pool, then what is free. -/
def State.checkGranules (s : State) (t d n : Nat) : Admit :=
  if s.hbmQuota t d < s.granulesOf t d + n then .quota
  else if s.poolSize d < s.granulesOf t d + n then .capacity
  else if s.poolSize d < s.poolUsed d + n then .deferred
  else .ok

/-- The worst of two outcomes in the order of R279: quota, capacity, deferral. -/
def Admit.join (a b : Admit) : Admit :=
  if a == .quota || b == .quota then .quota
  else if a == .capacity || b == .capacity then .capacity
  else if a == .deferred || b == .deferred then .deferred else .ok

def Admit.code (a : Admit) : Nat :=
  match a with
  | .ok => stOK | .quota => stQuota | .capacity => stCapacity | .deferred => stDeferred

/-- Plans of a tenant that stand DEFERRED, MEM_ALLOC requests among them (R280). -/
def State.deferredOf (s : State) (t : Nat) : Nat :=
  (s.subs.filter fun e => e.2.tenant == t && e.2.status == .deferred).length
    + (s.beams.filter fun e => e.2.tenant == t && e.2.status == .deferred).length
    + (s.allocs.filter fun a => a.tenant == t).length

/-- The on-deck estimate of `n` granules on a die: the next boundary where the plans that are stopping leave room for them
behind the requests that wait already, else none (R281). -/
def State.onDeck (s : State) (d n : Nat) : Nat :=
  let t : State := { s with subs := s.subs.filter (fun e => e.2.status != .stopping), beams := s.beams.filter fun e => e.2.status != .stopping }
  let ahead := sumN (s.allocs.map fun a => if a.die == d then a.granules else 0)
  if t.poolUsed d + ahead + n ≤ s.poolSize d then 1 else 0xFFFFFFFF

/-- The lowest free number below `n` of a table (R259). -/
def lowestFree (used : Nat → Bool) (n : Nat) : Option Nat := (List.range n).find? (fun k => !used k)

/-- The lowest handle number that is neither held nor promised. -/
def State.freeHandle (s : State) : Option Nat :=
  lowestFree (fun k => (getT none s.handles k).isSome || s.allocs.any (fun a => a.handle == k))
    (min 65536 (s.handles.length + s.allocs.length + 1))

/-- Byte address of an allocation's byte in the model's one HBM memory. -/
def hbmAddr (handle off : Nat) : Nat := handle * 2 ^ 36 + off

def State.hbmRead (s : State) (a n : Nat) : List Byte := getRun 0 s.hbm a n
def State.hbmWrite (s : State) (a : Nat) (bs : List Byte) : State := { s with hbm := setRun 0 s.hbm a bs }

/-- An allocation is released: its granules return to the pool and its contents are gone. -/
def State.freeAlloc (s : State) (h : Nat) : State :=
  { s with handles := setT none s.handles h none, hbm := clearRun s.hbm (hbmAddr h 0) (2 ^ 36) }

end Sys2Proof.Machine
end

