-- ==== Sys2Proof/Machine/Lanes.lean ====
section
/-! DEFINITION. Bring-up of ingest and output groups, the lane commands, CLOSE_WAIT, and what an output lane sends
(Chapter 2, R52 to R58, R64, R72 to R74). -/
namespace Sys2Proof.Machine

open Sys2Proof

/-! ### Ingest groups and their lanes (Table 2.4) -/

def grpLanes (g : Nat) : List Nat := (List.range 8).map (8 * g + ·)

/-- The enable bit of an ingest group, in LANE_EN0 or LANE_EN1.IG_HI. -/
def State.groupEn (s : State) (g : Nat) : Bool :=
  if g < 32 then bit (s.reg 0x200000) g else bit (s.reg 0x200004) (g - 32)

/-- The enable bit of an output group, LANE_EN1.OG. -/
def State.outEn (s : State) (g : Nat) : Bool := bit (s.reg 0x200004) (8 + g)

/-- EVENT LANE of the PF: 1 LANE_ABSENT, 2 GROUP_FAILED, 3 LANE_DEAD, 4 CAPS_MISMATCH (Table 10.9). -/
def State.postLane (s : State) (id what : Nat) : State := s.postEvt 0 0x02 0 4 id what 0

/-- From CAPS on, the group's STATE is ACTIVE while one or more of its lanes are (Table 2.9). -/
def State.gradeGroup (s : State) (g : Nat) : State :=
  let x := s.group g
  if x.st == .caps || x.st == .active then
    s.modGroup g fun x =>
      { x with st := if (grpLanes g).any (fun l => (s.lane l).st == .active) then .active else .caps }
  else s

/-- A LANE_DOWN divot is opened for every stream of a lane (Table 2.4). -/
def Lane.openDown (l : Lane) : Lane := { l with streams := l.streams.map fun x => { x with downOpen := true } }

/-- The lanes of a group are taken out: each stream's open divot is closed as LANE_DOWN up to the highest counter that
the die has met, each pending marker enters the FIFO as FIFO_FULL, and lane state and stream table are cleared. -/
def State.clearGroup (s : State) (g : Nat) : State :=
  let d := g / 9
  let high := (s.die d).highCtr
  let closed := (s.die d).closed
  (s.forEach (grpLanes g) fun s x => s.modLane x fun l =>
    let gaps := match high with
      | none => []
      | some h => (l.streams.filter fun y => decide (y.next ≤ h)).map fun y => FifoItem.gap 4 y.ch y.sig y.cnt y.next h
    let l := l.pushMarkers s.grid.period closed
    { l with st := .down, streams := [], lastSeq := none, fifo := l.fifo ++ gaps }).tryClose d

/-- GROUP_ENABLE: termination, cleared state, DETECT. -/
def State.enableGroup (s : State) (g : Nat) : State :=
  (s.clearGroup g).modGroup g fun x => { st := .detect, srcId := x.srcId }

/-- GROUP_DISABLE. -/
def State.disableGroup (s : State) (g : Nat) : State :=
  (s.clearGroup g).modGroup g fun x => { st := .disabled, srcId := x.srcId }

/-- Back to DETECT with RETRY + 1; at 3 the group is FAILED (Table 2.4). -/
def State.retryGroup (s : State) (g : Nat) : State :=
  let n := (s.group g).retry + 1
  let s := s.modGroup g fun x => { x with retry := n, st := .detect }
  if 3 ≤ n then (s.modGroup g fun x => { x with st := .failed }).postLane (8 * g) 2 else s

/-- One step of the lanes of a group: those in state `was` and in the mask go on to `now`, the others that are not DEAD
become DEAD; with none left the group retries, else it enters `st`. -/
def State.stepLanes (s : State) (g : Nat) (was now : LaneState) (mask : Nat) (st : GrpState) : State :=
  let s := s.forEach (grpLanes g) fun s x => s.modLane x fun l =>
    { l with st := if l.st == was && bit mask (x % 8) then now else .dead }
  if (grpLanes g).any fun x => (s.lane x).st == now then s.modGroup g fun x => { x with st := st } else s.retryGroup g

/-- CLOCK_ACCEPT: the phase sweep starts on the lanes that are not DEAD (Table 2.4). -/
def State.acceptClock (s : State) (g : Nat) : State :=
  s.modGroup g fun x => { x with clkOk := true, absent := false, st := if x.st == .detect then .train else x.st }

/-- A lane is closed as in the RELOCK to DEAD row: its streams' LANE_DOWN divots are open and it is DEAD. -/
def State.closeLane (s : State) (x : Nat) : State := s.modLane x fun l => { l.openDown with st := .dead }

/-- CLOCK_REJECT: TRAIN or later, every lane is closed without an event and the group returns to DETECT. -/
def State.rejectClock (s : State) (g : Nat) : State :=
  let st := (s.group g).st
  let s := s.modGroup g fun x => { x with clkOk := false }
  if st == .train || st == .lock || st == .caps || st == .active then
    ((s.forEach (grpLanes g) State.closeLane).modGroup g fun x => { x with st := .detect }).tryClose (g / 9)
  else s

/-- A 4 µs count against R55: windows in a row within ±0.1 %, and outside ±0.5 %. -/
def goodRun (n count : Nat) : Nat := if 9990 ≤ count && count ≤ 10010 then satTo 16 (n + 1) else 0
def badRun (n count : Nat) : Nat := if count < 9950 || 10050 < count then satTo 2 (n + 1) else 0

/-- A clock window of an ingest group ends (R55). While the clock stays accepted, a group in DETECT sweeps again. -/
def State.groupWindow (s : State) (g count : Nat) : State :=
  if (s.group g).st == .disabled then s
  else
    let s := s.modGroup g fun x => { x with good := goodRun x.good count, bad := badRun x.bad count }
    let x := s.group g
    if x.clkOk && x.bad == 2 then s.rejectClock g
    else if x.good == 16 || (x.clkOk && x.st == .detect) then s.acceptClock g
    else s

/-- DETECT_TIMEOUT: 10 ms without acceptance. -/
def execDetectTimeout (g : Fin 36) (s : State) : Host.Outcome State Fault Refusal :=
  .next (if (s.group g).st == .detect && !(s.group g).clkOk then
    (s.modGroup g fun x => { x with absent := true }).postLane (8 * g) 1 else s)

/-- TRAIN_COMPLETE: every lane that is not DEAD is centred. -/
def execTrainComplete (g : Fin 36) (s : State) : Host.Outcome State Fault Refusal :=
  .next (if (s.group g).st == .train then s.stepLanes g .down .centred 0xFF .lock else s)

/-- TRAIN_TIMEOUT: 2 ms in TRAIN; `centred` says which lanes are. -/
def execTrainTimeout (g : Fin 36) (centred : BitVec 8) (s : State) : Host.Outcome State Fault Refusal :=
  .next (if (s.group g).st == .train then s.stepLanes g .down .centred centred.toNat .lock else s)

/-- LOCK_COMPLETE: every centred lane has found its commas. -/
def execLockComplete (g : Fin 36) (s : State) : Host.Outcome State Fault Refusal :=
  .next (if (s.group g).st == .lock then s.stepLanes g .centred .caps 0xFF .caps else s)

/-- LOCK_TIMEOUT: 1 ms in LOCK; `locked` says which lanes are. -/
def execLockTimeout (g : Fin 36) (locked : BitVec 8) (s : State) : Host.Outcome State Fault Refusal :=
  .next (if (s.group g).st == .lock then s.stepLanes g .centred .caps locked.toNat .caps else s)

/-- The checks of R58 on 64 identical TSB sets. -/
def State.tsbOk (s : State) (lane : Nat) (t : Tsb) : Bool :=
  t.version == 1 && t.mode.toNat == bnat s.mode4 && t.lmset.toNat == (s.die (lane / 72)).lmset

/-- TSB_SETS_RECEIVED on a lane in CAPS. -/
def State.tsbSets (s : State) (lane : Nat) (t : Tsb) : State :=
  let g := lane / 8
  if (s.lane lane).st != .caps then s
  else
    let s := if t.laneNo.toNat != lane % 8 then s.modGroup g fun x => { x with laneOrder := true } else s
    if s.tsbOk lane t then
      ((s.modLane lane fun l => { l with st := .active }).modGroup g fun x => { x with srcId := t.sourceId }).gradeGroup g
    else (s.modGroup g fun x => { x with capsMis := true }).postLane lane 4

def execTsbSetsReceived (lane : Fin 288) (tsb : Tsb) (s : State) : Host.Outcome State Fault Refusal :=
  .next (s.tsbSets lane tsb)

/-- LANE_ERROR_THRESHOLD: 16 code or disparity errors within 1,024 symbols on an ACTIVE lane. -/
def execLaneErrorThreshold (lane : Fin 288) (s : State) : Host.Outcome State Fault Refusal :=
  .next (if (s.lane lane).st == .active then
    ((s.modLane lane fun l => { l.openDown with st := .relock, codeErr := satTo 0xFFFFFFFF (l.codeErr + 16) }).gradeGroup
      (lane / 8)).tryClose (lane / 72) else s)

/-- LANE_RELOCK: re-centred, with a comma found, before 10 ms in RELOCK. -/
def execLaneRelock (lane : Fin 288) (s : State) : Host.Outcome State Fault Refusal :=
  .next (if (s.lane lane).st == .relock then (s.modLane lane fun l => { l with st := .active }).gradeGroup (lane / 8) else s)

/-- RELOCK_TIMEOUT: 10 ms without relock. -/
def execRelockTimeout (lane : Fin 288) (s : State) : Host.Outcome State Fault Refusal :=
  .next (if (s.lane lane).st == .relock then ((s.closeLane lane).postLane lane 3).gradeGroup (lane / 8) else s)

/-! ### Output lanes (R57, R72 to R74) -/

/-- An output packet: the header of R72, the payload with zero fill, and the CRC of R59. -/
def outPacket (l : OutLane) (first : Option Nat) (pay : List Byte) : List Byte :=
  let h := rows [ 0x81 + l.seq.toNat * 2 ^ 8, first.getD 0xFFFF + pay.length * 2 ^ 16, l.sent % 2 ^ 32, l.sent / 2 ^ 32 % 2 ^ 16 ]
  let b := h ++ pay ++ zeros (1024 - pay.length)
  b ++ le32 (crc32 b)

/-- Records that start in a packet with `room` bytes left: what they give, the rest of the last, and who started. -/
def fillPacket (room : Nat) : List (Nat × List Byte) → List Byte × List Byte × List (Nat × List Byte) × List (Nat × Nat)
  | [] => ([], [], [], [])
  | (t, bs) :: r =>
    if room == 0 then ([], [], (t, bs) :: r, [])
    else if room < bs.length then (bs.take room, bs.drop room, r, [(t, bs.length)])
    else
      let (pay, head, q, st) := fillPacket (room - bs.length) r
      (bs ++ pay, head, q, (t, bs.length) :: st)

/-- The lane has sent a packet of `n` valid bytes. -/
def OutLane.sentOne (l : OutLane) (n : Nat) : OutLane := { l with seq := l.seq + 1, sent := (l.sent + n) % 2 ^ 48 }

/-- The next packet of an output lane; a record leaves record staging as its transmission begins. -/
def State.sendLane (s : State) (x : Nat) : State :=
  let l := s.outLane x
  let a := l.head.take 1024
  let (pay, head, q, started) := fillPacket (1024 - a.length) l.queue
  let all := a ++ pay
  if all.isEmpty then s
  else
    let first := if pay.isEmpty then none else some a.length
    let s := s.emit (.lanePacket x (outPacket l first all))
    let s := s.modOutLane x fun l => { l.sentOne all.length with head := l.head.drop 1024 ++ head, queue := q }
    s.forEach started fun s e => s.subStaging (x / 16) e.1 e.2

/-- The packets that end the record in transmission. -/
def State.endRecord (s : State) (x : Nat) : State :=
  s.forEach (List.range (ceilDiv (s.outLane x).head.length 1024)) fun s _ =>
    let l := s.outLane x
    let pay := l.head.take 1024
    (s.emit (.lanePacket x (outPacket l none pay))).modOutLane x fun l =>
      { l.sentOne pay.length with head := l.head.drop 1024 }

/-- The header fields of a record by which its loss is reported. -/
def recOfBytes (t : Nat) (bs : List Byte) : Rec :=
  { typ := BitVec.ofNat 8 (leAt bs 0 1), tenant := t, sub := BitVec.ofNat 16 (leAt bs 4 2), block := BitVec.ofNat 32 (leAt bs 8 4) }

/-- A record back in the die's output queue is placed again, or discarded where no lane is ACTIVE (R57, R73, R74). -/
def State.placeAgain (s : State) (d t : Nat) (bs : List Byte) : State :=
  match s.placeLane d with
  | none => (s.subStaging d t bs.length).dataLost (recOfBytes t bs)
  | some x => s.modOutLane x fun l => { l with queue := l.queue ++ [(t, bs)] }

/-- The lanes of an output group leave service (R57). -/
def State.removeOut (s : State) (g : Nat) : State :=
  let s := s.forEach (grpLanes g) State.endRecord
  let waiting := (grpLanes g).flatMap fun x => (s.outLane x).queue
  let s := s.forEach (grpLanes g) fun s x => s.modOutLane x fun _ => {}
  let s := s.modOutGrp g fun _ => { st := .disabled }
  s.forEach waiting fun s e => s.placeAgain (g / 2) e.1 e.2

def State.enableOut (s : State) (g : Nat) : State := s.modOutGrp g fun _ => { st := .detect }

/-- OUT_RX_DETECT: receiver detection in DETECT; with one or more lanes detected the group sends TSA. -/
def execOutRxDetect (g : Fin 8) (detected : BitVec 8) (s : State) : Host.Outcome State Fault Refusal :=
  .next (if (s.outGrp g).st == .detect && detected != 0 then
    s.modOutGrp g fun x => { x with st := .train, detected := detected, dead := ~~~detected } else s)

/-- OUT_TRAIN_END: 4 ms of TSA have been sent. -/
def execOutTrainEnd (g : Fin 8) (s : State) : Host.Outcome State Fault Refusal :=
  .next (if (s.outGrp g).st == .train then s.modOutGrp g fun x => { x with st := .caps } else s)

/-- OUT_CAPS_END: 1,024 TSB sets have been sent; the detected lanes are ACTIVE, their counts at 0. -/
def execOutCapsEnd (g : Fin 8) (s : State) : Host.Outcome State Fault Refusal :=
  .next (if (s.outGrp g).st == .caps then
    (s.forEach (grpLanes g) fun s x => s.modOutLane x fun _ => {}).modOutGrp g fun x =>
      { x with st := .active, active := x.detected } else s)

/-- After a commit, or at the release of the lane groups: each group follows its enable bit (Table 2.4, R57). -/
def State.followLaneEn (s : State) : State :=
  let s := s.forEach (List.range 36) fun s g =>
    let off := (s.group g).st == .disabled
    if s.groupEn g && off then s.enableGroup g else if !s.groupEn g && !off then s.disableGroup g else s
  s.forEach (List.range 8) fun s g =>
    let off := (s.outGrp g).st == .disabled
    if s.outEn g && off then s.enableOut g else if !s.outEn g && !off then s.removeOut g else s

/-! ### Commands -/

/-- Block lengths of the subarrays and buffered beam plans running on a die (R64, R65). -/
def State.blockLens (s : State) (d : Nat) : List Nat :=
  (s.subs.filter fun e => e.2.status.runs && !(s.chansOn d e.2.chans).isEmpty).map (·.2.len)
    ++ (s.beams.filter fun e => e.2.status.runs && e.2.src != .direct && !(s.chansOn d e.2.chans).isEmpty).map (·.2.len)

/-- LANE_MAP_SWITCH (0x08): the rules of R64. -/
def State.laneMapSwitch (s : State) (c : RingCmd) (r : CmdRef) : State :=
  let d := fld c.arg0.toNat 1 0
  let set := fld c.arg0.toNat 9 8
  let t := c.arg1.toNat + 2 ^ 32 * fld c.arg2.toNat 15 0
  let y := s.die d
  if (s.blockLens d).any fun l => t % l != 0 then s.refuse r stConflict (argOff 1) 0
  else if y.highCtr.any fun h => decide (t ≤ h) then s.refuse r stConflict (argOff 1) 0
  else if y.switch.isSome then s.refuse r stConflict noField 0
  else (s.modDie d fun y => { y with switch := some (set, t) }).complete r stOK 0 0

def execLaneMapSwitch (c : RingCmd) (s : State) : Host.Outcome State Fault Refusal :=
  .next (s.startCmd 0x08 true c fun r s => s.laneMapSwitch c r)

/-- LANE_GROUP_RESTART (0x09) on a group whose enable bit is 1 (R54). -/
def State.laneGroupRestart (s : State) (c : RingCmd) (r : CmdRef) : State :=
  let g := fld c.arg0.toNat 5 0
  if bit c.arg0.toNat 8 then
    if g < 8 && s.outEn g then ((s.removeOut g).enableOut g).complete r stOK 0 0 else s.refuse r stConflict (argOff 0) 0
  else if g < 36 && s.groupEn g then
    ((s.clearGroup g).modGroup g fun x => { x with st := .detect, retry := 0 }).complete r stOK 0 0
  else s.refuse r stConflict (argOff 0) 0

def execLaneGroupRestart (c : RingCmd) (s : State) : Host.Outcome State Fault Refusal :=
  .next (s.startCmd 0x09 true c fun r s => s.laneGroupRestart c r)

/-- CLOSE_WAIT_EXPIRY: CLOSE_WAIT has passed since a sample of the next block was delivered on the die (R65), or, before
the first boundary, since the first die reported a sample at or past it (R66). -/
def State.closeWait (s : State) (d : Nat) : State :=
  if !s.grid.started then
    if s.grid.firstCtr.isSome && (List.range 4).any (fun d => s.dieOn d && s.laterDelivered d s.grid.start) then
      s.modGrid fun g => { g with waited := true } else s
  else if s.dieOn d && !s.dieClosed d && s.laterDelivered d s.blockEnd then s.closeDie d
  else s

def execCloseWaitExpiry (die : Fin 4) (s : State) : Host.Outcome State Fault Refusal := .next (s.closeWait die)

end Sys2Proof.Machine
end

