-- ==== Sys2Proof/Machine/Chan.lean ====
section
/-! DEFINITION. The channeliser: the filter bank, requantisation, gains, statistics, threshold events, and the HBM
controllers' temperature and refresh (Chapter 3, R76 to R86, R94). -/
namespace Sys2Proof.Machine

open Sys2Proof

/-! ### Coarse samples and absence (R86) -/

/-- Key of a (die-local channel, signal) entry, in the order of R83. -/
def entryKey (ch sig : Nat) : Nat := ch * 4096 + sig

/-- A coarse sample of the corner turn; none where it is absent. -/
def Die.coarseAt (y : Die) (ch sig ctr : Nat) : Option Cx :=
  if y.lost.any (fun r => decide (r.1 ≤ ctr) && decide (ctr ≤ r.2)) || y.absentFrom.any (fun c => decide (c ≤ ctr)) then none
  else getT none y.coarse (sampleKey ch sig ctr)

/-- The coarse samples from counter `lo` on. -/
def Die.coarseRun (y : Die) (ch sig lo n : Nat) : List (Option Cx) :=
  let near : Die := { y with coarse := y.coarse.filter fun e => decide (sampleKey ch sig lo ≤ e.1) && decide (e.1 < sampleKey ch sig (lo + n)) }
  (List.range n).map fun i => near.coarseAt ch sig (lo + i)

/-- The coarse samples from 1,024j − 3F to 1,024j + 1,023; slot `j` is absent where one of them is (R86). -/
def State.slotSamples (s : State) (d ch sig j : Nat) : Option (List Cx) :=
  let back := 3 * s.numF
  if 1024 * j < back then none
  else
    let l := (s.die d).coarseRun ch sig (1024 * j - back) (1024 + back)
    if l.all (·.isSome) then some (l.filterMap id) else none

/-! ### The filter bank (R77 to R79) -/

/-- round_conv(2^17 cos(2πu / 256)) for u = 0 to 64. -/
def cosTable : List Int :=
  [131072, 131033, 130914, 130717, 130441, 130086, 129653, 129142, 128553, 127887, 127144, 126324, 125428]
    ++ [124457, 123410, 122289, 121095, 119827, 118488, 117077, 115595, 114044, 112424, 110737, 108982, 107162]
    ++ [105278, 103330, 101320, 99249, 97118, 94929, 92682, 90379, 88023, 85613, 83151, 80640, 78079, 75472]
    ++ [72820, 70123, 67384, 64605, 61787, 58931, 56041, 53116, 50159, 47172, 44157, 41115, 38048, 34959]
    ++ [31848, 28718, 25571, 22408, 19232, 16045, 12847, 9642, 6431, 3217, 0]

/-- 2^17 cos(2πu / 256), rounded, for u = 0 to 128. -/
def cosQ (u : Nat) : Int := if u ≤ 64 then cosTable.getD u 0 else -(cosTable.getD (128 - u) 0)

/-- The twiddle w^t of an F-point transform applied to a value (R78). -/
def twiddle (f : Nat) (v : Cx) (t : Nat) : Cx :=
  if t == 0 then v
  else if 4 * t == f then { re := v.im, im := -v.re }
  else
    let u := t * 256 / f
    let c := cosQ u
    let n := -(if u ≤ 64 then cosQ (64 - u) else cosQ (u - 64))
    { re := rneShift (v.re * c - v.im * n) 17, im := rneShift (v.re * n + v.im * c) 17 }

def cxAdd (a b : Cx) : Cx := { re := a.re + b.re, im := a.im + b.im }
def cxSub (a b : Cx) : Cx := { re := a.re - b.re, im := a.im - b.im }

/-- One stage of the decimation-in-frequency transform of R78. -/
def fftStage (f st : Nat) (z : Array Cx) : Array Cx :=
  let h := f / 2 ^ (st + 1)
  ((List.range f).map fun i =>
    let j := i % (2 * h)
    if j < h then cxAdd (z.getD i {}) (z.getD (i + h) {})
    else twiddle f (cxSub (z.getD (i - h) {}) (z.getD i {})) ((j - h) * 2 ^ st)).toArray

def bitrev : Nat → Nat → Nat
  | 0, _ => 0
  | n + 1, i => i % 2 * 2 ^ n + bitrev n (i / 2)

/-- X in natural order from the branch sums v, for F = 2^lg. -/
def fftOut (lg : Nat) (v : Array Cx) : Array Cx :=
  let z := (List.range lg).foldl (fun z st => fftStage (2 ^ lg) st z) v
  ((List.range (2 ^ lg)).map fun m => z.getD (bitrev lg m) {}).toArray

/-- Prototype coefficient h[j] (R79). -/
def State.coef (s : State) (j : Nat) : Int :=
  if bit (s.reg 0x300000) 27 then toSigned 18 (s.reg (0x301000 + 4 * j)) else (Config.prototype s.log2F j).toInt

/-- The 4F prototype coefficients. -/
def State.coefs (s : State) : Array Int := ((List.range (4 * s.numF)).map s.coef).toArray

/-- INVERT conjugates what enters the filter bank (R78). -/
def State.bankIn (s : State) (l : List Cx) : Array Cx :=
  (if bit (s.reg 0x300000) 26 then l.map fun x => { x with im := -x.im } else l).toArray

/-- v[p] of the fine sample whose window begins `i` times F into the samples (R77). -/
def branchSum (f : Nat) (h : Array Int) (x : Array Cx) (i p : Nat) : Cx :=
  (List.range 4).foldl (fun acc t =>
    let c := h.getD (t * f + p) 0
    let v := x.getD ((i + t) * f + p) {}
    { re := acc.re + c * v.re, im := acc.im + c * v.im }) {}

/-- A fine sample of every fine channel, before requantisation: channel k is X[(k + F/2) mod F] (R78). -/
def bankOut (lg : Nat) (h : Array Int) (x : Array Cx) (i : Nat) : List Cx :=
  let f := 2 ^ lg
  let z := fftOut lg ((List.range f).map fun p => branchSum f h x i p).toArray
  (List.range f).map fun k => z.getD ((k + f / 2) % f) {}

/-- The fine samples of the 1,024 / F times of a slot, before requantisation; none where the slot is absent. -/
def State.slotBank (s : State) (d ch sig j : Nat) : Option (List (List Cx)) :=
  (s.slotSamples d ch sig j).map fun l =>
    let h := s.coefs
    let x := s.bankIn l
    (List.range (1024 / s.numF)).map fun i => bankOut s.log2F h x i

/-! ### Requantisation (R80, R81) -/

/-- The gain of an entry at a time tag: that of the latest switch at or before it, 0x1000 before any. -/
def Die.gainAt (y : Die) (tag key : Nat) : Nat :=
  match y.gains.find? (fun g => decide (g.1 ≤ tag)) with
  | some g => (getT 0x1000 g.2 key).toNat
  | none => 0x1000

/-- The largest code of a fine sample part (R80). -/
def State.satMax (s : State) : Int := if s.mode4 then 7 else 127
/-- 12 + SHIFT. -/
def State.quantShift (s : State) : Nat := 12 + s.fieldOf 0x300000 4 0

/-- One part: the stored value and whether it saturated. -/
def quantPart (lim : Int) (sh : Nat) (v : Int) : Int × Bool :=
  let r := rneShift v sh
  (clampI (-lim) lim r, decide (r < -lim) || decide (lim < r))

def quantCx (lim : Int) (sh g : Nat) (x : Cx) : Cx × Bool :=
  let a := quantPart lim sh (x.re * g)
  let b := quantPart lim sh (x.im * g)
  ({ re := a.1, im := b.1 }, a.2 || b.2)

/-- The first fine time of a slot. -/
def State.slotTime (s : State) (j : Nat) : Nat := 1024 / s.numF * j

/-- The fine samples of a slot's times in every fine channel, with their saturation; none where the slot is absent. -/
def State.slotRows (s : State) (d ch sig j : Nat) : Option (List (List (Cx × Bool))) :=
  (s.slotBank d ch sig j).map fun l => l.zipIdx.map fun e =>
    let g := (s.die d).gainAt ((s.slotTime j + e.2) * s.numF) (entryKey ch sig)
    e.1.map (quantCx s.satMax s.quantShift g)

/-- The fine samples of fine channel k at the times `ms`; none where the slot is absent (R86). -/
def State.fineRun (s : State) (d ch sig k : Nat) (ms : List Nat) : List (Option Cx) :=
  let slots := (dedup (ms.map fun m => m * s.numF / 1024)).map fun j => (j, s.slotRows d ch sig j)
  ms.map fun m => match slots.find? fun e => e.1 == m * s.numF / 1024 with
    | some (j, some rows) => match rows[m - s.slotTime j]? with
      | some r => (r[k]?).map (·.1)
      | none => none
    | _ => none

/-- The (channel, signal) entries with a coarse sample in a counter range. -/
def Die.entriesIn (y : Die) (lo hi : Nat) : List Nat :=
  dedup ((y.coarse.filter fun e => decide (lo ≤ e.1 % 2 ^ 48) && decide (e.1 % 2 ^ 48 ≤ hi)).map (·.1 / 2 ^ 48))

/-- Fine times of a slot. -/
def State.slotTimes (s : State) (j : Nat) : List Nat := (List.range (1024 / s.numF)).map (s.slotTime j + ·)

/-- Counters of one statistics interval (R84). -/
def State.statLen (s : State) : Nat := 16384 * 2 ^ s.fieldOf 0x300000 21 18

/-- The slots of an interval from counter `c`. -/
def State.statSlots (s : State) (c : Nat) : List Nat := (List.range (s.statLen / 1024)).map (c / 1024 + ·)

/-! ### Automatic gain (R82) -/

/-- The integer square root of `n`, by bits from 2^(k − 1) down. -/
def isqrt : Nat → Nat → Nat → Nat
  | 0, _, r => r
  | k + 1, n, r => if (r + 2 ^ k) * (r + 2 ^ k) ≤ n then isqrt k n (r + 2 ^ k) else isqrt k n r

/-- The square root of `num / den` as a 24-bit mantissa m and an exponent e, m × 2^(e − 100), rounded once,
convergently. -/
def sqrt24 (num den : Nat) : Nat × Nat :=
  let n := num * 4 ^ 100
  match (List.range 400).find? (fun e => decide (n < 4 ^ (24 + e) * den)) with
  | none => (0, 0)
  | some e =>
    let q := den * 4 ^ e
    let m := isqrt 25 (n / q) 0
    let half := (2 * m + 1) * (2 * m + 1) * q
    (if half < 4 * n then m + 1 else if 4 * n == half && m % 2 == 1 then m + 1 else m, e)

/-- Sum of squares of the parts of X × G, and the number of parts. -/
def sumSquares (g : Nat) (xs : List Cx) : Nat × Nat :=
  xs.foldl (fun a x => (a.1 + (x.re * (g : Int)).natAbs ^ 2 + (x.im * (g : Int)).natAbs ^ 2, a.2 + 2)) (0, 0)

/-- G_new of an entry from an interval that begins at `c`, and whether it was clamped; none where it keeps its gain. -/
def State.newGain (s : State) (d key c : Nat) : Option (Nat × Bool) :=
  let g := (s.die d).gainAt c key
  let a := sumSquares g ((s.statSlots c).flatMap fun j => ((s.slotBank d (key / 4096) (key % 4096) j).getD []).flatten)
  if a.2 == 0 || a.1 == 0 then none
  else
    let (m, e) := sqrt24 a.1 (a.2 * 4 ^ s.quantShift)
    let r := (rneDiv ((g * s.fieldOf 0x300004 11 0 * 2 ^ 100 : Nat) : Int) (16 * m * 2 ^ e)).toNat
    some (min 65535 (max 1 r), decide (r < 1) || decide (65535 < r))

/-- GAIN_COMPUTE at T: new gains from the interval before T, and the number of clamps. -/
def State.computeGains (s : State) (d t : Nat) : Tab (BitVec 16) × Nat :=
  let y := s.die d
  let old : Tab (BitVec 16) := match y.gains with | g :: _ => g.2 | [] => []
  let c := t - s.statLen
  (y.entriesIn c (t - 1)).foldl (fun acc key => match s.newGain d key c with
    | none => acc
    | some (g, cl) => (setT 0x1000 acc.1 key (BitVec.ofNat 16 g), acc.2 + bnat cl)) (old, 0)

/-- T is a multiple of the statistics interval and of every running block length of the die (R81). -/
def State.switchCtr (s : State) (d t : Nat) : Bool := t % s.statLen == 0 && (s.blockLens d).all fun l => t % l == 0

/-- The interval before T began at or after SETUP_SEAL (R82). -/
def State.afterSeal (s : State) (t : Nat) : Bool :=
  decide (s.statLen ≤ t) && !s.setup.sealCtr.any fun h => decide (t - s.statLen ≤ h)

/-- Whether an automatic computation is due at T. -/
def State.autoDue (s : State) (d t : Nat) : Bool :=
  decide (s.statLen ≤ t) && match s.fieldOf 0x300000 23 22 with
    | 1 => !(s.die d).gainOnce && s.afterSeal t
    | 2 => true
    | _ => false

/-! ### Threshold events (R85) -/

/-- Table 3.2, sent to the hub's detection input while EVT_EN = 1. -/
def State.postThr (s : State) (d kind fineCh slot ratio : Nat) (pdb : Int) : State :=
  if !bit (s.reg 0x300008) 15 then s
  else s.emit (.detection (rows [kind * 2 ^ 24 + d * 2 ^ 16 + fineCh, slot % 2 ^ 32, ratio * 2 ^ 16 + slot / 2 ^ 32 % 64,
    ofSigned 16 pdb * 2 ^ 16]))

def State.modThr (s : State) (d k : Nat) (f : Thr → Thr) : State :=
  s.modDie d fun y => { y with thr := modT {} y.thr k f }

/-- Package-local fine channel number of a die-local one (Table 3.2). -/
def State.pkgFine (s : State) (d k : Nat) : Nat := s.chPerDie * d * s.numF + k

/-- Every running mean of the die is unset; an open event closes and its CLOSE is posted at slot `j` (R85). -/
def State.unsetMeans (s : State) (d j : Nat) (post : Bool) : State :=
  let opens := (s.die d).thr.filter fun e => e.2.isOpen
  let s := if post then s.forEach opens fun s e => s.postThr d 2 (s.pkgFine d e.1) j e.2.ratio e.2.pdb else s
  s.modDie d fun y => { y with thr := [] }

/-- P of a die-local fine channel in a slot, or none without a present sample: the mean of 256 |y|^2 (R85). -/
def State.slotPower (s : State) (d ch k j : Nat) : Option Nat :=
  let sigs := ((s.die d).entriesIn (1024 * j) (1024 * j + 1023)).filter fun e => e / 4096 == ch
  let ys := sigs.flatMap fun e => ((s.slotRows d ch (e % 4096) j).getD []).filterMap fun r => (r[k]?).map (·.1)
  if ys.isEmpty then none
  else some (rneDiv (256 * ys.foldl (fun a y => a + y.re * y.re + y.im * y.im) 0) ys.length).toNat

/-- One fine channel at the end of a slot: the comparison with M and the running mean. M is in units of 2^-16. -/
def State.compareThr (s : State) (d k j p : Nat) : State :=
  let t := getT {} (s.die d).thr k
  match t.mean with
  | none => s.modThr d k fun t => { t with mean := some (p * 65536) }
  | some m =>
    let ratio := if m == 0 then 0 else satTo 0xFFFF (rneDiv ((p * 65536 * 256 : Nat) : Int) m).toNat
    let pdb := if p == 0 then -32768 else clampI (-32768) 32767 (Config.centiBel p 1)
    let s := s.modThr d k fun t => { t with ratio := ratio, pdb := pdb }
    let x := p * 65536 * 16
    if t.isOpen then
      if x < m * (16 + s.fieldOf 0x300008 23 16) then
        (s.modThr d k fun t => { t with isOpen := false }).postThr d 2 (s.pkgFine d k) j ratio pdb
      else s
    else if 0 < m && m * (16 + s.fieldOf 0x300008 31 24) < x then
      (s.modThr d k fun t => { t with isOpen := true }).postThr d 1 (s.pkgFine d k) j ratio pdb
    else s.modThr d k fun t =>
      { t with mean := some ((m : Int) + rneDiv ((p * 65536 : Nat) - (m : Int)) (2 ^ s.fieldOf 0x300008 3 0)).toNat }

/-- SLOT_POWER_COMPARE on every fine channel of a die. -/
def State.comparePowers (s : State) (d j : Nat) : State :=
  s.forEach (List.range (s.chPerDie * s.numF)) fun s k => match s.slotPower d (k / s.numF) (k % s.numF) j with
    | none => s
    | some p => s.compareThr d k j p

/-! ### Gain switches and statistics (R81 to R84) -/

/-- GAIN_SWITCH at T: loaded gains, or those of an automatic computation; the running means are unset. -/
def State.gainSwitch (s : State) (d t : Nat) : State :=
  let y := s.die d
  let auto := s.switchCtr d t && s.autoDue d t
  let load := match y.gainLoad with
    | some (t', gs) => if t' == t then some gs else none
    | none => none
  if !auto && load.isNone then s
  else
    let s := match load with
      | some gs => s.modDie d fun y =>
          { y with gains := (t, setRun 0x1000 [] 0 gs) :: y.gains, gainLoad := none }
      | none =>
        let (gs, n) := s.computeGains d t
        s.modDie d fun y => { y with gains := (t, gs) :: y.gains, gainClamp := satTo 0xFFFF n }
    let s := if auto then s.modDie d fun y => { y with gainOnce := true } else s
    s.unsetMeans d (t / 1024) true

def execGainSwitch (die : Fin 4) (t : Nat) (s : State) : Host.Outcome State Fault Refusal :=
  .next (if s.dieOn die && !s.inReset (12 + die) then s.gainSwitch die t else s)

/-- Saturated present fine samples of an entry over an interval from counter `c` (R84). -/
def State.reqSat (s : State) (d key c : Nat) : Nat :=
  sumN ((s.statSlots c).map fun j => (((s.slotRows d (key / 4096) (key % 4096) j).getD []).flatten.filter (·.2)).length)

/-- STATS_INTERVAL_END: the entries of the interval that begins at a slot join the 8 most recent. -/
def State.statsEnd (s : State) (d slot : Nat) : State :=
  let c := 1024 * slot
  if c % s.statLen != 0 then s
  else
    let y := s.die d
    let iv := c / s.statLen
    let src := (y.srcSat.filter fun e => e.1 / 65536 == iv).map fun e => (e.1 % 65536, e.2)
    let keys := dedup (y.entriesIn c (c + s.statLen - 1) ++ src.map (·.1))
    let es := keys.foldl (fun t k => setT (0, 0) t k (getT 0 src k, s.reqSat d k c)) []
    s.modDie d fun y =>
      { y with stats := (y.stats ++ [({ firstSlot := slot, entries := es } : StatIv)]).drop (y.stats.length + 1 - 8),
               srcSat := y.srcSat.filter fun e => e.1 / 65536 != iv,
               satAny := satTo 0xFFFF (es.filter fun e => e.2.2 != 0).length }

def execStatsIntervalEnd (die : Fin 4) (firstSlot : Nat) (s : State) : Host.Outcome State Fault Refusal :=
  .next (if s.dieOn die && !s.inReset (12 + die) then s.statsEnd die firstSlot else s)

/-- The entries of one interval as CHN_STATS_READ returns them (R84). -/
def StatIv.bytes (x : StatIv) (n : Nat) : List Byte :=
  (List.range n).flatMap fun k =>
    let e := getT (0, 0) x.entries k
    rows [e.2 % 2 ^ 21, e.1 % 2 ^ 32]

/-- CHN_STATS_READ (0x0B): an interval that is not held completes DATA_LOST. -/
def State.chnStatsRead (s : State) (c : RingCmd) (r : CmdRef) : State :=
  let n := 4096 * s.chPerDie
  if c.resLen < 8 * n then s.refuse r stConflict 0x1C 0
  else match (s.die (fld c.arg0.toNat 1 0)).stats.find? (fun x => x.firstSlot == c.arg1.toNat + 2 ^ 32 * c.arg2.toNat) with
    | none => s.complete r stDataLost 0 0
    | some x => s.writeRes c r (x.bytes n) fun s => s.complete r stOK (8 * n) 0

def execChnStatsRead (c : RingCmd) (s : State) : Host.Outcome State Fault Refusal :=
  .next (s.startCmd 0x0B false c fun r s => s.chnStatsRead c r)

/-- CHN_GAIN_LOAD (0x0A): T under R81, nothing at or past T requantised yet, and no other load pending (R83). -/
def State.chnGainLoad (s : State) (c : RingCmd) (r : CmdRef) : State :=
  let d := fld c.arg0.toNat 1 0
  let t := c.arg1.toNat + 2 ^ 32 * fld c.arg2.toNat 15 0
  let n := 4096 * s.chPerDie
  if c.buf.length < 2 * n then s.refuse r stConflict 0x10 0
  else if !s.switchCtr d t || decide (t + s.numF ≤ (s.die d).requantTo) then s.refuse r stConflict (argOff 1) 0
  else if (s.die d).gainLoad.isSome then s.refuse r stConflict noField 0
  else
    (s.modDie d fun y => { y with gainLoad := some (t, (u16s (c.buf.take (2 * n))).map (BitVec.ofNat 16)) }).complete r stOK 0 0

def execChnGainLoad (c : RingCmd) (s : State) : Host.Outcome State Fault Refusal :=
  .next (s.startCmd 0x0A true c fun r s => s.chnGainLoad c r)

/-! ### Temperature and refresh of the stacks (R94) -/

/-- HBM_TEMP_READ: above 95 °C OVERTEMP is set and HBM_OVERTEMP posted. -/
def execHbmTempRead (die : Fin 4) (stack : Fin 2) (celsius : Byte) (s : State) : Host.Outcome State Fault Refusal :=
  let s := s.modStack die stack fun k => { k with temp := celsius, hot := decide (85 < celsius.toNat) }
  .next (if 95 < celsius.toNat then
    (s.modStack die stack fun k => { k with overtemp := true }).postEvt 0 0x03 0 5 die (2 * die + stack) 0 else s)

/-- HBM_REFRESH: the first refresh after a reading takes the rate that the reading asks for. -/
def execHbmRefresh (die : Fin 4) (stack : Fin 2) (s : State) : Host.Outcome State Fault Refusal :=
  .next (s.modStack die stack fun k => { k with refX2 := k.hot, refreshes := k.refreshes + 1 })

end Sys2Proof.Machine
end

