-- ==== Sys2Proof/Machine/Plan.lean ====
section
/-! DEFINITION. The planner's arithmetic: active tiles and clusters, the line packing of R106, passes, beam placement,
and what a set of plans needs of a die (R24, R30, R40, R41, R97, R106 to R112, R118, R130). -/
namespace Sys2Proof.Machine

open Sys2Proof

/-! ### Tiles and clusters (R29 to R31) -/

/-- Tile 64r + i of a die is region r's tile index i, that is tile i mod 8 of cluster i / 8; the tiles of the map that
are not withheld. -/
def State.activeTiles (s : State) (d : Nat) : List Nat :=
  (List.range 256).filter fun t =>
    decide (t % 64 < 56) && bit (getT 0 s.rst.activeMap (4 * d + t / 64)).toNat (t % 64) && !(getT {} (s.die d).tiles t).withheld

/-- A cluster of the die, number 8r + c, and its usable tiles (0 to 7). -/
structure Clus where
  no    : Nat := 0
  tiles : List Nat := []
deriving DecidableEq, Repr

/-- The clusters of a list of tiles, those with more tiles first. -/
def clustersOf (ts : List Nat) : List Clus :=
  sortBy (fun c => 8 - c.tiles.length)
    ((List.range 32).filterMap fun n =>
      let l := (ts.filter fun t => t / 8 == n).map (· % 8)
      if l.isEmpty then none else some { no := n, tiles := l : Clus })

/-! ### Lines and passes (R24, R106, R107) -/

/-- A line: jobs of one fine channel that share one band. -/
structure Line where
  fine   : Nat := 0
  col    : Bool := false
  shared : Nat := 0
  others : List Nat := []
deriving DecidableEq, Repr

def chunks {α : Type} (n : Nat) : Nat → List α → List (List α)
  | 0, _ => []
  | k + 1, l => if l.isEmpty then [] else l.take n :: chunks n k (l.drop n)

def chunksOf {α : Type} (n : Nat) (l : List α) : List (List α) := chunks n l.length l

/-- The lines of one fine channel of a subarray of `n` bands (R106). -/
def linesOf (fine n : Nat) : List Line :=
  ((List.range n).flatMap fun p => (List.range ((n - p) / 8)).map fun k =>
      { fine := fine, shared := p, others := (List.range 8).map (p + 8 * k + ·) : Line })
    ++ ((List.range 7).filter fun i => decide (7 ≤ n + i)).flatMap fun i =>
        let q := n + i - 7
        let rows := (List.range (q + 1)).filter fun p => decide (n - (n - p) % 8 ≤ q)
        (chunksOf 8 rows).map fun r => { fine := fine, col := true, shared := q, others := r : Line }

/-- The line that a cluster of `n` tiles takes next: the first that fills it, which is split where it is longer, else
the first of all. -/
def takeLine (n : Nat) (ls : List Line) : Option (Line × List Line) :=
  match ls with
  | [] => none
  | l :: r =>
    if n ≤ l.others.length then
      some ({ l with others := l.others.take n },
        if l.others.length == n then r else { l with others := l.others.drop n } :: r)
    else match takeLine n r with
      | some (m, r') => if n ≤ m.others.length then some (m, l :: r') else some (l, r)
      | none => some (l, r)

/-- A cluster runs a line: OTHER[t] for its usable tiles in order. -/
def jobOf (c : Clus) (l : Line) : Job :=
  { cluster := c.no, colShared := l.col, shared := l.shared, fine := l.fine,
    other := (List.range 8).map fun t => if c.tiles.contains t then l.others[c.tiles.idxOf t]? else none }

/-- One pass over the clusters, and the lines left. -/
def fillPass : List Clus → List Line → List Job × List Line
  | [], ls => ([], ls)
  | c :: cs, ls => match takeLine c.tiles.length ls with
    | none => ([], ls)
    | some (l, ls) =>
      let (js, rest) := fillPass cs ls
      (jobOf c l :: js, rest)

def packPasses (cs : List Clus) : Nat → List Line → List (List Job)
  | 0, _ => []
  | k + 1, ls =>
    if ls.isEmpty || cs.isEmpty then []
    else
      let (js, rest) := fillPass cs ls
      js :: packPasses cs k rest

/-- Bands N of a subarray. -/
def Sub.bands (x : Sub) : Nat := roundUp16 x.sigs.length / 16

/-- The die-local fine channels of a subarray on a die, ascending. -/
def State.fineOf (s : State) (d : Nat) (chans : List Nat) : List Nat :=
  (sortBy id (s.chansOn d chans)).flatMap fun c => (List.range s.numF).map fun k => (c - d * s.chPerDie) * s.numF + k

def State.subLines (s : State) (d : Nat) (x : Sub) : List Line :=
  (s.fineOf d x.chans).flatMap fun f => linesOf f x.bands

/-- Tile jobs of a subarray on a die. -/
def State.tileJobs (s : State) (d : Nat) (x : Sub) : Nat := (s.fineOf d x.chans).length * (x.bands * (x.bands + 1) / 2)

/-- The expert plan of a subarray for a die, by pass. -/
def Expert.byPass (e : Expert) : List (List Job) :=
  (List.range e.passes).map fun k => (e.jobs.filter fun j => j.1 == k).map (·.2)

/-- The expert plan of a subarray for a die. -/
def Sub.expertOn (x : Sub) (d : Nat) : Option Expert := x.expert.find? fun e => e.die == d

/-- The passes of a subarray's block on these clusters: the expert plan that was loaded (R46, R111), none where the
subarray asks for one that has not been loaded, else the planner's. -/
def State.passPlan (s : State) (d : Nat) (x : Sub) (cs : List Clus) : List (List Job) :=
  match x.expertOn d with
  | some e => e.byPass
  | none => if x.wantExpert then [] else packPasses cs (s.tileJobs d x) (s.subLines d x)

def Job.tiles (j : Job) : List Nat := (List.range 8).filter fun t => ((j.other[t]?).getD none).isSome

/-- Every tile that an expert plan names is usable (R30, R46). -/
def expertFits (ps : List (List Job)) (cs : List Clus) : Bool :=
  ps.all fun p => p.all fun j => match cs.find? (fun c => c.no == j.cluster) with
    | some c => j.tiles.all c.tiles.contains
    | none => false

/-- A resident subarray integrates over two or more blocks (R112). -/
def Sub.isResident (x : Sub) : Bool := decide (2 ≤ x.integ)

/-- Bands that a pass reads, each distinct (fine channel, band) once (R108). -/
def passReads (p : List Job) : Nat :=
  (dedup (p.flatMap fun j => (j.shared :: j.other.filterMap id).map fun b => j.fine * 256 + b)).length

/-- Band reads of a block: what its passes read, but no more than the planner's grouping at the density of full
correlation needs (R108, 293,376 reads for 263,168 lines). -/
def State.bandReads (s : State) (d : Nat) (x : Sub) (ps : List (List Job)) : Nat :=
  let n := sumN (ps.map passReads)
  if (x.expertOn d).isSome then n
  else min n (max (x.bands * (s.fineOf d x.chans).length) (ceilDiv ((s.subLines d x).length * 293376) 263168))

/-! ### Products and record bytes (R105, R114, R118) -/

/-- Products of a tile job: 136 on the diagonal, else 256. -/
def jobProducts (j : Job) : Nat :=
  sumN ((j.other.filterMap id).map fun o => if o == j.shared then 136 else 256)

def Sub.prodBytes (x : Sub) : Nat := if x.packed then 8 else 12

/-- Bytes of one dump on a die: its VIS records and one empty VALID record. -/
def Sub.dumpBytes (x : Sub) (ps : List (List Job)) : Nat :=
  sumN (ps.map fun p => 48 + 12 * p.length + sumN (p.map jobProducts) * x.prodBytes) + 64

/-- Bytes per 2^44 coarse samples. -/
def perEpoch (bytes counters : Nat) : Nat := ceilDiv (bytes * 2 ^ 44) counters

/-- What an object's TOPK copies add, at full records (R140, R141): `jobs` a tile's jobs, over `tiles` tiles. -/
def topkRate (k : Topk) (tiles jobs : Nat) : Nat :=
  if k.k == 0 || k.dest != 0 then 0 else perEpoch (tiles * (48 + jobs * (8 + 16 * k.k))) (1024 * 2 ^ k.sub)

def Sub.laneRate (x : Sub) (k : Topk) (ps : List (List Job)) : Nat :=
  (if x.dest == 0 then perEpoch (x.dumpBytes ps) (x.len * (if x.isResident then x.integ else 1)) else 0)
    + topkRate k (sumN (ps.map fun p => sumN (p.map fun j => j.tiles.length))) 1

/-- Products of a beam plan per fine channel (R127). -/
def Beam.products (x : Beam) : Nat := if x.pairs then x.beams / 2 * 3 else x.beams

/-- Fine channels in a record: 1 for DIRECT, F for BUFFERED. -/
def Beam.nfine (x : Beam) (s : State) : Nat := if x.src == .direct then 1 else s.numF

/-- The coarse channels lie on two or more dies. -/
def State.manyDies (s : State) (chans : List Nat) : Bool := decide (1 < (dedup (chans.map s.dieOfCh)).length)

def Beam.laneRate (x : Beam) (s : State) (k : Topk) (d : Nat) : Nat :=
  let c := (s.chansOn d x.chans).length
  let volt := (if x.volt8 then 64 + x.beams * 2048 else 0) + (if x.volt16 then 64 + x.beams * 4096 else 0)
  let pow := if !x.power then 0
    else if x.bandsum then (if c == 0 || s.manyDies x.chans then 0 else 64 + x.products * 8)
    else c * (64 + x.nfine s * x.products * 8)
  (if x.dest == 0 then perEpoch (c * volt) 1024 + perEpoch pow (1024 * x.int) else 0)
    + topkRate k (ceilDiv (x.jobsOn s d) 640) 640

/-! ### Beam tiles (R120, R121, R130) -/

/-- The jobs of a plan on a die: plan, beam band, signal band, and die-local coarse channel, or fine channel for FINE. -/
def State.beamJobs (s : State) (d n : Nat) (x : Beam) : List (Nat × Nat × Nat × Nat) :=
  let chs := if x.src == .fine then s.fineOf d x.chans else (sortBy id (s.chansOn d x.chans)).map (· - d * s.chPerDie)
  chs.flatMap fun c => (List.range (roundUp16 x.beams / 16)).flatMap fun j =>
    (List.range (roundUp16 x.sigs.length / 16)).map fun b => (n, j, b, c)

/-- The tiles that plans need on a die: 640 jobs a tile, one tenant a tile. -/
def State.beamTilesOf (s : State) (d : Nat) (xs : List Beam) : Nat :=
  sumN ((dedup (xs.map (·.tenant))).map fun t =>
    ceilDiv (sumN ((xs.filter fun x => x.tenant == t).map fun x => x.jobsOn s d)) 640)

/-- The tile contents of the beam plans on a die, tenant by tenant: (tenant, jobs). -/
def State.beamTiles (s : State) (d : Nat) (xs : List (Nat × Beam)) : List (Nat × List (Nat × Nat × Nat × Nat)) :=
  (dedup (xs.map (·.2.tenant))).flatMap fun t =>
    (chunksOf 640 ((xs.filter fun x => x.2.tenant == t).flatMap fun x => s.beamJobs d x.1 x.2)).map fun js => (t, js)

/-! ### What a set of plans needs of a die -/

/-- The clusters left to passes when beams hold the tiles of the highest addresses. -/
def State.corrClusters (s : State) (d beamTiles : Nat) : List Clus :=
  let ts := s.activeTiles d
  clustersOf (ts.take (ts.length - beamTiles))

/-- The passes of every subarray of a list on a die: a resident one takes the clusters it names for itself (R112), the
others share what is left. None where a resident one does not fit in a single pass, or an expert plan names a tile that
is not there. -/
def State.layout (s : State) (d : Nat) (cs : List Clus) : List (Nat × Sub) → Option (List (Nat × List (List Job)))
  | [] => some []
  | (n, x) :: r =>
    if (s.chansOn d x.chans).isEmpty then s.layout d cs r
    else
      let ps := s.passPlan d x cs
      if ps.isEmpty || ((x.expertOn d).isSome && !expertFits ps cs) || (x.isResident && decide (1 < ps.length)) then none
      else
        let used := if x.isResident then ps.flatMap fun p => p.map (·.cluster) else []
        match s.layout d (cs.filter fun c => !used.contains c.no) r with
        | none => none
        | some l => some ((n, ps) :: l)

/-- Residents first, so that the others find what they leave. -/
def residentsFirst (xs : List (Nat × Sub)) : List (Nat × Sub) :=
  xs.filter (·.2.isResident) ++ xs.filter (!·.2.isResident)

def State.layoutOf (s : State) (d : Nat) (xs : List (Nat × Sub)) (bs : List Beam) : Option (List (Nat × List (List Job))) :=
  let bt := s.beamTilesOf d bs
  if (s.activeTiles d).length < bt then none else s.layout d (s.corrClusters d bt) (residentsFirst xs)

/-- The planning period of a set of plans (R36). -/
def periodFor (xs : List (Nat × Sub)) (bs : List Beam) : Nat :=
  ((xs.map (·.2.len)) ++ ((bs.filter fun b => b.src != .direct).map (·.len))).foldl min 1048576

/-- TILE_CLK cycles of regular passes in one planning period (R40, R41). -/
def State.passTime (s : State) (p pad : Nat) (xs : List (Nat × Sub)) (l : List (Nat × List (List Job))) : Nat :=
  sumN (xs.map fun e =>
    if e.2.isResident then 0
    else match l.find? (fun q => q.1 == e.1) with
      | some q => ceilDiv (q.2.length * (s.passCycles e.2 false + 64 + pad) * p) e.2.len
      | none => 0)

/-- Class S demand in bytes per coarse sample, times F (R97): corner-turn writes, band reads, buffered-beam reads and
capture writes. -/
def State.demand (s : State) (d : Nat) (xs : List (Nat × Sub)) (bs : List Beam) (l : List (Nat × List (List Job))) : Nat :=
  let w := s.sampleBytes
  let f := s.numF
  sumN (xs.map fun e =>
      let c := (s.chansOn d e.2.chans).length
      let rd := match l.find? (fun q => q.1 == e.1) with
        | some q => s.bandReads d e.2 q.2 * 16 * w
        | none => 0
      f * c * roundUp16 e.2.sigs.length * w + rd)
    + sumN (bs.map fun b =>
      let c := (s.chansOn d b.chans).length
      let buf := c * roundUp16 b.sigs.length * w
      f * ((if b.src == .direct then 0 else buf + (if b.srcSub.isSome then 0 else buf)) + (if b.capture then c * b.beams * 4 else 0)))

/-- Bytes that `n` lanes carry in 2^44 coarse samples, times 1,046 (R118). -/
def laneCap (n : Nat) : Nat := n * 1024 * 512 * 2 ^ 44

/-- Lane output of a set of plans on a die, in bytes per 2^44 coarse samples. -/
def State.laneLoad (s : State) (d : Nat) (xs : List (Nat × Sub)) (bs : List (Nat × Beam)) (l : List (Nat × List (List Job))) : Nat :=
  sumN (xs.map fun e => match l.find? (fun q => q.1 == e.1) with
      | some q => e.2.laneRate (s.topk (2 * e.1)) q.2
      | none => 0)
    + sumN (bs.map fun e => e.2.laneRate s (s.topk (2 * e.1 + 1)) d)

/-- R41, R97 and R118 for a set of plans on a die, with PAD cycles in the pass switch. -/
def State.dieFits (s : State) (d pad : Nat) (xs : List (Nat × Sub)) (bs : List (Nat × Beam)) : Bool :=
  let xs := xs.filter fun e => !(s.chansOn d e.2.chans).isEmpty
  let bs := bs.filter fun e => !(s.chansOn d e.2.chans).isEmpty
  if xs.isEmpty && bs.isEmpty then true
  else match s.layoutOf d xs (bs.map (·.2)) with
    | none => false
    | some l =>
      let p := periodFor xs (bs.map (·.2))
      decide (s.passTime p pad xs l + s.fieldOf 0x100000 23 8 * 65536 ≤ p * tilePerSample)
        && decide (s.demand d xs (bs.map (·.2)) l * 30000 ≤ s.numF * 512 * 5120 * (100 * s.fieldOf 0x400000 7 0 - 807))
        && decide (s.laneLoad d xs bs l * 1046 ≤ laneCap (s.activeOutLanes d).length)

/-- Tile use of plans in units of one tile for 2^20 coarse samples, times 671,088,640 (R276). -/
def State.tileUse (s : State) (xs : List (Nat × Sub)) (bs : List (Nat × Beam)) : Nat :=
  sumN ((List.range 4).map fun d =>
    let xs := xs.filter fun e => !(s.chansOn d e.2.chans).isEmpty
    let bs := bs.filter fun e => !(s.chansOn d e.2.chans).isEmpty
    let l := (s.layoutOf d xs (bs.map (·.2))).getD []
    sumN (xs.map fun e => match l.find? (fun q => q.1 == e.1) with
        | some q =>
          let tiles := sumN (q.2.map fun p => sumN (p.map fun j => if e.2.isResident then 8 else j.tiles.length))
          if e.2.isResident then tiles * 671088640
          else tiles * (s.passCycles e.2 false + 64) * (1048576 / e.2.len)
        | none => 0)
      + s.beamTilesOf d (bs.map (·.2)) * 671088640)

/-- A subarray without the channels of dies that plans may not use (R44). -/
def State.subEff (s : State) (use : Nat → Bool) (x : Sub) : Sub := { x with chans := x.chans.filter fun c => use (s.dieOfCh c) }
def State.beamEff (s : State) (use : Nat → Bool) (x : Beam) : Beam := { x with chans := x.chans.filter fun c => use (s.dieOfCh c) }

/-- A plan that runs in the planning period that begins at counter `c`, or has passes or rotations of its last block in it. -/
def Sub.runsAt (x : Sub) (c : Nat) : Bool :=
  x.status == .running || (x.status == .stopping && x.stopAt.any fun t => decide (c < t + x.len))
def Beam.runsAt (x : Beam) (c : Nat) : Bool :=
  x.status == .running || (x.status == .stopping && x.stopAt.any fun t => decide (c < t + if x.src == .direct then 0 else x.len))

/-- The plans of one tenant. -/
def subsOf (t : Nat) (xs : List (Nat × Sub)) : List (Nat × Sub) := xs.filter fun e => e.2.tenant == t
def beamsOf (t : Nat) (xs : List (Nat × Beam)) : List (Nat × Beam) := xs.filter fun e => e.2.tenant == t

/-- The TILES and OUT_SHARE quotas of a tenant over a set of its plans (R118, R275). -/
def State.quotaOk (s : State) (t : Nat) (xs : List (Nat × Sub)) (bs : List (Nat × Beam)) : Bool :=
  decide (s.tileUse xs bs ≤ s.fieldOf (tenReg t 0) 9 0 * 671088640)
    && (List.range 4).all fun d =>
      let xs := xs.filter fun e => !(s.chansOn d e.2.chans).isEmpty
      let bs := bs.filter fun e => !(s.chansOn d e.2.chans).isEmpty
      let l := (s.layoutOf d xs (bs.map (·.2))).getD []
      decide (s.laneLoad d xs bs l * 1046 * 256 ≤ laneCap (s.activeOutLanes d).length * s.outShare t)

end Sys2Proof.Machine
end

