-- ==== Sys2Proof/Machine/Corr.lean ====
section
/-! DEFINITION. Correlation passes: flag masks, products and counts, corrections of late flags, and the VIS, VALID and
AMEND records (R100 to R117, R144 to R164). -/
namespace Sys2Proof.Machine

open Sys2Proof

/-! ### Flags over a subarray (R143, R144, R147, R153) -/

/-- The flag right of publisher `p` toward `r` (R278). -/
def State.pubFlag (s : State) (p r : Nat) : Bool := bit (s.reg (0xB20000 + 32 * p + 4 * (r / 32))) (r % 32)

/-- A flag acts on the work of tenant `t`: its own, or published to it and subscribed (R144, R153). -/
def State.flagReaches (s : State) (f : Flag) (t : Nat) : Bool :=
  f.tenant == t || (s.pubFlag f.tenant t && (s.fn t).policy.subscribe.contains f.tenant)

/-- The entry covers this signal, or all, on this package-local channel in this slot. -/
def Flag.covers (f : Flag) (ch sig slot : Nat) : Bool :=
  f.ch == ch && (f.all || f.sig == sig) && decide (f.first ≤ slot) && decide (slot < f.first + f.n)

/-- First counter of block `b`. -/
def Sub.blockCtr (x : Sub) (b : Nat) : Nat := x.first.getD 0 + b * x.len

/-- The slots of the entry that lie in block `b`, as (first, one past the last). -/
def Flag.slotsIn (f : Flag) (x : Sub) (b : Nat) : Nat × Nat :=
  (max f.first (x.blockCtr b / 1024), min (f.first + f.n) (x.blockCtr (b + 1) / 1024))

def Flag.inBlock (f : Flag) (x : Sub) (b : Nat) : Bool := let r := f.slotsIn x b; decide (r.1 < r.2)

/-- The entry concerns the subarray's signals and channels. -/
def Flag.onSub (f : Flag) (x : Sub) : Bool := x.chans.contains f.ch && (f.all || x.sigs.contains f.sig)

/-- C at the instant of the boundary at a counter, once it is set (R35). -/
def State.boundAt (s : State) (ctr : Nat) : Option Nat := (s.grid.bounds.find? fun e => e.1 == ctr).map (·.2)

/-- The effective grace in TILE_CLK cycles (R147). -/
def State.graceCycles (s : State) (len : Nat) : Nat := min (s.fieldOf 0x700000 27 16 * 125000) (len * 320)

/-- Table 6.2 for a post time. -/
def State.classOf (s : State) (x : Sub) (b t : Nat) : PartClass :=
  match s.boundAt (x.blockCtr (b + 1)) with
  | none => if x.blockCtr (b + 2) ≤ s.grid.start then .unamendable else .onTime
  | some c1 =>
    if t ≤ c1 then .onTime
    else if t ≤ c1 + s.graceCycles x.len then .grace
    else match s.boundAt (x.blockCtr (b + 2)) with
      | some c2 => if c2 ≤ t then .unamendable else .late
      | none => .late

/-- A published part that LATE_PUB = IGNORE keeps from a block (R153). -/
def State.isIgnored (s : State) (f : Flag) (x : Sub) (b : Nat) : Bool :=
  f.tenant != x.tenant && (s.fn x.tenant).policy.latePub == 1
    && (s.classOf x b f.post == .late || s.classOf x b f.post == .unamendable)

/-- The entry applies to block `b` of the subarray. -/
def State.applies (s : State) (f : Flag) (x : Sub) (b : Nat) : Bool :=
  f.kind == 0 && f.onSub x && f.inBlock x b && s.flagReaches f x.tenant && !s.isIgnored f x b

/-- The mask of a block from the flags in effect on the die. -/
def State.maskFor (s : State) (d : Nat) (x : Sub) (b : Nat) : List Flag := (s.die d).flags.filter fun f => s.applies f x b

/-! ### Samples, products and counts (R100, R101, R116) -/

/-- Fine samples per brick Q (R88). -/
def State.brickQ (s : State) : Nat := if s.mode4 then 4 else 2

/-- The signal of subarray index `a`; none for padding. -/
def Sub.sigAt (x : Sub) (a : Nat) : Option Nat := x.sigs[a]?

/-- The samples of index `a` that a pass multiplies at the fine times `ms`: none where one enters as zero, being padding,
flagged, absent, or of a brick returned absent (R100). -/
def State.sampleRun (s : State) (d : Nat) (x : Sub) (p : Pass) (mask : List Flag) (ms : List Nat) (fine a : Nat) : List (Option Cx) :=
  match x.sigAt a with
  | none => ms.map fun _ => none
  | some sig =>
    let ch := fine / s.numF
    let out (m : Nat) : Bool := (mask.any fun f => f.covers (ch + d * s.chPerDie) sig (m * s.numF / 1024))
      || p.ue.any fun e => e.1 == fine && e.2.1 == a / 16 && e.2.2 == (m - x.blockCtr p.block / s.numF) / s.brickQ
    List.zipWith (fun m v => if out m then none else v) ms (s.fineRun d ch sig (fine % s.numF) ms)

/-- Fine times of block `b` of a subarray, those that a cut pass accumulated. -/
def State.blockTimes (s : State) (x : Sub) (p : Pass) : List Nat :=
  let n := x.len / s.numF
  (List.range (min n (p.upTo.getD n))).map (x.blockCtr p.block / s.numF + ·)

/-- x_a · conj(x_b) (R100). -/
def cxMulConj (a b : Cx) : Cx := { re := a.re * b.re + a.im * b.im, im := a.im * b.re - a.re * b.im }

/-- The products of two runs, and none where either sample enters as zero. -/
def mulRun (u v : List (Option Cx)) : List (Option Cx) :=
  List.zipWith (fun a b => match a, b with | some a, some b => some (cxMulConj a b) | _, _ => none) u v

def sumCx (l : List Cx) : Cx := l.foldl cxAdd {}

/-- Row and column band of tile t of a job. -/
def Job.bandsAt (j : Job) (o : Nat) : Nat × Nat := if j.colShared then (o, j.shared) else (j.shared, o)

/-- The tiles of a job with their other band. -/
def Job.pairs (j : Job) : List (Nat × Nat) :=
  (List.range 8).filterMap fun t => match (j.other[t]?).getD none with
    | some o => some (t, o)
    | none => none

/-- The cells (r, c) of a tile job as subarray indices (a, b), row-major (R100). -/
def Job.cells (j : Job) (o : Nat) : List (Nat × Nat) :=
  let e := j.bandsAt o
  (List.range 256).map fun i => (16 * e.1 + i / 16, 16 * e.2 + i % 16)

/-- The products of the 256 cells of a tile job at the fine times `ms`. -/
def State.tileRuns (s : State) (d : Nat) (x : Sub) (p : Pass) (mask : List Flag) (ms : List Nat) (j : Job) (o : Nat) :
    List (List (Option Cx)) :=
  let run (band : Nat) : Array (List (Option Cx)) := ((List.range 16).map fun i => s.sampleRun d x p mask ms j.fine (16 * band + i)).toArray
  let rs := run (j.bandsAt o).1
  let cs := run (j.bandsAt o).2
  (List.range 256).map fun i => mulRun (rs.getD (i / 16) []) (cs.getD (i % 16) [])

/-- What the 256 cells add over the pass's block. -/
def State.tileSums (s : State) (d : Nat) (x : Sub) (p : Pass) (j : Job) (o : Nat) : List Cx :=
  (s.tileRuns d x p p.mask (s.blockTimes x p) j o).map fun l => sumCx (l.filterMap id)

/-- A baseline that VALID may list: both signals real, a ≤ b (R105, R117). -/
def Sub.realPair (x : Sub) (e : Nat × Nat) : Bool := decide (e.1 ≤ e.2) && decide (e.2 < x.sigs.length)

def defKey (d fine a b : Nat) : Nat := ((d * 2048 + fine) * 4096 + a) * 4096 + b

/-- The lost counts that a pass adds: L / F less the times at which both samples counted (R116); all of L / F for a pass
that produced nothing. -/
def State.passLoss (s : State) (d : Nat) (x : Sub) (p : Pass) (ran : Bool) : List (Nat × Nat) :=
  p.jobs.flatMap fun j => j.pairs.flatMap fun t =>
    let got : List Nat := if ran then (s.tileRuns d x p p.mask (s.blockTimes x p) j t.2).map fun l => (l.filterMap id).length else List.replicate 256 0
    (((j.cells t.2).zip got).filter fun e => x.realPair e.1).map fun e => (defKey d j.fine e.1.1 e.1.2, x.len / s.numF - e.2)

def State.addLoss (s : State) (n : Nat) (ls : List (Nat × Nat)) : State :=
  s.modSub n fun x => { x with deficit := ls.foldl (fun t e => modT 0 t e.1 (· + e.2)) x.deficit }

/-! ### Accumulator banks (R102, R113) -/

def Tile.bank (t : Tile) : List Cx := if t.second then t.bank1 else t.bank0
def Tile.setBank (t : Tile) (l : List Cx) : Tile := if t.second then { t with bank1 := l } else { t with bank0 := l }

def zeroBank : List Cx := List.replicate 256 {}

def addBanks (a b : List Cx) : List Cx := List.zipWith cxAdd (if a.isEmpty then zeroBank else a) b

/-- BANK_SWAP: the integrating bank becomes the draining bank, and the other, cleared, integrates. -/
def Tile.swap (t : Tile) : Tile := { ({ t with second := !t.second } : Tile).setBank [] with snap := [], snapAt := none }

def State.modTile (s : State) (d t : Nat) (f : Tile → Tile) : State :=
  s.modDie d fun y => { y with tiles := modT {} y.tiles t f }

def State.tile (s : State) (d t : Nat) : Tile := getT {} (s.die d).tiles t

/-- Entries (8j + t, tile number, other band) of the jobs of a pass. -/
def passTiles (p : Pass) : List (Nat × Nat × Job × Nat) :=
  p.jobs.zipIdx.flatMap fun e => e.1.pairs.map fun t => (8 * e.2 + t.1, 8 * e.1.cluster + t.1, e.1, t.2)

/-- Every tile of a pass adds its block's sums. -/
def State.accumulate (s : State) (d : Nat) (x : Sub) (p : Pass) : State :=
  s.forEach (passTiles p) fun s e => s.modTile d e.2.1 fun t => t.setBank (addBanks t.bank (s.tileSums d x p e.2.2.1 e.2.2.2))

/-- The banks drain: what they hold, and the swap. -/
def State.drain (s : State) (d : Nat) (x : Sub) (p : Pass) : State :=
  let n := if x.isResident then p.block + 1 - getT 0 x.intFirst d else 1
  let first := if x.isResident then getT 0 x.intFirst d else p.block
  let banks := (passTiles p).map fun e => (e.1, (s.tile d e.2.1).bank)
  let s := s.forEach (passTiles p) fun s e => s.modTile d e.2.1 Tile.swap
  s.modDie d fun y => { y with drained := y.drained ++ [({ pass := p, banks := banks, blocks := n, first := first } : Drained)] }

/-- No pass of the block is left on the die: the lost counts stand for the VALID set (R117). -/
def State.endIntegration (s : State) (d : Nat) (p : Pass) : State :=
  let x := s.subr p.sub
  if (s.die d).passes.any fun q => q.correct.isNone && q.sub == p.sub && q.block == p.block then s
  else
    let mine (k : Nat) : Bool := k / 2 ^ 35 == d
    let first := if x.isResident then getT 0 x.intFirst d else p.block
    let dr : Drained := { pass := p, blocks := p.block + 1 - first, first := first,
                          valid := some (x.deficit.filter fun e => mine e.1) }
    (s.modDie d fun y => { y with drained := y.drained ++ [dr] }).modSub p.sub fun x =>
      { x with deficit := x.deficit.filter (fun e => !mine e.1),
               intFirst := if x.isResident then setT 0 x.intFirst d (p.block + 1) else x.intFirst }

/-- A tile of the pass is on the repair list or withheld (R31, R44). -/
def State.losesTile (s : State) (d : Nat) (p : Pass) : Bool :=
  (passTiles p).any fun e => (s.tile d e.2.1).withheld
    || s.rst.repair.any (fun r => r.1 == d && 64 * r.2.1 + r.2.2 == e.2.1)

/-- A resident integration ends with this block (R113). -/
def State.lastBlock (s : State) (d : Nat) (x : Sub) (p : Pass) : Bool :=
  !x.isResident || p.cut || s.losesTile d p || decide (getT 0 x.intFirst d + x.integ ≤ p.block + 1)
    || x.stopAt.any fun t => decide (t ≤ x.blockCtr (p.block + 1))

/-- Tiles × cycles of a pass join its tenant's tile use of the period (R276). -/
def State.addUse (s : State) (p : Pass) (cycles : Nat) : State :=
  s.modFn (s.subr p.sub).tenant fun f => { f with useNow := f.useNow + sumN (p.jobs.map fun j => j.tiles.length) * cycles }

/-- A regular pass ends: its sums, its lost counts, and at the end of an integration the drain. -/
def State.endRegular (s : State) (d : Nat) (p : Pass) : State :=
  let x := s.subr p.sub
  let s := (s.accumulate d x p).addLoss p.sub (s.passLoss d x p true)
  let s := if x.isResident then s else s.addUse p (s.passCycles x false + 64)
  let s := s.modDie d fun y => { y with doneP := y.doneP ++ [{ p with running := false }], passCount := satTo 0xFFFF (y.passCount + 1) }
  if s.lastBlock d x p then (s.drain d x p).endIntegration d p else s

/-! ### Parts of a flag (R147, R157, R164) -/

def Part.key (q : Part) : Nat × Nat × Nat := (q.flag, q.sub, q.block)

def State.modPart (s : State) (d : Nat) (k : Nat × Nat × Nat) (f : Part → Part) : State :=
  s.modDie d fun y => { y with parts := mapIf (fun q => q.key == k) f y.parts }

/-- The status of a final class, and its order in R164. -/
def PartClass.status (c : PartClass) : Nat :=
  match c with | .unamendable => stUnamendable | .late => stLateAmended | .amendLost => stDataLost | _ => stOK
def PartClass.rank (c : PartClass) : Nat := match c with | .unamendable => 3 | .late => 2 | .amendLost => 1 | _ => 0

def rankStatus (n : Nat) : Nat :=
  if n == 3 then stUnamendable else if n == 2 then stLateAmended else if n == 1 then stDataLost else stOK

/-- Blocks of a subarray whose last sample has been written, among those that the entry touches (R147). -/
def State.closedBlocks (s : State) (f : Flag) (x : Sub) : List Nat :=
  match x.first with
  | none => []
  | some s0 =>
    let lo := (f.first * 1024 - s0) / x.len
    let hi := ((f.first + f.n) * 1024 - s0) / x.len
    ((List.range (hi + 1 - lo)).map (lo + ·)).filter fun b =>
      f.inBlock x b && decide (x.blockCtr (b + 1) ≤ s.grid.start) && !(x.stopAt.any fun t => decide (t ≤ x.blockCtr b))

/-- The entry touches a block already written, so that parts of it are to be classed when it takes effect. -/
def State.flagOpen (s : State) (f : Flag) : Bool :=
  s.subs.any fun e => f.onSub e.2 && s.flagReaches f e.2.tenant && !(s.closedBlocks f e.2).isEmpty

/-- FLAG_POST_COMPLETE: a FLAG_POST whose entries are accepted, with none still to take effect on a block already
written, and without an open part. -/
def State.flagPostDone (s : State) (w : FlagWait) : Bool :=
  let mine (n : Nat) : Bool := decide (w.lo ≤ n) && decide (n < w.hi)
  !(s.posts.any fun f => mine f.seqno)
    && (List.range 4).all fun d => !(((s.die d).flagTx ++ (s.die d).flagRx).any fun f => mine f.seqno && s.flagOpen f)
      && !((s.die d).parts.any fun q => mine q.flag && !q.final)

def State.completeFlagPosts (s : State) : State :=
  let done := s.flagWaits.filter s.flagPostDone
  let s : State := { s with flagWaits := s.flagWaits.filter fun w => !s.flagPostDone w }
  s.forEach done fun s w => s.complete w.cmd (rankStatus w.bad) (w.hi - w.lo) 0

/-- A part reaches its final class: counters, the FLAG_POST that waits, and for other flags one event for each tenant
concerned (R164, R166). -/
def State.finishPart (s : State) (d : Nat) (q : Part) (c : PartClass) : State :=
  let x := s.subr q.sub
  let s := s.modPart d q.key fun q => { q with cls := c, final := true, left := 0 }
  let s := s.modDie d fun y =>
    { y with cntLate := if c == .late then satTo 0xFFFF (y.cntLate + 1) else y.cntLate,
             cntUnam := if c == .unamendable then satTo 0xFFFF (y.cntUnam + 1) else y.cntUnam }
  let s := if c == .unamendable then s.modFn x.tenant fun f => { f with unamend := modT 0 f.unamend d fun n => satTo 0xFFFF (n + 1) } else s
  let upd (w : FlagWait) : FlagWait :=
    if decide (w.lo ≤ q.flag) && decide (q.flag < w.hi) then { w with bad := max w.bad c.rank } else w
  let s : State := { s with flagWaits := s.flagWaits.map upd }
  let tag := if c == .amendLost then 0 else q.entry.tag.toNat
  if c.rank == 0 || (q.entry.host && q.entry.tenant == x.tenant) then s
  else
    let s := s.postStatus x.tenant c.status 0 q.sub q.block tag
    if q.entry.tenant == x.tenant then s else s.postStatus q.entry.tenant c.status 0 q.sub q.block tag

/-! ### Retroactive subtraction (R154 to R158) -/

/-- The products of a tile job of a done pass that an entry newly excludes, cell by cell. -/
def State.newlyOut (s : State) (d : Nat) (x : Sub) (p : Pass) (f : Flag) (j : Job) (o : Nat) : List (List Cx) :=
  let ch := j.fine / s.numF + d * s.chPerDie
  let hit (i m : Nat) : Bool := (x.sigAt i).any fun sig => f.covers ch sig (m * s.numF / 1024)
  let ms := (s.blockTimes x p).filter fun m => x.sigs.any fun sig => f.covers ch sig (m * s.numF / 1024)
  List.zipWith (fun e l => (List.zipWith (fun m v => if hit e.1 m || hit e.2 m then v else none) ms l).filterMap id) (j.cells o)
    (s.tileRuns d x p (p.mask ++ p.fixed) ms j o)

/-- The part of a job that an entry touches: its tiles with a product to subtract; none where there is none. -/
def State.touchedJob (s : State) (d : Nat) (x : Sub) (p : Pass) (f : Flag) (j : Job) : Option Job :=
  let o := (List.range 8).map fun t => match (j.other[t]?).getD none with
    | some o => if (s.newlyOut d x p f j o).any fun l => !l.isEmpty then some o else none
    | none => none
  if o.any (·.isSome) then some { j with other := o } else none

/-- The passes of a block that were read without the entry. -/
def State.readBefore (s : State) (d : Nat) (x : Sub) (n b : Nat) (f : Flag) : List Pass :=
  (s.die d).doneP.filter fun p => p.sub == n && p.block == b && !p.mask.contains f && !x.sigs.isEmpty

/-- The touched jobs of a part, each with its pass. -/
def State.touchedJobs (s : State) (d : Nat) (q : Part) : List (Pass × Job) :=
  let x := s.subr q.sub
  (s.readBefore d x q.sub q.block q.entry).flatMap fun p => p.jobs.filterMap fun j => (s.touchedJob d x p q.entry j).map fun j => (p, j)

/-- The differences of a part: for touched job i and tile t, entry 8i + t, the negated sums of its cells. -/
def State.diffsOf (s : State) (d : Nat) (q : Part) (js : List (Pass × Job)) : List (Nat × List Cx) :=
  let x := s.subr q.sub
  js.zipIdx.flatMap fun e => e.1.2.pairs.map fun t => (8 * e.2 + t.1, (s.newlyOut d x e.1.1 q.entry e.1.2 t.2).map fun l =>
    let v := sumCx l
    { re := -v.re, im := -v.im })

/-- The samples that a part takes from the valid counts, by (fine channel, a, b). -/
def State.deltaOf (s : State) (d : Nat) (q : Part) (js : List (Pass × Job)) : List ((Nat × Nat × Nat) × Nat) :=
  let x := s.subr q.sub
  (js.flatMap fun e => e.2.pairs.flatMap fun t =>
    (((e.2.cells t.2).zip (s.newlyOut d x e.1 q.entry e.2 t.2)).filter fun c => x.realPair c.1).map fun c =>
      ((e.2.fine, c.1.1, c.1.2), c.2.length)).filter fun e => e.2 != 0

/-- The entry has been applied to the passes that were read without it. -/
def State.markFixed (s : State) (d : Nat) (q : Part) : State :=
  let hit (p : Pass) : Bool := p.sub == q.sub && p.block == q.block && !p.mask.contains q.entry
  s.modDie d fun y => { y with doneP := mapIf hit (fun p => { p with fixed := p.fixed ++ [q.entry] }) y.doneP }

/-- Cost of a correction pass in TILE_CLK cycles (R156). -/
def State.corrCost (s : State) (q : Part) : Nat :=
  let r := q.entry.slotsIn (s.subr q.sub) q.block
  (r.2 - r.1) * (1024 / s.numF) / (if s.mode4 then 2 else 1) + 64

/-- TILE_CLK cycles of a pass with its switch and PAD. -/
def State.costOf (s : State) (d : Nat) (p : Pass) : Nat :=
  match p.correct with
  | some k => match (s.die d).parts.find? (fun q => q.key == k) with
    | some q => s.corrCost q
    | none => 64
  | none => s.passCycles (s.subr p.sub) false + 64 + s.padOf d

/-- B_{b+2} of a pass's block, as C (R37, R157). -/
def State.deadline (s : State) (p : Pass) : Nat :=
  let x := s.subr p.sub
  (s.boundAt (x.blockCtr (p.block + 1))).getD 0 + x.len * tilePerSample

/-- Every pass of the timeline ends by its deadline (R157). -/
def State.timely (s : State) (ps : List (Pass × Nat)) : Bool :=
  ((ps.filter fun e => !e.1.resident).foldl (fun (acc : Nat × Bool) e =>
    (acc.1 + e.2, acc.2 && decide (acc.1 + e.2 ≤ s.deadline e.1))) (s.now, true)).2

/-- Correlation-mode tiles of a die that no resident integration holds. -/
def State.corrTiles (s : State) (d : Nat) : Nat :=
  let held := ((s.die d).passes.filter (·.resident)).flatMap fun p => p.jobs.map (·.cluster)
  ((s.activeTiles d).filter fun t => !(s.tile d t).beam && !held.contains (t / 8)).length

/-- Where corrections go: after those of earlier entries, ahead of the regular passes not yet running. -/
def insertCorr (new : List Pass) : List Pass → List Pass
  | [] => new
  | p :: r => if p.resident || p.running || p.correct.isSome then p :: insertCorr new r else new ++ p :: r

/-- The correction passes of a part (R156). -/
def corrPasses (q : Part) (js : List Job) (tiles : Nat) : List Pass :=
  let n := ceilDiv (sumN (js.map fun j => j.tiles.length)) tiles
  (List.range n).map fun i =>
    { sub := q.sub, block := q.block, no := i, correct := some q.key,
      jobs := (js.drop (i * js.length / n)).take ((i + 1) * js.length / n - i * js.length / n) }

/-- A correction of a resident integration that has not dumped is folded into its bank, and its snapshot (R158). -/
def State.foldIn (s : State) (d : Nat) (q : Part) (js : List (Pass × Job)) : State :=
  let ds := s.diffsOf d q js
  let loss := (s.deltaOf d q js).map fun e => (defKey d e.1.1 e.1.2.1 e.1.2.2, e.2)
  let s := s.forEach (js.zipIdx.flatMap fun e => e.1.2.pairs.map fun t => (8 * e.2 + t.1, 8 * e.1.2.cluster + t.1)) fun s e =>
    match ds.find? (fun x => x.1 == e.1) with
    | some (_, l) => s.modTile d e.2 fun t =>
      { t.setBank (addBanks t.bank l) with snap := if t.snap.isEmpty then t.snap else addBanks t.snap l }
    | none => s
  (s.markFixed d q).addLoss q.sub loss

/-- CORRECTION_ADMIT for a part (R157). -/
def State.admitPart (s : State) (d : Nat) (q : Part) : State :=
  let x := s.subr q.sub
  let js := s.touchedJobs d q
  if q.cls == .unamendable then s.finishPart d q .unamendable
  else if js.isEmpty then s.finishPart d q q.cls
  else if (s.die d).ueOverflow || decide (x.blockCtr (q.block + 2) ≤ s.grid.start) || x.status == .free then s.finishPart d q .unamendable
  else if x.isResident && decide (getT 0 x.intFirst d ≤ q.block) && (js.all fun e => !e.1.cut) then
    (s.foldIn d q js).finishPart d q q.cls
  else
    let ps := corrPasses q (js.map (·.2)) (s.corrTiles d)
    let cost := ps.length * s.corrCost q
    let cap := (s.fn x.tenant).policy.lateCap
    let used := getT 0 (s.fn x.tenant).chargeNow d
    let line := insertCorr ps (s.die d).passes
    if s.corrTiles d == 0 || !s.timely (line.map fun p => (p, if p.correct == some q.key then s.corrCost q else s.costOf d p))
        || (q.cls == .late && cap != 65535 && decide (cap * 1024 < used + cost)) then s.finishPart d q .unamendable
    else
      let s := if q.cls == .late then s.modFn x.tenant fun f => { f with chargeNow := modT 0 f.chargeNow d (· + cost) } else s
      let s := if q.cls == .grace then s.modFn x.tenant fun f => { f with graceCnt := modT 0 f.graceCnt d fun n => satTo 0xFFFF (n + 1) } else s
      (s.modDie d fun y => { y with passes := line }).modPart d q.key fun q => { q with left := ps.length }

/-- A part comes into being and its correction is admitted or not. -/
def State.makePart (s : State) (d n b : Nat) (f : Flag) : State :=
  let x := s.subr n
  if (s.die d).parts.any fun q => q.key == (f.seqno, n, b) then s
  else if !(s.die d).passes.all fun p => !(p.running && p.sub == n && p.block == b && p.correct.isNone && !p.mask.contains f) then s
  else
    let q : Part := { flag := f.seqno, entry := f, sub := n, block := b, cls := s.classOf x b f.post }
    (s.modDie d fun y => { y with parts := y.parts ++ [q] }).admitPart d q

/-- A flag takes effect on a die's read path: its parts in blocks already written (R146, R147, R153). -/
def State.flagEffect (s : State) (d : Nat) (f : Flag) : State :=
  s.forEach (s.subs.map (·.1)) fun s n =>
    let x := s.subr n
    if f.kind != 0 || !f.onSub x || s.dieOfCh f.ch != d || !s.flagReaches f x.tenant then s
    else s.forEach (s.closedBlocks f x) fun s b =>
      if s.isIgnored f x b then
        s.modDie d fun y =>
          { y with parts := y.parts ++ [{ flag := f.seqno, entry := f, sub := n, block := b, cls := .ignored, final := true }] }
      else s.makePart d n b f

/-- Every flag received takes effect, in the order of acceptance. -/
def State.effectAll (s : State) (d : Nat) : State :=
  let fs := (s.die d).flagRx
  let s := s.modDie d fun y => { y with flags := y.flags ++ fs, flagRx := [] }
  s.forEach fs fun s f => s.flagEffect d f

/-! ### The pass switch (R102, R156) -/

/-- Start passes: every resident one of the period, and the first of the others where none runs. -/
def startPasses (mask : Pass → List Flag) (busy : Bool) : List Pass → List Pass
  | [] => []
  | p :: r =>
    if p.running then p :: startPasses mask (busy || !p.resident) r
    else if p.resident || !busy then { p with running := true, mask := mask p } :: startPasses mask (busy || !p.resident) r
    else p :: startPasses mask busy r

/-- Whether a pass other than a resident one runs. -/
def Die.busy (y : Die) : Bool := y.passes.any fun p => p.running && !p.resident

def State.startNext (s : State) (d : Nat) : State :=
  s.modDie d fun y => { y with passes := startPasses (fun p => s.maskFor d (s.subr p.sub) p.block) y.busy y.passes }

/-- A correction pass ends; after the part's last one its AMEND set stands ready (R160). -/
def State.endCorrection (s : State) (d : Nat) (p : Pass) (k : Nat × Nat × Nat) : State :=
  match (s.die d).parts.find? (fun q => q.key == k) with
  | none => s
  | some q =>
    let s := (s.modDie d fun y => { y with corrNow := y.corrNow + s.costOf d p }).addUse p (s.costOf d p)
    if 1 < q.left then s.modPart d k fun q => { q with left := q.left - 1 }
    else
      let js := s.touchedJobs d q
      let a : Amend := { part := q, jobs := js.map (·.2), diffs := s.diffsOf d q js, delta := s.deltaOf d q js }
      ((s.modDie d fun y => { y with amends := y.amends ++ [a] }).modPart d k fun q => { q with left := 0, amended := true }).markFixed d q

/-- The flags that took effect while a resident pass ran meet it when it ends. -/
def State.residentCatchUp (s : State) (d : Nat) (p : Pass) : State :=
  if !p.resident then s
  else s.forEach (s.die d).flags fun s f =>
    if s.applies f (s.subr p.sub) p.block && !p.mask.contains f then s.makePart d p.sub p.block f else s

/-- PASS_SWITCH: the first running pass of the die ends, received flags take effect, and the next pass starts. -/
def State.passSwitch (s : State) (d : Nat) : State :=
  match takeFirst (fun p => p.running) (s.die d).passes with
  | none => s
  | some (p, rest) =>
    let s := s.modDie d fun y => { y with passes := rest }
    let s := match p.correct with
      | some k => s.endCorrection d p k
      | none => (s.endRegular d p).residentCatchUp d p
    ((s.effectAll d).startNext d).completeFlagPosts

def execPassSwitch (die : Fin 4) (s : State) : Host.Outcome State Fault Refusal :=
  .next (if s.dieOn die && !s.inReset die then s.passSwitch die else s)

/-! ### VIS and VALID records (R114 to R117) -/

/-- The products of the drained banks in record order (R114). -/
def Drained.products (x : Drained) : List Cx :=
  x.pass.jobs.zipIdx.flatMap fun e => e.1.pairs.flatMap fun t =>
    let bank := match x.banks.find? (fun b => b.1 == 8 * e.2 + t.1) with
      | some b => b.2
      | none => []
    let diag := t.2 == e.1.shared
    ((List.range 256).filter fun i => !diag || decide (i / 16 ≤ i % 16)).map fun i => bank.getD i {}

/-- A packed part and whether it clipped (R115). -/
def packPart (e : Nat) (v : Int) : Int × Bool :=
  let r := rneShift v e
  (clampI (-2147483647) 2147483647 r, decide (r < -2147483647) || decide (2147483647 < r))

def packClips (e : Nat) (ps : List Cx) : Nat :=
  sumN (ps.map fun v => bnat (packPart e v.re).2 + bnat (packPart e v.im).2)

/-- E of a record: fixed, or for AUTO the smallest at which nothing clips. -/
def packE (e : Nat) (ps : List Cx) : Nat :=
  if e ≤ 16 then e else ((List.range 17).find? fun k => packClips k ps == 0).getD 16

def exactBytes (v : Cx) : List Byte := le 6 (ofSigned 48 v.re) ++ le 6 (ofSigned 48 v.im)
def packedBytes (e : Nat) (v : Cx) : List Byte :=
  le 4 (ofSigned 32 (packPart e v.re).1) ++ le 4 (ofSigned 32 (packPart e v.im).1)

/-- A job descriptor (R114). -/
def Job.descriptor (j : Job) : List Byte :=
  let o (t : Nat) : Nat := (((j.other[t]?).getD none).getD 0)
  let mask := sumN (j.tiles.map (2 ^ ·))
  rows [ mask * 2 ^ 24 + j.shared * 2 ^ 16 + bnat j.colShared * 2 ^ 15 + j.fine
       , o 3 * 2 ^ 24 + o 2 * 2 ^ 16 + o 1 * 2 ^ 8 + o 0, o 7 * 2 ^ 24 + o 6 * 2 ^ 16 + o 5 * 2 ^ 8 + o 4 ]

/-- Table 4.7. -/
def visBody (d : Nat) (x : Sub) (r : Drained) : List Byte :=
  let ps := r.products
  let e := if x.packed then packE x.expE ps else 0
  rows [ bnat x.packed * 2 ^ 31 + bnat r.pass.cut * 2 ^ 30 + bnat x.isResident * 2 ^ 29 + e * 2 ^ 24 + d * 2 ^ 16 + r.pass.jobs.length
       , r.pass.no, r.blocks, if x.packed then packClips e ps else 0 ]
    ++ r.pass.jobs.flatMap Job.descriptor ++ ps.flatMap (fun v => if x.packed then packedBytes e v else exactBytes v)

/-- Valid counts of a die by coarse channel, fine channel and baseline, those that differ from the nominal count:
(scope, fine channel, a, b, count). -/
def State.validEntries (s : State) (d : Nat) (x : Sub) (blocks : Nat) (lost : Tab Nat) : List (Bool × Nat × Nat × Nat × Nat) :=
  let f := s.numF
  let nom := x.integ * (x.len / f)
  let n := x.sigs.length
  let count (fine a b : Nat) : Nat := blocks * (x.len / f) - getT 0 lost (defKey d fine a b)
  let pairs := (List.range n).flatMap fun a => ((List.range n).filter fun b => decide (a ≤ b)).map fun b => (a, b)
  let fines := s.fineOf d x.chans
  let same (fine : Nat) (e : Nat × Nat) : Bool :=
    (List.range f).all fun k => count (fine / f * f + k) e.1 e.2 == count (fine / f * f) e.1 e.2
  fines.flatMap fun fine => (pairs.filter fun e => count fine e.1 e.2 != nom && (!same fine e || fine % f == 0)).map fun e =>
    (same fine e, fine, e.1, e.2, count fine e.1 e.2)

def validEntryBytes (e : Bool × Nat × Nat × Nat × Nat) : List Byte :=
  rows [bnat e.1 * 2 ^ 31 + e.2.2.2.1 * 2 ^ 12 + e.2.2.1, e.2.1, e.2.2.2.2]

/-- One record of a VALID set (Table 4.8). -/
def validBody (d seq nominal vis blocks : Nat) (lastRec : Bool) (es : List (Bool × Nat × Nat × Nat × Nat)) : List Byte :=
  rows [bnat lastRec * 2 ^ 31 + d * 2 ^ 16 + es.length, seq, nominal, vis, blocks, 0, 0, 0] ++ es.flatMap validEntryBytes

/-- The parts of a list for records of at most `n` entries; one empty part for an empty list. -/
def recordParts {α : Type} (n : Nat) (l : List α) : List (List α) := if l.isEmpty then [[]] else chunksOf n l

/-- VALID_EMIT: the set of an integration that has ended on the die (R117). -/
def State.emitValid (s : State) (d : Nat) (r : Drained) (lost : Tab Nat) : State :=
  let n := r.pass.sub
  let x := s.subr n
  let parts := recordParts (1024 * s.fieldOf 0x500000 13 8) (s.validEntries d x r.blocks lost)
  let vis := getT 0 x.visSent d
  let s := s.forEach parts.zipIdx fun s e =>
    (s.emitDie d x.dest (s.mkRec 0x02 x.tenant n r.first (x.blockCtr r.first)
      (validBody d e.2 (x.integ * (x.len / s.numF)) vis r.blocks (e.2 + 1 == parts.length) e.1))).1
  s.modSub n fun x => { x with visSent := setT 0 x.visSent d 0 }

/-- VIS_EMIT: the record of the next drained pass, and the VALID set after the last of an integration. -/
def State.visEmit (s : State) (d : Nat) : State :=
  match (s.die d).drained with
  | [] => s
  | r :: rs =>
    let s := s.modDie d fun y => { y with drained := rs }
    match r.valid with
    | some lost => s.emitValid d r lost
    | none =>
      let x := s.subr r.pass.sub
      let (s, kept) := s.emitDie d x.dest (s.mkRec 0x01 x.tenant r.pass.sub r.first (x.blockCtr r.first) (visBody d x r))
      if kept then s.modSub r.pass.sub fun x => { x with visSent := modT 0 x.visSent d (· + 1) } else s

def execVisEmit (die : Fin 4) (s : State) : Host.Outcome State Fault Refusal := .next (s.visEmit die)

/-! ### AMEND records (R160, R161) -/

/-- A count entry: KIND, SCOPE, a, b, fine channel, DELTA. -/
structure CountEnt where
  kind  : Nat := 0
  scope : Bool := false
  a     : Nat := 0
  b     : Nat := 0
  fine  : Nat := 0
  delta : Nat := 0
deriving DecidableEq, Repr

def CountEnt.bytes (e : CountEnt) : List Byte :=
  rows [e.kind * 2 ^ 30 + bnat e.scope * 2 ^ 29 + e.b * 2 ^ 12 + e.a, e.fine, ofSigned 32 (-(e.delta : Int))]

/-- The baselines that an entry of KIND 1 or 2 stands for. -/
def kindPairs (n : Nat) (kind a : Nat) : List (Nat × Nat) :=
  (List.range n).flatMap fun i => ((List.range n).filter fun j => decide (i ≤ j) && (kind == 2 || i == a || j == a)).map fun j => (i, j)

/-- The count entries of one fine channel: one of KIND 2 for an ALL flag, or of KIND 1 for a signal, where every baseline
of the kind changes alike; else one for each baseline. -/
def countsOf (n : Nat) (kind a fine : Nat) (ds : List ((Nat × Nat × Nat) × Nat)) : List CountEnt :=
  let mine := ds.filter fun e => e.1.1 == fine
  match mine with
  | [] => []
  | e0 :: _ =>
    let ps := kindPairs n kind a
    if mine.length == ps.length && (ps.all fun p => mine.any fun e => e.1.2 == p && e.2 == e0.2) then
      [{ kind := kind, a := if kind == 1 then a else 0, fine := fine, delta := e0.2 }]
    else (sortBy (fun e => e.1.2.1 * 4096 + e.1.2.2) mine).map fun e => { a := e.1.2.1, b := e.1.2.2, fine := fine, delta := e.2 }

/-- Entries of KIND 1 or 2 that are alike in all F fine channels of a coarse channel become one of SCOPE 1. -/
def scopeUp (f : Nat) (es : List CountEnt) : List CountEnt :=
  es.filterMap fun e =>
    let base := e.fine / f * f
    let alike := (List.range f).all fun k => es.any fun x => x == { e with fine := base + k }
    if e.kind != 0 && alike then (if e.fine == base then some { e with scope := true } else none) else some e

def State.countSection (s : State) (d : Nat) (a : Amend) : List CountEnt :=
  let x := s.subr a.part.sub
  let kind := if a.part.entry.all then 2 else 1
  scopeUp s.numF ((s.fineOf d x.chans).flatMap fun f => countsOf x.sigs.length kind (x.sigs.idxOf a.part.entry.sig) f a.delta)

/-- A difference entry of the sparse form: fine channel, a, b, value. -/
def sparseEntries (x : Sub) (a : Amend) : List (Nat × Nat × Nat × Cx) :=
  sortBy (fun e => (e.1 * 4096 + e.2.1) * 4096 + e.2.2.1)
    ((a.jobs.zipIdx.flatMap fun e => e.1.pairs.flatMap fun t =>
      ((e.1.cells t.2).zipIdx.filter fun c => x.realPair c.1).map fun c =>
        (e.1.fine, c.1.1, c.1.2, (((a.diffs.find? fun y => y.1 == 8 * e.2 + t.1).map (·.2)).getD []).getD c.2 {})).filter
      fun e => a.delta.any fun y => y.1 == (e.1, e.2.1, e.2.2.1))

def sparseBytes (e : Nat × Nat × Nat × Cx) : List Byte := rows [e.2.2.1 * 2 ^ 12 + e.2.1, e.1] ++ exactBytes e.2.2.2

/-- The products section of one dense job: its descriptor and its differences. -/
def denseJob (a : Amend) (i : Nat) (j : Job) : List Byte × List Byte × Nat :=
  let vs := j.pairs.flatMap fun t =>
    let bank := ((a.diffs.find? fun y => y.1 == 8 * i + t.1).map (·.2)).getD []
    ((List.range 256).filter fun k => t.2 != j.shared || decide (k / 16 ≤ k % 16)).map fun k => bank.getD k {}
  (j.descriptor, vs.flatMap exactBytes, vs.length)

/-- The product sections of a set: JOBS, PRODUCTS and bytes, each at most 1 MiB with its 64 bytes of head (R161). -/
def amendSections (x : Sub) (a : Amend) : List (Nat × Nat × List Byte) :=
  if a.part.entry.all then
    (recordParts 40 a.jobs.zipIdx).map fun l =>
      let ds := l.map fun e => denseJob a e.2 e.1
      (l.length, sumN (ds.map (·.2.2)), ds.flatMap (·.1) ++ ds.flatMap (·.2.1))
  else (recordParts 52425 (sparseEntries x a)).map fun l => (0, l.length, l.flatMap sparseBytes)

/-- The records of a set: the count section stands in the last, or in one of its own where it would not fit. -/
def amendRecords (x : Sub) (a : Amend) (cs : List CountEnt) : List (Nat × Nat × List Byte × List CountEnt) :=
  let secs := amendSections x a
  let fits := match secs.getLast? with
    | some l => decide (64 + l.2.2.length + 12 * cs.length ≤ 1048576)
    | none => true
  let heads := secs.map fun l => (l.1, l.2.1, l.2.2, ([] : List CountEnt))
  if fits then (heads.dropLast) ++ (match secs.getLast? with | some l => [(l.1, l.2.1, l.2.2, cs)] | none => [])
  else heads ++ [(0, 0, [], cs)]

/-- Table 6.5. -/
def amendBody (d id seq : Nat) (x : Sub) (a : Amend) (lastRec : Bool) (r : Nat × Nat × List Byte × List CountEnt) : List Byte :=
  let e := a.part.entry
  rows [ bnat x.packed * 2 ^ 31 + bnat e.all * 2 ^ 30 + bnat lastRec * 2 ^ 29
           + (if a.part.cls == .late then 2 else 1) * 2 ^ 20 + d * 2 ^ 16 + r.2.2.2.length
       , r.2.1, seq, id, e.tag.toNat, e.tenant * 2 ^ 24 + r.1, 0, 0 ]
    ++ r.2.2.1 ++ r.2.2.2.flatMap CountEnt.bytes

/-- AMEND_EMIT: the set of the next corrected part; one record lost makes the part AMEND_LOST. -/
def State.amendEmit (s : State) (d : Nat) : State :=
  match (s.die d).amends with
  | [] => s
  | a :: as =>
    let n := a.part.sub
    let x := s.subr n
    let s := s.modDie d fun y => { y with amends := as }
    let rs := amendRecords x a (s.countSection d a)
    let id := getT 0 x.amendId d
    let r := rs.zipIdx.foldl (fun (acc : State × Bool) e =>
      let (s, kept) := acc.1.emitDie d x.dest (acc.1.mkRec 0x06 x.tenant n a.part.block (x.blockCtr a.part.block)
        (amendBody d id e.2 x a (e.2 + 1 == rs.length) e.1))
      (s, acc.2 && kept)) (s, true)
    ((r.1.modSub n fun x => { x with amendId := setT 0 x.amendId d (id + 1) }).finishPart d a.part
      (if r.2 then a.part.cls else .amendLost)).completeFlagPosts

def execAmendEmit (die : Fin 4) (s : State) : Host.Outcome State Fault Refusal := .next (s.amendEmit die)

/-! ### Bricks returned absent (R95, R154, R165) -/

/-- The first running pass that reads a band of a fine channel. -/
def Pass.reads (p : Pass) (fine band : Nat) : Bool :=
  p.jobs.any fun j => j.fine == fine && (j.shared == band || j.other.contains (some band))

/-- A correction's re-read came back absent: the whole part on the die is UNAMENDABLE (R165). -/
def State.failPart (s : State) (d : Nat) (k : Nat × Nat × Nat) : State :=
  let s := s.modDie d fun y => { y with passes := y.passes.filter fun p => p.correct != some k }
  match (s.die d).parts.find? (fun q => q.key == k) with
  | some q => (s.finishPart d q .unamendable).startNext d |>.completeFlagPosts
  | none => s

/-- HBM_READ_RETURN: an uncorrectable error is counted, and the brick is absent to the read it served: that of the
running pass that needs it, or of a buffered beam. -/
def State.readReturn (s : State) (d k : Nat) (ue : Bool) (fine band u : Nat) : State :=
  if !ue then s
  else
    let s := s.modStack d k fun x => { x with ue := satTo 0xFFFF (x.ue + 1) }
    match takeFirst (fun p => p.running && p.reads fine band) (s.die d).passes with
    | none => s.modDie d fun y => { y with beamUe := y.beamUe ++ [(fine, band, u)] }
    | some (p, _) => match p.correct with
      | some key => s.failPart d key
      | none => s.modDie d fun y =>
        { y with ueLog := if y.ueLog.length < 1024 then y.ueLog ++ [(fine, band, u)] else y.ueLog,
                 ueOverflow := y.ueOverflow || decide (1024 ≤ y.ueLog.length),
                 passes := mapIf (fun q => q == p) (fun q => { q with ue := q.ue ++ [(fine, band, u)] }) y.passes }

def execHbmReadReturn (die : Fin 4) (stack : Fin 2) (ue : Bool) (fine band u : Nat) (s : State) : Host.Outcome State Fault Refusal :=
  .next (if !s.dieOn die then s
    else if s.inReset die then s.absorb die
    else s.readReturn die stack ue fine band u)

end Sys2Proof.Machine
end

