-- ==== Sys2Proof/Machine/Freq.lean ====
section
/-! DEFINITION. Sky frequencies: channel centres, the band of a fine channel and of a carrier chain, and the self lines
that lie in a band (R133, R150, R170). Frequencies are in units of 2^-16 Hz. -/
namespace Sys2Proof.Machine

open Sys2Proof

/-- The centre of fine channel `k` of a package-local coarse channel. -/
def State.fineFreq (s : State) (ch k : Nat) : Int :=
  s.coarseFreq (s.chBase + ch) + s.skySign * ((k : Int) - (s.numF / 2 : Nat)) * (coarseWidth / (s.numF : Int))

/-- The band of a die-local fine channel, edges included. -/
def State.fineBand (s : State) (d fine : Nat) : Int × Int :=
  let c := s.fineFreq (s.chPerDie * d + fine / s.numF) (fine % s.numF)
  let h := coarseWidth / (2 * (s.numF : Int))
  (c - h, c + h)

/-- Output rate f_out of a chain. -/
def Chain.fOut (x : Chain) : Int := (x.fs : Int) * 65536 * x.rs / 2 ^ (32 + x.d)

/-- The sky frequency that a chain is tuned to. -/
def State.tunedFreq (s : State) (x : Chain) : Int :=
  s.stitchCentre x - rneDiv (x.freq.toInt * (x.fs * 65536 : Nat)) (2 ^ 48)

/-- A chain's passband, ±0.375 f_out about its tuned frequency (R174). -/
def State.passband (s : State) (x : Chain) : Int × Int :=
  let h := x.fOut * 3 / 8
  (s.tunedFreq x - h, s.tunedFreq x + h)

/-- A line of the SELFLINE table in force lies in a band, edges included (R150). -/
def State.selfIn (s : State) (b : Int × Int) : Bool :=
  s.rst.selfTable.any fun l =>
    let hi := min b.2 (l.fMax * 1000 * 65536 : Nat)
    let n := max 1 (ceilDiv b.1.toNat (max 1 l.f))
    l.f != 0 && decide (((n * l.f : Nat) : Int) ≤ hi)

end Sys2Proof.Machine
end

