-- ==== Sys2Proof/Machine/Excise.lean ====
section
/-! DEFINITION. Look-ahead excision: policies, flag posts from the host, the engines and the shipped firmware, and the
way of a flag from the hub to a die (R143 to R153). -/
namespace Sys2Proof.Machine

open Sys2Proof

/-! ### Flag entries (R143 to R145, R152) -/

/-- The entry of Table 6.1 in 16 bytes. -/
def flagOfBytes (t : Nat) (bs : List Byte) : Flag :=
  let w (i : Nat) : Nat := leAt bs (4 * i) 4
  { all := bit (w 0) 31, cause := fld (w 0) 28 24, ch := fld (w 0) 23 16, sig := fld (w 0) 11 0,
    first := w 1 + fld (w 2) 5 0 * 2 ^ 32, n := fld (w 2) 31 16, tag := BitVec.ofNat 32 (w 3), tenant := t }

def flagReserved (bs : List Byte) : Bool :=
  fld (leAt bs 0 4) 30 29 != 0 || fld (leAt bs 0 4) 15 12 != 0 || fld (leAt bs 8 4) 15 6 != 0

/-- The checks of R144. -/
def State.flagOk (s : State) (f : Flag) : Bool := decide (f.cause ≤ 6) && decide (f.ch < 4 * s.chPerDie) && f.n != 0

/-- The key of the entries that may merge (R145). -/
def Flag.key (f : Flag) : Nat := (f.tenant * 256 + f.ch) * 8192 + (if f.all then 4096 else f.sig)

/-- Runs that entries of one key make, in order of their first slot; touching or overlapping ones are one. -/
def runCount : Option Nat → List Flag → Nat
  | _, [] => 0
  | none, f :: r => 1 + runCount (some (f.first + f.n)) r
  | some e, f :: r => if f.first ≤ e then runCount (some (max e (f.first + f.n))) r else 1 + runCount (some (f.first + f.n)) r

/-- Entries of the flag table that these flags occupy after merging (R145). -/
def tableUse (fs : List Flag) : Nat :=
  let fs := fs.filter fun f => f.kind == 0
  sumN ((dedup (fs.map Flag.key)).map fun k => runCount none (sortBy (·.first) (fs.filter fun f => f.key == k)))

/-- The flags on their way to a die or in its table. -/
def State.flagsFor (s : State) (d : Nat) : List Flag :=
  let y := s.die d
  y.flags ++ y.flagRx ++ y.flagTx ++ s.posts.filter fun f => s.dieOfCh f.ch == d

/-- The status of storing more entries: TABLE_CAP of the tenant on each die, then the die's table of 65,536 (R152). -/
def State.flagRoom (s : State) (t : Nat) (new : List Flag) : Nat :=
  let on (d : Nat) : List Flag := new.filter fun f => s.dieOfCh f.ch == d
  let past (d : Nat) : Bool :=
    !(on d).isEmpty && decide (s.fieldOf 0x700000 15 0 < tableUse (((s.flagsFor d).filter fun f => f.tenant == t) ++ on d))
  let full (d : Nat) : Bool := !(on d).isEmpty && decide (65536 < tableUse (s.flagsFor d ++ on d))
  if (List.range 4).any past then stQuota else if (List.range 4).any full then stCapacity else stOK

/-- A post waits for the hub, which accepts posts one at a time (R146). -/
def State.postFlag (s : State) (f : Flag) : State :=
  { s with posts := s.posts ++ [{ f with seqno := s.flagSeq }], flagSeq := s.flagSeq + 1 }

/-- A post that fails is dropped, counted and reported (R152). -/
def State.dropFlag (s : State) (t ch : Nat) : State :=
  (s.modFn t fun f => { f with flagDrop := modT 0 f.flagDrop (s.dieOfCh ch % 4) fun n => satTo 0xFFFF (n + 1) }).postStatus t
    stDataLost 15 0 0 0

/-- A post by an engine or by the shipped firmware. -/
def State.enginePost (s : State) (f : Flag) (reserved : Bool) : State :=
  if reserved || !s.flagOk f || (f.kind == 0 && s.flagRoom f.tenant [f] != stOK) then s.dropFlag f.tenant f.ch else s.postFlag f

/-- FLG: the entry in an engine's memory; a tenant program's CAUSE is FIRMWARE (R215). -/
def State.flagPort (s : State) (e : Nat) (bs : List Byte) : State :=
  let f := flagOfBytes (s.engTenant e) bs
  s.enginePost (if (s.eng e).shipped.isSome then f else { f with cause := 6 }) (flagReserved bs)

/-- FLAG_POST (0x21): every entry is checked before any is stored; it completes when its parts are final (R152, R164). -/
def State.flagPost (s : State) (c : RingCmd) (r : CmdRef) : State :=
  let n := c.arg0.toNat
  if n == 0 || decide (4096 < n) then s.refuse r stConflict (argOff 0) 0
  else if c.buf.length < 16 * n then s.refuse r stConflict 0x10 0
  else
    let es := (List.range n).map fun i => (c.buf.drop (16 * i)).take 16
    let fs := es.map fun b => { flagOfBytes c.fn b with host := true }
    match (List.range n).find? (fun i => flagReserved (es.getD i []) || !s.flagOk (fs.getD i {})) with
    | some i => s.refuse r stConflict (bufOff (16 * i)) 0
    | none =>
      if s.flagRoom c.fn fs != stOK then s.refuse r (s.flagRoom c.fn fs) noField 0
      else
        let lo := s.flagSeq
        let s := s.forEach fs State.postFlag
        { s with flagWaits := s.flagWaits ++ [{ cmd := r, lo := lo, hi := lo + n }] }

def execFlagPost (c : RingCmd) (s : State) : Host.Outcome State Fault Refusal :=
  .next (s.startCmd 0x21 false c fun r s => s.flagPost c r)

/-! ### Retirement, acceptance and receipt (R145, R146) -/

/-- The oldest counter whose buffer half still stands, for a plan with this start and block length. -/
def State.oldestKept (s : State) (first len : Nat) : Nat := first + ((s.grid.start - first) / len - 1) * len

/-- The entry still covers a slot whose buffer half has not been overwritten, in some plan it applies to. -/
def State.flagLive (s : State) (f : Flag) : Bool :=
  let stop := (f.first + f.n) * 1024
  !s.grid.started || decide (s.grid.start - s.grid.period < stop)
    || s.subs.any (fun e => match e.2.first with
        | some s0 => f.onSub e.2 && s.flagReaches f e.2.tenant && decide (s.oldestKept s0 e.2.len < stop)
        | none => false)
    || s.beams.any (fun e => match e.2.first with
        | some s0 => e.2.src != .direct && e.2.chans.contains f.ch && s.flagReaches f e.2.tenant && decide (s.oldestKept s0 e.2.len < stop)
        | none => false)

/-- FLAG_RETIRE. -/
def State.retireFlags (s : State) (d : Nat) : State := s.modDie d fun y => { y with flags := y.flags.filter s.flagLive }

/-- FLAG_ACCEPT: the first post is stamped with the TILE_CLK counter and sent to its die; one for a disabled die is
stored and has no effect (R144, R146). -/
def State.flagAccept (s : State) : State :=
  match s.posts with
  | [] => s
  | f :: r =>
    let f := { f with post := s.now }
    let d := s.dieOfCh f.ch
    let s := ({ s with posts := r } : State).retireFlags d
    (s.modDie d fun y => if s.dieOn d then { y with flagTx := y.flagTx ++ [f] } else { y with flags := y.flags ++ [f] }).completeFlagPosts

def execFlagAccept (s : State) : Host.Outcome State Fault Refusal := .next s.flagAccept

/-- FLAG_RECEIVE: the die has the flag; it takes effect at the next pass switch or rotation (R146). -/
def execFlagReceive (die : Fin 4) (s : State) : Host.Outcome State Fault Refusal :=
  .next ((s.modDie die fun y => { y with flagRx := y.flagRx ++ y.flagTx.take 1, flagTx := y.flagTx.drop 1 }).completeFlagPosts)

/-! ### Policies and the shipped detection firmware (R148 to R150, R221) -/

/-- Engines that a tenant owns and the device may take: HALTED and without a shipped image, lowest first. -/
def State.takeable (s : State) (t : Nat) : List Nat :=
  (List.range 96).filter fun e => s.engOwner e == some t && (s.eng e).st == .halted && (s.eng e).shipped.isNone && !s.resetting (21 + e / 8)

/-- The device loads a shipped image onto an engine, which then runs. -/
def Eng.ship (x : Eng) (image : Nat) : Eng :=
  { x.cleared with st := .running, shipped := some image, pool := some image, task := none }

def State.shipOn (s : State) (es : List Nat) (image : Nat) : State := s.forEach es fun s e => s.modEng e fun x => x.ship image

/-- A tenant's engines with an image. -/
def State.shippedOf (s : State) (t image : Nat) : List Nat :=
  (List.range 96).filter fun e => s.engOwner e == some t && (s.eng e).shipped == some image

/-- The pool number of the detection firmware (every image number of a profile is below). -/
def detImage : Nat := 256

def usesFirmware (preset : Nat) : Bool := within 1 preset 3

/-- The items of Table 6.3. -/
def policyItems : List (Nat × Nat) := [(1, 2), (2, 1), (3, 1), (4, 1), (5, 1), (6, 1)]

/-- Items that a policy needs: all, but PAD, SELF and the DEST only where firmware runs. -/
def policyNeeds (preset : Nat) : List (Nat × Nat) :=
  [(1, 0), (4, 0), (5, 0), (6, 0)] ++ (if usesFirmware preset then [(1, 1), (2, 0), (3, 0)] else [])

/-- EXC_POLICY (0x20): Table 6.3's checks; the policy takes effect at the next freeze (R148). -/
def State.excPolicy (s : State) (c : RingCmd) (r : CmdRef) : State :=
  let n := c.arg0.toNat
  match parseParams c.buf n with
  | none => s.refuse r stConflict 0x10 0
  | some ps =>
    match (List.range n).find? (paramReserved c.buf), badPids policyItems ps with
    | some i, _ => s.refuse r stConflict (bufOff (16 * i)) 0
    | none, some off => s.refuse r stConflict (bufOff off) 0
    | none, none =>
      let preset := paramD ps 1 0 0
      if !(policyNeeds preset).all fun x => (param? ps x.1 x.2).isSome then s.refuse r stConflict noField 0
      else match paramBytes c.buf (paramD ps 4 0 0) with
        | none => s.refuse r stConflict (paramOff ps 4 0) 0
        | some mask =>
          let sub := (bitmapOf mask).filter fun p => decide (p < 256)
          if 4 < preset then s.refuse r stConflict (paramOff ps 1 0) 1
          else if usesFirmware preset && !s.destRing c.fn (paramD ps 1 1 0) then s.refuse r stConflict (paramOff ps 1 1) 1
          else if usesFirmware preset && (s.shippedOf c.fn detImage).isEmpty && decide ((s.takeable c.fn).length < 2) then
            s.refuse r stQuota (paramOff ps 1 0) 1
          else if usesFirmware preset && decide (15 < paramD ps 2 0 0) then s.refuse r stConflict (paramOff ps 2 0) 2
          else if usesFirmware preset && decide (2 < paramD ps 3 0 0) then s.refuse r stConflict (paramOff ps 3 0) 3
          else if sub.any fun p => !s.pubFlag p c.fn then s.refuse r stConflict (paramOff ps 4 0) 4
          else if 65535 < paramD ps 6 0 0 then s.refuse r stConflict (paramOff ps 6 0) 6
          else
            let pol : Policy := { preset := preset, dest := paramD ps 1 1 0, pad := paramD ps 2 0 0, self := paramD ps 3 0 0, subscribe := sub,
                                  latePub := paramD ps 5 0 0, lateCap := paramD ps 6 0 0 }
            let s := if usesFirmware preset && (s.shippedOf c.fn detImage).isEmpty then s.shipOn ((s.takeable c.fn).take 2) detImage else s
            (s.modFn c.fn fun f => { f with policyNext := some pol }).complete r stOK 0 0

def execExcPolicy (c : RingCmd) (s : State) : Host.Outcome State Fault Refusal :=
  .next (s.startCmd 0x20 false c fun r s => s.excPolicy c r)

/-- At a freeze a tenant's new policy takes effect; firmware that it no longer needs gives its engines back (R148, R221). -/
def State.applyPolicy (s : State) (t : Nat) : State :=
  match (s.fn t).policyNext with
  | none => s
  | some p =>
    let s := s.modFn t fun f => { f with policy := p, policyNext := none, detOpen := if usesFirmware p.preset then f.detOpen else [] }
    if usesFirmware p.preset then s
    else (s.modDec fun d => { d with tasks := d.tasks.filter fun x => !(x.stage == .excision && x.tenant == t) }).forEach (s.shippedOf t detImage) fun s e =>
      s.modEng e fun x => { x with st := .halted, shipped := none, pool := none, task := none }

/-! ### Detections into flags (R149, R150) -/

/-- The tenant has the detection firmware. -/
def State.detects (s : State) (t : Nat) : Bool := usesFirmware (s.fn t).policy.preset && !(s.shippedOf t detImage).isEmpty

/-- The firmware runs: one of its engines is neither in RESET nor in FAULT. -/
def State.firmwareUp (s : State) (t : Nat) : Bool :=
  s.detects t && (s.shippedOf t detImage).any fun e => (s.eng e).st != .reset && (s.eng e).st != .fault

/-- How the firmware posts a detection: the kind of its entries and their CAUSE, from the preset and SELF. -/
def Policy.posts (p : Policy) (self : Bool) (cause : Nat) : Nat × Nat :=
  if self && p.self == 0 then (1, cause)
  else (if p.preset == 1 then 2 else 0, if self && p.self == 1 then 5 else cause)

/-- Post a run of slots, in entries of at most 65,535. -/
def State.postRun (s : State) (f : Flag) (lo hi : Nat) : State :=
  s.forEach (List.range ((hi - lo) / 65535 + 1)) fun s i =>
    s.enginePost { f with first := lo + 65535 * i, n := min 65535 (hi + 1 - (lo + 65535 * i)) } false

/-- Slots j1 to j2 of a channel under the tenant's PAD; the TAG is the firmware's own, which the manual does not state. -/
def State.postDet (s : State) (t ch : Nat) (sig : Option Nat) (kc : Nat × Nat) (lo hi : Nat) : State :=
  let f : Flag := { all := sig.isNone, ch := ch, sig := sig.getD 0, tenant := t, kind := kc.1, cause := kc.2, tag := BitVec.ofNat 32 s.freeNat }
  s.drawFree.postRun f lo hi

/-- The slot after the last that an open event has flagged, and the entry it follows. -/
def State.findOpen (s : State) (t d fine : Nat) : Option DetOpen :=
  (s.fn t).detOpen.find? fun o => o.die == d && o.fine == fine

def State.dropOpen (s : State) (t d fine : Nat) : State :=
  s.modFn t fun f => { f with detOpen := f.detOpen.filter fun o => !(o.die == d && o.fine == fine) }

/-- The package-local coarse channel of a die-local fine channel. -/
def State.coarseOf (s : State) (d fine : Nat) : Nat := s.chPerDie * d + fine / s.numF

/-- One detection in the firmware's hands (Table 6.4). -/
def State.detect (s : State) (t : Nat) (x : Detection) : State :=
  let p := (s.fn t).policy
  match x with
  | .thresholdOpen d fine j =>
    let kc := p.posts (s.selfIn (s.fineBand d fine)) 1
    let s := s.postDet t (s.coarseOf d fine) none kc (j - p.pad) j
    let o : DetOpen := { die := d, fine := fine, next := j + 1, kind := kc.1, cause := kc.2 }
    (s.dropOpen t d fine).modFn t fun f => { f with detOpen := f.detOpen ++ [o] }
  | .thresholdClose d fine k =>
    match s.findOpen t d fine with
    | none => s
    | some o => (s.dropOpen t d fine).postDet t (s.coarseOf d fine) none (o.kind, o.cause) o.next (max o.next (k + p.pad))
  | .burst c j1 j2 =>
    let y := s.chain c
    if y.tenant != t then s
    else
      let kc := p.posts (s.selfIn (s.passband y)) 2
      s.forEach (List.range (max 1 y.m)) fun s j => s.postDet t (y.firstCh + j) none kc (j1 - p.pad) (j2 + p.pad)
  | .topkBeam plan c first n =>
    if p.preset != 3 || (s.beam plan).tenant != t then s
    else s.postDet t c none (0, 3) (first - p.pad) (first + n - 1 + p.pad)
  | .topkCorr sub c first n a b =>
    if p.preset != 3 || (s.subr sub).tenant != t then s
    else s.forEach [a, b] fun s g => s.postDet t c (some g) (0, 4) (first - p.pad) (first + n - 1 + p.pad)

/-! ### Detection tasks (R151, R233, R239) -/

/-- The first slot that a report names. -/
def detSlot (x : Detection) : Nat :=
  match x with
  | .thresholdOpen _ _ j | .thresholdClose _ _ j | .burst _ j _ | .topkBeam _ _ j _ | .topkCorr _ _ j _ _ _ => j

/-- C at the boundary of a counter: the instant it had, or the one at which its samples fall due. -/
def State.nominalAt (s : State) (ctr : Nat) : Nat :=
  match s.boundAt ctr with
  | some c => c
  | none => (s.boundAt s.grid.start).getD s.now + (ctr - s.grid.start) * 640

/-- The earliest D_b among the tenant's subarrays whose block b holds a slot (R151). -/
def State.detDeadline (s : State) (t j : Nat) : Option Nat :=
  minBy id ((s.subs.filter fun e => e.2.tenant == t && e.2.status.holds).filterMap fun e => match e.2.first with
    | some f => if 1024 * j < f then none
        else some (s.nominalAt (e.2.blockCtr ((1024 * j - f) / e.2.len + 1)) + s.graceCycles e.2.len)
    | none => none)

/-- The task of a report; where no subarray of the tenant covers its slots the manual states no deadline. -/
def State.detTask (s : State) (t : Nat) (x : Detection) : Task :=
  { stage := .excision, tenant := t, slot := detSlot x, deadline := (s.detDeadline t (detSlot x)).getD s.freeNat, slotCtr := 1024 * detSlot x, det := some x }

/-- The first queued detection task that a free engine may run is dispatched, and the firmware turns its report into flags. -/
def State.startDetection (s : State) (t : Task) : State :=
  match s.poolFree t.tenant detImage, t.det with
  | some e, some x => ((s.dispatch e t).modTask t.seq fun t => { t with det := none }).detect t.tenant x
  | _, _ => s

def State.startDetections (s : State) : State := s.forEach (s.queued fun t => t.stage == .excision) State.startDetection

/-- DETECTION_INPUT: a report reaches the hub's detection input; for a tenant with the firmware a task is released. -/
def execDetectionInput (tenant : Fin 256) (d : Detection) (s : State) : Host.Outcome State Fault Refusal :=
  .next (if s.detects tenant then (s.drawFree.release (s.detTask tenant d)).startDetections else s)

/-- At each slot an open event is extended by one slot (Table 6.4). -/
def State.extendOpen (s : State) (d j : Nat) : State :=
  s.forEach (s.fns.map (·.1)) fun s t =>
    if !s.firmwareUp t then s
    else s.forEach ((s.fn t).detOpen.filter fun o => o.die == d && decide (o.next ≤ j)) fun s o =>
      let s := s.postDet t (s.coarseOf d o.fine) none (o.kind, o.cause) o.next j
      s.modFn t fun f => { f with detOpen := mapIf (fun x => x.die == d && x.fine == o.fine) (fun x => { x with next := j + 1 }) f.detOpen }

/-- SLOT_POWER_COMPARE: every fine channel of the die is compared, and open events extend their flags (R85, R149). -/
def execSlotPowerCompare (die : Fin 4) (slot : Nat) (s : State) : Host.Outcome State Fault Refusal :=
  .next (if s.dieOn die && !s.inReset (12 + die) then (s.comparePowers die slot).extendOpen die slot else s)

end Sys2Proof.Machine
end

