-- ==== Sys2Proof/Machine/CchCmd.lean ====
section
/-! DEFINITION. The commands of the carrier chains, their admission, and the end of a decoder mode switch (R176 to R178,
R221, R225, R226, R238, R260, R261). -/
namespace Sys2Proof.Machine

open Sys2Proof

/-! ### The checks of Table 7.3 -/

/-- A failed check: status, RESULT0 and the check's order number. -/
structure Fail where
  status : Nat := 0
  field  : Nat := 0
  check  : Nat := 0
deriving DecidableEq, Repr

abbrev Check := Except Fail Unit

def failIf (b : Bool) (status field check : Nat) : Check := if b then .error { status := status, field := field, check := check } else .ok ()

/-- Run checks in order; the first failure decides. -/
def checks : List Check → Check
  | [] => .ok ()
  | .ok () :: r => checks r
  | .error f :: _ => .error f

/-- A PID of the SEARCH row that names no item (R261). -/
def badSearch (p : Param) : Bool := p.row == 8 && within 25 p.item 31

/-- An item must be there. -/
def need (ps : List Param) (row item : Nat) : Check := failIf (param? ps row item).isNone stConflict noField 0

def inParam (ps : List Param) (row item lo hi : Nat) : Check :=
  failIf (!within lo (paramD ps row item 0) hi) stConflict (paramOff ps row item) row

/-- A parameter list: its entries, or the failure of R260. -/
def paramList (buf : List Byte) (n : Nat) (items : List (Nat × Nat)) : Except Fail (List Param) :=
  match parseParams buf n with
  | none => .error { status := stConflict, field := 0x10 }
  | some ps =>
    match (List.range n).find? (paramReserved buf), badPids items ps, ps.find? badSearch with
    | some i, _, _ => .error { status := stConflict, field := bufOff (16 * i) }
    | none, some off, _ => .error { status := stConflict, field := bufOff off }
    | none, none, some p => .error { status := stConflict, field := bufOff p.off }
    | none, none, none => .ok ps

/-- Tuning as a chain holds it. -/
structure Tuning where
  firstCh : Nat := 0
  m       : Nat := 1
  d       : Nat := 0
  rs      : Nat := 4294967296
  freq    : BitVec 48 := 0
  center  : Option Nat := none
deriving DecidableEq, Repr

/-- Channels FIRST_CH to FIRST_CH + M − 1 all lie in the plan. -/
def inPlan (b : Beam) (first m : Nat) : Bool := (List.range m).all fun j => b.chans.contains (first + j)

/-- R177 steps 1 to 7, in units of 1/400 Hz along the channel index. -/
def State.basicTuning (s : State) (b : Beam) (ps : List Param) : Except Fail Tuning :=
  let center := paramD ps 2 0 0
  let rate := paramD ps 2 1 0
  if !within 240 rate 20000000 then .error { status := stConflict, field := paramOff ps 2 1, check := 2 }
  else if 2 ^ 40 ≤ center then .error { status := stConflict, field := paramOff ps 2 0, check := 2 }
  else
    let h : Int := 390625000
    let u : Int := s.skySign * ((center * 4 : Nat) - (s.f0 * 400 : Nat))
    let lo := u - (250 * rate : Nat)
    let hi := u + (250 * rate : Nat)
    let first := (lo + h) / (2 * h)
    let last := max first (-((h - hi) / (2 * h)))
    let m := (last - first + 1).toNat
    let local_ := first - s.chBase
    if local_ < 0 || (decide (m ≤ 16) && !inPlan b local_.toNat m) then .error { status := stConflict, field := paramOff ps 2 0, check := 2 }
    else if 16 < m then .error { status := stCapacity, field := paramOff ps 2 0, check := 2 }
    else
      let x : Chain := { firstCh := local_.toNat, m := m }
      let d := ((List.range 13).filter fun d => decide (rate * 2 ^ d ≤ x.fs)).getLast?.getD 0
      let rs := (rneDiv ((rate * 2 ^ d * 2 ^ 32 : Nat) : Int) x.fs).toNat
      if rs < 2 ^ 31 then .error { status := stCapacity, field := paramOff ps 2 1, check := 2 }
      else
        let off : Int := (center * 4 : Nat) - s.stitchCentre x * 400 / 65536
        .ok { firstCh := x.firstCh, m := m, d := d, rs := rs, center := some center,
              freq := BitVec.ofInt 48 (rneDiv (-off * (2 ^ 48 : Nat)) (400 * x.fs)) }

/-- Expert tuning. -/
def expertTuning (b : Beam) (ps : List Param) : Except Fail Tuning :=
  let p (i : Nat) : Nat := paramD ps 3 i 0
  let bad (i : Nat) : Except Fail Tuning := .error { status := stConflict, field := paramOff ps 3 i, check := 3 }
  if !within 1 (p 1) 16 then bad 1
  else if !inPlan b (p 0) (p 1) then bad 0
  else if 12 < p 2 then bad 2
  else if !within (2 ^ 31) (p 3) (2 ^ 32) then bad 3
  else .ok { firstCh := p 0, m := p 1, d := p 2, rs := p 3, freq := BitVec.ofNat 48 (p 4) }

def hasRow (ps : List Param) (row : Nat) : Bool := ps.any fun p => p.row == row

/-- The list checks of the tuning rows: one alternative and all of it (R260, R261). -/
def tuningItems (ps : List Param) : Check :=
  checks ([failIf (hasRow ps 2 && hasRow ps 3) stConflict noField 0]
    ++ (if hasRow ps 3 then (List.range 5).map (need ps 3) else [need ps 2 0, need ps 2 1]))

def State.tuning (s : State) (b : Beam) (ps : List Param) : Except Fail Tuning :=
  if hasRow ps 3 then expertTuning b ps else s.basicTuning b ps

/-- The SEARCH row: its items, and its values in range (R181, R182). -/
def searchItems (ps : List Param) : Check :=
  match paramD ps 8 0 0 with
  | 1 =>
    let hs := (List.range 8).filter fun h => (List.range 3).any fun i => (param? ps 8 (1 + 3 * h + i)).isSome
    checks ([failIf (hs.isEmpty || hs != List.range hs.length) stConflict noField 0]
      ++ hs.flatMap fun h => [need ps 8 (1 + 3 * h), need ps 8 (2 + 3 * h)])
  | 2 => checks ((List.range 7).map fun i => need ps 8 (32 + i))
  | _ => .ok ()

/-- Chips of a code, chip 0 in bit 0. -/
def chips (bs : List Byte) (n : Nat) : List Bool := (List.range n).map fun i => bit (bs.getD (i / 8) 0).toNat (i % 8)

def hypOf (buf : List Byte) (ps : List Param) (h : Nat) : Except Fail Hyp :=
  let len := paramD ps 8 (1 + 3 * h) 0
  let thr := paramD ps 8 (2 + 3 * h) 0
  let bad (i : Nat) : Except Fail Hyp := .error { status := stConflict, field := paramOff ps 8 (i + 3 * h), check := 8 }
  if !within 16 len 4096 then bad 1
  else if 65535 < thr then bad 2
  else match param? ps 8 (3 + 3 * h) with
    | none => .ok { len := len, thr := thr }
    | some v => match paramBytes buf v with
      | none => bad 3
      | some bs => if bs.length != (len + 7) / 8 then bad 3 else .ok { len := len, thr := thr, code := some (chips bs len) }

def hypsOf (buf : List Byte) (ps : List Param) : List Nat → Except Fail (List Hyp)
  | [] => .ok []
  | h :: r => match hypOf buf ps h, hypsOf buf ps r with
    | .ok x, .ok xs => .ok (x :: xs)
    | .error f, _ => .error f
    | _, .error f => .error f

def searchOf (buf : List Byte) (ps : List Param) : Except Fail Search :=
  let p (i : Nat) : Nat := paramD ps 8 i 0
  let bad (i : Nat) : Except Fail Search := .error { status := stConflict, field := paramOff ps 8 i, check := 8 }
  match p 0 with
  | 0 => .ok .none
  | 1 =>
    match hypsOf buf ps ((List.range 8).filter fun h => (param? ps 8 (1 + 3 * h)).isSome) with
    | .ok hs => .ok (.cont hs)
    | .error f => .error f
  | 2 =>
    if !within 2 (p 32) 64 then bad 32
    else if 1 < p 33 then bad 33
    else if !within 1 (p 34) 64 then bad 34
    else if 2 ^ p 34 ≤ p 35 then bad 35
    else if 15 < p 36 || p 34 ≤ p 36 then bad 36
    else if 1 < p 37 then bad 37
    else if 65535 < p 38 then bad 38
    else .ok (.sync (p 32) (p 33 == 1) (p 34) (p 35) (p 36) (p 37 == 1) (p 38))
  | _ => bad 0

/-- The items of Table 7.3. -/
def chainItems : List (Nat × Nat) :=
  [(1, 2), (2, 2), (3, 5), (4, 1), (5, 1), (6, 5), (7, 4), (8, 39), (9, 3), (10, 6), (11, 1)]

/-- The list checks of CCH_START. -/
def chainListOk (ps : List Param) : Check :=
  checks ([need ps 1 0, need ps 1 1, tuningItems ps, need ps 4 0, need ps 5 0, need ps 6 0]
    ++ (if paramD ps 6 0 0 == 1 then (List.range 4).map fun i => need ps 6 (i + 1) else [])
    ++ (List.range 4).map (need ps 7) ++ [need ps 8 0, searchItems ps]
    ++ (List.range 3).map (need ps 9) ++ (List.range 6).map (need ps 10) ++ [need ps 11 0])

/-- Rows 4 to 9 of Table 7.3. -/
def chainRows (ps : List Param) : List Check :=
  let p (r i : Nat) : Nat := paramD ps r i 0
  [inParam ps 4 0 0 3, inParam ps 5 0 0 47, inParam ps 6 0 0 1]
    ++ (if p 6 0 == 1 then [inParam ps 6 1 1 16383, inParam ps 6 2 2 10, inParam ps 6 3 25 6000, inParam ps 6 4 25 6000] else [])
    ++ [ inParam ps 7 0 0 65535, failIf (decide (p 7 0 < p 7 1)) stConflict (paramOff ps 7 1) 7, inParam ps 7 2 0 10, inParam ps 7 3 0 15 ]

/-- Two rings of one group share a byte. -/
def ringsMeet (x : Chain) (g off size : Nat) : Bool :=
  x.state != .free && x.group == g && decide (x.ringOff < off + size) && decide (off < x.ringOff + x.ringSize)

/-- The Output row, with the group among the tenant's engines and the line the tenant's own. -/
def State.outputRow (s : State) (t : Nat) (ps : List Param) : List Check :=
  let p (i : Nat) : Nat := paramD ps 10 i 0
  let bad (b : Bool) (st i : Nat) : Check := failIf b st (paramOff ps 10 i) 10
  [ bad (decide (11 < p 0)) stConflict 0
  , bad (p 1 % 4096 != 0 || decide (2097152 < p 1 + p 2)) stConflict 1
  , bad (!within 4096 (p 2) 65536 || p 2 % 4096 != 0) stConflict 2
  , bad (decide (1 < p 3)) stConflict 3
  , bad (s.chains.any fun e => ringsMeet e.2 (p 0) (p 1) (p 2)) stConflict 1
  , bad (!(List.range 8).any fun i => s.engOwner (8 * p 0 + i) == some t) stQuota 0
  , bad (!s.destRing t (p 4)) stConflict 4
  , bad (!s.lineOk (p 0) (p 5) t) stConflict 5 ]

/-! ### Admission of a carrier with a profile (R225, R238) -/

/-- Sum of fractions. -/
def addFrac (a b : Nat × Nat) : Nat × Nat := (a.1 * b.2 + b.1 * a.2, a.2 * b.2)

/-- Nanoseconds of a profile's PERIOD and BUDGET. -/
def profT (p : ProfBytes) : Nat := 32 * profPeriod p
def profB (p : ProfBytes) : Nat := 1000 * profBudget p

/-- Σ C / min(T, B) + max C / min B ≤ U × A, with A = `an / ad` cycles per nanosecond. -/
def State.loadFits (s : State) (xs : List (Nat × ProfBytes)) (an ad : Nat) : Bool :=
  match xs with
  | [] => true
  | (c0, p0) :: r =>
    let sum := xs.foldl (fun a x => addFrac a (x.1, min (profT x.2) (profB x.2))) (0, 1)
    let cmax := r.foldl (fun a x => max a x.1) c0
    let bmin := r.foldl (fun a x => min a (profB x.2)) (profB p0)
    let l := addFrac sum (cmax, bmin)
    decide (l.1 * 100 * ad ≤ s.fieldOf 0xA00000 6 0 * an * l.2)

/-- Worst-case decoder cost of a carrier's slot. -/
def State.decCost (s : State) (p : ProfBytes) : Nat :=
  if profJobs p == 0 then 0 else profJobs p * ((s.code (profCode p)).map codeCost).getD 0

def engCost (p : ProfBytes) : Nat := profW p 4 + profW p 5

/-- The profiles of a tenant's admitted carriers, chain `skip` left out. -/
def State.profilesOf (s : State) (t : Nat) (skip : Option Nat) : List ProfBytes :=
  (s.carriers.filter fun e => e.2.tenant == t && some e.1 != skip).filterMap fun e => s.chainProfile e.1

/-- The decoder test of a tenant's carriers in a mode. -/
def State.decFits (s : State) (t : Nat) (trellis : Bool) (ps : List ProfBytes) : Bool :=
  s.loadFits ((ps.filter fun p => s.decCost p != 0).map fun p => (s.decCost p, p))
    (s.fieldOf (0xA00100 + 4 * t) 7 0 * (if trellis then 128 else 16) * 625) (128 * 1000)

/-- The engine test of one image of a tenant, on `n` engines of 1 cycle per nanosecond. -/
def State.imageFits (s : State) (image n : Nat) (ps : List ProfBytes) : Bool :=
  s.loadFits ((ps.filter fun p => profShipped p && profImage p == image).map fun p => (engCost p, p)) n 1

/-- The code of a carrier is LDPC or TURBO. -/
def State.iterative (s : State) (p : ProfBytes) : Bool :=
  profJobs p != 0 && match s.code (profCode p) with
    | some c => codeKind c != 2
    | none => false

/-- Engines to load for a SHIPPED profile: none where the image's engines have room, else ENGINES more; none of these
where they are not free. -/
def State.enginesFor (s : State) (t : Nat) (p : ProfBytes) (ps : List ProfBytes) : Option (List Nat) :=
  let have_ := s.shippedOf t (profImage p)
  if !profShipped p then some []
  else if !have_.isEmpty && s.imageFits (profImage p) have_.length ps then some []
  else
    let free := s.takeable t
    if free.length < profEngines p then none else some (free.take (profEngines p))

/-- Every tenant's load in the mode after a switch (R238 item 5); chain `skip` is stopping. -/
def State.allFit (s : State) (trellis : Bool) (extra : Option (Nat × ProfBytes)) (skip : Option Nat) : Bool :=
  (List.range 256).all fun t =>
    let ps := s.profilesOf t skip ++ match extra with
      | some (u, p) => if u == t then [p] else []
      | none => []
    ps.isEmpty || s.decFits t trellis ps

/-- R238: the engines to load, or the failure. -/
def State.admitCarrier (s : State) (t : Nat) (prof field : Nat) : Except Fail (List Nat) :=
  let bad (st n : Nat) : Except Fail (List Nat) := .error { status := st, field := field, check := 11 + n }
  if 255 < prof then bad stConflict 0
  else if prof == 255 then .ok []
  else match s.profile prof with
    | none => bad stConflict 1
    | some p =>
      let size := s.carriers.length + 1
      let want := s.wantTrellis size
      let others := s.carriers.filterMap fun e => s.chainProfile e.1
      let ps := s.profilesOf t none ++ [p]
      if (s.iterative p && want) || (size == 129 && others.any s.iterative) then bad stFecMode 2
      else match s.enginesFor t p ps with
        | none => bad stQuota 3
        | some es =>
          if !s.decFits t want ps || (profShipped p && !s.imageFits (profImage p) ((s.shippedOf t (profImage p)).length + es.length) ps) then bad stQuota 4
          else if want != s.dec.trellis && !s.allFit want (some (t, p)) none then bad stCapacity 5
          else .ok es

/-! ### CCH_START, CCH_RETUNE, CCH_STOP -/

def Chain.tune (x : Chain) (v : Tuning) : Chain :=
  { x with firstCh := v.firstCh, m := v.m, d := v.d, rs := v.rs, freq0 := v.freq, freq := v.freq, center := v.center }

/-- The 16 bytes of R261. -/
def tuningBytes (v : Tuning) : List Byte :=
  let x : Chain := { m := v.m }
  rows [x.logK * 2 ^ 28 + v.d * 2 ^ 24 + v.m * 2 ^ 16 + v.firstCh, v.rs % 2 ^ 32, v.freq.toNat % 2 ^ 32, v.freq.toNat / 2 ^ 32]

/-- The chain that a list configures. -/
def chainOf (t : Nat) (ps : List Param) (v : Tuning) (q : Search) : Chain :=
  let p (r i : Nat) : Nat := paramD ps r i 0
  let x : Chain := { tenant := t, plan := p 1 0, beam := p 1 1, preset := p 4 0, pull := p 5 0, search := q, profile := p 11 0 }
  let x : Chain := { x with agcOn := p 6 0 == 1, target := p 6 1, agcW := p 6 2, attack := p 6 3, decay := p 6 4 }
  let x : Chain := { x with thrOn := p 7 0, thrOff := p 7 1, thrW := p 7 2, tau := p 7 3, pre := p 9 0, maxLen := p 9 1 }
  let x : Chain := { x with thrClose := p 9 2 == 1, group := p 10 0, ringOff := p 10 1, ringSize := p 10 2, always := p 10 3 == 0 }
  ({ x with dest := p 10 4, line := p 10 5 } : Chain).tune v

/-- The source row (Table 7.3, row 1). -/
def State.sourceRow (s : State) (t : Nat) (ps : List Param) : Check :=
  let n := paramD ps 1 0 0
  let b := s.beam n
  checks
    [ failIf (decide (4096 ≤ n) || b.status == .free || b.tenant != t || b.src != .direct || !b.chains) stConflict (paramOff ps 1 0) 1
    , failIf (decide (b.beams ≤ paramD ps 1 1 0)) stConflict (paramOff ps 1 1) 1 ]

/-- Every check of CCH_START in order: the tuning, the search, and the engines to load. -/
def State.startChecks (s : State) (c : RingCmd) : Except Fail (List Param × Tuning × Search × List Nat) := do
  let ps ← paramList c.buf c.arg0.toNat chainItems
  chainListOk ps
  s.sourceRow c.fn ps
  let v ← s.tuning (s.beam (paramD ps 1 0 0)) ps
  checks (chainRows ps)
  let q ← searchOf c.buf ps
  checks ([inParam ps 9 0 0 1024, inParam ps 9 1 64 (2 ^ 24), inParam ps 9 2 0 1] ++ s.outputRow c.fn ps)
  let held := (s.chains.filter fun e => e.2.state != .free && e.2.tenant == c.fn.val).length
  failIf (decide (s.fieldOf (tenReg c.fn 4) 9 0 ≤ held)) stQuota noField 11
  let es ← s.admitCarrier c.fn (paramD ps 11 0 0) (paramOff ps 11 0)
  pure (ps, v, q, es)

/-- A chain's source plan runs. -/
def State.sourceRuns (s : State) (plan : Nat) : Bool := (s.beam plan).status.holds && s.grid.started

/-- CCH_START once it may be checked: RES is written, the lowest free chain taken, and the mode follows (R176, R226). -/
def State.cchStart (s : State) (c : RingCmd) (r : CmdRef) : State :=
  match s.startChecks c with
  | .error f => s.refuse r f.status f.field f.check
  | .ok (ps, v, q, es) =>
    match lowestFree (fun n => (s.chain n).state != .free) 512 with
    | none => s.refuse r stQuota noField 11
    | some n =>
      s.writeRes c r (tuningBytes v) fun s =>
        let old := s.chain n
        let gen := old.gen + 1
        let x : Chain := chainOf c.fn ps v q
        let st := if s.sourceRuns x.plan then ChainState.settling else ChainState.idle
        let x : Chain := { x with state := st, gen := gen, settle := settleOf x.preset, boundTo := old.boundTo, bitFifo := old.bitFifo }
        let s := (((s.freshGen n gen).modChain n fun _ => x).noteWork c.fn).carrierRec n 0 0
        let s := match s.chainProfile n with
          | some p => s.shipOn es (profImage p)
          | none => s
        if x.profile == 255 then s.complete r stOK n gen.toNat
        else s.modeFollow (some { cmd := r, res0 := BitVec.ofNat 32 n, res1 := BitVec.ofNat 32 gen.toNat })

/-- A retuned chain: an open burst closes, the filters are cleared, the generation advances (Table 7.4). -/
def State.retune (s : State) (n : Nat) (v : Option Tuning) (preset : Option Nat) : State :=
  let s := (s.closeBurst n 4).dropQueued n
  (s.freshGen n ((s.chain n).gen + 1)).modChain n fun x =>
    let x : Chain := { x with gen := x.gen + 1, preset := preset.getD x.preset }
    let x := match v with
      | some v => x.tune v
      | none => { x with freq := x.freq0 }
    let x : Chain := { x with state := if x.state == .idle then .idle else .settling, settle := settleOf x.preset }
    let x : Chain := { x with input := [], stitchMem := [], mixed := [], filt := [], past := [], hist := [], bits := [], symN := 0 }
    { x with phase := 0, pos := 0, posAdj := 0, freqSum := 0, timeSum := 0 }

/-- CCH_RETUNE (0x29): rows 2 to 4 of Table 7.3 for a chain of the tenant. -/
def State.cchRetune (s : State) (c : RingCmd) (r : CmdRef) : State :=
  let n := c.arg1.toNat
  match paramList c.buf c.arg0.toNat [(2, 2), (3, 5), (4, 1)] with
  | .error f => s.refuse r f.status f.field f.check
  | .ok ps =>
    let tuned := hasRow ps 2 || hasRow ps 3
    let x := s.chain n
    if 512 ≤ n || x.state == .free || x.tenant != c.fn.val then s.refuse r stConflict (argOff 1) 0
    else if !tuned && !hasRow ps 4 then s.refuse r stConflict noField 0
    else
      let found : Except Fail (Option Tuning) := do
        if tuned then
          tuningItems ps
          let v ← s.tuning (s.beam x.plan) ps
          checks [inParam ps 4 0 0 3]
          pure (some v)
        else
          checks [inParam ps 4 0 0 3]
          pure none
      match found with
      | .error f => s.refuse r f.status f.field f.check
      | .ok v =>
        let now : Tuning := { firstCh := x.firstCh, m := x.m, d := x.d, rs := x.rs, freq := x.freq0 }
        s.writeRes c r (tuningBytes (v.getD now)) fun s =>
          let s := s.retune n v (param? ps 4 0)
          s.complete r stOK n (s.chain n).gen.toNat

/-- CCH_STOP (0x2A): a chain of the tenant is freed; a switch that its end requires must leave every load in bounds. -/
def State.cchStop (s : State) (c : RingCmd) (r : CmdRef) : State :=
  let n := c.arg0.toNat
  let x := s.chain n
  if 512 ≤ n || x.state == .free || x.tenant != c.fn.val then s.refuse r stConflict (argOff 0) 0
  else if x.profile == 255 then (s.freeChain n 1).complete r stOK 0 0
  else
    let want := s.wantTrellis (s.carriers.length - 1)
    if want != s.dec.trellis && !s.allFit want none (some n) then s.refuse r stCapacity noField 5
    else (s.freeChain n 1).modeFollow (some { cmd := r })

/-- The profile that a CCH_START names. -/
def profileNamed (c : RingCmd) : Nat :=
  match paramList c.buf c.arg0.toNat chainItems with
  | .ok ps => paramD ps 11 0 255
  | .error _ => 255

/-- A start or stop of a carrier that would require a mode switch waits while one is in progress (R226). -/
def State.waitsSwitch (s : State) (opc : Nat) (c : RingCmd) : Bool :=
  s.dec.switching.isSome
    && (if opc == 0x28 then profileNamed c != 255 && s.wantTrellis (s.carriers.length + 1) != s.dec.target
        else (s.chain c.arg0.toNat).profile != 255 && s.wantTrellis (s.carriers.length - 1) != s.dec.target)

def State.carrierCmd (s : State) (opc : Nat) (c : RingCmd) (r : CmdRef) : State :=
  if s.waitsSwitch opc c then s.modDec fun d => { d with switchWait := d.switchWait ++ [(r, c)] }
  else if opc == 0x28 then s.cchStart c r else s.cchStop c r

def execCchStart (c : RingCmd) (s : State) : Host.Outcome State Fault Refusal :=
  .next (s.startCmd 0x28 false c fun r s => s.carrierCmd 0x28 c r)

def execCchRetune (c : RingCmd) (s : State) : Host.Outcome State Fault Refusal :=
  .next (s.startCmd 0x29 false c fun r s => s.cchRetune c r)

def execCchStop (c : RingCmd) (s : State) : Host.Outcome State Fault Refusal :=
  .next (s.startCmd 0x2A false c fun r s => s.carrierCmd 0x2A c r)

/-! ### The end of a mode switch (Table 9.2) -/

/-- A job of the old mode that the new one cannot run ends with CAUSE MODE_SWITCH (R242). -/
def State.endStranded (s : State) : State :=
  if !s.dec.trellis then s
  else s.forEach (s.dec.tasks.filter fun t => t.stage == .decode && t.started.isNone && ((s.code t.codeId).any fun c => codeKind c != 2)) fun s t =>
    let s := s.writeResult (t.engine / 8) t.outAddr t.line stDeadlineMiss 0 0 0 t.jobTag.toNat t.tenant false []
    let r : JobDone := { chain := t.chain, gen := t.gen, slot := t.slot, status := BitVec.ofNat 8 stDeadlineMiss, tag := t.jobTag }
    (s.jobEnded t r).deadlineRec t 2 (s.laterStages t)

/-- MODE_SWITCH_END: 10 µs after the last job in flight; the commands that waited complete, and those behind them are
checked against the new mode. -/
def State.modeSwitchEnd (s : State) : State :=
  match s.dec.switching with
  | none => s
  | some cpls =>
    if s.inReset 33 || s.dec.tasks.any (fun t => t.stage == .decode && t.started.isSome) then s
    else
      let wait := s.dec.switchWait
      let s := s.modDec fun d => { d with trellis := d.target, switching := none, switchWait := [] }
      let s := s.endStranded
      let s := s.forEach cpls fun s x => s.complete x.cmd x.status.toNat x.res0.toNat x.res1.toNat
      let s := s.forEach wait fun s w => s.carrierCmd w.1.opc.toNat w.2 w.1
      (s.modeFollow none).startJobs

def execModeSwitchEnd (s : State) : Host.Outcome State Fault Refusal := .next s.modeSwitchEnd

end Sys2Proof.Machine
end

