-- ==== Sys2Proof/Machine/CorrCmd.lean ====
section
/-! DEFINITION. The commands of correlation subarrays: start, stop, and loading and reading pass plans (R104, R108, R110,
R111, R259, R260). -/
namespace Sys2Proof.Machine

open Sys2Proof

/-! ### Plan numbers (R259) -/

/-- A number is held by a subarray or a beam plan. -/
def State.planUsed (s : State) (n : Nat) : Bool := (s.subr n).status != .free || (s.beam n).status != .free

/-- The lowest free plan number. -/
def State.freePlan (s : State) : Option Nat := lowestFree s.planUsed 4096

/-- A STOP of this plan waits for the next freeze. -/
def State.stopQueued (s : State) (isBeam : Bool) (n : Nat) : Bool := s.grid.stops.any fun e => e.2.1 == isBeam && e.2.2 == n

/-- A plan that a command of tenant `t` may name: it stands, it is the tenant's own, and no stop has been received. -/
def PlanStatus.stands (p : PlanStatus) : Bool := p == .waiting || p == .deferred || p == .running

def State.subOk (s : State) (t n : Nat) : Bool :=
  (s.subr n).status.stands && (s.subr n).tenant == t && !s.stopQueued false n

/-- A failed check completes the command. -/
def State.failWith (s : State) (r : CmdRef) (f : Fail) : State := s.refuse r f.status f.field f.check

/-! ### SUBARRAY_START (R104) -/

/-- The items of Table 4.3. -/
def subItems : List (Nat × Nat) := [(1, 1), (2, 1), (3, 1), (4, 1), (5, 2), (6, 1), (7, 1)]

/-- Every item is needed but that of the Plan row, whose absence selects the planner (the worked example of R273). -/
def subListOk (ps : List Param) : Check :=
  checks ((List.range 6).map (fun i => need ps (i + 1) 0) ++ (if paramD ps 5 0 0 == 1 then [need ps 5 1] else []))

/-- The signal list of row `row`: its numbers, or none where the list does not lie in the buffer (R260). -/
def signalList (buf : List Byte) (v : Nat) : Option (List Nat) :=
  match paramBytes buf v with
  | none => none
  | some bs => if bs.length % 2 == 0 then some (u16s bs) else none

/-- A signal list that a row accepts: 1 to 4,096 distinct signals below 4,096. -/
def goodSignals (l : List Nat) : Bool :=
  !l.isEmpty && decide (l.length ≤ 4096) && l.all (fun g => decide (g < 4096)) && decide (l.Nodup)

/-- Package-local coarse channels: 16, or 32 in 4-bit mode (R38). -/
def State.pkgChans (s : State) : Nat := 4 * s.chPerDie

/-- Dies that plans may use from the next freeze: those enabled, and as a DIE_SET has asked (R44, R369). -/
def State.planDie (s : State) (d : Nat) : Bool :=
  match s.grid.dieTarget with
  | some m => bit m.toNat d && s.dieOn d
  | none => s.dieOn d

/-- A channel bitmap: empty or with a bit beyond the package is malformed; on a disabled die it exceeds the capacity. -/
def State.chanCheck (s : State) (ps : List Param) (row v : Nat) : Check :=
  if v == 0 || decide (2 ^ s.pkgChans ≤ v) then .error { status := stConflict, field := paramOff ps row 0, check := row }
  else failIf (!(bitsOf s.pkgChans v).all fun c => s.planDie (s.dieOfCh c)) stCapacity (paramOff ps row 0) row

def goodLen (l : Nat) : Bool := isPow2 l && within 16384 l 1048576

/-- The checks of Table 4.3 in the order of its rows. -/
def State.subChecks (s : State) (t : Nat) (ps : List Param) (sigs : Option (List Nat)) : Check :=
  let p (r i : Nat) : Nat := paramD ps r i 0
  let bad (b : Bool) (st r i : Nat) : Check := failIf b st (paramOff ps r i) r
  checks
    [ bad (!goodSignals (sigs.getD [])) stConflict 1 0
    , s.chanCheck ps 2 (p 2 0)
    , bad (!goodLen (p 3 0)) stConflict 3 0
    , bad (!within 1 (p 4 0) 16777216) stConflict 4 0
    , bad (decide (2 ^ 32 - 1 < p 4 0 * (p 3 0 / s.numF))) stCapacity 4 0
    , bad (decide (2 < p 5 0)) stConflict 5 0
    , bad (p 5 0 == 1 && decide (16 < p 5 1) && p 5 1 != 31) stConflict 5 1
    , bad (!s.destOk t (p 6 0)) stConflict 6 0
    , bad (decide (1 < p 7 0)) stConflict 7 0 ]

/-- The subarray that a parameter list describes. -/
def State.subOfParams (s : State) (t : Nat) (ps : List Param) (sigs : List Nat) (r : CmdRef) : Sub :=
  let form := paramD ps 5 0 0
  { status := .waiting, tenant := t, sigs := sigs, chans := bitsOf s.pkgChans (paramD ps 2 0 0), len := paramD ps 3 0 0,
    integ := paramD ps 4 0 0, packed := if form == 2 then bit (s.reg 0x500000) 31 else form == 1,
    expE := if form == 2 then s.fieldOf 0x500000 28 24 else paramD ps 5 1 31,
    dest := paramD ps 6 0 0, wantExpert := paramD ps 7 0 0 == 1, senior := s.now, cmd := some r }

/-- SUBARRAY_START (0x10): a start that passes its checks waits for the next freeze (R43). -/
def State.subStart (s : State) (c : RingCmd) (r : CmdRef) : State :=
  match paramList c.buf c.arg0.toNat subItems with
  | .error f => s.failWith r f
  | .ok ps => match subListOk ps with
    | .error f => s.failWith r f
    | .ok () =>
      let sigs := signalList c.buf (paramD ps 1 0 0)
      match s.subChecks c.fn ps sigs with
      | .error f => s.failWith r f
      | .ok () => match s.freePlan with
        | none => s.refuse r stCapacity noField 0
        | some n => { s with subs := setT {} s.subs n (s.subOfParams c.fn ps (sigs.getD []) r) }

def execSubarrayStart (c : RingCmd) (s : State) : Host.Outcome State Fault Refusal :=
  .next (s.startCmd 0x10 false c fun r s => s.subStart c r)

/-- SUBARRAY_STOP (0x11): decided at the next freeze. -/
def execSubarrayStop (c : RingCmd) (s : State) : Host.Outcome State Fault Refusal :=
  .next (s.startCmd 0x11 false c fun r s =>
    if s.subOk c.fn c.arg0.toNat then s.modGrid fun g => { g with stops := g.stops ++ [(r, false, c.arg0.toNat)] }
    else s.refuse r stConflict (argOff 0) 0)

/-! ### PLAN_LOAD (R110, R111) -/

/-- A plan entry's job with its pass (Table 4.5). -/
def entryJob (b : List Byte) : Nat × Job :=
  let w (i : Nat) : Nat := leAt b (4 * i) 4
  (fld (w 0) 15 0,
    { cluster := fld (w 0) 20 16, colShared := bit (w 0) 31, shared := fld (w 1) 23 16, fine := fld (w 1) 10 0,
      other := (List.range 8).map fun t =>
        let o := leAt b (8 + 2 * t) 2
        if bit o 15 then some (fld o 7 0) else none })

/-- The die-local channel bitmap of a subarray on a die. -/
def State.localChans (s : State) (d : Nat) (x : Sub) : Nat :=
  sumN ((dedup (s.chansOn d x.chans)).map fun c => 2 ^ (c - d * s.chPerDie))

/-- The (fine channel, row, column) of every job of an entry. -/
def Job.blocks (j : Job) : List (Nat × Nat × Nat) := j.pairs.map fun t => let e := j.bandsAt t.2; (j.fine, e.1, e.2)

def ascending : List Nat → Bool
  | a :: b :: r => decide (a ≤ b) && ascending (b :: r)
  | _ => true

/-- Header word `i` of a plan buffer. -/
def planW (b : List Byte) (i : Nat) : Nat := leAt b (4 * i) 4

/-- The entries of a plan buffer. -/
def planEntries (b : List Byte) : List (Nat × Job) := (List.range (planW b 3)).map fun i => entryJob ((b.drop (32 + 24 * i)).take 24)

/-- Table 4.6, order 1. -/
def planHeadOk (b : List Byte) : Bool :=
  planW b 0 == 0x4C505457 && fld (planW b 1) 7 0 == 1 && b.length == 32 + 24 * planW b 3
    && planW b 7 == crc32 (b.take 28 ++ b.drop 32)

/-- Table 4.6, order 2. -/
def State.planMatches (s : State) (x : Sub) (b : List Byte) : Bool :=
  let d := fld (planW b 1) 17 16
  bit (planW b 1) 8 == s.mode4 && fld (planW b 1) 27 24 == s.log2F && !(s.chansOn d x.chans).isEmpty
    && fld (planW b 4) 8 0 == x.bands && fld (planW b 4) 23 16 == s.localChans d x && bit (planW b 1) 9 == x.isResident

/-- Orders 3 to 8 of Table 4.6 over the entries: the status and order of the first that fails. -/
def State.planBad (s : State) (x : Sub) (b : List Byte) : Option (Nat × Nat) :=
  let d := fld (planW b 1) 17 16
  let n := fld (planW b 2) 15 0
  let es := planEntries b
  let fines := s.fineOf d x.chans
  let bs := es.flatMap fun e => e.2.blocks
  if !ascending (es.map (·.1)) || !((List.range n).all fun k => es.any fun e => e.1 == k) || !(es.all fun e => decide (e.1 < n)) then some (stConflict, 3)
  else if es.any fun e => e.2.cluster % 8 == 7 then some (stCapacity, 4)
  else if !es.all fun e => fines.contains e.2.fine && decide (e.2.shared < x.bands)
      && e.2.blocks.all (fun q => decide (q.2.1 ≤ q.2.2) && decide (q.2.2 < x.bands)) then some (stConflict, 5)
  else if !decide ((es.map fun e => e.1 * 32 + e.2.cluster).Nodup) then some (stConflict, 6)
  else if !decide (bs.Nodup) || bs.length != fines.length * (x.bands * (x.bands + 1) / 2) then some (stConflict, 7)
  else if bit (planW b 1) 9 && n != 1 then some (stCapacity, 8)
  else none

/-- PLAN_LOAD (0x12): a plan that passes Table 4.6 replaces the subarray's plan for its die from the next freeze. -/
def State.planLoad (s : State) (c : RingCmd) (r : CmdRef) : State :=
  let n := c.arg0.toNat
  let x := s.subr n
  if !s.subOk c.fn n then s.refuse r stConflict (argOff 0) 0
  else if c.buf.length < 32 then s.refuse r stConflict 0x10 0
  else if !planHeadOk c.buf then s.refuse r stConflict noField 1
  else if !s.planMatches x c.buf then s.refuse r stConflict noField 2
  else match s.planBad x c.buf with
    | some (st, k) => s.refuse r st noField k
    | none =>
      let e : Expert := { die := fld (planW c.buf 1) 17 16, passes := fld (planW c.buf 2) 15 0, jobs := planEntries c.buf }
      (s.modSub n fun x => { x with expertNext := x.expertNext.filter (fun y => y.die != e.die) ++ [e] }).complete r stOK 0 0

def execPlanLoad (c : RingCmd) (s : State) : Host.Outcome State Fault Refusal :=
  .next (s.startCmd 0x12 false c fun r s => s.planLoad c r)

/-! ### PLAN_READ (R108) -/

/-- Table 4.5 for a job of pass `k`. -/
def Job.entry (j : Job) (k : Nat) : List Byte :=
  let o (t : Nat) : Nat := match (j.other[t]?).getD none with | some b => 2 ^ 15 + b | none => 0
  rows [bnat j.colShared * 2 ^ 31 + j.cluster * 2 ^ 16 + k, j.shared * 2 ^ 16 + j.fine]
    ++ (List.range 8).flatMap fun t => le 2 (o t)

/-- A plan in the format of Tables 4.4 and 4.5. -/
def State.planBytes (s : State) (d : Nat) (x : Sub) (ps : List (List Job)) : List Byte :=
  let es := ps.zipIdx.flatMap fun p => p.1.flatMap fun j => j.entry p.2
  let h := rows
    [ 0x4C505457
    , s.log2F * 2 ^ 24 + d * 2 ^ 16 + bnat x.isResident * 2 ^ 9 + bnat s.mode4 * 2 ^ 8 + 1
    , ps.length, sumN (ps.map (·.length)), s.localChans d x * 2 ^ 16 + x.bands, 0, 0 ]
  h ++ le32 (crc32 (h ++ es)) ++ es

/-- PLAN_READ (0x13): the plan of a block period that is held. -/
def State.planRead (s : State) (c : RingCmd) (r : CmdRef) : State :=
  let n := c.arg0.toNat
  let x := s.subr n
  let d := fld c.arg1.toNat 1 0
  if x.status == .free || x.tenant != c.fn then s.refuse r stConflict (argOff 0) 0
  else match x.plans.find? (fun e => e.1 % 2 ^ 32 == c.arg2.toNat) with
    | none => s.refuse r stConflict (argOff 2) 0
    | some (_, l) => match l.find? (fun e => e.1 == d) with
      | none => s.refuse r stConflict (argOff 1) 0
      | some (_, ps) =>
        let bs := s.planBytes d x ps
        s.writeRes c r bs fun s => s.complete r stOK bs.length 0

def execPlanRead (c : RingCmd) (s : State) : Host.Outcome State Fault Refusal :=
  .next (s.startCmd 0x13 false c fun r s => s.planRead c r)

end Sys2Proof.Machine
end

