-- ==== Sys2Proof/Machine/Admit.lean ====
section
/-! DEFINITION. The freeze: stops, forced-out plans, admission of candidates, policies, self-steering and the partition of
the next planning period (R36, R41, R43 to R46, R74, R81, R92, R148, R278 to R282, R378). -/
namespace Sys2Proof.Machine

open Sys2Proof

/-! ### The plans of a period -/

/-- The first multiple of `l` at or past `c`. -/
def nextMul (c l : Nat) : Nat := ceilDiv c l * l

/-- The subarrays and beam plans that the period beginning at `c` carries, without channels of dies that plans may not use. -/
def State.plannedSubs (s : State) (c : Nat) : List (Nat × Sub) :=
  (s.subs.filter fun e => e.2.runsAt c).map fun e => (e.1, s.subEff s.planDie e.2)
def State.plannedBeams (s : State) (c : Nat) : List (Nat × Beam) :=
  (s.beams.filter fun e => e.2.runsAt c).map fun e => (e.1, s.beamEff s.planDie e.2)

/-- The plans of a set fit on every die that plans may use. -/
def State.fitAll (s : State) (xs : List (Nat × Sub)) (bs : List (Nat × Beam)) : Bool :=
  (List.range 4).all fun d => !s.planDie d || s.dieFits d 0 xs bs

/-- The shortest L of the plans that go on running (R36). -/
def State.periodOfRun (s : State) : Nat :=
  periodFor (s.subs.filter fun e => e.2.status == .running) ((s.beams.filter fun e => e.2.status == .running).map (·.2))

/-! ### Stops (R43, R113, R129, R278) -/

/-- A beam plan's pending switch is refused and nothing of it applies (Table 5.3). -/
def State.dropSwitch (s : State) (n : Nat) : State :=
  match (s.beam n).next with
  | none => s
  | some w => (s.modBeam n fun b => { b with next := none }).completeOpt w.cmd stConflict noField 0

/-- What the dies hold of a beam plan is gone. -/
def State.clearBeam (s : State) (n : Nat) : State :=
  s.forEach (List.range 4) fun s d => s.modDie d fun y =>
    let y : Die := { y with powers := y.powers.filter (fun a => a.plan != n), slotVals := y.slotVals.filter fun a => a.plan != n }
    { y with rowAccs := y.rowAccs.filter (fun a => a.plan != n), capture := y.capture.filter (fun a => a.1 != n), rotDone := setT 0 y.rotDone n 0 }

/-- A plan leaves: its number is free, and chains that it feeds stop (R178). -/
def State.dropSub (s : State) (n : Nat) : State := { s with subs := setT {} s.subs n {}, topks := setT {} s.topks (2 * n) {} }
def State.dropBeam (s : State) (n : Nat) : State :=
  ({ (s.dropSwitch n).clearBeam n with beams := setT {} s.beams n {}, topks := setT {} s.topks (2 * n + 1) {} } : State).sourceStop n

/-- A running beam plan ends at counter `t`. -/
def State.endBeam (s : State) (n t : Nat) : State :=
  ((s.dropSwitch n).modBeam n fun b => { b with status := .stopping, stopAt := some t }).sourceStop n

/-- Beam plans that read the buffer of a subarray that ends stop with it; their tenants are told (R278). -/
def State.stopReaders (s : State) (n t : Nat) : State :=
  s.forEach (s.beams.filter fun e => e.2.srcSub == some n && e.2.status == .running) fun s e =>
    (s.endBeam e.1 t).postStatus e.2.tenant stConflict 1 e.1 0 0

/-- Whether the stop of a running plan would lengthen P at a counter that is no multiple of the new P (R36). -/
def State.stopTooSoon (s : State) (c : Nat) (isBeam : Bool) (n : Nat) : Bool :=
  let s' := if isBeam then s.modBeam n fun b => { b with status := .stopping } else s.modSub n fun x => { x with status := .stopping }
  decide (s.periodOfRun < s'.periodOfRun) && c % s'.periodOfRun != 0

/-- A STOP at the freeze for counter `c`: a start not yet decided is refused, a running plan ends with its block. -/
def State.doStop (s : State) (c : Nat) (e : CmdRef × Bool × Nat) : State :=
  let n := e.2.2
  if e.2.1 then
    let b := s.beam n
    if b.status == .running then
      if s.stopTooSoon c true n then s.modGrid fun g => { g with stops := g.stops ++ [e] }
      else (s.endBeam n (if b.src == .direct then c else nextMul c b.len)).complete e.1 stOK 0 0
    else ((if b.status == .waiting then s.completeOpt b.cmd stConflict noField 0 else s).dropBeam n).complete e.1 stOK 0 0
  else
    let x := s.subr n
    if x.status == .running then
      if s.stopTooSoon c false n then s.modGrid fun g => { g with stops := g.stops ++ [e] }
      else
        let t := nextMul c x.len
        ((s.modSub n fun x => { x with status := .stopping, stopAt := some t }).stopReaders n t).complete e.1 stOK 0 0
    else ((if x.status == .waiting then s.completeOpt x.cmd stConflict noField 0 else s).dropSub n).complete e.1 stOK 0 0

def State.doStops (s : State) (c : Nat) : State :=
  let es := s.grid.stops
  (s.modGrid fun g => { g with stops := [] }).forEach es fun s e => s.doStop c e

/-! ### Running plans that no longer fit (R44, R46, R74, R279 step 1) -/

/-- A plan is forced out at counter `c`: it is DEFERRED, keeps its seniority, and its tenant learns the first block period
missed (Table 11.3). -/
def State.forceSub (s : State) (c n : Nat) : State :=
  let x := s.subr n
  (s.modSub n fun x => { x with status := .deferred, first := none, freezes := 0 }).postStatus x.tenant stDeferred 0 n
    (blockOf (x.first.getD 0) x.len c) 0
def State.forceBeam (s : State) (c n : Nat) : State :=
  let x := s.beam n
  (s.modBeam n fun b => { b with status := .deferred, first := none, freezes := 0 }).postStatus x.tenant stDeferred 1 n
    (if x.src == .direct then c / 2 ^ 20 else blockOf (x.first.getD 0) x.len c) 0

/-- The expert plans of a subarray name only tiles that are there. -/
def State.expertStands (s : State) (x : Sub) : Bool :=
  (List.range 4).all fun d => (s.chansOn d x.chans).isEmpty || !s.planDie d || match x.expertOn d with
    | some e => expertFits e.byPass (clustersOf (s.activeTiles d))
    | none => !x.wantExpert

/-- Running plans with channels on a die that does not fit: (class, admission, whether a beam plan, number). -/
def State.victims (s : State) (c : Nat) : List (Nat × Nat × Bool × Nat) :=
  let bad := (List.range 4).filter fun d => s.planDie d && !s.dieFits d 0 (s.plannedSubs c) (s.plannedBeams c)
  let on (chans : List Nat) : Bool := chans.any fun h => bad.contains (s.dieOfCh h)
  ((s.subs.filter fun e => e.2.status == .running && on e.2.chans).map fun e => (s.tenClass e.2.tenant, e.2.admitAt, false, e.1))
    ++ (s.beams.filter fun e => e.2.status == .running && on e.2.chans).map fun e => (s.tenClass e.2.tenant, e.2.admitAt, true, e.1)

def State.forceOut (s : State) (c : Nat) : Nat → State
  | 0 => s
  | k + 1 =>
    match minBy (fun v => (3 - v.1) * 2 ^ 80 + (2 ^ 80 - 1 - v.2.1)) (s.victims c) with
    | none => s
    | some v => (if v.2.2.1 then s.forceBeam c v.2.2.2 else s.forceSub c v.2.2.2).forceOut c k

/-- Step 1 of Table 11.2: expert plans without their tiles, then whatever the dies no longer hold. -/
def State.keepRunning (s : State) (c : Nat) : State :=
  let s := s.forEach (s.subs.filter fun e => e.2.status == .running && !s.expertStands e.2) fun s e => s.forceSub c e.1
  s.forceOut c (s.subs.length + s.beams.length)

/-! ### Candidates (R279 steps 2 to 4) -/

/-- A candidate: kind 0 subarray, 1 beam plan, 8 MEM_ALLOC; its number or handle. -/
structure Cand where
  kind    : Nat := 0
  num     : Nat := 0
  tenant  : Nat := 0
  senior  : Nat := 0
  freezes : Nat := 0
deriving DecidableEq, Repr

def PlanStatus.isCand (p : PlanStatus) : Bool := p == .waiting || p == .deferred

/-- The candidates by class and seniority. -/
def State.candidates (s : State) : List Cand :=
  sortBy (fun x => s.tenClass x.tenant * 2 ^ 80 + x.senior)
    ((s.subs.filter fun e => e.2.status.isCand).map (fun e => ({ num := e.1, tenant := e.2.tenant, senior := e.2.senior, freezes := e.2.freezes } : Cand))
      ++ (s.beams.filter fun e => e.2.status.isCand).map (fun e =>
        ({ kind := 1, num := e.1, tenant := e.2.tenant, senior := e.2.senior, freezes := e.2.freezes } : Cand))
      ++ s.allocs.map fun a => { kind := 8, num := a.handle, tenant := a.tenant, senior := a.senior, freezes := a.freezes })

/-- The worst of the pool checks of R92 over the dies of a plan. -/
def State.granuleCheck (s : State) (t : Nat) (n : Nat → Nat) : Admit :=
  (List.range 4).foldl (fun a d => if n d == 0 then a else a.join (s.checkGranules t d (n d))) .ok

/-- A fixed, pending gain switch lies inside one of the blocks of a plan that begins at `s0` (R81). -/
def State.gainInside (s : State) (chans : List Nat) (s0 len : Nat) : Bool :=
  (List.range 4).any fun d => !(s.chansOn d chans).isEmpty && match (s.die d).gainLoad with
    | some (t, _) => t % len != 0 && decide (s0 ≤ t)
    | none => false

/-- Outcome of a subarray beside what stands so far, by the order of R279 step 3. -/
def State.judgeSub (s : State) (c n : Nat) : Admit :=
  let x := s.subEff s.planDie (s.subr n)
  let xs := s.plannedSubs c ++ [(n, x)]
  let bs := s.plannedBeams c
  let g := s.granuleCheck x.tenant fun d => x.granules s d
  if g == .quota || !s.quotaOk x.tenant (subsOf x.tenant xs) (beamsOf x.tenant bs) then .quota
  else if !s.expertStands x then .deferred
  else if g == .capacity || !s.fitAll [(n, x)] [] then .capacity
  else if g == .deferred || !s.fitAll xs bs || s.gainInside x.chans (nextMul c x.len) x.len then .deferred
  else .ok

/-- Outcome of a beam plan; one that reads a subarray's buffer needs that subarray running. -/
def State.judgeBeam (s : State) (c n : Nat) : Admit :=
  let x := s.beamEff s.planDie (s.beam n)
  let xs := s.plannedSubs c
  let bs := s.plannedBeams c ++ [(n, x)]
  let g := s.granuleCheck x.tenant fun d => x.granules s d
  let noSource := match x.srcSub with
    | some m => (s.subr m).status != .running
    | none => false
  if g == .quota || !s.quotaOk x.tenant (subsOf x.tenant xs) (beamsOf x.tenant bs) then .quota
  else if g == .capacity || !s.fitAll [] [(n, x)] then .capacity
  else if g == .deferred || noSource || !s.fitAll xs bs
      || (x.src != .direct && s.gainInside x.chans (nextMul c x.len) x.len) then .deferred
  else .ok

def State.judge (s : State) (c : Nat) (x : Cand) : Admit :=
  if x.kind == 0 then s.judgeSub c x.num
  else if x.kind == 1 then s.judgeBeam c x.num
  else match s.allocs.find? (fun a => a.handle == x.num) with
    | some a => if s.planDie a.die then s.checkGranules a.tenant a.die a.granules else .capacity
    | none => .ok

/-- The plan without every plan that is ending. -/
def State.withoutEnding (s : State) : State :=
  { s with subs := s.subs.filter (fun e => e.2.status != .stopping), beams := s.beams.filter fun e => e.2.status != .stopping }

/-- The counter at which the last plan that is ending releases what it holds. -/
def State.lastRelease (s : State) : Nat :=
  ((s.subs.filterMap fun e => if e.2.status == .stopping then e.2.stopAt.map (· + e.2.len) else none)
    ++ (s.beams.filterMap fun e => if e.2.status == .stopping then e.2.stopAt.map (· + e.2.len) else none)).foldl max 0

/-- The on-deck estimate of a plan of block length `len` (R281). -/
def State.estimate (s : State) (c len : Nat) (x : Cand) : Nat :=
  if s.withoutEnding.judge c x == .ok then max 1 (ceilDiv (s.lastRelease - c) len) else 0xFFFFFFFF

/-- The start of a candidate is answered: by its completion, or by an event where it already completed DEFERRED (R257). -/
def State.answer (s : State) (x : Cand) (cmd : Option CmdRef) (st r0 r1 : Nat) : State :=
  match cmd with
  | some r => s.complete r st r0 r1
  | none => s.postStatus x.tenant st x.kind x.num 0 0

def State.candCmd (s : State) (x : Cand) : Option CmdRef :=
  if x.kind == 0 then (s.subr x.num).cmd else if x.kind == 1 then (s.beam x.num).cmd else none

def State.candLen (s : State) (x : Cand) : Nat :=
  if x.kind == 0 then (s.subr x.num).len
  else if x.kind == 1 && (s.beam x.num).src != .direct then (s.beam x.num).len else s.grid.period

/-- A candidate is admitted. -/
def State.takeCand (s : State) (c : Nat) (x : Cand) : State :=
  let s := s.answer x (s.candCmd x) stOK x.num 0
  if x.kind == 0 then s.modSub x.num fun y =>
    { y with status := .running, first := some (nextMul c y.len), freezes := 0, cmd := none, admitAt := s.now, intFirst := [], plans := [] }
  else if x.kind == 1 then s.modBeam x.num fun y =>
    { y with status := .running, first := some (if y.src == .direct then c else nextMul c y.len), freezes := 0, cmd := none, admitAt := s.now }
  else match s.allocs.find? (fun a => a.handle == x.num) with
    | some a => { s with allocs := s.allocs.filter (fun b => b.handle != x.num),
                         handles := setT none s.handles x.num (some { tenant := a.tenant, die := a.die, granules := a.granules }) }
    | none => s

/-- A candidate is refused and is gone. -/
def State.rejectCand (s : State) (x : Cand) (st : Nat) : State :=
  let s := s.answer x (s.candCmd x) st noField 0
  if x.kind == 0 then s.dropSub x.num
  else if x.kind == 1 then s.dropBeam x.num
  else { s with allocs := s.allocs.filter fun b => b.handle != x.num }

/-- A candidate stays, or becomes, DEFERRED; a 65th of its tenant is refused (R280). -/
def State.deferCand (s : State) (c : Nat) (x : Cand) : State :=
  match s.candCmd x with
  | some r =>
    if 64 ≤ s.deferredOf x.tenant then s.rejectCand x stQuota
    else
      let s := s.complete r stDeferred (s.estimate c (s.candLen x) x) x.num
      if x.kind == 0 then s.modSub x.num fun y => { y with status := .deferred, freezes := 1, cmd := none }
      else s.modBeam x.num fun y => { y with status := .deferred, freezes := 1, cmd := none }
  | none =>
    if x.kind == 0 then s.modSub x.num fun y => { y with freezes := y.freezes + 1 }
    else if x.kind == 1 then s.modBeam x.num fun y => { y with freezes := y.freezes + 1 }
    else { s with allocs := mapIf (fun a => a.handle == x.num) (fun a => { a with freezes := a.freezes + 1 }) s.allocs }

/-- One candidate, with whether an earlier one blocks. -/
def State.decide1 (s : State) (c : Nat) (blocked : Bool) (x : Cand) : State × Bool :=
  match s.judge c x with
  | .quota => (s.rejectCand x stQuota, blocked)
  | .capacity => (s.rejectCand x stCapacity, blocked)
  | .ok => if blocked then (s.deferCand c x, blocked) else (s.takeCand c x, blocked)
  | .deferred =>
    let hold := s.fieldOf 0xB00000 7 0
    let blocks := hold != 0 && decide (hold ≤ x.freezes + 1)
    let s := s.deferCand c x
    (if blocks && !blocked then s.modFn x.tenant fun f => { f with blocking := true } else s, blocked || blocks)

/-- PLAN_ADMISSION, steps 2 to 4. -/
def State.admitAll (s : State) (c : Nat) : State :=
  let s := s.forEach (s.fns.map (·.1)) fun s t => s.modFn t fun f => { f with blocking := false }
  (s.candidates.foldl (fun a x => a.1.decide1 c a.2 x) (s, false)).1

/-! ### The partition (R36, R43, R45) -/

/-- The next period: P shortens at once, and lengthens only at a counter that is a multiple of the new P (R36). -/
def State.choosePeriod (s : State) (c : Nat) : Nat :=
  let p := s.periodOfRun
  if p ≤ s.grid.period || c % p == 0 then p else s.grid.period

/-- The effective PLAN_LEAD is below the committed value (R45). -/
def State.leadClamped (s : State) : Bool :=
  s.subs.any fun e => e.2.status == .running && decide (e.2.len / 2048 < s.fieldOf 0x100000 31 24)

def State.partitionAt (s : State) (c : Nat) : List DiePart :=
  let xs := s.plannedSubs c
  let bs := s.plannedBeams c
  ((List.range 4).filter s.planDie).map fun d =>
    { die := d, layout := (s.layoutOf d xs (bs.map (·.2))).getD [], beams := s.beamTiles d bs }

/-- TOPK_SETs and loaded pass plans take effect (R111, R139). -/
def State.takeSettings (s : State) : State :=
  let s : State := { s with topks := s.topkNext.foldl (fun t e => setT {} t e.1 e.2) s.topks, topkNext := [] }
  s.forEach (s.subs.filter fun e => !e.2.expertNext.isEmpty) fun s e => s.modSub e.1 fun x =>
    { x with expert := x.expert.filter (fun y => !x.expertNext.any fun z => z.die == y.die) ++ x.expertNext, expertNext := [] }

/-- Weights lost with an HBM controller (R136): a STEER plan, or one that BEAM_WEIGHTS has loaded again, resumes on every
die whose controllers run; otherwise its tenant is told once more. -/
def State.resumeBeams (s : State) : State :=
  s.forEach (s.beams.filter fun e => !e.2.lostDies.isEmpty) fun s e =>
    if e.2.steer || e.2.reloaded then
      s.modBeam e.1 fun b => { b with lostDies := b.lostDies.filter fun d => s.inReset (4 + 2 * d) || s.inReset (5 + 2 * d) }
    else s.postStatus e.2.tenant stDataLost 1 e.1 0 0

/-- The freeze for the boundary at counter `c`. -/
def State.freezeAt (s : State) (c : Nat) : State :=
  let s := (s.takeSettings.doStops c).resumeBeams
  let s := (s.keepRunning c).admitAll c
  let s := s.forEach (s.fns.map (·.1)) State.applyPolicy
  let s := s.selfSteer fun d p => s.dieFits d p (s.plannedSubs c) (s.plannedBeams c)
  s.modGrid fun g => { g with frozen := true, newPeriod := some (s.choosePeriod c), leadClamped := s.leadClamped, partNext := s.partitionAt c }

/-- The counter of the boundary that comes next, once there is one (R36, R66). -/
def State.nextBound (s : State) : Option Nat :=
  if s.grid.started then some s.blockEnd else s.grid.firstCtr.map fun _ => s.grid.start

/-- Some die has a stream on an ACTIVE lane (R66). -/
def State.anyStream (s : State) : Bool := (List.range 4).any fun d => s.dieOn d && !(s.activeStreams d).isEmpty

/-- PLANNING_FREEZE, once for each boundary. -/
def State.planningFreeze (s : State) : State :=
  match s.nextBound with
  | some c => if s.grid.frozen || s.inReset 36 || !s.anyStream then s else s.freezeAt c
  | none => s

def execPlanningFreeze (s : State) : Host.Outcome State Fault Refusal := .next s.planningFreeze

end Sys2Proof.Machine
end

