-- ==== Sys2Proof/Machine/Beams.lean ====
section
/-! DEFINITION. The beam data path: weights, sums, output forms, direct sweeps, the rotations of buffered plans, voltage and
power records, band sums and the capture region (R120 to R128, R132, R134 to R137). -/
namespace Sys2Proof.Machine

open Sys2Proof

/-! ### Weights (R120, R132, R134) -/

def cxMul (a b : Cx) : Cx := { re := a.re * b.re - a.im * b.im, im := a.re * b.im + a.im * b.re }

/-- S' and B' (R129, R40). -/
def Beam.padSigs (b : Beam) : Nat := roundUp16 b.sigs.length
def Beam.padBeams (b : Beam) : Nat := roundUp16 b.beams
/-- Weight sets per coarse channel. -/
def Beam.fineSets (b : Beam) (s : State) : Nat := if b.src == .fine then s.numF else 1

/-- The weight of a place in a table: the 16-bit parts of R12. -/
def WSet.at (x : WSet) (i : Nat) : Cx :=
  match x.draw with
  | none => x.w.getD i {}
  | some n => let v := (Config.unsetWeight n i).toNat; { re := toSigned 16 (v % 65536), im := toSigned 16 (v / 65536) }

/-- The weight of (package-local channel, fine channel, beam, signal index) in the order of R133; padding signals carry 0. -/
def State.weight (s : State) (b : Beam) (x : WSet) (ch k a i : Nat) : Cx :=
  if b.sigs.length ≤ i then {} else x.at (((x.chans.idxOf ch * b.fineSets s + k) * b.padBeams + a) * b.padSigs + i)

/-- The table in force for a data slot. -/
def Beam.weightsAt (b : Beam) (slot : Nat) : WSet :=
  match b.next, b.prev with
  | some w, p =>
    if w.ready && !w.late && decide (w.slot ≤ slot) then w.w
    else match p with
      | some (t, old) => if slot < t then old else b.active
      | none => b.active
  | none, some (t, old) => if slot < t then old else b.active
  | none, none => b.active

/-- The rotation of data slot `j` of a plan starts, first on die `d` (Table 5.3): a switch whose slot has come becomes
ACTIVE and completes; one whose NEXT is not complete at the rotation before its slot is late, and is made at the slot after
the first rotation that starts with NEXT complete, completing DEFERRED. -/
def State.markRotation (s : State) (d n j : Nat) : State :=
  let b := s.beam n
  if b.rot.any fun r => decide (j ≤ r) then s
  else
    let s := s.modBeam n fun b => { b with rot := some j }
    match b.next with
    | none => s
    | some w =>
      if w.late && w.ready then
        ((s.modBeam n fun b => { b with next := some { w with slot := j + 1, late := false, cmd := none } }).modDie d fun y =>
          { y with wswDefer := satTo 255 (y.wswDefer + 1) }).completeOpt w.cmd stDeferred 0 (j + 1)
      else if w.ready && decide (w.slot ≤ j) then
        (s.modBeam n fun b => { b with prev := some (w.slot, b.active), active := w.w, next := none, reloaded := true }).completeOpt
          w.cmd stOK (w.slot % 2 ^ 32) 0
      else if !w.ready && decide (w.slot ≤ j + 1) then s.modBeam n fun b => { b with next := some { w with late := true } }
      else s

/-! ### Sums and output forms (R125, R126) -/

/-- Sums over a list of sample rows, one row a signal, with the weights of `w`. -/
def weightedSum (n : Nat) (w : Nat → Cx) (xs : List (List Cx)) : List Cx :=
  xs.zipIdx.foldl (fun acc e => List.zipWith cxAdd acc (e.1.map (cxMul (w e.2)))) (List.replicate n {})

/-- The exact sums of every beam over `n` sample times. -/
def beamSums (beams n : Nat) (w : Nat → Nat → Cx) (xs : List (List Cx)) : List (List Cx) :=
  (List.range beams).map fun a => weightedSum n (w a) xs

def rneCx (v : Cx) (sh : Nat) : Cx := { re := rneShift v.re sh, im := rneShift v.im sh }

/-- VOLT16 and VOLT8 of an exact sum, with its clipped parts. -/
def volt16 (sh : Nat) (v : Cx) : Cx × Nat := satCx 32767 (rneCx v sh)
def volt8 (sh : Nat) (v : Cx) : Cx × Nat := satCx 127 (rneCx v (sh + 8))

/-! ### Records (R135) -/

/-- Words 0x20 to 0x3F of Table 5.4 and the data. -/
def beamBody (form : Nat) (b : Beam) (die chan first count slots nfine sat zeroed dies shift : Nat) (hub : Bool) (data : List Byte) : List Byte :=
  let pow := form == 2
  rows
    [ form * 2 ^ 28 + bnat (b.src != .direct) * 2 ^ 27 + bnat (pow && b.bandsum) * 2 ^ 26 + bnat (pow && b.pairs) * 2 ^ 25 + die * 2 ^ 16 + chan
    , first * 2 ^ 16 + count, slots * 2 ^ 16 + nfine, sat % 2 ^ 32, zeroed % 2 ^ 32, bnat hub * 2 ^ 31 + dies * 2 ^ 27 + shift, 0, 0 ]
    ++ data

/-- A BEAM record of a plan whose first slot is `slot`. -/
def State.beamRec (s : State) (n slot : Nat) (body : List Byte) : Rec :=
  let b := s.beam n
  s.mkRec 0x03 b.tenant n (1024 * slot / (if b.src == .direct then 2 ^ 20 else b.len)) (1024 * slot) body

/-- Ranges of at most `k` of `n` beams, as (first, count). -/
def beamRanges (k n : Nat) : List (Nat × Nat) := (List.range (ceilDiv n k)).map fun i => (i * k, min k (n - i * k))

def cxBytes (w : Nat) (v : Cx) : List Byte := le w (ofSigned (8 * w) v.re) ++ le w (ofSigned (8 * w) v.im)

/-- What a plan's rotation of one slot has given on a die-local channel: for each beam its 1,024 exact sums. -/
structure SlotOut where
  ch     : Nat := 0
  vals   : List (List Cx) := []
  zeroed : Nat := 0
deriving DecidableEq, Repr

/-- The voltage records of a slot on a channel, in the form `w` bytes a part. -/
def State.emitVolt (s : State) (d n slot : Nat) (x : SlotOut) (w : Nat) : State :=
  let b := s.beam n
  let vs := x.vals.map fun l => l.map (if w == 1 then volt8 b.vshift else volt16 b.vshift)
  s.forEach (beamRanges (1048512 / (2048 * w)) b.beams) fun s r =>
    let l := ((vs.drop r.1).take r.2).flatten
    (s.emitDie d b.dest (s.beamRec n slot (beamBody (w - 1) b d (x.ch + d * s.chPerDie) r.1 r.2 1 (b.nfine s)
      (sumN (l.map (·.2))) x.zeroed (2 ^ d) b.vshift false (l.flatMap fun v => cxBytes w v.1)))).1

/-! ### Capture (R137) -/

/-- Bytes of the capture region of a die. -/
def State.captureSize (s : State) (d : Nat) : Nat := s.fieldOf (0x400010 + 4 * d) 10 0 * 67108864

/-- Slots that the region of a die holds of every capturing plan: each has a part by its rate. -/
def State.captureDepth (s : State) (d : Nat) : Nat :=
  s.captureSize d / max 1 (sumN (s.beams.map fun e =>
    if e.2.capture && e.2.status.holds then (s.chansOn d e.2.chans).length * e.2.beams * 4096 else 0))

def captureKey (slot ch : Nat) : Nat := slot * 64 + ch

/-- The VOLT16 output of a slot enters the region over the oldest of the plan. -/
def State.capture (s : State) (d n slot : Nat) (x : SlotOut) : State :=
  let b := s.beam n
  let data := x.vals.flatMap fun l => l.flatMap fun v => cxBytes 2 (volt16 b.vshift v).1
  let depth := s.captureDepth d
  let held (e : Nat × Nat × List Byte) : Bool := e.1 != n || decide (slot < e.2.1 / 64 + depth)
  s.modDie d fun y => { y with capture := y.capture.filter held ++ [(n, captureKey slot x.ch, data)] }

/-! ### Power (R127, R128) -/

/-- The products of a plan, as pairs of beams in record order. -/
def Beam.pairList (b : Beam) : List (Nat × Nat) :=
  if b.pairs then (List.range (b.beams / 2)).flatMap fun m => [(2 * m, 2 * m), (2 * m + 1, 2 * m + 1), (2 * m, 2 * m + 1)]
  else (List.range b.beams).map fun a => (a, a)

/-- The power terms of one channel of a slot: for each fine channel its products, and the clipped VOLT16 parts. -/
def State.slotPowers (s : State) (b : Beam) (x : SlotOut) : List Cx × Nat :=
  let vs := x.vals.map fun l => l.map (volt16 b.vshift)
  let f := b.nfine s
  let run (a k : Nat) : List Cx := (((vs.getD a []).drop (k * (1024 / f))).take (1024 / f)).map (·.1)
  ((List.range f).flatMap fun k => b.pairList.map fun p => sumCx (List.zipWith cxMulConj (run p.1 k) (run p.2 k)),
    sumN (vs.map fun l => sumN (l.map (·.2))))

/-- The products summed over the fine channels. -/
def foldFine (n : Nat) (l : List Cx) : List Cx := (chunksOf n l).foldl (fun a r => List.zipWith cxAdd a r) (List.replicate n {})

/-- A converted integration: its 32-bit products and every clip counted. -/
def powOut (b : Beam) (a : PowAcc) : List Cx × Nat :=
  let ps := a.sums.map fun v => satCx 2147483647 (rneCx v b.pshift)
  (ps.map (·.1), a.sat + sumN (ps.map (·.2)))

/-- Products of the beams `r` of each fine channel. -/
def powSlice (b : Beam) (r : Nat × Nat) (ps : List Cx) : List Cx :=
  let (lo, n) := if b.pairs then (r.1 / 2 * 3, r.2 / 2 * 3) else r
  (chunksOf (b.products) ps).flatMap fun l => (l.drop lo).take n

/-- The hub combines the dies' parts in the fixed tree of R128. -/
def hubTree (n : Nat) (p : Nat → List Cx) : List Cx :=
  (List.range n).map fun i =>
    let q (a b : Nat) : Cx := rneCx (cxAdd ((p a).getD i {}) ((p b).getD i {})) 1
    rneCx (cxAdd (q 0 1) (q 2 3)) 1

/-- The band sum of a plan that begins at a slot leaves the hub with what has arrived. -/
def State.emitBand (s : State) (n first : Nat) : State :=
  let b := s.beam n
  let ps := b.partials.filter fun p => p.first == first
  let part (d : Nat) : List Cx := match ps.find? (fun p => p.die == d) with | some p => p.vals | none => []
  let s := s.modBeam n fun b => { b with partials := b.partials.filter fun p => p.first != first }
  s.emitHub b.dest (s.beamRec n first (beamBody 2 b 0 0xFFFF 0 b.beams b.int (b.nfine s) (sumN (ps.map (·.sat))) (sumN (ps.map (·.zeroed)))
    (sumN ((dedup (ps.map (·.die))).map (2 ^ ·))) b.pshift true ((hubTree b.products part).flatMap (cxBytes 4))))

/-- A die's part reaches the hub; the last one combines them. -/
def State.bandPart (s : State) (n : Nat) (p : Partial) : State :=
  if p.first < (s.beam n).bandDone then s
  else
    let s := s.modBeam n fun b => { b with partials := b.partials ++ [p] }
    let b := s.beam n
    if (dedup (b.chans.map s.dieOfCh)).all fun d => b.partials.any fun q => q.first == p.first && q.die == d then s.emitBand n p.first else s

/-- An integration of a die is complete. -/
def State.emitPower (s : State) (d n : Nat) (a : PowAcc) : State :=
  let b := s.beam n
  let (ps, sat) := powOut b a
  if b.bandsum then
    if s.manyDies b.chans then s.bandPart n { die := d, first := a.first, vals := ps, sat := sat, zeroed := a.zeroed }
    else (s.emitDie d b.dest (s.beamRec n a.first (beamBody 2 b d 0xFFFF 0 b.beams b.int (b.nfine s) sat a.zeroed (2 ^ d) b.pshift false
      (ps.flatMap (cxBytes 4))))).1
  else
    let per := if b.pairs then 1048512 / (24 * b.nfine s) * 2 else 1048512 / (8 * b.nfine s)
    s.forEach (beamRanges per b.beams) fun s r =>
      (s.emitDie d b.dest (s.beamRec n a.first (beamBody 2 b d (a.ch + d * s.chPerDie) r.1 r.2 b.int (b.nfine s) sat a.zeroed (2 ^ d) b.pshift
        false ((powSlice b r ps).flatMap (cxBytes 4))))).1

/-- One slot joins the integration of a plan on a channel, or of its band (channel 0xFFFF); integrations begin at multiples
of INT, and one that misses a slot is dropped. -/
def State.addPower (s : State) (d n slot ch : Nat) (sums : List Cx) (sat zeroed : Nat) : State :=
  let b := s.beam n
  let mine (a : PowAcc) : Bool := a.plan == n && a.ch == ch
  let old := (s.die d).powers.find? mine
  let s := s.modDie d fun y => { y with powers := y.powers.filter fun a => !mine a }
  let cur := if slot % b.int == 0 then some { plan := n, ch := ch, first := slot, slots := 1, sums := sums, sat := sat, zeroed := zeroed : PowAcc }
    else match old with
      | some a => if a.first + a.slots == slot then
          some { a with slots := a.slots + 1, sums := List.zipWith cxAdd a.sums sums, sat := a.sat + sat, zeroed := a.zeroed + zeroed } else none
      | none => none
  match cur with
  | none => s
  | some a => if a.slots == b.int then s.emitPower d n a else s.modDie d fun y => { y with powers := y.powers ++ [a] }

/-! ### A finished slot of a plan on a die (BEAM_RECORD) -/

def State.emitSlot (s : State) (d n slot : Nat) (xs : List SlotOut) : State :=
  let b := s.beam n
  let s := s.forEach xs fun s x =>
    let s := if b.volt8 then s.emitVolt d n slot x 1 else s
    let s := if b.volt16 then s.emitVolt d n slot x 2 else s
    if b.capture then s.capture d n slot x else s
  if !b.power then s
  else if b.bandsum then
    let ps := xs.map fun x => let p := s.slotPowers b x; (foldFine b.products p.1, p.2)
    s.addPower d n slot 0xFFFF (ps.foldl (fun a p => List.zipWith cxAdd a p.1) (List.replicate b.products {})) (sumN (ps.map (·.2)))
      (sumN (xs.map (·.zeroed)))
  else s.forEach xs fun s x => let p := s.slotPowers b x; s.addPower d n slot x.ch p.1 p.2 x.zeroed

/-! ### The top-k units in beam mode (R138) -/

/-- Σ |round_conv(p / 2^TSHIFT)|² of one row over a list of partial values, saturating. -/
def rowPower (tshift : Nat) (ps : List Cx) : Nat := ps.foldl (fun a p => satTo (2 ^ 63 - 1) (a + norm2 (rneCx p tshift))) 0

/-- The powers of the 16 rows of a job: beam band `j`, signal band `q`. -/
def jobRows (tshift j q n : Nat) (w : Nat → Nat → Cx) (xs : List (List Cx)) : List Nat :=
  (List.range 16).map fun r => rowPower tshift (weightedSum n (fun c => w (16 * j + r) (16 * q + c)) ((xs.drop (16 * q)).take 16))

/-- One stretch of samples joins the sub-block of every job of a plan on a channel `c` of the job's kind. -/
def State.addRows (s : State) (d n slot c sixteenths len : Nat) (w : Nat → Nat → Cx) (xs : List (List Cx)) : State :=
  let b := s.beam n
  let k := s.topk (2 * n + 1)
  if k.k == 0 then s
  else
    let blk := slot / 2 ^ k.sub
    let jobs := (List.range (b.padBeams / 16)).flatMap fun j => (List.range (b.padSigs / 16)).map fun q => (j, q)
    let add (accs : List RowAcc) (e : Nat × Nat) : List RowAcc :=
      let same (a : RowAcc) : Bool := a.plan == n && a.block == blk && a.size == k.sub && a.job == (e.1, e.2, c)
      let rs := jobRows k.tshift e.1 e.2 len w xs
      if accs.any same then
        mapIf same (fun a => { a with sixteenths := a.sixteenths + sixteenths, rows := List.zipWith (fun p q => satTo (2 ^ 63 - 1) (p + q)) a.rows rs }) accs
      else accs ++ [{ plan := n, block := blk, size := k.sub, job := (e.1, e.2, c), sixteenths := sixteenths, rows := rs }]
    s.modDie d fun y => { y with rowAccs := jobs.foldl add y.rowAccs }

/-! ### Direct sweeps (R122, R123) -/

/-- The running DIRECT plans of a die at a counter. -/
def State.directOn (s : State) (d ctr : Nat) : List (Nat × Beam) :=
  s.beams.filter fun e => e.2.src == .direct && e.2.status.holds && !(s.chansOn d e.2.chans).isEmpty && !e.2.lostDies.contains d
    && e.2.first.any (fun c => decide (c ≤ ctr)) && !e.2.stopAt.any fun t => decide (t ≤ ctr)

/-- The samples of a sweep for the signals of a plan, zero where missing or skipped, and how many entered as zero. -/
def Die.sweepRows (y : Die) (b : Beam) (ch n : Nat) (skip : Bool) : List (List Cx) × Nat :=
  let xs := b.sigs.map fun sig => (List.range 64).map fun i => if skip then none else getT none y.direct (sampleKey ch sig (64 * n + i))
  (xs.map fun l => l.map (·.getD {}), sumN (xs.map fun l => (l.filter (·.isNone)).length))

/-- The values of a sweep join those of its slot. -/
def addSweep (l : List SlotVals) (n ch slot : Nat) (vals : List (List Cx)) (zeroed : Nat) : List SlotVals :=
  let same (x : SlotVals) : Bool := x.plan == n && x.ch == ch && x.slot == slot
  if l.any same then
    mapIf same (fun x => { x with sweeps := x.sweeps + 1, zeroed := x.zeroed + zeroed, vals := List.zipWith (· ++ ·) x.vals vals }) l
  else l ++ [{ plan := n, ch := ch, slot := slot, sweeps := 1, zeroed := zeroed, vals := vals }]

/-- A direct plan's jobs on one channel in a sweep; the result is what the hub receives of it. -/
def State.sweepJobs (s : State) (d n sweep pch : Nat) (skip : Bool) : State × List SweepVals :=
  let b := s.beam n
  let ch := pch - d * s.chPerDie
  let slot := sweep / 16
  let w := b.weightsAt slot
  let (xs, zs) := (s.die d).sweepRows b ch sweep skip
  let vals := beamSums b.beams 64 (fun a i => s.weight b w pch 0 a i) xs
  let s := s.modDie d fun y => { y with slotVals := addSweep y.slotVals n ch slot vals zs, zeroedNow := satTo 0xFFFFFFFF (y.zeroedNow + zs) }
  let s := s.addRows d n slot ch 1 64 (fun a i => s.weight b w pch 0 a i) xs
  (s, if b.chains then [{ plan := n, ch := ch, vals := vals.map fun l => l.map fun v => (volt16 b.vshift v).1 }] else [])

/-- SWEEP_START, or with `skip` SWEEP_SKIP, of sweep `n`: every direct job of the die runs on it. A tile array in reset runs
none. -/
def State.runSweep (s : State) (d n : Nat) (skip : Bool) : State :=
  let done (s : State) : State := s.modDie d fun y =>
    { y with sweepNext := some (n + 1), direct := y.direct.filter fun e => decide (64 * (n + 1) ≤ e.1 % 2 ^ 48) }
  if s.inReset d then done s
  else
    let plans := s.directOn d (64 * n)
    let s := if n % 16 == 0 then s.forEach plans fun s e => s.markRotation d e.1 (n / 16) else s
    let r := (plans.flatMap fun e => (sortBy id (s.chansOn d e.2.chans)).map fun c => (e.1, c)).foldl
      (fun (acc : State × List SweepVals) e => let (s, o) := acc.1.sweepJobs d e.1 n e.2 skip; (s, acc.2 ++ o)) (s, [])
    (done r.1).modDie d fun y =>
      { y with skip := if skip then satTo 0xFFFF (y.skip + 1) else y.skip,
               sweepOut := if r.2.isEmpty then y.sweepOut else y.sweepOut ++ [{ n := n, skipped := skip, outs := r.2 }] }

/-- Every stream on an ACTIVE lane has delivered sweep `n`, or DB_WAIT has elapsed for it. -/
def State.sweepReady (s : State) (d n : Nat) : Bool :=
  let l := s.activeStreams d
  decide (n < (s.die d).sweepDue) || (!l.isEmpty && l.all fun e => decide (64 * (n + 1) ≤ e.2.next))

/-- A sweep is in the tiles: its values have not reached the hub. -/
def Die.sweeping (y : Die) : Bool := y.sweepOut.any fun w => !w.skipped

/-- Start or skip the sweeps that are due, at most `k`. -/
def State.startSweeps (s : State) (d : Nat) : Nat → State
  | 0 => s
  | k + 1 => match (s.die d).sweepNext with
    | none => s
    | some n =>
      if !s.sweepReady d n then s
      else if !(s.die d).sweeping then (s.runSweep d n false).startSweeps d k
      else if s.sweepReady d (n + 1) then (s.runSweep d n true).startSweeps d k
      else s

/-- The sweeps that data at hand can make due. -/
def State.sweepsLeft (s : State) (d : Nat) : Nat :=
  let y := s.die d
  ((s.dieStreams d).map fun e => e.2.next / 64).foldl max y.sweepDue + 1 - y.sweepNext.getD 0

def State.trySweeps (s : State) (d : Nat) : State := if s.dieOn d then s.startSweeps d (s.sweepsLeft d) else s

def execIngestPacket (lane : Fin 288) (framed : Bool) (symbols : List Byte) (s : State) : Host.Outcome State Fault Refusal :=
  .next (((s.ingestPacket lane framed symbols).trySweeps (lane / 72)).tryClose (lane / 72))

/-- DB_WAIT_EXPIRY: a stream has delivered a sample past the oldest sweep that still waits, and DB_WAIT has elapsed. -/
def State.dbWait (s : State) (d : Nat) : State :=
  match (s.die d).sweepNext with
  | none => s
  | some n =>
    let m := max n (s.die d).sweepDue
    if s.laterDelivered d (64 * (m + 1)) then (s.modDie d fun y => { y with sweepDue := m + 1 }).trySweeps d else s

def execDbWaitExpiry (die : Fin 4) (s : State) : Host.Outcome State Fault Refusal := .next (s.dbWait die)

/-- SWEEP_DELIVER: the values of the oldest sweep on its way reach the hub and the chains that read them. -/
def State.sweepDeliver (s : State) (d : Nat) : State :=
  match (s.die d).sweepOut with
  | [] => s
  | w :: ws =>
    let s := s.modDie d fun y => { y with sweepOut := ws }
    let s := s.forEach (s.chains.filter fun e => e.2.state != .free) fun s e =>
      s.forEach (List.range e.2.m) fun s j =>
        let pch := e.2.firstCh + j
        match w.outs.find? (fun o => o.plan == e.2.plan && s.dieOfCh pch == d && o.ch + d * s.chPerDie == pch) with
        | some o => s.chainInput e.1 j (64 * w.n) (o.vals.getD e.2.beam []) (if w.skipped then 64 else 0)
        | none => s
    s.trySweeps d

def execSweepDeliver (die : Fin 4) (s : State) : Host.Outcome State Fault Refusal := .next (s.sweepDeliver die)

/-- The finished slots below `limit` of DIRECT plans are emitted; one that lacks a sweep never is (R136). -/
def State.flushDirect (s : State) (d limit : Nat) : State :=
  let vs := (s.die d).slotVals.filter fun v => decide (v.slot < limit)
  let gone (v : SlotVals) : Bool := (s.die d).sweepNext.any fun n => decide (16 * (v.slot + 1) ≤ n)
  let s := s.modDie d fun y => { y with slotVals := y.slotVals.filter fun v => decide (limit ≤ v.slot) || (v.sweeps != 16 && !gone v) }
  s.forEach (dedup ((vs.filter fun v => v.sweeps == 16).map fun v => v.plan * 2 ^ 48 + v.slot)) fun s k =>
    s.emitSlot d (k / 2 ^ 48) (k % 2 ^ 48) ((vs.filter fun v => v.sweeps == 16 && v.plan == k / 2 ^ 48 && v.slot == k % 2 ^ 48).map fun v =>
      ({ ch := v.ch, vals := v.vals, zeroed := v.zeroed } : SlotOut))

/-! ### Buffered plans (R90, R124) -/

/-- The buffer that a plan reads, as a subarray of its signals and channels. -/
def State.bufferOf (s : State) (b : Beam) : Sub :=
  { status := .running, tenant := b.tenant, sigs := b.sigs, chans := b.chans, len := b.len,
    first := match b.srcSub with | some m => (s.subr m).first | none => b.first }

/-- The flags that a read of block `k` meets: those received on the die. -/
def State.beamMask (s : State) (d : Nat) (x : Sub) (k : Nat) : List Flag :=
  ((s.die d).flags ++ (s.die d).flagRx).filter fun f => s.applies f x k

/-- A signal and channel that the buffer of another subarray does not hold is absent. -/
def State.bufferHolds (s : State) (b : Beam) (pch sig : Nat) : Bool :=
  match b.srcSub with
  | some m => (s.subr m).chans.contains pch && (s.subr m).sigs.contains sig
  | none => true

/-- The samples of data slot `j` on a die-local fine channel, and how many entered as zero. -/
def State.fineRows (s : State) (d j fine : Nat) (b : Beam) (x : Sub) (k : Nat) : List (List Cx) × Nat :=
  let p : Pass := { block := k, ue := (s.die d).beamUe }
  let mask := s.beamMask d x k
  let xs := x.sigs.zipIdx.map fun e =>
    if s.bufferHolds b (d * s.chPerDie + fine / s.numF) e.1 then s.sampleRun d x p mask (s.slotTimes j) fine e.2
    else (s.slotTimes j).map fun _ => none
  (xs.map fun l => l.map (·.getD {}), sumN (xs.map fun l => (l.filter (·.isNone)).length))

/-- A buffered plan's rotation of data slot `j` on one channel. -/
def State.fineSlot (s : State) (d n j pch : Nat) (x : Sub) (k : Nat) : State × SlotOut :=
  let b := s.beam n
  let f := s.numF
  let ch := pch - d * s.chPerDie
  let w := b.weightsAt j
  let runs := (List.range f).map fun i => (i, s.fineRows d j (ch * f + i) b x k)
  let wt (i a c : Nat) : Cx := s.weight b w pch (if b.src == .fine then i else 0) a c
  let vals := runs.foldl (fun acc r => List.zipWith (· ++ ·) acc (beamSums b.beams (1024 / f) (wt r.1) r.2.1)) (List.replicate b.beams [])
  let s := s.forEach runs fun s r =>
    s.addRows d n j (if b.src == .fine then ch * f + r.1 else ch) (if b.src == .fine || r.1 == 0 then 16 else 0) (1024 / f) (wt r.1) r.2.1
  (s, { ch := ch, vals := vals, zeroed := sumN (runs.map (·.2.2)) })

/-- The block whose slot `j` a buffered plan processes now: written in full, and its period not over. -/
def State.readBlock (s : State) (b : Beam) (x : Sub) (j : Nat) : Option Nat :=
  match x.first with
  | none => none
  | some s0 =>
    let k := (1024 * j - s0) / b.len
    if b.first.any (fun c => decide (c ≤ 1024 * j)) && decide (s0 ≤ 1024 * j) && !b.stopAt.any (fun t => decide (t ≤ 1024 * j))
        && decide (x.blockCtr (k + 1) ≤ s.grid.start) && decide (s.grid.start < x.blockCtr (k + 2)) then some k
    else none

/-- The rotation of a buffered plan in slot `slot`: the data slot one block earlier. -/
def State.rotateBuffered (s : State) (d n slot : Nat) : State :=
  let b := s.beam n
  let j := slot - b.len / 1024
  let x := s.bufferOf b
  match s.readBlock b x j with
  | none => s
  | some k =>
    if slot < b.len / 1024 || decide (j < getT 0 (s.die d).rotDone n) then s
    else
      let s := (s.markRotation d n j).modDie d fun y => { y with rotDone := setT 0 y.rotDone n (j + 1) }
      if b.lostDies.contains d then s
      else
        let r := (sortBy id (s.chansOn d b.chans)).foldl (fun (acc : State × List SlotOut) c =>
          let (s, o) := acc.1.fineSlot d n j c x k; (s, acc.2 ++ [o])) (s, [])
        r.1.emitSlot d n j r.2

/-- ROTATION_START: the rotation of a slot starts on the tiles of a die. Direct jobs work on the slot's own data, so that the
slots before it are finished; buffered jobs work on the same slot of the block before. -/
def State.rotationStart (s : State) (d slot : Nat) : State :=
  if !s.dieOn d || s.inReset d then s
  else
    let s := s.forEach (s.directOn d (1024 * slot)) fun s e => s.markRotation d e.1 slot
    let s := s.flushDirect d slot
    s.forEach (s.beams.filter fun e => e.2.src != .direct && e.2.status.holds && !(s.chansOn d e.2.chans).isEmpty) fun s e =>
      s.rotateBuffered d e.1 slot

def execRotationStart (die : Fin 4) (slot : Nat) (s : State) : Host.Outcome State Fault Refusal := .next (s.rotationStart die slot)

/-- BANDSUM_TIMEOUT: the oldest band sum at the hub leaves without the dies that are missing. -/
def State.bandTimeout (s : State) (n : Nat) : State :=
  match minBy (·.first) (s.beam n).partials with
  | none => s
  | some p => (s.emitBand n p.first).modBeam n fun b => { b with bandDone := max b.bandDone (p.first + b.int) }

def execBandsumTimeout (plan : Fin 4096) (s : State) : Host.Outcome State Fault Refusal := .next (s.bandTimeout plan)

/-- A DIRECT plan that has ended has no sweep left to run on any die. -/
def State.sweepsDone (s : State) (b : Beam) : Bool :=
  b.src != .direct || (List.range 4).all fun d =>
    (s.chansOn d b.chans).isEmpty || !s.dieOn d || s.inReset d || (s.activeStreams d).isEmpty
      || !(s.die d).sweepNext.any fun n => b.stopAt.any fun t => decide (64 * n < t)

end Sys2Proof.Machine
end

