-- ==== Sys2Proof/Machine/Host.lean ====
section
/-! DEFINITION. The host interface's commands: doorbells, rings, completions, records, events, function commits, NOP,
MEM_ALLOC, MEM_FREE and TU_INVAL (Chapter 10). -/
namespace Sys2Proof.Machine

open Sys2Proof

/-! ### Doorbells (R250, R253) -/

/-- Whether the host may publish this index: it moves forward by at most the capacity, and on an OUT ring it does not
land inside a record (R250). -/
def Ring.goodIndex (r : Ring) (i : BitVec 24) : Bool :=
  let old := if r.kind == 0 then r.p else r.c
  let moved := (i - old).toNat
  decide (moved ≤ r.capacity)
    && (r.kind != 2 || moved == 0 || r.recEnds.contains i || decide (r.used < moved))

/-- Publish the host's index. -/
def Ring.publish (r : Ring) (i : BitVec 24) : Ring :=
  if r.kind == 0 then { r with p := i, tail := i }
  else { r with c := i, tail := i,
                recEnds := r.recEnds.filter (fun e => decide ((i - r.c).toNat < (e - r.c).toNat)) }

/-- DOORBELL: a write of the doorbell of ring `q` (Table 10.4). -/
def State.doorbell (s : State) (fn q v : Nat) : State :=
  let r := s.ring fn q
  let i := BitVec.ofNat 24 v
  if !s.ready || !s.fnExists fn || !r.enabled || r.state == .off then s
  else if r.state == .error then s.modRing fn q fun r => { r with tail := i }
  else if !r.goodIndex i then (s.modRing fn q fun r => { r with tail := i }).ringError fn q 1
  else
    let s := s.modRing fn q fun r => r.publish i
    if bit v 31 && r.kind != 0 then
      let s := s.modRing fn q fun r => { r with armed := true }
      if (s.ring fn q).used != 0 then s.ringIrq fn q else s
    else s

def execDoorbell (fn : Fin 256) (q : Fin 128) (v : W32) (s : State) : Host.Outcome State Fault Refusal :=
  .next (s.doorbell fn q v.toNat)

/-- RING_READ_TIMEOUT: a read of a CMD ring has not completed within 50 ms (R254, cause 3). -/
def execRingReadTimeout (fn : Fin 256) (q : Fin 128) (s : State) : Host.Outcome State Fault Refusal :=
  .next (if (s.ring fn q).runs 0 && (s.ring fn q).used != 0 then s.ringError fn q 3 else s)

/-! ### Completions, records and events (R251, R252, R257, R263) -/

/-- A completion entry (Table 10.6) at index `i` of its ring, `head` the CMD ring's consumer index. -/
def Cpl.bytes (c : Cpl) (phase head : Nat) : List Byte :=
  rows [ phase * 2 ^ 31 + c.cmd.q * 2 ^ 24 + c.status.toNat * 2 ^ 16 + c.cmd.tag.toNat
       , c.cmd.opc.toNat * 2 ^ 24 + head, c.res0.toNat, c.res1.toNat ]

/-- COMPLETION_WRITE: the first waiting completion is written at P once there is room. -/
def State.writeCompletion (s : State) (fn q : Nat) (acc : HostAcc) : State :=
  let r := s.ring fn q
  match r.cplWait with
  | [] => s
  | c :: cs =>
    if !r.runs 1 || r.isFull then s
    else
      let i := r.p.toNat
      let a := r.base + 16 * (i % r.depth)
      match s.translate fn a true acc with
      | (s, none) => s.ringError fn q 2
      | (s, some _) =>
        let s := s.emit (.hostWrite fn a (c.bytes (r.phase i) (s.ring fn c.cmd.q).c.toNat))
        (s.modRing fn q fun r => { r with p := r.p + 1, cplWait := cs }).ringIrq fn q

def execCompletionWrite (fn : Fin 256) (q : Fin 128) (acc : HostAcc) (s : State) : Host.Outcome State Fault Refusal :=
  .next (s.writeCompletion fn q acc)

/-- The writes of a record's bytes at position `pos` of a ring of `n` bytes; one that reaches the end continues at 0. -/
def wrapWrites (fn base n pos : Nat) (bs : List Byte) : List Output :=
  if pos + bs.length ≤ n then [.hostWrite fn (base + pos) bs]
  else [.hostWrite fn (base + pos) (bs.take (n - pos)), .hostWrite fn base (bs.drop (n - pos))]

/-- OUT_RECORD_WRITE: the first staged record is written once it fits, P advances to the next multiple of 64 bytes and
is written back (R252). -/
def State.writeOutRecord (s : State) (fn q : Nat) (acc : HostAcc) : State :=
  let r := s.ring fn q
  match r.staged with
  | [] => s
  | x :: xs =>
    let need := (x.len + 63) / 64 * 64
    if !r.runs 2 || decide (r.room < need) then s
    else
      let pos := r.p.toNat % r.capacity
      match s.translate fn (r.base + pos) true acc with
      | (s, none) => s.ringError fn q 2
      | (s, some _) =>
        let p := r.p + BitVec.ofNat 24 need
        let s := s.forEach (wrapWrites fn r.base r.capacity pos x.bytes) State.emit
        let s := s.emit (.hostWrite fn r.wb (le32 p.toNat))
        let s := match x.die with
          | some d => s.subStaging d x.tenant x.len
          | none => s
        (s.modRing fn q fun r => { r with p := p, staged := xs, recEnds := r.recEnds ++ [p] }).ringIrq fn q

def execOutRecordWrite (fn : Fin 256) (q : Fin 128) (acc : HostAcc) (s : State) : Host.Outcome State Fault Refusal :=
  .next (s.writeOutRecord fn q acc)

/-- EVT_OVERFLOW: room has returned in the event ring (R263). -/
def execEvtOverflow (fn : Fin 256) (s : State) : Host.Outcome State Fault Refusal :=
  .next (s.overflowEvt fn)

/-! ### Function commit (R248) -/

/-- DEST values that running or waiting work of a tenant names. -/
def State.destsOf (s : State) (t : Nat) : List Nat :=
  (s.subs.filter fun e => e.2.tenant == t && e.2.status != .free).map (·.2.dest)
    ++ (s.beams.filter fun e => e.2.tenant == t && e.2.status != .free).map (·.2.dest)
    ++ (s.chains.filter fun e => e.2.tenant == t && e.2.state != .free).map (·.2.dest)

def cfgEnabled (g : RingRegs) : Bool := bit g.cfg.toNat 31
def cfgKind (g : RingRegs) : Nat := fld g.cfg.toNat 29 28
def cfgLogDepth (g : RingRegs) : Nat := logDepth g.cfg.toNat
def cfgCplq (g : RingRegs) : Nat := fld g.cfg.toNat 14 8

/-- Row 1 of R248: base, depth or kind of a ring that is and stays enabled. -/
def changedWhileOn (r : Ring) : Bool :=
  cfgEnabled r.co && cfgEnabled r.sh
    && (r.co.baseLo != r.sh.baseLo || r.co.baseHi != r.sh.baseHi || cfgKind r.co != cfgKind r.sh
        || cfgLogDepth r.co != cfgLogDepth r.sh)

def State.fnRings (s : State) (fn : Nat) : List (Nat × Ring) :=
  (List.range 128).map fun q => (q, s.ring fn q)

/-- Row 2 of R248: a CPL ring that an enabled CMD ring names, or an OUT or EVT ring named by running work or FN_CFG. -/
def State.disablesUsed (s : State) (fn q : Nat) (r : Ring) : Bool :=
  cfgEnabled r.co && !cfgEnabled r.sh
    && match cfgKind r.co with
      | 1 => (s.fnRings fn).any fun x => cfgEnabled x.2.sh && cfgKind x.2.sh == 0 && cfgCplq x.2.sh == q
      | 2 => (s.destsOf fn).contains (0x100 + q)
      | 3 => (s.fn fn).evtValidSh && (s.fn fn).evtQSh == q
      | _ => false

/-- Row 4 of R248: a CMD ring whose CPLQ names no enabled CPL ring after the commit. -/
def State.badCplq (s : State) (fn : Nat) (r : Ring) : Bool :=
  cfgEnabled r.sh && cfgKind r.sh == 0
    && !(cfgEnabled (s.ring fn (cfgCplq r.sh)).sh && cfgKind (s.ring fn (cfgCplq r.sh)).sh == 1)

/-- Row 5 of R248: an enabled ring's depth outside 16 to 65,536 (the base is aligned by its layout). -/
def badDepth (r : Ring) : Bool := cfgEnabled r.sh && decide (cfgLogDepth r.sh < 4)

/-- The result of a function commit, in the order of R248's table. -/
def State.fnCommitCheck (s : State) (fn : Nat) : Nat :=
  let rs := s.fnRings fn
  if rs.any fun x => changedWhileOn x.2 then stConflict
  else if rs.any fun x => s.disablesUsed fn x.1 x.2 then stConflict
  else if s.fieldOf (tenReg fn 0) 23 16 < (rs.filter fun x => cfgEnabled x.2.sh).length then stQuota
  else if rs.any fun x => s.badCplq fn x.2 then stConflict
  else if rs.any fun x => badDepth x.2 then stConflict
  else stOK

/-- A ring takes its shadow registers: one that becomes enabled starts with its indices at 0, one that becomes disabled
stops (R250, R254). -/
def Ring.commit (r : Ring) : Ring :=
  let r' := { r with co := r.sh }
  if !cfgEnabled r.co && cfgEnabled r.sh then
    { r' with p := 0, c := 0, tail := 0, state := .run, armed := false, err := 0, recEnds := [], staged := [] }
  else if cfgEnabled r.co && !cfgEnabled r.sh then { r' with state := .off, armed := false, err := 0 }
  else r'

/-- The effects of disabling a ring beside its registers: a CMD ring is lost as a lock holder (R298), and records
still staged for an OUT ring are discarded. -/
def State.afterDisable (s : State) (fn q : Nat) (old : Ring) : State :=
  if cfgEnabled old.co && !cfgEnabled old.sh then
    if cfgKind old.co == 0 then s.loseHolder (fn * 128 + q)
    else s.forEach old.staged fun s x => match x.die with
      | some d => (s.subStaging d x.tenant x.len).dataLost x
      | none => s.dataLost x
  else s

/-- FUNCTION_COMMIT: checked and applied as a whole; the result stands in FN_STATUS.LAST (R248). -/
def State.functionCommit (s : State) (fn : Nat) : State :=
  if !s.ready || !s.fnExists fn then s
  else
    let s := s.modFn fn fun f => { f with rsnap := [] }
    let st := s.fnCommitCheck fn
    if st != stOK then s.modFn fn fun f => { f with last := BitVec.ofNat 8 st }
    else
      let old := s.fnRings fn
      let s := s.forEach old fun s x => s.modRing fn x.1 Ring.commit
      let s := s.modFn fn fun f => { f with last := 0, evtValid := f.evtValidSh, evtQ := f.evtQSh,
                                            staleValid := f.staleValidSh, staleQ := f.staleQSh }
      s.forEach old fun s x => s.afterDisable fn x.1 x.2

def execFunctionCommit (fn : Fin 256) (s : State) : Host.Outcome State Fault Refusal :=
  .next (s.functionCommit fn)

/-! ### Ring commands -/

/-- NOP (0x00) completes OK. -/
def execNop (c : RingCmd) (s : State) : Host.Outcome State Fault Refusal :=
  .next (s.startCmd 0x00 false c fun r s => s.complete r stOK 0 0)

/-- MEM_ALLOC (0x03): R259's checks, then R92 items 1 to 3. -/
def State.memAlloc (s : State) (c : RingCmd) (r : CmdRef) : State :=
  let d := fld c.arg0.toNat 1 0
  let n := c.arg1.toNat
  if n == 0 then s.refuse r stConflict (argOff 1) 0
  else if !s.dieOn d then s.refuse r stCapacity (argOff 0) 0
  else match s.freeHandle with
    | none => s.refuse r stCapacity noField 0
    | some h => match s.checkGranules c.fn d n with
      | .quota => s.refuse r stQuota (argOff 1) 1
      | .capacity => s.refuse r stCapacity (argOff 1) 2
      | .deferred =>
        if 64 ≤ s.deferredOf c.fn then s.refuse r stQuota noField 0
        else
          let wait := s.onDeck d n
          let s : State := { s with allocs := s.allocs ++ [{ handle := h, tenant := c.fn, die := d, granules := n, senior := s.now }] }
          s.complete r stDeferred wait h
      | .ok =>
        let s : State := { s with handles := setT none s.handles h (some { tenant := c.fn, die := d, granules := n }) }
        s.complete r stOK h 0

def execMemAlloc (c : RingCmd) (s : State) : Host.Outcome State Fault Refusal :=
  .next (s.startCmd 0x03 false c fun r s => s.memAlloc c r)

/-- Whether a transfer reads or writes this allocation (R259). -/
def Xfer.uses (x : Xfer) (h : Nat) : Bool :=
  (x.src == 1 && x.srcA.toNat / 2 ^ 48 == h) || (x.dst == 1 && x.dstA.toNat / 2 ^ 48 == h)

/-- A transfer in progress on any channel uses this allocation. -/
def State.handleBusy (s : State) (h : Nat) : Bool :=
  s.dmas.any fun e => match e.2.cur with
    | some x => x.uses h
    | none => false

/-- MEM_FREE (0x04): the handle must be the tenant's own and no running transfer's (R259). -/
def State.memFree (s : State) (c : RingCmd) (r : CmdRef) : State :=
  let h := c.arg0.toNat
  match getT none s.handles h with
  | none => s.refuse r stConflict (argOff 0) 0
  | some a =>
    if a.tenant != c.fn then s.refuse r stConflict (argOff 0) 0
    else if s.handleBusy h then s.refuse r stConflict (argOff 0) 0
    else (s.freeAlloc h).complete r stOK 0 0

def execMemFree (c : RingCmd) (s : State) : Host.Outcome State Fault Refusal :=
  .next (s.startCmd 0x04 false c fun r s => s.memFree c r)

/-- The owner of a DMA channel (DMA_CH_CFG_c.TENANT). -/
def State.dmaTenant (s : State) (ch : Nat) : Nat := s.fieldOf (0x20000 + 8 * ch) 7 0

/-- Whether the transfer in progress on a channel addresses the host space of tenant `t`. -/
def State.dmaOnHost (s : State) (ch t : Nat) : Bool :=
  match (s.dma ch).cur with
  | some x => s.dmaTenant ch == t && (x.src == 0 || x.dst == 0)
  | none => false

/-- Whether a translation of tenant `t` may still be in use. -/
def State.xlatBusy (s : State) (t : Nat) : Bool := (List.range 32).any fun ch => s.dmaOnHost ch t

/-- TU_INVALs that waited for accesses in flight complete (R266). -/
def State.finishInvals (s : State) : State :=
  let done := s.invals.filter fun x => !s.xlatBusy x.2.1
  let s : State := { s with invals := s.invals.filter fun x => s.xlatBusy x.2.1 }
  s.forEach done fun s x => s.complete x.1 stOK 0 0

/-- TU_INVAL (0x05): the tenant's cached translations that meet the range, or all of them, are removed; it completes
once no access in flight uses one (R266). -/
def State.tuInval (s : State) (c : RingCmd) (r : CmdRef) : State :=
  let t := fld c.arg0.toNat 7 0
  let lo := c.arg1.toNat + 2 ^ 32 * c.arg2.toNat
  let n := c.arg3.toNat + 2 ^ 32 * c.arg4.toNat
  let hit (e : Tlb) : Bool :=
    e.tenant == t && (bit c.arg0.toNat 31 || (decide (e.iova < lo + n) && decide (lo < e.iova + e.size)))
  let s : State := { s with tlb := s.tlb.filter (fun e => !hit e) }
  let s : State := { s with invals := s.invals ++ [(r, t, lo, n)] }
  s.finishInvals

def execTuInval (c : RingCmd) (s : State) : Host.Outcome State Fault Refusal :=
  .next (s.startCmd 0x05 true c fun r s => s.tuInval c r)

end Sys2Proof.Machine
end

