-- ==== Sys2Proof/Machine/Dma.lean ====
section
/-! DEFINITION. The hub DMA: descriptors, bursts, the HBM grant, completion pulses, and the HBM arbitration's ranks
(R268 to R273, R283 to R287). -/
namespace Sys2Proof.Machine

open Sys2Proof

/-! ### Descriptors (R269) -/

/-- The transfer of a descriptor's eight words. -/
def xferOf (w : Nat → Nat) : Xfer :=
  { src := fld (w 0) 3 0, dst := fld (w 0) 7 4, srcA := BitVec.ofNat 64 (w 2 + 2 ^ 32 * w 3), dstA := BitVec.ofNat 64 (w 4 + 2 ^ 32 * w 5),
    len := w 6, pulse := fld (w 0) 23 22, pline := fld (w 0) 21 16, pgroup := fld (w 1) 3 0, pchain := fld (w 1) 24 16 }

def xferReserved (w : Nat → Nat) : Bool :=
  fld (w 0) 30 24 != 0 || fld (w 1) 31 25 != 0 || fld (w 1) 15 4 != 0 || fld (w 7) 31 5 != 0

/-- One end of a transfer lies in a space and within what the tenant owns. -/
def State.endOk (s : State) (t space a n : Nat) : Bool :=
  match space with
  | 0 => decide (a < 2 ^ 52)
  | 1 => fld a 47 36 == 0 && match getT none s.handles (a / 2 ^ 48) with
    | some h => h.tenant == t && decide (a % 2 ^ 36 + n ≤ h.granules * 2097152)
    | none => false
  | 2 => decide (a < 12 * 2 ^ 32) && fld a 31 21 == 0 && s.rangeOk (a / 2 ^ 32) t (a % 2 ^ 21) n
  | 3 => decide (a < 96 * 2 ^ 32) && fld a 31 19 == 0 && s.engOwner (a / 2 ^ 32) == some t && decide (a % 2 ^ 19 + n ≤ 2 ^ 19)
  | _ => false

/-- The rules of R269. -/
def State.xferOk (s : State) (t : Nat) (x : Xfer) : Bool :=
  x.len != 0 && s.endOk t x.src x.srcA.toNat x.len && s.endOk t x.dst x.dstA.toNat x.len
    && (x.pulse != 2 || (decide (x.pgroup < 12) && s.lineOk x.pgroup x.pline t))

/-! ### Channels (R268) -/

def State.dmaCfg (s : State) (ch : Nat) : Nat := s.reg (0x20000 + 8 * ch)
def State.dmaValid (s : State) (ch : Nat) : Bool := bit (s.dmaCfg ch) 31
def State.dmaGroupMode (s : State) (ch : Nat) : Bool := bit (s.dmaCfg ch) 30
def State.dmaGrp (s : State) (ch : Nat) : Nat := fld (s.dmaCfg ch) 29 26
def State.dmaLine (s : State) (ch : Nat) : Nat := fld (s.dmaCfg ch) 25 20
def State.dmaDribble (s : State) (ch : Nat) : Nat := fld (s.dmaCfg ch) 15 8
/-- Byte offset of entry `i` of a channel's descriptor ring. -/
def State.entryOff (s : State) (ch i : Nat) : Nat := s.fieldOf (0x20100 + 4 * ch) 4 0 * 65536 + 32 * i
def State.entryWord (s : State) (ch i k : Nat) : Nat := ofLe ((s.egroup (s.dmaGrp ch)).bytesAt (s.entryOff ch i + 4 * k) 4)

/-- DMA_GROUP_START: an idle GROUP channel takes the next entry while it is VALID; one that breaks the rules ends with
REFUSED_CONFLICT. -/
def State.dmaGroupStart (s : State) (ch : Nat) : State :=
  let y := s.dma ch
  if !s.dmaValid ch || !s.dmaGroupMode ch || y.cur.isSome || s.resetting 34 || s.resetting (21 + s.dmaGrp ch) then s
  else
    let w (k : Nat) : Nat := s.entryWord ch y.nextEnt k
    if !bit (w 0) 31 then s
    else
      let x := { xferOf w with entry := some y.nextEnt }
      let x : Xfer := if !xferReserved w && s.xferOk (s.dmaTenant ch) x then x else { x with status := BitVec.ofNat 8 stConflict }
      s.modDma ch fun y => { y with cur := some x, nextEnt := (y.nextEnt + 1) % 32 }

/-- The channels that an EVS on this line starts. -/
def State.dmaStarted (s : State) (g n : Nat) : List Nat :=
  (List.range 32).filter fun ch =>
    s.dmaValid ch && s.dmaGroupMode ch && s.dmaGrp ch == g && s.dmaLine ch == n && s.lineOk g n (s.dmaTenant ch)

/-- The next transfer of a channel starts. -/
def State.dmaNext (s : State) (ch : Nat) : State :=
  if s.dmaGroupMode ch then s.dmaGroupStart ch
  else match (s.dma ch).cur, (s.dma ch).queue with
    | none, x :: r => s.modDma ch fun y => { y with cur := some x, queue := r }
    | _, _ => s

/-- DMA_COPY (0x02). -/
def State.dmaCopy (s : State) (c : RingCmd) (r : CmdRef) : State :=
  let w (i : Nat) : Nat :=
    match i with
    | 0 => c.arg0.toNat | 1 => c.arg1.toNat | 2 => c.arg2.toNat | 3 => c.arg3.toNat
    | 4 => c.arg4.toNat | 5 => c.arg5.toNat | 6 => c.arg6.toNat | _ => c.arg7.toNat
  let ch := fld (w 7) 4 0
  let x := xferOf w
  if xferReserved w then s.refuse r stConflict noField 0
  else if !s.dmaValid ch || s.dmaGroupMode ch || s.dmaTenant ch != c.fn.val then s.refuse r stConflict (argOff 7) 0
  else if x.pulse != 1 || fld (w 0) 15 8 != 0 || !s.xferOk c.fn x then s.refuse r stConflict noField 0
  else if s.resetting 34 then s.refuse r stResetting noField 0
  else (s.modDma ch fun y => { y with queue := y.queue ++ [{ x with cmd := some r }] }).dmaNext ch

def execDmaCopy (c : RingCmd) (s : State) : Host.Outcome State Fault Refusal :=
  .next (s.startCmd 0x02 false c fun r s => s.dmaCopy c r)

/-! ### The HBM grant of a channel (R283 to R286) -/

/-- The rank of a requester of Table 11.4. -/
def State.hbmRank (s : State) (id : Nat) : Nat :=
  if id < 8 then fld (s.reg 0xB00010) (4 * id + 3) (4 * id)
  else fld (s.reg (0xB00020 + 4 * ((id - 8) / 8))) (4 * ((id - 8) % 8) + 3) (4 * ((id - 8) % 8))

/-- The ports of a die on which a requester holds the grant: (stack, port). -/
def State.grantsOf (s : State) (d id : Nat) : List (Nat × Nat) :=
  (List.range 16).filterMap fun i => if getT none (s.stack d (i / 8)).holders (i % 8) == some id then some (i / 8, i % 8) else none

def State.setHolder (s : State) (d k p : Nat) (h : Option Nat) : State :=
  s.modStack d k fun x => { x with holders := setT none x.holders p h }

/-- A request of channel `ch` on a die: whether it holds the grant. A holder of a rank number not above its own keeps the
port: the channel loses, takes its hint, and withdraws where the hint is at least ARB_CFG.SLEEP. Which port a burst meets
and the hint's value rest on addresses and queues that the manual does not lay out: they are free. -/
def State.hbmGrant (s : State) (d ch : Nat) : State × Bool :=
  let id := ch + 8
  if (s.stack d 0).withdrawn.any (fun w => w.1 == ch) || (s.stack d 1).withdrawn.any (fun w => w.1 == ch) then (s, false)
  else if !(s.grantsOf d id).isEmpty then (s, true)
  else
    let k := s.freeNat % 2
    let p := s.freeNat / 2 % 8
    let hint := s.freeNat / 16 % 256
    let s := s.drawFree
    match getT none (s.stack d k).holders p with
    | none => (s.setHolder d k p (some id), true)
    | some h =>
      if s.hbmRank id < s.hbmRank h then
        ((s.setHolder d k p (some id)).modStack d k fun x => { x with preempt := satTo 0xFFFF (x.preempt + 1) }, true)
      else
        let sleep := s.fieldOf 0xB00000 15 8
        (s.modStack d k fun x =>
          let x := if x.maxHint < hint then { x with maxHint := hint, maxId := id } else x
          if sleep != 0 && decide (sleep ≤ hint) then { x with withdrawn := x.withdrawn ++ [(ch, p)] } else x, false)

/-- A requester drops its request everywhere. -/
def State.dropGrants (s : State) (id : Nat) : State :=
  s.forEach (List.range 4) fun s d => s.forEach (s.grantsOf d id) fun s g => s.setHolder d g.1 g.2 none

/-! ### Bursts (R270, R271, R273) -/

/-- The dies whose HBM a transfer uses. -/
def State.hbmDies (s : State) (x : Xfer) : List Nat :=
  let one (space a : Nat) : List Nat := if space != 1 then [] else match getT none s.handles (a / 2 ^ 48) with
    | some h => [h.die]
    | none => []
  dedup (one x.src x.srcA.toNat ++ one x.dst x.dstA.toNat)

/-- A target block of the transfer is in reset. -/
def State.xferResetting (s : State) (x : Xfer) : Bool :=
  let unit (space a : Nat) : Bool :=
    match space with
    | 2 => s.resetting (21 + a / 2 ^ 32)
    | 3 => s.resetting (21 + a / 2 ^ 32 / 8)
    | _ => false
  unit x.src x.srcA.toNat || unit x.dst x.dstA.toNat
    || (s.hbmDies x).any fun d => s.resetting (4 + 2 * d) || s.resetting (5 + 2 * d)

/-- Parts of an engine's window (Table 8.2): 0 program, 1 data, 2 state view; none where nothing is mapped. -/
def winPart (off : Nat) : Option Nat := if off < 0x10000 then some 0 else if off < 0x50000 then some 1 else if off < 0x50400 then some 2 else none

def Eng.stopped (e : Eng) : Bool := e.st == .halted || e.st == .fault || e.st == .reset

/-- `n` source bytes; a status where the read fails. The state view's layout is not stated: its bytes are free. -/
def State.dmaRead (s : State) (t space a n : Nat) (host : List Byte) (acc : HostAcc) : State × Except Nat (List Byte) :=
  match space with
  | 0 => match s.translate t a false acc with
    | (s, some _) => (s, .ok ((host ++ zeros n).take n))
    | (s, none) => (s, .error stDecerr)
  | 1 => (s, .ok (s.hbmRead (hbmAddr (a / 2 ^ 48) (a % 2 ^ 36)) n))
  | 2 => (s, .ok ((s.egroup (a / 2 ^ 32)).bytesAt (a % 2 ^ 21) n))
  | _ =>
    let e := a / 2 ^ 32
    let off := a % 2 ^ 19
    match winPart off, winPart (off + n - 1) with
    | some p, some q =>
      if p < 2 && q < 2 then (s, .ok ((s.eng e).bytesAt off n))
      else if (s.eng e).st == .halted || (s.eng e).st == .fault then (s.drawFree, .ok (le n s.freeNat))
      else (s, .error stDecerr)
    | _, _ => (s, .error stDecerr)

/-- Bytes written at the destination. -/
def State.dmaWrite (s : State) (t space a : Nat) (bs : List Byte) (acc : HostAcc) : State × Nat :=
  match space with
  | 0 => match s.translate t a true acc with
    | (s, some _) => (s.emit (.hostWrite t a bs), stOK)
    | (s, none) => (s, stDecerr)
  | 1 => (s.hbmWrite (hbmAddr (a / 2 ^ 48) (a % 2 ^ 36)) bs, stOK)
  | 2 => (s.modEGroup (a / 2 ^ 32) fun g => g.putBytes (a % 2 ^ 21) bs, stOK)
  | _ =>
    let e := a / 2 ^ 32
    let off := a % 2 ^ 19
    match winPart off, winPart (off + bs.length - 1) with
    | some p, some q =>
      if q == 2 || (p == 0 && !(s.eng e).stopped) then (s, stDecerr) else (s.modEng e fun x => x.putBytes off bs, stOK)
    | _, _ => (s, stDecerr)

def State.modXfer (s : State) (ch : Nat) (f : Xfer → Xfer) : State := s.modDma ch fun y => { y with cur := y.cur.map f }

/-- A transfer stops with a status; its pulse is still given. -/
def State.stopXfer (s : State) (ch st : Nat) : State :=
  (s.modXfer ch fun x => { x with status := BitVec.ofNat 8 st }).dropGrants (ch + 8)

/-- Every HBM of the transfer grants the channel its burst. -/
def State.grantAll (s : State) (ch : Nat) : List Nat → State × Bool
  | [] => (s, true)
  | d :: r =>
    let (s, ok) := s.hbmGrant d ch
    if ok then s.grantAll ch r else (s, false)

/-- DMA_BURST: the next 512 bytes, or what is left, once G has elapsed since the last burst. -/
def State.dmaBurst (s : State) (ch : Nat) (host : List Byte) (srcAcc dstAcc : HostAcc) (ending : BurstEnd) : State :=
  match (s.dma ch).cur with
  | none => s
  | some x =>
    if x.status != 0 || decide (x.len ≤ x.moved) || s.inReset 34 then s
    else if ending == .resetting || s.xferResetting x then s.stopXfer ch stResetting
    else if ending == .decerr then s.stopXfer ch stDecerr
    else
      let (s, granted) := s.grantAll ch (s.hbmDies x)
      if !granted then s
      else
        let n := min 512 (x.len - x.moved)
        let t := s.dmaTenant ch
        match s.dmaRead t x.src (x.srcA.toNat + x.moved) n host srcAcc with
        | (s, .error st) => s.stopXfer ch st
        | (s, .ok bs) =>
          let (s, st) := s.dmaWrite t x.dst (x.dstA.toNat + x.moved) bs dstAcc
          if st != stOK then s.stopXfer ch st
          else
            let s := s.modXfer ch fun x => { x with moved := x.moved + n }
            if s.dmaDribble ch != 0 || decide (x.len ≤ x.moved + n) then s.dropGrants (ch + 8) else s

def execDmaBurst (ch : Fin 32) (hostData : List Byte) (srcAcc dstAcc : HostAcc) (ending : BurstEnd) (s : State) :
    Host.Outcome State Fault Refusal := .next (s.dmaBurst ch hostData srcAcc dstAcc ending)

/-- DMA_READ_TIMEOUT: a host read of the channel has not completed within 50 ms: as DECERR (R273). -/
def State.dmaTimeout (s : State) (ch : Nat) : State :=
  match (s.dma ch).cur with
  | none => s
  | some x =>
    if x.status == 0 && ((x.src == 0 && decide (x.moved < x.len)) || (x.dst == 0 && decide (x.len ≤ x.moved))) then s.stopXfer ch stDecerr
    else s

def execDmaReadTimeout (ch : Fin 32) (s : State) : Host.Outcome State Fault Refusal := .next (s.dmaTimeout ch)

/-- DMA_WITHDRAWAL_END: the H units of a withdrawn request have passed; the channel requests again (R286). -/
def execDmaWithdrawalEnd (ch : Fin 32) (die : Fin 4) (stack : Fin 2) (port : Fin 8) (s : State) : Host.Outcome State Fault Refusal :=
  .next (s.modStack die stack fun x => { x with withdrawn := x.withdrawn.filter fun w => !(w.1 == ch.val && w.2 == port.val) })

/-! ### Completion (R272) -/

/-- The destination is an engine's X, Y or C memory. -/
def Xfer.toData (x : Xfer) : Bool := x.dst == 3 && winPart (x.dstA.toNat % 2 ^ 19) == some 1

/-- The pulse named by PULSE. -/
def State.dmaPulse (s : State) (ch : Nat) (x : Xfer) : State :=
  match x.pulse with
  | 1 => s.completeOpt x.cmd x.status.toNat (if x.status == 0 then x.moved else noField) 0
  | 2 => s.pulseLine x.pgroup x.pline (s.dmaTenant ch)
  | 3 => if (s.chain x.pchain).tenant == s.dmaTenant ch then s.modChain x.pchain fun c => { c with filled := c.filled - x.len } else s
  | _ => s

/-- VALID = 0 and STATUS of a GROUP entry. -/
def State.dmaEntryEnd (s : State) (ch : Nat) (x : Xfer) : State :=
  match x.entry with
  | none => s
  | some i =>
    let w := s.entryWord ch i 0
    let w := w % 2 ^ 31 - fld w 15 8 * 256 + x.status.toNat * 256
    s.modEGroup (s.dmaGrp ch) fun g => g.putBytes (s.entryOff ch i) (le32 w)

/-- The transfer of a channel ends: its entry, its pulses, and the next one. -/
def State.endXfer (s : State) (ch : Nat) : State :=
  match (s.dma ch).cur with
  | none => s
  | some x =>
    let s := s.modDma ch fun y => { y with cur := none, done := y.done + 1 }
    let s := ((s.dropGrants (ch + 8)).dmaEntryEnd ch x)
    let s := if x.toData && x.status == 0 then s.pulseInput (x.dstA.toNat / 2 ^ 32) 49 else s
    ((s.dmaPulse ch x).finishInvals).dmaNext ch

/-- DMA_TRANSFER_END: every read has returned and every write is acknowledged, or the transfer has stopped. -/
def execDmaTransferEnd (ch : Fin 32) (s : State) : Host.Outcome State Fault Refusal :=
  .next (match (s.dma ch).cur with
    | some x => if x.status != 0 || decide (x.len ≤ x.moved) then s.endXfer ch else s
    | none => s)

/-! ### Ranks (R287, R288) -/

/-- The registers that ARB_COMMIT takes. -/
def arbRegs : List Nat := [0xB00010, 0xB00020, 0xB00024, 0xB00028, 0xB0002C]

/-- Holders that the new ranks outrank lose their grants: a port's holder with a requester of a lower rank number waiting;
the model knows the channels that have a transfer on the die. -/
def State.rerank (s : State) : State :=
  s.forEach (List.range 64) fun s i =>
    let d := i / 16
    let k := i / 8 % 2
    let p := i % 8
    match getT none (s.stack d k).holders p with
    | none => s
    | some h =>
      let waits := (List.range 32).any fun ch => match (s.dma ch).cur with
        | some x => ch + 8 != h && (s.hbmDies x).contains d && decide (s.hbmRank (ch + 8) < s.hbmRank h)
            && (s.grantsOf d (ch + 8)).isEmpty
        | none => false
      if waits then (s.setHolder d k p none).modStack d k fun x => { x with preempt := satTo 0xFFFF (x.preempt + 1) } else s

/-- ARB_COMMIT: every rank takes its shadow in one cycle. -/
def State.arbCommit (s : State) : State :=
  let s := s.forEach arbRegs fun s a => s.setReg a (s.shadowReg a)
  ({ s with arbCommits := s.arbCommits + 1 } : State).rerank

/-- A write of ARB_CTRL.COMMIT = 1: discarded after SETUP_SEAL. -/
def execArbCommit (s : State) : Host.Outcome State Fault Refusal :=
  .next (s.bar2Write fun s => if s.setup.sealed then s else s.arbCommit)

/-- ARB_SET (0x40): the shadows and the commit as one step. -/
def execArbSet (c : RingCmd) (s : State) : Host.Outcome State Fault Refusal :=
  .next (s.startCmd 0x40 true c fun r s =>
    if c.buf.length < 20 then s.refuse r stConflict 0x10 0
    else
      let s := s.forEach arbRegs.zipIdx fun s e => s.setShadow e.1 (leAt c.buf (4 * e.2) 4)
      s.arbCommit.complete r stOK 0 0)

end Sys2Proof.Machine
end

