-- ==== Sys2Proof/Machine/Flags.lean ====
section
/-! DEFINITION. Every flag and saturation computation of the Cellek engines (R193, R197, R198). -/
namespace Sys2Proof.Machine

open Sys2Proof

/-- The largest data magnitude that clipping gives. -/
def max24 : Int := 8388607

/-- The value lies in a 24-bit register. -/
def fits24 (v : Int) : Bool := decide (-8388608 ≤ v) && decide (v ≤ 8388607)

/-- R198: the value written, whether it saturated, whether it wrapped. -/
def conv24 (sat : Bool) (v : Int) : BitVec 24 × Bool × Bool :=
  if sat then (BitVec.ofInt 24 (clampI (-max24) max24 v), decide (v < -max24) || decide (max24 < v), false)
  else (BitVec.ofInt 24 v, false, !fits24 v)

/-- The largest accumulator magnitude that clipping gives. -/
def max56 : Int := 36028797018963967

/-- R197: the accumulator after one sum, whether it saturated, whether it wrapped. -/
def conv56 (sat : Bool) (v : Int) : BitVec 56 × Bool × Bool :=
  if sat then (BitVec.ofInt 56 (clampI (-max56) max56 v), decide (v < -max56) || decide (max56 < v), false)
  else (BitVec.ofInt 56 v, false, decide (v < -(max56 + 1)) || decide (max56 < v))

/-- C, V, Z, N as SR bits 11 to 8. -/
def cvzn (c v z n : Bool) : BitVec 4 := BitVec.ofNat 4 (8 * bnat c + 4 * bnat v + 2 * bnat z + bnat n)

/-- SATF and OVF in flight with a result of latency `n`. -/
def Eng.sticky (e : Eng) (n : Nat) (sat ovf : Bool) : Eng :=
  let e := if sat then e.fly n .satf else e
  if ovf then e.fly n .ovf else e

/-- SATF and OVF set at once. -/
def Eng.stickyNow (e : Eng) (sat ovf : Bool) : Eng :=
  let e := if sat then e.land .satf else e
  if ovf then e.land .ovf else e

/-- A data ALU result: the register, the flags and the sticky bits, visible after 2 cycles (R193, R198). -/
def Eng.aluResult (e : Eng) (dst : Nat) (sat : Bool) (v : Int) (c : Bool) : Eng :=
  let (r, sf, of) := conv24 sat v
  ((e.fly 2 (.d dst r)).fly 2 (.flags (cvzn c (!fits24 v) (r == 0) r.msb))).sticky 2 sf of

/-- A compare: the flags of the exact difference. -/
def Eng.compare (e : Eng) (v : Int) (c : Bool) : Eng :=
  e.fly 2 (.flags (cvzn c (!fits24 v) (decide (v = 0)) (decide (v < 0))))

/-- A condition over SR as it stands (R202). -/
def RegSet.holds (r : RegSet) (cond : Cond) : Bool :=
  match cond with
  | .z => r.flag 9 | .nz => !r.flag 9
  | .c => r.flag 11 | .nc => !r.flag 11
  | .n => r.flag 8 | .nn => !r.flag 8
  | .v => r.flag 10 | .nv => !r.flag 10

end Sys2Proof.Machine
end

