-- ==== Sys2Proof/Machine/Operands.lean ====
section
/-! DEFINITION. The operand forms of the Cellek engines: registers, accumulators, complex pairs, memory words through a
generator, and the registers that MVM names (R192, R195, R199, R206). -/
namespace Sys2Proof.Machine

open Sys2Proof

/-- A data register of the running set, signed. -/
def Eng.dInt (e : Eng) (n : Nat) : Int := (e.set.dv n).toInt

/-- A complex operand: real part in d(2n), imaginary in d(2n + 1). -/
def Eng.dCx (e : Eng) (n : Nat) : Cx := { re := e.dInt (2 * n), im := e.dInt (2 * n + 1) }

/-- The field of an access that the operation makes itself. -/
def ownField (store : Bool) (bus : EBus) (reg ag : Nat) (adv : Bool) : Field :=
  { store := store, bus := bus, reg := reg, ag := ag, adv := adv }

/-- The effective word address of a generator of the running set. -/
def Eng.eaOf (e : Eng) (ag : Nat) : Nat := (e.set.gen ag).ea

/-- A word of X, Y or C memory, signed; none where the address is not of local memory. -/
def Eng.localWord (e : Eng) (b : EBus) (w : Nat) : Option Int := (busOff b (w % 2 ^ 20)).map fun off => (e.word24 off).toInt

/-- Write a data word of X, Y or C memory. -/
def Eng.putWord (e : Eng) (b : EBus) (w : Nat) (v : BitVec 24) : Eng :=
  match busOff b (w % 2 ^ 20) with
  | some off => e.putBytes off (container v)
  | none => e

/-- `n` raw 4-byte words of X memory from a word address (R215, R236); none where one is not there. -/
def Eng.rawX (e : Eng) (w n : Nat) : Option (List Byte) :=
  if (List.range n).all fun i => (busOff .x ((w + i) % 2 ^ 20)).isSome then
    some ((List.range n).flatMap fun i => match busOff .x ((w + i) % 2 ^ 20) with
      | some off => e.bytesAt off 4
      | none => zeros 4)
  else none

/-- The bits of SR that an instruction may write. -/
def srMask : Nat := 0xF1D

/-- TMR at C: what is left of the value written, and at least 1 until TMR_EXPIRY. C runs at 5/4 of ENG_CLK. -/
def Eng.tmrValue (e : Eng) (now : Nat) : W32 :=
  if e.tmr == 0 then 0 else BitVec.ofNat 32 (max 1 (e.tmr.toNat - (now - e.tmrAt) * 4 / 5))

/-- A register as MVM reads it: banked ones from `r`. -/
def Eng.readReg (e : Eng) (r : RegSet) (inh : Bool) (x : EngReg) : Nat :=
  match x with
  | .d n => (r.dv n).toNat | .a n => (r.av n).toNat | .ag n f => (r.gen n).field f
  | .lc0 => r.lc0.toNat | .lc1 => r.lc1.toNat | .sr => r.sr.toNat + 2 * bnat inh
  | .spc => e.spc.toNat | .rpi => e.rpi.toNat | .tmr => e.tmr.toNat
  | .imaskLo => e.imaskLo.toNat | .imaskHi => e.imaskHi.toNat

/-- A banked register written. -/
def RegSet.writeMv (r : RegSet) (x : EngReg) (v : Nat) : RegSet :=
  match x with
  | .d n => r.setD n (BitVec.ofNat 24 v) | .a n => r.setA n (BitVec.ofNat 56 v)
  | .ag n f => r.setGen n ((r.gen n).setField f v)
  | .lc0 => { r with lc0 := BitVec.ofNat 16 v } | .lc1 => { r with lc1 := BitVec.ofNat 16 v }
  | .sr => r.setBits srMask v
  | _ => r

/-- A register written by MVM: in the main set where `toMain`, else in the shadow set. -/
def Eng.writeMv (e : Eng) (toMain : Bool) (x : EngReg) (v : Nat) : Eng :=
  match x with
  | .spc => { e with spc := BitVec.ofNat 13 v } | .rpi => { e with rpi := BitVec.ofNat 16 v }
  | .tmr => { e with tmr := BitVec.ofNat 32 v }
  | .imaskLo => { e with imaskLo := BitVec.ofNat 32 v } | .imaskHi => { e with imaskHi := BitVec.ofNat 32 v }
  | y => if toMain then { e with main := e.main.writeMv y v } else { e with shad := e.shad.writeMv y v }

end Sys2Proof.Machine
end

