-- ==== Sys2Proof/Machine/EngRun.lean ====
section
/-! DEFINITION. What an engine does beside its plain instructions: micro-routines, the bit-port binding, halting,
resuming, aborts, interrupts, group-memory returns and the engine commands (R196, R204 to R221). -/
namespace Sys2Proof.Machine

open Sys2Proof

/-- Issue, and what follows the issue where it did not fault. -/
def State.issueThen (s : State) (e : Nat) (k : IssueKind) (cycles : Nat) (o : EngOp) (own : List Field)
    (body : State → Except Nat State) (post : State → State) : State :=
  if !s.canIssue e then s
  else
    let s := s.issue e k cycles o own body
    if (s.eng e).st == .fault then s else post s

/-! ### Micro-routines (R209 to R211) -/

def Micro.count (m : Micro) : Nat := match m with | .vmac .. => 64 | .fft _ _ q _ _ => 4 ^ q / 4

/-- Cycles that element `i` adds, and the cycles after the last. -/
def Micro.cost (m : Micro) (i : Nat) : Nat := match m with | .vmac .. => i % 2 | .fft .. => 8
def Micro.tail (m : Micro) : Nat := match m with | .vmac .. => 3 | .fft .. => 0

/-- Whether an element boundary lies before element `i`: pairs of VMAC64 run together. -/
def Micro.boundary (m : Micro) (i : Nat) : Bool := match m with | .vmac .. => i % 2 == 0 | .fft .. => true

/-- One element of VMAC64. -/
def Eng.vmacElem (e : Eng) (ex ey ec sh : Nat) (sat : Bool) (i : Nat) : Except Nat Eng :=
  match e.localWord .x (ex + i), e.localWord .y (ey + i), e.localWord .c (ec + i) with
  | some x, some y, some c =>
    let (v, sf, of) := conv24 sat (rneShift (y * 2 ^ sh + x * c) sh)
    .ok ((e.putWord .y (ey + i) v).stickyNow sf of)
  | _, _, _ => .error fcDecerr

/-- Multiply by (−i)^n. -/
def mulNegI (n : Nat) (v : Cx) : Cx :=
  match n % 4 with
  | 0 => v
  | 1 => { re := v.im, im := -v.re }
  | 2 => { re := -v.re, im := -v.im }
  | _ => { re := -v.im, im := v.re }

/-- A complex value of two consecutive words. -/
def Eng.localCx (e : Eng) (b : EBus) (w : Nat) : Option Cx :=
  match e.localWord b w, e.localWord b (w + 1) with
  | some r, some i => some { re := r, im := i }
  | _, _ => none

def allSome {α : Type} : List (Option α) → Option (List α)
  | [] => some []
  | none :: _ => none
  | some x :: r => (allSome r).map (x :: ·)

/-- One butterfly of FFT4. -/
def Eng.fftElem (e : Eng) (ey ec q st : Nat) (sat : Bool) (b : Nat) : Except Nat Eng :=
  let qq := 4 ^ q / 4 ^ (st + 1)
  let j := b % qq
  let base := b / qq * (4 * qq) + j
  let xs := allSome ((List.range 4).map fun k => e.localCx .y (ey + 2 * (base + k * qq)))
  let ws := allSome ((List.range 4).map fun k => e.localCx .c (ec + 2 * (j * k * 4 ^ st)))
  match xs, ws with
  | some xs, some ws =>
    .ok ((List.range 4).foldl (fun e k =>
      let u := xs.zipIdx.foldl (fun a x => cxAdd a (mulNegI (x.2 * k) x.1)) ({} : Cx)
      let w := ws.getD k {}
      let (re, sf, of) := conv24 sat (rneShift (u.re * w.re - u.im * w.im) 24)
      let (im, sf', of') := conv24 sat (rneShift (u.re * w.im + u.im * w.re) 24)
      let a := ey + 2 * (base + k * qq)
      ((e.putWord .y a re).putWord .y (a + 1) im).stickyNow (sf || sf') (of || of')) e)
  | _, _ => .error fcDecerr

def Eng.elem (e : Eng) (m : Micro) (i : Nat) : Except Nat Eng :=
  match m with
  | .vmac ex ey ec sh _ _ _ _ _ _ sat => e.vmacElem ex ey ec sh sat i
  | .fft ey ec q st sat => e.fftElem ey ec q st sat i

/-- An enabled input pends, so that an acceptance point of the main set accepts it (R204). -/
def Eng.mayInterrupt (e : Eng) : Bool := !e.inh && bit e.main.sr.toNat 0 && e.pend.toNat &&& e.imask != 0 && e.issued

def Eng.wantsHalt (e : Eng) : Bool := e.haltWant || !e.haltReq.isEmpty

/-- Elements from `i` on, to the end or, where an interrupt or a halt is due, to the next boundary: the index reached and
the engine, or the fault. -/
def runElems (m : Micro) (pause : Bool) : Nat → Nat → Eng → Except (Nat × Eng) (Nat × Eng)
  | 0, i, e => .ok (i, e)
  | fuel + 1, i, e =>
    if m.count ≤ i then .ok (i, e)
    else match (e.landTo (e.set.cyc + 1)).elem m i with
      | .error c => .error (c, { e with rpi := BitVec.ofNat 16 i })
      | .ok e =>
        let e := e.modSet fun r => { r with cyc := r.cyc + m.cost i }
        if pause && m.boundary (i + 1) && decide (i + 1 < m.count) then .ok (i + 1, e) else runElems m pause fuel (i + 1) e

/-- The end of a routine: its generators are as R210 states, and issue goes on behind it. -/
def Eng.microEnd (e : Eng) (m : Micro) : Eng :=
  let e := match m with
    | .vmac _ _ _ _ gx gy gc ax ay ac _ => e.modSet fun r => ((r.setGen gx (ax.move 64)).setGen gy (ay.move 64)).setGen gc (ac.move 64)
    | _ => e
  let e := (if e.inh then e else { e with micro := none, rpi := 0 }).modSet fun r => { r with cyc := r.cyc + m.tail }
  e.nextPc

/-- Run a routine from an element. In the shadow set nothing stops it. -/
def State.runMicro (s : State) (e : Nat) (m : Micro) (i : Nat) : State :=
  let x := s.eng e
  match runElems m (x.mayInterrupt || (!x.inh && x.wantsHalt)) m.count i x with
  | .error (c, y) => (s.modEng e fun _ => y).engFault e c
  | .ok (n, y) => s.modEng e fun _ => if m.count ≤ n then y.microEnd m else { y with micro := some m, rpi := BitVec.ofNat 16 n }

/-! ### The bit-port binding (R212, R218, R219) -/

/-- The binding of an engine is released: the chain counts the bits shifted, those in the FIFO and every later one. -/
def State.releaseBinding (s : State) (e : Nat) : State :=
  match (s.eng e).bound with
  | none => s
  | some c =>
    (s.modEng e fun x => { x with bound := none }).modChain c fun x =>
      { x with boundTo := none, bitFifo := [], abandoned := satTo 0xFFFF (x.abandoned + (s.eng e).shc.toNat + x.bitFifo.length) }

/-- BPB: whether the chain may be bound, and the binding (R212). -/
def State.bindPort (s : State) (e c : Nat) : Except Nat State :=
  let x := s.chain c
  if c == 0x3FF then .ok (s.releaseBinding e)
  else if 512 ≤ c || x.state == .free || x.group != e / 8 || x.tenant != s.engTenant e then .error fcPort
  else if x.boundTo.any (· != e) then .ok (s.modEng e fun y => y.modSet fun r => r.setZ false)
  else
    let s := if (s.eng e).bound == some c then s else s.releaseBinding e
    .ok ((s.modChain c fun x => { x with boundTo := some e }).modEng e fun y =>
      ({ y with bound := some c } : Eng).modSet fun r => r.setZ true)

/-- A SHFX in progress is abandoned: SHR and SHC keep the bits, the PC stays (R218). -/
def State.abandonShift (s : State) (e : Nat) : State :=
  let x := s.eng e
  if x.main.shfx.isNone && x.shad.shfx.isNone then s
  else
    let s := s.releaseBinding e
    s.modEng e fun x => { x with main := { x.main with shfx := none }, shad := { x.shad with shfx := none } }

/-- The bits waiting for an engine's SHFX. -/
def State.feedEngine (s : State) (e : Nat) : State :=
  match (s.eng e).bound with
  | some c => s.feedShfx e c
  | none => s

/-! ### Halting, resuming, aborts (R207, R208, R216 to R218) -/

/-- ENG_HALT commands that wait for the engine to be HALTED complete with its PC. -/
def State.haltDone (s : State) (e : Nat) : State :=
  let rs := (s.eng e).haltReq
  let s := s.modEng e fun x => { x with haltReq := [], haltWant := false }
  s.forEach rs fun s r => s.complete r stOK (s.eng e).pc.toNat 0

def Eng.grpBusy (e : Eng) : Bool := e.main.grp.isSome || e.shad.grp.isSome

def Eng.live (e : Eng) : Bool := e.st == .running || e.st == .waiting || e.st == .stalled

/-- ABORT takes effect (R208). The task has ended, and the engine is free for the next. -/
def State.applyAbort (s : State) (e : Nat) : State :=
  let s := s.abandonShift e
  let clear (r : RegSet) : RegSet := { r with lands := [], branch := none, loopBlk := none, wait := none, grp := none, shfx := none }
  let s := s.modEng e fun x =>
    { x with st := .running, main := (clear x.main).setBits 4 4, shad := clear x.shad, inh := false, pc := x.abvec, micro := none,
             rpi := 0, abortReq := false, abortHeld := false, aborts := satTo 255 (x.aborts + 1), task := none }
  (s.dispatchAll.startDetections).returnIdle e

/-- The engine is HALTED, with what is in flight parked (R217). -/
def State.takeHalt (s : State) (e : Nat) : State :=
  let s := s.abandonShift e
  (s.modEng e fun x => { x with st := .halted, parked := satTo 7 x.set.lands.length }).haltDone e

/-- The running set goes on after a switch or a halt: stalled, waiting, in its micro-routine, or issuing. -/
def State.goOn (s : State) (e : Nat) : State :=
  let s := s.modEng e fun x =>
    let r := x.set
    ({ x with st := if r.grp.isSome || r.shfx.isSome then .stalled else if r.wait.isSome then .waiting else .running } : Eng).wake
  let s := s.feedEngine e
  let x := s.eng e
  match x.micro with
  | some m => if x.inh then s else s.runMicro e m x.rpi.toNat
  | none => s

/-! ### Group memory (R196) -/

/-- One access of a register set is made in group memory. -/
def State.groupMake (s : State) (e : Nat) (a : GrpAcc) (put : (RegSet → RegSet) → Eng → Eng) : State :=
  match a.reg with
  | none => s.modEGroup (e / 8) fun g => g.putBytes a.off (container a.data)
  | some n =>
    let g := s.egroup (e / 8)
    if a.half then
      let h (off : Nat) : BitVec 24 := BitVec.ofInt 24 (toSigned 16 (ofLe (g.bytesAt off 2)) * 256)
      s.modEng e (put fun r => (r.setD n (h a.off)).setD (n + 1) (h (a.off + 2)))
    else s.modEng e (put fun r => r.writeReg n (BitVec.ofNat 24 (ofLe (g.bytesAt a.off 3))))

/-- GROUP_MEMORY_RETURN: a parked access of the main set lands in the main set; else that of the running set, whose engine
goes on. How many cycles the access took, up to 32, is free. -/
def State.groupReturn (s : State) (e : Nat) : State :=
  let x := s.eng e
  if s.inReset (21 + e / 8) then s.absorb (21 + e / 8)
  else if x.inh && x.main.grp.isSome then
    match x.main.grp with
    | none => s
    | some a =>
      let s := s.groupMake e a fun f y => { y with main := f y.main }
      s.modEng e fun y => { y with main := { y.main with grp := none } }
  else match x.set.grp with
    | none => s
    | some a =>
      let n := s.freeNat % 32
      let s := s.drawFree.modEng e fun y =>
        let y := y.modSet fun r => { r with cyc := r.cyc + n, grp := none }
        y.landTo y.set.cyc
      let s := s.groupMake e a fun f y => y.modSet f
      if (s.eng e).live then s.goOn e else s

def execGroupMemoryReturn (e : Fin 96) (s : State) : Host.Outcome State Fault Refusal := .next (s.groupReturn e)

/-! ### Interrupts (R204 to R207) -/

/-- INTERRUPT_ACCEPT at an acceptance point: not in the delay slots of a branch, and not where a halt is due. -/
def State.acceptInterrupt (s : State) (e : Nat) : State :=
  let x := s.eng e
  let atPoint := x.main.branch.isNone || x.st != .running
  if !x.live || s.inReset (21 + e / 8) || !x.mayInterrupt || x.wantsHalt || !atPoint then s
  else s.modEng e fun x =>
    { x with st := .running, inh := true, spc := x.pc, pc := x.ivec, ints := satTo 0xFFFF (x.ints + 1), parked := satTo 7 x.main.lands.length }

def execInterruptAccept (e : Fin 96) (s : State) : Host.Outcome State Fault Refusal := .next (s.acceptInterrupt e)

/-- The return from a handler: its results land, and the main set goes on. -/
def State.returnMain (s : State) (e : Nat) : State :=
  let s := match (s.eng e).shad.grp with
    | some a => (s.groupMake e a fun f y => { y with shad := f y.shad }).modEng e fun y => { y with shad := { y.shad with grp := none } }
    | none => s
  let s := s.modEng e fun x =>
    let x := x.landTo (x.set.cyc + 5)
    { x with inh := false, pc := x.spc, issued := false, parked := 0 }
  s.goOn e

/-- ABORT_APPLY: held while HALTED, discarded in RESET or FAULT, and made to wait for a group-memory access (R208). -/
def State.abortApply (s : State) (e : Nat) : State :=
  let x := s.eng e
  if !x.abortReq then s
  else match x.st with
    | .halted => s.modEng e fun x => { x with abortReq := false, abortHeld := true }
    | .reset | .fault => s.modEng e fun x => { x with abortReq := false }
    | _ => if x.grpBusy then s else s.applyAbort e

def execAbortApply (e : Fin 96) (s : State) : Host.Outcome State Fault Refusal := .next (s.abortApply e)

/-- HALT_TAKE: a halt that is due is taken, after an ABORT of the same cycle and once no group-memory access is in flight. -/
def State.haltTake (s : State) (e : Nat) : State :=
  let x := s.eng e
  if !x.live || !x.wantsHalt || x.grpBusy || s.inReset (21 + e / 8) then s
  else (if x.abortReq then s.applyAbort e else s).takeHalt e

def execHaltTake (e : Fin 96) (s : State) : Host.Outcome State Fault Refusal := .next (s.haltTake e)

/-- TMR_EXPIRY: the timer reaches 0, pulses input 48 and stops. -/
def execTmrExpiry (e : Fin 96) (s : State) : Host.Outcome State Fault Refusal :=
  .next (if (s.eng e).tmr == 0 || (s.eng e).st == .reset then s else (s.modEng e fun x => { x with tmr := 0 }).pulseInput e 48)

/-! ### Engine commands (R216, R219, R220) -/

/-- What ENG_LOAD, ENG_START, ENG_HALT and ENG_RESUME check first: the tenant's own engine, not shipped where `shipped`
forbids it, in a group that takes requests. -/
def State.engCmd (s : State) (opc : Nat) (barShipped : Bool) (c : RingCmd) (body : Nat → CmdRef → State → State) : State :=
  s.startCmd opc false c fun r s =>
    let e := fld c.arg0.toNat 6 0
    if 96 ≤ e || s.engOwner e != some c.fn.val || (barShipped && (s.eng e).shipped.isSome) then s.refuse r stConflict (argOff 0) 0
    else if s.resetting (21 + e / 8) then s.refuse r stResetting (argOff 0) 0
    else body e r s

/-- A section of an image: its kind, its offset in its memory, its data. -/
structure Section where
  kind : Nat := 0
  off  : Nat := 0
  data : List Byte := []
deriving DecidableEq, Repr

/-- Window offset and size of the memory of a kind (Tables 8.2 and 8.7). -/
def sectionMem (kind : Nat) : Option (Nat × Nat) :=
  match kind with
  | 0 => some (0, 0x10000) | 1 => some (0x10000, 0x18000) | 2 => some (0x28000, 0x18000) | 3 => some (0x40000, 0x10000) | _ => none

/-- The sections of an image's bytes after the header; none where they run past its end. -/
def sectionsOf : Nat → List Byte → Option (List Section)
  | 0, _ => some []
  | n + 1, bs =>
    let len := leAt bs 8 4
    let full := (len + 7) / 8 * 8
    if bs.length < 16 + full then none
    else (sectionsOf n (bs.drop (16 + full))).map fun r => { kind := leAt bs 0 2, off := leAt bs 4 4, data := (bs.drop 16).take len } :: r

def Section.inMem (x : Section) : Bool := match sectionMem x.kind with | some (_, n) => decide (x.off + x.data.length ≤ n) | none => false
def Section.meets (x y : Section) : Bool := x.kind == y.kind && decide (x.off < y.off + y.data.length) && decide (y.off < x.off + x.data.length)

def overlap : List Section → Bool
  | [] => false
  | x :: r => r.any x.meets || overlap r

/-- The checks of R220 in order; none where all pass, else the number of the first that fails. -/
def imageCheck (bs : List Byte) : Option Nat :=
  let w (i : Nat) : Nat := leAt bs (4 * i) 4
  if bs.length < 32 || w 0 != 0x4E454B43 || fld (w 1) 15 0 != 1 || crc32 (bs.take 28 ++ zeros 4 ++ bs.drop 32) != w 7 then some 1
  else if w 4 != bs.length then some 2
  else match sectionsOf (fld (w 1) 31 16) (bs.drop 32) with
    | none => some 3
    | some xs =>
      if !xs.all Section.inMem then some 3
      else if overlap xs then some 4
      else if fld (w 2) 31 16 ≥ 8192 || fld (w 2) 15 0 ≥ 8192 || fld (w 3) 15 0 ≥ 8192 then some 5
      else if !xs.all fun x => x.data.length % (if x.kind == 0 then 8 else 4) == 0 then some 6
      else none

/-- R219: binding, registers, sections and vectors of a checked image. -/
def State.loadImage (s : State) (e : Nat) (bs : List Byte) : State :=
  let s := s.releaseBinding e
  s.modEng e fun x =>
    let y := x.cleared
    let y := ((sectionsOf (leAt bs 6 2) (bs.drop 32)).getD []).foldl (fun (y : Eng) q => match sectionMem q.kind with
      | some (base, _) => y.putBytes (base + q.off) q.data
      | none => y) y
    { y with st := .halted, entry := BitVec.ofNat 13 (leAt bs 8 2), ivec := BitVec.ofNat 13 (leAt bs 10 2), abvec := BitVec.ofNat 13 (leAt bs 12 2) }

/-- Parked state, RPI, SHR and SHC cleared; PC at ENTRY (Table 8.6). -/
def Eng.startAt (x : Eng) : Eng :=
  let clear (r : RegSet) : RegSet := { r with lands := [], branch := none, loopBlk := none, wait := none, grp := none, shfx := none }
  { x with st := .running, main := clear x.main, shad := clear x.shad, inh := false, pc := x.entry, rpi := 0, shr := 0, shc := 0,
           micro := none, parked := 0, issued := true }

/-- ENG_LOAD (0x30). -/
def execEngLoad (c : RingCmd) (s : State) : Host.Outcome State Fault Refusal :=
  .next (s.engCmd 0x30 true c fun e r s =>
    let x := s.eng e
    if x.st != .halted && x.st != .fault then s.refuse r stConflict (argOff 0) 0
    else match imageCheck c.buf with
      | some n => s.refuse r stConflict (bufOff 0) n
      | none =>
        let s := (s.loadImage e c.buf).haltDone e
        (if bit c.arg0.toNat 31 then s.modEng e Eng.startAt else s).complete r stOK 0 0)

/-- ENG_START (0x31). -/
def execEngStart (c : RingCmd) (s : State) : Host.Outcome State Fault Refusal :=
  .next (s.engCmd 0x31 true c fun e r s =>
    if (s.eng e).st != .halted then s.refuse r stConflict (argOff 0) 0
    else (s.modEng e Eng.startAt).complete r stOK 0 0)

/-- ENG_HALT (0x32): completes once the engine is HALTED. -/
def execEngHalt (c : RingCmd) (s : State) : Host.Outcome State Fault Refusal :=
  .next (s.engCmd 0x32 true c fun e r s =>
    if (s.eng e).st == .halted then s.complete r stOK (s.eng e).pc.toNat 0
    else s.modEng e fun x => { x with haltReq := x.haltReq ++ [r] })

/-- ENG_RESUME (0x33): a held ABORT is applied; a SHFX that the halt abandoned runs afresh (R218). -/
def execEngResume (c : RingCmd) (s : State) : Host.Outcome State Fault Refusal :=
  .next (s.engCmd 0x33 false c fun e r s =>
    if (s.eng e).st != .halted then s.refuse r stConflict (argOff 0) 0
    else
      let s := s.modEng e fun x => { x with shr := 0, shc := 0, parked := 0 }
      (if (s.eng e).abortHeld then s.applyAbort e else s.goOn e).complete r stOK 0 0)

end Sys2Proof.Machine
end

