-- ==== Sys2Proof/Machine/Resets.lean ====
section
/-! DEFINITION. What asserting and releasing a block's reset does to each block, passes that are cut, and a die that is
switched off (R89, R109, R113, R136, R165, R178, R222, R242, R273, R298, R366 to R369). -/
namespace Sys2Proof.Machine

open Sys2Proof

/-! ### Passes that end without their block (R89, R109, R113) -/

/-- A pass leaves the die's timeline. -/
def State.removePass (s : State) (d : Nat) (p : Pass) : State := s.modDie d fun y => { y with passes := y.passes.filter (· != p) }

/-- A pass that produces nothing: its baselines count 0, and its integration may end with it. -/
def State.passNone (s : State) (d : Nat) (p : Pass) : State :=
  let x := s.subr p.sub
  ((s.removePass d p).addLoss p.sub (s.passLoss d x p false)).endIntegration d p

/-- PASS_CUT: a running pass ends with what it has accumulated, which the manual does not fix (a free value); one not
started produces nothing. -/
def State.cutPass (s : State) (d : Nat) (p : Pass) : State :=
  if p.running then
    let n := (s.subr p.sub).len / s.numF
    let p' : Pass := { p with cut := true, upTo := some (s.freeNat % (n + 1)) }
    ((s.removePass d p).drawFree.modDie d fun y => { y with passCut := satTo 0xFFFF (y.passCut + 1) }).endRegular d p'
  else s.passNone d p

/-- The regular passes of a die that meet `cut` are cut, and their tenants told, once for each block. -/
def State.cutPasses (s : State) (d : Nat) (cut : Pass → Bool) : State :=
  let ps := (s.die d).passes.filter fun p => p.correct.isNone && cut p
  let s := s.forEach ps fun s p => s.cutPass d p
  s.forEach (dedup (ps.map fun p => p.sub * 2 ^ 40 + p.block)) fun s k =>
    let n := k / 2 ^ 40
    let b := k % 2 ^ 40
    s.postStatus (s.subr n).tenant stDataLost 0 n b (ps.filter fun p => p.sub == n && p.block == b).length

/-- Corrections that meet `p` and are not finished become UNAMENDABLE. -/
def State.failCorrections (s : State) (d : Nat) (p : Part → Bool) : State :=
  let qs := (s.die d).parts.filter fun q => !q.final && !q.amended && p q
  s.forEach qs fun s q =>
    (s.modDie d fun y => { y with passes := y.passes.filter fun x => x.correct != some q.key }).finishPart d q .unamendable

/-- A resident integration on a die is lost: every block of it counts 0 (R109, R113). -/
def State.loseResident (s : State) (d : Nat) (p : Pass) : State :=
  let x := s.subr p.sub
  let n := p.block - getT 0 x.intFirst d
  let s := s.modSub p.sub fun x => { x with deficit := x.deficit.filter fun e => e.1 / 2 ^ 35 != d }
  let s := s.addLoss p.sub ((s.passLoss d x p false).map fun e => (e.1, e.2 * (n + 1)))
  let s := s.forEach (passTiles p) fun s e => s.modTile d e.2.1 fun t => (t.setBank [])
  (s.removePass d p).endIntegration d p

/-! ### Tenants told of a reset (R366) -/

def State.subsOn (s : State) (d : Nat) : List (Nat × Sub) := s.subs.filter fun e => e.2.status.holds && !(s.chansOn d e.2.chans).isEmpty
def State.beamsOn (s : State) (d : Nat) : List (Nat × Beam) := s.beams.filter fun e => e.2.status.holds && !(s.chansOn d e.2.chans).isEmpty

/-- BLOCK_RESET to every tenant with a plan on a die. -/
def State.tellDie (s : State) (d : Nat) : State :=
  let s := s.forEach (s.subsOn d) fun s e => s.postStatus e.2.tenant stBlockReset 0 e.1 0 0
  s.forEach (s.beamsOn d) fun s e => s.postStatus e.2.tenant stBlockReset 1 e.1 0 0

/-! ### Tile array (R109, R113, R136, R165) -/

def State.assertTiles (s : State) (d : Nat) : State :=
  let s := s.tellDie d
  let s := s.forEach ((s.die d).passes.filter fun p => p.running && p.correct.isNone) fun s p =>
    if p.resident then s.loseResident d p else s.passNone d p
  s.modDie d fun y =>
    let y : Die := { y with passes := y.passes.filter (fun p => p.correct.isNone), powers := [], sweepOut := [], slotVals := [], rowAccs := [] }
    let y : Die := { y with tiles := y.tiles.map fun e => (e.1, { e.2 with bank0 := [], bank1 := [], snap := [], snapAt := none }) }
    { y with tiles := y.tiles.filter fun e => e.2 != {} }

def State.releaseTiles (s : State) (d : Nat) : State :=
  let s := s.modDie d fun y =>
    let y : Die := { y with passRun := 0, passCount := 0, passCut := 0, stall := 0, beamTiles := 0, wswDefer := 0, skip := 0 }
    { y with zeroed := 0, zeroedNow := 0, topkDrop := 0, topkRecs := 0, topkNow := 0 }
  let open_ := (s.die d).parts.filter fun q => !q.final && !q.amended && q.left != 0
  ((s.forEach open_ fun s q => s.admitPart d q).startNext d).completeFlagPosts

/-! ### HBM controllers (R136, R165, R367) -/

/-- Items of a FIFO between its head and its tail of 1,024 words each lie in the spill region (R69). -/
def headItems (room : Nat) : List FifoItem → List FifoItem
  | [] => []
  | i :: r => if i.words ≤ room then i :: headItems (room - i.words) r else []

def dropSpill (l : List FifoItem) : List FifoItem :=
  if sumN (l.map FifoItem.words) ≤ 2048 then l else headItems 1024 l ++ (headItems 1024 l.reverse).reverse

/-- The blocks of a subarray whose halves a die holds: the one being written and the one before it. -/
def State.heldBlocks (s : State) (x : Sub) : List Nat :=
  match x.first with
  | some s0 =>
    if s0 ≤ s.grid.start then
      let b := (s.grid.start - s0) / x.len
      if b == 0 then [0] else [b - 1, b]
    else []
  | none => []

/-- The contents of a stack of die `d` are gone. -/
def State.loseHbm (s : State) (d : Nat) : State :=
  let s := s.forEach (s.subsOn d) fun s e => s.forEach (s.heldBlocks e.2) fun s b => s.postStatus e.2.tenant stDataLost 0 e.1 b 1
  let s := s.forEach (s.beamsOn d) fun s e =>
    let s := s.modBeam e.1 fun b => { b with reloaded := false, lostDies := if b.lostDies.contains d then b.lostDies else b.lostDies ++ [d] }
    if e.2.steer then s else s.postStatus e.2.tenant stDataLost 1 e.1 0 0
  let s := s.cutPasses d fun _ => true
  let s := s.failCorrections d fun _ => true
  let s := s.forEach (dieLanes d) fun s x => s.modLane x fun l => { l with fifo := dropSpill l.fifo }
  let s := s.forEach (s.handles.filter fun e => e.2.any fun h => h.die == d) fun s e => { s with hbm := clearRun s.hbm (hbmAddr e.1 0) (2 ^ 36) }
  let lost : Nat × Nat := (0, ((s.dieStreams d).map (·.2.left)).foldl max 0 - 1)
  (s.modDie d fun y => { y with coarse := [], capture := [], lost := y.lost ++ [lost] }).completeFlagPosts

def State.releaseHbm (s : State) (d k : Nat) : State :=
  let s := s.modStack d k fun x => { temp := 0, overtemp := x.overtemp, withdrawn := x.withdrawn }
  s.modDie d fun y => { y with lostBefore := if s.grid.started then s.blockEnd else 0 }

/-! ### Channeliser (R80, R85, R86) -/

def State.assertChan (s : State) (d : Nat) : State :=
  let s := s.tellDie d
  let at_ := ((s.dieStreams d).map (·.2.left)).foldl max 0
  s.modDie d fun y => { y with absentFrom := some at_, thrHeld := y.thr.filter (·.2.isOpen), thr := [], heldSlot := at_ / 1024 }

def State.releaseChan (s : State) (d : Nat) : State :=
  let y := s.die d
  let s := s.forEach y.thrHeld fun s e => s.postThr d 2 (s.pkgFine d e.1) y.heldSlot e.2.ratio e.2.pdb
  let at_ := ((s.dieStreams d).map (·.2.left)).foldl max 0
  s.modDie d fun y =>
    let y : Die := { y with lost := match y.absentFrom with | some c => y.lost ++ [(c, at_ - 1)] | none => y.lost }
    { y with absentFrom := none, thrHeld := [], thr := [], gains := (at_, []) :: y.gains, satAny := 0, gainClamp := 0 }

/-! ### Lane groups (R54) -/

def State.assertLanes (s : State) (d : Nat) : State :=
  let s := s.forEach ((List.range 9).map (9 * d + ·)) State.disableGroup
  (s.forEach [2 * d, 2 * d + 1] State.removeOut).tellDie d

def State.releaseLanes (s : State) (d : Nat) : State :=
  let s := s.forEach ((List.range 9).map (9 * d + ·)) fun s g =>
    if s.groupEn g && (s.group g).st == .disabled then s.enableGroup g else s
  s.forEach [2 * d, 2 * d + 1] fun s g => if s.outEn g && (s.outGrp g).st == .disabled then s.enableOut g else s

/-! ### Chains, engine groups, decoder fabric, hub DMA, locks (R178, R222, R242, R273, R298) -/

/-- Configuration kept, running state gone, IDLE. -/
def Chain.idled (x : Chain) : Chain :=
  let x : Chain := { x with state := .idle, input := [], stitchMem := [], mixed := [], filt := [], past := [], hist := [], bits := [], symN := 0 }
  let x : Chain := { x with phase := 0, pos := 0, posAdj := 0, pending := [], thrIsOpen := false, floorN := none, agcAcc := 0, agcN := 0 }
  { x with gain := 0, frozen := false, sat := 0, overrun := 0, staleWb := 0, pullClamp := 0 }

def State.liveChains (s : State) : List Nat := (s.chains.filter fun e => e.2.state != .free).map (·.1)

def State.assertChains (s : State) : State :=
  s.forEach s.liveChains fun s c =>
    ((((s.closeBurst c 7).carrierRec c 0 3).postStatus (s.chain c).tenant stBlockReset 2 c 0 0).modChain c Chain.idled)

def groupEngines (g : Nat) : List Nat := (List.range 8).map (8 * g + ·)

def State.assertEngines (s : State) (g : Nat) : State :=
  s.forEach (groupEngines g) fun s e =>
    let x := s.eng e
    let s := match s.engOwner e with
      | some t => s.postStatus t stBlockReset 3 e 0 0
      | none => s
    let s := s.forEach x.haltReq fun s r => s.complete r stResetting 0 0
    let s := match x.task with
      | some n => s.dropTask n
      | none => s
    (s.releaseBinding e).modEng e fun x =>
      { x.cleared with st := .reset, task := none, haltReq := [], haltWant := false, ints := 0, portRej := 0, aborts := 0, fcode := 0 }

/-- Engines with an owner HALTED, shipped images restarted. -/
def State.releaseEngines (s : State) (g : Nat) : State :=
  let s := s.forEach ((groupEngines g).filter fun e => (s.engOwner e).isSome) fun s e => s.modEng e fun x => match x.shipped with
    | some i => if x.pool.isSome then x.ship i else { x with st := .halted }
    | none => { x with st := .halted }
  s.dispatchAll.startDetections

def State.assertDecoder (s : State) : State :=
  let js := s.dec.tasks.filter fun t => t.stage == .decode
  let s := s.forEach js fun s t =>
    let s := s.writeResult (t.engine / 8) t.outAddr t.line stBlockReset 0 0 0 t.jobTag.toNat t.tenant false []
    s.jobEnded t { chain := t.chain, gen := t.gen, slot := t.slot, status := BitVec.ofNat 8 stBlockReset, tag := t.jobTag }
  s.forEach (dedup (js.map (·.tenant))) fun s t => s.postStatus t stBlockReset 15 33 0 0

/-- The mode is set under R225 without a switch sequence; what waited for a switch goes on. -/
def State.releaseDecoder (s : State) : State :=
  let wait := s.dec.switchWait
  let cpls := s.dec.switching.getD []
  let s := s.modDec fun d =>
    { d with trellis := s.wantTrellis s.carriers.length, switching := none, switchWait := [], strayTsk := 0, jobsEnded := [], busyPct := [] }
  let s := s.forEach cpls fun s x => s.complete x.cmd x.status.toNat x.res0.toNat x.res1.toNat
  (s.forEach wait fun s w => s.carrierCmd w.1.opc.toNat w.2 w.1).startJobs

def State.assertDma (s : State) : State :=
  s.forEach (s.dmas.map (·.1)) fun s ch =>
    let q := (s.dma ch).queue
    let busy := (s.dma ch).cur.isSome
    let s := s.modDma ch fun y => { y with queue := [] }
    let s := s.forEach q fun s x => s.completeOpt x.cmd stBlockReset noField 0
    if busy then ((s.stopXfer ch stBlockReset).endXfer ch).postStatus (s.dmaTenant ch) stBlockReset 7 ch 0 0 else s

def State.releaseDma (s : State) : State :=
  { s with dmas := (s.dmas.map fun e => (e.1, { e.2 with done := 0 })).filter fun e => e.2 != {} }

/-- Every held lock is marked ABANDONED and free; requests that waited are answered RESETTING. -/
def State.assertLocks (s : State) : State :=
  s.forEach (s.locks.map (·.1)) fun s n =>
    let l := s.lock n
    let s := s.forEach l.waiters fun s w => s.completeOpt w.cmd stResetting n 0
    s.modLock n fun l => { l with holder := none, waiters := [], mark := if l.holder.isSome then 1 else l.mark }

/-! ### One block (Tables 14.7, 14.8) -/

/-- The reset of block `b` is asserted. -/
def State.assertBlock (s : State) (b : Nat) : State :=
  if b < 4 then s.assertTiles b
  else if b < 12 then (s.tellDie ((b - 4) / 2)).loseHbm ((b - 4) / 2)
  else if b < 16 then s.assertChan (b - 12)
  else if b < 20 then s.assertLanes (b - 16)
  else if b == 20 then s.assertChains
  else if b < 33 then s.assertEngines (b - 21)
  else if b == 33 then s.assertDecoder
  else if b == 34 then s.assertDma
  else if b == 35 then s.assertLocks
  else s

/-- The reset of block `b` is released. -/
def State.releaseBlock (s : State) (b : Nat) : State :=
  if b < 4 then s.releaseTiles b
  else if b < 12 then s.releaseHbm ((b - 4) / 2) (b % 2)
  else if b < 16 then s.releaseChan (b - 12)
  else if b < 20 then if (s.die (b - 16)).enabled then s.releaseLanes (b - 16) else s
  else if b == 20 then s
  else if b < 33 then s.releaseEngines (b - 21)
  else if b == 33 then s.releaseDecoder
  else if b == 34 then s.releaseDma
  else s

/-- The blocks of die `d`. -/
def dieBlocks (d : Nat) : List Nat := [d, 4 + 2 * d, 5 + 2 * d, 12 + d, 16 + d]

/-- DIE_STATE (R382). -/
def State.postDie (s : State) (d what : Nat) : State := s.postEvt 0 0x33 0 15 0 d what

/-- A die is switched off: its blocks are reset, its contents lost, its load ramps down (R369, R374). -/
def State.dieOff (s : State) (d : Nat) : State :=
  let s := s.forEach (dieBlocks d) State.assertBlock
  let s := s.modDie d fun y => { lmset := y.lmset, flags := y.flags, enabled := false, dieReady := false, closed := y.closed }
  (s.modRst fun r => { r with ballast := if r.ballast.contains d then r.ballast else r.ballast ++ [d] }).postDie d 0

end Sys2Proof.Machine
end

