-- ==== Sys2Proof/Machine/Boundary.lean ====
section
/-! DEFINITION. The planning boundary: what ends, what begins, FLAGMAP sets, releases, dies switched off and per-period
counters (R31, R35 to R37, R44, R66, R89, R92, R145, R157, R163, R276, R369, R370). -/
namespace Sys2Proof.Machine

open Sys2Proof

/-! ### FLAGMAP (R163) -/

def PartClass.code (c : PartClass) : Nat :=
  match c with
  | .onTime => 0 | .grace => 1 | .late => 2 | .unamendable => 3
  | .ignored => 4 | .amendLost => 5 | .selfMarked => 6 | .watch => 7

/-- Table 6.1 with the word of Table 6.6, clipped to the block's slots. -/
def flagmapEntry (f : Flag) (lo hi cls : Nat) : List Byte :=
  rows [ bnat f.all * 2 ^ 31 + f.cause * 2 ^ 24 + f.ch * 2 ^ 16 + f.sig, lo % 2 ^ 32, (hi - lo) * 2 ^ 16 + lo / 2 ^ 32
       , f.tag.toNat, cls * 2 ^ 28 + f.tenant * 2 ^ 16 ]

/-- Every entry that a block of a subarray lists on a die, with its class. -/
def State.flagParts (s : State) (d n b : Nat) : List (Flag × PartClass) :=
  let x := s.subr n
  let mine := ((s.die d).parts.filter fun q => q.sub == n && q.block == b).map fun q => (q.entry, q.cls)
  let rest := (s.die d).flags.filter fun f =>
    f.onSub x && f.inBlock x b && s.dieOfCh f.ch == d && s.flagReaches f x.tenant && !mine.any fun e => e.1.seqno == f.seqno
  sortBy (fun e => e.1.seqno) (mine ++ rest.map fun f =>
    (f, if f.kind == 1 then .selfMarked else if f.kind == 2 then .watch else if s.isIgnored f x b then .ignored else .onTime))

/-- FLAGMAP_EMIT for block `b` of subarray `n` on a die. -/
def State.emitFlagmap (s : State) (d n b : Nat) : State :=
  let x := s.subr n
  let es := (s.flagParts d n b).map fun e => let r := e.1.slotsIn x b; flagmapEntry e.1 r.1 r.2 e.2.code
  let parts := recordParts 52426 es
  s.forEach parts.zipIdx fun s e =>
    (s.emitDie d x.dest (s.mkRec 0x05 x.tenant n b (x.blockCtr b)
      (rows [bnat (e.2 + 1 == parts.length) * 2 ^ 31 + d * 2 ^ 16 + e.1.length, e.2, s.graceCycles x.len / 125000, 0] ++ e.1.flatten))).1

/-- The block whose B_{b+2} this counter is, if the subarray ran it. -/
def Sub.endingBlock (x : Sub) (c : Nat) : Option Nat :=
  match x.first with
  | none => none
  | some s0 =>
    if s0 + 2 * x.len ≤ c && (c - s0) % x.len == 0 then
      let b := (c - s0) / x.len - 2
      if x.stopAt.any fun t => decide (t ≤ x.blockCtr b) then none else some b
    else none

def State.flagmaps (s : State) (d c : Nat) : State :=
  s.forEach (s.subsOn d) fun s e => match e.2.endingBlock c with
    | some b => s.emitFlagmap d e.1 b
    | none => s

/-! ### What ends on a die (R37, R89, R145, R157) -/

/-- Block `b` of the subarray can no longer be worked on at counter `c`. -/
def Sub.blockOver (x : Sub) (b c : Nat) : Bool := decide (x.blockCtr (b + 2) ≤ c)

/-- Entries of the sample tables that no window or half can need any more. -/
def keepFrom (c : Nat) : Nat := c - 3 * 2 ^ 20

def Die.prune (y : Die) (c : Nat) : Die :=
  { y with coarse := y.coarse.filter (fun e => decide (keepFrom c ≤ e.1 % 2 ^ 48)), lost := y.lost.filter (fun r => decide (keepFrom c ≤ r.2)),
           rowAccs := y.rowAccs.filter (fun a => decide (keepFrom c ≤ (a.block + 1) * 2 ^ a.size * 1024)),
           ueLog := [], ueOverflow := false, beamUe := [] }

def State.endOnDie (s : State) (d c : Nat) : State :=
  let s := s.effectAll d
  let s := s.cutPasses d fun p => (s.subr p.sub).blockOver p.block c
  let s := s.failCorrections d fun q => (s.subr q.sub).blockOver q.block c
  let s := (s.flagmaps d c).retireFlags d
  (s.modDie d fun y =>
    { y with parts := y.parts.filter (fun q => !(q.final && (s.subr q.sub).blockOver q.block c)),
             doneP := y.doneP.filter fun p => !(s.subr p.sub).blockOver p.block c }).modDie d fun y => y.prune c

/-! ### Releases (R92) and dies switched off (R369) -/

/-- A subarray has work on some die still. -/
def State.subBusy (s : State) (n : Nat) : Bool :=
  (List.range 4).any fun d =>
    let y := s.die d
    y.passes.any (fun p => p.sub == n) || y.drained.any (fun r => r.pass.sub == n) || y.amends.any fun a => a.part.sub == n

/-- GRANULE_RELEASE. A DIRECT plan leaves once its last sweep has run, with what it has finished emitted. -/
def State.releasePlans (s : State) (c : Nat) : State :=
  let s := s.forEach (s.subs.filter fun e => e.2.status == .stopping && !e.2.runsAt c && !s.subBusy e.1) fun s e => s.dropSub e.1
  let gone := s.beams.filter fun e => e.2.status == .stopping && !e.2.runsAt c && s.sweepsDone e.2
  let s := if gone.any fun e => e.2.src == .direct then s.forEach ((List.range 4).filter s.dieOn) fun s d => s.flushDirect d (c / 1024) else s
  s.forEach gone fun s e => s.dropBeam e.1

/-- ARR_STATUS.DIES. -/
def State.diesBits (s : State) : Nat := sumN (((List.range 4).filter s.dieOn).map (2 ^ ·))

/-- A DIE_SET is done once every die stands as it asked. -/
def State.dieSetDone (s : State) : State :=
  match s.grid.dieTarget with
  | none => s
  | some m =>
    if (List.range 4).all fun d => bit m.toNat d == s.dieOn d then
      (s.modGrid fun g => { g with dieTarget := none, dieSetCmds := [] }).forEach s.grid.dieSetCmds fun s r => s.complete r stOK s.diesBits 0
    else s

/-- Dies that a DIE_SET or a thermal trip has disabled go off, and their channels leave every plan (R26, R44). -/
def State.switchDies (s : State) : State :=
  match s.grid.dieTarget with
  | none => s
  | some m =>
    let off := (List.range 4).filter fun d => s.dieOn d && !bit m.toNat d
    let s := s.forEach off State.dieOff
    let use (d : Nat) : Bool := !off.contains d
    let s : State := { s with subs := s.subs.map fun e => (e.1, s.subEff use e.2), beams := s.beams.map fun e => (e.1, s.beamEff use e.2) }
    s.dieSetDone

/-! ### What begins (R35, R36, R43, R109, R113) -/

/-- The block that has just been written in full, if the subarray ran it. -/
def Sub.doneBlock (x : Sub) (c : Nat) : Option Nat :=
  match x.first with
  | none => none
  | some s0 =>
    if s0 < c && (c - s0) % x.len == 0 then
      let b := (c - s0) / x.len - 1
      if x.stopAt.any fun t => decide (t ≤ x.blockCtr b) then none else some b
    else none

/-- The passes of a block from its layout. -/
def passesOf (n b : Nat) (x : Sub) (ps : List (List Job)) : List Pass :=
  ps.zipIdx.map fun e => { sub := n, block := b, no := e.2, jobs := e.1, resident := x.isResident }

/-- The timeline: what runs, corrections and residents as they stand, then the rest by deadline. -/
def State.orderPasses (s : State) (ps : List Pass) : List Pass :=
  let ahead (p : Pass) : Bool := p.running || p.resident || p.correct.isSome
  ps.filter ahead ++ sortBy (fun p => (s.subr p.sub).blockCtr (p.block + 2)) (ps.filter fun p => !ahead p)

/-- HBM contents of a block are lost on a die (R367). -/
def State.blockLost (s : State) (d : Nat) (x : Sub) (b : Nat) : Bool :=
  s.inReset (4 + 2 * d) || s.inReset (5 + 2 * d) || decide (x.blockCtr b < (s.die d).lostBefore)

/-- The passes of the block that has been written join the die's timeline. -/
def State.beginBlock (s : State) (d c n : Nat) (ps : List (List Job)) : State :=
  let x := s.subr n
  match x.doneBlock c with
  | none => s
  | some b =>
    if x.isResident && s.inReset d then s.modSub n fun x => { x with intFirst := setT 0 x.intFirst d (b + 1) }
    else
      let s := s.modDie d fun y => { y with passes := s.orderPasses (y.passes ++ passesOf n b x ps) }
      if s.blockLost d x b then s.cutPasses d fun p => p.sub == n && p.block == b && !p.running else s

/-- The history that PLAN_READ returns: the two latest block periods. -/
def State.notePlan (s : State) (c n : Nat) : State :=
  match (s.subr n).doneBlock c with
  | none => s
  | some b =>
    let l := s.grid.part.filterMap fun p => (p.layout.find? fun e => e.1 == n).map fun e => (p.die, e.2)
    s.modSub n fun x => { x with plans := (x.plans ++ [(b + 1, l)]).drop (x.plans.length - 1) }

/-- Passes left of earlier boundaries that name a cluster which passes no longer have are packed again (R36, R43). -/
def State.repack (s : State) (d : Nat) (cs : List Clus) : State :=
  let stale (p : Pass) : Bool := !p.running && p.correct.isNone && !p.resident && !expertFits [p.jobs] cs
  let old := (s.die d).passes.filter stale
  s.forEach (dedup (old.map fun p => p.sub * 2 ^ 40 + p.block)) fun s k =>
    let n := k / 2 ^ 40
    let b := k % 2 ^ 40
    let mine := (s.die d).passes.filter fun p => p.sub == n && p.block == b && !p.running && p.correct.isNone
    let lines := mine.flatMap fun p => p.jobs.map fun j =>
      ({ fine := j.fine, col := j.colShared, shared := j.shared, others := j.other.filterMap id } : Line)
    let no := (mine.map (·.no)).foldl min (2 ^ 32)
    let ps := (passesOf n b (s.subr n) (packPasses cs (sumN (lines.map fun l => l.others.length)) lines)).map fun p => { p with no := no + p.no }
    s.modDie d fun y => { y with passes := s.orderPasses (y.passes.filter (fun p => !mine.contains p) ++ ps) }

/-- The beam-mode tiles of a period: from the highest addresses, one list of jobs each (R22, R120). -/
def State.setBeamTiles (s : State) (p : DiePart) : State :=
  let ts := s.activeTiles p.die
  let bt := ts.drop (ts.length - p.beams.length)
  s.modDie p.die fun y =>
    let clear := (y.tiles.map fun e => (e.1, { e.2 with beam := false, tenant := 0, jobs := [] })).filter fun e => e.2 != {}
    { y with beamTiles := satTo 255 p.beams.length,
             tiles := (bt.zip p.beams).foldl (fun t e => modT {} t e.1 fun x => { x with beam := true, tenant := e.2.1, jobs := e.2.2 }) clear }

/-- TILE_WITHHOLD: tiles entered on the repair list (R31). -/
def State.withhold (s : State) : State := s.forEach s.rst.repair fun s r => s.modTile r.1 (64 * r.2.1 + r.2.2) fun t => { t with withheld := true }

def State.beginOnDie (s : State) (c : Nat) (p : DiePart) : State :=
  let s := s.setBeamTiles p
  let s := s.repack p.die (s.corrClusters p.die p.beams.length)
  let s := s.forEach p.layout fun s e => s.beginBlock p.die c e.1 e.2
  if s.inReset p.die then s else s.startNext p.die

/-! ### Counters of the period that ends (R119, R142, R166, R276) -/

/-- Tiles that a tenant held for the whole period: beam-mode tiles and those of resident integrations. -/
def State.heldTiles (s : State) (t : Nat) : Nat :=
  sumN (s.grid.part.map fun p =>
    (p.beams.filter fun e => e.1 == t).length
      + sumN (p.layout.map fun e => let x := s.subr e.1
          if x.tenant == t && x.isResident then 8 * sumN (e.2.map (·.length)) else 0))

def State.countPeriod (s : State) : State :=
  let cyc := s.grid.period * tilePerSample
  let s := s.forEach (s.fns.map (·.1)) fun s t => s.modFn t fun f =>
    { f with charge := f.chargeNow.map (fun e => (e.1, satTo 0xFFFF (e.2 / 1024))), chargeNow := [],
             tileUse := satTo 1023 (ceilDiv (f.useNow + s.heldTiles t * cyc) cyc), useNow := 0 }
  s.forEach (List.range 4) fun s d => if !s.dieOn d then s else s.modDie d fun y =>
    let y : Die := { y with passRun := y.passCount, passCount := 0, corrCyc := satTo 0xFFFF (y.corrNow / 1024), corrNow := 0 }
    { y with zeroed := satTo 0xFFFFFFFF y.zeroedNow, zeroedNow := 0, topkRecs := satTo 0xFFFF (y.topkNow / 1024), topkNow := 0 }

/-! ### Sleep entry, step 2 (R370) -/

/-- Every plan and chain stops, and every engine is halted. -/
def State.sleepStop (s : State) (c : Nat) : State :=
  let s := s.forEach (s.subs.filter fun e => e.2.status == .running) fun s e =>
    s.modSub e.1 fun x => { x with status := .stopping, stopAt := some c }
  let s := s.forEach (s.subs.filter fun e => e.2.status.isCand) fun s e => (s.completeOpt e.2.cmd stConflict noField 0).dropSub e.1
  let s := s.forEach (s.beams.filter fun e => e.2.status == .running) fun s e => s.endBeam e.1 c
  let s := s.forEach (s.beams.filter fun e => e.2.status.isCand) fun s e => (s.completeOpt e.2.cmd stConflict noField 0).dropBeam e.1
  let s := (s.forEach s.liveChains fun s n => s.freeChain n 1).modeFollow none
  let s := s.forEach (s.engs.filter fun e => e.2.live) fun s e => s.takeHalt e.1
  s.modRst fun r => { r with sleep := .draining }

/-! ### BLOCK_BOUNDARY (R66) -/

/-- The hub may set the boundary: every enabled die has closed the block, or, for the first block, has delivered past its
start or waited for it. -/
def State.boundaryDue (s : State) : Bool :=
  s.anyStream && (if s.grid.started then (List.range 4).all fun d => !s.dieOn d || s.dieClosed d
    else s.grid.firstCtr.isSome && (s.grid.waited
      || (List.range 4).all fun d => !s.dieOn d || (s.activeStreams d).all fun e => decide (s.grid.start < e.2.next)))

/-- The grid moves to the block that begins at `c`. -/
def Grid.advance (g : Grid) (c now : Nat) : Grid :=
  { g with started := true, waited := false, start := c, period := g.newPeriod.getD g.period, newPeriod := none, frozen := false,
           partSeq := if g.part == g.partNext then g.partSeq else g.partSeq + 1, part := g.partNext,
           bounds := g.bounds.filter (fun e => decide (keepFrom c ≤ e.1)) ++ [(c, now)] }

def State.boundaryAt (s : State) (c : Nat) : State :=
  let s := if s.grid.frozen then s
    else if s.inReset 36 then s.modGrid fun g => { g with partNext := g.part } else s.freezeAt c
  let s := s.countPeriod
  let s := s.modGrid fun g => g.advance c s.now
  let s := s.forEach ((List.range 4).filter s.dieOn) fun s d => s.endOnDie d c
  let s := if s.rst.sleep == .stopping then s.sleepStop c else s
  let s := (s.releasePlans c).switchDies
  let s := s.forEach (s.grid.part.filter fun p => s.dieOn p.die) fun s p => s.beginOnDie c p
  let s := s.forEach (s.subs.map (·.1)) fun s n => s.notePlan c n
  let s := s.withhold
  let s := s.forEach ((s.subs.filter fun e => e.2.first == some c).map (·.2.tenant) ++ (s.beams.filter fun e => e.2.first == some c).map (·.2.tenant))
    State.noteWork
  (s.forEach (List.range 4) State.tryClose).completeFlagPosts

def State.blockBoundary (s : State) : State :=
  match s.nextBound with
  | some c => if s.boundaryDue then s.boundaryAt c else s
  | none => s

def execBlockBoundary (s : State) : Host.Outcome State Fault Refusal := .next s.blockBoundary

end Sys2Proof.Machine
end

