-- ==== Sys2Proof/Machine/BeamCmd.lean ====
section
/-! DEFINITION. The commands of beam plans: start, stop, weights, capture and top-k settings (R129, R133, R134, R137, R139). -/
namespace Sys2Proof.Machine

open Sys2Proof

/-! ### BEAM_START (Table 5.2) -/

/-- The items of Table 5.2 (R261). -/
def beamItems : List (Nat × Nat) := [(1, 2), (2, 1), (3, 1), (4, 1), (5, 2), (6, 1), (7, 4), (8, 2), (9, 1), (10, 1)]

/-- The items that the chosen options need. -/
def beamListOk (ps : List Param) : Check :=
  let all := [(1, 0), (2, 0), (3, 0), (4, 0), (6, 0), (7, 0), (8, 0), (9, 0), (10, 0)]
  let buf := if paramD ps 1 0 0 == 1 then [(1, 1), (5, 0), (5, 1)] else []
  let pow := if bit (paramD ps 7 0 0) 3 then [(7, 1), (7, 2), (7, 3), (8, 1)] else []
  checks ((all ++ buf ++ pow).map fun e => need ps e.1 e.2)

/-- The subarray whose buffer a plan of tenant `t` may read: its own tenant's, or one published to it, of this L (R90, R278). -/
def State.sourceOk (s : State) (t m len : Nat) : Bool :=
  let x := s.subr m
  x.status != .free && (x.tenant == t || bit (s.reg (0xB22000 + 32 * x.tenant + 4 * (t / 32))) (t % 32)) && x.len == len

/-- The checks of Table 5.2 in the order of its rows. -/
def State.beamChecks (s : State) (t : Nat) (ps : List Param) (sigs : Option (List Nat)) : Check :=
  let p (r i : Nat) : Nat := paramD ps r i 0
  let bad (b : Bool) (st r i : Nat) : Check := failIf b st (paramOff ps r i) r
  let buffered := p 1 0 == 1
  let outs := p 7 0
  let pow := bit outs 3
  let chans := bitsOf s.pkgChans (p 4 0)
  checks
    [ bad (decide (1 < p 1 0)) stConflict 1 0
    , bad (buffered && decide (1 < p 1 1)) stConflict 1 1
    , bad (!goodSignals (sigs.getD [])) stConflict 2 0
    , bad (p 3 0 == 0) stConflict 3 0
    , bad (decide ((if s.mode4 then 1024 else 2048) < p 3 0)) stCapacity 3 0
    , s.chanCheck ps 4 (p 4 0)
    , bad (buffered && !goodLen (p 5 0)) stConflict 5 0
    , bad (buffered && p 5 1 != 0xFFFF && !s.sourceOk t (p 5 1) (p 5 0)) stConflict 5 1
    , bad (decide (1 < p 6 0)) stConflict 6 0
    , bad (outs == 0 || decide (15 < outs) || (bit outs 2 && buffered)) stConflict 7 0
    , bad (pow && !(isPow2 (p 7 1) && decide (p 7 1 ≤ 1024))) stConflict 7 1
    , bad (pow && (decide (1 < p 7 2) || (p 7 2 == 1 && p 3 0 % 2 == 1))) stConflict 7 2
    , bad (pow && decide (1 < p 7 3)) stConflict 7 3
    , bad (decide (31 < p 8 0)) stConflict 8 0
    , bad (pow && decide (31 < p 8 1)) stConflict 8 1
    , bad (!s.destOk t (p 9 0) || (pow && p 7 3 == 1 && p 9 0 == 0 && s.manyDies chans)) stConflict 9 0
    , bad (decide (1 < p 10 0)) stConflict 10 0
    , bad (p 10 0 == 1 && chans.any fun c => s.captureSize (s.dieOfCh c) == 0) stCapacity 10 0 ]

/-- The plan that a parameter list describes; its weights before a first BEAM_WEIGHTS are free values. -/
def State.beamOfParams (s : State) (t : Nat) (ps : List Param) (sigs : List Nat) (r : CmdRef) : Beam :=
  let p (r i : Nat) : Nat := paramD ps r i 0
  let outs := p 7 0
  let pow := bit outs 3
  let src : BeamSrc := if p 1 0 == 0 then .direct else if p 1 1 == 0 then .fine else .span
  let chans := bitsOf s.pkgChans (p 4 0)
  { status := .waiting, tenant := t, src := src, sigs := sigs, beams := p 3 0, chans := chans,
    len := if src == .direct then 1048576 else p 5 0, srcSub := if src == .direct || p 5 1 == 0xFFFF then none else some (p 5 1),
    steer := p 6 0 == 0, volt8 := bit outs 0, volt16 := bit outs 1, chains := bit outs 2, power := pow, int := if pow then p 7 1 else 1,
    pairs := pow && p 7 2 == 1, bandsum := pow && p 7 3 == 1, vshift := p 8 0, pshift := if pow then p 8 1 else 0, dest := p 9 0,
    capture := p 10 0 == 1, senior := s.now, cmd := some r, active := { chans := chans, draw := some s.free } }

/-- BEAM_START (0x18): a start that passes its checks waits for the next freeze (R43). -/
def State.beamStart (s : State) (c : RingCmd) (r : CmdRef) : State :=
  match paramList c.buf c.arg0.toNat beamItems with
  | .error f => s.failWith r f
  | .ok ps => match beamListOk ps with
    | .error f => s.failWith r f
    | .ok () =>
      let sigs := signalList c.buf (paramD ps 2 0 0)
      match s.beamChecks c.fn ps sigs with
      | .error f => s.failWith r f
      | .ok () => match s.freePlan with
        | none => s.refuse r stCapacity noField 0
        | some n => { s.drawFree with beams := setT {} s.beams n (s.beamOfParams c.fn ps (sigs.getD []) r) }

def execBeamStart (c : RingCmd) (s : State) : Host.Outcome State Fault Refusal :=
  .next (s.startCmd 0x18 false c fun r s => s.beamStart c r)

/-- A plan that a command of tenant `t` may name. -/
def State.beamOk (s : State) (t n : Nat) : Bool :=
  (s.beam n).status.stands && (s.beam n).tenant == t && !s.stopQueued true n

/-- BEAM_STOP (0x19): decided at the next freeze; a pending weight switch is refused at once (Table 5.3). -/
def execBeamStop (c : RingCmd) (s : State) : Host.Outcome State Fault Refusal :=
  .next (s.startCmd 0x19 false c fun r s =>
    let n := c.arg0.toNat
    if s.beamOk c.fn n then (s.dropSwitch n).modGrid fun g => { g with stops := g.stops ++ [(r, true, n)] }
    else s.refuse r stConflict (argOff 0) 0)

/-! ### BEAM_WEIGHTS (R133, R134) -/

def Beam.setSize (b : Beam) (s : State) : Nat := b.chans.length * b.fineSets s * b.padBeams * b.padSigs

/-- The weights of an EXPLICIT buffer: real part in the lower half (R12). -/
def explicitWeights (bs : List Byte) (n : Nat) : List Cx :=
  (List.range n).map fun i => { re := toSigned 16 (leAt bs (4 * i) 2), im := toSigned 16 (leAt bs (4 * i + 2) 2) }

/-- The first weight of a padding beam or signal that is not 0. -/
def Beam.badPad (b : Beam) (ws : List Cx) : Option Nat :=
  (ws.zipIdx.find? fun e => e.1 != {} && (decide (b.beams ≤ e.2 / b.padSigs % b.padBeams) || decide (b.sigs.length ≤ e.2 % b.padSigs))).map (·.2)

/-- Bytes of a STEER buffer: a delay for each beam and signal, a gain for each signal. -/
def Beam.steerSize (b : Beam) : Nat := 4 * b.beams * b.sigs.length + 2 * b.sigs.length

/-- The weights that the device computes from a STEER buffer. -/
def State.steerWeights (s : State) (b : Beam) (bs : List Byte) : List Cx :=
  let n := b.sigs.length
  (sortBy id b.chans).flatMap fun c => (List.range (b.fineSets s)).flatMap fun k =>
    let f := if b.src == .fine then s.fineFreq c k else s.coarseFreq (s.chBase + c)
    (List.range b.padBeams).flatMap fun a => (List.range b.padSigs).map fun i =>
      if b.beams ≤ a || n ≤ i then {}
      else (satCx 32767 (Config.steerWeight f (toSigned 32 (leAt bs (4 * (a * n + i)) 4)) (leAt bs (4 * b.beams * n + 2 * i) 2))).1

/-- T is too close: the rotation for slot T − 1 starts less than SWITCH_LEAD slots ahead, or has started. -/
def State.switchTooClose (s : State) (b : Beam) (t : Nat) : Bool :=
  let late := if b.src == .direct then 0 else b.len / 1024
  decide (t + late < s.highCtr / 1024 + s.fieldOf 0x600000 31 24 + 1) || b.rot.any fun r => decide (t ≤ r + 1)

/-- BEAM_WEIGHTS (0x1A). -/
def State.beamWeights (s : State) (c : RingCmd) (r : CmdRef) : State :=
  let n := c.arg0.toNat
  let b := s.beam n
  let t := c.arg1.toNat + fld c.arg2.toNat 5 0 * 2 ^ 32
  let size := if b.steer then b.steerSize else 4 * b.setSize s
  if !s.beamOk c.fn n then s.refuse r stConflict (argOff 0) 0
  else if c.buf.length < size then s.refuse r stConflict 0x10 0
  else if s.switchTooClose b t then s.refuse r stConflict (argOff 1) 0
  else if b.next.isSome then s.refuse r stConflict noField 0
  else
    let ws := if b.steer then s.steerWeights b c.buf else explicitWeights c.buf (b.setSize s)
    match (if b.steer then none else b.badPad ws) with
    | some i => s.refuse r stConflict (bufOff (4 * i)) 0
    | none => s.modBeam n fun b => { b with next := some { slot := t, w := { chans := sortBy id b.chans, w := ws }, cmd := some r } }

def execBeamWeights (c : RingCmd) (s : State) : Host.Outcome State Fault Refusal :=
  .next (s.startCmd 0x1A false c fun r s => s.beamWeights c r)

/-- WEIGHTS_READY: the NEXT copy is complete. -/
def execWeightsReady (plan : Fin 4096) (s : State) : Host.Outcome State Fault Refusal :=
  .next (s.modBeam plan fun b => { b with next := b.next.map fun w => { w with ready := true } })

/-! ### BEAM_CAPTURE (R137) -/

/-- The captured slots of a plan that meet a slot range, with their dies, by slot and then channel. -/
def State.captured (s : State) (n lo hi : Nat) : List (Nat × Nat × List Byte) :=
  sortBy (·.1) ((List.range 4).flatMap fun d => ((s.die d).capture.filter fun e =>
    e.1 == n && decide (lo ≤ e.2.1 / 64) && decide (e.2.1 / 64 ≤ hi)).map fun e => (captureKey (e.2.1 / 64) (e.2.1 % 64 + d * s.chPerDie), d, e.2.2))

/-- A captured slot as VOLT16 records; the region keeps no SAT and ZEROED, so these are free values. -/
def State.captureRecs (s : State) (n : Nat) (e : Nat × Nat × List Byte) : State :=
  let b := s.beam n
  s.forEach (beamRanges 255 b.beams) fun s r =>
    let sat := s.freeNat
    let s := s.drawFree
    (s.drawFree.emitDie e.2.1 b.dest (s.beamRec n (e.1 / 64) (beamBody 1 b e.2.1 (e.1 % 64) r.1 r.2 1 (b.nfine s) sat s.freeNat (2 ^ e.2.1)
      b.vshift false ((e.2.2.drop (4096 * r.1)).take (4096 * r.2))))).1

/-- BEAM_CAPTURE (0x1B): whole slots that meet the counter range; where some are not held it completes DATA_LOST with the
part that is. -/
def State.beamCapture (s : State) (c : RingCmd) (r : CmdRef) : State :=
  let n := fld c.arg0.toNat 30 0
  let b := s.beam n
  let lo := (c.arg1.toNat + c.arg2.toNat * 2 ^ 32) / 1024
  let hi := (c.arg3.toNat + c.arg4.toNat * 2 ^ 32) / 1024
  if !b.status.holds || b.tenant != c.fn || !b.capture then s.refuse r stConflict (argOff 0) 0
  else if hi < lo then s.refuse r stConflict (argOff 3) 0
  else
    let es := s.captured n lo hi
    let st := if es.length == (hi + 1 - lo) * b.chans.length then stOK else stDataLost
    let bytes := es.flatMap (·.2.2)
    if bit c.arg0.toNat 31 then (s.forEach es fun s e => s.captureRecs n e).complete r st bytes.length 0
    else s.writeRes c r bytes fun s => s.complete r st bytes.length 0

def execBeamCapture (c : RingCmd) (s : State) : Host.Outcome State Fault Refusal :=
  .next (s.startCmd 0x1B false c fun r s => s.beamCapture c r)

/-! ### TOPK_SET (R139) -/

def State.topkSet (s : State) (c : RingCmd) (r : CmdRef) : State :=
  let n := fld c.arg0.toNat 30 0
  let isBeam := bit c.arg0.toNat 31
  let a := c.arg1.toNat
  let k : Topk := { k := fld a 3 0, sub := fld a 11 8, exclAuto := bit a 16, tshift := fld a 28 24,
                    min := c.arg2.toNat + c.arg3.toNat * 2 ^ 32, dest := fld c.arg4.toNat 15 0 }
  if !(if isBeam then s.beamOk c.fn n else s.subOk c.fn n) then s.refuse r stConflict (argOff 0) 0
  else if !within 1 k.k 8 || decide (10 < k.sub) || (!isBeam && decide ((s.subr n).len < 1024 * 2 ^ k.sub)) then s.refuse r stConflict (argOff 1) 0
  else if !s.destOk c.fn k.dest then s.refuse r stConflict (argOff 4) 0
  else ({ s with topkNext := s.topkNext ++ [(2 * n + bnat isBeam, k)] } : State).complete r stOK 0 0

def execTopkSet (c : RingCmd) (s : State) : Host.Outcome State Fault Refusal :=
  .next (s.startCmd 0x1C false c fun r s => s.topkSet c r)

end Sys2Proof.Machine
end

