-- ==== Sys2Proof/Machine/Engine.lean ====
section
/-! DEFINITION. The Cellek engine's instructions, one definition each (Table 8.4, R197 to R215, R235, R236). -/
namespace Sys2Proof.Machine

open Sys2Proof

/-! ### Data ALU (R193, R198) -/

/-- An ALU operation whose carry the manual does not state: C is a free value. -/
def State.aluFree (s : State) (e : Nat) (o : EngOp) (f : Eng → Bool → Eng) : State :=
  s.issue e .plain 1 o [] fun s => .ok ((s.modEng e fun x => f x (s.freeNat % 2 == 1)).drawFree)

def execEngineNop (e : Fin 96) (o : EngOp) (s : State) : Host.Outcome State Fault Refusal := .next (s.issueEng e 1 o id)

/-- ADD: C is the carry out of bit 23. -/
def execAdd (e : Fin 96) (o : EngOp) (dst x y : Fin 16) (s : State) : Host.Outcome State Fault Refusal :=
  .next (s.issueEng e 1 o fun g =>
    g.aluResult dst o.sat (g.dInt x + g.dInt y) (decide (2 ^ 24 ≤ (g.set.dv x).toNat + (g.set.dv y).toNat)))

def execSub (e : Fin 96) (o : EngOp) (dst x y : Fin 16) (s : State) : Host.Outcome State Fault Refusal :=
  .next (s.aluFree e o fun g c => g.aluResult dst o.sat (g.dInt x - g.dInt y) c)

def execNeg (e : Fin 96) (o : EngOp) (dst x : Fin 16) (s : State) : Host.Outcome State Fault Refusal :=
  .next (s.aluFree e o fun g c => g.aluResult dst o.sat (-g.dInt x) c)

def execAbs (e : Fin 96) (o : EngOp) (dst x : Fin 16) (s : State) : Host.Outcome State Fault Refusal :=
  .next (s.aluFree e o fun g c => g.aluResult dst o.sat (g.dInt x).natAbs c)

def execCmp (e : Fin 96) (o : EngOp) (x y : Fin 16) (s : State) : Host.Outcome State Fault Refusal :=
  .next (s.aluFree e o fun g c => g.compare (g.dInt x - g.dInt y) c)

def execMin (e : Fin 96) (o : EngOp) (dst x y : Fin 16) (s : State) : Host.Outcome State Fault Refusal :=
  .next (s.aluFree e o fun g c => g.aluResult dst o.sat (min (g.dInt x) (g.dInt y)) c)

def execMax (e : Fin 96) (o : EngOp) (dst x y : Fin 16) (s : State) : Host.Outcome State Fault Refusal :=
  .next (s.aluFree e o fun g c => g.aluResult dst o.sat (max (g.dInt x) (g.dInt y)) c)

/-! ### Logic and shifts -/

def execAnd (e : Fin 96) (o : EngOp) (dst x y : Fin 16) (s : State) : Host.Outcome State Fault Refusal :=
  .next (s.issueEng e 1 o fun g => g.fly 2 (.d dst (g.set.dv x &&& g.set.dv y)))

def execOr (e : Fin 96) (o : EngOp) (dst x y : Fin 16) (s : State) : Host.Outcome State Fault Refusal :=
  .next (s.issueEng e 1 o fun g => g.fly 2 (.d dst (g.set.dv x ||| g.set.dv y)))

def execXor (e : Fin 96) (o : EngOp) (dst x y : Fin 16) (s : State) : Host.Outcome State Fault Refusal :=
  .next (s.issueEng e 1 o fun g => g.fly 2 (.d dst (g.set.dv x ^^^ g.set.dv y)))

def execShl (e : Fin 96) (o : EngOp) (dst x : Fin 16) (sh : Fin 25) (s : State) : Host.Outcome State Fault Refusal :=
  .next (s.issueEng e 1 o fun g => g.fly 2 (.d dst (g.set.dv x <<< sh.val)))

def execShr (e : Fin 96) (o : EngOp) (dst x : Fin 16) (sh : Fin 25) (s : State) : Host.Outcome State Fault Refusal :=
  .next (s.issueEng e 1 o fun g => g.fly 2 (.d dst (g.set.dv x >>> sh.val)))

def execSha (e : Fin 96) (o : EngOp) (dst x : Fin 16) (sh : Fin 25) (s : State) : Host.Outcome State Fault Refusal :=
  .next (s.issueEng e 1 o fun g => g.fly 2 (.d dst ((g.set.dv x).sshiftRight sh.val)))

/-! ### Multiply-accumulate (R197, R201) -/

/-- One multiply-accumulate of latency `n` into accumulator `a`, onto its pending result. -/
def Eng.mac (g : Eng) (n a : Nat) (sat : Bool) (p : Int) : Eng :=
  let (v, sf, of) := conv56 sat ((g.accBase a).toInt + p)
  (g.fly n (.a a v true)).sticky n sf of

def execMac (e : Fin 96) (o : EngOp) (acc : Fin 4) (x y : Fin 16) (s : State) : Host.Outcome State Fault Refusal :=
  .next (s.issueEng e 1 o fun g => g.mac 4 acc o.sat (g.dInt x * g.dInt y))

def execMsu (e : Fin 96) (o : EngOp) (acc : Fin 4) (x y : Fin 16) (s : State) : Host.Outcome State Fault Refusal :=
  .next (s.issueEng e 1 o fun g => g.mac 4 acc o.sat (-(g.dInt x * g.dInt y)))

def execMac2 (e : Fin 96) (o : EngOp) (acc1 acc2 : Fin 4) (x1 y1 x2 y2 : Fin 16) (s : State) : Host.Outcome State Fault Refusal :=
  .next (s.issueEng e 1 o fun g => (g.mac 4 acc1 o.sat (g.dInt x1 * g.dInt y1)).mac 4 acc2 o.sat (g.dInt x2 * g.dInt y2))

/-- Both parts of a complex product of latency 5, each as two multiply-accumulates in turn. -/
def Eng.cmac (g : Eng) (pair : Nat) (sat : Bool) (x y : Cx) : Eng :=
  let g := (g.mac 5 (2 * pair) sat (x.re * y.re)).mac 5 (2 * pair) sat (-(x.im * y.im))
  (g.mac 5 (2 * pair + 1) sat (x.re * y.im)).mac 5 (2 * pair + 1) sat (x.im * y.re)

def execCmac (e : Fin 96) (o : EngOp) (pair : Fin 2) (x y : Fin 8) (s : State) : Host.Outcome State Fault Refusal :=
  .next (s.issueEng e 2 o fun g => g.cmac pair o.sat (g.dCx x) (g.dCx y))

/-- CMACJ: the second operand is conjugated. -/
def execCmacj (e : Fin 96) (o : EngOp) (pair : Fin 2) (x y : Fin 8) (s : State) : Host.Outcome State Fault Refusal :=
  .next (s.issueEng e 2 o fun g => g.cmac pair o.sat (g.dCx x) { g.dCx y with im := -(g.dCx y).im })

/-- LMSU: the tap at C[E], C[E + 1] takes tap + round_conv(μ·e·conj(x) / 2^sh) 5 cycles later; agK advances twice. -/
def Eng.lmsu (g : Eng) (ag mu err x : Nat) (sh : Nat) (sat : Bool) : Except Nat Eng :=
  let w := g.eaOf ag
  match g.localCx .c w, busOff .c w, busOff .c ((w + 1) % 2 ^ 20) with
  | some tap, some o0, some o1 =>
    let a := g.dCx err
    let b := g.dCx x
    let m := g.dInt mu
    let re := tap.re + rneShift (m * (a.re * b.re + a.im * b.im)) sh
    let im := tap.im + rneShift (m * (a.im * b.re - a.re * b.im)) sh
    let (vr, sf, of) := conv24 sat re
    let (vi, sf', of') := conv24 sat im
    let g := ((g.fly 5 (.store o0 (container vr))).fly 5 (.store o1 (container vi))).sticky 5 (sf || sf') (of || of')
    .ok (g.modSet fun r => r.setGen ag ((r.gen ag).advance))
  | _, _, _ => .error fcDecerr

def execLmsu (e : Fin 96) (o : EngOp) (ag : Fin 8) (mu : Fin 16) (err x : Fin 8) (sh : Fin 64) (s : State) :
    Host.Outcome State Fault Refusal :=
  .next (s.issue e .plain 2 o [ownField true .c 0 ag true] fun s =>
    match (s.eng e).lmsu ag mu err x sh o.sat with
    | .ok g => .ok (s.modEng e fun _ => g)
    | .error c => .error c)

/-! ### Accumulators and generators -/

/-- RND: round_conv(aK / 2^sh), converted under S (R198). -/
def execRnd (e : Fin 96) (o : EngOp) (dst : Fin 16) (acc : Fin 4) (sh : Fin 33) (s : State) : Host.Outcome State Fault Refusal :=
  .next (s.issueEng e 1 o fun g =>
    let (v, sf, of) := conv24 o.sat (rneShift (g.set.av acc).toInt sh)
    (g.fly 3 (.d dst v)).sticky 3 sf of)

/-- MVA: dN × 2^sh, sign-extended. -/
def execMva (e : Fin 96) (o : EngOp) (acc : Fin 4) (x : Fin 16) (sh : Fin 33) (s : State) : Host.Outcome State Fault Refusal :=
  .next (s.issueEng e 1 o fun g => g.fly 2 (.a acc (BitVec.ofInt 56 (g.dInt x * 2 ^ sh.val)) false))

def execClr (e : Fin 96) (o : EngOp) (acc : Fin 4) (s : State) : Host.Outcome State Fault Refusal :=
  .next (s.issueEng e 1 o fun g => g.fly 2 (.a acc 0 false))

def execAgset (e : Fin 96) (o : EngOp) (ag : Fin 8) (f : AgField) (src : ImmOrD) (s : State) : Host.Outcome State Fault Refusal :=
  .next (s.issueEng e 1 o fun g => g.fly 2 (.ag ag f (match src with | .imm v => v | .d n => g.dInt n)))

/-- AGGET: a field into a d register; STEP is signed. -/
def execAgget (e : Fin 96) (o : EngOp) (dst : Fin 16) (ag : Fin 8) (f : AgField) (s : State) : Host.Outcome State Fault Refusal :=
  .next (s.issueEng e 1 o fun g =>
    let r := g.set.gen ag
    let v : Int := match f with | .step => r.step.toInt | _ => r.field f
    g.fly 2 (.d dst (BitVec.ofInt 24 v)))

/-! ### Memory (R195, R196, R200) -/

/-- The operation's own access: made as a memory field's is. -/
def State.memOp (s : State) (e : Nat) (o : EngOp) (f : Field) (ok : Nat → Bool) (start : Eng → Nat → Eng) : State :=
  s.issue e .plain 1 o [f] fun s =>
    let w := (s.eng e).eaOf f.ag
    if ok w then .ok (s.modEng e fun g => start g w) else .error fcDecerr

def execLd (e : Fin 96) (o : EngOp) (bus : EBus) (dst : Fin 16) (ag : Fin 8) (adv : Bool) (s : State) : Host.Outcome State Fault Refusal :=
  let f := ownField false bus dst ag adv
  .next (s.memOp e o f (fun _ => true) fun g w => g.access f w)

def execSt (e : Fin 96) (o : EngOp) (bus : EBus) (src : Fin 16) (ag : Fin 8) (adv : Bool) (s : State) : Host.Outcome State Fault Refusal :=
  let f := ownField true bus src ag adv
  .next (s.memOp e o f (fun _ => true) fun g w => g.access f w)

/-- LDH: a 16+16-bit sample into dN and dN + 1, each part × 2^8; N must be even (R195). -/
def execLdh (e : Fin 96) (o : EngOp) (bus : EBus) (dst : Fin 16) (ag : Fin 8) (adv : Bool) (s : State) : Host.Outcome State Fault Refusal :=
  if s.canIssue e && dst.val % 2 == 1 then .fault (.notDescribed 195)
  else
    let f := ownField false bus dst ag adv
    .next (s.memOp e o f (fun _ => true) fun g w =>
      if isGroupWord bus w then g.groupAccess { reg := some dst, half := true, off := (w - 0x80000) * 4 } else g.fly 3 (.loadH dst bus w))

/-- LDG and STG reach group memory alone. -/
def execLdg (e : Fin 96) (o : EngOp) (bus : EBus) (dst : Fin 16) (ag : Fin 8) (adv : Bool) (s : State) : Host.Outcome State Fault Refusal :=
  let f := ownField false bus dst ag adv
  .next (s.memOp e o f (isGroupWord bus) fun g w => g.access f w)

def execStg (e : Fin 96) (o : EngOp) (bus : EBus) (src : Fin 16) (ag : Fin 8) (adv : Bool) (s : State) : Host.Outcome State Fault Refusal :=
  let f := ownField true bus src ag adv
  .next (s.memOp e o f (isGroupWord bus) fun g w => g.access f w)

/-- MVM: between the sets, in the shadow set only (R206). -/
def execMvm (e : Fin 96) (o : EngOp) (toMain : Bool) (src dst : EngReg) (s : State) : Host.Outcome State Fault Refusal :=
  .next (s.issue e .plain 1 o [] fun s =>
    if !(s.eng e).inh then .error fcSeq
    else .ok (s.modEng e fun g =>
      let t := g.tmrValue s.now
      let v := match src with | .tmr => t.toNat | _ => if toMain then g.readReg g.shad true src else g.readReg g.main false src
      let g := g.writeMv toMain dst v
      match dst with | .tmr => { g with tmrAt := s.now } | _ => g))

/-! ### Branches and loops (R202, R203) -/

def Eng.branchTo (g : Eng) (t : Nat) : Eng := g.modSet fun r => { r with branch := some (t, 3) }

def execBr (e : Fin 96) (o : EngOp) (target : BitVec 13) (s : State) : Host.Outcome State Fault Refusal :=
  .next (s.issue e .jump 1 o [] (State.engBody e fun g => g.branchTo target.toNat))

def execBrc (e : Fin 96) (o : EngOp) (cond : Cond) (target : BitVec 13) (s : State) : Host.Outcome State Fault Refusal :=
  .next (s.issue e .jump 1 o [] (State.engBody e fun g => if g.set.holds cond then g.branchTo target.toNat else g))

/-- CALL: the return address is that of the word after the delay slots; a ninth CALL faults. -/
def execCall (e : Fin 96) (o : EngOp) (target : BitVec 13) (s : State) : Host.Outcome State Fault Refusal :=
  .next (s.issue e .jump 1 o [] fun s =>
    if 8 ≤ (s.eng e).set.retStack.length then .error fcSeq
    else .ok (s.modEng e fun g =>
      (g.modSet fun r => { r with retStack := (g.pc + 3).toNat :: r.retStack }).branchTo target.toNat))

def execRet (e : Fin 96) (o : EngOp) (s : State) : Host.Outcome State Fault Refusal :=
  .next (s.issue e .jump 1 o [] fun s =>
    match (s.eng e).set.retStack with
    | [] => .error fcSeq
    | t :: r => .ok (s.modEng e fun g => (g.modSet fun x => { x with retStack := r }).branchTo t))

def execDbnz (e : Fin 96) (o : EngOp) (target : BitVec 13) (s : State) : Host.Outcome State Fault Refusal :=
  .next (s.issue e .jump 1 o [] (State.engBody e fun g =>
    let g := g.modSet fun r => { r with lc1 := r.lc1 - 1 }
    if g.set.lc1 != 0 then g.branchTo target.toNat else g))

/-- LOOP: n = 0 runs the block once; a block past program word 8,191 faults. A length outside 1 to 32 is not described. -/
def execLoop (e : Fin 96) (o : EngOp) (n : LoopCount) (len : Nat) (s : State) : Host.Outcome State Fault Refusal :=
  if s.canIssue e && !within 1 len 32 then .fault (.notDescribed 203)
  else .next (s.issue e .jump 1 o [] fun s =>
    if 8191 < (s.eng e).pc.toNat + len then .error fcSeq
    else .ok (s.modEng e fun g => g.modSet fun r =>
      let k := match n with | .imm v => v.toNat | .lc0 => r.lc0.toNat
      { r with loopBlk := some { start := g.pc.toNat + 1, len := len, left := k - 1 }, lc0 := BitVec.ofNat 16 (k - 1) }))

/-- RTI: in the main set it faults (R207). -/
def execRti (e : Fin 96) (o : EngOp) (s : State) : Host.Outcome State Fault Refusal :=
  .next (s.issueThen e .jump 1 o [] (fun s => if (s.eng e).inh then .ok s else .error fcSeq) fun s => s.returnMain e)

/-! ### The event hub and its ports (R212 to R215, R235, R236) -/

/-- A mask names only inputs the tenant may wait on: its own lines, and inputs 48 to 50 (R204, R214). -/
def State.maskOk (s : State) (e mask : Nat) : Bool :=
  (List.range 64).all fun n => !bit mask n || (if n < 48 then s.lineOk (e / 8) n (s.engTenant e) else decide (n < 51))

/-- WAITE: the cycles of a wait for an input that does not pend yet are free. -/
def execWaite (e : Fin 96) (o : EngOp) (mask : BitVec 64) (s : State) : Host.Outcome State Fault Refusal :=
  .next (s.issueThen e .wait 1 o [] (fun s => if s.maskOk e mask.toNat then .ok s else .error fcPort) fun s =>
    let x := s.eng e
    let n := if x.pend &&& mask == 0 then s.freeNat % 6 else 0
    (s.modEng e fun x =>
      let x := x.modSet fun r => { r with wait := some mask.toNat, cyc := r.cyc + n }
      ({ x with st := if x.set.grp.isSome then .stalled else .waiting, waitedAt := s.now } : Eng).wake).drawFree)

/-- EVS: the line pulses, and a GROUP-mode DMA channel that it starts begins (R213, R268). -/
def execEvs (e : Fin 96) (o : EngOp) (line : Fin 64) (s : State) : Host.Outcome State Fault Refusal :=
  .next (s.issue e .plain 1 o [] fun s =>
    let g := e.val / 8
    if !s.lineOk g line (s.engTenant e) then .error fcPort
    else .ok ((s.pulseLine g line (s.engTenant e)).forEach (s.dmaStarted g line) State.dmaGroupStart))

def execClre (e : Fin 96) (o : EngOp) (input : Fin 64) (s : State) : Host.Outcome State Fault Refusal :=
  .next (s.issueEng e 1 o fun g => { g with pend := g.pend &&& ~~~(BitVec.ofNat 64 (2 ^ input.val)) })

/-- The write-back message of R173 from the registers named. -/
def Eng.message (g : Eng) (gen freqLo freqHi time close evm : Nat) : WriteBack :=
  let r := g.set
  { gen := BitVec.ofNat 8 (r.dv gen).toNat, freq := toSigned 32 ((r.dv freqLo).toNat + 2 ^ 24 * (r.dv freqHi).toNat),
    time := toSigned 16 (r.dv time).toNat, close := bit (r.dv close).toNat 0, evm := toSigned 16 (r.dv evm).toNat }

/-- WBK: a message for a chain of another tenant is discarded and counted (R215). -/
def execWbk (e : Fin 96) (o : EngOp) (chain gen freqLo freqHi time close evm : Fin 16) (s : State) : Host.Outcome State Fault Refusal :=
  .next (s.issue e .plain 1 o [] fun s =>
    let g := s.eng e
    let c := (g.set.dv chain).toNat
    let m := g.message gen freqLo freqHi time close evm
    if 512 ≤ c || (s.chain c).state == .free || (s.chain c).tenant != s.engTenant e then
      .ok (s.modEng e fun g => { g with portRej := satTo 255 (g.portRej + 1) })
    else .ok (s.modChain c fun x => { x with pending := x.pending ++ [m] }))

/-- FLG: the 16 bytes at X[E]. -/
def execFlg (e : Fin 96) (o : EngOp) (ag : Fin 8) (s : State) : Host.Outcome State Fault Refusal :=
  .next (s.issue e .plain 1 o [] fun s =>
    let g := s.eng e
    match g.rawX (g.eaOf ag) 4 with
    | some bs => .ok (s.flagPort e bs)
    | none => .error fcDecerr)

def execBpb (e : Fin 96) (o : EngOp) (c : BitVec 10) (s : State) : Host.Outcome State Fault Refusal :=
  .next (s.issue e .plain 1 o [] fun s => s.bindPort e c.toNat)

/-- DSUB: SR.Z tells whether the job was queued (R236). -/
def execDsub (e : Fin 96) (o : EngOp) (ag : Fin 8) (s : State) : Host.Outcome State Fault Refusal :=
  .next (s.issue e .plain 1 o [] fun s =>
    let g := s.eng e
    match g.rawX (g.eaOf ag) 8 with
    | none => .error fcDecerr
    | some bs =>
      let (s, queued) := s.dsub (taskOfDesc e (s.engTenant e) fun i => leAt bs (4 * i) 4)
      .ok (s.modEng e fun g => g.modSet fun r => r.setZ queued))

def execTsk (e : Fin 96) (o : EngOp) (dn : Fin 16) (s : State) : Host.Outcome State Fault Refusal :=
  .next (s.issue e .plain 1 o [] fun s => .ok (s.endTask e (((s.eng e).set.dv dn).toNat % 4)).startDetections)

/-- SHFX: takes the bits that wait, and is STALLED for the rest; a count outside 1 to 24 is not described. -/
def execShfx (e : Fin 96) (o : EngOp) (dst : Fin 16) (n : Nat) (s : State) : Host.Outcome State Fault Refusal :=
  if s.canIssue e && !within 1 n 24 then .fault (.notDescribed 212)
  else .next (s.issueThen e .hold 1 o [] (fun s => if (s.eng e).bound.isNone then .error fcPort else .ok s) fun s =>
    (s.modEng e fun x => ({ x with st := .stalled } : Eng).modSet fun r => { r with shfx := some (dst, n) }).feedEngine e)

/-! ### Micro-routines and HLT -/

/-- VMAC64: a shift outside 0 to 23 is not described. -/
def execVmac64 (e : Fin 96) (o : EngOp) (agx agy agc : Fin 8) (sh : Nat) (s : State) : Host.Outcome State Fault Refusal :=
  if s.canIssue e && decide (23 < sh) then .fault (.notDescribed 210)
  else
    let g := s.eng e
    let x := g.landTo g.set.cyc
    let ok := (x.set.gen agx).legal && (x.set.gen agy).legal && (x.set.gen agc).legal
    let m : Micro := .vmac (x.eaOf agx) (x.eaOf agy) (x.eaOf agc) sh agx agy agc (x.set.gen agx) (x.set.gen agy) (x.set.gen agc) o.sat
    .next (s.issueThen e .micro 0 o [] (fun s => if ok then .ok s else .error fcSeq) fun s => s.runMicro e m 0)

/-- FFT4: q outside 2 to 6, or a stage that is not one of the transform's, is not described. -/
def execFft4 (e : Fin 96) (o : EngOp) (agy agc : Fin 8) (q s_ : Nat) (s : State) : Host.Outcome State Fault Refusal :=
  if s.canIssue e && (!within 2 q 6 || decide (q ≤ s_)) then .fault (.notDescribed 211)
  else
    let g := s.eng e
    let x := g.landTo g.set.cyc
    let ok := (x.set.gen agy).legal && (x.set.gen agc).legal
    let m : Micro := .fft (x.eaOf agy) (x.eaOf agc) q s_ o.sat
    .next (s.issueThen e .micro 0 o [] (fun s => if ok then .ok s else .error fcSeq) fun s => s.runMicro e m 0)

/-- HLT: HALTED, once a group-memory access of the same word has returned. -/
def execHlt (e : Fin 96) (o : EngOp) (s : State) : Host.Outcome State Fault Refusal :=
  .next (s.issueThen e .jump 1 o [] (fun s => .ok s) fun s =>
    if (s.eng e).grpBusy then s.modEng e fun x => { x with haltWant := true } else s.takeHalt e)

end Sys2Proof.Machine
end

