-- ==== Sys2Proof/Machine/Possess.lean ====
section
/-! DEFINITION. The possession lock unit's commands and limits, local and chain-level (R295 to R300, R321, R325). -/
namespace Sys2Proof.Machine

open Sys2Proof

def State.posCfg (s : State) (n : Nat) : Nat := if n < 960 then s.reg (0xB40000 + 4 * n) else s.reg (0xB40F00 + 4 * (n - 960))
def State.posRank (s : State) (n : Nat) : Nat := fld (s.posCfg n) 19 16
def State.posSet (s : State) (n : Nat) : Nat := fld (s.posCfg n) 25 20

/-- The lock's set is granted to the tenant. -/
def State.setGranted (s : State) (t n : Nat) : Bool := bit (s.reg (tenReg t (8 + 4 * (s.posSet n / 32)))) (s.posSet n % 32)

/-- The global ring id of a command. -/
def CmdRef.ringId (r : CmdRef) : Nat := r.fn * 128 + r.q

/-- The holder id of this package's ring for a lock: the ring, or for a chain lock the package and the ring. -/
def State.holderId (s : State) (n ring : Nat) : Nat := if n < 992 then ring else chainHolder s.mgmt.addr.toNat ring

/-- Locks, local and chain-level, that a ring of this package holds, and whether it has a waiting request (R296, R321). -/
def State.locksOf (s : State) (ring : Nat) : List Nat := (s.locks.filter fun e => e.2.holder == some (s.holderId e.1 ring)).map (·.1)
def State.hasWaiting (s : State) (ring : Nat) : Bool :=
  (s.locks.any fun e => e.2.waiters.any fun w => w.holder == s.holderId e.1 ring) || s.mgmt.lockWait.any fun w => w.holder == ring

/-- The lock unit answers RESETTING while its block is in reset (Table 14.8). -/
def State.lockCmd (s : State) (opc : Nat) (c : RingCmd) (body : CmdRef → State → State) : State :=
  s.startCmd opc false c fun r s => if s.resetting 35 then s.complete r stResetting noField 0 else body r s

/-- Checks 1 to 4 of POS_ACQUIRE, with the locks that check 1 admits. -/
def State.acquireHead (s : State) (t ring n : Nat) (valid : Bool) : List Check :=
  [ failIf (!valid) stConflict (argOff 0) 1
  , failIf (!s.setGranted t n) stQuota (argOff 0) 2
  , failIf ((s.lock n).holder == some (s.holderId n ring) || s.hasWaiting ring) stConflict noField 3
  , failIf ((s.locksOf ring).any fun m => decide (s.posRank n ≤ s.posRank m)) stRank (argOff 0) 4 ]

/-! ### Local locks (R299) -/

/-- POS_ACQUIRE (0x41): the checks of Table 11.6 in order; a free lock is granted, a held one waited for. -/
def execPosAcquire (c : RingCmd) (s : State) : Host.Outcome State Fault Refusal :=
  .next (s.lockCmd 0x41 c fun r s =>
    let n := fld c.arg0.toNat 9 0
    let l := s.lock n
    match checks (s.acquireHead c.fn r.ringId n (decide (n < 960) && bit (s.posCfg n) 31) ++
        [failIf (decide (64 ≤ l.waiters.length)) stCapacity noField 5,
         failIf (l.holder.isSome && !bit c.arg0.toNat 31) stConflict (argOff 0) 6]) with
    | .error f => s.failWith r f
    | .ok () =>
      if l.holder.isNone then s.grantLock n r.ringId (some r)
      else s.modLock n fun l => { l with waiters := l.waiters ++ [{ holder := r.ringId, cmd := some r, limit := c.arg1.toNat }] })

/-- Check 2 of POS_RELEASE: the status where the ring does not hold the lock. -/
def Lock.notHeld (l : Lock) (h : Nat) : Nat := if l.limitFrom.contains h then stAbandonedTimeout else stConflict

/-- POS_RELEASE (0x42). -/
def execPosRelease (c : RingCmd) (s : State) : Host.Outcome State Fault Refusal :=
  .next (s.lockCmd 0x42 c fun r s =>
    let n := c.arg0.toNat
    let l := s.lock n
    if 960 ≤ n then s.refuse r stConflict (argOff 0) 1
    else if l.holder != some r.ringId then s.complete r (l.notHeld r.ringId) (argOff 0) 2
    else (s.complete r stOK n 0).releaseLock n 0)

/-- POS_CLEAR (0x43): clears the mark and keeps the lock, or with FORCE releases it from any holder and marks it. -/
def execPosClear (c : RingCmd) (s : State) : Host.Outcome State Fault Refusal :=
  .next (s.lockCmd 0x43 c fun r s =>
    let n := fld c.arg0.toNat 9 0
    let force := bit c.arg0.toNat 31
    let l := s.lock n
    if 960 ≤ n then s.refuse r stConflict (argOff 0) 1
    else if !force && l.holder != some r.ringId then s.refuse r stConflict (argOff 0) 2
    else if force && c.fn != 0 then s.refuse r stDecerr (argOff 0) 3
    else
      let s := s.complete r stOK n l.mark
      if force then s.releaseLock n 1 else s.modLock n fun l => { l with mark := 0 })

/-! ### Chain locks at the acting master (R321) -/

/-- A response reaches a ring of this package: a grant, or a refusal with the check that the status stands for. A package
that is not the master is not told the grant count, which is a free value there. -/
def State.takeLockResp (s : State) (n st : Nat) : State :=
  match takeFirst (fun w => w.lock == n) s.mgmt.lockWait with
  | none => s
  | some (w, ws) =>
    let s := s.modMgmt fun m => { m with lockWait := ws }
    if st == stOK || st == stAbandoned || st == stAbandonedTimeout then
      if s.mgmt.acting then s.complete w.cmd st n (s.lock n).grants
      else
        let mark := if st == stAbandoned then 1 else if st == stAbandonedTimeout then 2 else 0
        let count := s.freeNat % 2 ^ 32
        (s.drawFree.modLock n fun l => { l with holder := some (s.holderId n w.holder), mark := mark, limitFrom := [] }).complete w.cmd st n count
    else
      let check := if st == stRank then 4 else if st == stCapacity then 5 else if st == stConflict then (if w.wait then 7 else 6) else 0
      s.refuse w.cmd st (argOff 0) check

/-- The master answers a holder, of this package or another. -/
def State.answerChain (s : State) (n st holder : Nat) : State :=
  if holder / 65536 == s.mgmt.addr.toNat then s.takeLockResp n st else s.sendLockResp n st holder

/-- Grants that wait for a state copy are sent: the first `k` of them. -/
def State.sendGrants (s : State) (k : Nat) : State :=
  let l := s.mgmt.grantWait
  let s := s.modMgmt fun m => { m with grantWait := l.drop k, copied := m.copied - k }
  s.forEach (l.take k) fun s e => if (s.lock e.1).holder == some e.2 then s.answerChain e.1 (grantStatus (s.lock e.1).mark) e.2 else s

/-- A chain lock goes to a holder; the grant is sent after a copy that contains it where the bench is SYNC. -/
def State.grantChain (s : State) (n holder : Nat) : State :=
  let s := s.modLock n fun l =>
    { l with holder := some holder, grants := (l.grants + 1) % 2 ^ 32, limitFrom := l.limitFrom.filter (· != holder) }
  if s.mgmt.sync then s.modMgmt fun m => { m with grantWait := m.grantWait ++ [(n, holder)] }
  else s.answerChain n (grantStatus (s.lock n).mark) holder

/-- A chain lock is released, with a mark where its holder was lost, and goes to its first waiter. -/
def State.releaseChain (s : State) (n mark : Nat) : State :=
  let s := s.modLock n fun l => { l with holder := none, mark := if mark == 0 then l.mark else mark }
  match (s.lock n).waiters with
  | [] => s
  | w :: ws => (s.modLock n fun l => { l with waiters := ws }).grantChain n w.holder

/-- A request at the master: the rank check over the chain locks held, 64 waiters, and a held lock without WAIT. A request
sent again while it waits is ignored, and one whose lock is already the holder's is answered again. -/
def State.chainRequest (s : State) (n holder : Nat) (wait : Bool) (limit : Nat) : State :=
  let l := s.lock n
  if s.mgmt.swapPhase == 2 || n < 992 || 1024 ≤ n || (l.waiters.any fun w => w.holder == holder) then s
  else if l.holder == some holder then
    if s.mgmt.grantWait.contains (n, holder) then s else s.answerChain n (grantStatus l.mark) holder
  else if s.locks.any fun e => decide (992 ≤ e.1) && e.2.holder == some holder && decide (s.posRank n ≤ s.posRank e.1) then
    s.answerChain n stRank holder
  else if 64 ≤ l.waiters.length then s.answerChain n stCapacity holder
  else if l.holder.isNone then s.grantChain n holder
  else if wait then s.modLock n fun l => { l with waiters := l.waiters ++ [{ holder := holder, limit := limit }] }
  else s.answerChain n stConflict holder

/-- A package loses its chain locks, which are marked ABANDONED, and its requests. -/
def State.packageLost (s : State) (addr : Nat) : State :=
  s.forEach ((s.locks.filter fun e => decide (992 ≤ e.1)).map (·.1)) fun s n =>
    let s := s.modLock n fun l => { l with waiters := l.waiters.filter fun w => w.holder / 65536 != addr }
    if (s.lock n).holder.any fun h => h / 65536 == addr then s.releaseChain n 1 else s

/-! ### The frames of Table 12.2 and the chain commands -/

/-- LOCK_REQ of this package's ring. -/
def State.sendLockReq (s : State) (w : LockWait) : State :=
  if s.mgmt.acting then s.chainRequest w.lock (s.holderId w.lock w.holder) w.wait w.limit
  else s.unicast 0x08 2 0x7E [w.lock + bnat w.wait * 2 ^ 31, w.holder, w.limit]

/-- LOCK_REL: CLEAR is bit 30, FORCE bit 31. -/
def State.sendLockRel (s : State) (n : Nat) (clear force : Bool) : State :=
  s.unicast 0x0A 2 0x7E [n + bnat clear * 2 ^ 30 + bnat force * 2 ^ 31]

/-- LOCK_REQ received by the master. -/
def execLockReq (p : Fin 2) (f : Frame) (s : State) : Host.Outcome State Fault Refusal :=
  .next (s.receive p f false fun s =>
    let w (i : Nat) : Nat := (f.payload.getD i 0).toNat
    if s.mgmt.acting then s.chainRequest (fld (w 0) 9 0) (chainHolder f.src.toNat (w 1 % 65536)) (bit (w 0) 31) (w 2) else s)

/-- LOCK_RESP received by the requester. -/
def execLockResp (p : Fin 2) (f : Frame) (s : State) : Host.Outcome State Fault Refusal :=
  .next (s.receive p f false fun s => s.takeLockResp (f.payload.getD 0 0).toNat (f.payload.getD 1 0).toNat)

/-- LOCK_REL received by the master: FORCE releases from any holder and marks; otherwise only the holder's package may. -/
def execLockRel (p : Fin 2) (f : Frame) (s : State) : Host.Outcome State Fault Refusal :=
  .next (s.receive p f false fun s =>
    let w := (f.payload.getD 0 0).toNat
    let n := fld w 9 0
    let mine := (s.lock n).holder.any fun h => h / 65536 == f.src.toNat
    if !s.mgmt.acting || n < 992 then s
    else if bit w 31 then s.releaseChain n 1
    else if !mine then s
    else if bit w 30 then s.modLock n fun l => { l with mark := 0 }
    else s.releaseChain n 0)

/-- CHAIN_POS_ACQUIRE (0x4C). -/
def execChainPosAcquire (c : RingCmd) (s : State) : Host.Outcome State Fault Refusal :=
  .next (s.lockCmd 0x4C c fun r s =>
    let n := fld c.arg0.toNat 9 0
    match checks (s.acquireHead c.fn r.ringId n (decide (992 ≤ n))) with
    | .error f => s.failWith r f
    | .ok () =>
      let w : LockWait := { cmd := r, holder := r.ringId, lock := n, wait := bit c.arg0.toNat 31, limit := c.arg1.toNat }
      (s.modMgmt fun m => { m with lockWait := m.lockWait ++ [w] }).sendLockReq w)

/-- CHAIN_POS_RELEASE (0x4D). -/
def execChainPosRelease (c : RingCmd) (s : State) : Host.Outcome State Fault Refusal :=
  .next (s.lockCmd 0x4D c fun r s =>
    let n := c.arg0.toNat
    let h := s.holderId n r.ringId
    if n < 992 || 1024 ≤ n then s.refuse r stConflict (argOff 0) 1
    else if (s.lock n).holder != some h then s.complete r ((s.lock n).notHeld h) (argOff 0) 2
    else
      let s := s.complete r stOK n 0
      if s.mgmt.acting then s.releaseChain n 0 else (s.modLock n fun l => { l with holder := none, mark := 0 }).sendLockRel n false false)

/-- CHAIN_POS_CLEAR (0x4E). -/
def execChainPosClear (c : RingCmd) (s : State) : Host.Outcome State Fault Refusal :=
  .next (s.lockCmd 0x4E c fun r s =>
    let n := fld c.arg0.toNat 9 0
    let force := bit c.arg0.toNat 31
    if n < 992 then s.refuse r stConflict (argOff 0) 1
    else if !force && (s.lock n).holder != some (s.holderId n r.ringId) then s.refuse r stConflict (argOff 0) 2
    else if force && c.fn != 0 then s.refuse r stDecerr (argOff 0) 3
    else
      let s := s.complete r stOK n (s.lock n).mark
      if s.mgmt.acting then (if force then s.releaseChain n 1 else s.modLock n fun l => { l with mark := 0 })
      else (s.modLock n fun l => { l with holder := if force then none else l.holder, mark := 0 }).sendLockRel n (!force) force)

/-- CHAIN_LOCK_RESEND: no LOCK_RESP within 3 ms; sent again at most 3 times, then refused with RESULT1 = 0. -/
def execChainLockResend (tag : BitVec 16) (holder : Nat) (s : State) : Host.Outcome State Fault Refusal :=
  .next (match takeFirst (fun w => w.cmd.tag == tag && w.holder == holder) s.mgmt.lockWait with
    | none => s
    | some (w, ws) =>
      if s.mgmt.acting then s
      else if w.tries < 3 then
        let w : LockWait := { w with tries := w.tries + 1 }
        (s.modMgmt fun m => { m with lockWait := mapIf (fun x => x.cmd.tag == tag && x.holder == holder) (fun _ => w) m.lockWait }).sendLockReq w
      else (s.modMgmt fun m => { m with lockWait := ws }).refuse w.cmd stConflict noField 0)

/-! ### Limits (R297, R298) -/

/-- POS_WAIT_TIMEOUT: the wait limit of a request passes: check 7. -/
def execPosWaitTimeout (lock : Fin 1024) (holder : Nat) (s : State) : Host.Outcome State Fault Refusal :=
  .next (match takeFirst (fun w => w.holder == holder && w.limit != 0) (s.lock lock).waiters with
    | none => s
    | some (w, ws) =>
      let s := s.modLock lock fun l => { l with waiters := ws }
      if lock < 992 then s.completeOpt w.cmd stConflict (argOff 0) 7 else s.answerChain lock stConflict holder)

/-- POS_HOLD_TIMEOUT: HOLD ms after the grant the lock is taken with mark TIMEOUT, and the former holder's tenant told. -/
def State.holdTimeout (s : State) (n : Nat) : State :=
  match (s.lock n).holder with
  | none => s
  | some h =>
    if fld (s.posCfg n) 15 0 == 0 || (992 ≤ n && !s.mgmt.acting) then s
    else
      let s := s.modLock n fun l => { l with limitFrom := l.limitFrom ++ [h] }
      let s := if (n < 992 && h < 32768) || (992 ≤ n && h / 65536 == s.mgmt.addr.toNat) then
        s.postStatus (h % 65536 / 128) stAbandonedTimeout 15 n 0 0 else s
      if n < 992 then s.releaseLock n 2 else s.releaseChain n 2

def execPosHoldTimeout (lock : Fin 1024) (s : State) : Host.Outcome State Fault Refusal := .next (s.holdTimeout lock)

end Sys2Proof.Machine
end

