-- ==== Sys2Proof/Machine/Mgmt.lean ====
section
/-! DEFINITION. The management chain: ports and acknowledgements, beacons, addresses and the address table (R306 to R317,
R323 to R325). -/
namespace Sys2Proof.Machine

open Sys2Proof

/-! ### Ports (R311, R315, R316, Table 12.3) -/

/-- The chain ports are out of reset: step 6 of Table 14.4. -/
def State.chainOut (s : State) : Bool := decide (6 ≤ s.rst.released) && s.rst.power != .asleep

/-- CHAIN_CFG.LOOP selects the port (R328). -/
def State.underTest (s : State) (p : Nat) : Bool := bit (s.reg 0xC00000) (13 + p)

/-- A port that may train: enabled, not under test, not QUIET (R307, R328, R371). -/
def State.portUsable (s : State) (p : Nat) : Bool :=
  s.chainOut && bit (s.reg 0xC00000) (16 + p) && !s.underTest p && !(s.port p).quiet

/-- OFF to TRAINING; a package of which one port is no longer OFF is not sidelined. -/
def State.trainPort (s : State) (p : Nat) (count : Bool) : State :=
  if (s.port p).st != .off || !s.portUsable p then s
  else (s.modPort p fun x =>
    { x with st := .training, clkOk := false, good := 0, bad := 0, recover := if count then satTo 255 (x.recover + 1) else x.recover }).unsideline

/-- CHAIN_ACK: the frame is retired and TX_ERR falls by 1. -/
def execChainAck (p : Fin 2) (lseq : Byte) (s : State) : Host.Outcome State Fault Refusal :=
  .next (match takeFirst (fun u => u.f.lseq == lseq) (s.port p).unacked with
    | none => s
    | some (_, us) => (s.modPort p fun x => { x with unacked := us, txErr := x.txErr - 1 }).checkPort p)

/-- CHAIN_ACK_TIMEOUT: TX_ERR rises by 8; sent again at most 3 times, then dropped. -/
def execChainAckTimeout (p : Fin 2) (lseq : Byte) (s : State) : Host.Outcome State Fault Refusal :=
  .next (match takeFirst (fun u => u.f.lseq == lseq) (s.port p).unacked with
    | none => s
    | some (u, us) =>
      let s := s.modPort p fun x => { x with txErr := satTo 255 (x.txErr + 8) }
      if u.tries < 3 then
        let s := (s.modPort p fun x => { x with unacked := mapIf (fun u => u.f.lseq == lseq) (fun u => { u with tries := u.tries + 1 }) x.unacked }).checkPort p
        if (s.port p).isUp then s.emit (.frame p (s.stamp u.f)) else s
      else (s.modPort p fun x => { x with unacked := us, drops := satTo 0xFFFF (x.drops + 1) }).checkPort p)

/-- CHAIN_PORT_TRAIN_DONE: the clock is accepted and 1,024 TSB sets received. -/
def execChainPortTrainDone (p : Fin 2) (s : State) : Host.Outcome State Fault Refusal :=
  .next (if (s.port p).st == .training && (s.port p).clkOk then
      (s.modPort p fun x => { x with st := .up, txErr := 0, rxErr := 0 }).sendJoin
    else s)

/-- CHAIN_PORT_TRAIN_TIMEOUT: 100 ms without success. -/
def execChainPortTrainTimeout (p : Fin 2) (s : State) : Host.Outcome State Fault Refusal :=
  .next (if (s.port p).st == .training then (s.modPort p fun x => { x with st := .off, clkOk := false }).sideline else s)

/-- CHAIN_PORT_SILENCE: no symbol for 100 µs. -/
def execChainPortSilence (p : Fin 2) (s : State) : Host.Outcome State Fault Refusal := .next (s.portOff p)

/-- CHAIN_PORT_RETRY: 100 ms after a port turned OFF, with AUTO_ON. -/
def execChainPortRetry (p : Fin 2) (s : State) : Host.Outcome State Fault Refusal :=
  .next (if bit (s.reg 0xC00000) 31 then s.trainPort p true else s)

/-- CHAIN_PORT_ON (0x49). -/
def execChainPortOn (c : RingCmd) (s : State) : Host.Outcome State Fault Refusal :=
  .next (s.startCmd 0x49 true c fun r s =>
    let p := c.arg0.toNat
    if 1 < p || (s.port p).st != .off then s.refuse r stConflict (argOff 0) 0
    else ((s.modPort p fun x => { x with quiet := false }).trainPort p true).complete r stOK 0 0)

/-- BAD_FRAME: a code error, CRC error or ABT: RX_ERR rises by 8, nothing is sent. -/
def execBadFrame (p : Fin 2) (s : State) : Host.Outcome State Fault Refusal :=
  .next (if (s.port p).isUp then (s.modPort p fun x => { x with rxErr := satTo 255 (x.rxErr + 8) }).checkPort p else s)

/-- UNKNOWN_TYPE_FRAME: a good frame, discarded and counted. -/
def execUnknownTypeFrame (p : Fin 2) (f : Frame) (s : State) : Host.Outcome State Fault Refusal :=
  .next (if (s.port p).isUp then (s.goodFrame p f).modPort p fun x => { x with badType := satTo 255 (x.badType + 1) } else s)

/-! ### Forwarded clocks (R55, R306, R318) -/

/-- SYNC is lost: BENCH_SYNC tells how many cycles ago the last good copy was, and grants no longer wait (R320, R321). -/
def State.loseSync (s : State) : State :=
  if !s.mgmt.sync then s
  else
    let s := (s.modMgmt fun m => { m with sync := false }).postEvt 0 0x26 0 15 0 0 s.mgmt.sinceGood
    s.sendGrants s.mgmt.grantWait.length

/-- TWIN_EN of a package of a master pair (R318, R328). -/
def State.twinEn (s : State) : Bool := decide (2 ≤ s.rst.straps.chainRole.toNat) && bit (s.reg 0xC00000) 15

/-- A clock window of chain port `p`, or of the TWIN port (entry 2), ends. -/
def State.portWindow (s : State) (p count : Nat) : State :=
  let s := s.modPort p fun x => { x with good := goodRun x.good count, bad := badRun x.bad count }
  let x := s.port p
  if x.clkOk && x.bad == 2 then
    let s := s.modPort p fun x => { x with clkOk := false }
    if p == 2 then (s.modMgmt fun m => { m with twinUp := false, goodRun := 0 }).loseSync else s.portOff p
  else if !x.clkOk && x.good == 16 then
    let s := s.modPort p fun x => { x with clkOk := true }
    if p == 2 then s.modMgmt fun m => { m with twinUp := true } else s
  else s

/-- CLOCK_WINDOW_END: a 4 µs count window of a forwarded clock ends (R55). -/
def execClockWindowEnd (clk : ClockSel) (count : Nat) (s : State) : Host.Outcome State Fault Refusal :=
  .next (match clk with
    | .ingest g => s.groupWindow g count
    | .chain p => if (s.port p).st == .off then s else s.portWindow p count
    | .twin => if s.twinEn && s.chainOut then s.portWindow 2 count else s)

/-! ### The address table (R314, R323, R324) -/

def State.addrEnt (s : State) (a : Nat) : AddrEnt := getT {} s.mgmt.table a
def State.setAddr (s : State) (a : Nat) (e : AddrEnt) : State :=
  s.modMgmt fun m => { m with table := setT {} m.table a e, tableNew := true }

/-- An entry as four words (R323). -/
def AddrEnt.words (e : AddrEnt) (a : Nat) : List Nat :=
  [ a + bnat e.valid * 2 ^ 7 + bnat e.conf * 2 ^ 8 + e.hopsE.toNat * 2 ^ 16 + e.hopsW.toNat * 2 ^ 24
  , e.id.toNat % 2 ^ 32, e.id.toNat / 2 ^ 32, e.last % 2 ^ 32 ]

/-- The address and entry that four words describe. -/
def addrOfWords (w : List Nat) : Nat × AddrEnt :=
  let g (i : Nat) := w.getD i 0
  (fld (g 0) 6 0,
   { valid := bit (g 0) 7, conf := bit (g 0) 8, id := BitVec.ofNat 64 (g 1 + 2 ^ 32 * g 2), hopsE := BitVec.ofNat 8 (fld (g 0) 23 16),
     hopsW := BitVec.ofNat 8 (fld (g 0) 31 24), last := g 3 })

def State.tableWords (s : State) : List Nat := (List.range 64).flatMap fun a => (s.addrEnt a).words a
def State.validAddrs (s : State) : List Nat := (List.range 64).filter fun a => (s.addrEnt a).valid
def State.freeAddr (s : State) : Option Nat := (List.range 64).find? fun a => !(s.addrEnt a).valid

/-- An entry leaves the table: its package loses its chain locks (R321, R324). -/
def State.dropAddr (s : State) (a : Nat) : State := (s.setAddr a {}).packageLost a

/-- ASSIGN: the address of an identity, to every package. -/
def State.sendAssign (s : State) (id : BitVec 64) (a : Nat) : State :=
  s.broadcast 0x04 0 [id.toNat % 2 ^ 32, id.toNat / 2 ^ 32, a]

/-- The master records an identity at an address and assigns it. -/
def State.assignAddr (s : State) (id : BitVec 64) (a hE hW : Nat) : State :=
  let e : AddrEnt := { valid := true, conf := true, id := id, hopsE := BitVec.ofNat 8 hE, hopsW := BitVec.ofNat 8 hW, last := s.mgmt.cycle % 2 ^ 32 }
  (s.setAddr a e).sendAssign id a

/-- The acting master has an entry of its own, the lowest free address where it has none. -/
def State.ownEntry (s : State) : State :=
  let a := if s.mgmt.addr.toNat < 64 then some s.mgmt.addr.toNat else s.freeAddr
  match a with
  | none => s
  | some a =>
    let s := if s.mgmt.addr.toNat == a then s else s.takeAddr (BitVec.ofNat 7 a)
    (s.modMgmt fun m => { m with master := m.addr }).setAddr a { valid := true, conf := true, id := Config.identity, last := s.mgmt.cycle % 2 ^ 32 }

/-- JOIN at the master: during a re-enumeration it is collected; else WANT where it is free or the identity's, or the
lowest free address; a 65th package receives none. -/
def State.takeJoin (s : State) (want : Nat) (id : BitVec 64) (hE hW : Nat) : State :=
  if s.mgmt.enumOpen then s.modMgmt fun m => { m with reenum := m.reenum.filter (fun e => e.1 != id) ++ [(id, hE, hW)] }
  else
    let wantOk := decide (want < 64) && (!(s.addrEnt want).valid || (s.addrEnt want).id == id)
    let old := s.validAddrs.filter fun a => (s.addrEnt a).id == id && !(wantOk && a == want)
    let s := s.forEach old State.dropAddr
    match (if wantOk then some want else s.freeAddr) with
    | some a => s.assignAddr id a hE hW
    | none => s.modMgmt fun m => { m with tableNew := true }

/-- JOIN received (type 0x03). -/
def execJoin (p : Fin 2) (f : Frame) (s : State) : Host.Outcome State Fault Refusal :=
  .next (s.receive p f false fun s =>
    if !s.mgmt.acting then s
    else s.takeJoin (fld (payloadNat f 0) 6 0) (BitVec.ofNat 64 (payload64 f 1)) (fld (payloadNat f 3) 7 0) (fld (payloadNat f 3) 15 8))

/-- ENUM received (type 0x02): answered with JOIN. -/
def execEnum (p : Fin 2) (f : Frame) (s : State) : Host.Outcome State Fault Refusal := .next (s.receive p f false State.sendJoin)

/-- ASSIGN received (type 0x04): for this identity it sets the address and CHAIN_BKP. -/
def execAssign (p : Fin 2) (f : Frame) (s : State) : Host.Outcome State Fault Refusal :=
  .next (s.receive p f false fun s =>
    if payload64 f 0 == Config.identity.toNat && !s.mgmt.acting then s.takeAddr (BitVec.ofNat 7 (payloadNat f 2)) else s)

/-- TOPO received (type 0x05): up to 15 entries. A package that a full table leaves out posts CHAIN_ADDR with 0x40. -/
def State.takeTopo (s : State) (f : Frame) : State :=
  let s := s.forEach (List.range (f.payload.length / 4)) fun s i =>
    let e := addrOfWords ((f.payload.drop (4 * i)).take 4 |>.map (·.toNat))
    s.modMgmt fun m => { m with table := setT {} m.table e.1 e.2 }
  if s.mgmt.addr == 0x40 && s.validAddrs.length == 64 && !(s.validAddrs.any fun a => (s.addrEnt a).id == Config.identity) then
    s.postEvt 0 0x22 0 15 0 0x40 0x40
  else s

def execTopo (p : Fin 2) (f : Frame) (s : State) : Host.Outcome State Fault Refusal :=
  .next (s.receive p f false fun s => if s.mgmt.acting then s else s.takeTopo f)

/-- The table to every package, in frames of 15 entries. -/
def State.sendTopo (s : State) : State :=
  s.forEach (chunksOf 60 s.tableWords) fun s ws => s.broadcast 0x05 1 ws

/-! ### Beacons (R313, R317, R323) -/

/-- The hops that a BEACON copy has come, by the ring it came on; a copy turned around at a break is no path (R316). -/
def State.recordHops (s : State) (f : Frame) : State :=
  let n := if s.seenBefore f then s.mgmt.beacons else s.mgmt.beacons + 1
  let h := some (n, 129 - f.hops.toNat)
  s.modMgmt fun m =>
    { m with beacons := n, hopE := if f.wrapped || f.westward then m.hopE else h, hopW := if f.wrapped || !f.westward then m.hopW else h }

/-- MASTER_CHANGE: master and epoch. -/
def State.postMaster (s : State) : State := s.postEvt 0 0x23 0 15 0 s.mgmt.master.toNat s.mgmt.epoch.toNat

/-- What a BEACON tells a package that does not act: of two masters within one management cycle it follows the higher
epoch, or the lower address. -/
def State.takeBeacon (s : State) (f : Frame) : State :=
  let master := BitVec.ofNat 7 (fld (payloadNat f 0) 6 0)
  let epoch := BitVec.ofNat 16 (fld (payloadNat f 0) 31 16)
  let m := s.mgmt
  let changed := master != m.master
  let dual := changed && m.master != 0x40 && decide (s.now < m.lastBeacon + 1250000)
  let s := if dual then s.postEvt 0 0x25 0 15 0 master.toNat epoch.toNat else s
  if dual && !(decide (m.epoch.toNat < epoch.toNat) || (m.epoch == epoch && decide (master.toNat < m.master.toNat))) then s
  else
    let w := payloadNat f 1
    let s := s.modMgmt fun m =>
      { m with master := master, epoch := epoch, lastBeacon := s.now, eastEnd := BitVec.ofNat 7 (fld w 6 0),
               westEnd := BitVec.ofNat 7 (fld w 14 8), broken := bit w 15 }
    let s := if changed then (s.postMaster).sendJoin else s
    (s.noteUpstream).reselect

/-- BEACON received (type 0x01). -/
def execBeacon (p : Fin 2) (f : Frame) (s : State) : Host.Outcome State Fault Refusal :=
  .next (if !(s.port p).isUp then s
    else (if f.src == s.mgmt.addr && f.src != 0x40 then s else s.recordHops f).receive p f false fun s =>
      if s.mgmt.acting then s else s.takeBeacon f)

/-- BEACON_LOSS: no BEACON in 3 consecutive management cycles. -/
def execBeaconLoss (s : State) : Host.Outcome State Fault Refusal :=
  .next (if s.mgmt.acting || s.mgmt.master == 0x40 then s
    else
      let s := s.modMgmt fun m => { m with master := 0x40, hopE := none, hopW := none }
      (((s.postMaster).holdSrc 3).noteUpstream).reselect)

/-! ### The management cycle (R313, R320, R324) -/

/-- The ring is broken at the packages that only one of the two rings reaches, or at an own port that is OFF: whether,
EAST_END and WEST_END. -/
def State.breakMap (s : State) : Bool × Nat × Nat :=
  let own := s.mgmt.addr.toNat
  let others := (s.validAddrs.filter (· != own)).map fun a => (a, s.addrEnt a)
  let far (key : AddrEnt → Nat) : Nat := (minBy (fun e => 255 - key e.2) (others.filter fun e => key e.2 != 0)).map (·.1) |>.getD own
  let oneWay := others.any fun e => e.2.hopsE == 0 || e.2.hopsW == 0
  let eastOff := !(s.port 0).isUp
  let westOff := !(s.port 1).isUp
  if eastOff then (true, own, if westOff then own else far fun e => e.hopsW.toNat)
  else if westOff then (true, far fun e => e.hopsE.toNat, own)
  else if oneWay then
    let only (key other : AddrEnt → Nat) : Nat :=
      (minBy (fun e => 255 - key e.2) (others.filter fun e => key e.2 != 0 && other e.2 == 0)).map (·.1) |>.getD own
    (true, only (fun e => e.hopsE.toNat) (fun e => e.hopsW.toNat), only (fun e => e.hopsW.toNat) (fun e => e.hopsE.toNat))
  else (false, 0, 0)

/-- BEACON_SEND. -/
def State.sendBeacon (s : State) : State :=
  let (b, e, w) := s.breakMap
  let s := s.modMgmt fun m => { m with broken := b, eastEnd := BitVec.ofNat 7 e, westEnd := BitVec.ofNat 7 w }
  s.broadcast 0x01 0 [s.mgmt.addr.toNat + s.mgmt.epoch.toNat * 2 ^ 16, e + w * 2 ^ 8 + bnat b * 2 ^ 15]

/-- TABLE_AGING: entries of 3 or more cycles ago leave; the master's own stays. -/
def State.ageTable (s : State) : State :=
  s.forEach (s.validAddrs.filter fun a => a != s.mgmt.addr.toNat && decide (3 ≤ (s.mgmt.cycle + 2 ^ 32 - (s.addrEnt a).last) % 2 ^ 32)) State.dropAddr

/-- A re-enumeration ends: the master takes the first address, the others follow by HOPS_E, and then those that only the
westward ring reaches by HOPS_W. A package that no longer has its address loses its chain locks. -/
def State.finishEnum (s : State) : State :=
  let old := (List.range 64).map fun a => (a, (s.addrEnt a))
  let js := s.mgmt.reenum
  let order := sortBy (fun e => e.2.1) (js.filter fun e => e.2.1 != 0) ++ sortBy (fun e => e.2.2) (js.filter fun e => e.2.1 == 0)
  let cmds := s.mgmt.reenumCmds
  let s := s.modMgmt fun m => { m with enumOpen := false, reenum := [], reenumCmds := [], table := [], tableNew := true }
  let s := (if s.mgmt.addr == 0 then s else s.takeAddr 0).ownEntry
  let s := s.forEach order fun s e => match s.freeAddr with
    | some a => s.assignAddr e.1 a e.2.1 e.2.2
    | none => s
  let s := s.forEach (old.filter fun e => e.2 != {} && !((s.addrEnt e.1).valid && (s.addrEnt e.1).id == e.2.id)) fun s e => s.packageLost e.1
  s.forEach cmds fun s r => s.complete r stOK s.validAddrs.length 0

/-- Locks of rings that were lost are released at the master, which hears of them with FORCE (R298, R321). -/
def State.tellLostRings (s : State) : State :=
  let rs := s.mgmt.lostRings
  let s := s.modMgmt fun m => { m with lostRings := [] }
  s.forEach rs fun s r => s.forEach ((s.locksOf r).filter fun n => decide (992 ≤ n)) fun s n =>
    if s.mgmt.acting then s.releaseChain n 1 else (s.modLock n fun l => { l with holder := none, mark := 0 }).sendLockRel n false true

/-- CHAIN_REENUM (0x48): the table is cleared and ENUM with MODE 1 sent; it ends with the management cycle. -/
def execChainReenum (c : RingCmd) (s : State) : Host.Outcome State Fault Refusal :=
  .next (s.startCmd 0x48 true c fun r s =>
    if !s.mgmt.acting then s.refuse r stConflict noField 0
    else
      let cleared (e : Nat × AddrEnt) : Nat × AddrEnt := (e.1, { e.2 with valid := false })
      (s.modMgmt fun m => { m with enumOpen := true, reenum := [], reenumCmds := m.reenumCmds ++ [r], table := m.table.map cleared }).broadcast
        0x02 0 [1])

/-- CHAIN_TOPO_READ (0x4A). -/
def execChainTopoRead (c : RingCmd) (s : State) : Host.Outcome State Fault Refusal :=
  .next (s.startCmd 0x4A true c fun r s =>
    s.writeRes c r (rows s.tableWords) fun s => s.complete r stOK s.validAddrs.length s.mgmt.epoch.toNat)

end Sys2Proof.Machine
end

