-- ==== Sys2Proof/Machine/Twin.lean ====
section
/-! DEFINITION. The master twin: the state copy, the interlock, who acts as master, the role swap, and the management cycle
of the acting master (R313, R318 to R322, R343). -/
namespace Sys2Proof.Machine

open Sys2Proof

/-- A package of a master pair (STRAP_CHAINROLE 2 or 3). -/
def State.inPair (s : State) : Bool := decide (2 ≤ s.rst.straps.chainRole.toNat)

/-! ### The state copy (Table 12.4) -/

def loopStatWord (s : State) : Nat := loopCode s.time.loop * 2 ^ 30 + s.time.active.getD 7 * 2 ^ 27

/-- REF_STAT_x or PPS_STAT_i of an input. -/
def State.refStatWord (s : State) (x : Nat) : Nat :=
  let r := s.ref x
  if 4 ≤ x then qualCode r.st * 2 ^ 30 + r.fails
  else qualCode r.st * 2 ^ 30 + bnat (s.time.active == some x) * 2 ^ 29 + s.refQl x * 2 ^ 24 + ofSigned 24 r.offset

/-- Seconds of an input's wait to restore that remain. -/
def State.wtrLeft (s : State) (x : Nat) : Nat :=
  let r := s.ref x
  if r.st == .wait then fld (s.refCfg x) 15 0 - (s.now - r.waitAt) / 1250000000 else 0

def State.refEntry (s : State) (x : Nat) : List Nat :=
  [s.refStatWord x, if x < 4 then s.refCfg x else 0, if x < 4 then s.wtrLeft x else 0, ofSigned 32 (s.ref x).offset]

/-- CHAIN stands under the port that is upstream; the other of its two entries is a DISQUALIFIED input. -/
def State.refBlock (s : State) : List Nat :=
  let chain (p : Nat) : List Nat := if s.upstream == some p then s.refEntry 3 else [15 * 2 ^ 24, s.refCfg 3, 0, 0]
  [loopStatWord s, ofSigned 32 s.time.freq, ofSigned 32 s.time.steer, s.advertisedQl]
    ++ s.refEntry 0 ++ s.refEntry 1 ++ s.refEntry 2 ++ chain 0 ++ chain 1 ++ s.refEntry 4 ++ s.refEntry 5

/-- A chain lock as four words (the manual fixes their place and size, not their layout): held, mark and ring; package;
grants; 0. -/
def Lock.words (l : Lock) : List Nat :=
  let h := l.holder.getD 0
  [bnat l.holder.isSome * 2 ^ 31 + l.mark * 2 ^ 16 + h % 65536, h / 65536, l.grants, 0]

def lockOfWords (w : List Nat) : Lock :=
  let g (i : Nat) := w.getD i 0
  { holder := if bit (g 0) 31 then some (chainHolder (g 1) (fld (g 0) 15 0)) else none, mark := fld (g 0) 17 16, grants := g 2 }

def State.copyBody (s : State) : List Byte :=
  let m := s.mgmt
  let c := m.cycle % 2 ^ 48
  rows ([m.epoch.toNat + c % 2 ^ 16 * 2 ^ 16, c / 2 ^ 16, 0, 0] ++ s.tableWords ++ s.domWords 0 ++ s.domWords 1 ++ s.refBlock
    ++ ((List.range 32).flatMap fun i => (s.lock (992 + i)).words)) ++ zeros 304

/-- The words of a stored copy from a byte offset on. -/
def copyWords (body : List Byte) (off n : Nat) : List Nat := (List.range n).map fun i => leAt body (off + 4 * i) 4

/-! ### Who acts (R318, R319, R343) -/

/-- A bench loads the copy it last took: epoch, table, chain locks, UNC and the QL to advertise for 64 s. Locks held are
marked ABANDONED after a loss of the master; with the TWIN link still up the master released them whole (R321, R322). -/
def State.loadCopy (s : State) (body : List Byte) : State :=
  let lost := !s.mgmt.twinUp
  let table := (List.range 64).foldl (fun (t : Tab AddrEnt) i =>
    let e := addrOfWords (copyWords body (0x10 + 16 * i) 4)
    setT {} t e.1 { e.2 with conf := false }) []
  let s := s.modMgmt fun m => { m with table := table, cycle := leAt body 2 6, epoch := BitVec.ofNat 16 (leAt body 0 2) }
  let s := s.forEach (List.range 32) fun s i =>
    let l := lockOfWords (copyWords body (0x4D0 + 16 * i) 4)
    s.modLock (992 + i) fun _ => { l with mark := if lost && l.holder.isSome then 1 else l.mark }
  let s := s.forEach [0, 1] fun s d =>
    let copy := domOfWords (copyWords body (0x410 + 32 * d) 8)
    s.modDom d fun x => { x with unc := max x.unc copy.unc }
  s.modTime fun t => { t with takeover := leAt body 0x45C 4 % 16, takeEnd := t.c + 64 * 1250000000 }

/-- A package starts to act: EPOCH + 1, the copy loaded, BEACON and ENUM at the next cycle. -/
def State.startActing (s : State) : State :=
  let epoch := s.mgmt.epoch
  let s := if s.inPair && !s.mgmt.copyBody.isEmpty then s.loadCopy s.mgmt.copyBody else s
  let s := s.modMgmt fun m =>
    { m with acting := true, holdOut := s.inPair, epoch := (if m.epoch.toNat < epoch.toNat then epoch else m.epoch) + 1, enumDue := true, sync := false, goodRun := 0,
             sinceGood := 0, grantWait := [], copied := 0, swapPhase := 0, beacons := 0 }
  let s := (s.ownEntry).postMaster
  let s := (s.noteUpstream).reselect
  s.forEach s.mgmt.lockWait fun s w => s.sendLockReq w

/-- MASTER_HOLD_FILTER: MASTER_HOLD_IN has been deasserted for 50 µs. A cold start holds a bench's filter for START_WAIT. -/
def State.holdFilter (s : State) : State :=
  let m := s.mgmt
  let s := s.modMgmt fun m => { m with holdIn := false }
  if !s.inPair || !s.chainOut || m.acting || m.sidelined || s.inReset 36 then s
  else if s.rst.straps.chainRole == 3#2 && m.benchHeld then s
  else if m.swap.isSome then s
  else s.startActing

def execMasterHoldFilter (s : State) : Host.Outcome State Fault Refusal := .next s.holdFilter

/-- BENCH_START_WAIT: START_WAIT has elapsed after a cold start. -/
def execBenchStartWait (s : State) : Host.Outcome State Fault Refusal :=
  .next (if s.rst.straps.chainRole == 3#2 && s.chainOut then s.modMgmt fun m => { m with benchHeld := false } else s)

/-- A role swap ends: the signal of the new master is seen and its first good copy has arrived. -/
def State.finishSwap (s : State) : State :=
  match s.mgmt.swap with
  | some r =>
    if s.mgmt.swapPhase == 3 && s.mgmt.holdIn && !s.mgmt.copyBody.isEmpty && s.mgmt.goodRun != 0 then
      (s.modMgmt fun m => { m with swap := none, swapPhase := 0 }).complete r stOK s.mgmt.master.toNat s.mgmt.epoch.toNat
    else s
  | none => s

/-- MASTER_HOLD_IN_ASSERT: the other package drives; in a tie within 1 µs a master-bench releases and stops acting. A
standalone package ignores it. -/
def execMasterHoldInAssert (withinTie : Bool) (s : State) : Host.Outcome State Fault Refusal :=
  .next (if !s.inPair then s
    else
      let s := s.modMgmt fun m => { m with holdIn := true }
      let s := if withinTie && s.mgmt.acting && s.rst.straps.chainRole == 3#2 then s.stopActing else s
      s.finishSwap)

/-! ### Copies taken and acknowledged (R320, R321) -/

/-- A good copy: SYNC after 3 in a row. -/
def State.goodCopy (s : State) : State :=
  let n := satTo 3 (s.mgmt.goodRun + 1)
  let gained := !s.mgmt.sync && n == 3
  let since := s.mgmt.sinceGood
  let s := s.modMgmt fun m => { m with goodRun := n, sinceGood := 0, sync := m.sync || gained }
  if gained then s.postEvt 0 0x26 0 15 0 1 since else s

/-- A copy that is missing or bad. -/
def State.badCopy (s : State) : State :=
  (s.modMgmt fun m => { m with missed := satTo 255 (m.missed + 1), goodRun := 0, sinceGood := m.sinceGood + 1 }).loseSync

/-- STATE_COPY: the bench checks the CRC, returns it and updates SYNC. -/
def execStateCopy (epoch : BitVec 16) (body : List Byte) (crcOk : Bool) (s : State) : Host.Outcome State Fault Refusal :=
  .next (if s.mgmt.acting || !s.twinEn || !s.mgmt.twinUp then s
    else
      let s := s.emit (.twinCrc (BitVec.ofNat 32 (crc32 body)))
      if !crcOk then s.badCopy
      else
        let body := le 2 epoch.toNat ++ body.drop 2
        let s := s.modMgmt fun m => { m with copyBody := body, copies := m.copies + 1 }
        (s.goodCopy).finishSwap)

/-- STATE_COPY_ACK: the CRC that the bench returned. Grants that stood in the copy are sent, and a role swap releases the
signal. -/
def execStateCopyAck (crcOk : Bool) (s : State) : Host.Outcome State Fault Refusal :=
  .next (if !s.mgmt.acting || !s.inPair then s
    else if !crcOk then s.badCopy
    else
      let s := (s.goodCopy).sendGrants s.mgmt.copied
      if s.mgmt.swapPhase == 2 then (s.stopActing).modMgmt fun m => { m with swapPhase := 3, copyBody := [], goodRun := 0, sync := false }
      else s)

/-- MISSING_COPY: no copy, or no acknowledgement, in a management cycle. -/
def execMissingCopy (s : State) : Host.Outcome State Fault Refusal :=
  .next (if s.inPair && (s.mgmt.sync || s.mgmt.twinUp) then s.badCopy else s)

/-! ### Role swap (R322) -/

/-- CHAIN_ROLE_SWAP (0x4B). -/
def execChainRoleSwap (c : RingCmd) (s : State) : Host.Outcome State Fault Refusal :=
  .next (s.startCmd 0x4B true c fun r s =>
    if !s.mgmt.acting || !s.inPair || !s.mgmt.sync || s.mgmt.swap.isSome then s.refuse r stConflict noField 0
    else s.modMgmt fun m => { m with swap := some r, swapPhase := 1 })

/-- ROLE_SWAP_TIMEOUT: not confirmed within 10 ms. The package may act again through its filter. -/
def execRoleSwapTimeout (s : State) : Host.Outcome State Fault Refusal :=
  .next (match s.mgmt.swap with
    | some r => (s.modMgmt fun m => { m with swap := none, swapPhase := 0 }).refuse r stCapacity noField 0
    | none => s)

/-! ### The management cycle of the acting master -/

/-- STATE_COPY_SEND. The copy of a role swap is its last. -/
def State.sendCopy (s : State) : State :=
  if !s.twinEn || !s.mgmt.twinUp then s
  else
    let body := s.copyBody
    (s.emit (.twinCopy (body ++ le32 (crc32 body)))).modMgmt fun m =>
      { m with copies := m.copies + 1, copied := m.grantWait.length, sinceGood := m.sinceGood + 1,
               swapPhase := if m.swapPhase == 1 then 2 else m.swapPhase }

/-- The end of a cycle. -/
def State.endCycle (s : State) : State :=
  let s := s.sendCopy
  if s.mgmt.enumOpen then s.finishEnum else s

/-- The start of the next: BEACON, and ENUM and TOPO where they are due. -/
def State.startCycle (s : State) : State :=
  let s := s.modMgmt fun m => { m with cycle := (m.cycle + 1) % 2 ^ 48 }
  let s := (s.ageTable).sendBeacon
  let s := if s.mgmt.enumDue then (s.modMgmt fun m => { m with enumDue := false }).broadcast 0x02 0 [0] else s
  if s.mgmt.tableNew && !s.mgmt.enumOpen then (s.modMgmt fun m => { m with tableNew := false }).sendTopo else s

/-- A package that no longer acts ends its re-enumerations. -/
def State.dropEnum (s : State) : State :=
  let cmds := s.mgmt.reenumCmds
  s.forEach cmds (fun s r => s.refuse r stConflict noField 0) |>.modMgmt fun m => { m with enumOpen := false, reenum := [], reenumCmds := [] }

/-- MANAGEMENT_CYCLE: one cycle ends and the next begins, on the acting master. -/
def execManagementCycle (s : State) : Host.Outcome State Fault Refusal :=
  .next (if s.inReset 36 then s
    else
      let s := s.tellLostRings
      if s.mgmt.acting then (s.endCycle).startCycle else s.dropEnum)

end Sys2Proof.Machine
end

