-- ==== Sys2Proof/Machine/Setup.lean ====
section
/-! DEFINITION. Global setup in BAR2: register writes, the checks and the application of a commit, and the seal (R16 to R18,
R91, R191, R214, R245, R247, R275, R327, R328, R365, R380, R400). -/
namespace Sys2Proof.Machine

open Sys2Proof

/-! ### Cold values that depend on a strap (R354) -/

/-- The registers whose Cold value depends on a strap, with that value. -/
def State.strapRegs (s : State) : List (Nat × Nat) :=
  let t := s.rst.straps
  let role := t.chainRole.toNat
  let hi := bnat (t.ref == 1#2) * 2 ^ 31
  let refc := if t.ref == 3#2 then 2 ^ 31 + 8 * 2 ^ 24 else hi + 15 * 2 ^ 24
  let refa := if t.ref.toNat < 2 then 4 else 15
  let dom := (if role == 1 then 3 * 2 ^ 30 else 0) + 0x00640A04
  [ (0x100000, 0x20000800 + bnat t.mode4), (0x300004, if t.mode4 then 0x20 else 0x100)
  , (0xC00000, 0xE4031000 + bnat (decide (2 ≤ role)) * 2 ^ 15 + role), (0xD00000, dom), (0xD00004, dom)
  , (0xD00100, hi + refa * 2 ^ 24 + 0x0000000A), (0xD00104, hi + 15 * 2 ^ 24 + 0x0001000A), (0xD00108, refc + 0x0002000A) ]
    ++ if t.safe then (List.range 255).map fun i => (tenReg (i + 1) 0, 0) else []

/-- The Cold value of the word at an offset, with the latched straps. -/
def State.coldOf (s : State) (off : Nat) : Nat :=
  match s.strapRegs.find? fun e => e.1 == off with
  | some e => e.2
  | none => (coldReg off).toNat

/-- Entries of the warm image of a committed table (R365). -/
def State.imageSize (s : State) (t : Tab W32) : Nat :=
  ((dedup (t.map (·.1) ++ s.strapRegs.map (·.1))).filter fun off => (getT (coldReg off) t off).toNat != s.coldOf off).length

/-! ### Register writes (R16, R17, R245, R247, R248) -/

/-- Bits that a BAR2 write changes in a shadow: after the seal none. LOG2F outside 4 to 8 is discarded. -/
def shadowMask (d : RegDesc) (off v : Nat) : Nat :=
  if off == 0x300000 && (decide (fld v 31 28 < 4) || decide (8 < fld v 31 28)) then d.ws % 2 ^ 28 else d.ws

/-- A write of a BAR2 register. -/
def State.writeBar2 (s : State) (off v : Nat) : State :=
  if off == 0xD00140 then s.writeRefLoop v
  else if off == 0xD0014C then s.writeRootSteer v
  else if off == 4 then if bit v 29 then { s with setup := { s.setup with lost := false } } else s
  else if 0x400100 ≤ off && off < 0x400140 && off % 8 == 0 then
    if bit v 22 then s.modStack ((off - 0x400100) / 16) ((off - 0x400100) / 8 % 2) fun x => { x with overtemp := false } else s
  else if 0xB50004 ≤ off && off < 0xB50060 && off % 8 == 4 then
    if bit v 31 then s.modEGroup ((off - 0xB50004) / 8) fun x => { x with frozen := false } else s
  else match findReg off with
    | none => s
    | some d =>
      let s := if d.rw == 0 then s else s.setBoth off (mergeBits d.rw (s.reg off) v)
      if s.setup.sealed || d.ws == 0 then s else s.setShadow off (mergeBits (shadowMask d off v) (s.shadowReg off) v)

/-- A write of a BAR0 register: FN_CFG, TEN_OUTQ, ring registers, and the mask bits of the MSI-X table. -/
def State.writeBar0 (s : State) (fn off v : Nat) : State :=
  if off == 8 then s.modFn fn fun f => { f with evtValidSh := bit v 7, evtQSh := fld v 6 0 }
  else if off == 0x6200 then s.modFn fn fun f => { f with staleValidSh := bit v 7, staleQSh := fld v 6 0 }
  else if 0x1000 ≤ off && off < 0x2000 then
    let w (m : Nat) : W32 := BitVec.ofNat 32 (v &&& m)
    s.modRing fn ((off - 0x1000) / 32) fun r => match off % 32 with
      | 0x00 => { r with sh := { r.sh with baseLo := w 0xFFFFF000 } }
      | 0x04 => { r with sh := { r.sh with baseHi := w 0x000FFFFF } }
      | 0x08 => { r with sh := { r.sh with cfg := w 0xBF1F7F00 } }
      | 0x0C => { r with sh := { r.sh with wbLo := w 0xFFFFFFFC } }
      | 0x10 => { r with sh := { r.sh with wbHi := w 0x000FFFFF } }
      | _ => r
  else if 0x8000 ≤ off && off < 0x8200 && off % 16 == 12 then
    let n := (off - 0x8000) / 16
    if bit v 0 then s.modFn fn fun f => { f with msixMask := if f.msixMask.contains n then f.msixMask else f.msixMask ++ [n] }
    else
      let had := (s.fn fn).msixPend.contains n
      let s := s.modFn fn fun f => { f with msixMask := f.msixMask.filter (· != n), msixPend := f.msixPend.filter (· != n) }
      if had then s.emit (.msix fn n) else s
  else s

/-- REGISTER_WRITE: an aligned 32-bit write; any other is discarded. Before READY only the boot window takes writes, with
host load (R358, R359). Doorbells are commands of their own. -/
def State.registerWrite (s : State) (fn : Nat) (bar : Bar) (off size v : Nat) : State :=
  if size != 4 || off % 4 != 0 || !s.fnExists fn then s
  else match bar with
    | .bar4 => s
    | .bar0 => if s.ready && decide (off < 0x10000) then s.writeBar0 fn off v else s
    | .bar2 =>
      if fn != 0 then s
      else if 0xE10000 ≤ off && off < 0xE20000 then
        if s.rst.power == .starting && s.rst.straps.boot == 1#2 && decide (5 ≤ s.rst.released) then
          s.modRst fun r => { r with bootWin := setRun 0 r.bootWin (off - 0xE10000) (le32 v) }
        else s
      else s.bar2Write fun s => s.writeBar2 off v

def execRegisterWrite (fn : Fin 256) (bar : Bar) (off size : Nat) (v : W32) (s : State) : Host.Outcome State Fault Refusal :=
  .next (s.registerWrite fn bar off size v.toNat)

/-! ### The checks of a commit -/

/-- A refusal of a commit: status, CLASS and the two offsets. -/
structure Conflict where
  st  : Nat := stConflict
  cls : Nat := 7
  a   : Nat := 0
  b   : Nat := 0
deriving DecidableEq, Repr

def conflictIf (p : Bool) (cls a b : Nat) : Option Conflict := if p then some { cls := cls, a := a, b := b } else none

/-- Field values that a commit refuses. -/
def State.fieldConflicts (s : State) : List (Option Conflict) :=
  let f (off hi lo : Nat) : Nat := fld (s.shadowReg off) hi lo
  let out (v lo hi : Nat) : Bool := decide (v < lo) || decide (hi < v)
  [ conflictIf (f 0x300000 23 22 == 3 || decide (6 < f 0x300000 21 18)) 7 0x300000 0
  , conflictIf (decide (f 0x300008 31 24 < f 0x300008 23 16)) 7 0x300008 0
  , conflictIf (out (f 0x400000 7 0) 1 95) 7 0x400000 0
  , conflictIf (decide (16 < f 0x500000 28 24) && f 0x500000 28 24 != 31 || f 0x500000 13 8 == 0) 7 0x500000 0
  , conflictIf (decide (f 0x600000 31 24 < 2) || out (f 0x600000 15 8) 1 100) 7 0x600000 0
  , conflictIf (f 0x700000 15 0 == 0) 7 0x700000 0
  , conflictIf (out (f 0xA00000 6 0) 1 100) 7 0xA00000 0 ]
    ++ ((List.range 12).map fun g => conflictIf (f (0xB50000 + 8 * g) 15 0 == 0) 7 (0xB50000 + 8 * g) 0)
    ++ [ conflictIf (out (f 0xE00010 23 16) 5 80) 7 0xE00010 0
       , conflictIf (out (f 0xE00018 15 8) 10 80 || out (f 0xE00018 7 0) 10 40) 7 0xE00018 0
       , conflictIf ((List.range 8).any fun i => f 0xF00000 (2 * i + 1) (2 * i) == 3) 7 0xF00000 0 ]

/-- The regions of one die in units of 64 MiB: the spill region, then the buffered-beam region where it has a size (R91). -/
def State.regionConflicts (s : State) (d : Nat) : List (Option Conflict) :=
  let a := 0x200100 + 8 * d
  let b := 0x400010 + 4 * d
  let base (off : Nat) : Nat := fld (s.shadowReg off) 22 16
  let size (off : Nat) : Nat := fld (s.shadowReg off) 10 0
  let stop (off : Nat) : Nat := 16 * base off + size off
  let placed := size b != 0
  [ conflictIf (decide (1152 < stop a) || decide (71 < base a)) 7 a 0
  , conflictIf (base a == 0 && size a != 0) 4 a 0
  , conflictIf (placed && (decide (1152 < stop b) || decide (71 < base b) || base b == 0)) 7 b 0
  , conflictIf (placed && decide (16 * base a < stop b) && decide (16 * base b < stop a)) 4 a b ]

/-- A quota whose sum over the tenants passes its limit, named at the lowest tenant whose value changes (R275). -/
def State.sumConflict (s : State) (off : Nat → Nat) (hi lo limit : Nat) : Option Conflict :=
  let new (t : Nat) : Nat := fld (s.shadowReg (off t)) hi lo
  let changed (t : Nat) : Bool := new t != fld (s.reg (off t)) hi lo
  if limit < sumN ((List.range 256).map new) then some { cls := 6, a := ((List.range 256).find? changed).elim 0 off } else none

/-- A GROUP channel whose page or line its tenant does not own in the group (R268). -/
def State.groupConflict (s : State) (c : Nat) : Option Conflict :=
  let w := s.shadowReg (0x20000 + 8 * c)
  let g := fld w 29 26
  let n := fld w 25 20
  let owned (off : Nat) : Bool := ownerOf (s.shadowReg off) == some (fld w 7 0)
  let page := 0x900200 + 4 * (32 * g + fld (s.shadowReg (0x20100 + 4 * c)) 4 0)
  let ok := decide (g < 12) && decide (n < 48) && owned page && owned (0x902000 + 4 * (48 * g + n))
  conflictIf (bit w 31 && bit w 30 && !ok) 3 (0x20000 + 8 * c) (0x20100 + 4 * c)

/-- A lane group of die `d` that the shadows enable: the register that enables it. -/
def State.laneOn (s : State) (d : Nat) : Option Nat :=
  let in0 := (List.range 9).any fun i => decide (9 * d + i < 32) && bit (s.shadowReg 0x200000) (9 * d + i)
  let in1 := ((List.range 9).any fun i => decide (32 ≤ 9 * d + i) && bit (s.shadowReg 0x200004) (9 * d + i - 32))
    || bit (s.shadowReg 0x200004) (8 + 2 * d) || bit (s.shadowReg 0x200004) (9 + 2 * d)
  if in0 then some 0x200000 else if in1 then some 0x200004 else none

/-- Resources claimed twice (R327, R380). -/
def State.claimConflicts (s : State) : List (Option Conflict) :=
  let mfp := s.shadowReg 0xF00000
  let chain := s.shadowReg 0xC00000
  [ conflictIf (bit mfp 17 && fld mfp 7 6 == 2) 1 0xF00000 0
  , conflictIf (bit (s.reg 0xE00024) 2 && fld mfp 15 14 == 2) 2 0xE00024 0xF00000 ]
    ++ ((List.range 4).map fun d => if bit (s.shadowReg 0xE00014) d then none else (s.laneOn d).map fun a => { cls := 5, a := a, b := 0xE00014 })
    ++ [conflictIf (bit chain 15 && fld chain 14 13 != 0) 5 0xC00000 0]

/-- The committed table after a commit of everything but the registers of ARB_COMMIT. -/
def State.committed (s : State) : Tab W32 :=
  s.touched.foldl (fun t off => if (findReg off).any (·.arb) then t else setT (coldReg off) t off (getT (coldReg off) s.shadow off)) s.comm

/-- The first conflict of a commit. -/
def State.commitConflict (s : State) : Option Conflict :=
  let sums := [s.sumConflict (fun t => tenReg t 4) 9 0 512, s.sumConflict (fun t => tenReg t 4) 24 16 256,
               s.sumConflict (fun t => 0xA00100 + 4 * t) 7 0 128]
  let size := if 8190 < s.imageSize s.committed then some { st := stCapacity, cls := 3 } else none
  (s.fieldConflicts ++ (List.range 4).flatMap s.regionConflicts ++ sums ++ (List.range 32).map s.groupConflict ++ s.claimConflicts
    ++ [size]).findSome? id

/-! ### What an applied commit changes -/

/-- Engines, pages and lines whose owner changes (R191, R214, R216). -/
def State.changeOwners (s : State) (old : State) : State :=
  let s := s.forEach ((List.range 96).filter fun e => s.engOwner e != old.engOwner e) fun s e =>
    (s.releaseBinding e).modEng e fun _ => { st := if (s.engOwner e).isSome then .halted else .reset }
  let s := s.forEach ((List.range 384).filter fun i => s.pageOwner (i / 32) (i % 32) != old.pageOwner (i / 32) (i % 32)) fun s i =>
    s.modEGroup (i / 32) fun x => { x with mem := clearRun x.mem (65536 * (i % 32)) 65536 }
  s.forEach ((List.range 576).filter fun i => s.lineOwner (i / 48) (i % 48) != old.lineOwner (i / 48) (i % 48)) fun s i =>
    s.forEach (groupEngines (i / 48)) fun s e => s.modEng e fun x => { x with pend := x.pend &&& ~~~(BitVec.ofNat 64 (2 ^ (i % 48))) }

/-- Chain ports and the TWIN port follow CHAIN_CFG (R307, R328). -/
def State.followChainCfg (s : State) (old : State) : State :=
  let s := s.forEach [0, 1] fun s p =>
    if !s.portUsable p && (s.port p).st != .off then
      if (s.port p).isUp then s.portOff p else (s.modPort p fun x => { x with st := .off, clkOk := false }).sideline
    else s
  let s := s.forEach [0, 1] fun s p => if old.underTest p && !s.underTest p then s.trainPort p false else s
  if old.twinEn && !s.twinEn then
    ((s.modPort 2 fun _ => {}).modMgmt fun m => { m with twinUp := false, goodRun := 0 }).loseSync
  else s

/-- Time domains follow their source, and reference selection its settings (R342, R344, R347, R400). -/
def State.followTimeCfg (s : State) (old : State) : State :=
  let s := s.forEach [0, 1] fun s i => if old.ppsOn i && !s.ppsOn i then
    (s.refFail (4 + i)).modRef (4 + i) fun r => { r with cap := 0, capped := false } else s
  let s := s.forEach [0, 1] fun s d =>
    let src := s.domSrc d
    if old.domSrc d == src then s
    else if src == 0 || (src == 3 && s.mgmt.acting) then s.leaveHold d
    else if src == 3 then if s.upstream.isNone then s.enterHold d else s
    else if (s.ref (3 + src)).st == .qualified then s.leaveHold d else s.enterHold d
  s.reselect

/-- Dies enabled or disabled before the seal (R369): one that is enabled joins when its self-test has ended. -/
def State.followDieEnable (s : State) : State :=
  s.forEach (List.range 4) fun s d =>
    let on := bit (s.reg 0xE00014) d
    if on && !(s.die d).enabled then s.modDie d fun y => { y with enabled := true, dieReady := false }
    else if !on && (s.die d).enabled then s.dieOff d else s

/-- A change of the sample format or of F ends what the channelisers have gathered in the old one. -/
def State.followFormat (s : State) (old : State) : State :=
  if s.mode4 == old.mode4 && s.log2F == old.log2F then s
  else s.forEach (List.range 4) fun s d => s.modDie d fun y =>
    { y with coarse := [], direct := [], stats := [], srcSat := [], thr := [], gains := [], requantTo := 0 }

/-- Every shadow takes effect together. -/
def State.applyCommit (s : State) : State :=
  let old := s
  let s : State := { s with comm := s.committed }
  let s := ((s.followFormat old).changeOwners old).followDieEnable
  let s := (s.followLaneEn).modeFollow none
  ((s.followChainCfg old).followTimeCfg old).writeWarmImage

/-- SETUP_COMMIT: BUSY is set, every shadow checked, and all applied or none; SETUP_COMMIT_DONE shows the result. -/
def State.setupCommit (s : State) : State :=
  if s.setup.sealed then { s with setup := { s.setup with last := BitVec.ofNat 8 stSealed } }
  else
    let show_ (c : Conflict) : Byte × Byte × BitVec 24 × BitVec 24 :=
      (BitVec.ofNat 8 c.st, BitVec.ofNat 8 c.cls, BitVec.ofNat 24 c.a, BitVec.ofNat 24 c.b)
    match s.commitConflict with
    | some c => { s with setup := { s.setup with busy := true, result := some (show_ c) } }
    | none =>
      let s := s.applyCommit
      { s with setup := { s.setup with busy := true, result := some (show_ { st := stOK, cls := 0 }) } }

def execSetupCommit (s : State) : Host.Outcome State Fault Refusal := .next (s.bar2Write State.setupCommit)

/-- SETUP_COMMIT_DONE: within 1 ms BUSY clears and LAST and the conflict registers show the result. -/
def execSetupCommitDone (s : State) : Host.Outcome State Fault Refusal :=
  .next (match s.setup.result with
    | none => s
    | some (st, cls, a, b) =>
      { s with setup := { s.setup with busy := false, result := none, last := st, confClass := cls, confA := a, confB := b } })

/-- SETUP_SEAL: refused while a shadow is pending (R247). -/
def State.setupSeal (s : State) : State :=
  if s.setup.sealed then { s with setup := { s.setup with last := BitVec.ofNat 8 stSealed } }
  else match s.lowestPending with
    | some off =>
      { s with setup := { s.setup with last := BitVec.ofNat 8 stConflict, confClass := 8, confA := BitVec.ofNat 24 off, confB := 0 } }
    | none =>
      let s := s.forEach (List.range 4) fun s d => s.modDie d fun y => { y with gainOnce := false }
      { s with setup := { s.setup with sealed := true, last := 0, confClass := 0, confA := 0, confB := 0, sealCtr := s.time.highCtr } }

def execSetupSeal (s : State) : Host.Outcome State Fault Refusal := .next (s.bar2Write State.setupSeal)

end Sys2Proof.Machine
end

