-- ==== Sys2Proof/Machine/Start.lean ====
section
/-! DEFINITION. Starts: the reset sources, what a start clears and keeps, the release of the domains, the boot image, and
READY (R31, R227, R231, R298, R329, R354 to R365, R368). -/
namespace Sys2Proof.Machine

open Sys2Proof

/-! ### What a start keeps (R14, R356) -/

/-- Offsets of the backup registers that software writes: SLEEP_CFG and BKP_HOST_i (Table 14.5). -/
def isBackup (off : Nat) : Bool := off == 0xE00020 || (decide (0xE00040 ≤ off) && decide (off < 0xE00060))

def backups (t : Tab W32) : Tab W32 := t.filter fun e => isBackup e.1

/-- CHAIN_BKP outlives every start but a power-on; the level of MASTER_HOLD_IN is the pin's (R314, R319). -/
def Mgmt.restarted (m : Mgmt) (cold power : Bool) : Mgmt :=
  let a : BitVec 7 := if m.bkpValid && !power then m.bkpAddr else 0x40
  { addr := a, bkpValid := m.bkpValid && !power, bkpAddr := a, benchHeld := cold, holdIn := m.holdIn }

/-- A warm start keeps C, the domains, the loop and the quality levels; the inputs qualify again. -/
def State.timeKept (s : State) : Time :=
  let t := s.time
  let keep (d : Nat) : Dom := { s.dom d with hold := false, unc := s.domUnc d }
  { c := t.c, running := t.running, entryC := t.entryC, aoCount := t.aoCount, doms := setT {} (setT {} [] 0 (keep 0)) 1 (keep 1),
    loop := t.loop, active := t.active, steer := t.steer, steered := t.steered, freq := t.freq, upQl := t.upQl }

/-- A lock held at a warm start is released and marked ABANDONED; other marks stay (R298). -/
def Lock.restarted (l : Lock) : Lock := { mark := if l.holder.isSome then 1 else l.mark }

/-- RSNAP_q: the indices of a function's rings as they stand (R368). -/
def State.snapshot (s : State) (t : Nat) : Fn :=
  { rsnap := ((s.fnRings t).filter fun e => e.2.state != .off).map fun e => (e.1, some (if e.2.kind == 0 then e.2.c else e.2.p, e.2.tail)) }

/-! ### The beginning of a start (R355, R356, R360, R361) -/

/-- A start begins: everything is reset but what the start keeps. An interrupted start counts in REPEAT, and a cold one
makes the next cold; the start that STUCK waits for counts afresh. -/
def State.restart (s : State) (source : Nat) (warm : Bool) (wake : Nat) (thermal : Bool) : State :=
  let r := s.rst
  let power := source == 0
  let warm := warm && !(r.power == .starting && !r.warm)
  let rept := if power || r.power == .stuck then 0 else if r.power == .starting then satTo 15 (r.rept + 1) else r.rept
  let off := source < 2 || !r.powerGood
  let snap := warm && source != 8
  let rst : Rst :=
    { power := if off then .off else .starting, powerGood := r.powerGood && decide (2 ≤ source), resetLow := r.resetLow, straps := r.straps,
      strapBad := r.strapBad, source := source, warm := warm, wake := wake, thermal := thermal, rept := rept,
      held := if power then 0 else r.held, warmSlot := r.warmSlot, warmImg := r.warmImg, imageSet := r.imageSet && !power,
      digest := r.digest && decide (2 ≤ source), retained := if power then [] else r.retained, faultLog := r.faultLog, logCount := r.logCount,
      bleed := r.bleed, repair := r.repair, gpioIn := r.gpioIn }
  let s' : State :=
    { State.reset with comm := if power then [] else if warm then s.comm else backups s.comm, numVfs := s.numVfs,
                       fns := if snap then (s.rings.map (·.1 / 128)).foldl (fun t k => setT {} t k (s.snapshot k)) [] else [],
                       hbmStacks := if warm then (s.hbmStacks.map fun e => (e.1, ({ overtemp := e.2.overtemp } : Stack))).filter fun e => e.2 != {} else [],
                       locks := if warm then (s.locks.map fun e => (e.1, e.2.restarted)).filter fun e => e.2 != {} else [],
                       mgmt := s.mgmt.restarted (!warm) power, time := if warm then s.timeKept else {}, rst := rst, out := s.out,
                       free := s.free, pending := s.pending }
  let s' : State := { s' with shadow := s'.comm }
  s'.faultRec (.start source warm)

/-- A reset source; one that arrives during a pulse of the NV store, other than power-on, waits for its end (R363). -/
def State.resetBy (s : State) (source : Nat) (warm : Bool) (thermal : Bool) : State :=
  if s.rst.nvfsBusy && source != 0 then
    s.modRst fun r => { r with delayed := match r.delayed with
      | some (src, w, th) => some (if w && !warm then source else src, w && warm, th || thermal)
      | none => some (source, warm, thermal) }
  else s.restart source warm 0 thermal

/-- The device runs a start or works: a warm source can arrive. STUCK waits for a pin or power-on start (R361). -/
def State.running (s : State) : Bool := (s.rst.power == .starting || s.ready) && !s.rst.resetLow

/-- A software warm start (R246, R381, R383). -/
def State.softStart (s : State) : State := if s.running then s.resetBy 4 true false else s

/-- POWER_ON: VSTBY below its threshold. -/
def execPowerOn (s : State) : Host.Outcome State Fault Refusal := .next (s.restart 0 false 0 false)

/-- BROWN_OUT: a main rail below its threshold for 2 µs; the rails of a sleeping device are off by intent. -/
def execBrownOut (s : State) : Host.Outcome State Fault Refusal :=
  .next (if s.running || s.rst.resetLow then s.resetBy 1 false false else s)

/-- PIN_RESET: RESET_N has been low for 1.05 µs. -/
def execPinReset (s : State) : Host.Outcome State Fault Refusal :=
  .next (if s.rst.power == .off && !s.rst.resetLow then s.modRst fun r => { r with resetLow := true }
    else if s.rst.resetLow then s
    else (s.modRst fun r => { r with resetLow := true }).resetBy 2 false false)

/-- WATCHDOG_EXPIRY: not fed for 100 ms. -/
def execWatchdogExpiry (s : State) : Host.Outcome State Fault Refusal :=
  .next (if s.running && decide (4 ≤ s.rst.released) then s.resetBy 3 true false else s)

/-- DEBUG_RESET: the JTAG reset instruction. -/
def execDebugReset (s : State) : Host.Outcome State Fault Refusal := .next (if s.running then s.resetBy 5 true false else s)

/-- CLOCK_FAILURE: the root synthesiser unlocked for more than 100 µs. -/
def execClockFailure (s : State) : Host.Outcome State Fault Refusal :=
  .next (if s.running && decide (3 ≤ s.rst.released) then s.resetBy 6 true false else s)

/-- LOCKUP: no instruction retired for 10 ms, or a fabric request without response for 50 ms. -/
def execLockup (s : State) : Host.Outcome State Fault Refusal :=
  .next (if s.running && decide (4 ≤ s.rst.released) then s.resetBy 7 true false else s)

/-- SOFT_RESET (0x58): no completion. -/
def execSoftReset (c : RingCmd) (s : State) : Host.Outcome State Fault Refusal := .next (s.startCmd 0x58 true c fun _ s => s.softStart)

/-- PCIE_HOT_RESET. -/
def execPcieHotReset (s : State) : Host.Outcome State Fault Refusal := .next s.softStart

/-- NVFS_PULSE_END: a reset that the pulse delayed takes effect. -/
def execNvfsPulseEnd (s : State) : Host.Outcome State Fault Refusal :=
  .next (let s := s.modRst fun r => { r with nvfsBusy := false }
    match s.rst.delayed with
    | some (source, warm, th) => s.restart source warm 0 th
    | none => s)

/-! ### Straps and supplies (R354, R360, R362, R371, R376) -/

/-- The straps are latched: a reserved encoding takes its fallback and sets STRAP_BAD. -/
def State.latchStraps (s : State) (t : Straps) : State :=
  let bad := t.boot == 3#2 || t.hostLanes == 3#2
  let t : Straps := { t with boot := if t.boot == 3#2 then 0 else t.boot, hostLanes := if t.hostLanes == 3#2 then 2 else t.hostLanes }
  s.modRst fun r => { r with straps := t, strapBad := bad }

/-- PWR_GOOD_RISE: after a power-on or brown-out the straps are sampled and the start begins; a woken device starts warm. -/
def execPwrGoodRise (straps : Straps) (s : State) : Host.Outcome State Fault Refusal :=
  .next (if s.rst.powerGood then s
    else
      let s := s.modRst fun r => { r with powerGood := true, bleed := false }
      if s.rst.power == .off then
        let s := if s.rst.source < 2 then s.latchStraps straps else s
        s.modRst fun r => { r with power := .starting }
      else if s.rst.power == .asleep && s.rst.sleep == .waking then s.restart 8 true s.rst.wake false
      else s)

/-- PWR_GOOD_FALL: with a core rail below 90 % the bleed path is connected. -/
def execPwrGoodFall (coreBelow90 : Bool) (s : State) : Host.Outcome State Fault Refusal :=
  .next (s.modRst fun r => { r with powerGood := false, bleed := coreBelow90 })

/-- AO_CLK cycles of 32,768 Hz in a count of MGMT_CLK cycles. -/
def aoCycles (ticks : Nat) : Nat := ticks * 32768 / 250000000

/-- RESET_N_RELEASE: the straps of a pin start are sampled, and the sequence leaves step 1. -/
def execResetNRelease (straps : Straps) (s : State) : Host.Outcome State Fault Refusal :=
  .next (if !s.rst.resetLow then s
    else
      let held := satTo 0xFFFFFFFF (aoCycles s.time.aoCount)
      let s := if s.rst.source == 2 then s.latchStraps straps else s
      (s.modTime fun t => { t with aoCount := 0 }).modRst fun r => { r with resetLow := false, held := BitVec.ofNat 32 held })

/-- PERST_N: the host port is reset; the MSI-X masks and pending bits go with it. -/
def execPerstN (s : State) : Host.Outcome State Fault Refusal :=
  .next (s.forEach (s.fns.map (·.1)) fun s t => s.modFn t fun f => { f with msixMask := [], msixPend := [] })

/-! ### The release of the domains (R357 to R359, R361) -/

/-- The image comes from the host or the chain, and its step 4 has not ended: steps 5 and 6 go out of turn (R359). -/
def State.earlyBoot (s : State) : Bool := s.rst.straps.boot != 0#2 && !s.rst.workDone.contains 4

/-- Domain n may be released: the one before it has been, a domain marked "waits" after its work. -/
def State.mayRelease (s : State) (n : Nat) : Bool :=
  s.rst.power == .starting && s.rst.delayed.isNone && n == s.rst.released + 1 && (n == 1 || !s.rst.resetLow)
    && (n != 4 || s.rst.workDone.contains 3) && (n != 5 || s.rst.workDone.contains 4 || s.earlyBoot)
    && (n != 7 || s.rst.workDone.contains 4) && (n != 8 || s.rst.workDone.contains 7)

/-- C at the release of the clock root: from 0 after a cold start; after sleep from C_entry on by the AO_CLK cycles counted,
with every domain less certain and those of another source in holdover (R329). -/
def State.releaseClock (s : State) : State :=
  if s.rst.source == 8 then
    let n := aoCycles s.time.aoCount
    let c := s.time.entryC + (rneDiv ((n : Int) * 1250000000) 32768).toNat
    let s := s.modTime fun t => { t with c := c, running := true, aoCount := 0 }
    s.forEach [0, 1] fun s d =>
      let s := s.modDom d fun x => { x with unc := satTo 0xFFFF (x.unc + 20000 * n / 32768 + 31000) }
      if s.domSrc d != 0 then s.enterHold d else s
  else s.modTime fun t => { t with running := true }

/-- The fault records that wait go to the NVFS log before the host interface is released (R365). -/
def State.writeFaultLog (s : State) : State :=
  s.modRst fun r =>
    let l := r.faultLog ++ r.retained
    { r with faultLog := l.drop (l.length - 1024), logCount := r.logCount + r.retained.length, retained := [] }

/-- The chain ports train; a standalone package starts to act (R318). -/
def State.releasePorts (s : State) : State :=
  let s := (s.forEach [0, 1] fun s p => s.trainPort p false).sideline
  if s.rst.straps.chainRole == 0#2 && !s.mgmt.sidelined then s.startActing else s

/-- What the release of domain n does. -/
def State.releaseDomain (s : State) (n : Nat) : State :=
  match n with
  | 3 => s.releaseClock
  | 5 => if 3 ≤ s.rst.rept then s.modRst fun r => { r with power := .stuck } else s
  | 6 => s.releasePorts
  | 8 => s.followLaneEn
  | 12 => s.forEach ((List.range 96).filter fun e => (s.engOwner e).isSome) fun s e => s.modEng e fun x => { x with st := .halted }
  | _ => s

/-- DOMAIN_RELEASE. -/
def execDomainRelease (n : Fin 14) (s : State) : Host.Outcome State Fault Refusal :=
  .next (if s.mayRelease n && n != 0 then
      let s := if n == 5 then s.writeFaultLog else s
      (s.modRst fun r => { r with released := n }).releaseDomain n
    else s)

/-! ### The work of the domains -/

/-- Registers at their Cold values, with the latched straps and the backup registers. -/
def State.configCold (s : State) : State :=
  let s : State := { s with comm := backups s.comm, shadow := backups s.comm }
  s.forEach s.strapRegs fun s e => s.setBoth e.1 e.2

/-- Retained state that fails its check is treated as after a power-on. -/
def State.forgetRetained (s : State) : State :=
  let s : State := { s with comm := [], shadow := [] }
  let s := s.modMgmt fun m => { m with bkpValid := false, bkpAddr := 0x40, addr := 0x40 }
  s.modRst fun r => { r with retained := [], digest := false, imageSet := false, held := 0 }

/-- The work of the management core: NV configuration, or the warm image where its CRC holds (R356, R365). -/
def State.configure (s : State) (r : WorkResult) : State :=
  let s := if s.rst.warm && !r.retainedOk then s.forgetRetained else s
  let s :=
    if s.rst.warm && s.rst.imageSet && r.imageOk then
      let t := backups s.comm ++ s.rst.warmImg.filter fun e => !isBackup e.1
      let t : Tab W32 := t.foldl (fun t e => setT (coldReg e.1) t e.1 e.2) []
      ({ s with comm := t, shadow := t } : State).modRst fun x => { x with image := true }
    else
      let s := s.configCold
      if s.rst.warm then s.faultRec .warmImage else s
  s.forEach (List.range 4) fun s d =>
    let on := bit (s.reg 0xE00014) d
    s.modDie d fun y => { y with enabled := on, dieReady := on }

/-- The active tiles of region r of die d: those of the factory map that are healthy, and for each other one a healthy
inactive tile of the region, where one exists (R31). -/
def State.regionMap (s : State) (d r : Nat) (failed : List (Nat × Nat × Nat)) : BitVec 56 :=
  let base := (Config.factoryMap d r).toNat
  let bad (i : Nat) : Bool := failed.contains (d, r, i) || s.rst.repair.contains (d, r, i)
  let on := bitsOf 56 base
  let spare := ((List.range 56).filter fun i => !on.contains i && !bad i).take (on.filter bad).length
  BitVec.ofNat 56 (sumN ((on.filter (fun i => !bad i) ++ spare).map (2 ^ ·)))

def State.mapDie (s : State) (d : Nat) (failed : List (Nat × Nat × Nat)) : State :=
  s.forEach (List.range 4) fun s r =>
    s.modRst fun x => { x with activeMap := setT 0 x.activeMap (4 * d + r) (s.regionMap d r failed) }

/-- Code entries 0 to 15 and profiles 0 to 31 come from the NVFS (R227, R231), the mode from R225. -/
def State.loadTables (s : State) : State :=
  let codes := (List.range 16).map fun i => (i, some (Config.nvCode i))
  let profiles := (List.range 32).map fun i => (i, some (Config.nvProfile i))
  s.modDec fun d => { d with codes := codes, profiles := profiles, trellis := s.wantTrellis 0 }

/-- What the end of the work of domain n brings. -/
def State.endWork (s : State) (n : Nat) (r : WorkResult) : State :=
  match n with
  | 4 => s.configure r
  | 7 => s.modRst fun x => { x with train := !(x.warm && x.digest && r.digestOk), digest := true }
  | 10 => s.forEach (List.range 4) fun s d => s.mapDie d r.failedTiles
  | 13 => (s.loadTables).modRst fun x => { x with power := .ready, rept := 0 }
  | _ => s

/-- A die that DIE_SET enabled has ended its self-test (R369). With none on its way, tiles are entered on the repair list of
the running device (R31). -/
def State.dieWork (s : State) (r : WorkResult) : State :=
  let up := (List.range 4).filter fun d => (s.die d).enabled && !(s.die d).dieReady
  if up.isEmpty then s.modRst fun x => { x with repair := x.repair ++ r.failedTiles.filter fun t => !x.repair.contains t }
  else
    let s := s.forEach up fun s d => (((s.releaseLanes d).mapDie d r.failedTiles).modDie d fun y => { y with dieReady := true }).postDie d 1
    let s := s.modRst fun x => { x with ballast := x.ballast.filter fun d => !up.contains d }
    s.dieSetDone

/-- DOMAIN_WORK_END: the work of a released domain ends; that of the last sets READY. -/
def execDomainWorkEnd (n : Fin 14) (r : WorkResult) (s : State) : Host.Outcome State Fault Refusal :=
  .next (if s.ready && n == 10 then s.dieWork r
    else if s.rst.power != .starting || n == 0 || decide (s.rst.released < n) || s.rst.workDone.contains n.val then s
    else if n == 4 && s.rst.straps.boot == 1#2 && !s.rst.booted then s
    else (s.modRst fun x => { x with workDone := x.workDone ++ [n.val] }).endWork n r)

/-! ### Host-loaded firmware (R359) -/

/-- The image holds at most 64 portions, and its last 4 bytes are the CRC-32 of all before them. -/
def imageGood (parts : Nat) (img : List Byte) : Bool :=
  decide (parts ≤ 64) && decide (4 ≤ img.length) && crc32 (img.take (img.length - 4)) == leAt img (img.length - 4) 4

/-- RST_BOOT_GO: a portion is taken; on the last the image is checked, and started or discarded. -/
def State.bootGo (s : State) (v : Nat) : State :=
  let more := bit v 1
  let n := if more then 65536 else 4 * fld v 31 16
  let s := s.modRst fun r => { r with bootImg := r.bootImg ++ getRun 0 r.bootWin 0 n, bootParts := r.bootParts + 1 }
  if more then s
  else
    let ok := imageGood s.rst.bootParts s.rst.bootImg
    s.modRst fun r => { r with bootImg := [], bootParts := 0, booted := ok, bootBad := !ok }

def execRstBootGo (v : W32) (s : State) : Host.Outcome State Fault Refusal :=
  .next (if s.rst.power == .starting && s.rst.straps.boot == 1#2 && decide (5 ≤ s.rst.released) && !s.rst.booted && bit v.toNat 0 then
    s.bootGo v.toNat else s)

end Sys2Proof.Machine
end

