-- ==== Sys2Proof/Machine/Power.lean ====
section
/-! DEFINITION. Block resets, DIE_SET, the load governor and thermal sensors, protected bands, the fault log, and resets across
the chain (R365, R366, R368, R369, R373 to R375, R378, R381 to R383, R392). -/
namespace Sys2Proof.Machine

open Sys2Proof

/-! ### Block resets (Table 14.7) -/

def State.setBlock (s : State) (b : Nat) (x : Option BlkReset) : State :=
  s.modRst fun r => { r with blocks := setT none r.blocks b x }

/-- t0 of a block reset: the block answers RESETTING from now on. A second request joins the first (R368). -/
def State.beginBlockReset (s : State) (b : Nat) (cmd : Option CmdRef) (remote : Bool) : State :=
  match s.blockReset b with
  | some x => s.setBlock b (some { x with cmds := x.cmds ++ cmd.toList, remote := x.remote || remote })
  | none => (s.setBlock b (some { cmds := cmd.toList, remote := remote })).faultRec (.blockReset b)

/-- BLOCK_RESET (0x59). -/
def execBlockReset (c : RingCmd) (s : State) : Host.Outcome State Fault Refusal :=
  .next (s.startCmd 0x59 true c fun r s =>
    let b := c.arg0.toNat
    if 36 < b then s.refuse r stConflict (argOff 0) 0 else s.beginBlockReset b (some r) false)

/-- The reset is asserted: unfinished requests are answered, and tenants told. -/
def State.assertReset (s : State) (b : Nat) : State :=
  match s.blockReset b with
  | some x => if x.asserted then s else (s.setBlock b (some { x with asserted := true, heldFrom := s.now })).assertBlock b
  | none => s

/-- BLOCK_IDLE. -/
def execBlockIdle (b : Fin 37) (s : State) : Host.Outcome State Fault Refusal := .next (s.assertReset b)

/-- BLOCK_IDLE_TIMEOUT. -/
def execBlockIdleTimeout (b : Fin 37) (s : State) : Host.Outcome State Fault Refusal := .next (s.assertReset b)

/-- A RESET_ACK to the acting master, whose address alias it bears (R309, R383). -/
def State.sendResetAck (s : State) (st : Nat) : State := s.unicast 0x1B 0 0x7E [st]

/-- BLOCK_RESET_RELEASE: the block's counters take their Warm values, and every request of the reset completes with the
MGMT_CLK cycles that it was held. -/
def State.releaseReset (s : State) (b : Nat) : State :=
  match s.blockReset b with
  | some x =>
    if !x.asserted then s
    else
      let s := (s.setBlock b none).releaseBlock b
      let s := s.modRst fun r => { r with resets := satTo 0xFFFF (r.resets + 1) }
      let s := s.forEach x.cmds fun s r => s.complete r stOK ((s.now - x.heldFrom) / 5) x.absorbed
      if x.remote then s.sendResetAck stOK else s
  | none => s

def execBlockResetRelease (b : Fin 37) (s : State) : Host.Outcome State Fault Refusal := .next (s.releaseReset b)

/-! ### DIE_SET (R369) -/

/-- The dies that DIE_ENABLE is to leave enabled: written to it, to the warm image, and aimed at from the next freeze; with no
block running a die goes off at once. A die that is enabled runs its steps of Table 14.4. -/
def State.aimDies (s : State) (m : Nat) : State :=
  let s := (s.setBoth 0xE00014 m).writeWarmImage
  let s := s.forEach ((List.range 4).filter fun d => bit m d && !(s.die d).enabled) fun s d =>
    s.modDie d fun y => { y with enabled := true, dieReady := false }
  let s := s.modGrid fun g => { g with dieTarget := some (BitVec.ofNat 4 m) }
  if s.grid.started then s else s.switchDies

/-- DIE_SET (0x5A). -/
def execDieSet (c : RingCmd) (s : State) : Host.Outcome State Fault Refusal :=
  .next (s.startCmd 0x5A true c fun r s =>
    let m := fld c.arg0.toNat 3 0
    if m == 0 then s.refuse r stConflict (argOff 0) 0
    else ((s.modGrid fun g => { g with dieSetCmds := g.dieSetCmds ++ [r] }).aimDies m).dieSetDone)

/-! ### The load governor and the thermal sensors (R373, R375) -/

def State.gov (s : State) (i : Nat) : Gov := getT {} s.rst.gov i
def State.modGov (s : State) (i : Nat) (f : Gov → Gov) : State := s.modRst fun r => { r with gov := modT {} r.gov i f }

/-- GOV_EXCESS and THERMAL assert SMB_ALERT_N until the register is read (R392). -/
def State.alertGov (s : State) (i ev d1 : Nat) : State := (s.modGov i fun g => { g with alert := true }).postEvt 0 ev 0 15 0 i d1

/-- The steps that count as an excess: above 8 A per µs on a die, above 4 A on the hub, in 0.1 A. -/
def excessLimit (i : Nat) : Nat := if i < 16 then 80 else 40

/-- GOVERNOR_SAMPLE: the current and the step measured. -/
def execGovernorSample (i : Fin 17) (current : BitVec 12) (step : Nat) (s : State) : Host.Outcome State Fault Refusal :=
  .next (let s := s.modGov i fun g => { g with current := current }
    if excessLimit i < step then (s.modGov i fun g => { g with excess := satTo 4095 (g.excess + 1) }).alertGov i 0x30 step else s)

/-- The grade's maximum junction temperature. -/
def gradeMax : Int := if Config.gradeE then 105 else 100

/-- A trip: a die is disabled as by DIE_SET; the hub's is a lock-up start with RST_CAUSE.THERMAL (R369, R375). -/
def State.thermalTrip (s : State) (i : Nat) : State :=
  if i < 16 then
    let m := s.fieldOf 0xE00014 3 0
    if bit m (i / 4) then ((s.alertGov i 0x31 2).faultRec (.thermalTrip i)).aimDies (m - 2 ^ (i / 4)) else s
  else if s.running then ((s.alertGov i 0x31 2).faultRec (.thermalTrip i)).resetBy 7 true true else s

/-- THERMAL_READ: a warning when the reading comes to 10 °C below the maximum, and a trip at the maximum. -/
def execThermalRead (i : Fin 17) (celsius : Int) (s : State) : Host.Outcome State Fault Refusal :=
  .next (let hot := decide (gradeMax - 10 ≤ celsius)
    let was := (s.gov i).warned
    let s := s.modGov i fun g => { g with temp := celsius, warned := hot }
    let s := if hot && !was then s.alertGov i 0x31 1 else s
    if gradeMax ≤ celsius then s.thermalTrip i else s)

/-- GOV_STAT_i (Table 14.14). -/
def Gov.word (g : Gov) : Nat := ofSigned 8 g.temp * 2 ^ 24 + g.current.toNat * 2 ^ 12 + g.excess

/-- HBM_STAT_d_k (Table 3.5). -/
def Stack.word (x : Stack) : Nat := x.temp.toNat * 2 ^ 24 + bnat x.refX2 * 2 ^ 23 + bnat x.overtemp * 2 ^ 22 + x.ue

/-- SMBUS_BLOCK_READ: command codes 0x00 to 0x10 and 0x20 to 0x27; a read of GOV_STAT_i ends its alert (R392). -/
def execSmbusBlockRead (code : Byte) (s : State) : Host.Outcome State Fault Refusal :=
  .next (let n := code.toNat
    if n ≤ 0x10 then (s.emit (.smbus (BitVec.ofNat 32 (s.gov n).word))).modGov n fun g => { g with alert := false }
    else if 0x20 ≤ n && n < 0x28 then s.emit (.smbus (BitVec.ofNat 32 (getT ({} : Stack) s.hbmStacks (n - 0x20)).word))
    else s)

/-! ### SELF_PROTECT and FAULT_LOG_READ (R365, R378) -/

def bandsOf (buf : List Byte) (n : Nat) : List Band := (List.range n).map fun i => { lo := leAt buf (16 * i) 8, hi := leAt buf (16 * i + 8) 8 }

/-- SELF_PROTECT (0x5C): completes once the first choice is made. -/
def execSelfProtect (c : RingCmd) (s : State) : Host.Outcome State Fault Refusal :=
  .next (s.startCmd 0x5C false c fun r s =>
    let n := c.arg0.toNat
    let dest := fld c.arg1.toNat 15 0
    let bands := bandsOf c.buf n
    match checks
      [ failIf (decide (16 < n) || decide (c.buf.length < 16 * n)) stConflict (argOff 0) 0
      , failIf (!s.destOk c.fn dest) stConflict (argOff 1) 0
      , failIf (bands.any fun b => decide (b.hi < b.lo)) stConflict (bufOff (16 * bands.findIdx fun b => decide (b.hi < b.lo))) 0 ] with
    | .error f => s.failWith r f
    | .ok () => s.modFn c.fn fun f => { f with bands := bands, bandDest := some dest, bandsCmds := f.bandsCmds ++ [r] })

/-- FAULT_LOG_READ (0x5D). The manual does not lay out a record: the bytes are free. -/
def execFaultLogRead (c : RingCmd) (s : State) : Host.Outcome State Fault Refusal :=
  .next (s.startCmd 0x5D true c fun r s =>
    s.drawFree.writeRes c r (le 32768 s.freeNat) fun s => s.complete r stOK s.rst.faultLog.length ((s.rst.logCount - 1) % 1024))

/-! ### Resets across the chain (R383) -/

/-- CHAIN_RESET (0x5E): RESET_REQ goes to the named package. -/
def execChainReset (c : RingCmd) (s : State) : Host.Outcome State Fault Refusal :=
  .next (s.startCmd 0x5E true c fun r s =>
    let kind := fld c.arg0.toNat 9 8
    if !s.mgmt.acting then s.refuse r stConflict noField 0
    else if 1 < kind then s.refuse r stConflict (argOff 0) 0
    else
      let w : ResetWait := { cmd := r, dst := fld c.arg0.toNat 6 0, word := kind + satTo 255 c.arg1.toNat * 256 }
      (s.modMgmt fun m => { m with resetWait := m.resetWait ++ [w] }).unicast 0x1A 0 (BitVec.ofNat 7 w.dst) [w.word])

/-- RESET_REQ at its target: it acts only on the acting master's order in the epoch of the last BEACON, with RST_ACCEPT. -/
def State.takeResetReq (s : State) (f : Frame) : State :=
  let kind := fld (payloadNat f 0) 1 0
  let b := fld (payloadNat f 0) 15 8
  let ours := f.src == s.mgmt.master && f.src != 0x40 && f.epoch == s.mgmt.epoch && bit (s.reg 0xC00000) 12
  if !ours || 1 < kind || (kind == 1 && 36 < b) then (s.sendResetAck stConflict).faultRec .resetRefused
  else if kind == 0 then (s.sendResetAck stOK).softStart
  else (s.sendResetAck stOK).beginBlockReset b none true

/-- RESET_REQ received (type 0x1A). -/
def execResetReq (p : Fin 2) (f : Frame) (s : State) : Host.Outcome State Fault Refusal :=
  .next (s.receive p f false fun s => s.takeResetReq f)

/-- RESET_ACK at the master: the first ends a warm start's command, and a refusal any; the second ends a block reset's. -/
def State.takeResetAck (s : State) (f : Frame) : State :=
  let st := fld (payloadNat f 0) 7 0
  match takeFirst (fun w => w.dst == f.src.toNat) s.mgmt.resetWait with
  | none => s
  | some (w, ws) =>
    if w.word % 4 == 1 && !w.acked && st == stOK then
      s.modMgmt fun m => { m with resetWait := mapIf (fun x => x == w) (fun x => { x with acked := true }) m.resetWait }
    else (s.modMgmt fun m => { m with resetWait := ws }).complete w.cmd st st 0

/-- RESET_ACK received (type 0x1B). -/
def execResetAck (p : Fin 2) (f : Frame) (s : State) : Host.Outcome State Fault Refusal :=
  .next (s.receive p f false fun s => s.takeResetAck f)

/-- CHAIN_RESET_TIMEOUT: 3 ms without a RESET_ACK; the request is sent again at most 3 times. -/
def execChainResetTimeout (s : State) : Host.Outcome State Fault Refusal :=
  .next (match takeFirst (fun w => !w.acked) s.mgmt.resetWait with
    | none => s
    | some (w, ws) =>
      if w.tries < 3 then
        let again (x : ResetWait) : ResetWait := { x with tries := x.tries + 1 }
        (s.modMgmt fun m => { m with resetWait := mapIf (fun x => x == w) again m.resetWait }).unicast 0x1A 0 (BitVec.ofNat 7 w.dst) [w.word]
      else (s.modMgmt fun m => { m with resetWait := ws }).refuse w.cmd stCapacity noField 0)

end Sys2Proof.Machine
end

