-- ==== Sys2Proof/Machine/Shot.lean ====
section
/-! DEFINITION. The shot clock of an engine group: armed sources, expiry, snapshot, records and policy (R301 to R303). -/
namespace Sys2Proof.Machine

open Sys2Proof

/-! ### Armed sources (R301) -/

/-- A transfer pulses this line of the group. -/
def Xfer.pulses (x : Xfer) (g n : Nat) : Bool := x.pulse == 2 && x.pgroup == g && x.pline == n

/-- A DMA channel bound to the line has a transfer in progress or a valid GROUP entry queued. -/
def State.dmaArmed (s : State) (g n : Nat) : Bool :=
  (List.range 32).any fun ch =>
    let y := s.dma ch
    let grp := s.dmaValid ch && s.dmaGroupMode ch
    let w (k : Nat) : Nat := s.entryWord ch y.nextEnt k
    let queued := grp && bit (w 0) 31
    let starts := grp && s.dmaGrp ch == g && s.dmaLine ch == n
    (y.cur.any fun x => x.pulses g n || starts) || (queued && ((xferOf w).pulses g n || starts))

/-- A line of group `g` has a source that may still pulse it. -/
def State.lineArmed (s : State) (g n : Nat) : Bool :=
  s.dmaArmed g n
    || (s.chains.any fun e => e.2.group == g && e.2.line == n && (e.2.state == .settling || e.2.state == .run || e.2.state == .burst))
    || s.dec.tasks.any fun t => t.stage == .decode && t.engine / 8 == g && t.line == n

/-- A waiting engine has an armed source. -/
def State.engArmed (s : State) (e : Nat) : Bool :=
  let x := s.eng e
  match x.set.wait with
  | none => false
  | some m => (List.range 48).any (fun n => bit m n && s.lineArmed (e / 8) n) || (bit m 48 && x.tmr != 0) || (bit m 50 && x.pool.isSome)

/-- The engines of a group. -/
def engsOf (g : Nat) : List Nat := (List.range 8).map (8 * g + ·)

/-- The shot clock of the group runs. -/
def State.shotRuns (s : State) (g : Nat) : Bool :=
  let l := (engsOf g).filter fun e => (s.eng e).live
  !l.isEmpty && l.all fun e => (s.eng e).st == .waiting && !s.engArmed e

/-! ### Expiry (R302, R303) -/

def EngState.code (st : EngState) : Nat :=
  match st with
  | .reset => 0 | .halted => 1 | .running => 2 | .waiting => 3 | .stalled => 4 | .fault => 5

/-- ENG_CLK cycles since the engine entered WAITING, in units of 16. -/
def State.waited (s : State) (x : Eng) : Nat := if x.st == .waiting then satTo 0xFFFFFFFF ((s.now - x.waitedAt) * 4 / 80) else 0

/-- An entry of Table 11.7 as words. -/
def State.staleEntry (s : State) (e : Nat) : List Nat :=
  let x := s.eng e
  let m := if x.st == .waiting then x.set.wait.getD 0 else 0
  [x.st.code * 2 ^ 29 + e * 2 ^ 16 + x.pc.toNat, m % 2 ^ 32, m / 2 ^ 32, s.waited x]

/-- The engine that has waited longest, the lower number of equals. -/
def State.oldestWaiter (s : State) (g : Nat) : Option Nat :=
  minBy (fun e => (s.eng e).waitedAt) ((engsOf g).filter fun e => (s.eng e).st == .waiting)

/-- The WAITE completes with d0 = STALEMATE. -/
def Eng.release (x : Eng) : Eng :=
  let y := (x.landTo x.set.cyc).modSet fun r => { r.setD 0 (BitVec.ofNat 24 stStalemate) with wait := none }
  { y with st := .running }

/-- The STALEMATE record and event of one tenant. -/
def State.tellStale (s : State) (g t : Nat) (cfg : Nat) (released : Option Nat) (entries : List (Nat × List Nat)) : State :=
  let mine := entries.filter fun e => s.engOwner e.1 == some t
  let rel := match released with
    | some e => if s.engOwner e == some t then 2 ^ 30 + e * 2 ^ 16 else 0
    | none => 0
  let body := rows [bnat (bit cfg 31) * 2 ^ 31 + rel + mine.length * 2 ^ 12 + g, s.now % 2 ^ 32, s.now / 2 ^ 32 % 2 ^ 32, fld cfg 15 0]
    ++ rows (mine.flatMap (·.2))
  let f := s.fn t
  let s := if f.staleValid then s.emitHub (0x100 + f.staleQ) (s.mkRec 0x0D t g 0 s.highCtr body) else s
  s.postStatus t stStalemate 15 0 g 0

/-- SHOT_CLOCK_EXPIRY of a group. -/
def State.shotExpiry (s : State) (g : Nat) : State :=
  let cfg := s.reg (0xB50000 + 8 * g)
  let entries := (engsOf g).map fun e => (e, s.staleEntry e)
  let released := if bit cfg 31 then s.oldestWaiter g else none
  let tenants := dedup ((engsOf g).filterMap s.engOwner)
  let s := s.modEGroup g fun y =>
    let y : EGroup := if y.frozen then y else { y with snap := entries.flatMap fun e => e.2.map (BitVec.ofNat 32) }
    { y with frozen := true, count := satTo 0xFFFF (y.count + 1) }
  let s := match released with
    | some e => s.modEng e Eng.release
    | none => s
  s.forEach tenants fun s t => s.tellStale g t cfg released entries

def execShotClockExpiry (g : Fin 12) (s : State) : Host.Outcome State Fault Refusal :=
  .next (if s.ready && !s.inReset (21 + g) && s.shotRuns g then s.shotExpiry g else s)

end Sys2Proof.Machine
end

