-- ==== Sys2Proof/Machine/System.lean ====
section
/-! DEFINITION. Sleep and waking, the function-level reset, and what time brings when no command waits (R246, R370, R371). -/
namespace Sys2Proof.Machine

open Sys2Proof

/-! ### Sleep entry (R370) -/

/-- SLEEP_ENTER (0x5B): entry begins. With no block running there is no boundary to wait for. -/
def execSleepEnter (c : RingCmd) (s : State) : Host.Outcome State Fault Refusal :=
  .next (s.startCmd 0x5B true c fun r s =>
    let s := s.modRst fun x => { x with sleep := .stopping, sleepCmd := some r }
    if s.grid.started then s else s.sleepStop 0)

/-- No plan, no record in staging and none on a lane is left. -/
def State.outEmpty (s : State) : Bool :=
  s.subs.all (fun e => !e.2.status.holds) && s.beams.all (fun e => !e.2.status.holds)
    && s.rings.all (fun e => e.2.staged.isEmpty) && s.outLanes.all fun e => e.2.head.isEmpty && e.2.queue.isEmpty

def State.dmaIdle (s : State) : Bool := s.dmas.all fun e => e.2.cur.isNone && e.2.queue.isEmpty

/-- Steps 4 and 5: the warm image, SLEEP_NOTE on both ports, and the completion of SLEEP_ENTER. -/
def State.noteSleep (s : State) : State :=
  let s := ((s.writeWarmImage).sendLocal 0 0x19 0 false []).sendLocal 1 0x19 0 false []
  (s.completeOpt s.rst.sleepCmd stOK 0 0).modRst fun x => { x with sleep := .noted, sleepCmd := none }

/-- Step 3 ends once everything has drained and every DMA transfer is complete. -/
def State.sleepProgress (s : State) : State :=
  let s := if s.rst.sleep == .draining && s.outEmpty then s.modRst fun x => { x with sleep := .drained } else s
  if s.rst.sleep == .drained && s.dmaIdle then s.noteSleep else s

/-- The records left on a lane, behind the one in transmission, are discarded. -/
def State.discardLane (s : State) (x : Nat) : State :=
  let s := s.endRecord x
  let q := (s.outLane x).queue
  (s.modOutLane x fun l => { l with queue := [] }).forEach q fun s e =>
    (s.subStaging (x / 16) e.1 e.2.length).dataLost (recOfBytes e.1 e.2)

/-- The records left for a ring are discarded. -/
def State.discardRing (s : State) (k : Nat) : State :=
  let q := (s.ring (k / 128) (k % 128)).staged
  (s.modRing (k / 128) (k % 128) fun r => { r with staged := [] }).forEach q fun s x => match x.die with
    | some d => (s.subStaging d x.tenant x.len).dataLost x
    | none => s.dataLost x

/-- The blocks of a die that have not become records are lost. -/
def State.discardDie (s : State) (d : Nat) : State :=
  let s := s.failCorrections d fun _ => true
  let y := s.die d
  let ps := y.passes ++ y.drained.map (·.pass)
  let s := s.modDie d fun y => { y with passes := [], drained := [], amends := [] }
  s.forEach (dedup (ps.map fun p => p.sub * 2 ^ 40 + p.block)) fun s k =>
    s.postStatus (s.subr (k / 2 ^ 40)).tenant stDataLost 0 (k / 2 ^ 40) (k % 2 ^ 40) (ps.filter fun p => p.sub * 2 ^ 40 + p.block == k).length

/-- SLEEP_DRAIN_TIMEOUT: SLEEP_EN.DRAIN ms have passed. -/
def execSleepDrainTimeout (s : State) : Host.Outcome State Fault Refusal :=
  .next (if s.rst.sleep != .draining then s
    else
      let s := s.forEach (List.range 4) State.discardDie
      let s := s.forEach (s.subs.map (·.1)) State.dropSub
      let s := s.forEach (s.beams.map (·.1)) State.dropBeam
      let s := s.forEach (s.outLanes.map (·.1)) State.discardLane
      let s := s.forEach (s.rings.map (·.1)) State.discardRing
      (s.completeFlagPosts).sleepProgress)

/-- SLEEP_ENTER's completion still waits in its ring. -/
def State.sleepUnacked (s : State) : Bool := s.rings.any fun e => e.2.cplWait.any fun c => c.cmd.opc == 0x5B

/-- The device asleep: what the always-on domain and the NVFS hold, and the time unit's account of C (R329, R370). -/
def State.asleep (s : State) : State :=
  let r := s.rst
  let rst : Rst := { r with power := .asleep, sleep := .requested, sleepReq := true, blocks := [], released := 0, workDone := [] }
  { State.reset with shadow := s.comm, comm := s.comm, numVfs := s.numVfs, hbmStacks := s.hbmStacks.filter (fun e => e.2.overtemp), locks := s.locks,
                     mgmt := s.mgmt.restarted false false,
                     time := { s.timeKept with entryC := s.time.c, running := false, aoCount := 0 }, rst := rst, out := s.out, free := s.free,
                     pending := s.pending }

/-- SLEEP_REQ_ASSERT: the completion is acknowledged and the load has ramped to zero. -/
def execSleepReqAssert (s : State) : Host.Outcome State Fault Refusal :=
  .next (if s.rst.sleep == .noted && !s.sleepUnacked then s.asleep else s)

/-! ### Waking (R371, Table 14.10) -/

/-- SLEEP_REQ_N is deasserted; with the rails up the warm start begins, else at PWR_GOOD. -/
def State.wakeUp (s : State) (source : Nat) : State :=
  let s := s.modRst fun r => { r with sleepReq := false, sleep := .waking, wake := source, latched := 0 }
  if s.rst.powerGood then s.restart 8 true source false else s

/-- A wake event of an enabled source: before SLEEP_REQ_N is asserted it is latched. -/
def State.wakeEvent (s : State) (enBit source : Nat) : State :=
  if !bit (s.reg 0xE00024) enBit then s
  else match s.rst.sleep with
    | .awake | .waking => s
    | .requested => s.wakeUp source
    | _ => s.modRst fun r => { r with latched := if r.latched == 0 then source else r.latched }

/-- WAKE_N: low for 1.05 µs or longer. -/
def execWakeN (s : State) : Host.Outcome State Fault Refusal := .next (s.wakeEvent 0 1)

/-- CHAIN_WAKE_DETECT: 100 µs of clock activity. -/
def execChainWakeDetect (p : Fin 2) (s : State) : Host.Outcome State Fault Refusal := .next (if 2 ≤ p.val then s else s.wakeEvent 1 2)

/-- SLEEP_TIMER_EXPIRY: SLEEP_CFG.TIMER cycles since SLEEP_REQ_N was asserted; 0 is off. -/
def execSleepTimerExpiry (s : State) : Host.Outcome State Fault Refusal :=
  .next (if s.rst.sleep == .requested && s.reg 0xE00020 != 0 then s.wakeEvent 2 3 else s)

/-- LATCHED_WAKE: SLEEP_REQ_N has been low for 10 ms. -/
def execLatchedWake (s : State) : Host.Outcome State Fault Refusal :=
  .next (if s.rst.sleep == .requested && s.rst.latched != 0 then s.wakeUp s.rst.latched else s)

/-- SLEEP_NOTE received (type 0x19): the port is OFF and QUIET, its neighbour known by its address. -/
def execSleepNote (p : Fin 2) (f : Frame) (s : State) : Host.Outcome State Fault Refusal :=
  .next (s.receive p f true fun s => (s.portOff p).modPort p fun x => { x with quiet := true, quietAddr := f.src.toNat })

/-- WAKE received (type 0x18): for a sleeper on a QUIET port the clock runs; else it goes on to its address. -/
def State.takeWake (s : State) (p : Nat) (f : Frame) : State :=
  let s := s.goodFrame p f
  match [0, 1].find? fun q => (s.port q).quiet && (s.port q).quietAddr == f.dst.toNat with
  | some q => s.modPort q fun x => { x with wakeClk := true }
  | none => if s.isForMe f || f.src == s.mgmt.addr then s else s.forward p f

def execWake (p : Fin 2) (f : Frame) (s : State) : Host.Outcome State Fault Refusal := .next (if (s.port p).isUp then s.takeWake p f else s)

/-- WAKE_CLOCK_END: the clock of 1 ms ends, and the port may train again. -/
def execWakeClockEnd (p : Fin 2) (s : State) : Host.Outcome State Fault Refusal :=
  .next (if (s.port p).wakeClk then s.modPort p fun x => { x with wakeClk := false, quiet := false } else s)

/-! ### Function-level reset (R246, R273, R298) -/

/-- A tenant's plans, chains and their tasks are gone, without records or completions. -/
def State.dropPlansOf (s : State) (t : Nat) : State :=
  let ns := (s.subs.filter fun e => e.2.tenant == t && e.2.status != .free).map (·.1)
  let bs := (s.beams.filter fun e => e.2.tenant == t && e.2.status != .free).map (·.1)
  let cs := (s.chains.filter fun e => e.2.tenant == t && e.2.state != .free).map (·.1)
  let s := s.forEach cs fun s c =>
    let image := (s.chainProfile c).map profImage
    let s := (s.dropQueued c).modChain c fun x => { gen := x.gen, boundTo := x.boundTo, bitFifo := x.bitFifo }
    image.elim s fun i => s.returnEngines t i
  let s := s.modDec fun d =>
    let d : Dec := { d with tasks := d.tasks.filter (fun x => x.tenant != t), slots := d.slots.filter fun x => !cs.contains x.chain }
    let d : Dec := { d with done := d.done.filter (fun x => !cs.contains x.chain), switchWait := d.switchWait.filter fun w => w.1.fn != t }
    { d with switching := d.switching.map fun l => l.filter fun x => x.cmd.fn != t }
  let s := s.forEach ns fun s n => s.stopReaders n s.blockEnd
  let s := s.modGrid fun g =>
    let keep (p : DiePart) : DiePart := { p with layout := p.layout.filter fun e => !ns.contains e.1 }
    { g with stops := g.stops.filter (fun x => x.1.fn != t), part := g.part.map keep, partNext := g.partNext.map keep }
  let s := s.forEach (List.range 4) fun s d =>
    let s := s.modDie d fun y =>
      let y : Die := { y with passes := y.passes.filter (fun p => !ns.contains p.sub), drained := y.drained.filter fun r => !ns.contains r.pass.sub }
      let y : Die := { y with doneP := y.doneP.filter (fun p => !ns.contains p.sub), amends := y.amends.filter fun a => !ns.contains a.part.sub }
      let y : Die := { y with parts := y.parts.filter fun q => !ns.contains q.sub }
      let outs (w : Sweep) : Sweep := { w with outs := w.outs.filter fun v => !bs.contains v.plan }
      { y with sweepOut := y.sweepOut.map outs, tiles := y.tiles.map fun e => (e.1, { e.2 with jobs := e.2.jobs.filter fun j => !bs.contains j.1 }) }
    s.modDie d fun y => { y with tiles := y.tiles.filter fun e => e.2 != {} }
  let s := s.forEach ns State.dropSub
  let s := s.forEach bs State.dropBeam
  let s : State := { s with topkNext := s.topkNext.filter fun e => !(if e.1 % 2 == 0 then ns else bs).contains (e.1 / 2) }
  s.modeFollow none

/-- A tenant's policy is gone and its flag table entries with it; parts already applied stay applied. -/
def State.dropFlagsOf (s : State) (t : Nat) : State :=
  let s : State := { s with posts := s.posts.filter (fun f => f.tenant != t), flagWaits := s.flagWaits.filter fun w => w.cmd.fn != t }
  let s := s.modFn t fun f => { f with policy := {}, policyNext := none, detOpen := [] }
  s.forEach (List.range 4) fun s d => s.modDie d fun y =>
    let gone := y.parts.filter fun q => q.entry.tenant == t && !q.final && !q.amended
    let y : Die := { y with parts := y.parts.filter (fun q => !gone.contains q), flags := y.flags.filter fun f => f.tenant != t }
    let y : Die := { y with flagTx := y.flagTx.filter (fun f => f.tenant != t), flagRx := y.flagRx.filter fun f => f.tenant != t }
    { y with passes := y.passes.filter fun p => !gone.any fun q => p.correct == some q.key }

/-- A tenant's engines are HALTED with their memories zeroed, its pages zeroed, its allocations released, its transfers
abandoned without pulse. -/
def State.dropMemoryOf (s : State) (t : Nat) : State :=
  let s := s.forEach ((List.range 96).filter fun e => s.engOwner e == some t) fun s e => (s.releaseBinding e).modEng e fun _ => { st := .halted }
  let s := s.forEach ((List.range 384).filter fun i => s.pageOwner (i / 32) (i % 32) == some t) fun s i =>
    s.modEGroup (i / 32) fun x => { x with mem := clearRun x.mem (65536 * (i % 32)) 65536 }
  let hs := (s.handles.filter fun e => e.2.any fun h => h.tenant == t).map (·.1)
  let s := s.forEach ((List.range 32).filter fun ch => s.dmaTenant ch == t) fun s ch =>
    (s.dropGrants (ch + 8)).modDma ch fun y => { y with cur := none, queue := [] }
  let s := s.forEach hs State.freeAlloc
  ({ s with allocs := s.allocs.filter fun a => a.tenant != t } : State).finishInvals

/-- A tenant's records leave record staging, but for one in transmission on a lane. -/
def State.dropRecordsOf (s : State) (t : Nat) : State :=
  let s := s.forEach (s.outLanes.map (·.1)) fun s x => s.modOutLane x fun l => { l with queue := l.queue.filter fun e => e.1 != t }
  s.forEach (List.range 4) fun s d => s.modDie d fun y => { y with staging := setT 0 y.staging t 0 }

/-- A tenant's rings return to their Cold values; as lock holders they are lost. -/
def State.dropRingsOf (s : State) (t : Nat) : State :=
  let s := s.forEach ((s.fnRings t).filter fun e => e.2.enabled && e.2.kind == 0) fun s e => s.loseHolder (t * 128 + e.1)
  let s : State := { s with rings := s.rings.filter fun e => e.1 / 128 != t }
  s.modFn t fun f => { f with labelPend := none, bandsCmds := [], msixMask := [], msixPend := [] }

/-- The function-level reset of VF `t`. What the tenant leaves is taken up by the others. -/
def State.resetVf (s : State) (t : Nat) : State :=
  let s := ((((s.dropPlansOf t).dropFlagsOf t).dropMemoryOf t).dropRecordsOf t).dropRingsOf t
  let s := s.forEach ((List.range 4).filter fun d => s.dieOn d && !s.inReset d) State.startNext
  ((s.completeFlagPosts).dispatchAll.startDetections).startJobs

/-- FUNCTION_LEVEL_RESET: of the PF, a software warm start. -/
def execFunctionLevelReset (fn : Fin 256) (s : State) : Host.Outcome State Fault Refusal :=
  .next (if fn == 0 then s.softStart else if s.ready && s.fnExists fn then s.resetVf fn else s)

/-! ### Idle time -/

/-- One MGMT_CLK cycle: 5 counts of C while the root runs (R330); the AO_CLK's account of sleep and of RESET_N; a packet on each
ACTIVE output lane that has bytes; and sleep entry. -/
def State.tick (s : State) : State :=
  let s := s.modTime fun t => { t with c := if t.running then t.c + 5 else t.c }
  let s := if s.rst.power == .asleep || s.rst.resetLow then s.modTime fun t => { t with aoCount := t.aoCount + 1 } else s
  let s := s.forEach ((List.range 4).flatMap s.activeOutLanes) State.sendLane
  s.sleepProgress

end Sys2Proof.Machine
end

