-- ==== Sys2Proof/Machine/Topk.lean ====
section
/-! DEFINITION. The top-k units at the end of a sub-block and their records (R138 to R141). -/
namespace Sys2Proof.Machine

open Sys2Proof

/-- A candidate that is listed: its position, magnitude and 12 bytes of value. -/
structure TopEnt where
  pos   : Nat := 0
  mag   : Nat := 0
  bytes : List Byte := []
deriving DecidableEq, Repr

/-- The k largest candidates of at least MIN, the larger first, equal ones by position (R139). -/
def topOf (k : Topk) (l : List TopEnt) : List TopEnt :=
  let big := (l.map (·.mag)).foldl max 0
  ((sortBy (fun e => big - e.mag) (sortBy (·.pos) (l.filter fun e => decide (k.min ≤ e.mag)))).take k.k)

/-- A section of Table 5.5. -/
def topSection (bandA bandB : Nat) (coarse : Bool) (ch tshift : Nat) (es : List TopEnt) : List Byte :=
  rows [bandA * 2 ^ 24 + bandB * 2 ^ 16 + es.length * 2 ^ 12 + bnat coarse * 2 ^ 11 + ch, tshift * 2 ^ 27]
    ++ es.flatMap fun e => e.bytes ++ [BitVec.ofNat 8 e.pos, 0, 0, 0]

/-- The body of Table 5.5. -/
def topBody (beam : Bool) (k : Topk) (d tile sb pass : Nat) (secs : List (List Byte)) : List Byte :=
  rows [bnat beam * 2 ^ 31 + k.k * 2 ^ 27 + k.sub * 2 ^ 23 + bnat k.exclAuto * 2 ^ 22 + d * 2 ^ 16 + (d * 256 + tile),
    sb % 2 ^ 32, secs.length, pass] ++ secs.flatten

/-- TOPK_RECORD: to the hub's detection input, and a copy to the destination of the setting (R140). -/
def State.emitTopk (s : State) (d dest : Nat) (r : Rec) : State :=
  let (s, kept) := (s.emit (.detection r.bytes)).emitDie d dest r
  s.modDie d fun y => { y with topkNow := y.topkNow + 1, topkDrop := if kept then y.topkDrop else satTo 0xFFFF (y.topkDrop + 1) }

/-! ### Correlation mode -/

/-- The candidates of a tile job over its 256 cells. -/
def corrCands (k : Topk) (diag : Bool) (sums : List Cx) : List TopEnt :=
  (List.range 256).filterMap fun i =>
    let v := sums.getD i {}
    if diag && (decide (i % 16 < i / 16) || (k.exclAuto && i % 16 == i / 16)) then none
    else some { pos := i, mag := v.re.natAbs + v.im.natAbs, bytes := exactBytes v }

/-- What the cells of a running job hold in the integrating bank at counter `c` of the pass's block. -/
def State.bankAt (s : State) (d tile : Nat) (x : Sub) (p : Pass) (j : Job) (o c : Nat) : List Cx :=
  addBanks (s.tile d tile).bank (s.tileSums d x { p with upTo := some ((c - x.blockCtr p.block) / s.numF) } j o)

/-- The end of a sub-block on a tile in correlation mode: the snapshot less the one before it. -/
def State.corrSubblock (s : State) (d tile sb : Nat) (p : Pass) (j : Job) (o : Nat) : State :=
  let x := s.subr p.sub
  let k := s.topk (2 * p.sub)
  let lo := sb * 2 ^ k.sub * 1024
  let hi := lo + 2 ^ k.sub * 1024
  if k.k == 0 || decide (lo < x.blockCtr p.block) || decide (x.blockCtr (p.block + 1) < hi) then s
  else
    let t := s.tile d tile
    let cur := s.bankAt d tile x p j o hi
    let prev := if t.snapAt == some lo then addBanks t.snap zeroBank else s.bankAt d tile x p j o lo
    let sums := List.zipWith cxSub cur prev
    let b := j.bandsAt o
    let sec := topSection b.1 b.2 false j.fine 0 (topOf k (corrCands k (b.1 == b.2) sums))
    (s.modTile d tile fun t => { t with snap := cur, snapAt := some hi }).emitTopk d k.dest
      (s.mkRec 0x04 x.tenant p.sub (lo / x.len) lo (topBody false k d tile sb p.no [sec]))

/-! ### Beam mode -/

def rowCands (rs : List Nat) : List TopEnt := rs.zipIdx.map fun e => { pos := e.2, mag := e.1, bytes := le 8 e.1 ++ zeros 4 }

/-- Sixteenths of a slot that a plan's jobs run of a sub-block: those between its first counter and its stop. -/
def Beam.expected (b : Beam) (lo hi : Nat) : Nat := (min hi ((b.stopAt.map (· / 1024)).getD hi) - max lo (b.first.getD 0 / 1024)) * 16

/-- The end of a sub-block of one plan on a tile in beam mode; one that lacks a slot gives no record (R136). -/
def State.beamSubblock (s : State) (d tile sb n : Nat) (jobs : List (Nat × Nat × Nat × Nat)) : State :=
  let b := s.beam n
  let k := s.topk (2 * n + 1)
  let lo := sb * 2 ^ k.sub
  let hi := lo + 2 ^ k.sub
  let acc (e : Nat × Nat × Nat × Nat) : Option RowAcc := (s.die d).rowAccs.find? fun a =>
    a.plan == n && a.block == sb && a.size == k.sub && a.job == (e.2.1, e.2.2.1, e.2.2.2) && a.sixteenths == b.expected lo hi
  let found := jobs.filterMap fun e => (acc e).map fun a => (e, a)
  if k.k == 0 || found.length != jobs.length then s
  else
    let secs := found.map fun e => topSection e.1.2.1 e.1.2.2.1 (b.src != .fine) e.1.2.2.2 k.tshift (topOf k (rowCands e.2.rows))
    let used := found.map (·.2)
    (s.modDie d fun y => { y with rowAccs := y.rowAccs.filter fun a => !used.contains a }).emitTopk d k.dest
      (s.mkRec 0x04 b.tenant n (1024 * lo / (if b.src == .direct then 2 ^ 20 else b.len)) (1024 * lo) (topBody true k d tile sb 0 secs))

/-- SUBBLOCK_END: sub-block number `sb` ends on a tile. -/
def State.subblockEnd (s : State) (d tile sb : Nat) : State :=
  if !s.dieOn d || s.inReset d then s
  else
    let t := s.tile d tile
    if t.beam then
      s.forEach (dedup (t.jobs.map (·.1))) fun s n => s.beamSubblock d tile sb n (t.jobs.filter fun e => e.1 == n)
    else
      let here := (s.die d).passes.flatMap fun p =>
        if p.running && p.correct.isNone then ((passTiles p).filter fun e => e.2.1 == tile).map fun e => (p, e.2.2.1, e.2.2.2) else []
      match here with
      | (p, j, o) :: _ => s.corrSubblock d tile sb p j o
      | [] => s

def execSubblockEnd (die : Fin 4) (tile : Fin 256) (subblock : Nat) (s : State) : Host.Outcome State Fault Refusal :=
  .next (s.subblockEnd die tile subblock)

end Sys2Proof.Machine
end

