-- ==== Sys2Proof/Machine/Dispatch.lean ====
section
/-! DEFINITION. The effect of every command, one arm per constructor of Instr. -/
namespace Sys2Proof.Machine

open Sys2Proof

def exec (i : Instr) (s : State) : Host.Outcome State Fault Refusal :=
  match i with
  | .registerWrite fn bar off size v => Sys2Proof.Machine.execRegisterWrite fn bar off size v s
  | .setupCommit => Sys2Proof.Machine.execSetupCommit s
  | .setupSeal => Sys2Proof.Machine.execSetupSeal s
  | .functionCommit fn => Sys2Proof.Machine.execFunctionCommit fn s
  | .doorbell fn q v => Sys2Proof.Machine.execDoorbell fn q v s
  | .ringReadTimeout fn q => Sys2Proof.Machine.execRingReadTimeout fn q s
  | .functionLevelReset fn => Sys2Proof.Machine.execFunctionLevelReset fn s
  | .pcieHotReset => Sys2Proof.Machine.execPcieHotReset s
  | .completionWrite fn q acc => Sys2Proof.Machine.execCompletionWrite fn q acc s
  | .outRecordWrite fn q acc => Sys2Proof.Machine.execOutRecordWrite fn q acc s
  | .evtOverflow fn => Sys2Proof.Machine.execEvtOverflow fn s
  | .nop c => Sys2Proof.Machine.execNop c s
  | .dmaCopy c => Sys2Proof.Machine.execDmaCopy c s
  | .memAlloc c => Sys2Proof.Machine.execMemAlloc c s
  | .memFree c => Sys2Proof.Machine.execMemFree c s
  | .tuInval c => Sys2Proof.Machine.execTuInval c s
  | .dmaBurst ch hostData srcAcc dstAcc ending => Sys2Proof.Machine.execDmaBurst ch hostData srcAcc dstAcc ending s
  | .dmaTransferEnd ch => Sys2Proof.Machine.execDmaTransferEnd ch s
  | .dmaReadTimeout ch => Sys2Proof.Machine.execDmaReadTimeout ch s
  | .planningFreeze => Sys2Proof.Machine.execPlanningFreeze s
  | .blockBoundary => Sys2Proof.Machine.execBlockBoundary s
  | .ingestPacket lane framed symbols => Sys2Proof.Machine.execIngestPacket lane framed symbols s
  | .closeWaitExpiry die => Sys2Proof.Machine.execCloseWaitExpiry die s
  | .cornerTurnRead die lane ecc => Sys2Proof.Machine.execCornerTurnRead die lane ecc s
  | .laneMapSwitch c => Sys2Proof.Machine.execLaneMapSwitch c s
  | .laneGroupRestart c => Sys2Proof.Machine.execLaneGroupRestart c s
  | .clockWindowEnd clk count => Sys2Proof.Machine.execClockWindowEnd clk count s
  | .detectTimeout g => Sys2Proof.Machine.execDetectTimeout g s
  | .trainComplete g => Sys2Proof.Machine.execTrainComplete g s
  | .trainTimeout g centred => Sys2Proof.Machine.execTrainTimeout g centred s
  | .lockComplete g => Sys2Proof.Machine.execLockComplete g s
  | .lockTimeout g locked => Sys2Proof.Machine.execLockTimeout g locked s
  | .tsbSetsReceived lane tsb => Sys2Proof.Machine.execTsbSetsReceived lane tsb s
  | .laneErrorThreshold lane => Sys2Proof.Machine.execLaneErrorThreshold lane s
  | .laneRelock lane => Sys2Proof.Machine.execLaneRelock lane s
  | .relockTimeout lane => Sys2Proof.Machine.execRelockTimeout lane s
  | .outRxDetect g detected => Sys2Proof.Machine.execOutRxDetect g detected s
  | .outTrainEnd g => Sys2Proof.Machine.execOutTrainEnd g s
  | .outCapsEnd g => Sys2Proof.Machine.execOutCapsEnd g s
  | .chnGainLoad c => Sys2Proof.Machine.execChnGainLoad c s
  | .chnStatsRead c => Sys2Proof.Machine.execChnStatsRead c s
  | .gainSwitch die t => Sys2Proof.Machine.execGainSwitch die t s
  | .statsIntervalEnd die firstSlot => Sys2Proof.Machine.execStatsIntervalEnd die firstSlot s
  | .slotPowerCompare die slot => Sys2Proof.Machine.execSlotPowerCompare die slot s
  | .hbmTempRead die stack celsius => Sys2Proof.Machine.execHbmTempRead die stack celsius s
  | .hbmRefresh die stack => Sys2Proof.Machine.execHbmRefresh die stack s
  | .hbmReadReturn die stack ue fine band u => Sys2Proof.Machine.execHbmReadReturn die stack ue fine band u s
  | .subarrayStart c => Sys2Proof.Machine.execSubarrayStart c s
  | .subarrayStop c => Sys2Proof.Machine.execSubarrayStop c s
  | .planLoad c => Sys2Proof.Machine.execPlanLoad c s
  | .planRead c => Sys2Proof.Machine.execPlanRead c s
  | .passSwitch die => Sys2Proof.Machine.execPassSwitch die s
  | .visEmit die => Sys2Proof.Machine.execVisEmit die s
  | .amendEmit die => Sys2Proof.Machine.execAmendEmit die s
  | .beamStart c => Sys2Proof.Machine.execBeamStart c s
  | .beamStop c => Sys2Proof.Machine.execBeamStop c s
  | .beamWeights c => Sys2Proof.Machine.execBeamWeights c s
  | .weightsReady plan => Sys2Proof.Machine.execWeightsReady plan s
  | .beamCapture c => Sys2Proof.Machine.execBeamCapture c s
  | .topkSet c => Sys2Proof.Machine.execTopkSet c s
  | .dbWaitExpiry die => Sys2Proof.Machine.execDbWaitExpiry die s
  | .sweepDeliver die => Sys2Proof.Machine.execSweepDeliver die s
  | .rotationStart die slot => Sys2Proof.Machine.execRotationStart die slot s
  | .bandsumTimeout plan => Sys2Proof.Machine.execBandsumTimeout plan s
  | .subblockEnd die tile subblock => Sys2Proof.Machine.execSubblockEnd die tile subblock s
  | .excPolicy c => Sys2Proof.Machine.execExcPolicy c s
  | .flagPost c => Sys2Proof.Machine.execFlagPost c s
  | .detectionInput tenant d => Sys2Proof.Machine.execDetectionInput tenant d s
  | .flagAccept => Sys2Proof.Machine.execFlagAccept s
  | .flagReceive die => Sys2Proof.Machine.execFlagReceive die s
  | .cchStart c => Sys2Proof.Machine.execCchStart c s
  | .cchRetune c => Sys2Proof.Machine.execCchRetune c s
  | .cchStop c => Sys2Proof.Machine.execCchStop c s
  | .chainInputTimeout ch channel => Sys2Proof.Machine.execChainInputTimeout ch channel s
  | .chainSample ch => Sys2Proof.Machine.execChainSample ch s
  | .chainSettled ch => Sys2Proof.Machine.execChainSettled ch s
  | .thresholdWindowEnd ch => Sys2Proof.Machine.execThresholdWindowEnd ch s
  | .agcWindowEnd ch => Sys2Proof.Machine.execAgcWindowEnd ch s
  | .burstMaxLen ch => Sys2Proof.Machine.execBurstMaxLen ch s
  | .writebackApply ch => Sys2Proof.Machine.execWritebackApply ch s
  | .bitPortArrive ch bit => Sys2Proof.Machine.execBitPortArrive ch bit s
  | .engineNop e o => Sys2Proof.Machine.execEngineNop e o s
  | .add e o dst x y => Sys2Proof.Machine.execAdd e o dst x y s
  | .sub e o dst x y => Sys2Proof.Machine.execSub e o dst x y s
  | .neg e o dst x => Sys2Proof.Machine.execNeg e o dst x s
  | .abs e o dst x => Sys2Proof.Machine.execAbs e o dst x s
  | .cmp e o x y => Sys2Proof.Machine.execCmp e o x y s
  | .min e o dst x y => Sys2Proof.Machine.execMin e o dst x y s
  | .max e o dst x y => Sys2Proof.Machine.execMax e o dst x y s
  | .and e o dst x y => Sys2Proof.Machine.execAnd e o dst x y s
  | .or e o dst x y => Sys2Proof.Machine.execOr e o dst x y s
  | .xor e o dst x y => Sys2Proof.Machine.execXor e o dst x y s
  | .shl e o dst x sh => Sys2Proof.Machine.execShl e o dst x sh s
  | .shr e o dst x sh => Sys2Proof.Machine.execShr e o dst x sh s
  | .sha e o dst x sh => Sys2Proof.Machine.execSha e o dst x sh s
  | .mac e o acc x y => Sys2Proof.Machine.execMac e o acc x y s
  | .msu e o acc x y => Sys2Proof.Machine.execMsu e o acc x y s
  | .mac2 e o acc1 acc2 x1 y1 x2 y2 => Sys2Proof.Machine.execMac2 e o acc1 acc2 x1 y1 x2 y2 s
  | .cmac e o pair x y => Sys2Proof.Machine.execCmac e o pair x y s
  | .cmacj e o pair x y => Sys2Proof.Machine.execCmacj e o pair x y s
  | .lmsu e o ag mu err x sh => Sys2Proof.Machine.execLmsu e o ag mu err x sh s
  | .rnd e o dst acc sh => Sys2Proof.Machine.execRnd e o dst acc sh s
  | .mva e o acc x sh => Sys2Proof.Machine.execMva e o acc x sh s
  | .clr e o acc => Sys2Proof.Machine.execClr e o acc s
  | .agset e o ag f src => Sys2Proof.Machine.execAgset e o ag f src s
  | .agget e o dst ag f => Sys2Proof.Machine.execAgget e o dst ag f s
  | .ld e o bus dst ag adv => Sys2Proof.Machine.execLd e o bus dst ag adv s
  | .st e o bus src ag adv => Sys2Proof.Machine.execSt e o bus src ag adv s
  | .ldh e o bus dst ag adv => Sys2Proof.Machine.execLdh e o bus dst ag adv s
  | .ldg e o bus dst ag adv => Sys2Proof.Machine.execLdg e o bus dst ag adv s
  | .stg e o bus src ag adv => Sys2Proof.Machine.execStg e o bus src ag adv s
  | .groupMemoryReturn e => Sys2Proof.Machine.execGroupMemoryReturn e s
  | .mvm e o toMain src dst => Sys2Proof.Machine.execMvm e o toMain src dst s
  | .br e o target => Sys2Proof.Machine.execBr e o target s
  | .brc e o cond target => Sys2Proof.Machine.execBrc e o cond target s
  | .call e o target => Sys2Proof.Machine.execCall e o target s
  | .ret e o => Sys2Proof.Machine.execRet e o s
  | .dbnz e o target => Sys2Proof.Machine.execDbnz e o target s
  | .loop e o n len => Sys2Proof.Machine.execLoop e o n len s
  | .rti e o => Sys2Proof.Machine.execRti e o s
  | .waite e o mask => Sys2Proof.Machine.execWaite e o mask s
  | .evs e o line => Sys2Proof.Machine.execEvs e o line s
  | .clre e o input => Sys2Proof.Machine.execClre e o input s
  | .wbk e o chain gen freqLo freqHi time close evm => Sys2Proof.Machine.execWbk e o chain gen freqLo freqHi time close evm s
  | .flg e o ag => Sys2Proof.Machine.execFlg e o ag s
  | .bpb e o c => Sys2Proof.Machine.execBpb e o c s
  | .dsub e o ag => Sys2Proof.Machine.execDsub e o ag s
  | .tsk e o dn => Sys2Proof.Machine.execTsk e o dn s
  | .shfx e o dst n => Sys2Proof.Machine.execShfx e o dst n s
  | .vmac64 e o agx agy agc sh => Sys2Proof.Machine.execVmac64 e o agx agy agc sh s
  | .fft4 e o agy agc q s_ => Sys2Proof.Machine.execFft4 e o agy agc q s_ s
  | .hlt e o => Sys2Proof.Machine.execHlt e o s
  | .tmrExpiry e => Sys2Proof.Machine.execTmrExpiry e s
  | .interruptAccept e => Sys2Proof.Machine.execInterruptAccept e s
  | .abortApply e => Sys2Proof.Machine.execAbortApply e s
  | .haltTake e => Sys2Proof.Machine.execHaltTake e s
  | .engLoad c => Sys2Proof.Machine.execEngLoad c s
  | .engStart c => Sys2Proof.Machine.execEngStart c s
  | .engHalt c => Sys2Proof.Machine.execEngHalt c s
  | .engResume c => Sys2Proof.Machine.execEngResume c s
  | .shotClockExpiry g => Sys2Proof.Machine.execShotClockExpiry g s
  | .decCodeLoad c => Sys2Proof.Machine.execDecCodeLoad c s
  | .decProfileLoad c => Sys2Proof.Machine.execDecProfileLoad c s
  | .decoderJobEnd jobSeq => Sys2Proof.Machine.execDecoderJobEnd jobSeq s
  | .modeSwitchEnd => Sys2Proof.Machine.execModeSwitchEnd s
  | .deadlineExpiry taskSeq => Sys2Proof.Machine.execDeadlineExpiry taskSeq s
  | .arbCommit => Sys2Proof.Machine.execArbCommit s
  | .arbSet c => Sys2Proof.Machine.execArbSet c s
  | .posAcquire c => Sys2Proof.Machine.execPosAcquire c s
  | .posRelease c => Sys2Proof.Machine.execPosRelease c s
  | .posClear c => Sys2Proof.Machine.execPosClear c s
  | .posWaitTimeout lock holder => Sys2Proof.Machine.execPosWaitTimeout lock holder s
  | .posHoldTimeout lock => Sys2Proof.Machine.execPosHoldTimeout lock s
  | .managementCycle => Sys2Proof.Machine.execManagementCycle s
  | .beacon p f => Sys2Proof.Machine.execBeacon p f s
  | .enum p f => Sys2Proof.Machine.execEnum p f s
  | .join p f => Sys2Proof.Machine.execJoin p f s
  | .assign p f => Sys2Proof.Machine.execAssign p f s
  | .topo p f => Sys2Proof.Machine.execTopo p f s
  | .lockReq p f => Sys2Proof.Machine.execLockReq p f s
  | .lockResp p f => Sys2Proof.Machine.execLockResp p f s
  | .lockRel p f => Sys2Proof.Machine.execLockRel p f s
  | .chainAck p lseq => Sys2Proof.Machine.execChainAck p lseq s
  | .chainAckTimeout p lseq => Sys2Proof.Machine.execChainAckTimeout p lseq s
  | .chainPortTrainDone p => Sys2Proof.Machine.execChainPortTrainDone p s
  | .chainPortTrainTimeout p => Sys2Proof.Machine.execChainPortTrainTimeout p s
  | .chainPortSilence p => Sys2Proof.Machine.execChainPortSilence p s
  | .chainPortRetry p => Sys2Proof.Machine.execChainPortRetry p s
  | .beaconLoss => Sys2Proof.Machine.execBeaconLoss s
  | .masterHoldFilter => Sys2Proof.Machine.execMasterHoldFilter s
  | .benchStartWait => Sys2Proof.Machine.execBenchStartWait s
  | .stateCopy epoch body crcOk => Sys2Proof.Machine.execStateCopy epoch body crcOk s
  | .stateCopyAck crcOk => Sys2Proof.Machine.execStateCopyAck crcOk s
  | .chainLockResend tag holder => Sys2Proof.Machine.execChainLockResend tag holder s
  | .chainReenum c => Sys2Proof.Machine.execChainReenum c s
  | .chainPortOn c => Sys2Proof.Machine.execChainPortOn c s
  | .chainTopoRead c => Sys2Proof.Machine.execChainTopoRead c s
  | .chainRoleSwap c => Sys2Proof.Machine.execChainRoleSwap c s
  | .roleSwapTimeout => Sys2Proof.Machine.execRoleSwapTimeout s
  | .chainPosAcquire c => Sys2Proof.Machine.execChainPosAcquire c s
  | .chainPosRelease c => Sys2Proof.Machine.execChainPosRelease c s
  | .chainPosClear c => Sys2Proof.Machine.execChainPosClear c s
  | .syncSend => Sys2Proof.Machine.execSyncSend s
  | .delayReqSend => Sys2Proof.Machine.execDelayReqSend s
  | .sync p f => Sys2Proof.Machine.execSync p f s
  | .delayReq p f => Sys2Proof.Machine.execDelayReq p f s
  | .delayResp p f => Sys2Proof.Machine.execDelayResp p f s
  | .tuNowLatch fn => Sys2Proof.Machine.execTuNowLatch fn s
  | .tuSet c => Sys2Proof.Machine.execTuSet c s
  | .tuSetApply => Sys2Proof.Machine.execTuSetApply s
  | .tuLabel c => Sys2Proof.Machine.execTuLabel c s
  | .timecontEmit k => Sys2Proof.Machine.execTimecontEmit k s
  | .refSet c => Sys2Proof.Machine.execRefSet c s
  | .refActivityWindow x count => Sys2Proof.Machine.execRefActivityWindow x count s
  | .refGate x offsetPpb => Sys2Proof.Machine.execRefGate x offsetPpb s
  | .refWtrExpiry x => Sys2Proof.Machine.execRefWtrExpiry x s
  | .ppsEdge n => Sys2Proof.Machine.execPpsEdge n s
  | .extTrig => Sys2Proof.Machine.execExtTrig s
  | .refLoopWrite v => Sys2Proof.Machine.execRefLoopWrite v s
  | .rootSteerWrite v => Sys2Proof.Machine.execRootSteerWrite v s
  | .openTimeout => Sys2Proof.Machine.execOpenTimeout s
  | .phaseReport phase => Sys2Proof.Machine.execPhaseReport phase s
  | .refPhaseRead => Sys2Proof.Machine.execRefPhaseRead s
  | .powerOn => Sys2Proof.Machine.execPowerOn s
  | .brownOut => Sys2Proof.Machine.execBrownOut s
  | .pinReset => Sys2Proof.Machine.execPinReset s
  | .watchdogExpiry => Sys2Proof.Machine.execWatchdogExpiry s
  | .debugReset => Sys2Proof.Machine.execDebugReset s
  | .clockFailure => Sys2Proof.Machine.execClockFailure s
  | .lockup => Sys2Proof.Machine.execLockup s
  | .pwrGoodRise straps => Sys2Proof.Machine.execPwrGoodRise straps s
  | .pwrGoodFall coreBelow90 => Sys2Proof.Machine.execPwrGoodFall coreBelow90 s
  | .domainRelease n => Sys2Proof.Machine.execDomainRelease n s
  | .domainWorkEnd n r => Sys2Proof.Machine.execDomainWorkEnd n r s
  | .rstBootGo v => Sys2Proof.Machine.execRstBootGo v s
  | .nvfsPulseEnd => Sys2Proof.Machine.execNvfsPulseEnd s
  | .softReset c => Sys2Proof.Machine.execSoftReset c s
  | .blockReset c => Sys2Proof.Machine.execBlockReset c s
  | .blockIdle b => Sys2Proof.Machine.execBlockIdle b s
  | .blockIdleTimeout b => Sys2Proof.Machine.execBlockIdleTimeout b s
  | .blockResetRelease b => Sys2Proof.Machine.execBlockResetRelease b s
  | .dieSet c => Sys2Proof.Machine.execDieSet c s
  | .sleepEnter c => Sys2Proof.Machine.execSleepEnter c s
  | .sleepDrainTimeout => Sys2Proof.Machine.execSleepDrainTimeout s
  | .sleepReqAssert => Sys2Proof.Machine.execSleepReqAssert s
  | .wakeN => Sys2Proof.Machine.execWakeN s
  | .chainWakeDetect p => Sys2Proof.Machine.execChainWakeDetect p s
  | .sleepTimerExpiry => Sys2Proof.Machine.execSleepTimerExpiry s
  | .wake p f => Sys2Proof.Machine.execWake p f s
  | .sleepNote p f => Sys2Proof.Machine.execSleepNote p f s
  | .governorSample source current step => Sys2Proof.Machine.execGovernorSample source current step s
  | .thermalRead source celsius => Sys2Proof.Machine.execThermalRead source celsius s
  | .selfProtect c => Sys2Proof.Machine.execSelfProtect c s
  | .faultLogRead c => Sys2Proof.Machine.execFaultLogRead c s
  | .chainReset c => Sys2Proof.Machine.execChainReset c s
  | .resetReq p f => Sys2Proof.Machine.execResetReq p f s
  | .resetAck p f => Sys2Proof.Machine.execResetAck p f s
  | .chainResetTimeout => Sys2Proof.Machine.execChainResetTimeout s
  | .smbusBlockRead code => Sys2Proof.Machine.execSmbusBlockRead code s
  | .resetNRelease straps => Sys2Proof.Machine.execResetNRelease straps s
  | .latchedWake => Sys2Proof.Machine.execLatchedWake s
  | .wakeClockEnd p => Sys2Proof.Machine.execWakeClockEnd p s
  | .badFrame p => Sys2Proof.Machine.execBadFrame p s
  | .unknownTypeFrame p f => Sys2Proof.Machine.execUnknownTypeFrame p f s
  | .masterHoldInAssert withinTie => Sys2Proof.Machine.execMasterHoldInAssert withinTie s
  | .missingCopy => Sys2Proof.Machine.execMissingCopy s
  | .dmaWithdrawalEnd ch die stack port => Sys2Proof.Machine.execDmaWithdrawalEnd ch die stack port s
  | .ppsNoEdge n => Sys2Proof.Machine.execPpsNoEdge n s
  | .setupCommitDone => Sys2Proof.Machine.execSetupCommitDone s
  | .perstN => Sys2Proof.Machine.execPerstN s

end Sys2Proof.Machine
end

