-- ==== Sys2Proof/Machine/Pins.lean ====
section
/-! DEFINITION. What the device drives on its multi-function and sideband pins, as a function of its state (R318, R370, R392,
R393). -/
namespace Sys2Proof.Machine

open Sys2Proof

/-- What the device does to a pin. -/
inductive PinLevel where
  /-- It does not drive the pin. -/
  | floating
  | low
  | high
  /-- It drives AO_CLK on the pin. -/
  | clock
deriving DecidableEq, Repr

def pinOf (b : Bool) : PinLevel := if b then .high else .low

/-- Less than `cycles` TILE_CLK cycles have passed since an event. -/
def State.lately (s : State) (at_ : Option Nat) (cycles : Nat) : Bool := at_.any fun a => decide (s.now < a + cycles)

/-- A lane group is FAILED or has a DEAD lane. -/
def State.laneAlert (s : State) : Bool :=
  s.groups.any (fun e => e.2.st == .failed) || s.outGrps.any (fun e => e.2.st == .failed || e.2.dead != 0) || s.lanes.any fun e => e.2.st == .dead

/-- A region is at or above the warning threshold of R375. -/
def State.regionHot (s : State) : Bool := s.rst.gov.any fun e => e.2.warned

/-- The alternate function of MFPi (Table 15.7). -/
def State.mfpAlternate (s : State) (i : Nat) : PinLevel :=
  match i with
  | 0 => pinOf (!s.lately s.rst.faultAt 1250000)
  | 1 => pinOf s.ready
  | 2 => pinOf (!s.lately s.rst.divotAt 1250)
  | 3 => .floating
  | 4 => if s.regionHot then .low else .floating
  | 5 => pinOf (!s.laneAlert)
  | 6 => pinOf s.mgmt.acting
  | _ => .clock

/-- MFPi: high impedance before the management core is released, but for MFP7, which keeps its function through warm starts
and sleep; then by MFP_CFG.FN_i an input, MFP_IO.OUT, or the alternate function (R393, R400). -/
def State.mfpPin (s : State) (i : Nat) : PinLevel :=
  if i != 7 && (decide (s.rst.released < 4) || s.rst.power == .asleep) then .floating
  else match fld (s.reg 0xF00000) (2 * i + 1) (2 * i) with
    | 1 => pinOf (bit (s.reg 0xF00004) (8 + i))
    | 2 => s.mfpAlternate i
    | _ => .floating

/-- MASTER_HOLD_OUT: driven, and high, while a package of a master pair acts; the pull-down of its partner reads as deasserted
(R318, R319). -/
def State.masterHoldOutPin (s : State) : PinLevel := if s.mgmt.holdOut then .high else .floating

/-- SLEEP_REQ_N: high until it is asserted (R370, R392). -/
def State.sleepReqPin (s : State) : PinLevel := pinOf (!s.rst.sleepReq)

/-- SMB_ALERT_N: low while a THERMAL or GOV_EXCESS event has not been followed by a read of its register (R392). -/
def State.smbAlertPin (s : State) : PinLevel := if s.rst.gov.any (fun e => e.2.alert) then .low else .floating

end Sys2Proof.Machine
end

