-- ==== Sys2Proof/WellFormed.lean ====
section
/-! DEFINITION. The commands whose operands fit the fields that the manual gives them, where an operand's type admits more. -/
namespace Sys2Proof

/-- A descriptor's lengths fit BUF_LEN and RES_LEN (Table 10.5). -/
def RingCmd.wf (c : RingCmd) : Bool := decide (c.buf.length < 2 ^ 32) && decide (c.resLen < 2 ^ 32)

/-- A frame has at most 240 payload bytes (Table 12.1). -/
def Frame.wf (f : Frame) : Bool := decide (f.payload.length ≤ 60)

/-- The end of a BAR (Table 10.1). -/
def Bar.size : Bar → Nat
  | .bar0 => 0x10000
  | .bar2 => 0x1000000
  | .bar4 => 0x2000

/-- The offset lies in the BAR. -/
def wfWrite (bar : Bar) (off size : Nat) : Bool := decide (off + size ≤ bar.size) && decide (0 < size)

/-- An immediate of AGSET fits its register: 20 bits of BASE, 17 of the others, one of REV (Table 8.1). -/
def wfAgset (f : AgField) : ImmOrD → Bool
  | .d _ => true
  | .imm v => match f with
    | .base => decide (0 ≤ v) && decide (v < 2 ^ 20)
    | .idx => decide (0 ≤ v) && decide (v < 2 ^ 17)
    | .step => decide (-(2 ^ 16) ≤ v) && decide (v < 2 ^ 16)
    | .span => decide (0 ≤ v) && decide (v < 2 ^ 17)
    | .rev => v == 0 || v == 1

/-- What each command's operands must meet; those of the commands not named are bounded by their types. -/
def Instr.wf : Instr → Bool
  | .registerWrite _ bar off size _ => wfWrite bar off size
  | .dmaBurst _ bs _ _ _ => decide (bs.length ≤ 512)
  | .ingestPacket _ _ syms => decide (0 < syms.length)
  | .thermalRead _ t => decide (-128 ≤ t) && decide (t < 128)
  | .agset _ _ _ f v => wfAgset f v
  | .ldh _ _ _ dst _ _ => dst.val % 2 == 0
  | .loop _ _ _ len => decide (1 ≤ len) && decide (len ≤ 32)
  | .shfx _ _ _ n => decide (1 ≤ n) && decide (n ≤ 24)
  | .vmac64 _ _ _ _ _ sh => decide (sh ≤ 23)
  | .fft4 _ _ _ _ q s => decide (2 ≤ q) && decide (q ≤ 6) && decide (s < q)
  | .beacon _ f | .enum _ f | .join _ f | .assign _ f | .topo _ f | .lockReq _ f | .lockResp _ f | .lockRel _ f
  | .sync _ f | .delayReq _ f | .delayResp _ f | .wake _ f | .sleepNote _ f | .resetReq _ f | .resetAck _ f
  | .unknownTypeFrame _ f => f.wf
  | .nop c | .dmaCopy c | .memAlloc c | .memFree c | .tuInval c | .laneMapSwitch c | .laneGroupRestart c
  | .chnGainLoad c | .chnStatsRead c | .subarrayStart c | .subarrayStop c | .planLoad c | .planRead c
  | .beamStart c | .beamStop c | .beamWeights c | .beamCapture c | .topkSet c | .excPolicy c | .flagPost c
  | .cchStart c | .cchRetune c | .cchStop c | .engLoad c | .engStart c | .engHalt c | .engResume c
  | .decCodeLoad c | .decProfileLoad c | .arbSet c | .posAcquire c | .posRelease c | .posClear c
  | .chainReenum c | .chainPortOn c | .chainTopoRead c | .chainRoleSwap c | .chainPosAcquire c | .chainPosRelease c
  | .chainPosClear c | .tuSet c | .tuLabel c | .refSet c | .softReset c | .blockReset c | .dieSet c | .sleepEnter c
  | .selfProtect c | .faultLogRead c | .chainReset c => c.wf
  | _ => true

end Sys2Proof
end

