-- ==== Sys2Proof/Safety.lean ====
section
/-! DEFINITION. What the claims call a sound state: the memory in its canonical form and the queue of well-formed commands. -/
namespace Sys2Proof.Machine

open Sys2Proof

/-- The HBM contents are in canonical form: addresses rising, no entry equal to what an unlisted address reads as. -/
abbrev Memory.wf (m : List Host.Cell) : Bool := wfT 0 m

/-- Every command that waits is well formed. -/
def State.queueWf (s : State) : Bool := s.pending.all Instr.wf

/-- The invariant of every step. -/
def State.Inv (s : State) : Prop := Memory.wf s.hbm = true ∧ s.queueWf = true

/-- The commands beside the restarts that can write the HBM contents: a burst, a freed allocation, the reset of a memory
controller, a die switched on or off, and the boundary that takes a die out. -/
def writesHbm : Instr → Bool
  | .memFree .. | .dmaBurst .. | .blockBoundary | .blockIdle .. | .blockIdleTimeout .. | .setupCommit | .dieSet .. | .thermalRead ..
  | .functionLevelReset .. => true
  | _ => false

/-- The commands beside the restarts that can write committed registers: the commits, the registers whose shadow and
committed value change together, and the configuration of a start. -/
def writesCommitted : Instr → Bool
  | .setupCommit | .arbCommit | .arbSet .. | .refSet .. | .refLoopWrite .. | .rootSteerWrite .. | .registerWrite .. | .dieSet ..
  | .thermalRead .. | .domainWorkEnd .. => true
  | _ => false

/-- The commands that can restart the device or put it to sleep. -/
def restarts : Instr → Bool
  | .powerOn | .brownOut | .pinReset | .watchdogExpiry | .debugReset | .clockFailure | .lockup | .softReset .. | .pcieHotReset
  | .nvfsPulseEnd | .pwrGoodRise .. | .resetReq .. | .sleepReqAssert | .wakeN | .chainWakeDetect .. | .sleepTimerExpiry
  | .latchedWake | .thermalRead .. | .functionLevelReset .. => true
  | _ => false

/-! ### Ring commands: when the device starts one, and the state its own checks meet -/

/-- The address of the descriptor that ring `q` gives next (R250). -/
def State.descIova (s : State) (fn q : Nat) : Nat := (s.ring fn q).base + 64 * ((s.ring fn q).c.toNat % (s.ring fn q).depth)

/-- The state after the read of the descriptor: the consumer index has advanced and the command counts as outstanding. -/
def State.begun (s : State) (c : RingCmd) : State :=
  (s.translate c.fn (s.descIova c.fn c.q) false c.desc).1.consume c.fn c.q

/-- The descriptor of the command can be read at the consumer index now (R245, R247, R255 to R257, R265, R277). -/
def State.readable (s : State) (c : RingCmd) : Bool :=
  s.canStart c.fn c.q c.fence && (s.translate c.fn (s.descIova c.fn c.q) false c.desc).2.isSome

/-- The descriptor is read and passes what every command meets before its own checks: the device is awake, no reserved bit
is set and VERSION is 1, the function may give it, and its buffer, if any, is readable. -/
def State.starts (s : State) (pf : Bool) (c : RingCmd) : Bool :=
  s.readable c && s.rst.sleep == .awake && !c.reserved && c.version == 1 && (!pf || c.fn == 0)
    && (c.buf.isEmpty || ((s.begun c).translate c.fn c.bufIova.toNat false c.bufAcc).2.isSome)

/-- The state that a command's own checks meet. -/
def State.started (s : State) (c : RingCmd) : State :=
  if c.buf.isEmpty then s.begun c else ((s.begun c).translate c.fn c.bufIova.toNat false c.bufAcc).1

/-- The opcode of a ring command, whether only the PF may give it, and its descriptor (Table 10.8). -/
def ringCmd : Instr → Option (Nat × Bool × RingCmd)
  | .nop c => some (0x00, false, c)
  | .dmaCopy c => some (0x02, false, c)
  | .memAlloc c => some (0x03, false, c)
  | .memFree c => some (0x04, false, c)
  | .tuInval c => some (0x05, true, c)
  | .laneMapSwitch c => some (0x08, true, c)
  | .laneGroupRestart c => some (0x09, true, c)
  | .chnGainLoad c => some (0x0A, true, c)
  | .chnStatsRead c => some (0x0B, false, c)
  | .subarrayStart c => some (0x10, false, c)
  | .subarrayStop c => some (0x11, false, c)
  | .planLoad c => some (0x12, false, c)
  | .planRead c => some (0x13, false, c)
  | .beamStart c => some (0x18, false, c)
  | .beamStop c => some (0x19, false, c)
  | .beamWeights c => some (0x1A, false, c)
  | .beamCapture c => some (0x1B, false, c)
  | .topkSet c => some (0x1C, false, c)
  | .excPolicy c => some (0x20, false, c)
  | .flagPost c => some (0x21, false, c)
  | .cchStart c => some (0x28, false, c)
  | .cchRetune c => some (0x29, false, c)
  | .cchStop c => some (0x2A, false, c)
  | .engLoad c => some (0x30, false, c)
  | .engStart c => some (0x31, false, c)
  | .engHalt c => some (0x32, false, c)
  | .engResume c => some (0x33, false, c)
  | .decCodeLoad c => some (0x38, true, c)
  | .decProfileLoad c => some (0x39, true, c)
  | .arbSet c => some (0x40, true, c)
  | .posAcquire c => some (0x41, false, c)
  | .posRelease c => some (0x42, false, c)
  | .posClear c => some (0x43, false, c)
  | .chainReenum c => some (0x48, true, c)
  | .chainPortOn c => some (0x49, true, c)
  | .chainTopoRead c => some (0x4A, true, c)
  | .chainRoleSwap c => some (0x4B, true, c)
  | .chainPosAcquire c => some (0x4C, false, c)
  | .chainPosRelease c => some (0x4D, false, c)
  | .chainPosClear c => some (0x4E, false, c)
  | .tuSet c => some (0x50, true, c)
  | .tuLabel c => some (0x51, false, c)
  | .refSet c => some (0x52, true, c)
  | .softReset c => some (0x58, true, c)
  | .blockReset c => some (0x59, true, c)
  | .dieSet c => some (0x5A, true, c)
  | .sleepEnter c => some (0x5B, true, c)
  | .selfProtect c => some (0x5C, false, c)
  | .faultLogRead c => some (0x5D, true, c)
  | .chainReset c => some (0x5E, true, c)
  | _ => none

/-! ### Instructions of an engine: when one issues, and what every plain one leaves -/

/-- The engine as the instruction at its PC meets it: the results due have landed (R200). -/
def State.landed (s : State) (e : Nat) : Eng :=
  { ((s.eng e).landTo (s.eng e).set.cyc) with issued := (s.eng e).issued || !(s.eng e).inh }

/-- The state that the instruction's own effect meets. -/
def State.atIssue (s : State) (e : Nat) : State := s.modEng e fun _ => s.landed e

/-- The memory access fields of an instruction word; none where one does not decode (R199). -/
def fieldsOf (o : EngOp) : Option (List Field) :=
  match fieldOfBits o.ma, fieldOfBits o.mb with
  | .ok a, .ok b => some (a.toList ++ b.toList)
  | _, _ => none

/-- The instruction issues on the engine now, and neither its place nor its accesses fault (R192, R194, R196, R199, R202,
R203). -/
def State.issues (s : State) (e : Nat) (k : IssueKind) (o : EngOp) (own : List Field) : Bool :=
  let x := s.landed e
  s.canIssue e && !seqFault x.set k && match fieldsOf o with
    | none => false
    | some l =>
      let fs := accessesOf x l
      let os := accessesOf x own
      ((s.atIssue e).accessFault e fs).isNone && ((s.atIssue e).accessFault e os).isNone
        && decide (((fs ++ os).filter fun f => isGroupWord f.1.bus f.2).length ≤ 1)

/-- What follows an instruction's own effect, which gave `v`: its accesses start, the generators advance, the PC moves and
`n` cycles pass. -/
def State.finish (s v : State) (e : Nat) (k : IssueKind) (n : Nat) (o : EngOp) (own : List Field) : State :=
  let l := (fieldsOf o).getD []
  v.modEng e fun y =>
    let y := (accessesOf (s.landed e) l).foldl (fun y f => y.access f.1 f.2) y
    let y := (l ++ own).foldl Eng.advance y
    (if k == .hold || k == .micro then y else y.nextPc).modSet fun r => { r with cyc := r.cyc + n }

/-- What every instruction leaves whose results are in flight: `n` cycles have passed and the PC has moved on; no other
engine and nothing outside the engines has changed, and no register, flag or memory word of the engine before a result lands
(the counter of a loop goes with the PC; generators advance as the access fields say). -/
def EngStep (s t : State) (e n : Nat) : Prop :=
  let g := s.landed e
  let y := t.eng e
  t = { s with engs := t.engs, free := t.free } ∧ (∀ k : Nat, k ≠ e → t.eng k = s.eng k) ∧ y.inh = g.inh ∧
    y.set.d = g.set.d ∧ y.set.a = g.set.a ∧ y.set.sr = g.set.sr ∧ y.set.lc1 = g.set.lc1 ∧ y.set.lc0 = g.nextPc.set.lc0 ∧
    y.set.retStack = g.set.retStack ∧ (if g.inh then y.main = g.main else y.shad = g.shad) ∧ y.mem = g.mem ∧ y.pend = g.pend ∧
    y.spc = g.spc ∧ y.rpi = g.rpi ∧ y.shr = g.shr ∧ y.shc = g.shc ∧ y.tmr = g.tmr ∧ y.imaskLo = g.imaskLo ∧ y.imaskHi = g.imaskHi ∧
    y.ivec = g.ivec ∧ y.abvec = g.abvec ∧ y.entry = g.entry ∧ y.bound = g.bound ∧ y.set.cyc = g.set.cyc + n ∧ y.pc = g.nextPc.pc

/-! ### Frames of the management chain (R309) -/

/-- A frame whose source is this package has come back to it. -/
def State.ownBack (s : State) (f : Frame) : Bool := f.src == s.mgmt.addr && f.src != 0x40

/-- The port accepts the frame, and it is for this package, new to it and not its own. -/
def State.hears (s : State) (p : Nat) (f : Frame) : Bool :=
  let g := s.goodFrame p f
  (s.port p).isUp && g.isForMe f && !g.ownBack f && !g.seenBefore f

/-- The state that a delivered frame's own effect meets: the frame acknowledged and its (SRC, SEQ) noted. -/
def State.heard (s : State) (p : Nat) (f : Frame) : State := (s.goodFrame p f).noteSeen f

/-- The state after a frame accepted in `s` whose delivery left `v`: passed on unless it ends here. -/
def State.passed (s : State) (p : Nat) (f : Frame) (link : Bool) (v : State) : State :=
  let g := s.goodFrame p f
  if link || g.ownBack f || (f.dst != 0x7F && g.isForMe f) then v else v.forward p f

/-! ### Starts -/

/-- The outcome is the beginning of a start of this source, cold or warm: what it keeps, and that nothing else stays
(R355, R356, R360, R361). An interrupted start counts in REPEAT, and a cold one makes the next cold. -/
def Restarted (s : State) (source : Nat) (warm : Bool) (o : Host.Outcome State Fault Refusal) : Prop :=
  ∃ t, o = .next t ∧ t.rst.source = source ∧ t.rst.warm = (warm && !(s.rst.power == .starting && !s.rst.warm)) ∧
    t.rst.released = 0 ∧ t.rst.workDone = [] ∧ t.rst.blocks = [] ∧
    t.comm = (if source = 0 then [] else if t.rst.warm then s.comm else backups s.comm) ∧ t.shadow = t.comm ∧
    t.setup = {} ∧ t.rings = [] ∧ t.hbm = [] ∧ t.dies = [] ∧ t.subs = [] ∧ t.beams = [] ∧ t.chains = [] ∧ t.engs = [] ∧
    t.tlb = [] ∧ t.dmas = [] ∧ t.out = s.out ∧ t.pending = s.pending

end Sys2Proof.Machine
end

