-- ==== Sys2Proof/Certificates/Slice0/Obligations.lean ====
section
/-! DEFINITION. The statements about the block for the provers. -/
section

open Sys2Proof Sys2Proof.Machine

/-- A step runs the command at the front of the queue. (The model's queue (NOTES.md, log entry 1)) -/
def Obligations.StepRunsTheFrontCommand : Prop :=
  ∀ (c : Instr) (r : List Instr) (s : State), s.pending = c :: r → step s = exec c { s with pending := r }

/-- Every step keeps the memory canonical and the queue well formed. (03_corner_turn_memory.md, 10_host_rings.md (R259,
R271)) -/
def Obligations.EveryStepKeepsTheStateSound : Prop :=
  ∀ s t : State, s.Inv → step s = .next t → t.Inv

/-- The state after power-on is sound. (14_reset_sleep_power.md) -/
def Obligations.ResetIsSound : Prop :=
  State.reset.Inv

/-- HBM contents change only through the commands that write memory or restart the device. (10_host_rings.md (R246, R259,
R268, R271), 14_reset_sleep_power.md (R356, R367, R369, R370, R374)) -/
def Obligations.OnlyNamedCommandsWriteHbm : Prop :=
  ∀ (c : Instr) (s t : State), writesHbm c = false → restarts c = false → exec c s = .next t →
    ∀ a n : Nat, t.hbmRead a n = s.hbmRead a n

/-- Committed registers change only through the commits, the immediate registers and the start. (00_scope.md (R17, R18),
10_host_rings.md (R247)) -/
def Obligations.CommittedSetupChangesOnlyByItsCommands : Prop :=
  ∀ (c : Instr) (s t : State), writesCommitted c = false → restarts c = false → exec c s = .next t →
    ∀ off : Nat, t.reg off = s.reg off

/-- Once sealed, the setup stays sealed until the device restarts or sleeps. (10_host_rings.md (R247)) -/
def Obligations.SealStaysUntilARestart : Prop :=
  ∀ (c : Instr) (s t : State), restarts c = false → s.setup.sealed = true → exec c s = .next t → t.setup.sealed = true

/-- The state after power-on. (00_scope.md (R17), 10_host_rings.md (R247, R250), 08_cellek_engines.md (R216),
11_tenants_arbitration_locks.md (R295), 14_reset_sleep_power.md (R353, R354)) -/
def Obligations.ResetLeavesTheColdState : Prop :=
  (∀ off : Nat, State.reset.reg off = (coldReg off).toNat ∧ State.reset.shadowReg off = (coldReg off).toNat) ∧
  State.reset.setup.sealed = false ∧ State.reset.setup.busy = false ∧ State.reset.setup.lost = false ∧
  (∀ fn q : Nat, (State.reset.ring fn q).state = .off ∧ (State.reset.ring fn q).p = 0 ∧ (State.reset.ring fn q).c = 0) ∧
  (∀ x : Nat, (State.reset.lane x).st = .down ∧ (State.reset.group x).st = .disabled) ∧
  (∀ c : Nat, (State.reset.chain c).state = .free) ∧
  (∀ e : Nat, (State.reset.eng e).st = .reset ∧ (State.reset.eng e).pc = 0 ∧ (State.reset.eng e).pend = 0) ∧
  (∀ n : Nat, (State.reset.lock n).holder = none ∧ (State.reset.lock n).mark = 0 ∧ (State.reset.lock n).waiters = []) ∧
  (∀ d : Nat, (State.reset.dom d).valid = false) ∧
  State.reset.rst.powerGood = false ∧ State.reset.rst.power = .off ∧ State.reset.hbm = [] ∧ State.reset.pending = []

/-- A step with no command waiting is one management clock cycle. (13_time_and_reference.md (R330)) -/
def Obligations.IdleStepCountsTime : Prop :=
  ∀ s : State, s.pending = [] →
    ∃ t, step s = .next t ∧ t.time.c = (if s.time.running then s.time.c + 5 else s.time.c)

/-- What every ring command meets before its own checks. (10_host_rings.md (R247, R255, R256, R257),
14_reset_sleep_power.md (R370)) -/
def Obligations.RingCommandPrologue : Prop :=
  ∀ (i : Instr) (opc : Nat) (pf : Bool) (c : RingCmd) (s : State), ringCmd i = some (opc, pf, c) →
    (s.canStart c.fn c.q c.fence = false → exec i s = .next s) ∧
    (s.readable c = true → s.rst.sleep ≠ .awake → exec i s = .next ((s.begun c).complete (s.refOf c opc) stSleeping noField 0)) ∧
    (s.readable c = true → s.rst.sleep = .awake → (c.reserved = true ∨ c.version ≠ 1) →
      exec i s = .next ((s.begun c).complete (s.refOf c opc) stConflict 0 0)) ∧
    (s.readable c = true → s.rst.sleep = .awake → c.reserved = false → c.version = 1 → pf = true → c.fn ≠ 0 →
      exec i s = .next ((s.begun c).complete (s.refOf c opc) stDecerr 0 0))

/-- NOP completes OK. (10_host_rings.md (R256, R257, Table 10.8)) -/
def Obligations.NopCompletesOk : Prop :=
  ∀ (c : RingCmd) (s : State), s.starts false c = true →
    ∃ t, exec (.nop c) s = .next t ∧ t = { s with rings := t.rings, tlb := t.tlb } ∧
      t.rings = ((s.consume c.fn c.q).complete (s.refOf c 0x00) stOK 0 0).rings

/-- A doorbell publishes the index of its ring. (10_host_rings.md (R250, R253, Table 10.4)) -/
def Obligations.DoorbellPublishesTheIndex : Prop :=
  ∀ (fn : Fin 256) (q : Fin 128) (v : W32) (s : State),
    let r := s.ring fn q
    let i := BitVec.ofNat 24 v.toNat
    s.ready = true → s.fnExists fn = true → r.enabled = true → r.state = .run → r.goodIndex i = true →
    (r.kind = 0 → exec (.doorbell fn q v) s = .next (s.modRing fn q fun r => { r with p := i, tail := i })) ∧
    (r.kind ≠ 0 → bit v.toNat 31 = false → exec (.doorbell fn q v) s = .next (s.modRing fn q fun r => r.publish i)) ∧
    (r.kind ≠ 0 → bit v.toNat 31 = true →
      ∃ t, exec (.doorbell fn q v) s = .next t ∧ t = { s with rings := t.rings, fns := t.fns, out := t.out } ∧ (t.ring fn q).c = i ∧
        (t.ring fn q).armed = decide ((r.p - i).toNat = 0) ∧
        t.out = s.out ++ (if (r.p - i).toNat ≠ 0 ∧ (s.fn fn).msixMask.contains r.vec = false then [.msix fn r.vec] else []))

/-- A doorbell that breaks the rules, and a ring read that times out, place the ring in ERROR. (10_host_rings.md (R250,
R254), 11_tenants_arbitration_locks.md (R298)) -/
def Obligations.BadDoorbellStopsTheRing : Prop :=
  ∀ (fn : Fin 256) (q : Fin 128) (v : W32) (s : State),
    let r := s.ring fn q
    let i := BitVec.ofNat 24 v.toNat
    (s.ready = true → s.fnExists fn = true → r.enabled = true → r.state = .run → r.goodIndex i = false →
      exec (.doorbell fn q v) s = .next ((s.modRing fn q fun r => { r with tail := i }).ringError fn q 1)) ∧
    (r.enabled = false → exec (.doorbell fn q v) s = .next s) ∧
    (r.runs 0 = true → r.used ≠ 0 → exec (.ringReadTimeout fn q) s = .next (s.ringError fn q 3))

/-- Completions, records and the overflow event are written at the producer index. (10_host_rings.md (R251, R252, R253,
R257, R263)) -/
def Obligations.RingWritesReachTheHost : Prop :=
  ∀ (fn : Fin 256) (q : Fin 128) (acc : HostAcc) (s : State),
    let r := s.ring fn q
    (∀ (c : Cpl) (cs : List Cpl) (a : Nat) (u : State), r.cplWait = c :: cs → r.runs 1 = true → r.isFull = false →
      s.translate fn (r.base + 16 * (r.p.toNat % r.depth)) true acc = (u, some a) →
      exec (.completionWrite fn q acc) s = .next (((u.emit (.hostWrite fn (r.base + 16 * (r.p.toNat % r.depth))
        (c.bytes ((r.p.toNat / r.depth + 1) % 2) (s.ring fn c.cmd.q).c.toNat))).modRing fn q
          fun x => { x with p := x.p + 1, cplWait := cs }).ringIrq fn q)) ∧
    (∀ (x : Rec) (xs : List Rec) (a : Nat) (u : State), r.staged = x :: xs → r.runs 2 = true → (x.len + 63) / 64 * 64 ≤ r.room →
      s.translate fn (r.base + r.p.toNat % r.capacity) true acc = (u, some a) →
      let p := r.p + BitVec.ofNat 24 ((x.len + 63) / 64 * 64)
      let w := (u.forEach (wrapWrites fn r.base r.capacity (r.p.toNat % r.capacity) x.bytes) State.emit).emit
        (.hostWrite fn r.wb (le32 p.toNat))
      exec (.outRecordWrite fn q acc) s = .next (((match x.die with | some d => w.subStaging d x.tenant x.len | none => w).modRing fn q
        fun y => { y with p := p, staged := xs, recEnds := y.recEnds ++ [p] }).ringIrq fn q)) ∧
    (∀ g : Ring, s.ring fn (s.fn fn).evtQ = g → (s.fn fn).evtFull ≠ 0 → (s.fn fn).evtValid = true → g.runs 3 = true → g.isFull = false →
      exec (.evtOverflow fn) s = .next ((s.writeEvt fn (s.fn fn).evtQ (0x06 * 256) (15 * 2 ^ 28) (s.fn fn).evtFull 0).modFn fn
        fun f => { f with evtFull := 0 }))

/-- A register write follows the access code of its field. (00_scope.md (R16, R17), 10_host_rings.md (R245, R247, R248)) -/
def Obligations.RegisterWritesFollowTheirAccess : Prop :=
  ∀ (fn : Fin 256) (off size : Nat) (v : W32) (bar : Bar) (q : Fin 128) (s : State),
    ((size ≠ 4 ∨ off % 4 ≠ 0 ∨ s.fnExists fn = false) → exec (.registerWrite fn bar off size v) s = .next s) ∧
    (∀ d : RegDesc, s.ready = true → s.setup.busy = false → off % 4 = 0 → findReg off = some d → d.rw = 0 → d.ws ≠ 0 →
      off ≠ 0x300000 → (off < 0x400100 ∨ 0x400140 ≤ off) → (off < 0xB50004 ∨ 0xB50060 ≤ off ∨ off % 8 = 0) → off ≠ 4 →
      off < 0xE10000 → off ≠ 0xD00140 → off ≠ 0xD0014C →
      (s.setup.sealed = false →
        exec (.registerWrite 0 .bar2 off 4 v) s = .next (s.setShadow off (mergeBits d.ws (s.shadowReg off) v.toNat))) ∧
      (s.setup.sealed = true → exec (.registerWrite 0 .bar2 off 4 v) s = .next s)) ∧
    (s.ready = true → s.setup.busy = false →
      exec (.registerWrite 0 .bar2 0xE00020 4 v) s = .next (s.setBoth 0xE00020 (mergeBits 0xFFFFFFFF (s.reg 0xE00020) v.toNat))) ∧
    (s.ready = true → s.setup.busy = true → off % 4 = 0 → (off < 0xE10000 ∨ 0xE20000 ≤ off) →
      exec (.registerWrite 0 .bar2 off 4 v) s = .next { s with setup := { s.setup with lost := true } }) ∧
    (s.ready = true → s.fnExists fn = true →
      exec (.registerWrite fn .bar0 (0x1000 + 32 * q.val) 4 v) s =
        .next (s.modRing fn q fun r => { r with sh := { r.sh with baseLo := BitVec.ofNat 32 (v.toNat &&& 0xFFFFF000) } }))

/-- SETUP_COMMIT, its completion and SETUP_SEAL. (00_scope.md (R18), 10_host_rings.md (R247)) -/
def Obligations.SetupCommitsAllOrNothing : Prop :=
  ∀ s : State, s.ready = true →
    (s.setup.busy = true → exec .setupCommit s = .next { s with setup := { s.setup with lost := true } } ∧
      exec .setupSeal s = .next { s with setup := { s.setup with lost := true } }) ∧
    (s.setup.busy = false → s.setup.sealed = true →
      exec .setupCommit s = .next { s with setup := { s.setup with last := 0x16 } } ∧
      exec .setupSeal s = .next { s with setup := { s.setup with last := 0x16 } }) ∧
    (s.setup.busy = false → s.setup.sealed = false →
      (∀ k : Conflict, s.commitConflict = some k →
        ∃ t, exec .setupCommit s = .next t ∧ t = { s with setup := t.setup } ∧ t.setup.busy = true ∧ t.setup.sealed = false) ∧
      (s.commitConflict = none →
        ∃ t, exec .setupCommit s = .next t ∧ t.comm = s.committed ∧ t.setup.busy = true ∧ t.setup.result = some (0, 0, 0, 0)) ∧
      (∀ off : Nat, s.lowestPending = some off → exec .setupSeal s = .next { s with setup :=
        { s.setup with last := 0x13, confClass := 8, confA := BitVec.ofNat 24 off, confB := 0 } }) ∧
      (s.lowestPending = none →
        ∃ t, exec .setupSeal s = .next t ∧ t.setup.sealed = true ∧ t.setup.last = 0 ∧ t.setup.confClass = 0 ∧ t.setup.confA = 0 ∧
          t.setup.confB = 0 ∧ t = { s with setup := t.setup, dies := t.dies })) ∧
    (∀ (st cls : Byte) (a b : BitVec 24), s.setup.result = some (st, cls, a, b) → exec .setupCommitDone s = .next { s with setup :=
      { s.setup with busy := false, result := none, last := st, confClass := cls, confA := a, confB := b } })

/-- A function commit applies every ring register of the function or none. (10_host_rings.md (R248, R250)) -/
def Obligations.FunctionCommitIsWhole : Prop :=
  ∀ (fn : Fin 256) (s : State), s.ready = true → s.fnExists fn = true →
    let u := s.modFn fn fun f => { f with rsnap := [] }
    (u.fnCommitCheck fn ≠ stOK →
      exec (.functionCommit fn) s = .next (u.modFn fn fun f => { f with last := BitVec.ofNat 8 (u.fnCommitCheck fn) })) ∧
    (u.fnCommitCheck fn = stOK → (∀ q : Fin 128, cfgEnabled (s.ring fn q).co = true → cfgEnabled (s.ring fn q).sh = true) →
      ∃ t, exec (.functionCommit fn) s = .next t ∧ t = { s with rings := t.rings, fns := t.fns } ∧
        t.fns = modT {} u.fns fn (fun f => { f with last := 0, evtValid := f.evtValidSh, evtQ := f.evtQSh, staleValid := f.staleValidSh, staleQ := f.staleQSh }) ∧
        ∀ q : Fin 128, cfgEnabled (s.ring fn q).sh = true →
          (t.ring fn q).co = (s.ring fn q).sh ∧
          (if cfgEnabled (s.ring fn q).co then (t.ring fn q).p = (s.ring fn q).p ∧ (t.ring fn q).c = (s.ring fn q).c
            else (t.ring fn q).state = .run ∧ (t.ring fn q).p = 0 ∧ (t.ring fn q).c = 0))

/-- MEM_ALLOC and MEM_FREE. (03_corner_turn_memory.md (R92), 10_host_rings.md (R259)) -/
def Obligations.AllocationsFollowQuotaAndPool : Prop :=
  ∀ (c : RingCmd) (s : State), s.starts false c = true →
    let u := s.started c
    let r := s.refOf c 0x03
    let d := fld c.arg0.toNat 1 0
    let n := c.arg1.toNat
    (n = 0 → exec (.memAlloc c) s = .next (u.complete r stConflict 0x24 0)) ∧
    (n ≠ 0 → u.dieOn d = false → exec (.memAlloc c) s = .next (u.complete r stCapacity 0x20 0)) ∧
    (∀ h : Nat, n ≠ 0 → u.dieOn d = true → u.freeHandle = some h →
      (u.hbmQuota c.fn d < u.granulesOf c.fn d + n → exec (.memAlloc c) s = .next (u.complete r stQuota 0x24 1)) ∧
      (u.granulesOf c.fn d + n ≤ u.hbmQuota c.fn d → u.poolSize d < u.granulesOf c.fn d + n →
        exec (.memAlloc c) s = .next (u.complete r stCapacity 0x24 2)) ∧
      (u.granulesOf c.fn d + n ≤ u.hbmQuota c.fn d → u.granulesOf c.fn d + n ≤ u.poolSize d → u.poolSize d < u.poolUsed d + n →
        u.deferredOf c.fn < 64 → exec (.memAlloc c) s = .next (({ u with allocs := u.allocs ++
          [{ handle := h, tenant := c.fn, die := d, granules := n, senior := s.now }] } : State).complete r stDeferred (u.onDeck d n) h)) ∧
      (u.granulesOf c.fn d + n ≤ u.hbmQuota c.fn d → u.granulesOf c.fn d + n ≤ u.poolSize d → u.poolUsed d + n ≤ u.poolSize d →
        exec (.memAlloc c) s =
          .next (({ u with handles := setT none u.handles h (some { tenant := c.fn, die := d, granules := n }) } : State).complete r stOK h 0))) ∧
    (∀ a : Handle, getT none s.handles c.arg0.toNat = some a →
      (a.tenant ≠ c.fn.val → exec (.memFree c) s = .next (u.complete (s.refOf c 0x04) stConflict 0x20 0)) ∧
      (a.tenant = c.fn.val → u.handleBusy c.arg0.toNat = false →
        exec (.memFree c) s = .next ((u.freeAlloc c.arg0.toNat).complete (s.refOf c 0x04) stOK 0 0) ∧
          ∀ b : Nat, b < 2 ^ 36 → (u.freeAlloc c.arg0.toNat).hbmRead (c.arg0.toNat * 2 ^ 36 + b) 1 = [0])) ∧
    (getT none s.handles c.arg0.toNat = none → exec (.memFree c) s = .next (u.complete (s.refOf c 0x04) stConflict 0x20 0))

/-- TU_INVAL removes the cached translations of the tenant in the range. (10_host_rings.md (R266)) -/
def Obligations.InvalidationDropsTheCachedTranslations : Prop :=
  ∀ (c : RingCmd) (s : State), s.starts true c = true →
    let u := s.started c
    let tn := fld c.arg0.toNat 7 0
    let lo := c.arg1.toNat + 2 ^ 32 * c.arg2.toNat
    let n := c.arg3.toNat + 2 ^ 32 * c.arg4.toNat
    let hit (e : Tlb) : Bool := e.tenant == tn && (bit c.arg0.toNat 31 || (decide (e.iova < lo + n) && decide (lo < e.iova + e.size)))
    ∃ t, exec (.tuInval c) s = .next t ∧ t.tlb = u.tlb.filter (fun e => !hit e) ∧
      (s.invals = [] → s.xlatBusy tn = false →
        t = ({ u with tlb := t.tlb } : State).complete (s.refOf c 0x05) stOK 0 0)

/-- DMA_COPY is checked and queued on its channel. (10_host_rings.md (R268, R269)) -/
def Obligations.DmaCopyQueuesATransfer : Prop :=
  ∀ (c : RingCmd) (s : State), s.starts false c = true →
    let u := s.started c
    let r := s.refOf c 0x02
    let ch := fld c.arg7.toNat 4 0
    let w (i : Nat) : Nat := ([c.arg0, c.arg1, c.arg2, c.arg3, c.arg4, c.arg5, c.arg6, c.arg7].getD (min i 7) 0).toNat
    let x := xferOf w
    (xferReserved w = true → exec (.dmaCopy c) s = .next (u.complete r stConflict noField 0)) ∧
    (xferReserved w = false → (u.dmaValid ch = false ∨ u.dmaGroupMode ch = true ∨ u.dmaTenant ch ≠ c.fn.val) →
      exec (.dmaCopy c) s = .next (u.complete r stConflict 0x3C 0)) ∧
    (xferReserved w = false → u.dmaValid ch = true → u.dmaGroupMode ch = false → u.dmaTenant ch = c.fn.val → x.pulse = 1 →
      fld (w 0) 15 8 = 0 → u.xferOk c.fn x = true → u.resetting 34 = false →
      exec (.dmaCopy c) s = .next ((u.modDma ch fun y => { y with queue := y.queue ++ [{ x with cmd := some r }] }).dmaNext ch) ∧
      ((u.dma ch).cur = none → (u.dma ch).queue = [] →
        ∃ t, exec (.dmaCopy c) s = .next t ∧ (t.dma ch).cur = some { x with cmd := some r } ∧ (t.dma ch).queue = []))

/-- A burst between allocations copies its bytes and nothing else of memory. (10_host_rings.md (R270, R271, R273)) -/
def Obligations.DmaMovesHbmToHbm : Prop :=
  ∀ (ch : Fin 32) (x : Xfer) (hd : List Byte) (a1 a2 : HostAcc) (s : State), (s.dma ch).cur = some x →
    x.status = 0 → x.moved < x.len → s.inReset 34 = false →
    exec (.dmaBurst ch hd a1 a2 .resetting) s = .next (s.stopXfer ch stResetting) ∧
    (s.xferResetting x = false → exec (.dmaBurst ch hd a1 a2 .decerr) s = .next (s.stopXfer ch stDecerr)) ∧
    (s.xferResetting x = false → x.src = 1 → x.dst = 1 → s.grantAll ch (s.hbmDies x) = (s, true) →
      let n := min 512 (x.len - x.moved)
      let sa := (x.srcA.toNat + x.moved) / 2 ^ 48 * 2 ^ 36 + (x.srcA.toNat + x.moved) % 2 ^ 36
      let da := (x.dstA.toNat + x.moved) / 2 ^ 48 * 2 ^ 36 + (x.dstA.toNat + x.moved) % 2 ^ 36
      ∃ t, exec (.dmaBurst ch hd a1 a2 .ok) s = .next t ∧ t.hbm = setRun 0 s.hbm da (s.hbmRead sa n) ∧
        ((t.dma ch).cur.map (·.moved)) = some (x.moved + n) ∧
        ∀ a : Nat, (a < da ∨ da + n ≤ a) → t.hbmRead a 1 = s.hbmRead a 1)

/-- The end of a transfer, a read timeout and the end of a withdrawal. (10_host_rings.md (R272, R273),
11_tenants_arbitration_locks.md (R286)) -/
def Obligations.DmaTransfersEndAndTimeOut : Prop :=
  ∀ (ch : Fin 32) (die : Fin 4) (k : Fin 2) (port : Fin 8) (s : State),
    (∀ (x : Xfer) (r : CmdRef), (s.dma ch).cur = some x → (x.status ≠ 0 ∨ x.len ≤ x.moved) → x.pulse = 1 → x.cmd = some r → x.entry = none →
      x.toData = false → s.invals = [] →
      exec (.dmaTransferEnd ch) s = .next ((((s.modDma ch fun y => { y with cur := none, done := y.done + 1 }).dropGrants (ch + 8)).complete r
        x.status.toNat (if x.status = 0 then x.moved else noField) 0).dmaNext ch)) ∧
    (∀ x : Xfer, (s.dma ch).cur = some x → x.status = 0 → x.src = 0 → x.moved < x.len →
      exec (.dmaReadTimeout ch) s = .next (s.stopXfer ch stDecerr)) ∧
    exec (.dmaWithdrawalEnd ch die k port) s = .next (s.modStack die k fun y =>
      { y with withdrawn := y.withdrawn.filter fun w => !(w.1 == ch.val && w.2 == port.val) })

/-- Every reset source begins its start. (10_host_rings.md (R246), 14_reset_sleep_power.md (R355, R356, R360, R363)) -/
def Obligations.ResetSourcesRestartTheDevice : Prop :=
  ∀ (s : State) (c : RingCmd),
    Restarted s 0 false (exec .powerOn s) ∧
    (s.running = true → s.rst.nvfsBusy = false →
      Restarted s 1 false (exec .brownOut s) ∧
      Restarted s 2 false (exec .pinReset s) ∧
      (4 ≤ s.rst.released → Restarted s 3 true (exec .watchdogExpiry s) ∧ Restarted s 7 true (exec .lockup s)) ∧
      (3 ≤ s.rst.released → Restarted s 6 true (exec .clockFailure s)) ∧
      Restarted s 5 true (exec .debugReset s) ∧
      Restarted s 4 true (exec .pcieHotReset s) ∧
      Restarted s 4 true (exec (.functionLevelReset 0) s) ∧
      (s.starts true c = true → Restarted s 4 true (exec (.softReset c) s)))

/-- A reset during a pulse of the NV store waits for its end. (14_reset_sleep_power.md (R363)) -/
def Obligations.NvPulseDelaysTheReset : Prop :=
  ∀ s : State,
    (s.running = true → s.rst.nvfsBusy = true → s.rst.delayed = none →
      exec .debugReset s = .next (s.modRst fun r => { r with delayed := some (5, true, false) })) ∧
    (∀ (src : Nat) (w th : Bool), s.rst.delayed = some (src, w, th) → Restarted s src w (exec .nvfsPulseEnd s)) ∧
    (s.rst.delayed = none → exec .nvfsPulseEnd s = .next (s.modRst fun r => { r with nvfsBusy := false }))

/-- Power good and the release of RESET_N sample the straps. (14_reset_sleep_power.md (R353, R354, R360, R362, R376)) -/
def Obligations.SuppliesAndStraps : Prop :=
  ∀ (st : Straps) (low : Bool) (s : State),
    let latched : Straps := { st with boot := if st.boot = 3#2 then 0 else st.boot, hostLanes := if st.hostLanes = 3#2 then 2 else st.hostLanes }
    let bad := decide (st.boot = 3#2) || decide (st.hostLanes = 3#2)
    (s.rst.powerGood = false → s.rst.power = .off →
      ∃ t, exec (.pwrGoodRise st) s = .next t ∧ t = { s with rst := t.rst } ∧ t.rst.powerGood = true ∧ t.rst.power = .starting ∧
        (s.rst.source < 2 → t.rst.straps = latched ∧ t.rst.strapBad = bad) ∧ (2 ≤ s.rst.source → t.rst.straps = s.rst.straps)) ∧
    exec (.pwrGoodFall low) s = .next (s.modRst fun r => { r with powerGood := false, bleed := low }) ∧
    (s.rst.resetLow = true →
      ∃ t, exec (.resetNRelease st) s = .next t ∧ t = { s with rst := t.rst, time := t.time } ∧ t.rst.resetLow = false ∧ t.time.c = s.time.c ∧
        t.rst.held = BitVec.ofNat 32 (satTo 0xFFFFFFFF (aoCycles s.time.aoCount)) ∧
        (s.rst.source = 2 → t.rst.straps = latched ∧ t.rst.strapBad = bad) ∧ (s.rst.source ≠ 2 → t.rst.straps = s.rst.straps)) ∧
    exec .perstN s = .next (s.forEach (s.fns.map (·.1)) fun w k => w.modFn k fun f => { f with msixMask := [], msixPend := [] })

/-- A domain is released only after the one before it and the work it waits for. (13_time_and_reference.md (R329),
14_reset_sleep_power.md (R357, R358, R361, Table 14.4)) -/
def Obligations.DomainsAreReleasedInOrder : Prop :=
  ∀ (n : Fin 14) (w : WorkResult) (s : State),
    (s.mayRelease n = false → exec (.domainRelease n) s = .next s) ∧
    (s.mayRelease n = true →
      (n ∈ [1, 2, 4, 7, 9, 10, 11, 13] → exec (.domainRelease n) s = .next (s.modRst fun r => { r with released := n })) ∧
      (n = 3 → s.rst.source ≠ 8 →
        exec (.domainRelease n) s = .next ((s.modRst fun r => { r with released := n }).modTime fun t => { t with running := true })) ∧
      (n = 5 → ∃ t, exec (.domainRelease n) s = .next t ∧ t = { s with rst := t.rst } ∧ t.rst.released = 5 ∧ t.rst.retained = [] ∧
        (3 ≤ s.rst.rept → t.rst.power = .stuck) ∧ (s.rst.rept < 3 → t.rst.power = .starting)) ∧
      (n = 12 → ∃ t, exec (.domainRelease n) s = .next t ∧ ∀ e : Nat, e < 96 → (s.engOwner e).isSome = true → (t.eng e).st = .halted)) ∧
    (s.rst.power = .starting → n ≠ 0 → n.val ≤ s.rst.released → s.rst.workDone.contains n.val = false →
      (n ∈ [1, 2, 3, 5, 6, 8, 9, 11, 12] →
        exec (.domainWorkEnd n w) s = .next (s.modRst fun r => { r with workDone := r.workDone ++ [n.val] })) ∧
      (n = 13 → ∃ t, exec (.domainWorkEnd n w) s = .next t ∧ t = { s with rst := t.rst, dec := t.dec } ∧ t.rst.power = .ready ∧ t.rst.rept = 0))

/-- RST_BOOT_GO takes a portion and checks the whole image on the last. (14_reset_sleep_power.md (R359)) -/
def Obligations.HostLoadedFirmwareIsChecked : Prop :=
  ∀ (v : W32) (s : State),
    (s.rst.power ≠ .starting → exec (.rstBootGo v) s = .next s) ∧
    (s.rst.power = .starting → s.rst.straps.boot = 1#2 → 5 ≤ s.rst.released → s.rst.booted = false → bit v.toNat 0 = true →
      (bit v.toNat 1 = true → exec (.rstBootGo v) s =
        .next (s.modRst fun r => { r with bootImg := r.bootImg ++ getRun 0 r.bootWin 0 65536, bootParts := r.bootParts + 1 })) ∧
      (bit v.toNat 1 = false →
        let img := s.rst.bootImg ++ getRun 0 s.rst.bootWin 0 (4 * fld v.toNat 31 16)
        ∃ t, exec (.rstBootGo v) s = .next t ∧ t = { s with rst := t.rst } ∧ t.rst.bootImg = [] ∧ t.rst.bootParts = 0 ∧
          t.rst.booted = imageGood (s.rst.bootParts + 1) img ∧ t.rst.bootBad = !imageGood (s.rst.bootParts + 1) img))

/-- BLOCK_RESET, its assertion and its release. (14_reset_sleep_power.md (R366, R368, Tables 14.7, 14.9)) -/
def Obligations.BlockResetsRunTheirPhases : Prop :=
  ∀ (c : RingCmd) (b : Fin 37) (s : State),
    (s.starts true c = true →
      let u := s.started c
      let r := s.refOf c 0x59
      let n := c.arg0.toNat
      (36 < n → exec (.blockReset c) s = .next (u.complete r stConflict 0x20 0)) ∧
      (n ≤ 36 → u.blockReset n = none → exec (.blockReset c) s = .next ((u.setBlock n (some { cmds := [r] })).faultRec (.blockReset n))) ∧
      (∀ x : BlkReset, n ≤ 36 → u.blockReset n = some x →
        exec (.blockReset c) s = .next (u.setBlock n (some { x with cmds := x.cmds ++ [r], remote := x.remote })))) ∧
    (∀ x : BlkReset, s.blockReset b = some x → x.asserted = false →
      exec (.blockIdle b) s = .next ((s.setBlock b (some { x with asserted := true, heldFrom := s.now })).assertBlock b) ∧
      exec (.blockIdleTimeout b) s = exec (.blockIdle b) s) ∧
    (∀ x : BlkReset, s.blockReset b = some x → x.asserted = true →
      exec (.blockIdle b) s = .next s ∧ exec (.blockIdleTimeout b) s = .next s) ∧
    (∀ x : BlkReset, s.blockReset b = some x → x.asserted = true → x.remote = false →
      let u := ((s.setBlock b none).releaseBlock b).modRst fun r => { r with resets := satTo 0xFFFF (r.resets + 1) }
      exec (.blockResetRelease b) s = .next (u.forEach x.cmds fun w r => w.complete r stOK ((u.now - x.heldFrom) / 5) x.absorbed))

/-- The reset of the lock unit. (11_tenants_arbitration_locks.md (R298), 14_reset_sleep_power.md (Table 14.7)) -/
def Obligations.LockUnitResetMarksHeldLocks : Prop :=
  ∀ (x : BlkReset) (s : State), s.blockReset 35 = some x → x.asserted = false →
    ∃ t, exec (.blockIdle 35) s = .next t ∧ ∀ n : Nat, (s.lock n).holder.isSome = true →
      (t.lock n).holder = none ∧ (t.lock n).waiters = [] ∧ (t.lock n).mark = 1

/-- DIE_SET. (14_reset_sleep_power.md (R369)) -/
def Obligations.DieSetAimsAtItsDies : Prop :=
  ∀ (c : RingCmd) (s : State), s.starts true c = true →
    let m := fld c.arg0.toNat 3 0
    (m = 0 → exec (.dieSet c) s = .next ((s.started c).complete (s.refOf c 0x5A) stConflict 0x20 0)) ∧
    (m ≠ 0 → s.grid.started = true → ∃ t, exec (.dieSet c) s = .next t ∧
      t.comm = setT (coldReg 0xE00014) s.comm 0xE00014 (BitVec.ofNat 32 m) ∧ t.shadow = setT (coldReg 0xE00014) s.shadow 0xE00014 (BitVec.ofNat 32 m) ∧
      (∀ d : Nat, d < 4 → bit m d = true → (s.die d).enabled = false → (t.die d).enabled = true ∧ (t.die d).dieReady = false))

/-- Sleep entry step by step, and the wake events. (14_reset_sleep_power.md (R370, R371, Table 14.10)) -/
def Obligations.SleepEntryAndWaking : Prop :=
  ∀ (c : RingCmd) (p : Fin 2) (s : State),
    (s.starts true c = true → s.grid.started = true →
      exec (.sleepEnter c) s = .next ((s.started c).modRst fun x => { x with sleep := .stopping, sleepCmd := some (s.refOf c 0x5B) })) ∧
    (s.rst.sleep ≠ .draining → exec .sleepDrainTimeout s = .next s) ∧
    (s.rst.sleep = .draining →
      let u := s.forEach (List.range 4) State.discardDie
      let u := (u.forEach (u.subs.map (·.1)) State.dropSub)
      let u := (u.forEach (u.beams.map (·.1)) State.dropBeam)
      let u := (u.forEach (u.outLanes.map (·.1)) State.discardLane)
      let u := (u.forEach (u.rings.map (·.1)) State.discardRing)
      exec .sleepDrainTimeout s = .next u.completeFlagPosts.sleepProgress) ∧
    (s.rst.sleep = .noted → s.sleepUnacked = false → ∃ t, exec .sleepReqAssert s = .next t ∧ t.rst.power = .asleep ∧ t.rst.sleep = .requested ∧
      t.time.entryC = s.time.c ∧ t.time.running = false ∧ t.comm = s.comm ∧ t.locks = s.locks ∧ t.hbm = [] ∧ t.rings = [] ∧ t.subs = [] ∧ t.engs = []) ∧
    (bit (s.reg 0xE00024) 0 = false → exec .wakeN s = .next s) ∧
    (bit (s.reg 0xE00024) 0 = true → s.rst.sleep = .requested → s.rst.powerGood = true → Restarted s 8 true (exec .wakeN s)) ∧
    (bit (s.reg 0xE00024) 1 = true → s.rst.sleep = .requested → s.rst.powerGood = true → Restarted s 8 true (exec (.chainWakeDetect p) s)) ∧
    (bit (s.reg 0xE00024) 2 = true → s.rst.sleep = .requested → s.rst.powerGood = true → s.reg 0xE00020 ≠ 0 →
      Restarted s 8 true (exec .sleepTimerExpiry s)) ∧
    (s.rst.sleep = .requested → s.rst.powerGood = true → s.rst.latched ≠ 0 → Restarted s 8 true (exec .latchedWake s)) ∧
    (bit (s.reg 0xE00024) 0 = true → s.rst.sleep = .requested → s.rst.powerGood = false →
      exec .wakeN s = .next (s.modRst fun r => { r with sleepReq := false, sleep := .waking, wake := 1, latched := 0 })) ∧
    (bit (s.reg 0xE00024) 1 = true → s.rst.sleep = .draining → s.rst.latched = 0 →
      exec (.chainWakeDetect p) s = .next (s.modRst fun r => { r with latched := 2 }))

/-- The load governor, the thermal sensors and the SMBus block read. (14_reset_sleep_power.md (R373, R375),
15_pins_package.md (R392)) -/
def Obligations.GovernorAndThermal : Prop :=
  ∀ (i : Fin 17) (cur : BitVec 12) (step : Nat) (deg : Int) (code : Byte) (s : State),
    (step ≤ excessLimit i → exec (.governorSample i cur step) s = .next (s.modGov i fun g => { g with current := cur })) ∧
    (excessLimit i < step → exec (.governorSample i cur step) s = .next ((((s.modGov i fun g => { g with current := cur }).modGov i
      fun g => { g with excess := satTo 4095 (g.excess + 1) }).modGov i fun g => { g with alert := true }).postEvt 0 0x30 0 15 0 i step)) ∧
    (deg < gradeMax - 10 → exec (.thermalRead i deg) s = .next (s.modGov i fun g => { g with temp := deg, warned := false })) ∧
    (gradeMax - 10 ≤ deg → deg < gradeMax → (s.gov i).warned = true →
      exec (.thermalRead i deg) s = .next (s.modGov i fun g => { g with temp := deg, warned := true })) ∧
    (gradeMax - 10 ≤ deg → deg < gradeMax → (s.gov i).warned = false →
      exec (.thermalRead i deg) s = .next (((s.modGov i fun g => { g with temp := deg, warned := true }).modGov i
        fun g => { g with alert := true }).postEvt 0 0x31 0 15 0 i 1)) ∧
    (gradeMax ≤ deg → i.val < 16 → (s.gov i).warned = true → bit (s.fieldOf 0xE00014 3 0) (i / 4) = false →
      exec (.thermalRead i deg) s = .next (s.modGov i fun g => { g with temp := deg, warned := true })) ∧
    (gradeMax ≤ deg → i = 16 → s.running = true → s.rst.nvfsBusy = false →
      ∃ t, exec (.thermalRead i deg) s = .next t ∧ t.rst.source = 7 ∧ t.rst.thermal = true ∧ t.setup = {} ∧ t.rings = []) ∧
    (code.toNat ≤ 0x10 → exec (.smbusBlockRead code) s =
      .next ((s.emit (.smbus (BitVec.ofNat 32 (s.gov code.toNat).word))).modGov code.toNat fun g => { g with alert := false })) ∧
    (0x20 ≤ code.toNat → code.toNat < 0x28 → exec (.smbusBlockRead code) s =
      .next (s.emit (.smbus (BitVec.ofNat 32 (getT ({} : Stack) s.hbmStacks (code.toNat - 0x20)).word)))) ∧
    ((0x10 < code.toNat ∧ code.toNat < 0x20 ∨ 0x28 ≤ code.toNat) → exec (.smbusBlockRead code) s = .next s)

/-- SELF_PROTECT and FAULT_LOG_READ. (14_reset_sleep_power.md (R365, R378)) -/
def Obligations.ProtectionAndFaultLogCommands : Prop :=
  ∀ (c : RingCmd) (s : State),
    (s.starts false c = true →
      let u := s.started c
      let n := c.arg0.toNat
      let bands := bandsOf c.buf n
      ((16 < n ∨ c.buf.length < 16 * n) → exec (.selfProtect c) s = .next (u.complete (s.refOf c 0x5C) stConflict 0x20 0)) ∧
      (n ≤ 16 → 16 * n ≤ c.buf.length → u.destOk c.fn (fld c.arg1.toNat 15 0) = false →
        exec (.selfProtect c) s = .next (u.complete (s.refOf c 0x5C) stConflict (argOff 1) 0)) ∧
      (n ≤ 16 → 16 * n ≤ c.buf.length → u.destOk c.fn (fld c.arg1.toNat 15 0) = true → (bands.any fun b => decide (b.hi < b.lo)) = true →
        exec (.selfProtect c) s =
          .next (u.complete (s.refOf c 0x5C) stConflict (bufOff (16 * bands.findIdx fun b => decide (b.hi < b.lo))) 0)) ∧
      (n ≤ 16 → 16 * n ≤ c.buf.length → u.destOk c.fn (fld c.arg1.toNat 15 0) = true → (bands.any fun b => decide (b.hi < b.lo)) = false →
        exec (.selfProtect c) s = .next (u.modFn c.fn fun f =>
          { f with bands := bands, bandDest := some (fld c.arg1.toNat 15 0), bandsCmds := f.bandsCmds ++ [s.refOf c 0x5C] }))) ∧
    (∀ (v : State) (a : Nat), s.starts true c = true → 32768 ≤ c.resLen →
      ((s.started c).drawFree).translate c.fn c.resIova.toNat true c.resAcc = (v, some a) →
      ∃ bs : List Byte, bs.length = 32768 ∧ exec (.faultLogRead c) s = .next ((v.emit (.hostWrite c.fn c.resIova.toNat bs)).complete
        (s.refOf c 0x5D) stOK s.rst.faultLog.length ((s.rst.logCount - 1) % 1024)))

/-- Bring-up of an ingest group from DETECT to ACTIVE. (02_sample_links.md (R53, R55, R58, Table 2.4)) -/
def Obligations.IngestGroupsComeUp : Prop :=
  ∀ (g : Fin 36) (count : Nat) (m : BitVec 8) (lane : Fin 288) (x : Tsb) (s : State),
    let made (was now : LaneState) (mask : Nat) (st : GrpState) (t : State) : Prop :=
      (∀ l ∈ grpLanes g, (t.lane l).st = if (s.lane l).st = was ∧ bit mask (l % 8) = true then now else .dead) ∧
      ((∃ l ∈ grpLanes g, (s.lane l).st = was ∧ bit mask (l % 8) = true) → (t.group g).st = st) ∧
      ((∀ l ∈ grpLanes g, ¬ ((s.lane l).st = was ∧ bit mask (l % 8) = true)) → (t.group g).retry = (s.group g).retry + 1 ∧
        (t.group g).st = if 3 ≤ (s.group g).retry + 1 then .failed else .detect)
    ((s.group g).st = .detect → (s.group g).clkOk = false →
      exec (.detectTimeout g) s = .next ((s.modGroup g fun y => { y with absent := true }).postLane (8 * g) 1) ∧
      ((s.group g).good = 15 → 9990 ≤ count → count ≤ 10010 →
        ∃ t, exec (.clockWindowEnd (.ingest g) count) s = .next t ∧ t = { s with groups := t.groups } ∧
          (t.group g).st = .train ∧ (t.group g).clkOk = true ∧ (t.group g).absent = false)) ∧
    ((s.group g).clkOk = true → (s.group g).bad = 1 → (s.group g).st = .active → (count < 9950 ∨ 10050 < count) →
      exec (.clockWindowEnd (.ingest g) count) s = .next ((((((s.modGroup g fun y => { y with good := 0, bad := 2 }).modGroup g
        fun y => { y with clkOk := false }).forEach (grpLanes g) State.closeLane).modGroup g fun y => { y with st := .detect })).tryClose (g.val / 9))) ∧
    ((s.group g).st = .train →
      (∃ t, exec (.trainComplete g) s = .next t ∧ made .down .centred 0xFF .lock t) ∧
      (∃ t, exec (.trainTimeout g m) s = .next t ∧ made .down .centred m.toNat .lock t)) ∧
    ((s.group g).st = .lock →
      (∃ t, exec (.lockComplete g) s = .next t ∧ made .centred .caps 0xFF .caps t) ∧
      (∃ t, exec (.lockTimeout g m) s = .next t ∧ made .centred .caps m.toNat .caps t)) ∧
    ((s.lane lane).st = .caps → (s.group (lane.val / 8)).st = .caps ∨ (s.group (lane.val / 8)).st = .active →
      (s.tsbOk lane x = true → ∃ t, exec (.tsbSetsReceived lane x) s = .next t ∧ t = { s with lanes := t.lanes, groups := t.groups } ∧
        (t.lane lane).st = .active ∧ (t.group (lane.val / 8)).st = .active ∧ (t.group (lane.val / 8)).srcId = x.sourceId) ∧
      (s.tsbOk lane x = false → x.laneNo.toNat = lane.val % 8 → exec (.tsbSetsReceived lane x) s =
        .next ((s.modGroup (lane.val / 8) fun y => { y with capsMis := true }).postLane lane 4)))

/-- Lane errors, relock, and the bring-up of an output group. (02_sample_links.md (R54, R56, R57, Table 2.4)) -/
def Obligations.LanesFailAndOutputGroupsComeUp : Prop :=
  ∀ (lane : Fin 288) (g : Fin 8) (det : BitVec 8) (s : State),
    ((s.lane lane).st = .active → exec (.laneErrorThreshold lane) s =
      .next (((s.modLane lane fun l => { l.openDown with st := .relock, codeErr := satTo 0xFFFFFFFF (l.codeErr + 16) }).gradeGroup
        (lane.val / 8)).tryClose (lane.val / 72))) ∧
    ((s.lane lane).st = .relock →
      (∃ t, exec (.laneRelock lane) s = .next t ∧ t = { s with lanes := t.lanes, groups := t.groups } ∧ (t.lane lane).st = .active ∧
        (t.lane lane).streams = (s.lane lane).streams) ∧
      (∃ t, exec (.relockTimeout lane) s = .next t ∧ (t.lane lane).st = .dead ∧
        t = ((s.modLane lane fun l => { l.openDown with st := .dead }).postLane lane 3).gradeGroup (lane.val / 8))) ∧
    ((s.lane lane).st ≠ .active → exec (.laneErrorThreshold lane) s = .next s) ∧
    ((s.lane lane).st ≠ .relock → exec (.laneRelock lane) s = .next s ∧ exec (.relockTimeout lane) s = .next s) ∧
    ((s.outGrp g).st = .detect → det ≠ 0 → ∃ t, exec (.outRxDetect g det) s = .next t ∧ t = { s with outGrps := t.outGrps } ∧
      (t.outGrp g).st = .train ∧ (t.outGrp g).detected = det ∧ (t.outGrp g).dead = ~~~det) ∧
    ((s.outGrp g).st = .train → ∃ t, exec (.outTrainEnd g) s = .next t ∧ t = { s with outGrps := t.outGrps } ∧ (t.outGrp g).st = .caps) ∧
    ((s.outGrp g).st = .caps → ∃ t, exec (.outCapsEnd g) s = .next t ∧ t = { s with outGrps := t.outGrps, outLanes := t.outLanes } ∧
      (t.outGrp g).st = .active ∧ (t.outGrp g).active = (s.outGrp g).detected ∧
      (wfT {} s.outLanes = true → ∀ l ∈ grpLanes g, t.outLane l = {})) ∧
    ((s.outGrp g).st ≠ .detect ∨ det = 0 → exec (.outRxDetect g det) s = .next s) ∧
    ((s.outGrp g).st ≠ .train → exec (.outTrainEnd g) s = .next s) ∧
    ((s.outGrp g).st ≠ .caps → exec (.outCapsEnd g) s = .next s)

/-- An ingest packet meets the checks in order, and an accepted one enters the FIFO. (02_sample_links.md (R59 to R63,
Tables 2.6, 2.7)) -/
def Obligations.PacketsAreCheckedInOrder : Prop :=
  ∀ (lane : Fin 288) (framed : Bool) (bs : List Byte) (s : State),
    let p := parsePacket s.mode4 bs
    let out (u : State) : Host.Outcome State Fault Refusal := .next ((u.trySweeps (lane.val / 72)).tryClose (lane.val / 72))
    let good := framed = true ∧ bs.length = 1044 ∧ crc32 (bs.take 1040) = leAt bs 1040 4
    let mapped (ch : Nat) := s.localCh (lane.val / 72) p.ch = some ch ∧ p.lmset = (s.die (lane.val / 72)).setFor p.ctr ∧
      s.mapOk (lane.val / 72) (lane.val % 72) p.lmset ch p = true
    ((s.lane lane).st ≠ .active → exec (.ingestPacket lane framed bs) s = out s) ∧
    ((s.lane lane).st = .active →
      (¬ good → exec (.ingestPacket lane framed bs) s = out (s.modLane lane fun l => { l with crcErr := sat32 l.crcErr })) ∧
      (good → s.headerOk p = false → exec (.ingestPacket lane framed bs) s = out (s.modLane lane fun l => { l with hdrErr := sat32 l.hdrErr })) ∧
      (good → s.headerOk p = true → (∀ ch, ¬ mapped ch) →
        exec (.ingestPacket lane framed bs) s = out (s.modLane lane fun l => { l with mapErr := sat32 l.mapErr })) ∧
      (∀ ch, good → s.headerOk p = true → mapped ch → (s.lane lane).streams.find? (fun x => x.isOf ch p) = none →
        16 ≤ (s.lane lane).streams.length →
        exec (.ingestPacket lane framed bs) s = out (s.modLane lane fun l => { l with streamOvf := sat32 l.streamOvf })) ∧
      (∀ ch x, good → s.headerOk p = true → mapped ch → (s.lane lane).streams = [x] → x.isOf ch p = true →
        x.next = p.ctr → x.downOpen = false → x.openM = none → x.closedM = none → s.fifoFull lane = false →
        ∃ t, exec (.ingestPacket lane framed bs) s = out t ∧
          (t.lane lane).fifo = (s.lane lane).fifo ++ [.pkt ch p.sig p.cnt p.ctr p.invalid p.sat p.samples] ∧
          (t.lane lane).streams = [{ x with next := p.ctr + s.timeSamples p.cnt, seen := true }] ∧
          (t.lane lane).lastSeq = some (BitVec.ofNat 8 p.laneSeq) ∧ ∀ y, y ≠ lane.val → t.lane y = s.lane y))

/-- The corner turn takes a packet of the block, and a closed die refuses late ones. (02_sample_links.md (R65, R66, R68,
R70)) -/
def Obligations.CornerTurnClosesBlocks : Prop :=
  ∀ (d : Fin 4) (x : Fin 72) (e : EccResult) (s : State), s.dieOn d = true → s.grid.started = true →
    let lane := 72 * d.val + x.val
    (s.inReset (4 + 2 * d) = false → s.inReset (5 + 2 * d) = false →
      ((s.lane lane).fifo = [] → exec (.cornerTurnRead d x e) s = .next (s.tryClose d)) ∧
      (∀ (ch sig cnt ctr : Nat) (inv sat : Bool) (xs : List Cx) (r : List FifoItem), (s.lane lane).fifo = .pkt ch sig cnt ctr inv sat xs :: r → s.grid.firstCtr ≠ none →
        (s.blockEnd ≤ ctr → exec (.cornerTurnRead d x e) s = .next (s.tryClose d)) ∧
        (ctr < s.blockEnd → ctr < (s.die d).closed →
          exec (.cornerTurnRead d x e) s = .next ((((s.modLane lane fun l => { l with eccCe := satTo 0xFFFFFFFF (l.eccCe + e.corrected) }).popFifo
            lane).modDie d fun y => { y with lateDiscard := satTo 0xFFF (y.lateDiscard + 1) }).tryClose d)) ∧
        (ctr < s.blockEnd → (s.die d).closed ≤ ctr → inv = false → e.double = false →
          exec (.cornerTurnRead d x e) s = .next ((((s.modLane lane fun l => { l with eccCe := satTo 0xFFFFFFFF (l.eccCe + e.corrected) }).popFifo
            lane).takePacket d lane ch sig cnt ctr false sat xs).tryClose d)))) ∧
    ((s.inReset (4 + 2 * d) = true ∨ s.inReset (5 + 2 * d) = true) → exec (.cornerTurnRead d x e) s = .next s) ∧
    (s.dieClosed d = false → s.laterDelivered d s.blockEnd = true → ∃ t, exec (.closeWaitExpiry d) s = .next t ∧ t = s.closeDie d ∧
      (t.die d).closed = s.blockEnd) ∧
    (s.laterDelivered d s.blockEnd = false → exec (.closeWaitExpiry d) s = .next s)

/-- The freeze decides once for each boundary, and the boundary moves the grid. (01_array_hierarchy.md (R35, R36, R43),
02_sample_links.md (R66)) -/
def Obligations.PlanningBoundariesMoveTheGrid : Prop :=
  ∀ (c : Nat) (s : State),
    (s.nextBound = none → exec .planningFreeze s = .next s ∧ exec .blockBoundary s = .next s) ∧
    (s.nextBound = some c →
      (s.grid.frozen = true ∨ s.inReset 36 = true ∨ s.anyStream = false → exec .planningFreeze s = .next s) ∧
      (s.grid.frozen = false → s.inReset 36 = false → s.anyStream = true →
        ∃ u, exec .planningFreeze s = .next u ∧ u.grid.frozen = true ∧ u.grid.newPeriod.isSome = true ∧
          (∃ w : State, u.grid.partNext = w.partitionAt c ∧ u.subs = w.subs ∧ u.beams = w.beams ∧ u.dies = w.dies)) ∧
      (s.boundaryDue = false → exec .blockBoundary s = .next s) ∧
      (s.boundaryDue = true → exec .blockBoundary s = .next (s.boundaryAt c)) ∧
      (let g := s.grid.advance c s.now
       g.started = true ∧ g.start = c ∧ g.frozen = false ∧ g.part = s.grid.partNext ∧ (c, s.now) ∈ g.bounds ∧
         (∀ p : Nat, s.grid.newPeriod = some p → g.period = p) ∧ (s.grid.newPeriod = none → g.period = s.grid.period) ∧
         (s.grid.part ≠ s.grid.partNext → g.partSeq = s.grid.partSeq + 1)))

/-- Lane-map switches, group restarts, gain loads and statistics reads. (02_sample_links.md (R54, R64),
03_corner_turn_memory.md (R81, R83, R84)) -/
def Obligations.LaneAndGainCommands : Prop :=
  ∀ (c : RingCmd) (s : State),
    (s.starts true c = true →
      let u := s.started c
      let d := fld c.arg0.toNat 1 0
      let t := c.arg1.toNat + 2 ^ 32 * fld c.arg2.toNat 15 0
      ((∀ l ∈ u.blockLens d, t % l = 0) → (∀ h, (u.die d).highCtr = some h → h < t) →
        ((u.die d).switch = none → exec (.laneMapSwitch c) s = .next ((u.modDie d fun y =>
          { y with switch := some (fld c.arg0.toNat 9 8, t) }).complete (s.refOf c 0x08) stOK 0 0)) ∧
        ((u.die d).switch ≠ none → exec (.laneMapSwitch c) s = .next (u.complete (s.refOf c 0x08) stConflict noField 0))) ∧
      (let g := fld c.arg0.toNat 5 0
       (bit c.arg0.toNat 8 = false → g < 36 → u.groupEn g = true → exec (.laneGroupRestart c) s = .next (((u.clearGroup g).modGroup g
         fun x => { x with st := .detect, retry := 0 }).complete (s.refOf c 0x09) stOK 0 0)) ∧
       (bit c.arg0.toNat 8 = true → g < 8 → u.outEn g = true →
         exec (.laneGroupRestart c) s = .next (((u.removeOut g).enableOut g).complete (s.refOf c 0x09) stOK 0 0)) ∧
       ((if bit c.arg0.toNat 8 then g < 8 ∧ u.outEn g = true else g < 36 ∧ u.groupEn g = true) ∨
         exec (.laneGroupRestart c) s = .next (u.complete (s.refOf c 0x09) stConflict (argOff 0) 0))) ∧
      (2 * (4096 * u.chPerDie) ≤ c.buf.length → u.switchCtr d t = true → (u.die d).requantTo < t + u.numF → (u.die d).gainLoad = none →
        let gs := (u16s (c.buf.take (2 * (4096 * u.chPerDie)))).map (BitVec.ofNat 16)
        exec (.chnGainLoad c) s = .next ((u.modDie d fun y => { y with gainLoad := some (t, gs) }).complete (s.refOf c 0x0A) stOK 0 0))) ∧
    (s.starts false c = true →
      let u := s.started c
      let n := 4096 * u.chPerDie
      let held := (u.die (fld c.arg0.toNat 1 0)).stats.find? fun x => x.firstSlot == c.arg1.toNat + 2 ^ 32 * c.arg2.toNat
      8 * n ≤ c.resLen →
        (held = none → exec (.chnStatsRead c) s = .next (u.complete (s.refOf c 0x0B) stDataLost 0 0)) ∧
        (∀ (x : StatIv) (w : State) (a : Nat), held = some x → u.translate c.fn c.resIova.toNat true c.resAcc = (w, some a) →
          exec (.chnStatsRead c) s = .next ((w.emit (.hostWrite c.fn c.resIova.toNat (x.bytes n))).complete (s.refOf c 0x0B) stOK (8 * n) 0)))

/-- Gain switches, statistics intervals, slot powers, and what the HBM stacks report. (03_corner_turn_memory.md (R81, R84,
R85, R94, R95)) -/
def Obligations.ChanneliserAndStackEvents : Prop :=
  ∀ (d : Fin 4) (k : Fin 2) (t slot fine band x : Nat) (cel : Byte) (s : State),
    let stk (f : Stack → Stack) : State := s.modStack d k f
    (s.dieOn d = true → s.inReset (12 + d) = false →
      (∀ gs, (s.die d).gainLoad = some (t, gs) → (s.switchCtr d t && s.autoDue d t) = false → exec (.gainSwitch d t) s =
        .next ((s.modDie d fun y => { y with gains := (t, setRun 0x1000 [] 0 gs) :: y.gains, gainLoad := none }).unsetMeans d (t / 1024) true)) ∧
      ((s.die d).gainLoad = none → (s.switchCtr d t && s.autoDue d t) = false → exec (.gainSwitch d t) s = .next s) ∧
      (1024 * slot % s.statLen ≠ 0 → exec (.statsIntervalEnd d slot) s = .next s) ∧
      (1024 * slot % s.statLen = 0 → ∃ u, exec (.statsIntervalEnd d slot) s = .next u ∧ u = { s with dies := u.dies } ∧
        (∀ e, e ≠ d.val → u.die e = s.die e) ∧ ((u.die d).stats.getLast?.map (·.firstSlot)) = some slot ∧ (u.die d).stats.length ≤ 8 ∧
        (u.die d).coarse = (s.die d).coarse ∧ (u.die d).gains = (s.die d).gains) ∧
      exec (.slotPowerCompare d slot) s = .next ((s.comparePowers d slot).extendOpen d slot)) ∧
    (s.dieOn d = false → exec (.gainSwitch d t) s = .next s ∧ exec (.statsIntervalEnd d slot) s = .next s ∧
      exec (.slotPowerCompare d slot) s = .next s ∧ exec (.hbmReadReturn d k true fine band x) s = .next s) ∧
    (cel.toNat ≤ 95 → exec (.hbmTempRead d k cel) s = .next (stk fun y => { y with temp := cel, hot := decide (85 < cel.toNat) })) ∧
    (95 < cel.toNat → exec (.hbmTempRead d k cel) s = .next (((stk fun y => { y with temp := cel, hot := true }).modStack d k
      fun y => { y with overtemp := true }).postEvt 0 0x03 0 5 d (2 * d.val + k.val) 0)) ∧
    (∃ u, exec (.hbmRefresh d k) s = .next u ∧ u = { s with hbmStacks := u.hbmStacks } ∧ (u.stack d k).refX2 = (s.stack d k).hot ∧
      (u.stack d k).refreshes = (s.stack d k).refreshes + 1 ∧ (u.stack d k).temp = (s.stack d k).temp) ∧
    (s.dieOn d = true → s.inReset d = true → exec (.hbmReadReturn d k true fine band x) s = .next (s.absorb d)) ∧
    (s.dieOn d = true → s.inReset d = false →
      exec (.hbmReadReturn d k false fine band x) s = .next s ∧
      (∀ p r, takeFirst (fun q => q.running && q.reads fine band) (s.die d).passes = some (p, r) → p.correct = none → (s.die d).ueLog.length < 1024 →
        exec (.hbmReadReturn d k true fine band x) s = .next ((stk fun y => { y with ue := satTo 0xFFFF (y.ue + 1) }).modDie d fun y =>
          { y with ueLog := y.ueLog ++ [(fine, band, x)], ueOverflow := y.ueOverflow,
                   passes := mapIf (fun q => q == p) (fun q => { q with ue := q.ue ++ [(fine, band, x)] }) y.passes })) ∧
      (∀ p r key, takeFirst (fun q => q.running && q.reads fine band) (s.die d).passes = some (p, r) → p.correct = some key →
        exec (.hbmReadReturn d k true fine band x) s = .next ((stk fun y => { y with ue := satTo 0xFFFF (y.ue + 1) }).failPart d key)))

/-- Starting, stopping, loading and reading the plan of a subarray. (04_correlation.md (R104, R108, R110, R111),
10_host_rings.md (R259, R260)) -/
def Obligations.SubarrayCommands : Prop :=
  ∀ (c : RingCmd) (s : State), s.starts false c = true →
    let u := s.started c
    let r (opc : Nat) := s.refOf c opc
    let n := c.arg0.toNat
    let x := u.subr n
    (∀ ps, paramList c.buf n subItems = .ok ps → subListOk ps = .ok () →
      let sigs := signalList c.buf (paramD ps 1 0 0)
      (∀ f, u.subChecks c.fn ps sigs = .error f → exec (.subarrayStart c) s = .next (u.complete (r 0x10) f.status f.field f.check)) ∧
      (u.subChecks c.fn ps sigs = .ok () →
        (∀ k, u.freePlan = some k → exec (.subarrayStart c) s =
          .next { u with subs := setT {} u.subs k (u.subOfParams c.fn ps (sigs.getD []) (r 0x10)) }) ∧
        (u.freePlan = none → exec (.subarrayStart c) s = .next (u.complete (r 0x10) stCapacity noField 0)))) ∧
    (u.subOk c.fn n = true → exec (.subarrayStop c) s = .next (u.modGrid fun g => { g with stops := g.stops ++ [(r 0x11, false, n)] })) ∧
    (u.subOk c.fn n = false → exec (.subarrayStop c) s = .next (u.complete (r 0x11) stConflict (argOff 0) 0) ∧
      exec (.planLoad c) s = .next (u.complete (r 0x12) stConflict (argOff 0) 0)) ∧
    (u.subOk c.fn n = true → 32 ≤ c.buf.length → planHeadOk c.buf = true → u.planMatches x c.buf = true → u.planBad x c.buf = none →
      let e : Expert := { die := fld (planW c.buf 1) 17 16, passes := fld (planW c.buf 2) 15 0, jobs := planEntries c.buf }
      exec (.planLoad c) s = .next ((u.modSub n fun x =>
        { x with expertNext := x.expertNext.filter (fun y => y.die != e.die) ++ [e] }).complete (r 0x12) stOK 0 0)) ∧
    (∀ b l d ps w a, x.status ≠ .free → x.tenant = c.fn.val → x.plans.find? (fun e => e.1 % 2 ^ 32 == c.arg2.toNat) = some (b, l) →
      l.find? (fun e => e.1 == fld c.arg1.toNat 1 0) = some (d, ps) →
      let bs := u.planBytes (fld c.arg1.toNat 1 0) x ps
      bs.length ≤ c.resLen → u.translate c.fn c.resIova.toNat true c.resAcc = (w, some a) →
      exec (.planRead c) s = .next ((w.emit (.hostWrite c.fn c.resIova.toNat bs)).complete (r 0x13) stOK bs.length 0))

/-- A pass ends, its banks become VIS records, and a correction becomes an AMEND set. (04_correlation.md (R102, R103,
R114, R117), 06_look_ahead_excision.md (R160, R161)) -/
def Obligations.PassesDrainIntoRecords : Prop :=
  ∀ (d : Fin 4) (s : State),
    ((s.dieOn d = false ∨ s.inReset d = true ∨ (s.die d).passes.all (fun p => !p.running) = true) → exec (.passSwitch d) s = .next s) ∧
    (∀ p rest, s.dieOn d = true → s.inReset d = false → takeFirst (fun p => p.running) (s.die d).passes = some (p, rest) →
      let u := s.modDie d fun y => { y with passes := rest }
      (p.correct = none → exec (.passSwitch d) s =
        .next (((((u.endRegular d p).residentCatchUp d p).effectAll d).startNext d).completeFlagPosts)) ∧
      (∀ k, p.correct = some k → exec (.passSwitch d) s = .next ((((u.endCorrection d p k).effectAll d).startNext d).completeFlagPosts))) ∧
    ((s.die d).drained = [] → exec (.visEmit d) s = .next s) ∧
    (∀ (r : Drained) (rs : List Drained), (s.die d).drained = r :: rs →
      let u := s.modDie d fun y => { y with drained := rs }
      let x := s.subr r.pass.sub
      let rec1 := u.mkRec 0x01 x.tenant r.pass.sub r.first (x.blockCtr r.first) (visBody d x r)
      (∀ lost, r.valid = some lost → exec (.visEmit d) s = .next (u.emitValid d r lost)) ∧
      (r.valid = none →
        (u.stagingCap x.tenant < u.stagingUsed d x.tenant + rec1.len → exec (.visEmit d) s = .next (u.dataLost rec1)) ∧
        (∀ l, x.dest = 0 → u.stagingUsed d x.tenant + rec1.len ≤ u.stagingCap x.tenant → u.placeLane d = some l →
          exec (.visEmit d) s = .next (((u.addStaging d x.tenant rec1.len).modOutLane l fun y =>
            { y with queue := y.queue ++ [(x.tenant, rec1.bytes)] }).modSub r.pass.sub fun y => { y with visSent := modT 0 y.visSent d (· + 1) })))) ∧
    ((s.die d).amends = [] → exec (.amendEmit d) s = .next s) ∧
    (∀ (a : Amend) (as : List Amend) (body : Nat × Nat × List Byte × List CountEnt), (s.die d).amends = a :: as →
      let x := s.subr a.part.sub
      let u := s.modDie d fun y => { y with amends := as }
      let id := getT 0 x.amendId d
      amendRecords x a (u.countSection d a) = [body] →
      let r := u.emitDie d x.dest (u.mkRec 0x06 x.tenant a.part.sub a.part.block (x.blockCtr a.part.block) (amendBody d id 0 x a true body))
      exec (.amendEmit d) s = .next (((r.1.modSub a.part.sub fun x => { x with amendId := setT 0 x.amendId d (id + 1) }).finishPart d a.part
        (if r.2 then a.part.cls else .amendLost)).completeFlagPosts))

/-- Starting and stopping a beam plan, its weights, captures and top-k settings. (05_beams_and_top_k.md (R129, R133, R134,
R137, R139), 10_host_rings.md (R259, R260)) -/
def Obligations.BeamPlanCommands : Prop :=
  ∀ (c : RingCmd) (plan : Fin 4096) (s : State),
    exec (.weightsReady plan) s = .next (s.modBeam plan fun b => { b with next := b.next.map fun w => { w with ready := true } }) ∧
    (s.starts false c = true →
      let u := s.started c
      let r (opc : Nat) := s.refOf c opc
      let n := c.arg0.toNat
      let b := u.beam n
      (∀ ps, paramList c.buf n beamItems = .ok ps → beamListOk ps = .ok () →
        let sigs := signalList c.buf (paramD ps 2 0 0)
        (∀ f, u.beamChecks c.fn ps sigs = .error f → exec (.beamStart c) s = .next (u.complete (r 0x18) f.status f.field f.check)) ∧
        (u.beamChecks c.fn ps sigs = .ok () → ∀ k, u.freePlan = some k →
          exec (.beamStart c) s = .next { u with free := u.free + 1, beams := setT {} u.beams k (u.beamOfParams c.fn ps (sigs.getD []) (r 0x18)) })) ∧
      (u.beamOk c.fn n = true →
        exec (.beamStop c) s = .next ((u.dropSwitch n).modGrid fun g => { g with stops := g.stops ++ [(r 0x19, true, n)] }) ∧
        (let t := c.arg1.toNat + fld c.arg2.toNat 5 0 * 2 ^ 32
         u.switchTooClose b t = false → b.next = none →
          (b.steer = true → b.steerSize ≤ c.buf.length → exec (.beamWeights c) s = .next (u.modBeam n fun b =>
            { b with next := some { slot := t, w := { chans := sortBy id b.chans, w := u.steerWeights (u.beam n) c.buf }, cmd := some (r 0x1A) } })) ∧
          (b.steer = false → 4 * b.setSize u ≤ c.buf.length → b.badPad (explicitWeights c.buf (b.setSize u)) = none →
            exec (.beamWeights c) s = .next (u.modBeam n fun b =>
              { b with next := some { slot := t, w := { chans := sortBy id b.chans, w := explicitWeights c.buf ((u.beam n).setSize u) }, cmd := some (r 0x1A) } })))) ∧
      (u.beamOk c.fn n = false →
        exec (.beamStop c) s = .next (u.complete (r 0x19) stConflict (argOff 0) 0) ∧
        exec (.beamWeights c) s = .next (u.complete (r 0x1A) stConflict (argOff 0) 0)) ∧
      (let x := u.beam (fld n 30 0)
       let lo := (c.arg1.toNat + c.arg2.toNat * 2 ^ 32) / 1024
       let hi := (c.arg3.toNat + c.arg4.toNat * 2 ^ 32) / 1024
       let es := u.captured (fld n 30 0) lo hi
       let bytes := es.flatMap (·.2.2)
       ∀ (w : State) (a : Nat), x.status.holds = true → x.tenant = c.fn.val → x.capture = true → lo ≤ hi → bit n 31 = false →
        bytes.length ≤ c.resLen → u.translate c.fn c.resIova.toNat true c.resAcc = (w, some a) →
        exec (.beamCapture c) s = .next ((w.emit (.hostWrite c.fn c.resIova.toNat bytes)).complete (r 0x1B)
          (if es.length = (hi + 1 - lo) * x.chans.length then stOK else stDataLost) bytes.length 0)) ∧
      (let a := c.arg1.toNat
       let k : Topk := { k := fld a 3 0, sub := fld a 11 8, exclAuto := bit a 16, tshift := fld a 28 24,
                         min := c.arg2.toNat + c.arg3.toNat * 2 ^ 32, dest := fld c.arg4.toNat 15 0 }
       bit n 31 = true → u.beamOk c.fn (fld n 30 0) = true → 1 ≤ k.k → k.k ≤ 8 → k.sub ≤ 10 → u.destOk c.fn k.dest = true →
        exec (.topkSet c) s = .next (({ u with topkNext := u.topkNext ++ [(2 * fld n 30 0 + 1, k)] } : State).complete (r 0x1C) stOK 0 0)))

/-- Sweeps reach the hub, rotations start, band sums leave, and sub-blocks end. (05_beams_and_top_k.md (R122, R123, R124,
R128, R138, R140)) -/
def Obligations.BeamSweepsRotationsAndTopK : Prop :=
  ∀ (d : Fin 4) (slot sb : Nat) (tile : Fin 256) (plan : Fin 4096) (s : State),
    ((s.die d).sweepOut = [] → exec (.sweepDeliver d) s = .next s) ∧
    (∀ (w : Sweep) (ws : List Sweep), (s.die d).sweepOut = w :: ws →
      let u := s.modDie d fun y => { y with sweepOut := ws }
      ((s.chains.filter fun e => e.2.state != .free) = [] → exec (.sweepDeliver d) s = .next (u.trySweeps d)) ∧
      (∀ n x o, (s.chains.filter fun e => e.2.state != .free) = [(n, x)] → x.m = 1 →
        w.outs.find? (fun o => o.plan == x.plan && s.dieOfCh x.firstCh == d.val && o.ch + d.val * s.chPerDie == x.firstCh) = some o →
        exec (.sweepDeliver d) s = .next ((u.chainInput n 0 (64 * w.n) (o.vals.getD x.beam []) (if w.skipped then 64 else 0)).trySweeps d))) ∧
    ((s.die d).sweepNext = none → exec (.dbWaitExpiry d) s = .next s) ∧
    (∀ n, (s.die d).sweepNext = some n →
      let m := max n (s.die d).sweepDue
      (s.laterDelivered d (64 * (m + 1)) = true → exec (.dbWaitExpiry d) s = .next ((s.modDie d fun y => { y with sweepDue := m + 1 }).trySweeps d)) ∧
      (s.laterDelivered d (64 * (m + 1)) = false → exec (.dbWaitExpiry d) s = .next s)) ∧
    (s.dieOn d = false ∨ s.inReset d = true → exec (.rotationStart d slot) s = .next s ∧ exec (.subblockEnd d tile sb) s = .next s) ∧
    (s.dieOn d = true → s.inReset d = false →
      (s.directOn d (1024 * slot) = [] →
        let u := s.flushDirect d slot
        ∀ l, (u.beams.filter fun e => e.2.src != .direct && e.2.status.holds && !(u.chansOn d e.2.chans).isEmpty) = l →
          (l = [] → exec (.rotationStart d slot) s = .next u) ∧
          (∀ n b, l = [(n, b)] → exec (.rotationStart d slot) s = .next (u.rotateBuffered d n slot))) ∧
      (let t := s.tile d tile
       (t.beam = true → t.jobs = [] → exec (.subblockEnd d tile sb) s = .next s) ∧
       (∀ n, t.beam = true → dedup (t.jobs.map (·.1)) = [n] →
         exec (.subblockEnd d tile sb) s = .next (s.beamSubblock d tile sb n (t.jobs.filter fun e => e.1 == n)) ∧
         ((s.topk (2 * n + 1)).k = 0 → exec (.subblockEnd d tile sb) s = .next s)) ∧
       (t.beam = false → (∀ p ∈ (s.die d).passes, p.running = false) → exec (.subblockEnd d tile sb) s = .next s) ∧
       (∀ p j o i, t.beam = false → (s.die d).passes = [p] → p.running = true → p.correct = none →
         (passTiles p).filter (fun e => e.2.1 == tile.val) = [(i, tile.val, j, o)] →
         exec (.subblockEnd d tile sb) s = .next (s.corrSubblock d tile sb p j o)))) ∧
    ((s.beam plan).partials = [] → exec (.bandsumTimeout plan) s = .next s) ∧
    (∀ p, minBy (·.first) (s.beam plan).partials = some p →
      exec (.bandsumTimeout plan) s = .next ((s.emitBand plan p.first).modBeam plan fun b => { b with bandDone := max b.bandDone (p.first + b.int) }))

/-- Excision policies, and the way of a flag from its post to its die. (06_look_ahead_excision.md (R144, R146, R148, R149,
R151, R152)) -/
def Obligations.FlagsGoFromPostToDie : Prop :=
  ∀ (c : RingCmd) (d : Fin 4) (tn : Fin 256) (x : Detection) (s : State),
    (s.starts false c = true →
      let u := s.started c
      let n := c.arg0.toNat
      (∀ (ps : List Param) (mask : List Byte), parseParams c.buf n = some ps → (List.range n).find? (paramReserved c.buf) = none →
        badPids policyItems ps = none →
        let preset := paramD ps 1 0 0
        let fw := usesFirmware preset
        let sub := (bitmapOf mask).filter fun p => decide (p < 256)
        let pol : Policy := { preset := preset, dest := paramD ps 1 1 0, pad := paramD ps 2 0 0, self := paramD ps 3 0 0, subscribe := sub,
                              latePub := paramD ps 5 0 0, lateCap := paramD ps 6 0 0 }
        (∀ y ∈ policyNeeds preset, (param? ps y.1 y.2).isSome = true) → paramBytes c.buf (paramD ps 4 0 0) = some mask →
        (4 < preset → exec (.excPolicy c) s = .next (u.complete (s.refOf c 0x20) stConflict (paramOff ps 1 0) 1)) ∧
        (preset ≤ 4 → (fw = true → u.destRing c.fn pol.dest = true ∧ pol.pad ≤ 15 ∧ pol.self ≤ 2 ∧
            ((u.shippedOf c.fn detImage) ≠ [] ∨ 2 ≤ (u.takeable c.fn).length)) →
          (∀ p ∈ sub, u.pubFlag p c.fn = true) → pol.lateCap ≤ 65535 →
          let v := if fw = true ∧ (u.shippedOf c.fn detImage) = [] then u.shipOn ((u.takeable c.fn).take 2) detImage else u
          exec (.excPolicy c) s = .next ((v.modFn c.fn fun f => { f with policyNext := some pol }).complete (s.refOf c 0x20) stOK 0 0))) ∧
      (let fs := (List.range n).map fun i => { flagOfBytes c.fn ((c.buf.drop (16 * i)).take 16) with host := true }
       1 ≤ n → n ≤ 4096 → 16 * n ≤ c.buf.length → (∀ i < n, flagReserved ((c.buf.drop (16 * i)).take 16) = false) →
       (∀ f ∈ fs, u.flagOk f = true) →
        (u.flagRoom c.fn fs = stOK → exec (.flagPost c) s = .next (let v := u.forEach fs State.postFlag
          { v with flagWaits := v.flagWaits ++ [{ cmd := s.refOf c 0x21, lo := u.flagSeq, hi := u.flagSeq + n }] })) ∧
        (u.flagRoom c.fn fs ≠ stOK → exec (.flagPost c) s = .next (u.complete (s.refOf c 0x21) (u.flagRoom c.fn fs) noField 0)))) ∧
    (s.posts = [] → exec .flagAccept s = .next s) ∧
    (∀ (f : Flag) (r : List Flag), s.posts = f :: r →
      let e := s.dieOfCh f.ch
      let u := ({ s with posts := r } : State).retireFlags e
      (u.dieOn e = true → exec .flagAccept s = .next ((u.modDie e fun y => { y with flagTx := y.flagTx ++ [{ f with post := s.now }] }).completeFlagPosts)) ∧
      (u.dieOn e = false → exec .flagAccept s = .next ((u.modDie e fun y => { y with flags := y.flags ++ [{ f with post := s.now }] }).completeFlagPosts))) ∧
    exec (.flagReceive d) s =
      .next ((s.modDie d fun y => { y with flagRx := y.flagRx ++ y.flagTx.take 1, flagTx := y.flagTx.drop 1 }).completeFlagPosts) ∧
    (s.detects tn = false → exec (.detectionInput tn x) s = .next s) ∧
    (∀ (e k : Nat) (j1 j2 : Nat), s.detects tn = true → (s.dec.tasks.filter fun y => y.started.isNone && y.stage == .excision) = [] →
      s.poolFree tn detImage = some e →
      let v := ((s.drawFree.release (s.detTask tn x)).dispatch e { s.detTask tn x with seq := s.dec.seq, released := s.now }).modTask s.dec.seq
        fun y => { y with det := none }
      let p := (v.fn tn).policy
      exec (.detectionInput tn x) s = .next (v.detect tn x) ∧
      ((v.chain k).tenant ≠ tn.val → ∀ hk : k < 512, v.detect tn (.burst ⟨k, hk⟩ j1 j2) = v) ∧
      ((v.chain k).tenant = tn.val → (v.chain k).m = 1 → ∀ hk : k < 512, v.detect tn (.burst ⟨k, hk⟩ j1 j2) =
        v.postDet tn (v.chain k).firstCh none (p.posts (v.selfIn (v.passband (v.chain k))) 2) (j1 - p.pad) (j2 + p.pad)))

/-- CCH_START, CCH_RETUNE and CCH_STOP. (07_carrier_chains.md (R176, R177, R178, Tables 7.3, 7.4),
09_decoders_and_deadlines.md (R226, R238)) -/
def Obligations.CarrierCommandsTakeAndFreeChains : Prop :=
  ∀ (c : RingCmd) (s : State), s.starts false c = true →
    let u := s.started c
    let r (opc : Nat) := s.refOf c opc
    (u.waitsSwitch 0x28 c = true → exec (.cchStart c) s = .next (u.modDec fun d => { d with switchWait := d.switchWait ++ [(r 0x28, c)] })) ∧
    (u.dec.switching = none →
      (∀ f, u.startChecks c = .error f → exec (.cchStart c) s = .next (u.complete (r 0x28) f.status f.field f.check)) ∧
      (∀ ps v q es, u.startChecks c = .ok (ps, v, q, es) →
        (lowestFree (fun n => (u.chain n).state != .free) 512 = none → exec (.cchStart c) s = .next (u.complete (r 0x28) stQuota noField 11)) ∧
        (∀ n w a, lowestFree (fun n => (u.chain n).state != .free) 512 = some n → 16 ≤ c.resLen →
          u.translate c.fn c.resIova.toNat true c.resAcc = (w, some a) → (chainOf c.fn ps v q).profile = 255 →
          let old := u.chain n
          let x : Chain := { chainOf c.fn ps v q with
            state := if u.sourceRuns (chainOf c.fn ps v q).plan then .settling else .idle, gen := old.gen + 1,
            settle := settleOf (chainOf c.fn ps v q).preset, boundTo := old.boundTo, bitFifo := old.bitFifo }
          exec (.cchStart c) s = .next ((((((w.emit (.hostWrite c.fn c.resIova.toNat (tuningBytes v))).freshGen n (old.gen + 1)).modChain n fun _ => x).noteWork
            c.fn).carrierRec n 0 0).complete (r 0x28) stOK n (old.gen + 1).toNat)))) ∧
    (let n := c.arg1.toNat
     let x := u.chain n
     (∀ ps, paramList c.buf c.arg0.toNat [(2, 2), (3, 5), (4, 1)] = .ok ps →
       ((512 ≤ n ∨ x.state = .free ∨ x.tenant ≠ c.fn.val) → exec (.cchRetune c) s = .next (u.complete (r 0x29) stConflict (argOff 1) 0)) ∧
       (∀ v w a, n < 512 → x.state ≠ .free → x.tenant = c.fn.val → (hasRow ps 2 || hasRow ps 3) = true → tuningItems ps = .ok () →
         u.tuning (u.beam x.plan) ps = .ok v → checks [inParam ps 4 0 0 3] = .ok () → 16 ≤ c.resLen →
         u.translate c.fn c.resIova.toNat true c.resAcc = (w, some a) →
         let y := (w.emit (.hostWrite c.fn c.resIova.toNat (tuningBytes v))).retune n (some v) (param? ps 4 0)
         exec (.cchRetune c) s = .next (y.complete (r 0x29) stOK n (y.chain n).gen.toNat)))) ∧
    (let n := c.arg0.toNat
     let x := u.chain n
     ((u.dec.switching = none ∨ x.profile = 255) →
       ((512 ≤ n ∨ x.state = .free ∨ x.tenant ≠ c.fn.val) → exec (.cchStop c) s = .next (u.complete (r 0x2A) stConflict (argOff 0) 0)) ∧
       (n < 512 → x.state ≠ .free → x.tenant = c.fn.val →
         (x.profile = 255 → exec (.cchStop c) s = .next ((u.freeChain n 1).complete (r 0x2A) stOK 0 0)) ∧
         (x.profile ≠ 255 → u.wantTrellis (u.carriers.length - 1) = u.dec.trellis →
           exec (.cchStop c) s = .next ((u.freeChain n 1).modeFollow (some { cmd := r 0x2A }))))))

/-- What output samples, windows, write-backs and bits do to a carrier chain. (07_carrier_chains.md (R169, R173, R175,
R179, R180, R183, R185, Table 7.4)) -/
def Obligations.CarrierChainsFollowTheirSamples : Prop :=
  ∀ (k : Fin 512) (ch : Fin 32) (b : Bool) (s : State),
    let x := s.chain k
    let only (t : State) : Prop := t = { s with chains := t.chains } ∧ ∀ n, n ≠ k.val → t.chain n = s.chain n
    let pos := ((x.pos : Int) + x.adv + x.posAdj).toNat
    let n := (pos / 2 ^ 32 - x.pos / 2 ^ 32) * 2 ^ x.d
    ((s.inReset 20 = true ∨ x.state = .free ∨ x.state = .idle ∨ s.fillMixed n n x = none) → exec (.chainSample k) s = .next s) ∧
    (∀ x', s.inReset 20 = false → s.fillMixed n n x = some x' →
      (x.state = .settling → x'.state = .settling → ∃ t, exec (.chainSample k) s = .next t ∧ only t ∧ (t.chain k).pos = pos ∧
        (t.chain k).settle = x'.settle - 1 ∧ (t.chain k).state = .settling) ∧
      (x.state = .run ∨ x.state = .burst →
        let filt := x'.filt ++ x'.mixed.take n
        let sample := satCx 8388607 (Config.filterOut x.preset x.d x.rs (pos % 2 ^ 32) filt)
        let y : Chain := { x' with mixed := x'.mixed.drop n, filt := filt.drop (filt.length - 4 * settleOf x.preset * 2 ^ x.d), pos := pos, posAdj := 0,
                                   sat := satTo 0xFFF (x'.sat + sample.2) }
        exec (.chainSample k) s = .next ((s.modChain k fun _ => y).deliver k x.tag sample.1))) ∧
    (x.state = .settling → x.settle = 0 → ∃ t, exec (.chainSettled k) s = .next t ∧ only t ∧ (t.chain k).state = .run ∧ (t.chain k).gain = 0 ∧
      (t.chain k).floorN = none) ∧
    (x.state ≠ .settling → exec (.chainSettled k) s = .next s) ∧
    (x.state = .run → x.agcOn = true → x.frozen = false → 2 ^ x.agcW ≤ x.agcN → -6000 ≤ x.gain → x.gain ≤ 6000 →
      ∃ t, exec (.agcWindowEnd k) s = .next t ∧ only t ∧ (t.chain k).agcN = 0 ∧ -6000 ≤ (t.chain k).gain ∧ (t.chain k).gain ≤ 6000 ∧
        x.gain - x.attack ≤ (t.chain k).gain ∧ (t.chain k).gain ≤ x.gain + x.decay) ∧
    (x.agcOn = false ∨ x.frozen = true → exec (.agcWindowEnd k) s = .next s) ∧
    (x.state = .run → 2 ^ x.thrW ≤ x.thrN → x.floorN = none → ∃ t, exec (.thresholdWindowEnd k) s = .next t ∧ only t ∧
      (t.chain k).floorN = some (rneDiv (x.thrAcc * 65536 : Nat) (max 1 x.thrN)).toNat ∧ (t.chain k).thrN = 0) ∧
    (x.thrN < 2 ^ x.thrW → exec (.thresholdWindowEnd k) s = .next s) ∧
    (x.state = .burst → x.maxLen ≤ x.sinceDet → exec (.burstMaxLen k) s = .next (s.closeBurst k 3)) ∧
    (x.sinceDet < x.maxLen → exec (.burstMaxLen k) s = .next s) ∧
    (x.pending = [] → exec (.writebackApply k) s = .next s) ∧
    (∀ (w : WriteBack) (r : List WriteBack), x.pending = w :: r → x.state ≠ .free →
      (w.gen ≠ x.gen → ∃ t, exec (.writebackApply k) s = .next t ∧ only t ∧ (t.chain k).pending = r ∧
        (t.chain k).staleWb = satTo 255 (x.staleWb + 1) ∧ (t.chain k).freq = x.freq) ∧
      (w.gen = x.gen → w.close = false → ∃ t, exec (.writebackApply k) s = .next t ∧ only t ∧ (t.chain k).pending = r ∧
        (t.chain k).freqSum = clampI (-(2 ^ x.pull : Int)) (2 ^ x.pull) (x.freqSum + w.freq) ∧
        (t.chain k).freq = x.freq0 + BitVec.ofInt 48 (t.chain k).freqSum ∧ (t.chain k).timeSum = x.timeSum + w.time ∧
        (t.chain k).state = x.state)) ∧
    (x.state ≠ .burst → exec (.bitPortArrive k b) s = .next s) ∧
    (∀ m1 m2 m3 m4 m5 m6 m7, x.state = .burst → x.search = .sync m1 m2 m3 m4 m5 m6 m7 → 0 < x.bitsLeft → x.boundTo = none →
      ∃ t, exec (.bitPortArrive k b) s = .next t ∧ only t ∧ (t.chain k).bitsLeft = x.bitsLeft - 1 ∧
        (t.chain k).abandoned = satTo 0xFFFF (x.abandoned + 1) ∧ (t.chain k).bitFifo = x.bitFifo) ∧
    ((x.state = .free ∨ x.state = .idle ∨ x.input = [] ∨ ch.val < x.firstCh ∨ x.firstCh + x.m ≤ ch.val) → exec (.chainInputTimeout k ch) s = .next s) ∧
    (x.state ≠ .free → x.state ≠ .idle → x.input ≠ [] → x.firstCh ≤ ch.val → ch.val < x.firstCh + x.m →
      exec (.chainInputTimeout k ch) s = .next (s.chainInput k (ch.val - x.firstCh) 0 (List.replicate 64 {}) 64))

/-- RND, MVA and the data ALU write their results clipped under S, else wrapped. (08_cellek_engines.md (R198)) -/
def Obligations.DataResultsClipOrWrap : Prop :=
  (∀ v : Int, (BitVec.ofInt 24 (max (-8388607) (min 8388607 v))).toInt ≠ -8388608) ∧
  (∀ (g : Eng) (n : Nat) (v : BitVec 24), wfT 0 g.set.d = true → (g.land (.d n v)).set.dv n = v) ∧
  ∀ (e : Fin 96) (o : EngOp) (dst x y : Fin 16) (acc : Fin 4) (sh : Fin 33) (s : State), s.issues e .plain o [] = true →
    let g := s.landed e
    let conv (v : Int) : BitVec 24 := BitVec.ofInt 24 (if o.sat then max (-8388607) (min 8388607 v) else v)
    let gives (i : Instr) (n : Nat) (l : Land) : Prop :=
      ∃ t, exec i s = .next t ∧ EngStep s t e 1 ∧ (g.set.cyc + n, l) ∈ (t.eng e).set.lands ∧
        (fieldsOf o = some [] → (t.eng e).set.ag = g.set.ag)
    gives (.rnd e o dst acc sh) 3 (.d dst (conv (rneShift (g.set.av acc).toInt sh))) ∧
    gives (.mva e o acc x sh) 2 (.a acc (BitVec.ofInt 56 (g.dInt x * 2 ^ sh.val)) false) ∧
    gives (.add e o dst x y) 2 (.d dst (conv (g.dInt x + g.dInt y))) ∧
    gives (.sub e o dst x y) 2 (.d dst (conv (g.dInt x - g.dInt y))) ∧
    gives (.neg e o dst x) 2 (.d dst (conv (-g.dInt x))) ∧
    gives (.abs e o dst x) 2 (.d dst (conv (g.dInt x).natAbs)) ∧
    gives (.min e o dst x y) 2 (.d dst (conv (min (g.dInt x) (g.dInt y)))) ∧
    gives (.max e o dst x y) 2 (.d dst (conv (max (g.dInt x) (g.dInt y))))

/-- Flags, logic, shifts, multiply-accumulates and generator moves of an engine. (08_cellek_engines.md (R193, R197, R200,
R201, R206, Table 8.4)) -/
def Obligations.EngineArithmeticInFlight : Prop :=
  ∀ (e : Fin 96) (o : EngOp) (dst x y x2 y2 mu : Fin 16) (acc acc2 : Fin 4) (pr : Fin 2) (cx cy ag : Fin 8) (sh : Fin 25) (sh6 : Fin 64)
    (f : AgField) (src : ImmOrD) (s : State),
    let g := s.landed e
    let gives (n : Nat) (i : Instr) (ls : List (Nat × Land)) : Prop :=
      ∃ t, exec i s = .next t ∧ EngStep s t e n ∧ ∀ l ∈ ls, (g.set.cyc + l.1, l.2) ∈ (t.eng e).set.lands
    let onto (a : BitVec 56) (p : Int) : BitVec 56 := (conv56 o.sat (a.toInt + p)).1
    let two (k : Nat) (p q : Int) : Land := .a k (onto (onto (g.accBase k) p) q) true
    let a := g.dCx cx
    let b := g.dCx cy
    (s.issues e .plain o [] = true →
      gives 1 (.engineNop e o) [] ∧
      gives 1 (.add e o dst x y) [(2, .flags (cvzn (decide (2 ^ 24 ≤ (g.set.dv x).toNat + (g.set.dv y).toNat)) (!fits24 (g.dInt x + g.dInt y))
        ((conv24 o.sat (g.dInt x + g.dInt y)).1 == 0) (conv24 o.sat (g.dInt x + g.dInt y)).1.msb))] ∧
      (∃ c, gives 1 (.sub e o dst x y) [(2, .flags (cvzn c (!fits24 (g.dInt x - g.dInt y))
        ((conv24 o.sat (g.dInt x - g.dInt y)).1 == 0) (conv24 o.sat (g.dInt x - g.dInt y)).1.msb))]) ∧
      (∃ c, gives 1 (.cmp e o x y) [(2, .flags (cvzn c (!fits24 (g.dInt x - g.dInt y)) (decide (g.dInt x = g.dInt y)) (decide (g.dInt x < g.dInt y))))]) ∧
      gives 1 (.and e o dst x y) [(2, .d dst (g.set.dv x &&& g.set.dv y))] ∧
      gives 1 (.or e o dst x y) [(2, .d dst (g.set.dv x ||| g.set.dv y))] ∧
      gives 1 (.xor e o dst x y) [(2, .d dst (g.set.dv x ^^^ g.set.dv y))] ∧
      gives 1 (.shl e o dst x sh) [(2, .d dst (g.set.dv x <<< sh.val))] ∧
      gives 1 (.shr e o dst x sh) [(2, .d dst (g.set.dv x >>> sh.val))] ∧
      gives 1 (.sha e o dst x sh) [(2, .d dst ((g.set.dv x).sshiftRight sh.val))] ∧
      gives 1 (.mac e o acc x y) [(4, .a acc (onto (g.accBase acc) (g.dInt x * g.dInt y)) true)] ∧
      gives 1 (.msu e o acc x y) [(4, .a acc (onto (g.accBase acc) (-(g.dInt x * g.dInt y))) true)] ∧
      (acc ≠ acc2 → gives 1 (.mac2 e o acc acc2 x x2 y y2) [(4, .a acc (onto (g.accBase acc) (g.dInt x * g.dInt y)) true),
        (4, .a acc2 (onto (g.accBase acc2) (g.dInt x2 * g.dInt y2)) true)]) ∧
      gives 1 (.mac2 e o acc acc x x2 y y2) [(4, two acc (g.dInt x * g.dInt y) (g.dInt x2 * g.dInt y2))] ∧
      gives 2 (.cmac e o pr cx cy) [(5, two (2 * pr.val) (a.re * b.re) (-(a.im * b.im))), (5, two (2 * pr.val + 1) (a.re * b.im) (a.im * b.re))] ∧
      gives 2 (.cmacj e o pr cx cy) [(5, two (2 * pr.val) (a.re * b.re) (-(a.im * -b.im))), (5, two (2 * pr.val + 1) (a.re * -b.im) (a.im * b.re))] ∧
      gives 1 (.clr e o acc) [(2, .a acc 0 false)] ∧
      gives 1 (.agset e o ag f src) [(2, .ag ag f (match src with | .imm v => v | .d n => g.dInt n))] ∧
      (f ≠ .step → gives 1 (.agget e o dst ag f) [(2, .d dst (BitVec.ofNat 24 ((g.set.gen ag).field f)))]) ∧
      gives 1 (.agget e o dst ag .step) [(2, .d dst (BitVec.ofInt 24 (g.set.gen ag).step.toInt))]) ∧
    (∀ (o0 o1 : Nat) (tap : Cx), s.issues e .plain o [ownField true .c 0 ag true] = true →
      g.localCx .c (g.eaOf ag) = some tap → busOff .c (g.eaOf ag) = some o0 → busOff .c ((g.eaOf ag + 1) % 2 ^ 20) = some o1 →
      let m := g.dInt mu
      gives 2 (.lmsu e o ag mu cx cy sh6)
        [(5, .store o0 (container (conv24 o.sat (tap.re + rneShift (m * (a.re * b.re + a.im * b.im)) sh6)).1)),
         (5, .store o1 (container (conv24 o.sat (tap.im + rneShift (m * (a.im * b.re - a.re * b.im)) sh6)).1))])

/-- Loads and stores of an engine, moves between its register sets, and group memory. (08_cellek_engines.md (R195, R196,
R200, R206)) -/
def Obligations.EngineLoadsStoresAndMoves : Prop :=
  ∀ (e : Fin 96) (o : EngOp) (bus : EBus) (n : Fin 16) (ag : Fin 8) (adv toMain : Bool) (src dst : EngReg) (s : State),
    let g := s.landed e
    let u := s.atIssue e
    let w := g.eaOf ag
    let off := (w - 0x80000) * 4
    let lands (i : Instr) (k : Nat) (l : Land) : Prop := ∃ t, exec i s = .next t ∧ EngStep s t e 1 ∧ (g.set.cyc + k, l) ∈ (t.eng e).set.lands
    let stalls (i : Instr) (a : GrpAcc) : Prop := ∃ t, exec i s = .next t ∧ EngStep s t e 1 ∧ (t.eng e).st = .stalled ∧ (t.eng e).set.grp = some a
    (s.issues e .plain o [ownField false bus n ag adv] = true →
      (isGroupWord bus w = false →
        lands (.ld e o bus n ag adv) 3 (.load n bus w) ∧ (n.val % 2 = 0 → lands (.ldh e o bus n ag adv) 3 (.loadH n bus w)) ∧
        exec (.ldg e o bus n ag adv) s = .next (u.engFault e fcDecerr)) ∧
      (isGroupWord bus w = true →
        stalls (.ld e o bus n ag adv) { reg := some n, off := off } ∧ stalls (.ldg e o bus n ag adv) { reg := some n, off := off } ∧
        (n.val % 2 = 0 → stalls (.ldh e o bus n ag adv) { reg := some n, half := true, off := off }))) ∧
    (s.issues e .plain o [ownField true bus n ag adv] = true →
      (∀ k, isGroupWord bus w = false → busOff bus w = some k →
        lands (.st e o bus n ag adv) 2 (.store k (container (g.set.dv n))) ∧ exec (.stg e o bus n ag adv) s = .next (u.engFault e fcDecerr)) ∧
      (isGroupWord bus w = true →
        stalls (.st e o bus n ag adv) { off := off, data := g.set.dv n } ∧ stalls (.stg e o bus n ag adv) { off := off, data := g.set.dv n })) ∧
    (s.canIssue e = true → n.val % 2 = 1 → exec (.ldh e o bus n ag adv) s = .fault (.notDescribed 195)) ∧
    (s.issues e .plain o [] = true →
      (g.inh = false → exec (.mvm e o toMain src dst) s = .next (u.engFault e fcSeq)) ∧
      (g.inh = true →
        let v (r : RegSet) (inh : Bool) : Nat := if src = .tmr then (g.tmrValue s.now).toNat else g.readReg r inh src
        (∃ t, exec (.mvm e o true src dst) s = .next t ∧ t = { s with engs := t.engs } ∧ (∀ k, k ≠ e.val → t.eng k = s.eng k) ∧
          let m := g.writeMv true dst (v g.shad true)
          (t.eng e).main = m.main ∧ (t.eng e).spc = m.spc ∧ (t.eng e).rpi = m.rpi ∧ (t.eng e).tmr = m.tmr ∧
          (t.eng e).imaskLo = m.imaskLo ∧ (t.eng e).imaskHi = m.imaskHi ∧ (t.eng e).shad.d = g.shad.d ∧ (t.eng e).shad.a = g.shad.a) ∧
        (∃ t, exec (.mvm e o false src dst) s = .next t ∧ t = { s with engs := t.engs } ∧ (∀ k, k ≠ e.val → t.eng k = s.eng k) ∧
          let m := g.writeMv false dst (v g.main false)
          (t.eng e).main = g.main ∧ (t.eng e).shad.d = m.shad.d ∧ (t.eng e).shad.a = m.shad.a ∧ (t.eng e).shad.sr = m.shad.sr ∧
          (t.eng e).spc = m.spc ∧ (t.eng e).rpi = m.rpi ∧ (t.eng e).tmr = m.tmr ∧ (t.eng e).imaskLo = m.imaskLo ∧
          (t.eng e).imaskHi = m.imaskHi))) ∧
    (let x := s.eng e
     (s.inReset (21 + e.val / 8) = true → exec (.groupMemoryReturn e) s = .next (s.absorb (21 + e.val / 8))) ∧
     (s.inReset (21 + e.val / 8) = false →
      (x.inh = false → x.main.grp = none → exec (.groupMemoryReturn e) s = .next s) ∧
      (∀ a, x.inh = false → x.main.grp = some a → x.live = true →
        let v := s.drawFree.modEng e fun y =>
          let y := y.modSet fun r => { r with cyc := r.cyc + s.freeNat % 32, grp := none }
          y.landTo y.set.cyc
        exec (.groupMemoryReturn e) s = .next ((v.groupMake e a fun f y => y.modSet f).goOn e)) ∧
      (∀ a, x.inh = true → x.main.grp = some a → exec (.groupMemoryReturn e) s =
        .next ((s.groupMake e a fun f y => { y with main := f y.main }).modEng e fun y => { y with main := { y.main with grp := none } }))))

/-- Branches, calls and returns take effect after two more instructions. (08_cellek_engines.md (R202)) -/
def Obligations.BranchesHaveTwoDelaySlots : Prop :=
  (∀ (g : Eng) (t : Nat), g.set.branch = some (t, 2) → g.nextPc.pc = g.pc + 1 ∧ g.nextPc.set.branch = some (t, 1)) ∧
  (∀ (g : Eng) (t : Nat), g.set.branch = some (t, 1) → g.nextPc.pc = BitVec.ofNat 13 t ∧ g.nextPc.set.branch = none) ∧
  ∀ (e : Fin 96) (o : EngOp) (tgt : BitVec 13) (cond : Cond) (n : LoopCount) (len sh q st : Nat) (a1 a2 a3 : Fin 8) (s : State),
    let g := s.landed e
    let u := s.atIssue e
    let jumps (i : Instr) (into : Option Nat) (ret : List Nat) (lc1 : BitVec 16) : Prop := ∃ t, exec i s = .next t ∧
      t = { s with engs := t.engs } ∧ (∀ k, k ≠ e.val → t.eng k = s.eng k) ∧ (t.eng e).pc = g.pc + 1 ∧ (t.eng e).inh = g.inh ∧
      (t.eng e).set.branch = into.map (fun x => (x, 2)) ∧ (t.eng e).set.retStack = ret ∧ (t.eng e).set.lc1 = lc1 ∧
      (t.eng e).set.d = g.set.d ∧ (t.eng e).set.a = g.set.a ∧ (t.eng e).set.sr = g.set.sr ∧ (t.eng e).mem = g.mem
    (s.issues e .plain o [] = true → ∃ t, exec (.engineNop e o) s = .next t ∧ (t.eng e).pc = g.nextPc.pc ∧ (t.eng e).set.branch = g.nextPc.set.branch) ∧
    (s.issues e .jump o [] = true →
      jumps (.br e o tgt) (some tgt.toNat) g.set.retStack g.set.lc1 ∧
      jumps (.brc e o cond tgt) (if g.set.holds cond then some tgt.toNat else none) g.set.retStack g.set.lc1 ∧
      jumps (.dbnz e o tgt) (if g.set.lc1 - 1 = 0 then none else some tgt.toNat) g.set.retStack (g.set.lc1 - 1) ∧
      (g.set.retStack.length < 8 → jumps (.call e o tgt) (some tgt.toNat) ((g.pc + 3).toNat :: g.set.retStack) g.set.lc1) ∧
      (8 ≤ g.set.retStack.length → exec (.call e o tgt) s = .next (u.engFault e fcSeq)) ∧
      (∀ (t : Nat) (r : List Nat), g.set.retStack = t :: r → jumps (.ret e o) (some t) r g.set.lc1) ∧
      (g.set.retStack = [] → exec (.ret e o) s = .next (u.engFault e fcSeq))) ∧
    (s.canIssue e = true → (fieldsOf o).isSome = true → g.set.branch.isSome = true →
      let faults (i : Instr) : Prop := exec i s = .next (u.engFault e fcSeq)
      faults (.br e o tgt) ∧ faults (.brc e o cond tgt) ∧ faults (.call e o tgt) ∧ faults (.ret e o) ∧ faults (.dbnz e o tgt) ∧
      (1 ≤ len → len ≤ 32 → faults (.loop e o n len)) ∧ faults (.rti e o) ∧ faults (.hlt e o) ∧
      (sh ≤ 23 → faults (.vmac64 e o a1 a2 a3 sh)) ∧ (2 ≤ q → q ≤ 6 → st < q → faults (.fft4 e o a1 a2 q st)))

/-- Loops, waits, ports, micro-routines and the ends of handlers and programs. (08_cellek_engines.md (R203, R207, R209 to
R215), 09_decoders_and_deadlines.md (R235, R236)) -/
def Obligations.EngineLoopsPortsAndRoutines : Prop :=
  ∀ (e : Fin 96) (o : EngOp) (m : BitVec 64) (l : Fin 64) (c g1 f1 f2 t1 c1 e1 dst : Fin 16) (ch : BitVec 10) (ag a2 a3 : Fin 8)
    (n : LoopCount) (len cnt sh q st : Nat) (s : State),
    let x := s.landed e
    let u := s.atIssue e
    let done (k : IssueKind) (v : State) : State := s.finish v e k 1 o []
    let fault (i : Instr) (code : Nat) : Prop := exec i s = .next (u.engFault e code)
    (s.issues e .plain o [] = true →
      (u.lineOk (e.val / 8) l (u.engTenant e) = true → exec (.evs e o l) s = .next (done .plain ((u.pulseLine (e.val / 8) l (u.engTenant e)).forEach
        (u.dmaStarted (e.val / 8) l) State.dmaGroupStart))) ∧
      (u.lineOk (e.val / 8) l (u.engTenant e) = false → fault (.evs e o l) fcPort) ∧
      exec (.clre e o l) s = .next (done .plain (u.modEng e fun y => { y with pend := y.pend &&& ~~~(BitVec.ofNat 64 (2 ^ l.val)) })) ∧
      (let k := (x.set.dv c).toNat
       (k < 512 → (u.chain k).state ≠ .free → (u.chain k).tenant = u.engTenant e →
         exec (.wbk e o c g1 f1 f2 t1 c1 e1) s = .next (done .plain (u.modChain k fun y => { y with pending := y.pending ++ [x.message g1 f1 f2 t1 c1 e1] }))) ∧
       (512 ≤ k ∨ (u.chain k).state = .free ∨ (u.chain k).tenant ≠ u.engTenant e →
         exec (.wbk e o c g1 f1 f2 t1 c1 e1) s = .next (done .plain (u.modEng e fun y => { y with portRej := satTo 255 (y.portRej + 1) })))) ∧
      (∀ bs, x.rawX (x.eaOf ag) 4 = some bs → exec (.flg e o ag) s = .next (done .plain (u.flagPort e bs))) ∧
      (x.rawX (x.eaOf ag) 4 = none → fault (.flg e o ag) fcDecerr) ∧
      (∀ v, u.bindPort e ch.toNat = .ok v → exec (.bpb e o ch) s = .next (done .plain v)) ∧
      (∀ k, u.bindPort e ch.toNat = .error k → fault (.bpb e o ch) k) ∧ (x.rawX (x.eaOf ag) 8 = none → fault (.dsub e o ag) fcDecerr) ∧
      (∀ bs v z, x.rawX (x.eaOf ag) 8 = some bs → u.dsub (taskOfDesc e (u.engTenant e) fun i => leAt bs (4 * i) 4) = (v, z) →
        exec (.dsub e o ag) s = .next (done .plain (v.modEng e fun y => y.modSet fun r => r.setZ z))) ∧
      exec (.tsk e o dst) s = .next (done .plain (u.endTask e ((x.set.dv dst).toNat % 4)).startDetections)) ∧
    (s.issues e .wait o [] = true →
      (u.maskOk e m.toNat = false → fault (.waite e o m) fcPort) ∧
      (u.maskOk e m.toNat = true → ∃ k, exec (.waite e o m) s = .next (((done .wait u).modEng e fun y =>
        let y := y.modSet fun r => { r with wait := some m.toNat, cyc := r.cyc + k }
        ({ y with st := if y.set.grp.isSome then .stalled else .waiting, waitedAt := s.now } : Eng).wake).drawFree))) ∧
    (s.issues e .jump o [] = true →
      (1 ≤ len → len ≤ 32 →
        (x.pc.toNat + len ≤ 8191 → exec (.loop e o n len) s = .next (done .jump (u.modEng e fun y => y.modSet fun r =>
          let k := match n with | .imm v => v.toNat | .lc0 => r.lc0.toNat
          { r with loopBlk := some { start := y.pc.toNat + 1, len := len, left := k - 1 }, lc0 := BitVec.ofNat 16 (k - 1) }))) ∧
        (8191 < x.pc.toNat + len → fault (.loop e o n len) fcSeq)) ∧
      (x.inh = true → exec (.rti e o) s = .next ((done .jump u).returnMain e)) ∧
      (x.inh = false → fault (.rti e o) fcSeq) ∧
      (((done .jump u).eng e).grpBusy = false → exec (.hlt e o) s = .next ((done .jump u).takeHalt e)) ∧
      (((done .jump u).eng e).grpBusy = true → exec (.hlt e o) s = .next ((done .jump u).modEng e fun y => { y with haltWant := true }))) ∧
    (s.issues e .hold o [] = true → 1 ≤ cnt → cnt ≤ 24 →
      (x.bound = none → fault (.shfx e o dst cnt) fcPort) ∧
      (x.bound ≠ none → exec (.shfx e o dst cnt) s = .next (((done .hold u).modEng e fun y =>
        ({ y with st := .stalled } : Eng).modSet fun r => { r with shfx := some (dst.val, cnt) }).feedEngine e))) ∧
    (s.issues e .micro o [] = true → (x.set.gen ag).legal = true → (x.set.gen a2).legal = true → (x.set.gen a3).legal = true →
      (sh ≤ 23 → exec (.vmac64 e o ag a2 a3 sh) s = .next ((s.finish u e .micro 0 o []).runMicro e (.vmac (x.eaOf ag) (x.eaOf a2) (x.eaOf a3) sh
        ag a2 a3 (x.set.gen ag) (x.set.gen a2) (x.set.gen a3) o.sat) 0)) ∧
      (2 ≤ q → q ≤ 6 → st < q →
        exec (.fft4 e o ag a2 q st) s = .next ((s.finish u e .micro 0 o []).runMicro e (.fft (x.eaOf ag) (x.eaOf a2) q st o.sat) 0))) ∧
    (s.canIssue e = true →
      (¬ (1 ≤ len ∧ len ≤ 32) → exec (.loop e o n len) s = .fault (.notDescribed 203)) ∧
      (¬ (1 ≤ cnt ∧ cnt ≤ 24) → exec (.shfx e o dst cnt) s = .fault (.notDescribed 212)) ∧
      (23 < sh → exec (.vmac64 e o ag a2 a3 sh) s = .fault (.notDescribed 210)) ∧
      (¬ (2 ≤ q ∧ q ≤ 6 ∧ st < q) → exec (.fft4 e o ag a2 q st) s = .fault (.notDescribed 211)))

/-- Engine commands, timers, interrupts, aborts, halts and the shot clock. (08_cellek_engines.md (R204, R205, R208, R216
to R220), 11_tenants_arbitration_locks.md (R302, R303)) -/
def Obligations.EnginesStartStopAndTakeEvents : Prop :=
  ∀ (c : RingCmd) (e : Fin 96) (g : Fin 12) (s : State),
    (s.starts false c = true →
      let u := s.started c
      let r (opc : Nat) := s.refOf c opc
      let k := fld c.arg0.toNat 6 0
      let y := u.eng k
      (96 ≤ k ∨ u.engOwner k ≠ some c.fn.val →
        ∀ i ∈ [(Instr.engLoad c, 0x30), (.engStart c, 0x31), (.engHalt c, 0x32), (.engResume c, 0x33)],
          exec i.1 s = .next (u.complete (r i.2) stConflict (argOff 0) 0)) ∧
      (k < 96 → u.engOwner k = some c.fn.val → y.shipped = none →
        (u.resetting (21 + k / 8) = true → ∀ i ∈ [(Instr.engLoad c, 0x30), (.engStart c, 0x31), (.engHalt c, 0x32), (.engResume c, 0x33)],
          exec i.1 s = .next (u.complete (r i.2) stResetting (argOff 0) 0)) ∧
        (u.resetting (21 + k / 8) = false →
          (y.st = .halted →
            exec (.engStart c) s = .next ((u.modEng k Eng.startAt).complete (r 0x31) stOK 0 0) ∧
            exec (.engHalt c) s = .next (u.complete (r 0x32) stOK y.pc.toNat 0) ∧
            (let v := u.modEng k fun x => { x with shr := 0, shc := 0, parked := 0 }
             (y.abortHeld = false → exec (.engResume c) s = .next ((v.goOn k).complete (r 0x33) stOK 0 0)) ∧
             (y.abortHeld = true → exec (.engResume c) s = .next ((v.applyAbort k).complete (r 0x33) stOK 0 0)))) ∧
          (y.st ≠ .halted → exec (.engHalt c) s = .next (u.modEng k fun x => { x with haltReq := x.haltReq ++ [r 0x32] }) ∧
            exec (.engStart c) s = .next (u.complete (r 0x31) stConflict (argOff 0) 0)) ∧
          (y.st = .halted ∨ y.st = .fault →
            (∀ n, imageCheck c.buf = some n → exec (.engLoad c) s = .next (u.complete (r 0x30) stConflict (bufOff 0) n)) ∧
            (imageCheck c.buf = none → exec (.engLoad c) s = .next ((let v := (u.loadImage k c.buf).haltDone k
              if bit c.arg0.toNat 31 then v.modEng k Eng.startAt else v).complete (r 0x30) stOK 0 0)))))) ∧
    (let x := s.eng e
     (x.tmr ≠ 0 → x.st ≠ .reset → exec (.tmrExpiry e) s = .next ((s.modEng e fun y => { y with tmr := 0 }).pulseInput e 48)) ∧
     (x.tmr = 0 → exec (.tmrExpiry e) s = .next s) ∧
     (x.live = true → s.inReset (21 + e.val / 8) = false →
       (x.mayInterrupt = true → x.wantsHalt = false → (x.main.branch = none ∨ x.st ≠ .running) →
         ∃ t, exec (.interruptAccept e) s = .next t ∧ t = { s with engs := t.engs } ∧ (∀ k, k ≠ e.val → t.eng k = s.eng k) ∧
           (t.eng e).inh = true ∧ (t.eng e).spc = x.pc ∧ (t.eng e).pc = x.ivec ∧ (t.eng e).st = .running ∧ (t.eng e).main = x.main) ∧
       (x.mayInterrupt = false ∨ x.wantsHalt = true → exec (.interruptAccept e) s = .next s) ∧
       (x.wantsHalt = true → x.grpBusy = false →
         (x.abortReq = false → exec (.haltTake e) s = .next (s.takeHalt e)) ∧
         (x.abortReq = true → exec (.haltTake e) s = .next ((s.applyAbort e).takeHalt e))) ∧
       (x.wantsHalt = false → exec (.haltTake e) s = .next s) ∧
       (x.abortReq = true → x.grpBusy = false → exec (.abortApply e) s = .next (s.applyAbort e))) ∧
     (x.abortReq = false → exec (.abortApply e) s = .next s) ∧
     (x.abortReq = true → x.st = .halted → exec (.abortApply e) s = .next (s.modEng e fun y => { y with abortReq := false, abortHeld := true })) ∧
     (x.abortReq = true → (x.st = .reset ∨ x.st = .fault) → exec (.abortApply e) s = .next (s.modEng e fun y => { y with abortReq := false }))) ∧
    (s.ready = true → s.inReset (21 + g.val) = false → s.shotRuns g = true → ∃ t, exec (.shotClockExpiry g) s = .next t ∧
      (t.egroup g).frozen = true ∧ (t.egroup g).count = satTo 0xFFFF ((s.egroup g).count + 1) ∧ (t.egroup g).mem = (s.egroup g).mem ∧
      ((s.egroup g).frozen = true → (t.egroup g).snap = (s.egroup g).snap)) ∧
    (s.shotRuns g = false → exec (.shotClockExpiry g) s = .next s)

/-- Codes and profiles, the end of decoder jobs and mode switches, and expired deadlines. (09_decoders_and_deadlines.md
(R226, R227, R231, R234, R237 to R242)) -/
def Obligations.DecoderJobsDeadlinesAndModes : Prop :=
  ∀ (c : RingCmd) (seq : Nat) (s : State),
    (s.starts true c = true →
      let u := s.started c
      let id := c.arg0.toNat
      let code := c.buf.take (16 + codeTables c.buf)
      let codeUsed := u.carriers.any fun e => (u.chainProfile e.1).any fun p => profCode p == id && decide (1 ≤ profJobs p)
      let profUsed := u.carriers.any fun e => e.2.profile == id
      let load (st field : Nat) : Prop := exec (.decCodeLoad c) s = .next (u.complete (s.refOf c 0x38) st field 0)
      let prof (st field : Nat) : Prop := exec (.decProfileLoad c) s = .next (u.complete (s.refOf c 0x39) st field 0)
      (c.buf.length < 16 → load stConflict 0x10) ∧
      (16 ≤ c.buf.length →
        (64 ≤ id ∨ codeUsed = true → load stConflict (argOff 0)) ∧
        (id < 64 → codeUsed = false →
          (codeOk code = false → load stConflict (bufOff 0)) ∧
          (codeOk code = true → exec (.decCodeLoad c) s =
            .next ((u.modDec fun d => { d with codes := setT none d.codes id (some code) }).complete (s.refOf c 0x38) stOK 0 0)))) ∧
      (c.buf.length < 32 → prof stConflict 0x10) ∧
      (32 ≤ c.buf.length →
        (255 ≤ id ∨ profUsed = true → prof stConflict (argOff 0)) ∧
        (id < 255 → profUsed = false →
          (u.profileOk (c.buf.take 32) = false → prof stConflict (bufOff 0)) ∧
          (u.profileOk (c.buf.take 32) = true → exec (.decProfileLoad c) s =
            .next ((u.modDec fun d => { d with profiles := setT none d.profiles id (some (c.buf.take 32)) }).complete (s.refOf c 0x39) stOK 0 0))))) ∧
    (let running := s.dec.tasks.find? fun t => t.seq == seq && t.stage == .decode && t.started.isSome
     (s.inReset 33 = true ∨ running = none → exec (.decoderJobEnd seq) s = .next s) ∧
     (∀ t, s.inReset 33 = false → running = some t →
       let code := (s.code t.codeId).getD []
       let k := codeBits code
       ∀ conv iters metric bits, decodeJob code t.input (if t.imax = 0 then codeImax code else t.imax) = (conv, iters, metric, bits) →
       let data := fitBytes ((k + 7) / 8) bits
       let done : JobDone :=
         { chain := t.chain, gen := t.gen, slot := t.slot, iters := satTo 255 iters, conv := conv, bits := k, data := data, tag := t.jobTag }
       let v := ((s.writeResult (t.engine / 8) t.outAddr t.line stOK (satTo 255 iters) k metric t.jobTag.toNat t.tenant conv data).modFn
         t.tenant fun f => { f with decoded := satTo 0xFFFFFFFF (f.decoded + 1) }).jobEnded t done
       ((v.profile t.profile).all profAssemble = true → exec (.decoderJobEnd seq) s = .next v.startJobs) ∧
       (∀ p, v.profile t.profile = some p → profAssemble p = false →
         exec (.decoderJobEnd seq) s = .next (v.decodedRec t 0 t.codeId [done]).startJobs))) ∧
    (s.dec.switching = none → exec .modeSwitchEnd s = .next s) ∧
    (∀ cpls, s.dec.switching = some cpls →
      let busy := s.dec.tasks.any fun t => t.stage == .decode && t.started.isSome
      (s.inReset 33 = true ∨ busy = true → exec .modeSwitchEnd s = .next s) ∧
      (s.inReset 33 = false → busy = false → s.dec.target = false →
        let v := s.modDec fun d => { d with trellis := false, switching := none, switchWait := [] }
        exec .modeSwitchEnd s = .next (((v.forEach cpls fun v x => v.complete x.cmd x.status.toNat x.res0.toNat x.res1.toNat).forEach
          s.dec.switchWait fun v w => v.carrierCmd w.1.opc.toNat w.2 w.1).modeFollow none).startJobs) ∧
      (s.inReset 33 = false → busy = false → s.dec.target = true →
        let v := (s.modDec fun d => { d with trellis := true, switching := none, switchWait := [] }).endStranded
        exec .modeSwitchEnd s = .next (((v.forEach cpls fun v x => v.complete x.cmd x.status.toNat x.res0.toNat x.res1.toNat).forEach
          s.dec.switchWait fun v w => v.carrierCmd w.1.opc.toNat w.2 w.1).modeFollow none).startJobs)) ∧
    (s.dec.tasks.find? (fun t => t.seq == seq) = none → exec (.deadlineExpiry seq) s = .next s) ∧
    (∀ t, s.dec.tasks.find? (fun t => t.seq == seq) = some t →
      let n := s.laterStages t
      let v := if t.stage = .excision then s else s.modSlot t.chain t.gen t.slot fun x => { x with aborted := true }
      (t.started = none →
        (t.stage = .decode → s.dec.switching.isSome = true → exec (.deadlineExpiry seq) s = .next ((v.dropTask seq).deadlineRec t 2 n)) ∧
        (t.stage ≠ .decode ∨ s.dec.switching = none → exec (.deadlineExpiry seq) s = .next ((v.dropTask seq).deadlineRec t 1 n))) ∧
      (t.started.isSome = true →
        (t.stage = .decode →
          let w := v.writeResult (t.engine / 8) t.outAddr t.line stDeadlineMiss 0 0 0 t.jobTag.toNat t.tenant false []
          let done : JobDone := { chain := t.chain, gen := t.gen, slot := t.slot, status := BitVec.ofNat 8 stDeadlineMiss, tag := t.jobTag }
          exec (.deadlineExpiry seq) s = .next ((w.jobEnded t done).deadlineRec t 0 n).startJobs) ∧
        (∀ e, t.stage ≠ .decode → t.unit = some e →
          exec (.deadlineExpiry seq) s = .next (((v.modEng e fun x => { x with abortReq := true }).dropTask seq).deadlineRec t 0 n))))

/-- ARB_SET and its commit, and every command and limit of the possession locks. (11_tenants_arbitration_locks.md (R286,
R287, R295 to R300, Table 11.6), 12_chain_and_twin.md (R321, R325), 14_reset_sleep_power.md (Table 14.8)) -/
def Obligations.ArbitrationAndPossessions : Prop :=
  ∀ (c : RingCmd) (lock : Fin 1024) (holder : Nat) (tag : BitVec 16) (s : State),
    (s.ready = true → s.setup.busy = false →
      (s.setup.sealed = true → exec .arbCommit s = .next s) ∧ (s.setup.sealed = false → exec .arbCommit s = .next s.arbCommit)) ∧
    (s.starts true c = true →
      (c.buf.length < 20 → exec (.arbSet c) s = .next ((s.started c).complete (s.refOf c 0x40) stConflict 0x10 0)) ∧
      (20 ≤ c.buf.length → exec (.arbSet c) s = .next (((s.started c).forEach arbRegs.zipIdx fun v e =>
        v.setShadow e.1 (leAt c.buf (4 * e.2) 4)).arbCommit.complete (s.refOf c 0x40) stOK 0 0))) ∧
    (s.starts false c = true →
      let u := s.started c
      let r (opc : Nat) := s.refOf c opc
      let ring := c.fn.val * 128 + c.q.val
      let refused (i : Instr) (opc st field check : Nat) : Prop := exec i s = .next (u.complete (r opc) st field check)
      let n := fld c.arg0.toNat 9 0
      let m := c.arg0.toNat
      let l := u.lock n
      let force := bit c.arg0.toNat 31
      let own := u.holderId n ring
      (u.resetting 35 = true → ∀ e ∈ [(Instr.posAcquire c, 0x41), (.posRelease c, 0x42), (.posClear c, 0x43), (.chainPosAcquire c, 0x4C),
          (.chainPosRelease c, 0x4D), (.chainPosClear c, 0x4E)], refused e.1 e.2 stResetting noField 0) ∧
      (u.resetting 35 = false →
        (∀ f, checks (u.acquireHead c.fn ring n (decide (n < 960) && bit (u.posCfg n) 31)) = .error f →
          refused (.posAcquire c) 0x41 f.status f.field f.check) ∧
        (checks (u.acquireHead c.fn ring n (decide (n < 960) && bit (u.posCfg n) 31)) = .ok () →
          (64 ≤ l.waiters.length → refused (.posAcquire c) 0x41 stCapacity (noField) 5) ∧
          (l.waiters.length < 64 →
            (l.holder = none → exec (.posAcquire c) s = .next (u.grantLock n ring (some (r 0x41)))) ∧
            (l.holder.isSome = true → force = false → refused (.posAcquire c) 0x41 stConflict (argOff 0) 6) ∧
            (l.holder.isSome = true → force = true → exec (.posAcquire c) s = .next (u.modLock n fun l =>
              { l with waiters := l.waiters ++ [{ holder := ring, cmd := some (r 0x41), limit := c.arg1.toNat }] })))) ∧
        (960 ≤ m → refused (.posRelease c) 0x42 stConflict (argOff 0) 1) ∧
        (m < 960 →
          ((u.lock m).holder = some ring → exec (.posRelease c) s = .next ((u.complete (r 0x42) stOK m 0).releaseLock m 0)) ∧
          ((u.lock m).holder ≠ some ring → refused (.posRelease c) 0x42 (if ring ∈ (u.lock m).limitFrom then stAbandonedTimeout else stConflict) (argOff 0) 2)) ∧
        (960 ≤ n → refused (.posClear c) 0x43 stConflict (argOff 0) 1) ∧
        (n < 960 →
          (force = false → l.holder ≠ some ring → refused (.posClear c) 0x43 stConflict (argOff 0) 2) ∧
          (force = false → l.holder = some ring →
            exec (.posClear c) s = .next ((u.complete (r 0x43) stOK n l.mark).modLock n fun l => { l with mark := 0 })) ∧
          (force = true → c.fn ≠ 0 → refused (.posClear c) 0x43 stDecerr (argOff 0) 3) ∧
          (force = true → c.fn = 0 → exec (.posClear c) s = .next ((u.complete (r 0x43) stOK n l.mark).releaseLock n 1))) ∧
        (∀ f, checks (u.acquireHead c.fn ring n (decide (992 ≤ n))) = .error f → refused (.chainPosAcquire c) 0x4C f.status f.field f.check) ∧
        (checks (u.acquireHead c.fn ring n (decide (992 ≤ n))) = .ok () →
          let w : LockWait := { cmd := r 0x4C, holder := ring, lock := n, wait := force, limit := c.arg1.toNat }
          exec (.chainPosAcquire c) s = .next ((u.modMgmt fun g => { g with lockWait := g.lockWait ++ [w] }).sendLockReq w)) ∧
        (m < 992 ∨ 1024 ≤ m → refused (.chainPosRelease c) 0x4D stConflict (argOff 0) 1) ∧
        (992 ≤ m → m < 1024 →
          let h := u.holderId m ring
          let v := u.complete (r 0x4D) stOK m 0
          ((u.lock m).holder ≠ some h → refused (.chainPosRelease c) 0x4D (if h ∈ (u.lock m).limitFrom then stAbandonedTimeout else stConflict) (argOff 0) 2) ∧
          ((u.lock m).holder = some h → u.mgmt.acting = true → exec (.chainPosRelease c) s = .next (v.releaseChain m 0)) ∧
          ((u.lock m).holder = some h → u.mgmt.acting = false → exec (.chainPosRelease c) s =
            .next ((v.modLock m fun l => { l with holder := none, mark := 0 }).sendLockRel m false false))) ∧
        (n < 992 → refused (.chainPosClear c) 0x4E stConflict (argOff 0) 1) ∧
        (992 ≤ n →
          let v := u.complete (r 0x4E) stOK n l.mark
          (force = false → l.holder ≠ some own → refused (.chainPosClear c) 0x4E stConflict (argOff 0) 2) ∧
          (force = true → c.fn ≠ 0 → refused (.chainPosClear c) 0x4E stDecerr (argOff 0) 3) ∧
          (force = false → l.holder = some own →
            (u.mgmt.acting = true → exec (.chainPosClear c) s = .next (v.modLock n fun l => { l with mark := 0 })) ∧
            (u.mgmt.acting = false → exec (.chainPosClear c) s = .next ((v.modLock n fun l => { l with mark := 0 }).sendLockRel n true false))) ∧
          (force = true → c.fn = 0 →
            (u.mgmt.acting = true → exec (.chainPosClear c) s = .next (v.releaseChain n 1)) ∧
            (u.mgmt.acting = false → exec (.chainPosClear c) s =
              .next ((v.modLock n fun l => { l with holder := none, mark := 0 }).sendLockRel n false true)))))) ∧
    (let l := s.lock lock
     (∀ w ws, takeFirst (fun w => w.holder == holder && w.limit != 0) l.waiters = some (w, ws) →
       let v := s.modLock lock fun l => { l with waiters := ws }
       (lock < 992 → exec (.posWaitTimeout lock holder) s = .next (v.completeOpt w.cmd stConflict (argOff 0) 7)) ∧
       (992 ≤ lock → exec (.posWaitTimeout lock holder) s = .next (v.answerChain lock stConflict holder))) ∧
     (l.holder = none ∨ fld (s.posCfg lock) 15 0 = 0 → exec (.posHoldTimeout lock) s = .next s) ∧
     (∀ h, l.holder = some h → fld (s.posCfg lock) 15 0 ≠ 0 → lock < 992 →
       let v := s.modLock lock fun l => { l with limitFrom := l.limitFrom ++ [h] }
       (h < 32768 → exec (.posHoldTimeout lock) s = .next ((v.postStatus (h / 128) stAbandonedTimeout 15 lock 0 0).releaseLock lock 2)) ∧
       (32768 ≤ h → exec (.posHoldTimeout lock) s = .next (v.releaseLock lock 2)))) ∧
    (∀ w ws, takeFirst (fun w => w.cmd.tag == tag && w.holder == holder) s.mgmt.lockWait = some (w, ws) → s.mgmt.acting = false →
      (w.tries < 3 →
        let again : LockWait := { w with tries := w.tries + 1 }
        let mine (x : LockWait) : Bool := x.cmd.tag == tag && x.holder == holder
        exec (.chainLockResend tag holder) s =
          .next ((s.modMgmt fun m => { m with lockWait := mapIf mine (fun _ => again) m.lockWait }).sendLockReq again)) ∧
      (3 ≤ w.tries → exec (.chainLockResend tag holder) s =
        .next ((s.modMgmt fun m => { m with lockWait := ws }).complete w.cmd stConflict noField 0)))

/-- A chain frame is acknowledged, delivered at most once and passed on; what each type does. (12_chain_and_twin.md (R309,
R311, R313, R314, R316, R321, Table 12.2), 13_time_and_reference.md (R339, R340), 14_reset_sleep_power.md (R368,
R371)) -/
def Obligations.ChainFramesAreDeliveredOnce : Prop :=
  ∀ (p : Fin 2) (f : Frame) (s : State),
    let g := s.goodFrame p f
    let h := s.heard p f
    let acting := h.mgmt.acting
    let far := [Instr.enum p f, .join p f, .assign p f, .topo p f, .lockReq p f, .lockResp p f, .lockRel p f, .resetReq p f, .resetAck p f]
    let near := [Instr.sync p f, .delayReq p f, .delayResp p f, .sleepNote p f]
    let after (i : Instr) (v : State) : Prop := exec i s = .next (s.passed p f false v)
    let here (i : Instr) (v : State) : Prop := exec i s = .next v
    ((s.port p).isUp = false → ∀ i ∈ far ++ near ++ [.beacon p f, .wake p f, .unknownTypeFrame p f], exec i s = .next s) ∧
    ((s.port p).isUp = true → s.hears p f = false → (∀ i ∈ far, after i g) ∧ (∀ i ∈ near, here i g)) ∧
    (s.hears p f = true →
      after (.enum p f) h.sendJoin ∧
      (acting = false → after (.join p f) h ∧ after (.lockReq p f) h ∧ after (.lockRel p f) h ∧ after (.topo p f) (h.takeTopo f)) ∧
      (acting = true → after (.topo p f) h ∧
        (let want := fld (payloadNat f 0) 6 0
         let id := BitVec.ofNat 64 (payload64 f 1)
         let hE := fld (payloadNat f 3) 7 0
         let hW := fld (payloadNat f 3) 15 8
         (h.mgmt.enumOpen = true → after (.join p f) (h.modMgmt fun m => { m with reenum := m.reenum.filter (fun e => e.1 != id) ++ [(id, hE, hW)] })) ∧
         (h.mgmt.enumOpen = false → (∀ a ∈ h.validAddrs, (h.addrEnt a).id ≠ id) →
           (want < 64 → (h.addrEnt want).valid = false → after (.join p f) (h.assignAddr id want hE hW)) ∧
           (64 ≤ want ∨ (h.addrEnt want).valid = true →
             (∀ a, h.freeAddr = some a → after (.join p f) (h.assignAddr id a hE hW)) ∧
             (h.freeAddr = none → after (.join p f) (h.modMgmt fun m => { m with tableNew := true }))))) ∧
        after (.lockReq p f) (h.chainRequest (fld (payloadNat f 0) 9 0) (chainHolder f.src.toNat (payloadNat f 1 % 65536)) (bit (payloadNat f 0) 31)
          (payloadNat f 2)) ∧
        (let n := fld (payloadNat f 0) 9 0
         let mine := (h.lock n).holder.any fun x => x / 65536 == f.src.toNat
         (n < 992 → after (.lockRel p f) h) ∧
         (992 ≤ n → bit (payloadNat f 0) 31 = true → after (.lockRel p f) (h.releaseChain n 1)) ∧
         (992 ≤ n → bit (payloadNat f 0) 31 = false → mine = false → after (.lockRel p f) h) ∧
         (992 ≤ n → bit (payloadNat f 0) 31 = false → mine = true →
           (bit (payloadNat f 0) 30 = true → after (.lockRel p f) (h.modLock n fun l => { l with mark := 0 })) ∧
           (bit (payloadNat f 0) 30 = false → after (.lockRel p f) (h.releaseChain n 0))))) ∧
      (payload64 f 0 = Config.identity.toNat → acting = false → after (.assign p f) (h.takeAddr (BitVec.ofNat 7 (payloadNat f 2)))) ∧
      (payload64 f 0 ≠ Config.identity.toNat ∨ acting = true → after (.assign p f) h) ∧
      after (.lockResp p f) (h.takeLockResp (payloadNat f 0) (payloadNat f 1)) ∧
      here (.sync p f) (h.takeSync p f) ∧
      (h.noteUpstream.upstream ≠ some p.val → here (.sync p f) h.noteUpstream) ∧
      here (.delayReq p f) (h.sendLocal p 0x12 1 false [h.now % 2 ^ 32, h.now / 2 ^ 32, payloadNat f 2, payloadNat f 0, payloadNat f 1]) ∧
      (h.upstream ≠ some p.val → here (.delayResp p f) h) ∧
      (h.upstream = some p.val → here (.delayResp p f) (((h.modTime fun t =>
        let d : Int := ((t.upT2 : Int) - t.upT1) + ((payload64 f 0 : Int) - payload64 f 3)
        let l := t.exchange ++ [(payloadNat f 2, d)]
        { t with exchange := l.drop (l.length - 1024) }).modMgmt fun m => { m with exchanges := m.exchanges + 1 }).steerChain)) ∧
      here (.sleepNote p f) ((h.portOff p).modPort p fun x => { x with quiet := true, quietAddr := f.src.toNat })) ∧
    (let b := if s.ownBack f then s else s.recordHops f
     (b.hears p f = true → (s.port p).isUp = true →
       ((b.heard p f).mgmt.acting = true → exec (.beacon p f) s = .next (b.passed p f false (b.heard p f))) ∧
       ((b.heard p f).mgmt.acting = false → exec (.beacon p f) s = .next (b.passed p f false ((b.heard p f).takeBeacon f)))) ∧
     (b.hears p f = false → (s.port p).isUp = true → exec (.beacon p f) s = .next (b.passed p f false (b.goodFrame p f)))) ∧
    ((s.port p).isUp = true →
      let named (q : Nat) : Bool := (g.port q).quiet && (g.port q).quietAddr == f.dst.toNat
      exec (.unknownTypeFrame p f) s = .next (g.modPort p fun x => { x with badType := satTo 255 (x.badType + 1) }) ∧
      (named 0 = true → here (.wake p f) (g.modPort 0 fun x => { x with wakeClk := true })) ∧
      (named 0 = false → named 1 = true → here (.wake p f) (g.modPort 1 fun x => { x with wakeClk := true })) ∧
      (named 0 = false → named 1 = false → (g.isForMe f = true ∨ f.src = g.mgmt.addr) → here (.wake p f) g) ∧
      (named 0 = false → named 1 = false → g.isForMe f = false → f.src ≠ g.mgmt.addr → here (.wake p f) (g.forward p f)))

/-- RESET_REQ, RESET_ACK, CHAIN_RESET and its timeout, and the reset of a VF. (10_host_rings.md (R246),
14_reset_sleep_power.md (R383)) -/
def Obligations.ResetsCrossTheChain : Prop :=
  ∀ (p : Fin 2) (f : Frame) (c : RingCmd) (fn : Fin 256) (s : State),
    (s.hears p f = true →
      let h := s.heard p f
      let kind := fld (payloadNat f 0) 1 0
      let b := fld (payloadNat f 0) 15 8
      let ours := f.src = h.mgmt.master ∧ f.src ≠ 0x40#7 ∧ f.epoch = h.mgmt.epoch ∧ bit (h.reg 0xC00000) 12 = true
      let after (i : Instr) (v : State) : Prop := exec i s = .next (s.passed p f false v)
      (¬ ours ∨ 1 < kind ∨ (kind = 1 ∧ 36 < b) → after (.resetReq p f) ((h.sendResetAck stConflict).faultRec .resetRefused)) ∧
      (ours → kind = 0 → after (.resetReq p f) (h.sendResetAck stOK).softStart) ∧
      (ours → kind = 1 → b ≤ 36 → after (.resetReq p f) ((h.sendResetAck stOK).beginBlockReset b none true)) ∧
      (let st := fld (payloadNat f 0) 7 0
       (takeFirst (fun w => w.dst == f.src.toNat) h.mgmt.resetWait = none → after (.resetAck p f) h) ∧
       (∀ w ws, takeFirst (fun w => w.dst == f.src.toNat) h.mgmt.resetWait = some (w, ws) →
         (w.word % 4 = 1 → w.acked = false → st = stOK → after (.resetAck p f)
           (h.modMgmt fun m => { m with resetWait := mapIf (fun x => x == w) (fun x => { x with acked := true }) m.resetWait })) ∧
         (w.word % 4 ≠ 1 ∨ w.acked = true ∨ st ≠ stOK → after (.resetAck p f)
           ((h.modMgmt fun m => { m with resetWait := ws }).complete w.cmd st st 0))))) ∧
    (s.starts true c = true →
      let u := s.started c
      let kind := fld c.arg0.toNat 9 8
      let refused (field : Nat) : Prop := exec (.chainReset c) s = .next (u.complete (s.refOf c 0x5E) stConflict field 0)
      (u.mgmt.acting = false → refused noField) ∧
      (u.mgmt.acting = true → 1 < kind → refused (argOff 0)) ∧
      (u.mgmt.acting = true → kind ≤ 1 →
        let w : ResetWait := { cmd := s.refOf c 0x5E, dst := fld c.arg0.toNat 6 0, word := kind + satTo 255 c.arg1.toNat * 256 }
        exec (.chainReset c) s = .next ((u.modMgmt fun m => { m with resetWait := m.resetWait ++ [w] }).unicast 0x1A 0 (BitVec.ofNat 7 w.dst) [w.word]))) ∧
    (takeFirst (fun w => !w.acked) s.mgmt.resetWait = none → exec .chainResetTimeout s = .next s) ∧
    (∀ w ws, takeFirst (fun w => !w.acked) s.mgmt.resetWait = some (w, ws) →
      (w.tries < 3 →
        let again (x : ResetWait) : ResetWait := { x with tries := x.tries + 1 }
        exec .chainResetTimeout s = .next ((s.modMgmt fun m => { m with resetWait := mapIf (fun x => x == w) again m.resetWait }).unicast 0x1A 0
          (BitVec.ofNat 7 w.dst) [w.word])) ∧
      (3 ≤ w.tries → exec .chainResetTimeout s = .next ((s.modMgmt fun m => { m with resetWait := ws }).complete w.cmd stCapacity noField 0))) ∧
    (fn ≠ 0 →
      (s.ready = true → s.fnExists fn = true → exec (.functionLevelReset fn) s = .next (s.resetVf fn)) ∧
      (s.ready = false ∨ s.fnExists fn = false → exec (.functionLevelReset fn) s = .next s))

/-- Chain ports: acknowledgements, error counters, training, silence, retry and forwarded clocks. (02_sample_links.md
(R55), 12_chain_and_twin.md (R311, R315, R316, R318, Table 12.3)) -/
def Obligations.ChainPortsTrainAndFail : Prop :=
  ∀ (p : Fin 2) (lseq : Byte) (count : Nat) (c : RingCmd) (s : State),
    let x := s.port p
    (takeFirst (fun u => u.f.lseq == lseq) x.unacked = none → exec (.chainAck p lseq) s = .next s ∧ exec (.chainAckTimeout p lseq) s = .next s) ∧
    (∀ u us, takeFirst (fun u => u.f.lseq == lseq) x.unacked = some (u, us) →
      exec (.chainAck p lseq) s = .next ((s.modPort p fun y => { y with unacked := us, txErr := y.txErr - 1 }).checkPort p) ∧
      (let v := s.modPort p fun y => { y with txErr := satTo 255 (y.txErr + 8) }
       (3 ≤ u.tries → exec (.chainAckTimeout p lseq) s =
         .next ((v.modPort p fun y => { y with unacked := us, drops := satTo 0xFFFF (y.drops + 1) }).checkPort p)) ∧
       (u.tries < 3 → x.txErr + 8 < 255 → x.rxErr < 255 → x.isUp = true → ∃ t, exec (.chainAckTimeout p lseq) s = .next t ∧
         t.out.getLast? = some (.frame p (t.stamp u.f)) ∧ (t.port p).txErr = x.txErr + 8 ∧ (t.port p).isUp = true))) ∧
    (x.isUp = false → exec (.badFrame p) s = .next s ∧ exec (.chainPortSilence p) s = .next s) ∧
    (x.isUp = true →
      exec (.badFrame p) s = .next ((s.modPort p fun y => { y with rxErr := satTo 255 (y.rxErr + 8) }).checkPort p) ∧
      (247 ≤ x.rxErr → ∃ t, exec (.badFrame p) s = .next t ∧ (t.port p).st = .off) ∧
      (x.st = .up → 120 ≤ x.rxErr → x.rxErr < 247 → x.txErr < 255 → ∃ t, exec (.badFrame p) s = .next t ∧ (t.port p).st = .caution ∧
        (t.port p).rxErr = x.rxErr + 8) ∧
      (∃ t, exec (.chainPortSilence p) s = .next t ∧ (t.port p).st = .off ∧ (t.port p).txErr = 255 ∧ (t.port p).rxErr = 255 ∧
        (t.port p).unacked = [])) ∧
    (x.st = .training →
      (x.clkOk = true → exec (.chainPortTrainDone p) s = .next (s.modPort p fun y => { y with st := .up, txErr := 0, rxErr := 0 }).sendJoin) ∧
      (x.clkOk = false → exec (.chainPortTrainDone p) s = .next s) ∧
      exec (.chainPortTrainTimeout p) s = .next (s.modPort p fun y => { y with st := .off, clkOk := false }).sideline) ∧
    (x.st ≠ .training → exec (.chainPortTrainDone p) s = .next s ∧ exec (.chainPortTrainTimeout p) s = .next s) ∧
    (let trained (v : State) : State := (v.modPort p fun y =>
       { y with st := .training, clkOk := false, good := 0, bad := 0, recover := satTo 255 (y.recover + 1) }).unsideline
     (bit (s.reg 0xC00000) 31 = true → x.st = .off → s.portUsable p = true → exec (.chainPortRetry p) s = .next (trained s)) ∧
     (bit (s.reg 0xC00000) 31 = false ∨ x.st ≠ .off ∨ s.portUsable p = false → exec (.chainPortRetry p) s = .next s) ∧
     (s.starts true c = true →
       let u := s.started c
       let v := u.modPort p fun y => { y with quiet := false }
       (c.arg0.toNat = p → (u.port p).st = .off → (v.port p).st = .off → v.portUsable p = true →
         exec (.chainPortOn c) s = .next ((trained v).complete (s.refOf c 0x49) stOK 0 0)) ∧
       (1 < c.arg0.toNat ∨ (c.arg0.toNat = p ∧ (u.port p).st ≠ .off) →
         exec (.chainPortOn c) s = .next (u.complete (s.refOf c 0x49) stConflict (argOff 0) 0)))) ∧
    (x.wakeClk = true → exec (.wakeClockEnd p) s = .next (s.modPort p fun y => { y with wakeClk := false, quiet := false })) ∧
    (x.wakeClk = false → exec (.wakeClockEnd p) s = .next s) ∧
    (x.st = .off → exec (.clockWindowEnd (.chain p) count) s = .next s) ∧
    (x.st ≠ .off →
      let v := s.modPort p fun y => { y with good := goodRun y.good count, bad := badRun y.bad count }
      (x.clkOk = true → badRun x.bad count = 2 → exec (.clockWindowEnd (.chain p) count) s =
        .next ((v.modPort p fun y => { y with clkOk := false }).portOff p)) ∧
      (x.clkOk = false → goodRun x.good count = 16 → exec (.clockWindowEnd (.chain p) count) s = .next (v.modPort p fun y => { y with clkOk := true })) ∧
      (x.clkOk = true → badRun x.bad count < 2 → exec (.clockWindowEnd (.chain p) count) s = .next v)) ∧
    (s.twinEn = true → s.chainOut = true → (s.port 2).clkOk = false → goodRun (s.port 2).good count = 16 →
      ∃ t, exec (.clockWindowEnd .twin count) s = .next t ∧ t.mgmt.twinUp = true ∧ (t.port 2).clkOk = true) ∧
    (s.twinEn = false ∨ s.chainOut = false → exec (.clockWindowEnd .twin count) s = .next s)

/-- Who acts as master, the state copy and its bench, role swaps, and the management cycle. (12_chain_and_twin.md (R313,
R314, R317 to R325, Tables 12.4, 12.5)) -/
def Obligations.MastersTwinsAndTheirCycle : Prop :=
  ∀ (epoch : BitVec 16) (body : List Byte) (crcOk tie : Bool) (c : RingCmd) (s : State),
    (s.mgmt.acting = true ∨ s.mgmt.master = 0x40#7 → exec .beaconLoss s = .next s) ∧
    (s.mgmt.acting = false → s.mgmt.master ≠ 0x40#7 → exec .beaconLoss s =
      .next (((s.modMgmt fun m => { m with master := 0x40, hopE := none, hopW := none }).postMaster.holdSrc 3).noteUpstream.reselect)) ∧
    (let v := s.modMgmt fun m => { m with holdIn := false }
     let held := s.rst.straps.chainRole = 3#2 ∧ s.mgmt.benchHeld = true
     let free := s.inPair = true ∧ s.chainOut = true ∧ s.mgmt.acting = false ∧ s.mgmt.sidelined = false ∧ s.inReset 36 = false ∧ s.mgmt.swap = none
     (free → ¬ held → exec .masterHoldFilter s = .next v.startActing) ∧
     (¬ free ∨ held → exec .masterHoldFilter s = .next v)) ∧
    (s.rst.straps.chainRole = 3#2 → s.chainOut = true → exec .benchStartWait s = .next (s.modMgmt fun m => { m with benchHeld := false })) ∧
    (s.inPair = false → exec (.masterHoldInAssert tie) s = .next s) ∧
    (s.inPair = true → s.mgmt.swap = none →
      let v := s.modMgmt fun m => { m with holdIn := true }
      (tie = true → s.mgmt.acting = true → s.rst.straps.chainRole = 3#2 → exec (.masterHoldInAssert tie) s =
        .next (v.modMgmt fun m => { m with acting := false, holdOut := false })) ∧
      (tie = false ∨ s.mgmt.acting = false ∨ s.rst.straps.chainRole ≠ 3#2 → exec (.masterHoldInAssert tie) s = .next v)) ∧
    (∀ r, s.inPair = true → s.mgmt.swap = some r → s.mgmt.swapPhase = 3 → s.mgmt.copyBody ≠ [] → s.mgmt.goodRun ≠ 0 →
      exec (.masterHoldInAssert false) s =
        .next ((s.modMgmt fun m => { m with holdIn := true, swap := none, swapPhase := 0 }).complete r stOK s.mgmt.master.toNat s.mgmt.epoch.toNat)) ∧
    (s.mgmt.acting = true ∨ s.twinEn = false ∨ s.mgmt.twinUp = false → exec (.stateCopy epoch body crcOk) s = .next s) ∧
    (s.mgmt.acting = false → s.twinEn = true → s.mgmt.twinUp = true →
      let v := s.emit (.twinCrc (BitVec.ofNat 32 (crc32 body)))
      exec (.stateCopy epoch body false) s = .next v.badCopy ∧
      exec (.stateCopy epoch body true) s = .next ((v.modMgmt fun m =>
        { m with copyBody := le 2 epoch.toNat ++ body.drop 2, copies := m.copies + 1 }).goodCopy.finishSwap) ∧
      (s.mgmt.swap = none → s.mgmt.goodRun = 2 → s.mgmt.sync = false → ∃ t, exec (.stateCopy epoch body true) s = .next t ∧ t.mgmt.sync = true) ∧
      (∃ t, exec (.stateCopy epoch body false) s = .next t ∧ t.mgmt.sync = false ∧ t.mgmt.missed = satTo 255 (s.mgmt.missed + 1))) ∧
    (s.mgmt.acting = false ∨ s.inPair = false → exec (.stateCopyAck crcOk) s = .next s) ∧
    (s.mgmt.acting = true → s.inPair = true →
      let v := s.goodCopy.sendGrants s.mgmt.copied
      exec (.stateCopyAck false) s = .next s.badCopy ∧
      (v.mgmt.swapPhase ≠ 2 → exec (.stateCopyAck true) s = .next v) ∧
      (v.mgmt.swapPhase = 2 → exec (.stateCopyAck true) s = .next (v.modMgmt fun m =>
        { m with acting := false, holdOut := false, swapPhase := 3, copyBody := [], goodRun := 0, sync := false }))) ∧
    (s.inPair = true → (s.mgmt.sync = true ∨ s.mgmt.twinUp = true) → exec .missingCopy s = .next s.badCopy) ∧
    (s.inPair = false ∨ (s.mgmt.sync = false ∧ s.mgmt.twinUp = false) → exec .missingCopy s = .next s) ∧
    (s.inReset 36 = true → exec .managementCycle s = .next s) ∧
    (s.inReset 36 = false → s.mgmt.lostRings = [] →
      (s.mgmt.acting = true → exec .managementCycle s = .next s.endCycle.startCycle) ∧
      (s.mgmt.acting = false → s.mgmt.reenumCmds = [] →
        exec .managementCycle s = .next (s.modMgmt fun m => { m with enumOpen := false, reenum := [] }))) ∧
    (∀ r, s.mgmt.swap = some r → exec .roleSwapTimeout s =
      .next ((s.modMgmt fun m => { m with swap := none, swapPhase := 0 }).complete r stCapacity noField 0)) ∧
    (s.mgmt.swap = none → exec .roleSwapTimeout s = .next s) ∧
    (s.starts true c = true →
      let u := s.started c
      let r (opc : Nat) := s.refOf c opc
      let maySwap := u.mgmt.acting = true ∧ u.inPair = true ∧ u.mgmt.sync = true ∧ u.mgmt.swap = none
      (maySwap → exec (.chainRoleSwap c) s = .next (u.modMgmt fun m => { m with swap := some (r 0x4B), swapPhase := 1 })) ∧
      (¬ maySwap → exec (.chainRoleSwap c) s = .next (u.complete (r 0x4B) stConflict noField 0)) ∧
      (u.mgmt.acting = false → exec (.chainReenum c) s = .next (u.complete (r 0x48) stConflict noField 0)) ∧
      (u.mgmt.acting = true →
        let cleared (e : Nat × AddrEnt) : Nat × AddrEnt := (e.1, { e.2 with valid := false })
        exec (.chainReenum c) s = .next ((u.modMgmt fun m =>
          { m with enumOpen := true, reenum := [], reenumCmds := m.reenumCmds ++ [r 0x48], table := m.table.map cleared }).broadcast 0x02 0 [1])) ∧
      (c.resLen < 1024 → exec (.chainTopoRead c) s = .next (u.complete (r 0x4A) stConflict 0x1C 0)) ∧
      (∀ w, 1024 ≤ c.resLen → u.translate c.fn c.resIova.toNat true c.resAcc = (w, none) →
        exec (.chainTopoRead c) s = .next (w.complete (r 0x4A) stDecerr 0x14 0)) ∧
      (∀ w a, 1024 ≤ c.resLen → u.translate c.fn c.resIova.toNat true c.resAcc = (w, some a) →
        exec (.chainTopoRead c) s = .next ((w.emit (.hostWrite c.fn c.resIova.toNat (rows u.tableWords))).complete (r 0x4A) stOK
          u.validAddrs.length u.mgmt.epoch.toNat)))

/-- TU_SET and TU_LABEL, the latch of TU_NOW, SYNC and DELAY_REQ, and TIMECONT. (13_time_and_reference.md (R332, R333,
R336 to R340, Tables 13.3, 13.6), 14_reset_sleep_power.md (R358)) -/
def Obligations.TimeCommands : Prop :=
  ∀ (fn : Fin 256) (k : Nat) (c : RingCmd) (s : State),
    (let v := s.sendLocal 0 0x10 1 true s.syncPayload
     exec .syncSend s = .next (v.sendLocal 1 0x10 1 true v.syncPayload)) ∧
    (s.upstream = none → exec .delayReqSend s = .next s) ∧
    (∀ p, s.upstream = some p → exec .delayReqSend s =
      .next ((s.sendLocal p 0x11 1 true [0, 0, s.time.reqId % 2 ^ 32]).modTime fun t => { t with reqId := t.reqId + 1 })) ∧
    (s.fnExists fn = false → exec (.tuNowLatch fn) s = .next s) ∧
    (s.fnExists fn = true →
      (s.ready = false → s.hostOut = true → exec (.tuNowLatch fn) s = .next (s.emit (.read fn 0))) ∧
      (s.ready = false → s.hostOut = false → exec (.tuNowLatch fn) s = .next s) ∧
      (s.ready = true →
        let t (i : Nat) := let v := ofSigned 96 ((s.dom i).time s.now); [v % 2 ^ 32, v / 2 ^ 32 % 2 ^ 32, v / 2 ^ 64]
        exec (.tuNowLatch fn) s = .next ((s.modFn fn fun f =>
          { f with tuNow := ([s.now % 2 ^ 32, s.now / 2 ^ 32] ++ t 0 ++ t 1).map (BitVec.ofNat 32) }).emit (.read fn (BitVec.ofNat 32 s.now))))) ∧
    (s.starts true c = true →
      let u := s.started c
      let r := s.refOf c 0x50
      let a := c.arg0.toNat
      let d := a % 2
      let op := fld a 9 8
      let c1 := c.arg5.toNat + 2 ^ 32 * c.arg6.toNat
      let v := toSigned 96 (c.arg1.toNat + 2 ^ 32 * c.arg2.toNat + 2 ^ 64 * c.arg3.toNat)
      let rate := toSigned 32 c.arg4.toNat
      let mine := u.domSrc d = 0 ∨ (u.domSrc d = 3 ∧ u.mgmt.acting = true)
      let good := op ≠ 3 ∧ a < 1024 ∧ fld a 7 1 = 0
      let done (w : State) (at_ : Nat) : Prop := exec (.tuSet c) s = .next (w.complete r stOK (at_ % 2 ^ 32) (at_ / 2 ^ 32))
      (¬ mine ∨ ¬ good → exec (.tuSet c) s = .next (u.complete r stConflict (argOff 0) 0)) ∧
      (mine → good →
        (c1 ≠ 0 → c1 < u.now → exec (.tuSet c) s = .next (u.complete r stConflict (argOff 5) 0)) ∧
        (u.now ≤ c1 → c1 ≠ 0 → exec (.tuSet c) s =
          .next (u.modTime fun t => { t with pend := t.pend ++ [{ dom := d, op := op, v := v, rate := rate, at_ := c1, cmd := r }] })) ∧
        (c1 = 0 →
          (op = 0 → done ((u.modDom d fun x => { x with o := v, anchor := u.now, valid := true }).postStep d (v - (u.dom d).time u.now)) u.now) ∧
          (op = 1 → done ((u.modDom d fun x => { x with o := x.o + v }).postStep d v) u.now) ∧
          (op = 2 → done (u.modDom d fun x => x.setRate u.now rate) u.now)))) ∧
    (s.time.pend = [] → exec .tuSetApply s = .next s) ∧
    (∀ x, minBy (·.at_) s.time.pend = some x →
      (s.now < x.at_ → exec .tuSetApply s = .next s) ∧
      (x.at_ ≤ s.now → ∃ rest, takeFirst (· == x) s.time.pend = some (x, rest) ∧
        exec .tuSetApply s = .next ((s.modTime fun t => { t with pend := rest }).applyTuSet x x.at_))) ∧
    (s.starts false c = true →
      let u := s.started c
      let dest := fld c.arg1.toNat 15 0
      ((u.fn c.fn).labelPend.isSome = true → exec (.tuLabel c) s = .next (u.complete (s.refOf c 0x51) stConflict noField 0)) ∧
      ((u.fn c.fn).labelPend = none →
        (u.destOk c.fn dest = false → exec (.tuLabel c) s = .next (u.complete (s.refOf c 0x51) stConflict (argOff 1) 0)) ∧
        (u.destOk c.fn dest = true → exec (.tuLabel c) s = .next (u.modFn c.fn fun f =>
          { f with labelPend := some { dom := c.arg0.toNat % 2, dest := dest, t0 := u.now, cmd := s.refOf c 0x51 } })))) ∧
    (s.time.kq.find? (fun e => e.k == k) = none → exec (.timecontEmit k) s = .next s) ∧
    (∀ e, s.time.kq.find? (fun e => e.k == k) = some e → exec (.timecontEmit k) s =
      .next ((s.modTime fun t => { t with kq := t.kq.filter (fun e => e.k != k) }).forEach ((List.range 256).filter fun t => s.fnExists t)
        fun v t => v.emitTimecont t e))

/-- Reference qualification and selection, pulse inputs, the loop and the external trigger. (13_time_and_reference.md
(R344 to R350, Tables 13.4, 13.5, 13.8), 15_pins_package.md (R394)) -/
def Obligations.ReferencesAndPulses : Prop :=
  ∀ (x : RefInput) (i : Fin 2) (count : Nat) (off : Int) (v phase : W32) (c : RingCmd) (s : State),
    let near := -100 ≤ off ∧ off ≤ 100
    let wide := -1000 ≤ off ∧ off ≤ 1000
    let st := (s.ref x).st
    (4 ≤ x.val ∨ s.time.running = false → exec (.refActivityWindow x count) s = .next s ∧ exec (.refGate x off) s = .next s) ∧
    (x.val < 4 → s.time.running = true →
      (let n := s.refNominal x
       (3 * n ≤ 4 * count → 4 * count ≤ 5 * n → exec (.refActivityWindow x count) s = .next s) ∧
       (4 * count < 3 * n ∨ 5 * n < 4 * count → st ≠ .disqualified → ∃ t, exec (.refActivityWindow x count) s = .next t ∧
         (t.ref x).st = .disqualified ∧ (t.ref x).fails = satTo 0xFFFF ((s.ref x).fails + 1) ∧ t.time.active ≠ some x.val)) ∧
      (let w := s.modRef x fun r => { r with offset := clampI (-8388608) 8388607 off }
       let after (f : Ref → Ref) : Prop := exec (.refGate x off) s = .next (w.modRef x f)
       (st = .disqualified → after fun r => if r.activityOk then { r with st := .checking, gates := 0 } else { r with activityOk := true }) ∧
       (st = .checking →
         (¬ near → after fun r => { r with gates := 0 }) ∧
         (near → (s.ref x).gates < 3 → after fun r => { r with gates := (s.ref x).gates + 1 }) ∧
         (near → 3 ≤ (s.ref x).gates → after fun r => { r with st := .wait, gates := 0, waitAt := s.now })) ∧
       (st = .wait → (wide → exec (.refGate x off) s = .next w) ∧ (¬ wide → after fun r => { r with st := .checking, gates := 0 })) ∧
       (st = .qualified →
         (wide → after fun r => { r with badGates := 0 }) ∧
         (¬ wide → (s.ref x).badGates = 0 → after fun r => { r with badGates := 1 }) ∧
         (¬ wide → (s.ref x).badGates ≠ 0 → ∃ t, exec (.refGate x off) s = .next t ∧ (t.ref x).st = .disqualified ∧ t.time.active ≠ some x.val)))) ∧
    (st = .wait → exec (.refWtrExpiry x) s = .next (((s.modRef x fun r => { r with st := .qualified, badGates := 0 }).postQual x).afterQual x)) ∧
    (st ≠ .wait → exec (.refWtrExpiry x) s = .next s) ∧
    (s.starts true c = true →
      let u := s.started c
      let y := fld c.arg0.toNat 2 0
      let mask := if y = 3 then 0x00070000 else 0x0F070000
      (3 < y → exec (.refSet c) s = .next (u.complete (s.refOf c 0x52) stConflict (argOff 0) 0)) ∧
      (y ≤ 3 → exec (.refSet c) s = .next ((u.setBoth (0xD00100 + 4 * y) (mergeBits mask (u.reg (0xD00100 + 4 * y))
        (fld c.arg0.toNat 11 8 * 2 ^ 24 + fld c.arg0.toNat 18 16 * 2 ^ 16))).reselect.writeWarmImage.complete (s.refOf c 0x52) stOK 0 0))) ∧
    (let n := 4 + i.val
     let r := s.ref n
     let w := s.modRef n fun r => { r with cap := s.now, capped := true }
     (s.ppsOn i = false ∨ s.time.running = false → exec (.ppsEdge i) s = .next s) ∧
     (s.ppsOn i = true → s.time.running = true →
       (r.capped = false → r.st ≠ .qualified → exec (.ppsEdge i) s = .next (w.modRef n fun r => { r with activityOk := true })) ∧
       (r.capped = true → (s.now < r.cap + 1249998750 ∨ r.cap + 1250001250 < s.now) →
         exec (.ppsEdge i) s = .next ((w.refFail n).modRef n fun r => { r with activityOk := true }))) ∧
     (s.ppsOn i = true → r.capped = true → exec (.ppsNoEdge i) s = .next (s.refFail n)) ∧
     (s.ppsOn i = false ∨ r.capped = false → exec (.ppsNoEdge i) s = .next s)) ∧
    (fld (s.reg 0xF00000) 7 6 ≠ 2 ∨ s.time.running = false → exec .extTrig s = .next s) ∧
    (fld (s.reg 0xF00000) 7 6 = 2 → s.time.running = true →
      let w := s.modRef 5 fun r => { r with cap := s.now, capped := true }
      (s.time.lastTrig.all (fun t => decide (t + 1250 ≤ s.now)) = true → exec .extTrig s =
        .next ((w.modTime fun t => { t with lastTrig := some s.now }).postEvt 0 0x34 0 15 0 (s.now % 2 ^ 32) (s.now / 2 ^ 32))) ∧
      (s.time.lastTrig.any (fun t => decide (s.now < t + 1250)) = true → exec .extTrig s = .next w)) ∧
    (s.ready = true → s.setup.busy = false →
      (let w := (s.setBoth 0xD00140 (mergeBits (if fld v.toNat 17 16 = 3 then 0xFF00FFFF else 0xFF03FFFF) s.refLoop v.toNat)).reselect
       (w.time.active = none → exec (.refLoopWrite v) s = .next (w.setLoop .holdover)) ∧
       (w.time.active ≠ none → exec (.refLoopWrite v) s = .next (w.setLoop w.loopMode))) ∧
      (let y := clampI (-16777216) 16777216 (toSigned 32 v.toNat)
       let w := (s.setBoth 0xD0014C (ofSigned 32 y)).modTime fun t => { t with steer := y, steered := true }
       (s.time.loop ≠ .holdover → exec (.rootSteerWrite v) s = .next w) ∧
       (s.time.loop = .holdover → w.loopMode = .opened → s.time.active.isSome = true → exec (.rootSteerWrite v) s = .next (w.setLoop .opened)))) ∧
    (s.time.loop = .opened →
      exec .openTimeout s = .next (s.setLoop .holdover) ∧
      exec (.phaseReport phase) s =
        .next (s.modTime fun t => { t with phase := phase, phaseSeq := t.phaseSeq + 1, freq := slewTo t.freq t.steer })) ∧
    (s.time.loop ≠ .opened → exec .openTimeout s = .next s ∧ exec (.phaseReport phase) s = .next s) ∧
    (s.ready = true → exec .refPhaseRead s = .next ((s.modTime fun t => { t with seqLatch := t.phaseSeq }).emit (.read 0 s.time.phase))) ∧
    (s.ready = false → s.hostOut = true → exec .refPhaseRead s = .next (s.emit (.read 0 0))) ∧
    (s.ready = false → s.hostOut = false → exec .refPhaseRead s = .next s)

end
end

