-- ==== Sys2Proof/Laws/Bits.lean ====
section
/-! SUPPORT. The byte order and the CRC-32: lengths, the number that bytes spell, and the check of a block that ends in its own
CRC. -/
set_option Elab.async false

namespace Sys2Proof.Machine

open Sys2Proof

@[simp] theorem le_length (n v : Nat) : (le n v).length = n := by
  induction n generalizing v with
  | zero => rfl
  | succ n ih => simp [le, ih]

/-- Bytes written least significant first spell the number again, modulo their width. -/
theorem ofLe_le (n v : Nat) : ofLe (le n v) = v % 256 ^ n := by
  induction n generalizing v with
  | zero => simp [le, ofLe, Nat.mod_one]
  | succ n ih =>
    rw [Nat.pow_succ', Nat.mod_mul]
    simp only [le, ofLe, ih, BitVec.toNat_ofNat]

/-- A number stands where it was appended. -/
theorem leAt_append (bs : List Byte) (n v : Nat) : leAt (bs ++ le n v) bs.length n = v % 256 ^ n := by
  have h : (le n v).take n = le n v := List.take_of_length_le (by simp)
  simp [leAt, h, ofLe_le]

theorem crcBit_lt {c : Nat} (h : c < 2 ^ 32) : crcBit c < 2 ^ 32 := by
  have hd : c / 2 < 2 ^ 32 := Nat.lt_of_le_of_lt (Nat.div_le_self ..) h
  unfold crcBit
  split
  · exact Nat.xor_lt_two_pow hd (by decide)
  · exact hd

theorem crcByte_lt {c : Nat} (h : c < 2 ^ 32) (b : Byte) : crcByte c b < 2 ^ 32 := by
  have hb : b.toNat < 2 ^ 32 := Nat.lt_of_lt_of_le b.isLt (by decide)
  exact crcBit_lt (crcBit_lt (crcBit_lt (crcBit_lt (crcBit_lt (crcBit_lt (crcBit_lt (crcBit_lt (Nat.xor_lt_two_pow h hb))))))))

theorem crc32_lt (bs : List Byte) : crc32 bs < 2 ^ 32 := by
  have h : ∀ (l : List Byte) (c : Nat), c < 2 ^ 32 → l.foldl crcByte c < 2 ^ 32 := by
    intro l
    induction l with
    | nil => exact fun _ h => h
    | cons b r ih => exact fun c h => ih _ (crcByte_lt h b)
  exact Nat.xor_lt_two_pow (h _ _ (by decide)) (by decide)

/-- A block with its CRC-32 behind it passes the check of R59. -/
theorem crc32_check (bs : List Byte) :
    crc32 ((bs ++ le32 (crc32 bs)).take bs.length) = leAt (bs ++ le32 (crc32 bs)) bs.length 4 := by
  rw [le32, leAt_append, List.take_left, Nat.mod_eq_of_lt]
  exact crc32_lt bs

end Sys2Proof.Machine
end

