-- ==== Sys2Proof/Laws/Tables.lean ====
section
/-! SUPPORT. Sparse tables: a read after a write, and the canonical form that every operation on them keeps. -/
set_option Elab.async false

namespace Sys2Proof.Machine

variable {α : Type}

theorem getT_setT_self [DecidableEq α] (d : α) (t : Tab α) (k : Nat) (v : α) (lo : Option Nat) (h : wfFrom d lo t = true) :
    getT d (setT d t k v) k = v := by
  induction t generalizing lo with
  | nil => unfold setT; split <;> simp_all [getT]
  | cons e r ih =>
    obtain ⟨a, w⟩ := e
    simp only [wfFrom, Bool.and_eq_true] at h
    obtain ⟨⟨-, -⟩, hr⟩ := h
    have hlt : ∀ x ∈ r, a < x.1 := by
      clear ih
      induction r generalizing a with
      | nil => simp
      | cons y r ih2 =>
        simp only [wfFrom, Bool.and_eq_true, decide_eq_true_eq] at hr
        intro x hx
        rcases List.mem_cons.mp hx with rfl | hx
        · exact hr.1.1
        · exact Nat.lt_trans hr.1.1 (ih2 _ hr.2 x hx)
    have hnot : ∀ (l : Tab α) (m : Nat), (∀ x ∈ l, m < x.1) → getT d l m = d := by
      intro l m
      induction l with
      | nil => simp [getT]
      | cons y l ih3 =>
        intro hl
        have h1 := hl y (by simp)
        unfold getT
        rw [if_neg (by omega)]
        exact ih3 fun x hx => hl x (by simp [hx])
    unfold setT
    split
    · split
      · rename_i hk hv
        rw [hv]
        unfold getT
        rw [if_neg (by omega)]
        exact hnot r k fun x hx => Nat.lt_trans hk (hlt x hx)
      · simp [getT]
    · split
      · split
        · rename_i hk hv
          rw [hv]
          exact hnot r k fun x hx => by rw [hk]; exact hlt x hx
        · simp [getT]
      · rename_i h1 h2
        unfold getT
        rw [if_neg h2]
        exact ih (some a) hr

theorem getT_setT_other [DecidableEq α] (d : α) (t : Tab α) (k j : Nat) (v : α) (hj : j ≠ k) :
    getT d (setT d t k v) j = getT d t j := by
  induction t with
  | nil => unfold setT; split <;> simp [getT, hj]
  | cons e r ih =>
    obtain ⟨a, w⟩ := e
    unfold setT
    split
    · split
      · rfl
      · simp [getT, hj]
    · split
      · rename_i hk
        subst hk
        split <;> simp [getT, hj]
      · simp only [getT]
        rw [ih]

/-- A value other than the default reads back from any table. -/
theorem getT_setT_ne [DecidableEq α] (d : α) (t : Tab α) (k : Nat) (v : α) (hv : v ≠ d) : getT d (setT d t k v) k = v := by
  induction t with
  | nil => simp [setT, hv, getT]
  | cons e r ih =>
    obtain ⟨a, w⟩ := e
    unfold setT
    split
    · simp [getT]
    · split
      · simp [getT]
      · rename_i h
        simp only [getT, if_neg h, ih]

/-- Whether an index lies above a bound. -/
def above (lo : Option Nat) (k : Nat) : Prop := match lo with | none => True | some l => l < k

theorem wfFrom_cons [DecidableEq α] {d : α} {lo : Option Nat} {a : Nat} {v : α} {r : Tab α} :
    wfFrom d lo ((a, v) :: r) = true ↔ above lo a ∧ v ≠ d ∧ wfFrom d (some a) r = true := by
  cases lo <;> simp [wfFrom, above, and_assoc]

theorem setT_wfFrom [DecidableEq α] (d : α) (t : Tab α) (k : Nat) (v : α) (lo : Option Nat) (h : wfFrom d lo t = true)
    (hk : above lo k) : wfFrom d lo (setT d t k v) = true := by
  induction t generalizing lo with
  | nil =>
    unfold setT
    split
    · rfl
    · exact wfFrom_cons.mpr ⟨hk, by assumption, rfl⟩
  | cons e r ih =>
    obtain ⟨a, w⟩ := e
    obtain ⟨h1, h2, h3⟩ := wfFrom_cons.mp h
    unfold setT
    split
    · rename_i hlt
      split
      · exact h
      · exact wfFrom_cons.mpr ⟨hk, by assumption, wfFrom_cons.mpr ⟨hlt, h2, h3⟩⟩
    · split
      · rename_i heq
        subst heq
        split
        · cases r with
          | nil => rfl
          | cons y r =>
            obtain ⟨b, u⟩ := y
            obtain ⟨g1, g2, g3⟩ := wfFrom_cons.mp h3
            refine wfFrom_cons.mpr ⟨?_, g2, g3⟩
            cases lo with
            | none => trivial
            | some l => exact Nat.lt_trans h1 g1
        · exact wfFrom_cons.mpr ⟨h1, by assumption, h3⟩
      · refine wfFrom_cons.mpr ⟨h1, h2, ih (some a) h3 ?_⟩
        show a < k
        omega

/-- A write keeps the canonical form. -/
theorem setT_wf [DecidableEq α] {d : α} {t : Tab α} (h : wfT d t = true) (k : Nat) (v : α) : wfT d (setT d t k v) = true :=
  setT_wfFrom d t k v none h trivial

/-- A rewrite keeps the canonical form. -/
theorem modT_wf [DecidableEq α] {d : α} {t : Tab α} (h : wfT d t = true) (k : Nat) (f : α → α) : wfT d (modT d t k f) = true :=
  setT_wf h k _

/-- A run of writes keeps the canonical form. -/
theorem setRun_wf [DecidableEq α] {d : α} {t : Tab α} (h : wfT d t = true) (k : Nat) (l : List α) : wfT d (setRun d t k l) = true := by
  induction l generalizing t k with
  | nil => exact h
  | cons v r ih => exact ih (setT_wf h k v) (k + 1)

theorem filter_wfFrom [DecidableEq α] {d : α} (p : Nat × α → Bool) (t : Tab α) (lo : Option Nat) (h : wfFrom d lo t = true) :
    wfFrom d lo (t.filter p) = true := by
  induction t generalizing lo with
  | nil => rfl
  | cons e r ih =>
    obtain ⟨a, w⟩ := e
    obtain ⟨h1, h2, h3⟩ := wfFrom_cons.mp h
    rw [List.filter_cons]
    split
    · exact wfFrom_cons.mpr ⟨h1, h2, ih _ h3⟩
    · refine ih lo ?_
      cases r with
      | nil => rfl
      | cons y r =>
        obtain ⟨b, u⟩ := y
        obtain ⟨g1, g2, g3⟩ := wfFrom_cons.mp h3
        refine wfFrom_cons.mpr ⟨?_, g2, g3⟩
        cases lo with
        | none => trivial
        | some l => exact Nat.lt_trans h1 g1

/-- Erasing a range keeps the canonical form. -/
theorem clearRun_wf [DecidableEq α] {d : α} {t : Tab α} (h : wfT d t = true) (k n : Nat) : wfT d (clearRun t k n) = true :=
  filter_wfFrom _ t none h

end Sys2Proof.Machine
end

