-- ==== Sys2Proof/Laws/Engine.lean ====
section
/-! SUPPORT. What the issue of an engine instruction comes to where nothing around it faults. -/
set_option Elab.async false

namespace Sys2Proof.Machine

open Sys2Proof

theorem modSet_st (x : Eng) (f : RegSet → RegSet) : (x.modSet f).st = x.st := by
  unfold Eng.modSet; split <;> rfl

theorem land_st (x : Eng) (l : Land) : (x.land l).st = x.st := by
  cases l <;> simp only [Eng.land, modSet_st, Eng.putBytes] <;> split <;> simp [modSet_st]

theorem landTo_st (x : Eng) (c : Nat) : (x.landTo c).st = x.st := by
  unfold Eng.landTo
  generalize sortBy _ _ = l
  suffices h : ∀ (l : List (Nat × Land)) (y : Eng), (l.foldl (fun e l => e.land l.2) y).st = y.st by
    simp only [h, modSet_st]
  intro l
  induction l with
  | nil => intro y; rfl
  | cons a r ih => intro y; simp only [List.foldl_cons, ih, land_st]

theorem eng_modEng (s : State) (e : Nat) (f : Eng → Eng) (h : (f (s.eng e)).st ≠ .reset) : (s.modEng e f).eng e = f (s.eng e) := by
  unfold State.modEng State.eng modT
  apply getT_setT_ne
  intro hd
  apply h
  unfold State.eng
  rw [hd]

/-- The engine as the instruction's own effect meets it. -/
theorem atIssue_eng (s : State) (e : Nat) (h : s.canIssue e = true) : (s.atIssue e).eng e = s.landed e := by
  apply eng_modEng
  simp only [State.canIssue, Bool.and_eq_true, beq_iff_eq] at h
  simp [State.landed, landTo_st, h.1.1]

/-- An instruction that issues without a fault has its own effect, and then what follows every instruction. -/
theorem issue_eq (s : State) (e : Nat) (k : IssueKind) (n : Nat) (o : EngOp) (own : List Field) (body : State → Except Nat State)
    (h : s.issues e k o own = true) :
    s.issue e k n o own body = match body (s.atIssue e) with
      | .error c => (s.atIssue e).engFault e c
      | .ok v => s.finish v e k n o own := by
  unfold State.issues at h
  simp only [Bool.and_eq_true] at h
  obtain ⟨⟨hc, hs⟩, hf⟩ := h
  have hx := atIssue_eng s e hc
  unfold State.issue
  simp only [hc, Bool.not_true, Bool.false_eq_true, ↓reduceIte]
  have he : (s.modEng e fun x => { (x.landTo x.set.cyc) with issued := x.issued || !x.inh }) = s.atIssue e := rfl
  simp only [he, hx]
  unfold fieldsOf at hf
  unfold State.finish fieldsOf
  cases ha : fieldOfBits o.ma <;> cases hb : fieldOfBits o.mb <;> simp only [ha, hb, Bool.false_eq_true] at hf ⊢
  simp only [Bool.and_eq_true, decide_eq_true_eq, Option.isNone_iff_eq_none] at hf
  obtain ⟨⟨h1, h2⟩, h3⟩ := hf
  have hs' : seqFault (s.landed e).set k = false := by simpa using hs
  simp only [hs', h1, h2, Bool.false_eq_true, ↓reduceIte]
  rw [if_neg (Nat.not_lt.mpr h3)]
  rfl
end Sys2Proof.Machine
end

