-- ==== Sys2Proof/Laws/Keep.lean ====
section
/-! SUPPORT. What an operation leaves alone: the HBM contents, the queue, the seal and the committed registers, as one
predicate `Has` over these four, which an operation that writes none of them keeps whatever it says. -/
set_option linter.all false
set_option Elab.async false

namespace Sys2Proof.Machine

open Sys2Proof

/-- A property of the HBM contents, the queue, SETUP_STATUS.SEALED and the committed registers. -/
abbrev Keep := List Host.Cell → List Instr → Bool → Tab W32 → Prop

/-- The state has the property. -/
def State.Has (s : State) (K : Keep) : Prop := K s.hbm s.pending s.setup.sealed s.comm

/-- The property survives what writes HBM contents. -/
structure Keep.Hbm (K : Keep) : Prop where
  write : ∀ m p b c a bs, K m p b c → K (setRun 0 m a bs) p b c
  clear : ∀ m p b c a n, K m p b c → K (clearRun m a n) p b c

/-- The property survives the sealing of the setup. -/
def Keep.Seal (K : Keep) : Prop := ∀ m p b c, K m p b c → K m p true c

/-- The property survives any committed registers. -/
def Keep.Comm (K : Keep) : Prop := ∀ m p b c c', K m p b c → K m p b c'

/-- The property survives a restart: memory empty, not sealed. -/
def Keep.Restart (K : Keep) : Prop := ∀ m p b c c', K m p b c → K [] p false c'

variable {K : Keep}

/-- An update of the other fields. -/
theorem State.Has.upd {t : State} {s : State} (h : t.Has K) (e1 : s.hbm = t.hbm) (e2 : s.pending = t.pending)
    (e3 : s.setup.sealed = t.setup.sealed) (e4 : s.comm = t.comm) : s.Has K := by
  unfold State.Has at *
  rw [e1, e2, e3, e4]
  exact h

/-- The property of a record in terms of its four fields. -/
theorem State.has_mk
    {x0 : Tab W32} {x1 : Tab W32} {x2 : Setup} {x3 : Nat} {x4 : Tab Fn} {x5 : Tab Ring} {x6 : Tab Lane} 
    {x7 : Tab Group} {x8 : Tab OutGroup} {x9 : Tab OutLane} {x10 : Tab Die} {x11 : Tab Stack} {x12 : Grid} 
    {x13 : Tab Sub} {x14 : Tab Beam} {x15 : Tab Topk} {x16 : List (Nat × Topk)} {x17 : Tab (Option Handle)} 
    {x18 : List AllocWait} {x19 : List Host.Cell} {x20 : List Flag} {x21 : Nat} {x22 : List FlagWait} 
    {x23 : Tab Chain} {x24 : Tab Eng} {x25 : Tab EGroup} {x26 : Dec} {x27 : Tab Dma} {x28 : List Tlb} 
    {x29 : List (CmdRef × Nat × Nat × Nat)} {x30 : Tab Lock} {x31 : Tab Nat} {x32 : BitVec 16} {x33 : Nat} 
    {x34 : Nat} {x35 : Nat} {x36 : Tab Port} {x37 : Mgmt} {x38 : Time} {x39 : Rst} {x40 : List Output} {x41 : Nat} 
    {x42 : List Instr} 
    :
    State.Has ⟨x0, x1, x2, x3, x4, x5, x6, x7, x8, x9, x10, x11, x12, x13, x14, x15, x16, x17, x18, x19, x20, x21, x22, x23, x24, x25, x26, x27, x28, x29, x30, x31, x32, x33, x34, x35, x36, x37, x38, x39, x40, x41, x42⟩ K ↔ K x19 x42 x2.sealed x1 :=
  Iff.rfl

/-- The property of a state from its four fields. -/
theorem State.Has.fold {t : State} (h : t.Has K) : K t.hbm t.pending t.setup.sealed t.comm := h

theorem Keep.Comm.of (hc : K.Comm) {t : State} {c : Tab W32} (h : t.Has K) : K t.hbm t.pending t.setup.sealed c :=
  hc _ _ _ _ _ h

theorem Keep.Seal.of (hs : K.Seal) {t : State} (h : t.Has K) : K t.hbm t.pending true t.comm :=
  hs _ _ _ _ h

theorem Keep.Restart.of (hr : K.Restart) {t : State} {c : Tab W32} (h : t.Has K) :
    K State.reset.hbm t.pending State.reset.setup.sealed c :=
  hr _ _ _ _ _ h

theorem State.forEach_keeps {α : Type} {f : State → α → State} (hf : ∀ s x, s.Has K → (f s x).Has K) (l : List α) {s : State}
    (h : s.Has K) : (s.forEach l f).Has K := by
  induction l generalizing s with
  | nil => exact h
  | cons x r ih => exact ih (hf s x h)

/-- A fold that carries a state and a result. -/
theorem foldl_keeps {α β : Type} {f : State × β → α → State × β} (hf : ∀ p x, p.1.Has K → (f p x).1.Has K) (l : List α)
    {p : State × β} (h : p.1.Has K) : (l.foldl f p).1.Has K := by
  induction l generalizing p with
  | nil => exact h
  | cons x r ih => exact ih (hf p x h)

end Sys2Proof.Machine
end

