-- ==== Sys2Proof/Laws/KeepOps.lean ====
section
/-! SUPPORT. What the operations of Machine/Ops.lean leave alone. -/
set_option linter.all false
set_option Elab.async false

namespace Sys2Proof.Machine

open Sys2Proof

variable {K : Keep}

theorem State.modFn_keeps {s : State} {t : Nat} {f : Fn → Fn} (hk : s.Has K) : (State.modFn s t f).Has K := by
  unfold State.modFn
  repeat' first
      | with_reducible assumption | with_reducible refine State.Has.fold ?_ | simp only [↓State.has_mk]

theorem State.modRing_keeps {s : State} {fn : Nat} {q : Nat} {f : Ring → Ring} (hk : s.Has K) : (State.modRing s fn q f).Has K := by
  unfold State.modRing
  repeat' first
      | with_reducible assumption | with_reducible refine State.Has.fold ?_ | simp only [↓State.has_mk]

theorem State.modLane_keeps {s : State} {x : Nat} {f : Lane → Lane} (hk : s.Has K) : (State.modLane s x f).Has K := by
  unfold State.modLane
  repeat' first
      | with_reducible assumption | with_reducible refine State.Has.fold ?_ | simp only [↓State.has_mk]

theorem State.modGroup_keeps {s : State} {g : Nat} {f : Group → Group} (hk : s.Has K) : (State.modGroup s g f).Has K := by
  unfold State.modGroup
  repeat' first
      | with_reducible assumption | with_reducible refine State.Has.fold ?_ | simp only [↓State.has_mk]

theorem State.modOutGrp_keeps {s : State} {g : Nat} {f : OutGroup → OutGroup} (hk : s.Has K) : (State.modOutGrp s g f).Has K := by
  unfold State.modOutGrp
  repeat' first
      | with_reducible assumption | with_reducible refine State.Has.fold ?_ | simp only [↓State.has_mk]

theorem State.modOutLane_keeps {s : State} {x : Nat} {f : OutLane → OutLane} (hk : s.Has K) : (State.modOutLane s x f).Has K := by
  unfold State.modOutLane
  repeat' first
      | with_reducible assumption | with_reducible refine State.Has.fold ?_ | simp only [↓State.has_mk]

theorem State.modDie_keeps {s : State} {d : Nat} {f : Die → Die} (hk : s.Has K) : (State.modDie s d f).Has K := by
  unfold State.modDie
  repeat' first
      | with_reducible assumption | with_reducible refine State.Has.fold ?_ | simp only [↓State.has_mk]

theorem State.modStack_keeps {s : State} {d : Nat} {k : Nat} {f : Stack → Stack} (hk : s.Has K) : (State.modStack s d k f).Has K := by
  unfold State.modStack
  repeat' first
      | with_reducible assumption | with_reducible refine State.Has.fold ?_ | simp only [↓State.has_mk]

theorem State.modSub_keeps {s : State} {n : Nat} {f : Sub → Sub} (hk : s.Has K) : (State.modSub s n f).Has K := by
  unfold State.modSub
  repeat' first
      | with_reducible assumption | with_reducible refine State.Has.fold ?_ | simp only [↓State.has_mk]

theorem State.modBeam_keeps {s : State} {n : Nat} {f : Beam → Beam} (hk : s.Has K) : (State.modBeam s n f).Has K := by
  unfold State.modBeam
  repeat' first
      | with_reducible assumption | with_reducible refine State.Has.fold ?_ | simp only [↓State.has_mk]

theorem State.modChain_keeps {s : State} {c : Nat} {f : Chain → Chain} (hk : s.Has K) : (State.modChain s c f).Has K := by
  unfold State.modChain
  repeat' first
      | with_reducible assumption | with_reducible refine State.Has.fold ?_ | simp only [↓State.has_mk]

theorem State.modEng_keeps {s : State} {e : Nat} {f : Eng → Eng} (hk : s.Has K) : (State.modEng s e f).Has K := by
  unfold State.modEng
  repeat' first
      | with_reducible assumption | with_reducible refine State.Has.fold ?_ | simp only [↓State.has_mk]

theorem State.modEGroup_keeps {s : State} {g : Nat} {f : EGroup → EGroup} (hk : s.Has K) : (State.modEGroup s g f).Has K := by
  unfold State.modEGroup
  repeat' first
      | with_reducible assumption | with_reducible refine State.Has.fold ?_ | simp only [↓State.has_mk]

theorem State.modDma_keeps {s : State} {c : Nat} {f : Dma → Dma} (hk : s.Has K) : (State.modDma s c f).Has K := by
  unfold State.modDma
  repeat' first
      | with_reducible assumption | with_reducible refine State.Has.fold ?_ | simp only [↓State.has_mk]

theorem State.modLock_keeps {s : State} {n : Nat} {f : Lock → Lock} (hk : s.Has K) : (State.modLock s n f).Has K := by
  unfold State.modLock
  repeat' first
      | with_reducible assumption | with_reducible refine State.Has.fold ?_ | simp only [↓State.has_mk]

theorem State.modPort_keeps {s : State} {p : Nat} {f : Port → Port} (hk : s.Has K) : (State.modPort s p f).Has K := by
  unfold State.modPort
  repeat' first
      | with_reducible assumption | with_reducible refine State.Has.fold ?_ | simp only [↓State.has_mk]

theorem State.modDec_keeps {s : State} {f : Dec → Dec} (hk : s.Has K) : (State.modDec s f).Has K := by
  unfold State.modDec
  repeat' first
      | with_reducible assumption | with_reducible refine State.Has.fold ?_ | simp only [↓State.has_mk]

theorem State.modMgmt_keeps {s : State} {f : Mgmt → Mgmt} (hk : s.Has K) : (State.modMgmt s f).Has K := by
  unfold State.modMgmt
  repeat' first
      | with_reducible assumption | with_reducible refine State.Has.fold ?_ | simp only [↓State.has_mk]

theorem State.modTime_keeps {s : State} {f : Time → Time} (hk : s.Has K) : (State.modTime s f).Has K := by
  unfold State.modTime
  repeat' first
      | with_reducible assumption | with_reducible refine State.Has.fold ?_ | simp only [↓State.has_mk]

theorem State.modRst_keeps {s : State} {f : Rst → Rst} (hk : s.Has K) : (State.modRst s f).Has K := by
  unfold State.modRst
  repeat' first
      | with_reducible assumption | with_reducible refine State.Has.fold ?_ | simp only [↓State.has_mk]

theorem State.modGrid_keeps {s : State} {f : Grid → Grid} (hk : s.Has K) : (State.modGrid s f).Has K := by
  unfold State.modGrid
  repeat' first
      | with_reducible assumption | with_reducible refine State.Has.fold ?_ | simp only [↓State.has_mk]

theorem State.modDom_keeps {s : State} {d : Nat} {f : Dom → Dom} (hk : s.Has K) : (State.modDom s d f).Has K := by
  unfold State.modDom
  repeat' first
      | with_reducible assumption | with_reducible apply State.modTime_keeps | with_reducible refine State.Has.fold ?_
      | simp only [↓State.has_mk] | intro _

theorem State.modRef_keeps {s : State} {x : Nat} {f : Ref → Ref} (hk : s.Has K) : (State.modRef s x f).Has K := by
  unfold State.modRef
  repeat' first
      | with_reducible assumption | with_reducible apply State.modTime_keeps | with_reducible refine State.Has.fold ?_
      | simp only [↓State.has_mk] | intro _

theorem State.emit_keeps {s : State} {o : Output} (hk : s.Has K) : (State.emit s o).Has K := by
  unfold State.emit
  repeat' first
      | with_reducible assumption | with_reducible refine State.Has.fold ?_ | simp only [↓State.has_mk]

theorem State.drawFree_keeps {s : State} (hk : s.Has K) : (State.drawFree s).Has K := by
  unfold State.drawFree
  repeat' first
      | with_reducible assumption | with_reducible refine State.Has.fold ?_ | simp only [↓State.has_mk] | intro _

theorem State.bar2Write_keeps {s : State} {k : State → State} (h_k : ∀ s₀, s₀.Has K → (k s₀).Has K) (hk : s.Has K) : (State.bar2Write s k).Has K := by
  unfold State.bar2Write
  repeat' first
      | with_reducible assumption | with_reducible apply h_k | with_reducible refine State.Has.fold ?_
      | simp only [↓State.has_mk] | split

theorem State.absorb_keeps {s : State} {b : Nat} (hk : s.Has K) : (State.absorb s b).Has K := by
  unfold State.absorb
  repeat' first
      | with_reducible assumption | with_reducible apply State.modRst_keeps | with_reducible refine State.Has.fold ?_
      | simp only [↓State.has_mk] | intro _

theorem State.raiseVec_keeps {s : State} {fn : Nat} {v : Nat} (hk : s.Has K) : (State.raiseVec s fn v).Has K := by
  unfold State.raiseVec
  repeat' first
      | with_reducible assumption | with_reducible apply State.emit_keeps | with_reducible apply State.modFn_keeps
      | with_reducible refine State.Has.fold ?_ | simp only [↓State.has_mk] | intro _ | split

theorem State.ringIrq_keeps {s : State} {fn : Nat} {q : Nat} (hk : s.Has K) : (State.ringIrq s fn q).Has K := by
  unfold State.ringIrq
  repeat' first
      | with_reducible assumption | with_reducible apply State.raiseVec_keeps | with_reducible apply State.modRing_keeps
      | with_reducible refine State.Has.fold ?_ | simp only [↓State.has_mk] | intro _ | split

theorem State.countTuFault_keeps {s : State} {t : Nat} (hk : s.Has K) : (State.countTuFault s t).Has K := by
  unfold State.countTuFault
  repeat' first
      | with_reducible assumption | with_reducible refine State.Has.fold ?_ | simp only [↓State.has_mk] | intro _

theorem State.ringToError_keeps {s : State} {fn : Nat} {q : Nat} {cause : Nat} (hk : s.Has K) : (State.ringToError s fn q cause).Has K := by
  unfold State.ringToError
  repeat' first
      | with_reducible assumption | with_reducible apply State.modRing_keeps | with_reducible refine State.Has.fold ?_
      | simp only [↓State.has_mk] | intro _

theorem State.writeEvt_keeps {s : State} {fn : Nat} {q : Nat} {w0 : Nat} {w1 : Nat} {d0 : Nat} {d1 : Nat} (hk : s.Has K) : (State.writeEvt s fn q w0 w1 d0 d1).Has K := by
  unfold State.writeEvt
  repeat' first
      | with_reducible assumption | with_reducible apply State.ringToError_keeps | with_reducible apply State.countTuFault_keeps
      | with_reducible apply State.ringIrq_keeps | with_reducible apply State.emit_keeps
      | with_reducible apply State.modRing_keeps | intro _ | split | dsimp only

theorem State.loseEvt_keeps {s : State} {fn : Nat} (hk : s.Has K) : (State.loseEvt s fn).Has K := by
  unfold State.loseEvt
  repeat' first
      | with_reducible assumption | with_reducible apply State.modFn_keeps | with_reducible refine State.Has.fold ?_
      | simp only [↓State.has_mk] | intro _

theorem State.overflowEvt_keeps {s : State} {fn : Nat} (hk : s.Has K) : (State.overflowEvt s fn).Has K := by
  unfold State.overflowEvt
  repeat' first
      | with_reducible assumption | with_reducible apply State.writeEvt_keeps | with_reducible apply State.modFn_keeps | intro _
      | split | dsimp only

theorem State.postEvt_keeps {s : State} {fn : Nat} {ev : Nat} {st : Nat} {kind : Nat} {id : Nat} {d0 : Nat} {d1 : Nat} (hk : s.Has K) : (State.postEvt s fn ev st kind id d0 d1).Has K := by
  unfold State.postEvt
  repeat' first
      | with_reducible assumption | with_reducible apply State.overflowEvt_keeps | with_reducible apply State.loseEvt_keeps
      | with_reducible apply State.writeEvt_keeps | with_reducible apply State.modFn_keeps | intro _ | split | dsimp only

theorem State.postStatus_keeps {s : State} {fn : Nat} {st : Nat} {kind : Nat} {id : Nat} {d0 : Nat} {d1 : Nat} (hk : s.Has K) : (State.postStatus s fn st kind id d0 d1).Has K := by
  unfold State.postStatus
  repeat' first
      | with_reducible assumption | with_reducible apply State.postEvt_keeps

theorem State.complete_keeps {s : State} {r : CmdRef} {st : Nat} {r0 : Nat} {r1 : Nat} (hk : s.Has K) : (State.complete s r st r0 r1).Has K := by
  unfold State.complete
  repeat' first
      | with_reducible assumption | with_reducible apply State.modRing_keeps | with_reducible refine State.Has.fold ?_
      | simp only [↓State.has_mk] | intro _

theorem State.completeOpt_keeps {s : State} {r : Option CmdRef} {st : Nat} {r0 : Nat} {r1 : Nat} (hk : s.Has K) : (State.completeOpt s r st r0 r1).Has K := by
  unfold State.completeOpt
  repeat' first
      | with_reducible assumption | with_reducible apply State.complete_keeps | split

theorem State.grantLock_keeps {s : State} {n : Nat} {holder : Nat} {cmd : Option CmdRef} (hk : s.Has K) : (State.grantLock s n holder cmd).Has K := by
  unfold State.grantLock
  repeat' first
      | with_reducible assumption | with_reducible apply State.completeOpt_keeps | with_reducible apply State.modLock_keeps
      | with_reducible refine State.Has.fold ?_ | simp only [↓State.has_mk] | intro _ | dsimp only

theorem State.grantNext_keeps {s : State} {n : Nat} (hk : s.Has K) : (State.grantNext s n).Has K := by
  unfold State.grantNext
  repeat' first
      | with_reducible assumption | with_reducible apply State.grantLock_keeps | with_reducible apply State.modLock_keeps
      | intro _ | split | dsimp only

theorem State.releaseLock_keeps {s : State} {n : Nat} {mark : Nat} (hk : s.Has K) : (State.releaseLock s n mark).Has K := by
  unfold State.releaseLock
  repeat' first
      | with_reducible assumption | with_reducible apply State.grantNext_keeps | with_reducible apply State.modLock_keeps
      | with_reducible refine State.Has.fold ?_ | simp only [↓State.has_mk] | intro _ | split

theorem State.loseHolder_keeps {s : State} {ring : Nat} (hk : s.Has K) : (State.loseHolder s ring).Has K := by
  unfold State.loseHolder
  repeat' first
      | with_reducible assumption | with_reducible apply State.releaseLock_keeps | with_reducible apply State.completeOpt_keeps
      | with_reducible apply State.complete_keeps | with_reducible apply State.forEach_keeps
      | with_reducible apply State.modMgmt_keeps | with_reducible apply State.modLock_keeps
      | with_reducible apply State.forEach_keeps | intro _ | split | dsimp only

theorem State.ringError_keeps {s : State} {fn : Nat} {q : Nat} {cause : Nat} (hk : s.Has K) : (State.ringError s fn q cause).Has K := by
  unfold State.ringError
  repeat' first
      | with_reducible assumption | with_reducible apply State.loseHolder_keeps | with_reducible apply State.postEvt_keeps
      | with_reducible apply State.ringToError_keeps | split | dsimp only

theorem State.tuFault_keeps {s : State} {t : Nat} {iova : Nat} {wr : Bool} (hk : s.Has K) : (State.tuFault s t iova wr).Has K := by
  unfold State.tuFault
  repeat' first
      | with_reducible assumption | with_reducible apply State.postEvt_keeps | with_reducible apply State.countTuFault_keeps

theorem State.translate_keeps {s : State} {t : Nat} {iova : Nat} {wr : Bool} {acc : HostAcc} (hk : s.Has K) : (State.translate s t iova wr acc).1.Has K := by
  unfold State.translate
  repeat' first
      | with_reducible assumption | with_reducible apply State.tuFault_keeps | with_reducible refine State.Has.fold ?_
      | simp only [↓State.has_mk] | intro _ | split | dsimp only

theorem State.translate_of {s : State} {t : Nat} {iova : Nat} {wr : Bool} {acc : HostAcc} {s₁ : State} {r₁ : Option Nat} (he : State.translate s t iova wr acc = (s₁, r₁)) (hk : s.Has K) : s₁.Has K := by
  have := State.translate_keeps hk (K := K) (s := s) (t := t) (iova := iova) (wr := wr) (acc := acc)
  rw [he] at this
  exact this

theorem State.refuse_keeps {s : State} {r : CmdRef} {st : Nat} {field : Nat} {check : Nat} (hk : s.Has K) : (State.refuse s r st field check).Has K := by
  unfold State.refuse
  repeat' first
      | with_reducible assumption | with_reducible apply State.complete_keeps

theorem State.consume_keeps {s : State} {fn : Nat} {q : Nat} (hk : s.Has K) : (State.consume s fn q).Has K := by
  unfold State.consume
  repeat' first
      | with_reducible assumption | with_reducible apply State.modRing_keeps | with_reducible refine State.Has.fold ?_
      | simp only [↓State.has_mk] | intro _

theorem State.startCmd_keeps {s : State} {opc : Nat} {pf : Bool} {c : RingCmd} {body : CmdRef → State → State} (h_body : ∀ r₀ s₀, s₀.Has K → (body r₀ s₀).Has K) (hk : s.Has K) : (State.startCmd s opc pf c body).Has K := by
  unfold State.startCmd
  repeat' first
      | with_reducible assumption | with_reducible apply h_body | with_reducible apply State.consume_keeps
      | with_reducible apply State.refuse_keeps | with_reducible apply State.translate_keeps
      | with_reducible refine State.translate_of (by with_reducible assumption) ?_ | with_reducible apply State.ringError_keeps
      | split | dsimp only

theorem State.writeRes_keeps {s : State} {c : RingCmd} {ref : CmdRef} {bytes : List Byte} {k : State → State} (h_k : ∀ s₀, s₀.Has K → (k s₀).Has K) (hk : s.Has K) : (State.writeRes s c ref bytes k).Has K := by
  unfold State.writeRes
  repeat' first
      | with_reducible assumption | with_reducible apply h_k | with_reducible apply State.refuse_keeps
      | with_reducible apply State.translate_keeps | with_reducible refine State.translate_of (by with_reducible assumption) ?_
      | with_reducible apply State.emit_keeps | split

theorem State.dataLost_keeps {s : State} {r : Rec} (hk : s.Has K) : (State.dataLost s r).Has K := by
  unfold State.dataLost
  repeat' first
      | with_reducible assumption | with_reducible apply State.postStatus_keeps

theorem State.addStaging_keeps {s : State} {d : Nat} {t : Nat} {n : Nat} (hk : s.Has K) : (State.addStaging s d t n).Has K := by
  unfold State.addStaging
  repeat' first
      | with_reducible assumption | with_reducible apply State.modDie_keeps | with_reducible refine State.Has.fold ?_
      | simp only [↓State.has_mk] | intro _

theorem State.subStaging_keeps {s : State} {d : Nat} {t : Nat} {n : Nat} (hk : s.Has K) : (State.subStaging s d t n).Has K := by
  unfold State.subStaging
  repeat' first
      | with_reducible assumption | with_reducible apply State.modDie_keeps | with_reducible refine State.Has.fold ?_
      | simp only [↓State.has_mk] | intro _

theorem State.stageRing_keeps {s : State} {q : Nat} {r : Rec} (hk : s.Has K) : (State.stageRing s q r).Has K := by
  unfold State.stageRing
  repeat' first
      | with_reducible assumption | with_reducible apply State.addStaging_keeps | with_reducible apply State.dataLost_keeps
      | with_reducible apply State.postStatus_keeps | with_reducible apply State.modRing_keeps | intro _ | split | dsimp only

theorem State.stageLane_keeps {s : State} {d : Nat} {r : Rec} (hk : s.Has K) : (State.stageLane s d r).Has K := by
  unfold State.stageLane
  repeat' first
      | with_reducible assumption | with_reducible apply State.addStaging_keeps | with_reducible apply State.dataLost_keeps
      | with_reducible apply State.modOutLane_keeps | with_reducible refine State.Has.fold ?_ | simp only [↓State.has_mk]
      | intro _ | split

theorem State.emitDie_keeps {s : State} {d : Nat} {dest : Nat} {r : Rec} (hk : s.Has K) : (State.emitDie s d dest r).1.Has K := by
  unfold State.emitDie
  repeat' first
      | with_reducible assumption | with_reducible apply State.stageLane_keeps | with_reducible apply State.stageRing_keeps
      | with_reducible apply State.dataLost_keeps | split | dsimp only

theorem State.emitDie_of {s : State} {d : Nat} {dest : Nat} {r : Rec} {s₁ : State} {r₁ : Bool} (he : State.emitDie s d dest r = (s₁, r₁)) (hk : s.Has K) : s₁.Has K := by
  have := State.emitDie_keeps hk (K := K) (s := s) (d := d) (dest := dest) (r := r)
  rw [he] at this
  exact this

theorem State.emitHub_keeps {s : State} {dest : Nat} {r : Rec} (hk : s.Has K) : (State.emitHub s dest r).Has K := by
  unfold State.emitHub
  repeat' first
      | with_reducible assumption | with_reducible apply State.stageRing_keeps

theorem State.faultRec_keeps {s : State} {r : FaultRec} (hk : s.Has K) : (State.faultRec s r).Has K := by
  unfold State.faultRec
  repeat' first
      | with_reducible assumption | with_reducible apply State.modRst_keeps | with_reducible refine State.Has.fold ?_
      | simp only [↓State.has_mk] | intro _

end Sys2Proof.Machine
end

