-- ==== Sys2Proof/Laws/KeepEngOps.lean ====
section
/-! SUPPORT. What the operations of Machine/EngOps.lean leave alone. -/
set_option linter.all false
set_option Elab.async false

namespace Sys2Proof.Machine

open Sys2Proof

variable {K : Keep}

theorem State.pulseLine_keeps {s : State} {g : Nat} {n : Nat} {t : Nat} (hk : s.Has K) : (State.pulseLine s g n t).Has K := by
  unfold State.pulseLine
  repeat' first
      | with_reducible assumption | with_reducible apply State.forEach_keeps | with_reducible apply State.modEng_keeps
      | with_reducible apply State.forEach_keeps | intro _ | split

theorem State.pulseInput_keeps {s : State} {e : Nat} {n : Nat} (hk : s.Has K) : (State.pulseInput s e n).Has K := by
  unfold State.pulseInput
  repeat' first
      | with_reducible assumption | with_reducible apply State.modEng_keeps | intro _

theorem State.engFault_keeps {s : State} {e : Nat} {code : Nat} (hk : s.Has K) : (State.engFault s e code).Has K := by
  unfold State.engFault
  repeat' first
      | with_reducible assumption | with_reducible apply State.postEvt_keeps | with_reducible apply State.modEng_keeps
      | with_reducible refine State.Has.fold ?_ | simp only [↓State.has_mk] | intro _

theorem State.issue_keeps {s : State} {e : Nat} {k : IssueKind} {cycles : Nat} {o : EngOp} {own : List Field} {body : State → Except Nat State} (h_body : ∀ s₀ s₁, s₀.Has K → body s₀ = .ok s₁ → s₁.Has K) (hk : s.Has K) : (State.issue s e k cycles o own body).Has K := by
  unfold State.issue
  repeat' first
      | with_reducible assumption | with_reducible refine h_body _ _ ?_ (by with_reducible assumption)
      | with_reducible apply State.engFault_keeps | with_reducible apply State.modEng_keeps | with_reducible apply foldl_keeps
      | intro s₂ s₃ hk₂ he₂ | obtain rfl := Except.ok.inj he₂ | split at he₂ | cases he₂ | dsimp only at he₂ | intro _ | split
      | dsimp only

theorem State.engBody_of {e : Nat} {f : Eng → Eng} {s s₁ : State} (he : State.engBody e f s = .ok s₁) (hk : s.Has K) :
    s₁.Has K := by
  obtain rfl := Except.ok.inj he
  exact State.modEng_keeps hk

theorem State.issueEng_keeps {s : State} {e : Nat} {cycles : Nat} {o : EngOp} {f : Eng → Eng} (hk : s.Has K) : (State.issueEng s e cycles o f).Has K := by
  unfold State.issueEng
  repeat' first
      | with_reducible assumption | with_reducible refine State.engBody_of (by with_reducible assumption) ?_
      | with_reducible apply State.issue_keeps | intro s₂ s₃ hk₂ he₂ | obtain rfl := Except.ok.inj he₂ | split at he₂
      | cases he₂ | dsimp only at he₂

end Sys2Proof.Machine
end

