-- ==== Sys2Proof/Laws/KeepDec.lean ====
section
/-! SUPPORT. What the operations of Machine/Dec.lean leave alone. -/
set_option linter.all false
set_option Elab.async false

namespace Sys2Proof.Machine

open Sys2Proof

variable {K : Keep}

theorem State.decCodeLoad_keeps {s : State} {c : RingCmd} {r : CmdRef} (hk : s.Has K) : (State.decCodeLoad s c r).Has K := by
  unfold State.decCodeLoad
  repeat' first
      | with_reducible assumption | with_reducible apply State.refuse_keeps | with_reducible apply State.complete_keeps
      | with_reducible apply State.modDec_keeps | intro _ | split | dsimp only

theorem execDecCodeLoad_keeps {c : RingCmd} {s : State} {s₁ : State} (hk : s.Has K) (he : execDecCodeLoad c s = .next s₁) : s₁.Has K := by
  unfold execDecCodeLoad at he
  obtain rfl := Host.Outcome.next.inj he
  repeat' first
      | with_reducible assumption | with_reducible apply State.decCodeLoad_keeps | with_reducible apply State.startCmd_keeps
      | intro _

theorem State.decProfileLoad_keeps {s : State} {c : RingCmd} {r : CmdRef} (hk : s.Has K) : (State.decProfileLoad s c r).Has K := by
  unfold State.decProfileLoad
  repeat' first
      | with_reducible assumption | with_reducible apply State.refuse_keeps | with_reducible apply State.complete_keeps
      | with_reducible apply State.modDec_keeps | intro _ | split | dsimp only

theorem execDecProfileLoad_keeps {c : RingCmd} {s : State} {s₁ : State} (hk : s.Has K) (he : execDecProfileLoad c s = .next s₁) : s₁.Has K := by
  unfold execDecProfileLoad at he
  obtain rfl := Host.Outcome.next.inj he
  repeat' first
      | with_reducible assumption | with_reducible apply State.decProfileLoad_keeps | with_reducible apply State.startCmd_keeps
      | intro _

theorem State.modTask_keeps {s : State} {seq : Nat} {f : Task → Task} (hk : s.Has K) : (State.modTask s seq f).Has K := by
  unfold State.modTask
  repeat' first
      | with_reducible assumption | with_reducible apply State.modDec_keeps | with_reducible refine State.Has.fold ?_
      | simp only [↓State.has_mk] | intro _

theorem State.dropTask_keeps {s : State} {seq : Nat} (hk : s.Has K) : (State.dropTask s seq).Has K := by
  unfold State.dropTask
  repeat' first
      | with_reducible assumption | with_reducible apply State.modDec_keeps | with_reducible refine State.Has.fold ?_
      | simp only [↓State.has_mk] | intro _

theorem State.startJob_keeps {s : State} (hk : s.Has K) : (State.startJob s).Has K := by
  unfold State.startJob
  repeat' first
      | with_reducible assumption | with_reducible apply State.modTask_keeps | with_reducible refine State.Has.fold ?_
      | simp only [↓State.has_mk] | intro _ | split

theorem State.startJobs_keeps {s : State} (hk : s.Has K) : (State.startJobs s).Has K := by
  unfold State.startJobs
  repeat' first
      | with_reducible assumption | with_reducible apply State.startJob_keeps | with_reducible apply State.forEach_keeps
      | with_reducible apply State.forEach_keeps | intro _

theorem State.dispatch_keeps {s : State} {e : Nat} {t : Task} (hk : s.Has K) : (State.dispatch s e t).Has K := by
  unfold State.dispatch
  repeat' first
      | with_reducible assumption | with_reducible apply State.modTask_keeps | with_reducible apply State.pulseInput_keeps
      | with_reducible apply State.modEng_keeps | with_reducible refine State.Has.fold ?_ | simp only [↓State.has_mk] | intro _
      | dsimp only

theorem State.dispatchAll_keeps {s : State} (hk : s.Has K) : (State.dispatchAll s).Has K := by
  unfold State.dispatchAll
  repeat' first
      | with_reducible assumption | with_reducible apply State.dispatch_keeps | with_reducible apply State.forEach_keeps
      | with_reducible apply State.forEach_keeps | intro _ | split

theorem State.release_keeps {s : State} {t : Task} (hk : s.Has K) : (State.release s t).Has K := by
  unfold State.release
  repeat' first
      | with_reducible assumption | with_reducible apply State.modDec_keeps | with_reducible refine State.Has.fold ?_
      | simp only [↓State.has_mk] | intro _

theorem State.modSlot_keeps {s : State} {c : Nat} {g : Byte} {n : Nat} {f : CSlot → CSlot} (hk : s.Has K) : (State.modSlot s c g n f).Has K := by
  unfold State.modSlot
  repeat' first
      | with_reducible assumption | with_reducible apply State.modDec_keeps | with_reducible refine State.Has.fold ?_
      | simp only [↓State.has_mk] | intro _ | split | dsimp only

theorem State.releaseAssemble_keeps {s : State} {c : Nat} {g : Byte} {n : Nat} (hk : s.Has K) : (State.releaseAssemble s c g n).Has K := by
  unfold State.releaseAssemble
  repeat' first
      | with_reducible assumption | with_reducible apply State.modSlot_keeps | with_reducible apply State.release_keeps
      | with_reducible apply State.dispatchAll_keeps | intro _ | split | dsimp only

theorem State.slotEnd_keeps {s : State} {c : Nat} {slot : Nat} {startCtr : Nat} {evm : Nat} {lq : Nat} (hk : s.Has K) : (State.slotEnd s c slot startCtr evm lq).Has K := by
  unfold State.slotEnd
  repeat' first
      | with_reducible assumption | with_reducible apply State.modSlot_keeps | with_reducible apply State.release_keeps
      | with_reducible apply State.dispatchAll_keeps | with_reducible apply State.modDec_keeps | intro _ | split | dsimp only

theorem State.deadlineRec_keeps {s : State} {t : Task} {cause : Nat} {cancelled : Nat} (hk : s.Has K) : (State.deadlineRec s t cause cancelled).Has K := by
  unfold State.deadlineRec
  repeat' first
      | with_reducible assumption | with_reducible apply State.emitHub_keeps | with_reducible apply State.postStatus_keeps
      | with_reducible apply State.modFn_keeps | with_reducible refine State.Has.fold ?_ | simp only [↓State.has_mk] | intro _
      | split | dsimp only

theorem State.decodedRec_keeps {s : State} {t : Task} {outcome : Nat} {code : Nat} {js : List JobDone} (hk : s.Has K) : (State.decodedRec s t outcome code js).Has K := by
  unfold State.decodedRec
  repeat' first
      | with_reducible assumption | with_reducible apply State.emitHub_keeps | with_reducible apply foldl_keeps | intro _
      | split | dsimp only

theorem State.writeResult_keeps {s : State} {g : Nat} {outAddr : Nat} {line : Nat} {status : Nat} {iters : Nat} {bits : Nat} {metric : Nat} {tag : Nat} {tenant : Nat} {conv : Bool} {data : List Byte} (hk : s.Has K) : (State.writeResult s g outAddr line status iters bits metric tag tenant conv data).Has K := by
  unfold State.writeResult
  repeat' first
      | with_reducible assumption | with_reducible apply State.pulseLine_keeps | with_reducible apply State.modEGroup_keeps
      | intro _ | dsimp only

theorem State.jobEnded_keeps {s : State} {t : Task} {r : JobDone} (hk : s.Has K) : (State.jobEnded s t r).Has K := by
  unfold State.jobEnded
  repeat' first
      | with_reducible assumption | with_reducible apply State.releaseAssemble_keeps | with_reducible apply State.modSlot_keeps
      | with_reducible apply State.dropTask_keeps | with_reducible apply State.modDec_keeps
      | with_reducible refine State.Has.fold ?_ | simp only [↓State.has_mk] | intro _ | split | dsimp only

theorem State.decoderJobEnd_keeps {s : State} {seq : Nat} (hk : s.Has K) : (State.decoderJobEnd s seq).Has K := by
  unfold State.decoderJobEnd
  repeat' first
      | with_reducible assumption | with_reducible apply State.jobEnded_keeps | with_reducible apply State.writeResult_keeps
      | with_reducible apply State.decodedRec_keeps | with_reducible apply State.startJobs_keeps
      | with_reducible apply State.modFn_keeps | intro _ | split | dsimp only

theorem execDecoderJobEnd_keeps {jobSeq : Nat} {s : State} {s₁ : State} (hk : s.Has K) (he : execDecoderJobEnd jobSeq s = .next s₁) : s₁.Has K := by
  unfold execDecoderJobEnd at he
  obtain rfl := Host.Outcome.next.inj he
  repeat' first
      | with_reducible assumption | with_reducible apply State.decoderJobEnd_keeps | split

theorem State.deadlineExpiry_keeps {s : State} {seq : Nat} (hk : s.Has K) : (State.deadlineExpiry s seq).Has K := by
  unfold State.deadlineExpiry
  repeat' first
      | with_reducible assumption | with_reducible apply State.jobEnded_keeps | with_reducible apply State.writeResult_keeps
      | with_reducible apply State.deadlineRec_keeps | with_reducible apply State.modSlot_keeps
      | with_reducible apply State.startJobs_keeps | with_reducible apply State.dropTask_keeps
      | with_reducible apply State.modEng_keeps | intro _ | split | dsimp only

theorem execDeadlineExpiry_keeps {taskSeq : Nat} {s : State} {s₁ : State} (hk : s.Has K) (he : execDeadlineExpiry taskSeq s = .next s₁) : s₁.Has K := by
  unfold execDeadlineExpiry at he
  obtain rfl := Host.Outcome.next.inj he
  repeat' first
      | with_reducible assumption | with_reducible apply State.deadlineExpiry_keeps

theorem State.returnEngines_keeps {s : State} {t : Nat} {image : Nat} (hk : s.Has K) : (State.returnEngines s t image).Has K := by
  unfold State.returnEngines
  repeat' first
      | with_reducible assumption | with_reducible apply State.forEach_keeps | with_reducible apply State.modEng_keeps
      | with_reducible apply State.forEach_keeps | with_reducible refine State.Has.fold ?_ | simp only [↓State.has_mk] | intro _
      | split | dsimp only

theorem State.returnIdle_keeps {s : State} {e : Nat} (hk : s.Has K) : (State.returnIdle s e).Has K := by
  unfold State.returnIdle
  repeat' first
      | with_reducible assumption | with_reducible apply State.returnEngines_keeps | split

theorem State.endTask_keeps {s : State} {e : Nat} {outcome : Nat} (hk : s.Has K) : (State.endTask s e outcome).Has K := by
  unfold State.endTask
  repeat' first
      | with_reducible assumption | with_reducible apply State.returnIdle_keeps | with_reducible apply State.decodedRec_keeps
      | with_reducible apply State.releaseAssemble_keeps | with_reducible apply State.modSlot_keeps
      | with_reducible apply State.dispatchAll_keeps | with_reducible apply State.dropTask_keeps
      | with_reducible apply State.modDec_keeps | with_reducible apply State.modEng_keeps | intro _ | split | dsimp only

theorem State.freshGen_keeps {s : State} {c : Nat} {g : Byte} (hk : s.Has K) : (State.freshGen s c g).Has K := by
  unfold State.freshGen
  repeat' first
      | with_reducible assumption | with_reducible apply State.modDec_keeps | with_reducible refine State.Has.fold ?_
      | simp only [↓State.has_mk] | intro _

theorem State.dsub_keeps {s : State} {t : Task} (hk : s.Has K) : (State.dsub s t).1.Has K := by
  unfold State.dsub
  repeat' first
      | with_reducible assumption | with_reducible apply State.writeResult_keeps | with_reducible apply State.modSlot_keeps
      | with_reducible apply State.release_keeps | with_reducible apply State.startJobs_keeps
      | with_reducible apply State.modFn_keeps | intro _ | split | dsimp only

theorem State.dsub_of {s : State} {t : Task} {s₁ : State} {r₁ : Bool} (he : State.dsub s t = (s₁, r₁)) (hk : s.Has K) : s₁.Has K := by
  have := State.dsub_keeps hk (K := K) (s := s) (t := t)
  rw [he] at this
  exact this

end Sys2Proof.Machine
end

