-- ==== Sys2Proof/Laws/KeepCch.lean ====
section
/-! SUPPORT. What the operations of Machine/Cch.lean leave alone. -/
set_option linter.all false
set_option Elab.async false

namespace Sys2Proof.Machine

open Sys2Proof

variable {K : Keep}

theorem State.carrierRec_keeps {s : State} {c : Nat} {kind : Nat} {cause : Nat} (hk : s.Has K) : (State.carrierRec s c kind cause).Has K := by
  unfold State.carrierRec
  repeat' first
      | with_reducible assumption | with_reducible apply State.emitHub_keeps | with_reducible apply State.modChain_keeps
      | with_reducible refine State.Has.fold ?_ | simp only [↓State.has_mk] | intro _ | split | dsimp only

theorem State.postBurst_keeps {s : State} {c : Nat} {kind : Nat} {slot : Nat} (hk : s.Has K) : (State.postBurst s c kind slot).Has K := by
  unfold State.postBurst
  repeat' first
      | with_reducible assumption | with_reducible apply State.emit_keeps

theorem State.writeRing_keeps {s : State} {c : Nat} {v : Cx} (hk : s.Has K) : (State.writeRing s c v).Has K := by
  unfold State.writeRing
  repeat' first
      | with_reducible assumption | with_reducible apply State.modEGroup_keeps | with_reducible apply State.modChain_keeps
      | intro _ | split | dsimp only

theorem State.openBurst_keeps {s : State} {c : Nat} {hyp : Nat} {metric : Nat} {inv : Bool} (hk : s.Has K) : (State.openBurst s c hyp metric inv).Has K := by
  unfold State.openBurst
  repeat' first
      | with_reducible assumption | with_reducible apply State.writeRing_keeps | with_reducible apply State.postBurst_keeps
      | with_reducible apply State.carrierRec_keeps | with_reducible apply State.pulseLine_keeps
      | with_reducible apply State.forEach_keeps | with_reducible apply State.modChain_keeps
      | with_reducible apply State.forEach_keeps | with_reducible refine State.Has.fold ?_ | simp only [↓State.has_mk] | intro _
      | split | dsimp only

theorem State.closeBurst_keeps {s : State} {c : Nat} {cause : Nat} (hk : s.Has K) : (State.closeBurst s c cause).Has K := by
  unfold State.closeBurst
  repeat' first
      | with_reducible assumption | with_reducible apply State.postBurst_keeps | with_reducible apply State.carrierRec_keeps
      | with_reducible apply State.slotEnd_keeps | with_reducible apply State.pulseLine_keeps
      | with_reducible apply State.modChain_keeps | intro _ | split | dsimp only

theorem State.modeFollow_keeps {s : State} {cpl : Option Cpl} (hk : s.Has K) : (State.modeFollow s cpl).Has K := by
  unfold State.modeFollow
  repeat' first
      | with_reducible assumption | with_reducible apply State.complete_keeps | with_reducible apply State.modDec_keeps
      | intro _ | split | dsimp only

theorem State.dropQueued_keeps {s : State} {c : Nat} (hk : s.Has K) : (State.dropQueued s c).Has K := by
  unfold State.dropQueued
  repeat' first
      | with_reducible assumption | with_reducible apply State.modDec_keeps | with_reducible refine State.Has.fold ?_
      | simp only [↓State.has_mk] | intro _

theorem State.freeChain_keeps {s : State} {c : Nat} {cause : Nat} (hk : s.Has K) : (State.freeChain s c cause).Has K := by
  unfold State.freeChain
  repeat' first
      | with_reducible assumption | with_reducible apply State.dropQueued_keeps | with_reducible apply State.closeBurst_keeps
      | with_reducible apply State.carrierRec_keeps | with_reducible apply State.returnEngines_keeps
      | with_reducible apply State.modChain_keeps | intro _ | split | dsimp only

theorem State.sourceStop_keeps {s : State} {plan : Nat} (hk : s.Has K) : (State.sourceStop s plan).Has K := by
  unfold State.sourceStop
  repeat' first
      | with_reducible assumption | with_reducible apply State.freeChain_keeps | with_reducible apply State.modeFollow_keeps
      | with_reducible apply State.forEach_keeps | with_reducible apply State.forEach_keeps | intro _ | split | dsimp only

theorem State.searchOn_keeps {s : State} {c : Nat} {y : Cx} (hk : s.Has K) : (State.searchOn s c y).Has K := by
  unfold State.searchOn
  repeat' first
      | with_reducible assumption | with_reducible apply State.openBurst_keeps | with_reducible apply State.modChain_keeps
      | intro _ | split | dsimp only

theorem State.framedEnd_keeps {s : State} {c : Nat} {before : Nat} {after : Nat} (hk : s.Has K) : (State.framedEnd s c before after).Has K := by
  unfold State.framedEnd
  repeat' first
      | with_reducible assumption | with_reducible apply State.slotEnd_keeps | split | dsimp only

theorem State.deliver_keeps {s : State} {c : Nat} {before : Nat} {y : Cx} (hk : s.Has K) : (State.deliver s c before y).Has K := by
  unfold State.deliver
  repeat' first
      | with_reducible assumption | with_reducible apply State.framedEnd_keeps | with_reducible apply State.searchOn_keeps
      | with_reducible apply State.writeRing_keeps | with_reducible apply State.postBurst_keeps
      | with_reducible apply State.modChain_keeps | intro _ | split | dsimp only

theorem State.chainSample_keeps {s : State} {c : Nat} (hk : s.Has K) : (State.chainSample s c).Has K := by
  unfold State.chainSample
  repeat' first
      | with_reducible assumption | with_reducible apply State.deliver_keeps | with_reducible apply State.modChain_keeps
      | intro _ | split | dsimp only

theorem execChainSample_keeps {ch : Fin 512} {s : State} {s₁ : State} (hk : s.Has K) (he : execChainSample ch s = .next s₁) : s₁.Has K := by
  unfold execChainSample at he
  obtain rfl := Host.Outcome.next.inj he
  repeat' first
      | with_reducible assumption | with_reducible apply State.chainSample_keeps | split

theorem execChainSettled_keeps {ch : Fin 512} {s : State} {s₁ : State} (hk : s.Has K) (he : execChainSettled ch s = .next s₁) : s₁.Has K := by
  unfold execChainSettled at he
  obtain rfl := Host.Outcome.next.inj he
  repeat' first
      | with_reducible assumption | with_reducible apply State.modChain_keeps | with_reducible refine State.Has.fold ?_
      | simp only [↓State.has_mk] | intro _ | split

theorem State.thrWindow_keeps {s : State} {c : Nat} (hk : s.Has K) : (State.thrWindow s c).Has K := by
  unfold State.thrWindow
  repeat' first
      | with_reducible assumption | with_reducible apply State.closeBurst_keeps | with_reducible apply State.openBurst_keeps
      | with_reducible apply State.carrierRec_keeps | with_reducible apply State.modChain_keeps | intro _ | split | dsimp only

theorem execThresholdWindowEnd_keeps {ch : Fin 512} {s : State} {s₁ : State} (hk : s.Has K) (he : execThresholdWindowEnd ch s = .next s₁) : s₁.Has K := by
  unfold execThresholdWindowEnd at he
  obtain rfl := Host.Outcome.next.inj he
  repeat' first
      | with_reducible assumption | with_reducible apply State.thrWindow_keeps

theorem State.agcWindow_keeps {s : State} {c : Nat} (hk : s.Has K) : (State.agcWindow s c).Has K := by
  unfold State.agcWindow
  repeat' first
      | with_reducible assumption | with_reducible apply State.modChain_keeps | intro _ | split | dsimp only

theorem execAgcWindowEnd_keeps {ch : Fin 512} {s : State} {s₁ : State} (hk : s.Has K) (he : execAgcWindowEnd ch s = .next s₁) : s₁.Has K := by
  unfold execAgcWindowEnd at he
  obtain rfl := Host.Outcome.next.inj he
  repeat' first
      | with_reducible assumption | with_reducible apply State.agcWindow_keeps

theorem execBurstMaxLen_keeps {ch : Fin 512} {s : State} {s₁ : State} (hk : s.Has K) (he : execBurstMaxLen ch s = .next s₁) : s₁.Has K := by
  unfold execBurstMaxLen at he
  obtain rfl := Host.Outcome.next.inj he
  repeat' first
      | with_reducible assumption | with_reducible apply State.closeBurst_keeps | split

theorem State.writebackApply_keeps {s : State} {c : Nat} (hk : s.Has K) : (State.writebackApply s c).Has K := by
  unfold State.writebackApply
  repeat' first
      | with_reducible assumption | with_reducible apply State.closeBurst_keeps | with_reducible apply State.modChain_keeps
      | intro _ | split | dsimp only

theorem execWritebackApply_keeps {ch : Fin 512} {s : State} {s₁ : State} (hk : s.Has K) (he : execWritebackApply ch s = .next s₁) : s₁.Has K := by
  unfold execWritebackApply at he
  obtain rfl := Host.Outcome.next.inj he
  repeat' first
      | with_reducible assumption | with_reducible apply State.writebackApply_keeps

theorem State.feedShfx_keeps {s : State} {e : Nat} {c : Nat} (hk : s.Has K) : (State.feedShfx s e c).Has K := by
  unfold State.feedShfx
  repeat' first
      | with_reducible assumption | with_reducible apply State.forEach_keeps | with_reducible apply State.modEng_keeps
      | with_reducible apply State.modChain_keeps | with_reducible apply State.forEach_keeps
      | with_reducible refine State.Has.fold ?_ | simp only [↓State.has_mk] | intro _ | split

theorem State.bitArrive_keeps {s : State} {c : Nat} {b : Bool} (hk : s.Has K) : (State.bitArrive s c b).Has K := by
  unfold State.bitArrive
  repeat' first
      | with_reducible assumption | with_reducible apply State.feedShfx_keeps | with_reducible apply State.modChain_keeps
      | intro _ | split | dsimp only

theorem execBitPortArrive_keeps {ch : Fin 512} {bit : Bool} {s : State} {s₁ : State} (hk : s.Has K) (he : execBitPortArrive ch bit s = .next s₁) : s₁.Has K := by
  unfold execBitPortArrive at he
  obtain rfl := Host.Outcome.next.inj he
  repeat' first
      | with_reducible assumption | with_reducible apply State.bitArrive_keeps

theorem State.chainInput_keeps {s : State} {c : Nat} {j : Nat} {ctr : Nat} {xs : List Cx} {zeroed : Nat} (hk : s.Has K) : (State.chainInput s c j ctr xs zeroed).Has K := by
  unfold State.chainInput
  repeat' first
      | with_reducible assumption | with_reducible apply State.modChain_keeps | with_reducible refine State.Has.fold ?_
      | simp only [↓State.has_mk] | intro _ | split | dsimp only

theorem execChainInputTimeout_keeps {ch : Fin 512} {channel : Fin 32} {s : State} {s₁ : State} (hk : s.Has K) (he : execChainInputTimeout ch channel s = .next s₁) : s₁.Has K := by
  unfold execChainInputTimeout at he
  obtain rfl := Host.Outcome.next.inj he
  repeat' first
      | with_reducible assumption | with_reducible apply State.chainInput_keeps | split | dsimp only

end Sys2Proof.Machine
end

