-- ==== Sys2Proof/Laws/KeepChan.lean ====
section
/-! SUPPORT. What the operations of Machine/Chan.lean leave alone. -/
set_option linter.all false
set_option Elab.async false

namespace Sys2Proof.Machine

open Sys2Proof

variable {K : Keep}

theorem State.postThr_keeps {s : State} {d : Nat} {kind : Nat} {fineCh : Nat} {slot : Nat} {ratio : Nat} {pdb : Int} (hk : s.Has K) : (State.postThr s d kind fineCh slot ratio pdb).Has K := by
  unfold State.postThr
  repeat' first
      | with_reducible assumption | with_reducible apply State.emit_keeps | split

theorem State.modThr_keeps {s : State} {d : Nat} {k : Nat} {f : Thr → Thr} (hk : s.Has K) : (State.modThr s d k f).Has K := by
  unfold State.modThr
  repeat' first
      | with_reducible assumption | with_reducible apply State.modDie_keeps | with_reducible refine State.Has.fold ?_
      | simp only [↓State.has_mk] | intro _

theorem State.unsetMeans_keeps {s : State} {d : Nat} {j : Nat} {post : Bool} (hk : s.Has K) : (State.unsetMeans s d j post).Has K := by
  unfold State.unsetMeans
  repeat' first
      | with_reducible assumption | with_reducible apply State.postThr_keeps | with_reducible apply State.forEach_keeps
      | with_reducible apply State.modDie_keeps | with_reducible apply State.forEach_keeps
      | with_reducible refine State.Has.fold ?_ | simp only [↓State.has_mk] | intro _ | split | dsimp only

theorem State.compareThr_keeps {s : State} {d : Nat} {k : Nat} {j : Nat} {p : Nat} (hk : s.Has K) : (State.compareThr s d k j p).Has K := by
  unfold State.compareThr
  repeat' first
      | with_reducible assumption | with_reducible apply State.modThr_keeps | with_reducible apply State.postThr_keeps | intro _
      | split | dsimp only

theorem State.comparePowers_keeps {s : State} {d : Nat} {j : Nat} (hk : s.Has K) : (State.comparePowers s d j).Has K := by
  unfold State.comparePowers
  repeat' first
      | with_reducible assumption | with_reducible apply State.compareThr_keeps | with_reducible apply State.forEach_keeps
      | with_reducible apply State.forEach_keeps | intro _ | split

theorem State.gainSwitch_keeps {s : State} {d : Nat} {t : Nat} (hk : s.Has K) : (State.gainSwitch s d t).Has K := by
  unfold State.gainSwitch
  repeat' first
      | with_reducible assumption | with_reducible apply State.unsetMeans_keeps | with_reducible apply State.modDie_keeps
      | intro _ | split | dsimp only

theorem execGainSwitch_keeps {die : Fin 4} {t : Nat} {s : State} {s₁ : State} (hk : s.Has K) (he : execGainSwitch die t s = .next s₁) : s₁.Has K := by
  unfold execGainSwitch at he
  obtain rfl := Host.Outcome.next.inj he
  repeat' first
      | with_reducible assumption | with_reducible apply State.gainSwitch_keeps | split

theorem State.statsEnd_keeps {s : State} {d : Nat} {slot : Nat} (hk : s.Has K) : (State.statsEnd s d slot).Has K := by
  unfold State.statsEnd
  repeat' first
      | with_reducible assumption | with_reducible apply State.modDie_keeps | with_reducible apply foldl_keeps | intro _ | split
      | dsimp only

theorem execStatsIntervalEnd_keeps {die : Fin 4} {firstSlot : Nat} {s : State} {s₁ : State} (hk : s.Has K) (he : execStatsIntervalEnd die firstSlot s = .next s₁) : s₁.Has K := by
  unfold execStatsIntervalEnd at he
  obtain rfl := Host.Outcome.next.inj he
  repeat' first
      | with_reducible assumption | with_reducible apply State.statsEnd_keeps | split

theorem State.chnStatsRead_keeps {s : State} {c : RingCmd} {r : CmdRef} (hk : s.Has K) : (State.chnStatsRead s c r).Has K := by
  unfold State.chnStatsRead
  repeat' first
      | with_reducible assumption | with_reducible apply State.writeRes_keeps | with_reducible apply State.refuse_keeps
      | with_reducible apply State.complete_keeps | intro _ | split | dsimp only

theorem execChnStatsRead_keeps {c : RingCmd} {s : State} {s₁ : State} (hk : s.Has K) (he : execChnStatsRead c s = .next s₁) : s₁.Has K := by
  unfold execChnStatsRead at he
  obtain rfl := Host.Outcome.next.inj he
  repeat' first
      | with_reducible assumption | with_reducible apply State.chnStatsRead_keeps | with_reducible apply State.startCmd_keeps
      | intro _

theorem State.chnGainLoad_keeps {s : State} {c : RingCmd} {r : CmdRef} (hk : s.Has K) : (State.chnGainLoad s c r).Has K := by
  unfold State.chnGainLoad
  repeat' first
      | with_reducible assumption | with_reducible apply State.refuse_keeps | with_reducible apply State.complete_keeps
      | with_reducible apply State.modDie_keeps | intro _ | split | dsimp only

theorem execChnGainLoad_keeps {c : RingCmd} {s : State} {s₁ : State} (hk : s.Has K) (he : execChnGainLoad c s = .next s₁) : s₁.Has K := by
  unfold execChnGainLoad at he
  obtain rfl := Host.Outcome.next.inj he
  repeat' first
      | with_reducible assumption | with_reducible apply State.chnGainLoad_keeps | with_reducible apply State.startCmd_keeps
      | intro _

theorem execHbmTempRead_keeps {die : Fin 4} {stack : Fin 2} {celsius : Byte} {s : State} {s₁ : State} (hk : s.Has K) (he : execHbmTempRead die stack celsius s = .next s₁) : s₁.Has K := by
  unfold execHbmTempRead at he
  obtain rfl := Host.Outcome.next.inj he
  repeat' first
      | with_reducible assumption | with_reducible apply State.postEvt_keeps | with_reducible apply State.modStack_keeps
      | with_reducible refine State.Has.fold ?_ | simp only [↓State.has_mk] | intro _ | split | dsimp only

theorem execHbmRefresh_keeps {die : Fin 4} {stack : Fin 2} {s : State} {s₁ : State} (hk : s.Has K) (he : execHbmRefresh die stack s = .next s₁) : s₁.Has K := by
  unfold execHbmRefresh at he
  obtain rfl := Host.Outcome.next.inj he
  repeat' first
      | with_reducible assumption | with_reducible apply State.modStack_keeps | with_reducible refine State.Has.fold ?_
      | simp only [↓State.has_mk] | intro _

end Sys2Proof.Machine
end

