-- ==== Sys2Proof/Laws/KeepCorr.lean ====
section
/-! SUPPORT. What the operations of Machine/Corr.lean leave alone. -/
set_option linter.all false
set_option Elab.async false

namespace Sys2Proof.Machine

open Sys2Proof

variable {K : Keep}

theorem State.addLoss_keeps {s : State} {n : Nat} {ls : List (Nat × Nat)} (hk : s.Has K) : (State.addLoss s n ls).Has K := by
  unfold State.addLoss
  repeat' first
      | with_reducible assumption | with_reducible apply State.modSub_keeps | with_reducible apply foldl_keeps
      | with_reducible refine State.Has.fold ?_ | simp only [↓State.has_mk] | intro _ | dsimp only

theorem State.modTile_keeps {s : State} {d : Nat} {t : Nat} {f : Tile → Tile} (hk : s.Has K) : (State.modTile s d t f).Has K := by
  unfold State.modTile
  repeat' first
      | with_reducible assumption | with_reducible apply State.modDie_keeps | with_reducible refine State.Has.fold ?_
      | simp only [↓State.has_mk] | intro _

theorem State.accumulate_keeps {s : State} {d : Nat} {x : Sub} {p : Pass} (hk : s.Has K) : (State.accumulate s d x p).Has K := by
  unfold State.accumulate
  repeat' first
      | with_reducible assumption | with_reducible apply State.modTile_keeps | with_reducible apply State.forEach_keeps
      | with_reducible apply State.forEach_keeps | intro _ | dsimp only

theorem State.drain_keeps {s : State} {d : Nat} {x : Sub} {p : Pass} (hk : s.Has K) : (State.drain s d x p).Has K := by
  unfold State.drain
  repeat' first
      | with_reducible assumption | with_reducible apply State.modTile_keeps | with_reducible apply State.forEach_keeps
      | with_reducible apply State.modDie_keeps | with_reducible apply State.forEach_keeps
      | with_reducible refine State.Has.fold ?_ | simp only [↓State.has_mk] | intro _ | split | dsimp only

theorem State.endIntegration_keeps {s : State} {d : Nat} {p : Pass} (hk : s.Has K) : (State.endIntegration s d p).Has K := by
  unfold State.endIntegration
  repeat' first
      | with_reducible assumption | with_reducible apply State.modSub_keeps | with_reducible apply State.modDie_keeps | intro _
      | split | dsimp only

theorem State.addUse_keeps {s : State} {p : Pass} {cycles : Nat} (hk : s.Has K) : (State.addUse s p cycles).Has K := by
  unfold State.addUse
  repeat' first
      | with_reducible assumption | with_reducible apply State.modFn_keeps | with_reducible refine State.Has.fold ?_
      | simp only [↓State.has_mk] | intro _

theorem State.endRegular_keeps {s : State} {d : Nat} {p : Pass} (hk : s.Has K) : (State.endRegular s d p).Has K := by
  unfold State.endRegular
  repeat' first
      | with_reducible assumption | with_reducible apply State.addUse_keeps | with_reducible apply State.endIntegration_keeps
      | with_reducible apply State.drain_keeps | with_reducible apply State.accumulate_keeps
      | with_reducible apply State.addLoss_keeps | with_reducible apply State.modDie_keeps | intro _ | split | dsimp only

theorem State.modPart_keeps {s : State} {d : Nat} {k : Nat × Nat × Nat} {f : Part → Part} (hk : s.Has K) : (State.modPart s d k f).Has K := by
  unfold State.modPart
  repeat' first
      | with_reducible assumption | with_reducible apply State.modDie_keeps | with_reducible refine State.Has.fold ?_
      | simp only [↓State.has_mk] | intro _

theorem State.completeFlagPosts_keeps {s : State} (hk : s.Has K) : (State.completeFlagPosts s).Has K := by
  unfold State.completeFlagPosts
  repeat' first
      | with_reducible assumption | with_reducible apply State.complete_keeps | with_reducible apply State.forEach_keeps
      | with_reducible apply State.forEach_keeps | with_reducible refine State.Has.fold ?_ | simp only [↓State.has_mk] | intro _
      | dsimp only

theorem State.finishPart_keeps {s : State} {d : Nat} {q : Part} {c : PartClass} (hk : s.Has K) : (State.finishPart s d q c).Has K := by
  unfold State.finishPart
  repeat' first
      | with_reducible assumption | with_reducible apply State.modPart_keeps | with_reducible apply State.postStatus_keeps
      | with_reducible apply State.modDie_keeps | with_reducible apply State.modFn_keeps
      | with_reducible refine State.Has.fold ?_ | simp only [↓State.has_mk] | intro _ | split | dsimp only

theorem State.markFixed_keeps {s : State} {d : Nat} {q : Part} (hk : s.Has K) : (State.markFixed s d q).Has K := by
  unfold State.markFixed
  repeat' first
      | with_reducible assumption | with_reducible apply State.modDie_keeps | with_reducible refine State.Has.fold ?_
      | simp only [↓State.has_mk] | intro _ | dsimp only

theorem State.foldIn_keeps {s : State} {d : Nat} {q : Part} {js : List (Pass × Job)} (hk : s.Has K) : (State.foldIn s d q js).Has K := by
  unfold State.foldIn
  repeat' first
      | with_reducible assumption | with_reducible apply State.markFixed_keeps | with_reducible apply State.modTile_keeps
      | with_reducible apply State.addLoss_keeps | with_reducible apply State.forEach_keeps
      | with_reducible apply State.forEach_keeps | intro _ | split | dsimp only

theorem State.admitPart_keeps {s : State} {d : Nat} {q : Part} (hk : s.Has K) : (State.admitPart s d q).Has K := by
  unfold State.admitPart
  repeat' first
      | with_reducible assumption | with_reducible apply State.foldIn_keeps | with_reducible apply State.finishPart_keeps
      | with_reducible apply State.modPart_keeps | with_reducible apply State.modDie_keeps
      | with_reducible apply State.modFn_keeps | intro _ | split | dsimp only

theorem State.makePart_keeps {s : State} {d : Nat} {n : Nat} {b : Nat} {f : Flag} (hk : s.Has K) : (State.makePart s d n b f).Has K := by
  unfold State.makePart
  repeat' first
      | with_reducible assumption | with_reducible apply State.admitPart_keeps | with_reducible apply State.modDie_keeps
      | intro _ | split | dsimp only

theorem State.flagEffect_keeps {s : State} {d : Nat} {f : Flag} (hk : s.Has K) : (State.flagEffect s d f).Has K := by
  unfold State.flagEffect
  repeat' first
      | with_reducible assumption | with_reducible apply State.makePart_keeps | with_reducible apply State.forEach_keeps
      | with_reducible apply State.modDie_keeps | with_reducible apply State.forEach_keeps | intro _ | split | dsimp only

theorem State.effectAll_keeps {s : State} {d : Nat} (hk : s.Has K) : (State.effectAll s d).Has K := by
  unfold State.effectAll
  repeat' first
      | with_reducible assumption | with_reducible apply State.flagEffect_keeps | with_reducible apply State.forEach_keeps
      | with_reducible apply State.modDie_keeps | with_reducible apply State.forEach_keeps
      | with_reducible refine State.Has.fold ?_ | simp only [↓State.has_mk] | intro _ | dsimp only

theorem State.startNext_keeps {s : State} {d : Nat} (hk : s.Has K) : (State.startNext s d).Has K := by
  unfold State.startNext
  repeat' first
      | with_reducible assumption | with_reducible apply State.modDie_keeps | with_reducible refine State.Has.fold ?_
      | simp only [↓State.has_mk] | intro _

theorem State.endCorrection_keeps {s : State} {d : Nat} {p : Pass} {k : Nat × Nat × Nat} (hk : s.Has K) : (State.endCorrection s d p k).Has K := by
  unfold State.endCorrection
  repeat' first
      | with_reducible assumption | with_reducible apply State.markFixed_keeps | with_reducible apply State.modPart_keeps
      | with_reducible apply State.addUse_keeps | with_reducible apply State.modDie_keeps | intro _ | split | dsimp only

theorem State.residentCatchUp_keeps {s : State} {d : Nat} {p : Pass} (hk : s.Has K) : (State.residentCatchUp s d p).Has K := by
  unfold State.residentCatchUp
  repeat' first
      | with_reducible assumption | with_reducible apply State.makePart_keeps | with_reducible apply State.forEach_keeps
      | with_reducible apply State.forEach_keeps | intro _ | split

theorem State.passSwitch_keeps {s : State} {d : Nat} (hk : s.Has K) : (State.passSwitch s d).Has K := by
  unfold State.passSwitch
  repeat' first
      | with_reducible assumption | with_reducible apply State.residentCatchUp_keeps
      | with_reducible apply State.endCorrection_keeps | with_reducible apply State.startNext_keeps
      | with_reducible apply State.effectAll_keeps | with_reducible apply State.completeFlagPosts_keeps
      | with_reducible apply State.endRegular_keeps | with_reducible apply State.modDie_keeps | intro _ | split | dsimp only

theorem execPassSwitch_keeps {die : Fin 4} {s : State} {s₁ : State} (hk : s.Has K) (he : execPassSwitch die s = .next s₁) : s₁.Has K := by
  unfold execPassSwitch at he
  obtain rfl := Host.Outcome.next.inj he
  repeat' first
      | with_reducible assumption | with_reducible apply State.passSwitch_keeps | split

theorem State.emitValid_keeps {s : State} {d : Nat} {r : Drained} {lost : Tab Nat} (hk : s.Has K) : (State.emitValid s d r lost).Has K := by
  unfold State.emitValid
  repeat' first
      | with_reducible assumption | with_reducible apply State.emitDie_keeps
      | with_reducible refine State.emitDie_of (by with_reducible assumption) ?_ | with_reducible apply State.forEach_keeps
      | with_reducible apply State.modSub_keeps | with_reducible apply State.forEach_keeps
      | with_reducible refine State.Has.fold ?_ | simp only [↓State.has_mk] | intro _ | dsimp only

theorem State.visEmit_keeps {s : State} {d : Nat} (hk : s.Has K) : (State.visEmit s d).Has K := by
  unfold State.visEmit
  repeat' first
      | with_reducible assumption | with_reducible apply State.emitValid_keeps | with_reducible apply State.emitDie_keeps
      | with_reducible refine State.emitDie_of (by with_reducible assumption) ?_ | with_reducible apply State.modSub_keeps
      | with_reducible apply State.modDie_keeps | intro _ | split | dsimp only

theorem execVisEmit_keeps {die : Fin 4} {s : State} {s₁ : State} (hk : s.Has K) (he : execVisEmit die s = .next s₁) : s₁.Has K := by
  unfold execVisEmit at he
  obtain rfl := Host.Outcome.next.inj he
  repeat' first
      | with_reducible assumption | with_reducible apply State.visEmit_keeps

theorem State.amendEmit_keeps {s : State} {d : Nat} (hk : s.Has K) : (State.amendEmit s d).Has K := by
  unfold State.amendEmit
  repeat' first
      | with_reducible assumption | with_reducible apply State.finishPart_keeps
      | with_reducible apply State.completeFlagPosts_keeps | with_reducible apply State.emitDie_keeps
      | with_reducible refine State.emitDie_of (by with_reducible assumption) ?_ | with_reducible apply State.modSub_keeps
      | with_reducible apply State.modDie_keeps | with_reducible apply foldl_keeps | intro _ | split | dsimp only

theorem execAmendEmit_keeps {die : Fin 4} {s : State} {s₁ : State} (hk : s.Has K) (he : execAmendEmit die s = .next s₁) : s₁.Has K := by
  unfold execAmendEmit at he
  obtain rfl := Host.Outcome.next.inj he
  repeat' first
      | with_reducible assumption | with_reducible apply State.amendEmit_keeps

theorem State.failPart_keeps {s : State} {d : Nat} {k : Nat × Nat × Nat} (hk : s.Has K) : (State.failPart s d k).Has K := by
  unfold State.failPart
  repeat' first
      | with_reducible assumption | with_reducible apply State.startNext_keeps | with_reducible apply State.finishPart_keeps
      | with_reducible apply State.completeFlagPosts_keeps | with_reducible apply State.modDie_keeps | intro _ | split
      | dsimp only

theorem State.readReturn_keeps {s : State} {d : Nat} {k : Nat} {ue : Bool} {fine : Nat} {band : Nat} {u : Nat} (hk : s.Has K) : (State.readReturn s d k ue fine band u).Has K := by
  unfold State.readReturn
  repeat' first
      | with_reducible assumption | with_reducible apply State.failPart_keeps | with_reducible apply State.modStack_keeps
      | with_reducible apply State.modDie_keeps | intro _ | split | dsimp only

theorem execHbmReadReturn_keeps {die : Fin 4} {stack : Fin 2} {ue : Bool} {fine : Nat} {band : Nat} {u : Nat} {s : State} {s₁ : State} (hk : s.Has K) (he : execHbmReadReturn die stack ue fine band u s = .next s₁) : s₁.Has K := by
  unfold execHbmReadReturn at he
  obtain rfl := Host.Outcome.next.inj he
  repeat' first
      | with_reducible assumption | with_reducible apply State.readReturn_keeps | with_reducible apply State.absorb_keeps
      | split

end Sys2Proof.Machine
end

