-- ==== Sys2Proof/Laws/KeepExcise.lean ====
section
/-! SUPPORT. What the operations of Machine/Excise.lean leave alone. -/
set_option linter.all false
set_option Elab.async false

namespace Sys2Proof.Machine

open Sys2Proof

variable {K : Keep}

theorem State.postFlag_keeps {s : State} {f : Flag} (hk : s.Has K) : (State.postFlag s f).Has K := by
  unfold State.postFlag
  repeat' first
      | with_reducible assumption | with_reducible refine State.Has.fold ?_ | simp only [↓State.has_mk]

theorem State.dropFlag_keeps {s : State} {t : Nat} {ch : Nat} (hk : s.Has K) : (State.dropFlag s t ch).Has K := by
  unfold State.dropFlag
  repeat' first
      | with_reducible assumption | with_reducible apply State.postStatus_keeps | with_reducible apply State.modFn_keeps
      | with_reducible refine State.Has.fold ?_ | simp only [↓State.has_mk] | intro _

theorem State.enginePost_keeps {s : State} {f : Flag} {reserved : Bool} (hk : s.Has K) : (State.enginePost s f reserved).Has K := by
  unfold State.enginePost
  repeat' first
      | with_reducible assumption | with_reducible apply State.dropFlag_keeps | with_reducible apply State.postFlag_keeps
      | split

theorem State.flagPort_keeps {s : State} {e : Nat} {bs : List Byte} (hk : s.Has K) : (State.flagPort s e bs).Has K := by
  unfold State.flagPort
  repeat' first
      | with_reducible assumption | with_reducible apply State.enginePost_keeps | with_reducible refine State.Has.fold ?_
      | simp only [↓State.has_mk] | split | dsimp only

theorem State.flagPost_keeps {s : State} {c : RingCmd} {r : CmdRef} (hk : s.Has K) : (State.flagPost s c r).Has K := by
  unfold State.flagPost
  repeat' first
      | with_reducible assumption | with_reducible apply State.postFlag_keeps | with_reducible apply State.refuse_keeps
      | with_reducible apply State.forEach_keeps | with_reducible apply State.forEach_keeps
      | with_reducible refine State.Has.fold ?_ | simp only [↓State.has_mk] | intro _ | split | dsimp only

theorem execFlagPost_keeps {c : RingCmd} {s : State} {s₁ : State} (hk : s.Has K) (he : execFlagPost c s = .next s₁) : s₁.Has K := by
  unfold execFlagPost at he
  obtain rfl := Host.Outcome.next.inj he
  repeat' first
      | with_reducible assumption | with_reducible apply State.flagPost_keeps | with_reducible apply State.startCmd_keeps
      | intro _

theorem State.retireFlags_keeps {s : State} {d : Nat} (hk : s.Has K) : (State.retireFlags s d).Has K := by
  unfold State.retireFlags
  repeat' first
      | with_reducible assumption | with_reducible apply State.modDie_keeps | with_reducible refine State.Has.fold ?_
      | simp only [↓State.has_mk] | intro _

theorem State.flagAccept_keeps {s : State} (hk : s.Has K) : (State.flagAccept s).Has K := by
  unfold State.flagAccept
  repeat' first
      | with_reducible assumption | with_reducible apply State.retireFlags_keeps
      | with_reducible apply State.completeFlagPosts_keeps | with_reducible apply State.modDie_keeps
      | with_reducible refine State.Has.fold ?_ | simp only [↓State.has_mk] | intro _ | split | dsimp only

theorem execFlagAccept_keeps {s : State} {s₁ : State} (hk : s.Has K) (he : execFlagAccept s = .next s₁) : s₁.Has K := by
  unfold execFlagAccept at he
  obtain rfl := Host.Outcome.next.inj he
  repeat' first
      | with_reducible assumption | with_reducible apply State.flagAccept_keeps

theorem execFlagReceive_keeps {die : Fin 4} {s : State} {s₁ : State} (hk : s.Has K) (he : execFlagReceive die s = .next s₁) : s₁.Has K := by
  unfold execFlagReceive at he
  obtain rfl := Host.Outcome.next.inj he
  repeat' first
      | with_reducible assumption | with_reducible apply State.completeFlagPosts_keeps | with_reducible apply State.modDie_keeps
      | with_reducible refine State.Has.fold ?_ | simp only [↓State.has_mk] | intro _

theorem State.shipOn_keeps {s : State} {es : List Nat} {image : Nat} (hk : s.Has K) : (State.shipOn s es image).Has K := by
  unfold State.shipOn
  repeat' first
      | with_reducible assumption | with_reducible apply State.forEach_keeps | with_reducible apply State.modEng_keeps
      | with_reducible apply State.forEach_keeps | intro _

theorem State.excPolicy_keeps {s : State} {c : RingCmd} {r : CmdRef} (hk : s.Has K) : (State.excPolicy s c r).Has K := by
  unfold State.excPolicy
  repeat' first
      | with_reducible assumption | with_reducible apply State.shipOn_keeps | with_reducible apply State.refuse_keeps
      | with_reducible apply State.complete_keeps | with_reducible apply State.modFn_keeps | intro _ | split | dsimp only

theorem execExcPolicy_keeps {c : RingCmd} {s : State} {s₁ : State} (hk : s.Has K) (he : execExcPolicy c s = .next s₁) : s₁.Has K := by
  unfold execExcPolicy at he
  obtain rfl := Host.Outcome.next.inj he
  repeat' first
      | with_reducible assumption | with_reducible apply State.excPolicy_keeps | with_reducible apply State.startCmd_keeps
      | intro _

theorem State.applyPolicy_keeps {s : State} {t : Nat} (hk : s.Has K) : (State.applyPolicy s t).Has K := by
  unfold State.applyPolicy
  repeat' first
      | with_reducible assumption | with_reducible apply State.forEach_keeps | with_reducible apply State.modDec_keeps
      | with_reducible apply State.modEng_keeps | with_reducible apply State.modFn_keeps
      | with_reducible apply State.forEach_keeps | intro _ | split | dsimp only

theorem State.postRun_keeps {s : State} {f : Flag} {lo : Nat} {hi : Nat} (hk : s.Has K) : (State.postRun s f lo hi).Has K := by
  unfold State.postRun
  repeat' first
      | with_reducible assumption | with_reducible apply State.enginePost_keeps | with_reducible apply State.forEach_keeps
      | with_reducible apply State.forEach_keeps | with_reducible refine State.Has.fold ?_ | simp only [↓State.has_mk] | intro _

theorem State.postDet_keeps {s : State} {t : Nat} {ch : Nat} {sig : Option Nat} {kc : Nat × Nat} {lo : Nat} {hi : Nat} (hk : s.Has K) : (State.postDet s t ch sig kc lo hi).Has K := by
  unfold State.postDet
  repeat' first
      | with_reducible assumption | with_reducible apply State.postRun_keeps | with_reducible apply State.drawFree_keeps
      | dsimp only

theorem State.dropOpen_keeps {s : State} {t : Nat} {d : Nat} {fine : Nat} (hk : s.Has K) : (State.dropOpen s t d fine).Has K := by
  unfold State.dropOpen
  repeat' first
      | with_reducible assumption | with_reducible apply State.modFn_keeps | with_reducible refine State.Has.fold ?_
      | simp only [↓State.has_mk] | intro _

theorem State.detect_keeps {s : State} {t : Nat} {x : Detection} (hk : s.Has K) : (State.detect s t x).Has K := by
  unfold State.detect
  repeat' first
      | with_reducible assumption | with_reducible apply State.dropOpen_keeps | with_reducible apply State.postDet_keeps
      | with_reducible apply State.forEach_keeps | with_reducible apply State.modFn_keeps
      | with_reducible apply State.forEach_keeps | intro _ | split | dsimp only

theorem State.startDetection_keeps {s : State} {t : Task} (hk : s.Has K) : (State.startDetection s t).Has K := by
  unfold State.startDetection
  repeat' first
      | with_reducible assumption | with_reducible apply State.detect_keeps | with_reducible apply State.dispatch_keeps
      | with_reducible apply State.modTask_keeps | with_reducible refine State.Has.fold ?_ | simp only [↓State.has_mk] | intro _
      | split

theorem State.startDetections_keeps {s : State} (hk : s.Has K) : (State.startDetections s).Has K := by
  unfold State.startDetections
  repeat' first
      | with_reducible assumption | with_reducible apply State.startDetection_keeps | with_reducible apply State.forEach_keeps
      | with_reducible apply State.forEach_keeps | intro _

theorem execDetectionInput_keeps {tenant : Fin 256} {d : Detection} {s : State} {s₁ : State} (hk : s.Has K) (he : execDetectionInput tenant d s = .next s₁) : s₁.Has K := by
  unfold execDetectionInput at he
  obtain rfl := Host.Outcome.next.inj he
  repeat' first
      | with_reducible assumption | with_reducible apply State.startDetections_keeps | with_reducible apply State.release_keeps
      | with_reducible apply State.drawFree_keeps | split

theorem State.extendOpen_keeps {s : State} {d : Nat} {j : Nat} (hk : s.Has K) : (State.extendOpen s d j).Has K := by
  unfold State.extendOpen
  repeat' first
      | with_reducible assumption | with_reducible apply State.postDet_keeps | with_reducible apply State.forEach_keeps
      | with_reducible apply State.modFn_keeps | with_reducible apply State.forEach_keeps | intro _ | split | dsimp only

theorem execSlotPowerCompare_keeps {die : Fin 4} {slot : Nat} {s : State} {s₁ : State} (hk : s.Has K) (he : execSlotPowerCompare die slot s = .next s₁) : s₁.Has K := by
  unfold execSlotPowerCompare at he
  obtain rfl := Host.Outcome.next.inj he
  repeat' first
      | with_reducible assumption | with_reducible apply State.extendOpen_keeps | with_reducible apply State.comparePowers_keeps
      | split

end Sys2Proof.Machine
end

