-- ==== Sys2Proof/Laws/KeepTimeOps.lean ====
section
/-! SUPPORT. What the operations of Machine/TimeOps.lean leave alone. -/
set_option linter.all false
set_option Elab.async false

namespace Sys2Proof.Machine

open Sys2Proof

variable {K : Keep}

theorem State.addCause_keeps {s : State} {k : Nat} (hk : s.Has K) : (State.addCause s k).Has K := by
  unfold State.addCause
  repeat' first
      | with_reducible assumption | with_reducible apply State.modTime_keeps | with_reducible refine State.Has.fold ?_
      | simp only [↓State.has_mk] | intro _ | split

theorem State.postStep_keeps {s : State} {d : Nat} {delta : Int} (hk : s.Has K) : (State.postStep s d delta).Has K := by
  unfold State.postStep
  repeat' first
      | with_reducible assumption | with_reducible apply State.addCause_keeps | with_reducible apply State.postEvt_keeps
      | dsimp only

theorem State.changeRate_keeps {s : State} {d : Nat} {c1 : Nat} {r : Int} (hk : s.Has K) : (State.changeRate s d c1 r).Has K := by
  unfold State.changeRate
  repeat' first
      | with_reducible assumption | with_reducible apply State.modDom_keeps | intro _

theorem State.stepDom_keeps {s : State} {d : Nat} {delta : Int} (hk : s.Has K) : (State.stepDom s d delta).Has K := by
  unfold State.stepDom
  repeat' first
      | with_reducible assumption | with_reducible apply State.postStep_keeps | with_reducible apply State.modDom_keeps
      | with_reducible refine State.Has.fold ?_ | simp only [↓State.has_mk] | intro _

theorem State.setDom_keeps {s : State} {d : Nat} {c1 : Nat} {v : Int} (hk : s.Has K) : (State.setDom s d c1 v).Has K := by
  unfold State.setDom
  repeat' first
      | with_reducible assumption | with_reducible apply State.postStep_keeps | with_reducible apply State.modDom_keeps
      | with_reducible refine State.Has.fold ?_ | simp only [↓State.has_mk] | intro _ | dsimp only

theorem State.servo_keeps {s : State} {d : Nat} {err : Int} (hk : s.Has K) : (State.servo s d err).Has K := by
  unfold State.servo
  repeat' first
      | with_reducible assumption | with_reducible apply State.stepDom_keeps | with_reducible apply State.changeRate_keeps
      | with_reducible apply State.drawFree_keeps | with_reducible apply State.modDom_keeps | intro _ | split | dsimp only

theorem State.enterHold_keeps {s : State} {d : Nat} (hk : s.Has K) : (State.enterHold s d).Has K := by
  unfold State.enterHold
  repeat' first
      | with_reducible assumption | with_reducible apply State.addCause_keeps | with_reducible apply State.postEvt_keeps
      | with_reducible apply State.modDom_keeps | intro _ | split | dsimp only

theorem State.leaveHold_keeps {s : State} {d : Nat} (hk : s.Has K) : (State.leaveHold s d).Has K := by
  unfold State.leaveHold
  repeat' first
      | with_reducible assumption | with_reducible apply State.addCause_keeps | with_reducible apply State.postEvt_keeps
      | with_reducible apply State.modDom_keeps | intro _ | split | dsimp only

theorem State.holdSrc_keeps {s : State} {src : Nat} (hk : s.Has K) : (State.holdSrc s src).Has K := by
  unfold State.holdSrc
  repeat' first
      | with_reducible assumption | with_reducible apply State.enterHold_keeps | with_reducible apply State.forEach_keeps
      | with_reducible apply State.forEach_keeps | intro _ | split | dsimp only

theorem State.noteUpstream_keeps {s : State} (hk : s.Has K) : (State.noteUpstream s).Has K := by
  unfold State.noteUpstream
  repeat' first
      | with_reducible assumption | with_reducible apply State.modTime_keeps | with_reducible apply State.modMgmt_keeps
      | intro _ | split | dsimp only

theorem State.setLoop_keeps {s : State} {m : LoopMode} (hk : s.Has K) : (State.setLoop s m).Has K := by
  unfold State.setLoop
  repeat' first
      | with_reducible assumption | with_reducible apply State.postEvt_keeps | with_reducible apply State.drawFree_keeps
      | with_reducible apply State.modTime_keeps | intro _ | split | dsimp only

theorem State.setActive_keeps {s : State} {a : Option Nat} (hk : s.Has K) : (State.setActive s a).Has K := by
  unfold State.setActive
  repeat' first
      | with_reducible assumption | with_reducible apply State.postEvt_keeps | with_reducible apply State.modTime_keeps
      | intro _ | split | dsimp only

theorem State.reselect_keeps {s : State} (hk : s.Has K) : (State.reselect s).Has K := by
  unfold State.reselect
  repeat' first
      | with_reducible assumption | with_reducible apply State.setActive_keeps | with_reducible apply State.setLoop_keeps
      | split | dsimp only

theorem State.postQual_keeps {s : State} {x : Nat} (hk : s.Has K) : (State.postQual s x).Has K := by
  unfold State.postQual
  repeat' first
      | with_reducible assumption | with_reducible apply State.postEvt_keeps

theorem State.afterQual_keeps {s : State} {x : Nat} (hk : s.Has K) : (State.afterQual s x).Has K := by
  unfold State.afterQual
  repeat' first
      | with_reducible assumption | with_reducible apply State.reselect_keeps | with_reducible apply State.holdSrc_keeps
      | with_reducible apply State.leaveHold_keeps | with_reducible apply State.forEach_keeps
      | with_reducible apply State.forEach_keeps | intro _ | split

theorem State.refFail_keeps {s : State} {x : Nat} (hk : s.Has K) : (State.refFail s x).Has K := by
  unfold State.refFail
  repeat' first
      | with_reducible assumption | with_reducible apply State.afterQual_keeps | with_reducible apply State.postQual_keeps
      | with_reducible apply State.modRef_keeps | intro _ | split | dsimp only

theorem State.refGateAt_keeps {s : State} {x : Nat} {off : Int} (hk : s.Has K) : (State.refGateAt s x off).Has K := by
  unfold State.refGateAt
  repeat' first
      | with_reducible assumption | with_reducible apply State.afterQual_keeps | with_reducible apply State.postQual_keeps
      | with_reducible apply State.modRef_keeps | intro _ | split | dsimp only

theorem State.emitEach_keeps {s : State} {t : Nat} {dest : Nat} {mk : Nat → Rec} (hk : s.Has K) : (State.emitEach s t dest mk).Has K := by
  unfold State.emitEach
  repeat' first
      | with_reducible assumption | with_reducible apply State.emitHub_keeps | with_reducible apply State.emitDie_keeps
      | with_reducible refine State.emitDie_of (by with_reducible assumption) ?_ | with_reducible apply State.forEach_keeps
      | with_reducible apply State.forEach_keeps | intro _ | split | dsimp only

end Sys2Proof.Machine
end

