-- ==== Sys2Proof/Laws/KeepSelfLine.lean ====
section
/-! SUPPORT. What the operations of Machine/SelfLine.lean leave alone. -/
set_option linter.all false
set_option Elab.async false

namespace Sys2Proof.Machine

open Sys2Proof

variable {K : Keep}

theorem State.unsteerable_keeps {s : State} {l : LineInst} (hk : s.Has K) : (State.unsteerable s l).Has K := by
  unfold State.unsteerable
  repeat' first
      | with_reducible assumption | with_reducible apply State.postEvt_keeps

theorem State.steerPad_keeps {s : State} {fits : Nat → Nat → Bool} {d : Nat} (hk : s.Has K) : (State.steerPad s fits d).Has K := by
  unfold State.steerPad
  repeat' first
      | with_reducible assumption | with_reducible apply State.unsteerable_keeps | with_reducible apply State.modRst_keeps
      | intro _ | split | dsimp only

theorem State.steerRefresh_keeps {s : State} {k : Nat} (hk : s.Has K) : (State.steerRefresh s k).Has K := by
  unfold State.steerRefresh
  repeat' first
      | with_reducible assumption | with_reducible apply State.unsteerable_keeps | with_reducible apply State.modRst_keeps
      | with_reducible refine State.Has.fold ?_ | simp only [↓State.has_mk] | intro _ | split

theorem State.steerDribble_keeps {s : State} {ch : Nat} (hk : s.Has K) : (State.steerDribble s ch).Has K := by
  unfold State.steerDribble
  repeat' first
      | with_reducible assumption | with_reducible apply State.unsteerable_keeps | with_reducible apply State.modDma_keeps
      | intro _ | split | dsimp only

theorem State.selfSteer_keeps {s : State} {fits : Nat → Nat → Bool} (hk : s.Has K) : (State.selfSteer s fits).Has K := by
  unfold State.selfSteer
  repeat' first
      | with_reducible assumption | with_reducible apply State.steerDribble_keeps
      | with_reducible apply State.steerRefresh_keeps | with_reducible apply State.steerPad_keeps
      | with_reducible apply State.complete_keeps | with_reducible apply State.forEach_keeps
      | with_reducible apply State.modFn_keeps | with_reducible apply State.forEach_keeps
      | with_reducible refine State.Has.fold ?_ | simp only [↓State.has_mk] | intro _ | dsimp only

theorem State.emitSelfline_keeps {s : State} {t : Nat} {k : Nat} (hk : s.Has K) : (State.emitSelfline s t k).Has K := by
  unfold State.emitSelfline
  repeat' first
      | with_reducible assumption | with_reducible apply State.emitEach_keeps | intro _ | split | dsimp only

theorem State.switchSelfTable_keeps {s : State} {k : Nat} (hk : s.Has K) : (State.switchSelfTable s k).Has K := by
  unfold State.switchSelfTable
  repeat' first
      | with_reducible assumption | with_reducible apply State.emitSelfline_keeps | with_reducible apply State.forEach_keeps
      | with_reducible apply State.modRst_keeps | with_reducible apply State.forEach_keeps | intro _ | split | dsimp only

end Sys2Proof.Machine
end

