-- ==== Sys2Proof/Laws/KeepAdmit.lean ====
section
/-! SUPPORT. What the operations of Machine/Admit.lean leave alone. -/
set_option linter.all false
set_option Elab.async false

namespace Sys2Proof.Machine

open Sys2Proof

variable {K : Keep}

theorem State.dropSwitch_keeps {s : State} {n : Nat} (hk : s.Has K) : (State.dropSwitch s n).Has K := by
  unfold State.dropSwitch
  repeat' first
      | with_reducible assumption | with_reducible apply State.completeOpt_keeps | with_reducible apply State.modBeam_keeps
      | with_reducible refine State.Has.fold ?_ | simp only [↓State.has_mk] | intro _ | split

theorem State.clearBeam_keeps {s : State} {n : Nat} (hk : s.Has K) : (State.clearBeam s n).Has K := by
  unfold State.clearBeam
  repeat' first
      | with_reducible assumption | with_reducible apply State.forEach_keeps | with_reducible apply State.modDie_keeps
      | with_reducible apply State.forEach_keeps | intro _ | dsimp only

theorem State.dropSub_keeps {s : State} {n : Nat} (hk : s.Has K) : (State.dropSub s n).Has K := by
  unfold State.dropSub
  repeat' first
      | with_reducible assumption | with_reducible refine State.Has.fold ?_ | simp only [↓State.has_mk]

theorem State.dropBeam_keeps {s : State} {n : Nat} (hk : s.Has K) : (State.dropBeam s n).Has K := by
  unfold State.dropBeam
  repeat' first
      | with_reducible assumption | with_reducible apply State.clearBeam_keeps | with_reducible apply State.dropSwitch_keeps
      | with_reducible apply State.sourceStop_keeps | with_reducible refine State.Has.fold ?_ | simp only [↓State.has_mk]
      | intro _ | split | dsimp only

theorem State.endBeam_keeps {s : State} {n : Nat} {t : Nat} (hk : s.Has K) : (State.endBeam s n t).Has K := by
  unfold State.endBeam
  repeat' first
      | with_reducible assumption | with_reducible apply State.dropSwitch_keeps | with_reducible apply State.sourceStop_keeps
      | with_reducible apply State.modBeam_keeps | with_reducible refine State.Has.fold ?_ | simp only [↓State.has_mk] | intro _

theorem State.stopReaders_keeps {s : State} {n : Nat} {t : Nat} (hk : s.Has K) : (State.stopReaders s n t).Has K := by
  unfold State.stopReaders
  repeat' first
      | with_reducible assumption | with_reducible apply State.endBeam_keeps | with_reducible apply State.postStatus_keeps
      | with_reducible apply State.forEach_keeps | with_reducible apply State.forEach_keeps | intro _ | dsimp only

theorem State.doStop_keeps {s : State} {c : Nat} {e : CmdRef × Bool × Nat} (hk : s.Has K) : (State.doStop s c e).Has K := by
  unfold State.doStop
  repeat' first
      | with_reducible assumption | with_reducible apply State.stopReaders_keeps | with_reducible apply State.endBeam_keeps
      | with_reducible apply State.dropBeam_keeps | with_reducible apply State.dropSub_keeps
      | with_reducible apply State.completeOpt_keeps | with_reducible apply State.complete_keeps
      | with_reducible apply State.modGrid_keeps | with_reducible apply State.modSub_keeps | intro _ | split | dsimp only

theorem State.doStops_keeps {s : State} {c : Nat} (hk : s.Has K) : (State.doStops s c).Has K := by
  unfold State.doStops
  repeat' first
      | with_reducible assumption | with_reducible apply State.doStop_keeps | with_reducible apply State.forEach_keeps
      | with_reducible apply State.modGrid_keeps | with_reducible apply State.forEach_keeps
      | with_reducible refine State.Has.fold ?_ | simp only [↓State.has_mk] | intro _ | dsimp only

theorem State.forceSub_keeps {s : State} {c : Nat} {n : Nat} (hk : s.Has K) : (State.forceSub s c n).Has K := by
  unfold State.forceSub
  repeat' first
      | with_reducible assumption | with_reducible apply State.postStatus_keeps | with_reducible apply State.modSub_keeps
      | with_reducible refine State.Has.fold ?_ | simp only [↓State.has_mk] | intro _ | dsimp only

theorem State.forceBeam_keeps {s : State} {c : Nat} {n : Nat} (hk : s.Has K) : (State.forceBeam s c n).Has K := by
  unfold State.forceBeam
  repeat' first
      | with_reducible assumption | with_reducible apply State.postStatus_keeps | with_reducible apply State.modBeam_keeps
      | with_reducible refine State.Has.fold ?_ | simp only [↓State.has_mk] | intro _ | split | dsimp only

theorem State.forceOut_keeps {s : State} {c k : Nat} (hk : s.Has K) : (s.forceOut c k).Has K := by
  induction k generalizing s with
  | zero => exact hk
  | succ n ih =>
    unfold State.forceOut
    repeat' first
      | with_reducible assumption
      | with_reducible apply ih
      | with_reducible apply State.forceSub_keeps
      | with_reducible apply State.forceBeam_keeps
      | split

theorem State.keepRunning_keeps {s : State} {c : Nat} (hk : s.Has K) : (State.keepRunning s c).Has K := by
  unfold State.keepRunning
  repeat' first
      | with_reducible assumption | with_reducible apply State.forceOut_keeps | with_reducible apply State.forceSub_keeps
      | with_reducible apply State.forEach_keeps | with_reducible apply State.forEach_keeps | intro _ | dsimp only

theorem State.withoutEnding_keeps {s : State} (hk : s.Has K) : (State.withoutEnding s).Has K := by
  unfold State.withoutEnding
  repeat' first
      | with_reducible assumption | with_reducible refine State.Has.fold ?_ | simp only [↓State.has_mk] | intro _

theorem State.answer_keeps {s : State} {x : Cand} {cmd : Option CmdRef} {st : Nat} {r0 : Nat} {r1 : Nat} (hk : s.Has K) : (State.answer s x cmd st r0 r1).Has K := by
  unfold State.answer
  repeat' first
      | with_reducible assumption | with_reducible apply State.complete_keeps | with_reducible apply State.postStatus_keeps
      | split

theorem State.takeCand_keeps {s : State} {c : Nat} {x : Cand} (hk : s.Has K) : (State.takeCand s c x).Has K := by
  unfold State.takeCand
  repeat' first
      | with_reducible assumption | with_reducible apply State.answer_keeps | with_reducible apply State.modBeam_keeps
      | with_reducible apply State.modSub_keeps | with_reducible refine State.Has.fold ?_ | simp only [↓State.has_mk] | intro _
      | split | dsimp only

theorem State.rejectCand_keeps {s : State} {x : Cand} {st : Nat} (hk : s.Has K) : (State.rejectCand s x st).Has K := by
  unfold State.rejectCand
  repeat' first
      | with_reducible assumption | with_reducible apply State.answer_keeps | with_reducible apply State.dropBeam_keeps
      | with_reducible apply State.dropSub_keeps | with_reducible refine State.Has.fold ?_ | simp only [↓State.has_mk] | intro _
      | split | dsimp only

theorem State.deferCand_keeps {s : State} {c : Nat} {x : Cand} (hk : s.Has K) : (State.deferCand s c x).Has K := by
  unfold State.deferCand
  repeat' first
      | with_reducible assumption | with_reducible apply State.rejectCand_keeps | with_reducible apply State.complete_keeps
      | with_reducible apply State.modBeam_keeps | with_reducible apply State.modSub_keeps
      | with_reducible refine State.Has.fold ?_ | simp only [↓State.has_mk] | intro _ | split | dsimp only

theorem State.decide1_keeps {s : State} {c : Nat} {blocked : Bool} {x : Cand} (hk : s.Has K) : (State.decide1 s c blocked x).1.Has K := by
  unfold State.decide1
  repeat' first
      | with_reducible assumption | with_reducible apply State.deferCand_keeps | with_reducible apply State.rejectCand_keeps
      | with_reducible apply State.takeCand_keeps | with_reducible apply State.modFn_keeps | intro _ | split | dsimp only

theorem State.decide1_of {s : State} {c : Nat} {blocked : Bool} {x : Cand} {s₁ : State} {r₁ : Bool} (he : State.decide1 s c blocked x = (s₁, r₁)) (hk : s.Has K) : s₁.Has K := by
  have := State.decide1_keeps hk (K := K) (s := s) (c := c) (blocked := blocked) (x := x)
  rw [he] at this
  exact this

theorem State.admitAll_keeps {s : State} {c : Nat} (hk : s.Has K) : (State.admitAll s c).Has K := by
  unfold State.admitAll
  repeat' first
      | with_reducible assumption | with_reducible apply State.decide1_keeps
      | with_reducible refine State.decide1_of (by with_reducible assumption) ?_ | with_reducible apply State.forEach_keeps
      | with_reducible apply State.modFn_keeps | with_reducible apply State.forEach_keeps | with_reducible apply foldl_keeps
      | with_reducible refine State.Has.fold ?_ | simp only [↓State.has_mk] | intro _ | dsimp only

theorem State.takeSettings_keeps {s : State} (hk : s.Has K) : (State.takeSettings s).Has K := by
  unfold State.takeSettings
  repeat' first
      | with_reducible assumption | with_reducible apply State.forEach_keeps | with_reducible apply State.modSub_keeps
      | with_reducible apply State.forEach_keeps | with_reducible apply foldl_keeps | with_reducible refine State.Has.fold ?_
      | simp only [↓State.has_mk] | intro _ | dsimp only

theorem State.resumeBeams_keeps {s : State} (hk : s.Has K) : (State.resumeBeams s).Has K := by
  unfold State.resumeBeams
  repeat' first
      | with_reducible assumption | with_reducible apply State.postStatus_keeps | with_reducible apply State.forEach_keeps
      | with_reducible apply State.modBeam_keeps | with_reducible apply State.forEach_keeps
      | with_reducible refine State.Has.fold ?_ | simp only [↓State.has_mk] | intro _ | split | dsimp only

theorem State.freezeAt_keeps {s : State} {c : Nat} (hk : s.Has K) : (State.freezeAt s c).Has K := by
  unfold State.freezeAt
  repeat' first
      | with_reducible assumption | with_reducible apply State.resumeBeams_keeps | with_reducible apply State.takeSettings_keeps
      | with_reducible apply State.admitAll_keeps | with_reducible apply State.keepRunning_keeps
      | with_reducible apply State.doStops_keeps | with_reducible apply State.applyPolicy_keeps
      | with_reducible apply State.selfSteer_keeps | with_reducible apply State.forEach_keeps
      | with_reducible apply State.modGrid_keeps | with_reducible apply State.forEach_keeps
      | with_reducible refine State.Has.fold ?_ | simp only [↓State.has_mk] | intro _ | dsimp only

theorem State.planningFreeze_keeps {s : State} (hk : s.Has K) : (State.planningFreeze s).Has K := by
  unfold State.planningFreeze
  repeat' first
      | with_reducible assumption | with_reducible apply State.freezeAt_keeps | split

theorem execPlanningFreeze_keeps {s : State} {s₁ : State} (hk : s.Has K) (he : execPlanningFreeze s = .next s₁) : s₁.Has K := by
  unfold execPlanningFreeze at he
  obtain rfl := Host.Outcome.next.inj he
  repeat' first
      | with_reducible assumption | with_reducible apply State.planningFreeze_keeps

end Sys2Proof.Machine
end

