-- ==== Sys2Proof/Laws/KeepCorrCmd.lean ====
section
/-! SUPPORT. What the operations of Machine/CorrCmd.lean leave alone. -/
set_option linter.all false
set_option Elab.async false

namespace Sys2Proof.Machine

open Sys2Proof

variable {K : Keep}

theorem State.failWith_keeps {s : State} {r : CmdRef} {f : Fail} (hk : s.Has K) : (State.failWith s r f).Has K := by
  unfold State.failWith
  repeat' first
      | with_reducible assumption | with_reducible apply State.refuse_keeps

theorem State.subStart_keeps {s : State} {c : RingCmd} {r : CmdRef} (hk : s.Has K) : (State.subStart s c r).Has K := by
  unfold State.subStart
  repeat' first
      | with_reducible assumption | with_reducible apply State.failWith_keeps | with_reducible apply State.refuse_keeps
      | with_reducible refine State.Has.fold ?_ | simp only [↓State.has_mk] | split | dsimp only

theorem execSubarrayStart_keeps {c : RingCmd} {s : State} {s₁ : State} (hk : s.Has K) (he : execSubarrayStart c s = .next s₁) : s₁.Has K := by
  unfold execSubarrayStart at he
  obtain rfl := Host.Outcome.next.inj he
  repeat' first
      | with_reducible assumption | with_reducible apply State.subStart_keeps | with_reducible apply State.startCmd_keeps
      | intro _

theorem execSubarrayStop_keeps {c : RingCmd} {s : State} {s₁ : State} (hk : s.Has K) (he : execSubarrayStop c s = .next s₁) : s₁.Has K := by
  unfold execSubarrayStop at he
  obtain rfl := Host.Outcome.next.inj he
  repeat' first
      | with_reducible assumption | with_reducible apply State.startCmd_keeps | with_reducible apply State.refuse_keeps
      | with_reducible apply State.modGrid_keeps | with_reducible refine State.Has.fold ?_ | simp only [↓State.has_mk] | intro _
      | split

theorem State.planLoad_keeps {s : State} {c : RingCmd} {r : CmdRef} (hk : s.Has K) : (State.planLoad s c r).Has K := by
  unfold State.planLoad
  repeat' first
      | with_reducible assumption | with_reducible apply State.refuse_keeps | with_reducible apply State.complete_keeps
      | with_reducible apply State.modSub_keeps | intro _ | split | dsimp only

theorem execPlanLoad_keeps {c : RingCmd} {s : State} {s₁ : State} (hk : s.Has K) (he : execPlanLoad c s = .next s₁) : s₁.Has K := by
  unfold execPlanLoad at he
  obtain rfl := Host.Outcome.next.inj he
  repeat' first
      | with_reducible assumption | with_reducible apply State.planLoad_keeps | with_reducible apply State.startCmd_keeps
      | intro _

theorem State.planRead_keeps {s : State} {c : RingCmd} {r : CmdRef} (hk : s.Has K) : (State.planRead s c r).Has K := by
  unfold State.planRead
  repeat' first
      | with_reducible assumption | with_reducible apply State.writeRes_keeps | with_reducible apply State.refuse_keeps
      | with_reducible apply State.complete_keeps | intro _ | split | dsimp only

theorem execPlanRead_keeps {c : RingCmd} {s : State} {s₁ : State} (hk : s.Has K) (he : execPlanRead c s = .next s₁) : s₁.Has K := by
  unfold execPlanRead at he
  obtain rfl := Host.Outcome.next.inj he
  repeat' first
      | with_reducible assumption | with_reducible apply State.planRead_keeps | with_reducible apply State.startCmd_keeps
      | intro _

end Sys2Proof.Machine
end

