-- ==== Sys2Proof/Laws/KeepBeamCmd.lean ====
section
/-! SUPPORT. What the operations of Machine/BeamCmd.lean leave alone. -/
set_option linter.all false
set_option Elab.async false

namespace Sys2Proof.Machine

open Sys2Proof

variable {K : Keep}

theorem State.beamStart_keeps {s : State} {c : RingCmd} {r : CmdRef} (hk : s.Has K) : (State.beamStart s c r).Has K := by
  unfold State.beamStart
  repeat' first
      | with_reducible assumption | with_reducible apply State.failWith_keeps | with_reducible apply State.refuse_keeps
      | with_reducible apply State.drawFree_keeps | with_reducible refine State.Has.fold ?_ | simp only [↓State.has_mk] | split
      | dsimp only

theorem execBeamStart_keeps {c : RingCmd} {s : State} {s₁ : State} (hk : s.Has K) (he : execBeamStart c s = .next s₁) : s₁.Has K := by
  unfold execBeamStart at he
  obtain rfl := Host.Outcome.next.inj he
  repeat' first
      | with_reducible assumption | with_reducible apply State.beamStart_keeps | with_reducible apply State.startCmd_keeps
      | intro _

theorem execBeamStop_keeps {c : RingCmd} {s : State} {s₁ : State} (hk : s.Has K) (he : execBeamStop c s = .next s₁) : s₁.Has K := by
  unfold execBeamStop at he
  obtain rfl := Host.Outcome.next.inj he
  repeat' first
      | with_reducible assumption | with_reducible apply State.dropSwitch_keeps | with_reducible apply State.startCmd_keeps
      | with_reducible apply State.refuse_keeps | with_reducible apply State.modGrid_keeps | intro _ | split | dsimp only

theorem State.beamWeights_keeps {s : State} {c : RingCmd} {r : CmdRef} (hk : s.Has K) : (State.beamWeights s c r).Has K := by
  unfold State.beamWeights
  repeat' first
      | with_reducible assumption | with_reducible apply State.refuse_keeps | with_reducible apply State.modBeam_keeps | intro _
      | split | dsimp only

theorem execBeamWeights_keeps {c : RingCmd} {s : State} {s₁ : State} (hk : s.Has K) (he : execBeamWeights c s = .next s₁) : s₁.Has K := by
  unfold execBeamWeights at he
  obtain rfl := Host.Outcome.next.inj he
  repeat' first
      | with_reducible assumption | with_reducible apply State.beamWeights_keeps | with_reducible apply State.startCmd_keeps
      | intro _

theorem execWeightsReady_keeps {plan : Fin 4096} {s : State} {s₁ : State} (hk : s.Has K) (he : execWeightsReady plan s = .next s₁) : s₁.Has K := by
  unfold execWeightsReady at he
  obtain rfl := Host.Outcome.next.inj he
  repeat' first
      | with_reducible assumption | with_reducible apply State.modBeam_keeps | with_reducible refine State.Has.fold ?_
      | simp only [↓State.has_mk] | intro _

theorem State.captureRecs_keeps {s : State} {n : Nat} {e : Nat × Nat × List Byte} (hk : s.Has K) : (State.captureRecs s n e).Has K := by
  unfold State.captureRecs
  repeat' first
      | with_reducible assumption | with_reducible apply State.emitDie_keeps
      | with_reducible refine State.emitDie_of (by with_reducible assumption) ?_ | with_reducible apply State.drawFree_keeps
      | with_reducible apply State.forEach_keeps | with_reducible apply State.forEach_keeps | intro _ | dsimp only

theorem State.beamCapture_keeps {s : State} {c : RingCmd} {r : CmdRef} (hk : s.Has K) : (State.beamCapture s c r).Has K := by
  unfold State.beamCapture
  repeat' first
      | with_reducible assumption | with_reducible apply State.captureRecs_keeps | with_reducible apply State.writeRes_keeps
      | with_reducible apply State.refuse_keeps | with_reducible apply State.complete_keeps
      | with_reducible apply State.forEach_keeps | with_reducible apply State.forEach_keeps | intro _ | split | dsimp only

theorem execBeamCapture_keeps {c : RingCmd} {s : State} {s₁ : State} (hk : s.Has K) (he : execBeamCapture c s = .next s₁) : s₁.Has K := by
  unfold execBeamCapture at he
  obtain rfl := Host.Outcome.next.inj he
  repeat' first
      | with_reducible assumption | with_reducible apply State.beamCapture_keeps | with_reducible apply State.startCmd_keeps
      | intro _

theorem State.topkSet_keeps {s : State} {c : RingCmd} {r : CmdRef} (hk : s.Has K) : (State.topkSet s c r).Has K := by
  unfold State.topkSet
  repeat' first
      | with_reducible assumption | with_reducible apply State.refuse_keeps | with_reducible apply State.complete_keeps
      | with_reducible refine State.Has.fold ?_ | simp only [↓State.has_mk] | split | dsimp only

theorem execTopkSet_keeps {c : RingCmd} {s : State} {s₁ : State} (hk : s.Has K) (he : execTopkSet c s = .next s₁) : s₁.Has K := by
  unfold execTopkSet at he
  obtain rfl := Host.Outcome.next.inj he
  repeat' first
      | with_reducible assumption | with_reducible apply State.topkSet_keeps | with_reducible apply State.startCmd_keeps
      | intro _

end Sys2Proof.Machine
end

