-- ==== Sys2Proof/Laws/KeepChainOps.lean ====
section
/-! SUPPORT. What the operations of Machine/ChainOps.lean leave alone. -/
set_option linter.all false
set_option Elab.async false

namespace Sys2Proof.Machine

open Sys2Proof

variable {K : Keep}

theorem State.sendOn_keeps {s : State} {p : Nat} {f : Frame} (hk : s.Has K) : (State.sendOn s p f).Has K := by
  unfold State.sendOn
  repeat' first
      | with_reducible assumption | with_reducible apply State.emit_keeps | with_reducible apply State.modPort_keeps | intro _
      | split | dsimp only

theorem State.nextSeq_keeps {s : State} (hk : s.Has K) : (State.nextSeq s).Has K := by
  unfold State.nextSeq
  repeat' first
      | with_reducible assumption | with_reducible apply State.modMgmt_keeps | with_reducible refine State.Has.fold ?_
      | simp only [↓State.has_mk] | intro _

theorem State.broadcast_keeps {s : State} {typ : Nat} {prio : Nat} {payload : List Nat} (hk : s.Has K) : (State.broadcast s typ prio payload).Has K := by
  unfold State.broadcast
  repeat' first
      | with_reducible assumption | with_reducible apply State.nextSeq_keeps | with_reducible apply State.sendOn_keeps
      | with_reducible refine State.Has.fold ?_ | simp only [↓State.has_mk] | dsimp only

theorem State.sendLocal_keeps {s : State} {p : Nat} {typ : Nat} {prio : Nat} {ts : Bool} {payload : List Nat} (hk : s.Has K) : (State.sendLocal s p typ prio ts payload).Has K := by
  unfold State.sendLocal
  repeat' first
      | with_reducible assumption | with_reducible apply State.nextSeq_keeps | with_reducible apply State.sendOn_keeps
      | with_reducible refine State.Has.fold ?_ | simp only [↓State.has_mk] | dsimp only

theorem State.unicast_keeps {s : State} {typ : Nat} {prio : Nat} {dst : BitVec 7} {payload : List Nat} (hk : s.Has K) : (State.unicast s typ prio dst payload).Has K := by
  unfold State.unicast
  repeat' first
      | with_reducible assumption | with_reducible apply State.nextSeq_keeps | with_reducible apply State.sendOn_keeps
      | dsimp only

theorem State.forward_keeps {s : State} {p : Nat} {f : Frame} (hk : s.Has K) : (State.forward s p f).Has K := by
  unfold State.forward
  repeat' first
      | with_reducible assumption | with_reducible apply State.sendOn_keeps | with_reducible apply State.modPort_keeps | intro _
      | split | dsimp only

theorem State.noteSeen_keeps {s : State} {f : Frame} (hk : s.Has K) : (State.noteSeen s f).Has K := by
  unfold State.noteSeen
  repeat' first
      | with_reducible assumption | with_reducible apply State.modMgmt_keeps | with_reducible refine State.Has.fold ?_
      | simp only [↓State.has_mk] | intro _ | dsimp only

theorem State.postPort_keeps {s : State} {p : Nat} {st : Nat} (hk : s.Has K) : (State.postPort s p st).Has K := by
  unfold State.postPort
  repeat' first
      | with_reducible assumption | with_reducible apply State.postEvt_keeps

theorem State.gradePort_keeps {s : State} {p : Nat} (hk : s.Has K) : (State.gradePort s p).Has K := by
  unfold State.gradePort
  repeat' first
      | with_reducible assumption | with_reducible apply State.postPort_keeps | with_reducible apply State.modPort_keeps
      | intro _ | split | dsimp only

theorem State.stopActing_keeps {s : State} (hk : s.Has K) : (State.stopActing s).Has K := by
  unfold State.stopActing
  repeat' first
      | with_reducible assumption | with_reducible apply State.modMgmt_keeps | with_reducible refine State.Has.fold ?_
      | simp only [↓State.has_mk] | intro _

theorem State.sideline_keeps {s : State} (hk : s.Has K) : (State.sideline s).Has K := by
  unfold State.sideline
  repeat' first
      | with_reducible assumption | with_reducible apply State.stopActing_keeps | with_reducible apply State.holdSrc_keeps
      | with_reducible apply State.postEvt_keeps | with_reducible apply State.modMgmt_keeps | intro _ | split | dsimp only

theorem State.unsideline_keeps {s : State} (hk : s.Has K) : (State.unsideline s).Has K := by
  unfold State.unsideline
  repeat' first
      | with_reducible assumption | with_reducible apply State.postEvt_keeps | with_reducible apply State.modMgmt_keeps
      | with_reducible refine State.Has.fold ?_ | simp only [↓State.has_mk] | intro _ | split

theorem State.postDrops_keeps {s : State} {p : Nat} {us : List Unacked} (hk : s.Has K) : (State.postDrops s p us).Has K := by
  unfold State.postDrops
  repeat' first
      | with_reducible assumption | with_reducible apply State.postEvt_keeps | with_reducible apply State.forEach_keeps
      | with_reducible apply State.forEach_keeps | intro _ | split | dsimp only

theorem State.emptyPort_keeps {s : State} {p : Nat} (hk : s.Has K) : (State.emptyPort s p).Has K := by
  unfold State.emptyPort
  repeat' first
      | with_reducible assumption | with_reducible apply State.postDrops_keeps | with_reducible apply State.sendOn_keeps
      | with_reducible apply State.forEach_keeps | with_reducible apply State.modPort_keeps
      | with_reducible apply State.forEach_keeps | intro _ | dsimp only

theorem State.portOff_keeps {s : State} {p : Nat} (hk : s.Has K) : (State.portOff s p).Has K := by
  unfold State.portOff
  repeat' first
      | with_reducible assumption | with_reducible apply State.emptyPort_keeps | with_reducible apply State.sideline_keeps
      | with_reducible apply State.postPort_keeps | with_reducible apply State.reselect_keeps
      | with_reducible apply State.noteUpstream_keeps | with_reducible apply State.holdSrc_keeps
      | with_reducible apply State.modPort_keeps | intro _ | split | dsimp only

theorem State.checkPort_keeps {s : State} {p : Nat} (hk : s.Has K) : (State.checkPort s p).Has K := by
  unfold State.checkPort
  repeat' first
      | with_reducible assumption | with_reducible apply State.portOff_keeps | with_reducible apply State.gradePort_keeps
      | split | dsimp only

theorem State.noteCycle_keeps {s : State} {src : Nat} (hk : s.Has K) : (State.noteCycle s src).Has K := by
  unfold State.noteCycle
  repeat' first
      | with_reducible assumption | with_reducible apply State.modMgmt_keeps | with_reducible refine State.Has.fold ?_
      | simp only [↓State.has_mk] | intro _ | split

theorem State.goodFrame_keeps {s : State} {p : Nat} {f : Frame} (hk : s.Has K) : (State.goodFrame s p f).Has K := by
  unfold State.goodFrame
  repeat' first
      | with_reducible assumption | with_reducible apply State.noteCycle_keeps | with_reducible apply State.checkPort_keeps
      | with_reducible apply State.emit_keeps | with_reducible apply State.modPort_keeps
      | with_reducible refine State.Has.fold ?_ | simp only [↓State.has_mk] | intro _

theorem State.receive_keeps {s : State} {p : Nat} {f : Frame} {link : Bool} {deliver : State → State} (h_deliver : ∀ s₀, s₀.Has K → (deliver s₀).Has K) (hk : s.Has K) : (State.receive s p f link deliver).Has K := by
  unfold State.receive
  repeat' first
      | with_reducible assumption | with_reducible apply h_deliver | with_reducible apply State.goodFrame_keeps
      | with_reducible apply State.noteSeen_keeps | with_reducible apply State.forward_keeps | split | dsimp only

theorem State.sendJoin_keeps {s : State} (hk : s.Has K) : (State.sendJoin s).Has K := by
  unfold State.sendJoin
  repeat' first
      | with_reducible assumption | with_reducible apply State.unicast_keeps | split | dsimp only

theorem State.takeAddr_keeps {s : State} {a : BitVec 7} (hk : s.Has K) : (State.takeAddr s a).Has K := by
  unfold State.takeAddr
  repeat' first
      | with_reducible assumption | with_reducible apply State.postEvt_keeps | with_reducible apply State.modMgmt_keeps
      | intro _ | split | dsimp only

theorem State.sendLockResp_keeps {s : State} {lock : Nat} {st : Nat} {holder : Nat} (hk : s.Has K) : (State.sendLockResp s lock st holder).Has K := by
  unfold State.sendLockResp
  repeat' first
      | with_reducible assumption | with_reducible apply State.unicast_keeps

end Sys2Proof.Machine
end

