-- ==== Sys2Proof/Laws/KeepRegTable.lean ====
section
/-! SUPPORT. What the operations of Machine/RegTable.lean leave alone. -/
set_option linter.all false
set_option Elab.async false

namespace Sys2Proof.Machine

open Sys2Proof

variable {K : Keep}

theorem State.setReg_keeps {s : State} {off v : Nat} (hc : K.Comm) (hk : s.Has K) : (s.setReg off v).Has K :=
  hc _ _ _ _ _ hk

theorem State.setShadow_keeps {s : State} {off : Nat} {v : Nat} (hk : s.Has K) : (State.setShadow s off v).Has K := by
  unfold State.setShadow
  repeat' first
      | with_reducible assumption | with_reducible refine State.Has.fold ?_ | simp only [↓State.has_mk]

theorem State.setBoth_keeps {s : State} {off : Nat} {v : Nat} (hc : K.Comm) (hk : s.Has K) : (State.setBoth s off v).Has K := by
  unfold State.setBoth
  repeat' first
      | with_reducible assumption | with_reducible apply State.setShadow_keeps
      | with_reducible apply State.setReg_keeps (hc := hc)

end Sys2Proof.Machine
end

