-- ==== Sys2Proof/Laws/KeepTime.lean ====
section
/-! SUPPORT. What the operations of Machine/Time.lean leave alone. -/
set_option linter.all false
set_option Elab.async false

namespace Sys2Proof.Machine

open Sys2Proof

variable {K : Keep}

theorem State.fixLabels_keeps {s : State} {ctr : Nat} (hk : s.Has K) : (State.fixLabels s ctr).Has K := by
  unfold State.fixLabels
  repeat' first
      | with_reducible assumption | with_reducible apply State.forEach_keeps | with_reducible apply State.modFn_keeps
      | with_reducible apply State.forEach_keeps | with_reducible refine State.Has.fold ?_ | simp only [↓State.has_mk] | intro _
      | split | dsimp only

theorem State.switchLabels_keeps {s : State} {ctr : Nat} (hk : s.Has K) : (State.switchLabels s ctr).Has K := by
  unfold State.switchLabels
  repeat' first
      | with_reducible assumption | with_reducible apply State.complete_keeps | with_reducible apply State.forEach_keeps
      | with_reducible apply State.modFn_keeps | with_reducible apply State.forEach_keeps
      | with_reducible refine State.Has.fold ?_ | simp only [↓State.has_mk] | intro _ | split | dsimp only

theorem State.arriveK_keeps {s : State} {ctr : Nat} {k : Nat} (hk : s.Has K) : (State.arriveK s ctr k).Has K := by
  unfold State.arriveK
  repeat' first
      | with_reducible assumption | with_reducible apply State.switchSelfTable_keeps | with_reducible apply State.forEach_keeps
      | with_reducible apply State.modTime_keeps | with_reducible apply State.modFn_keeps
      | with_reducible apply State.forEach_keeps | with_reducible refine State.Has.fold ?_ | simp only [↓State.has_mk] | intro _
      | split | dsimp only

theorem State.arrive_keeps {s : State} {ctr : Nat} (hk : s.Has K) : (State.arrive s ctr).Has K := by
  unfold State.arrive
  repeat' first
      | with_reducible assumption | with_reducible apply State.arriveK_keeps | with_reducible apply State.switchLabels_keeps
      | with_reducible apply State.fixLabels_keeps | with_reducible apply State.forEach_keeps
      | with_reducible apply State.modTime_keeps | with_reducible apply State.forEach_keeps
      | with_reducible refine State.Has.fold ?_ | simp only [↓State.has_mk] | intro _ | split | dsimp only

theorem State.noteWork_keeps {s : State} {t : Nat} (hk : s.Has K) : (State.noteWork s t).Has K := by
  unfold State.noteWork
  repeat' first
      | with_reducible assumption | with_reducible apply State.modFn_keeps | with_reducible refine State.Has.fold ?_
      | simp only [↓State.has_mk] | intro _ | split

theorem State.emitTimecont_keeps {s : State} {t : Nat} {e : KArr} (hk : s.Has K) : (State.emitTimecont s t e).Has K := by
  unfold State.emitTimecont
  repeat' first
      | with_reducible assumption | with_reducible apply State.emitSelfline_keeps | with_reducible apply State.emitEach_keeps
      | with_reducible apply State.modFn_keeps | unfold Option.elim | intro _ | split | dsimp only

theorem execTimecontEmit_keeps {k : Nat} {s : State} {s₁ : State} (hk : s.Has K) (he : execTimecontEmit k s = .next s₁) : s₁.Has K := by
  unfold execTimecontEmit at he
  obtain rfl := Host.Outcome.next.inj he
  repeat' first
      | with_reducible assumption | with_reducible apply State.emitTimecont_keeps | with_reducible apply State.forEach_keeps
      | with_reducible apply State.modTime_keeps | with_reducible apply State.forEach_keeps | intro _ | split | dsimp only

theorem execSyncSend_keeps {s : State} {s₁ : State} (hk : s.Has K) (he : execSyncSend s = .next s₁) : s₁.Has K := by
  unfold execSyncSend at he
  obtain rfl := Host.Outcome.next.inj he
  repeat' first
      | with_reducible assumption | with_reducible apply State.sendLocal_keeps | with_reducible apply State.forEach_keeps
      | with_reducible apply State.forEach_keeps | intro _

theorem execDelayReqSend_keeps {s : State} {s₁ : State} (hk : s.Has K) (he : execDelayReqSend s = .next s₁) : s₁.Has K := by
  unfold execDelayReqSend at he
  obtain rfl := Host.Outcome.next.inj he
  repeat' first
      | with_reducible assumption | with_reducible apply State.sendLocal_keeps | with_reducible apply State.modTime_keeps
      | with_reducible refine State.Has.fold ?_ | simp only [↓State.has_mk] | intro _ | split

theorem State.steerChain_keeps {s : State} (hk : s.Has K) : (State.steerChain s).Has K := by
  unfold State.steerChain
  repeat' first
      | with_reducible assumption | with_reducible apply State.leaveHold_keeps | with_reducible apply State.servo_keeps
      | with_reducible apply State.forEach_keeps | with_reducible apply State.forEach_keeps | intro _ | split

theorem State.takeSync_keeps {s : State} {p : Nat} {f : Frame} (hk : s.Has K) : (State.takeSync s p f).Has K := by
  unfold State.takeSync
  repeat' first
      | with_reducible assumption | with_reducible apply State.steerChain_keeps | with_reducible apply State.reselect_keeps
      | with_reducible apply State.noteUpstream_keeps | with_reducible apply State.modTime_keeps | intro _ | split | dsimp only

theorem execSync_keeps {p : Fin 2} {f : Frame} {s : State} {s₁ : State} (hk : s.Has K) (he : execSync p f s = .next s₁) : s₁.Has K := by
  unfold execSync at he
  obtain rfl := Host.Outcome.next.inj he
  repeat' first
      | with_reducible assumption | with_reducible apply State.takeSync_keeps | with_reducible apply State.receive_keeps
      | intro _

theorem execDelayReq_keeps {p : Fin 2} {f : Frame} {s : State} {s₁ : State} (hk : s.Has K) (he : execDelayReq p f s = .next s₁) : s₁.Has K := by
  unfold execDelayReq at he
  obtain rfl := Host.Outcome.next.inj he
  repeat' first
      | with_reducible assumption | with_reducible apply State.receive_keeps | with_reducible apply State.sendLocal_keeps
      | intro _

theorem State.takeDelayResp_keeps {s : State} {p : Nat} {f : Frame} (hk : s.Has K) : (State.takeDelayResp s p f).Has K := by
  unfold State.takeDelayResp
  repeat' first
      | with_reducible assumption | with_reducible apply State.steerChain_keeps | with_reducible apply State.modTime_keeps
      | with_reducible apply State.modMgmt_keeps | intro _ | split | dsimp only

theorem execDelayResp_keeps {p : Fin 2} {f : Frame} {s : State} {s₁ : State} (hk : s.Has K) (he : execDelayResp p f s = .next s₁) : s₁.Has K := by
  unfold execDelayResp at he
  obtain rfl := Host.Outcome.next.inj he
  repeat' first
      | with_reducible assumption | with_reducible apply State.takeDelayResp_keeps | with_reducible apply State.receive_keeps
      | intro _

theorem execTuNowLatch_keeps {fn : Fin 256} {s : State} {s₁ : State} (hk : s.Has K) (he : execTuNowLatch fn s = .next s₁) : s₁.Has K := by
  unfold execTuNowLatch at he
  obtain rfl := Host.Outcome.next.inj he
  repeat' first
      | with_reducible assumption | with_reducible apply State.emit_keeps | with_reducible apply State.modFn_keeps | intro _
      | split | dsimp only

theorem State.applyTuSet_keeps {s : State} {x : TuPend} {c1 : Nat} (hk : s.Has K) : (State.applyTuSet s x c1).Has K := by
  unfold State.applyTuSet
  repeat' first
      | with_reducible assumption | with_reducible apply State.setDom_keeps | with_reducible apply State.stepDom_keeps
      | with_reducible apply State.changeRate_keeps | with_reducible apply State.complete_keeps | split | dsimp only

theorem State.tuSet_keeps {s : State} {c : RingCmd} {r : CmdRef} (hk : s.Has K) : (State.tuSet s c r).Has K := by
  unfold State.tuSet
  repeat' first
      | with_reducible assumption | with_reducible apply State.applyTuSet_keeps | with_reducible apply State.refuse_keeps
      | with_reducible apply State.modTime_keeps | intro _ | split | dsimp only

theorem execTuSet_keeps {c : RingCmd} {s : State} {s₁ : State} (hk : s.Has K) (he : execTuSet c s = .next s₁) : s₁.Has K := by
  unfold execTuSet at he
  obtain rfl := Host.Outcome.next.inj he
  repeat' first
      | with_reducible assumption | with_reducible apply State.tuSet_keeps | with_reducible apply State.startCmd_keeps | intro _

theorem execTuSetApply_keeps {s : State} {s₁ : State} (hk : s.Has K) (he : execTuSetApply s = .next s₁) : s₁.Has K := by
  unfold execTuSetApply at he
  obtain rfl := Host.Outcome.next.inj he
  repeat' first
      | with_reducible assumption | with_reducible apply State.applyTuSet_keeps | with_reducible apply State.modTime_keeps
      | with_reducible refine State.Has.fold ?_ | simp only [↓State.has_mk] | intro _ | split

theorem State.tuLabel_keeps {s : State} {c : RingCmd} {r : CmdRef} (hk : s.Has K) : (State.tuLabel s c r).Has K := by
  unfold State.tuLabel
  repeat' first
      | with_reducible assumption | with_reducible apply State.refuse_keeps | with_reducible apply State.modFn_keeps | intro _
      | split | dsimp only

theorem execTuLabel_keeps {c : RingCmd} {s : State} {s₁ : State} (hk : s.Has K) (he : execTuLabel c s = .next s₁) : s₁.Has K := by
  unfold execTuLabel at he
  obtain rfl := Host.Outcome.next.inj he
  repeat' first
      | with_reducible assumption | with_reducible apply State.tuLabel_keeps | with_reducible apply State.startCmd_keeps
      | intro _

theorem State.writeWarmImage_keeps {s : State} (hk : s.Has K) : (State.writeWarmImage s).Has K := by
  unfold State.writeWarmImage
  repeat' first
      | with_reducible assumption | with_reducible apply State.modRst_keeps | with_reducible refine State.Has.fold ?_
      | simp only [↓State.has_mk] | intro _

theorem State.refSet_keeps {s : State} {c : RingCmd} {r : CmdRef} (hc : K.Comm) (hk : s.Has K) : (State.refSet s c r).Has K := by
  unfold State.refSet
  repeat' first
      | with_reducible assumption | with_reducible apply State.writeWarmImage_keeps | with_reducible apply State.reselect_keeps
      | with_reducible apply State.refuse_keeps | with_reducible apply State.complete_keeps
      | with_reducible apply State.setBoth_keeps (hc := hc) | split | dsimp only

theorem execRefSet_keeps {c : RingCmd} {s : State} (hc : K.Comm) {s₁ : State} (hk : s.Has K) (he : execRefSet c s = .next s₁) : s₁.Has K := by
  unfold execRefSet at he
  obtain rfl := Host.Outcome.next.inj he
  repeat' first
      | with_reducible assumption | with_reducible apply State.refSet_keeps (hc := hc)
      | with_reducible apply State.startCmd_keeps | intro _

theorem execRefActivityWindow_keeps {x : RefInput} {count : Nat} {s : State} {s₁ : State} (hk : s.Has K) (he : execRefActivityWindow x count s = .next s₁) : s₁.Has K := by
  unfold execRefActivityWindow at he
  obtain rfl := Host.Outcome.next.inj he
  repeat' first
      | with_reducible assumption | with_reducible apply State.refFail_keeps | split | dsimp only

theorem execRefGate_keeps {x : RefInput} {offsetPpb : Int} {s : State} {s₁ : State} (hk : s.Has K) (he : execRefGate x offsetPpb s = .next s₁) : s₁.Has K := by
  unfold execRefGate at he
  obtain rfl := Host.Outcome.next.inj he
  repeat' first
      | with_reducible assumption | with_reducible apply State.refGateAt_keeps | split

theorem execRefWtrExpiry_keeps {x : RefInput} {s : State} {s₁ : State} (hk : s.Has K) (he : execRefWtrExpiry x s = .next s₁) : s₁.Has K := by
  unfold execRefWtrExpiry at he
  obtain rfl := Host.Outcome.next.inj he
  repeat' first
      | with_reducible assumption | with_reducible apply State.afterQual_keeps | with_reducible apply State.postQual_keeps
      | with_reducible apply State.modRef_keeps | with_reducible refine State.Has.fold ?_ | simp only [↓State.has_mk] | intro _
      | split

theorem State.ppsCapture_keeps {s : State} {i : Nat} (hk : s.Has K) : (State.ppsCapture s i).Has K := by
  unfold State.ppsCapture
  repeat' first
      | with_reducible assumption | with_reducible apply State.refGateAt_keeps | with_reducible apply State.refFail_keeps
      | with_reducible apply State.servo_keeps | with_reducible apply State.forEach_keeps
      | with_reducible apply State.modRef_keeps | with_reducible apply State.forEach_keeps | intro _ | split | dsimp only

theorem execPpsEdge_keeps {i : Fin 2} {s : State} {s₁ : State} (hk : s.Has K) (he : execPpsEdge i s = .next s₁) : s₁.Has K := by
  unfold execPpsEdge at he
  obtain rfl := Host.Outcome.next.inj he
  repeat' first
      | with_reducible assumption | with_reducible apply State.ppsCapture_keeps | split

theorem execPpsNoEdge_keeps {i : Fin 2} {s : State} {s₁ : State} (hk : s.Has K) (he : execPpsNoEdge i s = .next s₁) : s₁.Has K := by
  unfold execPpsNoEdge at he
  obtain rfl := Host.Outcome.next.inj he
  repeat' first
      | with_reducible assumption | with_reducible apply State.refFail_keeps | intro _ | split

theorem execExtTrig_keeps {s : State} {s₁ : State} (hk : s.Has K) (he : execExtTrig s = .next s₁) : s₁.Has K := by
  unfold execExtTrig at he
  obtain rfl := Host.Outcome.next.inj he
  repeat' first
      | with_reducible assumption | with_reducible apply State.postEvt_keeps | with_reducible apply State.modRef_keeps
      | with_reducible apply State.modTime_keeps | intro _ | split | dsimp only

theorem State.writeRefLoop_keeps {s : State} {v : Nat} (hc : K.Comm) (hk : s.Has K) : (State.writeRefLoop s v).Has K := by
  unfold State.writeRefLoop
  repeat' first
      | with_reducible assumption | with_reducible apply State.reselect_keeps | with_reducible apply State.setLoop_keeps
      | with_reducible apply State.setBoth_keeps (hc := hc) | split | dsimp only

theorem execRefLoopWrite_keeps {v : W32} {s : State} (hc : K.Comm) {s₁ : State} (hk : s.Has K) (he : execRefLoopWrite v s = .next s₁) : s₁.Has K := by
  unfold execRefLoopWrite at he
  obtain rfl := Host.Outcome.next.inj he
  repeat' first
      | with_reducible assumption | with_reducible apply State.writeRefLoop_keeps (hc := hc)
      | with_reducible apply State.bar2Write_keeps | intro _

theorem State.writeRootSteer_keeps {s : State} {v : Nat} (hc : K.Comm) (hk : s.Has K) : (State.writeRootSteer s v).Has K := by
  unfold State.writeRootSteer
  repeat' first
      | with_reducible assumption | with_reducible apply State.setLoop_keeps | with_reducible apply State.modTime_keeps
      | with_reducible apply State.setBoth_keeps (hc := hc) | intro _ | split | dsimp only

theorem execRootSteerWrite_keeps {v : W32} {s : State} (hc : K.Comm) {s₁ : State} (hk : s.Has K) (he : execRootSteerWrite v s = .next s₁) : s₁.Has K := by
  unfold execRootSteerWrite at he
  obtain rfl := Host.Outcome.next.inj he
  repeat' first
      | with_reducible assumption | with_reducible apply State.writeRootSteer_keeps (hc := hc)
      | with_reducible apply State.bar2Write_keeps | intro _

theorem execOpenTimeout_keeps {s : State} {s₁ : State} (hk : s.Has K) (he : execOpenTimeout s = .next s₁) : s₁.Has K := by
  unfold execOpenTimeout at he
  obtain rfl := Host.Outcome.next.inj he
  repeat' first
      | with_reducible assumption | with_reducible apply State.setLoop_keeps | split

theorem execPhaseReport_keeps {phase : W32} {s : State} {s₁ : State} (hk : s.Has K) (he : execPhaseReport phase s = .next s₁) : s₁.Has K := by
  unfold execPhaseReport at he
  obtain rfl := Host.Outcome.next.inj he
  repeat' first
      | with_reducible assumption | with_reducible apply State.modTime_keeps | with_reducible refine State.Has.fold ?_
      | simp only [↓State.has_mk] | intro _ | split

theorem execRefPhaseRead_keeps {s : State} {s₁ : State} (hk : s.Has K) (he : execRefPhaseRead s = .next s₁) : s₁.Has K := by
  unfold execRefPhaseRead at he
  obtain rfl := Host.Outcome.next.inj he
  repeat' first
      | with_reducible assumption | with_reducible apply State.emit_keeps | with_reducible apply State.modTime_keeps
      | with_reducible refine State.Has.fold ?_ | simp only [↓State.has_mk] | intro _ | split

end Sys2Proof.Machine
end

