-- ==== Sys2Proof/Laws/KeepIngest.lean ====
section
/-! SUPPORT. What the operations of Machine/Ingest.lean leave alone. -/
set_option linter.all false
set_option Elab.async false

namespace Sys2Proof.Machine

open Sys2Proof

variable {K : Keep}

theorem State.bumpLane_keeps {s : State} {x : Nat} {f : Lane → Lane} (hk : s.Has K) : (State.bumpLane s x f).Has K := by
  unfold State.bumpLane
  repeat' first
      | with_reducible assumption | with_reducible apply State.modLane_keeps

theorem State.streamPacket_keeps {s : State} {lane : Nat} {ch : Nat} {x : Stream} {isNew : Bool} {p : Packet} (hk : s.Has K) : (State.streamPacket s lane ch x isNew p).Has K := by
  unfold State.streamPacket
  repeat' first
      | with_reducible assumption | with_reducible apply State.modDie_keeps | with_reducible apply State.modLane_keeps | intro _
      | split | dsimp only

theorem State.ingestPacket_keeps {s : State} {lane : Nat} {framed : Bool} {bs : List Byte} (hk : s.Has K) : (State.ingestPacket s lane framed bs).Has K := by
  unfold State.ingestPacket
  repeat' first
      | with_reducible assumption | with_reducible apply State.streamPacket_keeps | with_reducible apply State.arrive_keeps
      | with_reducible apply State.modLane_keeps | intro _ | split | dsimp only

theorem State.divotPiece_keeps {s : State} {d : Nat} {lane : Nat} {cause : Nat} {ch : Nat} {sig : Nat} {cnt : Nat} {lo : Nat} {hi : Nat} {drops : Nat} (hk : s.Has K) : (State.divotPiece s d lane cause ch sig cnt lo hi drops).Has K := by
  unfold State.divotPiece
  repeat' first
      | with_reducible assumption | with_reducible apply State.emitDie_keeps
      | with_reducible refine State.emitDie_of (by with_reducible assumption) ?_ | with_reducible apply State.postStatus_keeps
      | with_reducible apply State.forEach_keeps | with_reducible apply State.modRst_keeps
      | with_reducible apply State.forEach_keeps | intro _ | split | dsimp only

theorem State.divot_keeps {s : State} {d : Nat} {lane : Nat} {cause : Nat} {ch : Nat} {sig : Nat} {cnt : Nat} {lo : Nat} {hi : Nat} {drops : Nat} (hk : s.Has K) : (State.divot s d lane cause ch sig cnt lo hi drops).Has K := by
  unfold State.divot
  repeat' first
      | with_reducible assumption | with_reducible apply State.divotPiece_keeps | with_reducible apply State.forEach_keeps
      | with_reducible apply State.forEach_keeps | intro _ | dsimp only

theorem State.modStream_keeps {s : State} {lane : Nat} {ch : Nat} {sig : Nat} {cnt : Nat} {f : Stream → Stream} (hk : s.Has K) : (State.modStream s lane ch sig cnt f).Has K := by
  unfold State.modStream
  repeat' first
      | with_reducible assumption | with_reducible apply State.modLane_keeps | with_reducible refine State.Has.fold ?_
      | simp only [↓State.has_mk] | intro _

theorem State.flushInv_keeps {s : State} {d : Nat} {lane : Nat} {x : Stream} (hk : s.Has K) : (State.flushInv s d lane x).Has K := by
  unfold State.flushInv
  repeat' first
      | with_reducible assumption | with_reducible apply State.modStream_keeps | with_reducible apply State.divot_keeps
      | with_reducible refine State.Has.fold ?_ | simp only [↓State.has_mk] | intro _ | split

theorem State.takePacket_keeps {s : State} {d : Nat} {lane : Nat} {ch : Nat} {sig : Nat} {cnt : Nat} {ctr : Nat} {invalid : Bool} {sat : Bool} {xs : List Cx} (hk : s.Has K) : (State.takePacket s d lane ch sig cnt ctr invalid sat xs).Has K := by
  unfold State.takePacket
  repeat' first
      | with_reducible assumption | with_reducible apply State.flushInv_keeps | with_reducible apply State.modStream_keeps
      | with_reducible apply State.divot_keeps | with_reducible apply State.modDie_keeps | with_reducible apply foldl_keeps
      | with_reducible refine State.Has.fold ?_ | simp only [↓State.has_mk] | intro _ | split | dsimp only

theorem State.takeGap_keeps {s : State} {d : Nat} {lane : Nat} {cause : Nat} {ch : Nat} {sig : Nat} {cnt : Nat} {lo : Nat} {hi : Nat} {drops : Nat} (hk : s.Has K) : (State.takeGap s d lane cause ch sig cnt lo hi drops).Has K := by
  unfold State.takeGap
  repeat' first
      | with_reducible assumption | with_reducible apply State.flushInv_keeps | with_reducible apply State.modStream_keeps
      | with_reducible apply State.divot_keeps | intro _ | split | dsimp only

theorem State.fixFirst_keeps {s : State} {ctr : Nat} (hk : s.Has K) : (State.fixFirst s ctr).Has K := by
  unfold State.fixFirst
  repeat' first
      | with_reducible assumption | with_reducible apply State.modGrid_keeps | with_reducible refine State.Has.fold ?_
      | simp only [↓State.has_mk] | intro _ | split

theorem State.popFifo_keeps {s : State} {lane : Nat} (hk : s.Has K) : (State.popFifo s lane).Has K := by
  unfold State.popFifo
  repeat' first
      | with_reducible assumption | with_reducible apply State.modLane_keeps | with_reducible refine State.Has.fold ?_
      | simp only [↓State.has_mk] | intro _

theorem State.readFifo_keeps {s : State} {d : Nat} {lane : Nat} {ecc : EccResult} (hk : s.Has K) : (State.readFifo s d lane ecc).Has K := by
  unfold State.readFifo
  repeat' first
      | with_reducible assumption | with_reducible apply State.popFifo_keeps | with_reducible apply State.fixFirst_keeps
      | with_reducible apply State.takeGap_keeps | with_reducible apply State.takePacket_keeps
      | with_reducible apply State.modStream_keeps | with_reducible apply State.modDie_keeps
      | with_reducible apply State.modLane_keeps | intro _ | split | dsimp only

theorem State.closeDie_keeps {s : State} {d : Nat} (hk : s.Has K) : (State.closeDie s d).Has K := by
  unfold State.closeDie
  repeat' first
      | with_reducible assumption | with_reducible apply State.flushInv_keeps | with_reducible apply State.modStream_keeps
      | with_reducible apply State.divot_keeps | with_reducible apply State.forEach_keeps
      | with_reducible apply State.modDie_keeps | with_reducible apply State.modLane_keeps
      | with_reducible apply State.forEach_keeps | intro _ | split | dsimp only

theorem State.tryClose_keeps {s : State} {d : Nat} (hk : s.Has K) : (State.tryClose s d).Has K := by
  unfold State.tryClose
  repeat' first
      | with_reducible assumption | with_reducible apply State.closeDie_keeps | intro _ | split

theorem execCornerTurnRead_keeps {die : Fin 4} {lane : Fin 72} {ecc : EccResult} {s : State} {s₁ : State} (hk : s.Has K) (he : execCornerTurnRead die lane ecc s = .next s₁) : s₁.Has K := by
  unfold execCornerTurnRead at he
  obtain rfl := Host.Outcome.next.inj he
  repeat' first
      | with_reducible assumption | with_reducible apply State.tryClose_keeps | with_reducible apply State.readFifo_keeps
      | split

end Sys2Proof.Machine
end

