-- ==== Sys2Proof/Laws/KeepBeams.lean ====
section
/-! SUPPORT. What the operations of Machine/Beams.lean leave alone. -/
set_option linter.all false
set_option Elab.async false

namespace Sys2Proof.Machine

open Sys2Proof

variable {K : Keep}

theorem State.markRotation_keeps {s : State} {d : Nat} {n : Nat} {j : Nat} (hk : s.Has K) : (State.markRotation s d n j).Has K := by
  unfold State.markRotation
  repeat' first
      | with_reducible assumption | with_reducible apply State.completeOpt_keeps | with_reducible apply State.modBeam_keeps
      | with_reducible apply State.modDie_keeps | intro _ | split | dsimp only

theorem State.emitVolt_keeps {s : State} {d : Nat} {n : Nat} {slot : Nat} {x : SlotOut} {w : Nat} (hk : s.Has K) : (State.emitVolt s d n slot x w).Has K := by
  unfold State.emitVolt
  repeat' first
      | with_reducible assumption | with_reducible apply State.emitDie_keeps
      | with_reducible refine State.emitDie_of (by with_reducible assumption) ?_ | with_reducible apply State.forEach_keeps
      | with_reducible apply State.forEach_keeps | intro _ | split | dsimp only

theorem State.capture_keeps {s : State} {d : Nat} {n : Nat} {slot : Nat} {x : SlotOut} (hk : s.Has K) : (State.capture s d n slot x).Has K := by
  unfold State.capture
  repeat' first
      | with_reducible assumption | with_reducible apply State.modDie_keeps | with_reducible refine State.Has.fold ?_
      | simp only [↓State.has_mk] | intro _ | dsimp only

theorem State.emitBand_keeps {s : State} {n : Nat} {first : Nat} (hk : s.Has K) : (State.emitBand s n first).Has K := by
  unfold State.emitBand
  repeat' first
      | with_reducible assumption | with_reducible apply State.emitHub_keeps | with_reducible apply State.modBeam_keeps
      | with_reducible refine State.Has.fold ?_ | simp only [↓State.has_mk] | intro _ | split | dsimp only

theorem State.bandPart_keeps {s : State} {n : Nat} {p : Partial} (hk : s.Has K) : (State.bandPart s n p).Has K := by
  unfold State.bandPart
  repeat' first
      | with_reducible assumption | with_reducible apply State.emitBand_keeps | with_reducible apply State.modBeam_keeps
      | intro _ | split | dsimp only

theorem State.emitPower_keeps {s : State} {d : Nat} {n : Nat} {a : PowAcc} (hk : s.Has K) : (State.emitPower s d n a).Has K := by
  unfold State.emitPower
  repeat' first
      | with_reducible assumption | with_reducible apply State.bandPart_keeps | with_reducible apply State.emitDie_keeps
      | with_reducible refine State.emitDie_of (by with_reducible assumption) ?_ | with_reducible apply State.forEach_keeps
      | with_reducible apply State.forEach_keeps | intro _ | split | dsimp only

theorem State.addPower_keeps {s : State} {d : Nat} {n : Nat} {slot : Nat} {ch : Nat} {sums : List Cx} {sat : Nat} {zeroed : Nat} (hk : s.Has K) : (State.addPower s d n slot ch sums sat zeroed).Has K := by
  unfold State.addPower
  repeat' first
      | with_reducible assumption | with_reducible apply State.emitPower_keeps | with_reducible apply State.modDie_keeps
      | intro _ | split | dsimp only

theorem State.emitSlot_keeps {s : State} {d : Nat} {n : Nat} {slot : Nat} {xs : List SlotOut} (hk : s.Has K) : (State.emitSlot s d n slot xs).Has K := by
  unfold State.emitSlot
  repeat' first
      | with_reducible assumption | with_reducible apply State.addPower_keeps | with_reducible apply State.capture_keeps
      | with_reducible apply State.emitVolt_keeps | with_reducible apply State.forEach_keeps
      | with_reducible apply State.forEach_keeps | with_reducible apply foldl_keeps | intro _ | split | dsimp only

theorem State.addRows_keeps {s : State} {d : Nat} {n : Nat} {slot : Nat} {c : Nat} {sixteenths : Nat} {len : Nat} {w : Nat → Nat → Cx} {xs : List (List Cx)} (hk : s.Has K) : (State.addRows s d n slot c sixteenths len w xs).Has K := by
  unfold State.addRows
  repeat' first
      | with_reducible assumption | with_reducible apply State.modDie_keeps | with_reducible apply foldl_keeps | intro _ | split
      | dsimp only

theorem State.sweepJobs_keeps {s : State} {d : Nat} {n : Nat} {sweep : Nat} {pch : Nat} {skip : Bool} (hk : s.Has K) : (State.sweepJobs s d n sweep pch skip).1.Has K := by
  unfold State.sweepJobs
  repeat' first
      | with_reducible assumption | with_reducible apply State.addRows_keeps | with_reducible apply State.modDie_keeps
      | with_reducible refine State.Has.fold ?_ | simp only [↓State.has_mk] | intro _ | split | dsimp only

theorem State.sweepJobs_of {s : State} {d : Nat} {n : Nat} {sweep : Nat} {pch : Nat} {skip : Bool} {s₁ : State} {r₁ : List SweepVals} (he : State.sweepJobs s d n sweep pch skip = (s₁, r₁)) (hk : s.Has K) : s₁.Has K := by
  have := State.sweepJobs_keeps hk (K := K) (s := s) (d := d) (n := n) (sweep := sweep) (pch := pch) (skip := skip)
  rw [he] at this
  exact this

theorem State.runSweep_keeps {s : State} {d : Nat} {n : Nat} {skip : Bool} (hk : s.Has K) : (State.runSweep s d n skip).Has K := by
  unfold State.runSweep
  repeat' first
      | with_reducible assumption | with_reducible apply State.sweepJobs_keeps
      | with_reducible refine State.sweepJobs_of (by with_reducible assumption) ?_
      | with_reducible apply State.markRotation_keeps | with_reducible apply State.forEach_keeps
      | with_reducible apply State.modDie_keeps | with_reducible apply State.forEach_keeps | with_reducible apply foldl_keeps
      | intro _ | split | dsimp only

theorem State.startSweeps_keeps {s : State} {d k : Nat} (hk : s.Has K) : (s.startSweeps d k).Has K := by
  induction k generalizing s with
  | zero => exact hk
  | succ n ih =>
    unfold State.startSweeps
    repeat' first
      | with_reducible assumption
      | with_reducible apply ih
      | with_reducible apply State.runSweep_keeps
      | split

theorem State.trySweeps_keeps {s : State} {d : Nat} (hk : s.Has K) : (State.trySweeps s d).Has K := by
  unfold State.trySweeps
  repeat' first
      | with_reducible assumption | with_reducible apply State.startSweeps_keeps | split

theorem execIngestPacket_keeps {lane : Fin 288} {framed : Bool} {symbols : List Byte} {s : State} {s₁ : State} (hk : s.Has K) (he : execIngestPacket lane framed symbols s = .next s₁) : s₁.Has K := by
  unfold execIngestPacket at he
  obtain rfl := Host.Outcome.next.inj he
  repeat' first
      | with_reducible assumption | with_reducible apply State.trySweeps_keeps | with_reducible apply State.tryClose_keeps
      | with_reducible apply State.ingestPacket_keeps

theorem State.dbWait_keeps {s : State} {d : Nat} (hk : s.Has K) : (State.dbWait s d).Has K := by
  unfold State.dbWait
  repeat' first
      | with_reducible assumption | with_reducible apply State.trySweeps_keeps | with_reducible apply State.modDie_keeps
      | intro _ | split | dsimp only

theorem execDbWaitExpiry_keeps {die : Fin 4} {s : State} {s₁ : State} (hk : s.Has K) (he : execDbWaitExpiry die s = .next s₁) : s₁.Has K := by
  unfold execDbWaitExpiry at he
  obtain rfl := Host.Outcome.next.inj he
  repeat' first
      | with_reducible assumption | with_reducible apply State.dbWait_keeps

theorem State.sweepDeliver_keeps {s : State} {d : Nat} (hk : s.Has K) : (State.sweepDeliver s d).Has K := by
  unfold State.sweepDeliver
  repeat' first
      | with_reducible assumption | with_reducible apply State.trySweeps_keeps | with_reducible apply State.chainInput_keeps
      | with_reducible apply State.forEach_keeps | with_reducible apply State.modDie_keeps
      | with_reducible apply State.forEach_keeps | intro _ | split | dsimp only

theorem execSweepDeliver_keeps {die : Fin 4} {s : State} {s₁ : State} (hk : s.Has K) (he : execSweepDeliver die s = .next s₁) : s₁.Has K := by
  unfold execSweepDeliver at he
  obtain rfl := Host.Outcome.next.inj he
  repeat' first
      | with_reducible assumption | with_reducible apply State.sweepDeliver_keeps

theorem State.flushDirect_keeps {s : State} {d : Nat} {limit : Nat} (hk : s.Has K) : (State.flushDirect s d limit).Has K := by
  unfold State.flushDirect
  repeat' first
      | with_reducible assumption | with_reducible apply State.emitSlot_keeps | with_reducible apply State.forEach_keeps
      | with_reducible apply State.modDie_keeps | with_reducible apply State.forEach_keeps
      | with_reducible refine State.Has.fold ?_ | simp only [↓State.has_mk] | intro _ | dsimp only

theorem State.fineSlot_keeps {s : State} {d : Nat} {n : Nat} {j : Nat} {pch : Nat} {x : Sub} {k : Nat} (hk : s.Has K) : (State.fineSlot s d n j pch x k).1.Has K := by
  unfold State.fineSlot
  repeat' first
      | with_reducible assumption | with_reducible apply State.addRows_keeps | with_reducible apply State.forEach_keeps
      | with_reducible apply State.forEach_keeps | with_reducible apply foldl_keeps | intro _ | split | dsimp only

theorem State.fineSlot_of {s : State} {d : Nat} {n : Nat} {j : Nat} {pch : Nat} {x : Sub} {k : Nat} {s₁ : State} {r₁ : SlotOut} (he : State.fineSlot s d n j pch x k = (s₁, r₁)) (hk : s.Has K) : s₁.Has K := by
  have := State.fineSlot_keeps hk (K := K) (s := s) (d := d) (n := n) (j := j) (pch := pch) (x := x) (k := k)
  rw [he] at this
  exact this

theorem State.rotateBuffered_keeps {s : State} {d : Nat} {n : Nat} {slot : Nat} (hk : s.Has K) : (State.rotateBuffered s d n slot).Has K := by
  unfold State.rotateBuffered
  repeat' first
      | with_reducible assumption | with_reducible apply State.fineSlot_keeps
      | with_reducible refine State.fineSlot_of (by with_reducible assumption) ?_ | with_reducible apply State.emitSlot_keeps
      | with_reducible apply State.markRotation_keeps | with_reducible apply State.modDie_keeps
      | with_reducible apply foldl_keeps | intro _ | split | dsimp only

theorem State.rotationStart_keeps {s : State} {d : Nat} {slot : Nat} (hk : s.Has K) : (State.rotationStart s d slot).Has K := by
  unfold State.rotationStart
  repeat' first
      | with_reducible assumption | with_reducible apply State.rotateBuffered_keeps
      | with_reducible apply State.flushDirect_keeps | with_reducible apply State.markRotation_keeps
      | with_reducible apply State.forEach_keeps | with_reducible apply State.forEach_keeps | intro _ | split | dsimp only

theorem execRotationStart_keeps {die : Fin 4} {slot : Nat} {s : State} {s₁ : State} (hk : s.Has K) (he : execRotationStart die slot s = .next s₁) : s₁.Has K := by
  unfold execRotationStart at he
  obtain rfl := Host.Outcome.next.inj he
  repeat' first
      | with_reducible assumption | with_reducible apply State.rotationStart_keeps

theorem State.bandTimeout_keeps {s : State} {n : Nat} (hk : s.Has K) : (State.bandTimeout s n).Has K := by
  unfold State.bandTimeout
  repeat' first
      | with_reducible assumption | with_reducible apply State.emitBand_keeps | with_reducible apply State.modBeam_keeps
      | with_reducible refine State.Has.fold ?_ | simp only [↓State.has_mk] | intro _ | split

theorem execBandsumTimeout_keeps {plan : Fin 4096} {s : State} {s₁ : State} (hk : s.Has K) (he : execBandsumTimeout plan s = .next s₁) : s₁.Has K := by
  unfold execBandsumTimeout at he
  obtain rfl := Host.Outcome.next.inj he
  repeat' first
      | with_reducible assumption | with_reducible apply State.bandTimeout_keeps

end Sys2Proof.Machine
end

