-- ==== Sys2Proof/Laws/KeepEngRun.lean ====
section
/-! SUPPORT. What the operations of Machine/EngRun.lean leave alone. -/
set_option linter.all false
set_option Elab.async false

namespace Sys2Proof.Machine

open Sys2Proof

variable {K : Keep}

theorem State.issueThen_keeps {s : State} {e : Nat} {k : IssueKind} {cycles : Nat} {o : EngOp} {own : List Field} {body : State → Except Nat State} {post : State → State} (h_body : ∀ s₀ s₁, s₀.Has K → body s₀ = .ok s₁ → s₁.Has K) (h_post : ∀ s₀, s₀.Has K → (post s₀).Has K) (hk : s.Has K) : (State.issueThen s e k cycles o own body post).Has K := by
  unfold State.issueThen
  repeat' first
      | with_reducible assumption | with_reducible refine h_body _ _ ?_ (by with_reducible assumption)
      | with_reducible apply h_post | with_reducible apply State.issue_keeps | intro s₂ s₃ hk₂ he₂
      | obtain rfl := Except.ok.inj he₂ | split at he₂ | cases he₂ | dsimp only at he₂ | split | dsimp only

theorem State.runMicro_keeps {s : State} {e : Nat} {m : Micro} {i : Nat} (hk : s.Has K) : (State.runMicro s e m i).Has K := by
  unfold State.runMicro
  repeat' first
      | with_reducible assumption | with_reducible apply State.engFault_keeps | with_reducible apply State.modEng_keeps
      | intro _ | split | dsimp only

theorem State.releaseBinding_keeps {s : State} {e : Nat} (hk : s.Has K) : (State.releaseBinding s e).Has K := by
  unfold State.releaseBinding
  repeat' first
      | with_reducible assumption | with_reducible apply State.modEng_keeps | with_reducible apply State.modChain_keeps
      | with_reducible refine State.Has.fold ?_ | simp only [↓State.has_mk] | intro _ | split

theorem State.bindPort_of {s s₁ : State} {e c : Nat} (he : s.bindPort e c = .ok s₁) (hk : s.Has K) : s₁.Has K := by
  unfold State.bindPort at he
  dsimp only at he
  repeat' split at he
  all_goals first
    | (obtain rfl := Except.ok.inj he
       repeat' first
         | with_reducible assumption
         | with_reducible apply State.modEng_keeps
         | with_reducible apply State.modChain_keeps
         | with_reducible apply State.releaseBinding_keeps
         | split)
    | cases he

theorem State.abandonShift_keeps {s : State} {e : Nat} (hk : s.Has K) : (State.abandonShift s e).Has K := by
  unfold State.abandonShift
  repeat' first
      | with_reducible assumption | with_reducible apply State.releaseBinding_keeps | with_reducible apply State.modEng_keeps
      | intro _ | split | dsimp only

theorem State.feedEngine_keeps {s : State} {e : Nat} (hk : s.Has K) : (State.feedEngine s e).Has K := by
  unfold State.feedEngine
  repeat' first
      | with_reducible assumption | with_reducible apply State.feedShfx_keeps | split

theorem State.haltDone_keeps {s : State} {e : Nat} (hk : s.Has K) : (State.haltDone s e).Has K := by
  unfold State.haltDone
  repeat' first
      | with_reducible assumption | with_reducible apply State.complete_keeps | with_reducible apply State.forEach_keeps
      | with_reducible apply State.modEng_keeps | with_reducible apply State.forEach_keeps
      | with_reducible refine State.Has.fold ?_ | simp only [↓State.has_mk] | intro _ | dsimp only

theorem State.applyAbort_keeps {s : State} {e : Nat} (hk : s.Has K) : (State.applyAbort s e).Has K := by
  unfold State.applyAbort
  repeat' first
      | with_reducible assumption | with_reducible apply State.abandonShift_keeps
      | with_reducible apply State.startDetections_keeps | with_reducible apply State.returnIdle_keeps
      | with_reducible apply State.dispatchAll_keeps | with_reducible apply State.modEng_keeps
      | with_reducible refine State.Has.fold ?_ | simp only [↓State.has_mk] | intro _ | dsimp only

theorem State.takeHalt_keeps {s : State} {e : Nat} (hk : s.Has K) : (State.takeHalt s e).Has K := by
  unfold State.takeHalt
  repeat' first
      | with_reducible assumption | with_reducible apply State.haltDone_keeps | with_reducible apply State.abandonShift_keeps
      | with_reducible apply State.modEng_keeps | with_reducible refine State.Has.fold ?_ | simp only [↓State.has_mk] | intro _
      | dsimp only

theorem State.goOn_keeps {s : State} {e : Nat} (hk : s.Has K) : (State.goOn s e).Has K := by
  unfold State.goOn
  repeat' first
      | with_reducible assumption | with_reducible apply State.feedEngine_keeps | with_reducible apply State.runMicro_keeps
      | with_reducible apply State.modEng_keeps | intro _ | split | dsimp only

theorem State.groupMake_keeps {s : State} {e : Nat} {a : GrpAcc} {put : (RegSet → RegSet) → Eng → Eng} (hk : s.Has K) : (State.groupMake s e a put).Has K := by
  unfold State.groupMake
  repeat' first
      | with_reducible assumption | with_reducible apply State.modEGroup_keeps | with_reducible apply State.modEng_keeps
      | intro _ | split | dsimp only

theorem State.groupReturn_keeps {s : State} {e : Nat} (hk : s.Has K) : (State.groupReturn s e).Has K := by
  unfold State.groupReturn
  repeat' first
      | with_reducible assumption | with_reducible apply State.groupMake_keeps | with_reducible apply State.goOn_keeps
      | with_reducible apply State.absorb_keeps | with_reducible apply State.drawFree_keeps
      | with_reducible apply State.modEng_keeps | intro _ | split | dsimp only

theorem execGroupMemoryReturn_keeps {e : Fin 96} {s : State} {s₁ : State} (hk : s.Has K) (he : execGroupMemoryReturn e s = .next s₁) : s₁.Has K := by
  unfold execGroupMemoryReturn at he
  obtain rfl := Host.Outcome.next.inj he
  repeat' first
      | with_reducible assumption | with_reducible apply State.groupReturn_keeps

theorem State.acceptInterrupt_keeps {s : State} {e : Nat} (hk : s.Has K) : (State.acceptInterrupt s e).Has K := by
  unfold State.acceptInterrupt
  repeat' first
      | with_reducible assumption | with_reducible apply State.modEng_keeps | intro _ | split | dsimp only

theorem execInterruptAccept_keeps {e : Fin 96} {s : State} {s₁ : State} (hk : s.Has K) (he : execInterruptAccept e s = .next s₁) : s₁.Has K := by
  unfold execInterruptAccept at he
  obtain rfl := Host.Outcome.next.inj he
  repeat' first
      | with_reducible assumption | with_reducible apply State.acceptInterrupt_keeps

theorem State.returnMain_keeps {s : State} {e : Nat} (hk : s.Has K) : (State.returnMain s e).Has K := by
  unfold State.returnMain
  repeat' first
      | with_reducible assumption | with_reducible apply State.groupMake_keeps | with_reducible apply State.goOn_keeps
      | with_reducible apply State.modEng_keeps | intro _ | split | dsimp only

theorem State.abortApply_keeps {s : State} {e : Nat} (hk : s.Has K) : (State.abortApply s e).Has K := by
  unfold State.abortApply
  repeat' first
      | with_reducible assumption | with_reducible apply State.applyAbort_keeps | with_reducible apply State.modEng_keeps
      | intro _ | split | dsimp only

theorem execAbortApply_keeps {e : Fin 96} {s : State} {s₁ : State} (hk : s.Has K) (he : execAbortApply e s = .next s₁) : s₁.Has K := by
  unfold execAbortApply at he
  obtain rfl := Host.Outcome.next.inj he
  repeat' first
      | with_reducible assumption | with_reducible apply State.abortApply_keeps

theorem State.haltTake_keeps {s : State} {e : Nat} (hk : s.Has K) : (State.haltTake s e).Has K := by
  unfold State.haltTake
  repeat' first
      | with_reducible assumption | with_reducible apply State.takeHalt_keeps | with_reducible apply State.applyAbort_keeps
      | split | dsimp only

theorem execHaltTake_keeps {e : Fin 96} {s : State} {s₁ : State} (hk : s.Has K) (he : execHaltTake e s = .next s₁) : s₁.Has K := by
  unfold execHaltTake at he
  obtain rfl := Host.Outcome.next.inj he
  repeat' first
      | with_reducible assumption | with_reducible apply State.haltTake_keeps

theorem execTmrExpiry_keeps {e : Fin 96} {s : State} {s₁ : State} (hk : s.Has K) (he : execTmrExpiry e s = .next s₁) : s₁.Has K := by
  unfold execTmrExpiry at he
  obtain rfl := Host.Outcome.next.inj he
  repeat' first
      | with_reducible assumption | with_reducible apply State.pulseInput_keeps | with_reducible apply State.modEng_keeps
      | with_reducible refine State.Has.fold ?_ | simp only [↓State.has_mk] | intro _ | split

theorem State.engCmd_keeps {s : State} {opc : Nat} {barShipped : Bool} {c : RingCmd} {body : Nat → CmdRef → State → State} (h_body : ∀ n₀ r₀ s₀, s₀.Has K → (body n₀ r₀ s₀).Has K) (hk : s.Has K) : (State.engCmd s opc barShipped c body).Has K := by
  unfold State.engCmd
  repeat' first
      | with_reducible assumption | with_reducible apply h_body | with_reducible apply State.startCmd_keeps
      | with_reducible apply State.refuse_keeps | intro _ | split | dsimp only

theorem State.loadImage_keeps {s : State} {e : Nat} {bs : List Byte} (hk : s.Has K) : (State.loadImage s e bs).Has K := by
  unfold State.loadImage
  repeat' first
      | with_reducible assumption | with_reducible apply State.releaseBinding_keeps | with_reducible apply State.modEng_keeps
      | with_reducible apply foldl_keeps | with_reducible refine State.Has.fold ?_ | simp only [↓State.has_mk] | intro _ | split
      | dsimp only

theorem execEngLoad_keeps {c : RingCmd} {s : State} {s₁ : State} (hk : s.Has K) (he : execEngLoad c s = .next s₁) : s₁.Has K := by
  unfold execEngLoad at he
  obtain rfl := Host.Outcome.next.inj he
  repeat' first
      | with_reducible assumption | with_reducible apply State.loadImage_keeps | with_reducible apply State.engCmd_keeps
      | with_reducible apply State.haltDone_keeps | with_reducible apply State.refuse_keeps
      | with_reducible apply State.complete_keeps | with_reducible apply State.modEng_keeps
      | with_reducible refine State.Has.fold ?_ | simp only [↓State.has_mk] | intro _ | split | dsimp only

theorem execEngStart_keeps {c : RingCmd} {s : State} {s₁ : State} (hk : s.Has K) (he : execEngStart c s = .next s₁) : s₁.Has K := by
  unfold execEngStart at he
  obtain rfl := Host.Outcome.next.inj he
  repeat' first
      | with_reducible assumption | with_reducible apply State.engCmd_keeps | with_reducible apply State.refuse_keeps
      | with_reducible apply State.complete_keeps | with_reducible apply State.modEng_keeps | intro _ | split

theorem execEngHalt_keeps {c : RingCmd} {s : State} {s₁ : State} (hk : s.Has K) (he : execEngHalt c s = .next s₁) : s₁.Has K := by
  unfold execEngHalt at he
  obtain rfl := Host.Outcome.next.inj he
  repeat' first
      | with_reducible assumption | with_reducible apply State.engCmd_keeps | with_reducible apply State.complete_keeps
      | with_reducible apply State.modEng_keeps | with_reducible refine State.Has.fold ?_ | simp only [↓State.has_mk] | intro _
      | split

theorem execEngResume_keeps {c : RingCmd} {s : State} {s₁ : State} (hk : s.Has K) (he : execEngResume c s = .next s₁) : s₁.Has K := by
  unfold execEngResume at he
  obtain rfl := Host.Outcome.next.inj he
  repeat' first
      | with_reducible assumption | with_reducible apply State.engCmd_keeps | with_reducible apply State.goOn_keeps
      | with_reducible apply State.applyAbort_keeps | with_reducible apply State.refuse_keeps
      | with_reducible apply State.complete_keeps | with_reducible apply State.modEng_keeps | intro _ | split | dsimp only

end Sys2Proof.Machine
end

