-- ==== Sys2Proof/Laws/KeepCchCmd.lean ====
section
/-! SUPPORT. What the operations of Machine/CchCmd.lean leave alone. -/
set_option linter.all false
set_option Elab.async false

namespace Sys2Proof.Machine

open Sys2Proof

variable {K : Keep}

theorem State.cchStart_keeps {s : State} {c : RingCmd} {r : CmdRef} (hk : s.Has K) : (State.cchStart s c r).Has K := by
  unfold State.cchStart
  repeat' first
      | with_reducible assumption | with_reducible apply State.shipOn_keeps | with_reducible apply State.modeFollow_keeps
      | with_reducible apply State.carrierRec_keeps | with_reducible apply State.freshGen_keeps
      | with_reducible apply State.noteWork_keeps | with_reducible apply State.writeRes_keeps
      | with_reducible apply State.refuse_keeps | with_reducible apply State.complete_keeps
      | with_reducible apply State.modChain_keeps | intro _ | split | dsimp only

theorem State.retune_keeps {s : State} {n : Nat} {v : Option Tuning} {preset : Option Nat} (hk : s.Has K) : (State.retune s n v preset).Has K := by
  unfold State.retune
  repeat' first
      | with_reducible assumption | with_reducible apply State.dropQueued_keeps | with_reducible apply State.closeBurst_keeps
      | with_reducible apply State.freshGen_keeps | with_reducible apply State.modChain_keeps
      | with_reducible refine State.Has.fold ?_ | simp only [↓State.has_mk] | intro _ | split | dsimp only

theorem State.cchRetune_keeps {s : State} {c : RingCmd} {r : CmdRef} (hk : s.Has K) : (State.cchRetune s c r).Has K := by
  unfold State.cchRetune
  repeat' first
      | with_reducible assumption | with_reducible apply State.retune_keeps | with_reducible apply State.writeRes_keeps
      | with_reducible apply State.refuse_keeps | with_reducible apply State.complete_keeps | intro _ | split | dsimp only

theorem State.cchStop_keeps {s : State} {c : RingCmd} {r : CmdRef} (hk : s.Has K) : (State.cchStop s c r).Has K := by
  unfold State.cchStop
  repeat' first
      | with_reducible assumption | with_reducible apply State.freeChain_keeps | with_reducible apply State.modeFollow_keeps
      | with_reducible apply State.refuse_keeps | with_reducible apply State.complete_keeps | split | dsimp only

theorem State.carrierCmd_keeps {s : State} {opc : Nat} {c : RingCmd} {r : CmdRef} (hk : s.Has K) : (State.carrierCmd s opc c r).Has K := by
  unfold State.carrierCmd
  repeat' first
      | with_reducible assumption | with_reducible apply State.cchStop_keeps | with_reducible apply State.cchStart_keeps
      | with_reducible apply State.modDec_keeps | with_reducible refine State.Has.fold ?_ | simp only [↓State.has_mk] | intro _
      | split

theorem execCchStart_keeps {c : RingCmd} {s : State} {s₁ : State} (hk : s.Has K) (he : execCchStart c s = .next s₁) : s₁.Has K := by
  unfold execCchStart at he
  obtain rfl := Host.Outcome.next.inj he
  repeat' first
      | with_reducible assumption | with_reducible apply State.carrierCmd_keeps | with_reducible apply State.startCmd_keeps
      | intro _

theorem execCchRetune_keeps {c : RingCmd} {s : State} {s₁ : State} (hk : s.Has K) (he : execCchRetune c s = .next s₁) : s₁.Has K := by
  unfold execCchRetune at he
  obtain rfl := Host.Outcome.next.inj he
  repeat' first
      | with_reducible assumption | with_reducible apply State.cchRetune_keeps | with_reducible apply State.startCmd_keeps
      | intro _

theorem execCchStop_keeps {c : RingCmd} {s : State} {s₁ : State} (hk : s.Has K) (he : execCchStop c s = .next s₁) : s₁.Has K := by
  unfold execCchStop at he
  obtain rfl := Host.Outcome.next.inj he
  repeat' first
      | with_reducible assumption | with_reducible apply State.carrierCmd_keeps | with_reducible apply State.startCmd_keeps
      | intro _

theorem State.endStranded_keeps {s : State} (hk : s.Has K) : (State.endStranded s).Has K := by
  unfold State.endStranded
  repeat' first
      | with_reducible assumption | with_reducible apply State.jobEnded_keeps | with_reducible apply State.writeResult_keeps
      | with_reducible apply State.deadlineRec_keeps | with_reducible apply State.forEach_keeps
      | with_reducible apply State.forEach_keeps | intro _ | split | dsimp only

theorem State.modeSwitchEnd_keeps {s : State} (hk : s.Has K) : (State.modeSwitchEnd s).Has K := by
  unfold State.modeSwitchEnd
  repeat' first
      | with_reducible assumption | with_reducible apply State.endStranded_keeps | with_reducible apply State.carrierCmd_keeps
      | with_reducible apply State.modeFollow_keeps | with_reducible apply State.startJobs_keeps
      | with_reducible apply State.complete_keeps | with_reducible apply State.forEach_keeps
      | with_reducible apply State.modDec_keeps | with_reducible apply State.forEach_keeps | intro _ | split | dsimp only

theorem execModeSwitchEnd_keeps {s : State} {s₁ : State} (hk : s.Has K) (he : execModeSwitchEnd s = .next s₁) : s₁.Has K := by
  unfold execModeSwitchEnd at he
  obtain rfl := Host.Outcome.next.inj he
  repeat' first
      | with_reducible assumption | with_reducible apply State.modeSwitchEnd_keeps

end Sys2Proof.Machine
end

