-- ==== Sys2Proof/Laws/KeepPool.lean ====
section
/-! SUPPORT. What the operations of Machine/Pool.lean leave alone. -/
set_option linter.all false
set_option Elab.async false

namespace Sys2Proof.Machine

open Sys2Proof

variable {K : Keep}

theorem State.hbmWrite_keeps {s : State} {a : Nat} {bs : List Byte} (hw : K.Hbm) (hk : s.Has K) : (s.hbmWrite a bs).Has K :=
  hw.write _ _ _ _ _ _ hk

theorem State.freeAlloc_keeps {s : State} {h : Nat} (hw : K.Hbm) (hk : s.Has K) : (s.freeAlloc h).Has K :=
  hw.clear _ _ _ _ _ _ hk

end Sys2Proof.Machine
end

