-- ==== Sys2Proof/Laws/KeepHost.lean ====
section
/-! SUPPORT. What the operations of Machine/Host.lean leave alone. -/
set_option linter.all false
set_option Elab.async false

namespace Sys2Proof.Machine

open Sys2Proof

variable {K : Keep}

theorem State.doorbell_keeps {s : State} {fn : Nat} {q : Nat} {v : Nat} (hk : s.Has K) : (State.doorbell s fn q v).Has K := by
  unfold State.doorbell
  repeat' first
      | with_reducible assumption | with_reducible apply State.ringError_keeps | with_reducible apply State.ringIrq_keeps
      | with_reducible apply State.modRing_keeps | intro _ | split | dsimp only

theorem execDoorbell_keeps {fn : Fin 256} {q : Fin 128} {v : W32} {s : State} {s₁ : State} (hk : s.Has K) (he : execDoorbell fn q v s = .next s₁) : s₁.Has K := by
  unfold execDoorbell at he
  obtain rfl := Host.Outcome.next.inj he
  repeat' first
      | with_reducible assumption | with_reducible apply State.doorbell_keeps

theorem execRingReadTimeout_keeps {fn : Fin 256} {q : Fin 128} {s : State} {s₁ : State} (hk : s.Has K) (he : execRingReadTimeout fn q s = .next s₁) : s₁.Has K := by
  unfold execRingReadTimeout at he
  obtain rfl := Host.Outcome.next.inj he
  repeat' first
      | with_reducible assumption | with_reducible apply State.ringError_keeps | split

theorem State.writeCompletion_keeps {s : State} {fn : Nat} {q : Nat} {acc : HostAcc} (hk : s.Has K) : (State.writeCompletion s fn q acc).Has K := by
  unfold State.writeCompletion
  repeat' first
      | with_reducible assumption | with_reducible apply State.translate_keeps
      | with_reducible refine State.translate_of (by with_reducible assumption) ?_ | with_reducible apply State.ringError_keeps
      | with_reducible apply State.ringIrq_keeps | with_reducible apply State.emit_keeps
      | with_reducible apply State.modRing_keeps | intro _ | split | dsimp only

theorem execCompletionWrite_keeps {fn : Fin 256} {q : Fin 128} {acc : HostAcc} {s : State} {s₁ : State} (hk : s.Has K) (he : execCompletionWrite fn q acc s = .next s₁) : s₁.Has K := by
  unfold execCompletionWrite at he
  obtain rfl := Host.Outcome.next.inj he
  repeat' first
      | with_reducible assumption | with_reducible apply State.writeCompletion_keeps

theorem State.writeOutRecord_keeps {s : State} {fn : Nat} {q : Nat} {acc : HostAcc} (hk : s.Has K) : (State.writeOutRecord s fn q acc).Has K := by
  unfold State.writeOutRecord
  repeat' first
      | with_reducible assumption | with_reducible apply State.subStaging_keeps | with_reducible apply State.translate_keeps
      | with_reducible refine State.translate_of (by with_reducible assumption) ?_ | with_reducible apply State.ringError_keeps
      | with_reducible apply State.ringIrq_keeps | with_reducible apply State.emit_keeps
      | with_reducible apply State.forEach_keeps | with_reducible apply State.modRing_keeps
      | with_reducible apply State.forEach_keeps | intro _ | split | dsimp only

theorem execOutRecordWrite_keeps {fn : Fin 256} {q : Fin 128} {acc : HostAcc} {s : State} {s₁ : State} (hk : s.Has K) (he : execOutRecordWrite fn q acc s = .next s₁) : s₁.Has K := by
  unfold execOutRecordWrite at he
  obtain rfl := Host.Outcome.next.inj he
  repeat' first
      | with_reducible assumption | with_reducible apply State.writeOutRecord_keeps

theorem execEvtOverflow_keeps {fn : Fin 256} {s : State} {s₁ : State} (hk : s.Has K) (he : execEvtOverflow fn s = .next s₁) : s₁.Has K := by
  unfold execEvtOverflow at he
  obtain rfl := Host.Outcome.next.inj he
  repeat' first
      | with_reducible assumption | with_reducible apply State.overflowEvt_keeps

theorem State.afterDisable_keeps {s : State} {fn : Nat} {q : Nat} {old : Ring} (hk : s.Has K) : (State.afterDisable s fn q old).Has K := by
  unfold State.afterDisable
  repeat' first
      | with_reducible assumption | with_reducible apply State.subStaging_keeps | with_reducible apply State.dataLost_keeps
      | with_reducible apply State.loseHolder_keeps | with_reducible apply State.forEach_keeps
      | with_reducible apply State.forEach_keeps | intro _ | split

theorem State.functionCommit_keeps {s : State} {fn : Nat} (hk : s.Has K) : (State.functionCommit s fn).Has K := by
  unfold State.functionCommit
  repeat' first
      | with_reducible assumption | with_reducible apply State.afterDisable_keeps | with_reducible apply State.forEach_keeps
      | with_reducible apply State.modRing_keeps | with_reducible apply State.modFn_keeps
      | with_reducible apply State.forEach_keeps | intro _ | split | dsimp only

theorem execFunctionCommit_keeps {fn : Fin 256} {s : State} {s₁ : State} (hk : s.Has K) (he : execFunctionCommit fn s = .next s₁) : s₁.Has K := by
  unfold execFunctionCommit at he
  obtain rfl := Host.Outcome.next.inj he
  repeat' first
      | with_reducible assumption | with_reducible apply State.functionCommit_keeps | intro _

theorem execNop_keeps {c : RingCmd} {s : State} {s₁ : State} (hk : s.Has K) (he : execNop c s = .next s₁) : s₁.Has K := by
  unfold execNop at he
  obtain rfl := Host.Outcome.next.inj he
  repeat' first
      | with_reducible assumption | with_reducible apply State.startCmd_keeps | with_reducible apply State.complete_keeps
      | intro _

theorem State.memAlloc_keeps {s : State} {c : RingCmd} {r : CmdRef} (hk : s.Has K) : (State.memAlloc s c r).Has K := by
  unfold State.memAlloc
  repeat' first
      | with_reducible assumption | with_reducible apply State.refuse_keeps | with_reducible apply State.complete_keeps
      | with_reducible refine State.Has.fold ?_ | simp only [↓State.has_mk] | split | dsimp only

theorem execMemAlloc_keeps {c : RingCmd} {s : State} {s₁ : State} (hk : s.Has K) (he : execMemAlloc c s = .next s₁) : s₁.Has K := by
  unfold execMemAlloc at he
  obtain rfl := Host.Outcome.next.inj he
  repeat' first
      | with_reducible assumption | with_reducible apply State.memAlloc_keeps | with_reducible apply State.startCmd_keeps
      | intro _

theorem State.memFree_keeps {s : State} {c : RingCmd} {r : CmdRef} (hw : K.Hbm) (hk : s.Has K) : (State.memFree s c r).Has K := by
  unfold State.memFree
  repeat' first
      | with_reducible assumption | with_reducible apply State.freeAlloc_keeps (hw := hw)
      | with_reducible apply State.refuse_keeps | with_reducible apply State.complete_keeps | split | dsimp only

theorem execMemFree_keeps {c : RingCmd} {s : State} (hw : K.Hbm) {s₁ : State} (hk : s.Has K) (he : execMemFree c s = .next s₁) : s₁.Has K := by
  unfold execMemFree at he
  obtain rfl := Host.Outcome.next.inj he
  repeat' first
      | with_reducible assumption | with_reducible apply State.memFree_keeps (hw := hw)
      | with_reducible apply State.startCmd_keeps | intro _

theorem State.finishInvals_keeps {s : State} (hk : s.Has K) : (State.finishInvals s).Has K := by
  unfold State.finishInvals
  repeat' first
      | with_reducible assumption | with_reducible apply State.complete_keeps | with_reducible apply State.forEach_keeps
      | with_reducible apply State.forEach_keeps | with_reducible refine State.Has.fold ?_ | simp only [↓State.has_mk] | intro _
      | dsimp only

theorem State.tuInval_keeps {s : State} {c : RingCmd} {r : CmdRef} (hk : s.Has K) : (State.tuInval s c r).Has K := by
  unfold State.tuInval
  repeat' first
      | with_reducible assumption | with_reducible apply State.finishInvals_keeps | with_reducible refine State.Has.fold ?_
      | simp only [↓State.has_mk] | intro _ | dsimp only

theorem execTuInval_keeps {c : RingCmd} {s : State} {s₁ : State} (hk : s.Has K) (he : execTuInval c s = .next s₁) : s₁.Has K := by
  unfold execTuInval at he
  obtain rfl := Host.Outcome.next.inj he
  repeat' first
      | with_reducible assumption | with_reducible apply State.tuInval_keeps | with_reducible apply State.startCmd_keeps
      | intro _

end Sys2Proof.Machine
end

