-- ==== Sys2Proof/Laws/KeepDma.lean ====
section
/-! SUPPORT. What the operations of Machine/Dma.lean leave alone. -/
set_option linter.all false
set_option Elab.async false

namespace Sys2Proof.Machine

open Sys2Proof

variable {K : Keep}

theorem State.dmaGroupStart_keeps {s : State} {ch : Nat} (hk : s.Has K) : (State.dmaGroupStart s ch).Has K := by
  unfold State.dmaGroupStart
  repeat' first
      | with_reducible assumption | with_reducible apply State.modDma_keeps | intro _ | split | dsimp only

theorem State.dmaNext_keeps {s : State} {ch : Nat} (hk : s.Has K) : (State.dmaNext s ch).Has K := by
  unfold State.dmaNext
  repeat' first
      | with_reducible assumption | with_reducible apply State.dmaGroupStart_keeps | with_reducible apply State.modDma_keeps
      | with_reducible refine State.Has.fold ?_ | simp only [↓State.has_mk] | intro _ | split

theorem State.dmaCopy_keeps {s : State} {c : RingCmd} {r : CmdRef} (hk : s.Has K) : (State.dmaCopy s c r).Has K := by
  unfold State.dmaCopy
  repeat' first
      | with_reducible assumption | with_reducible apply State.dmaNext_keeps | with_reducible apply State.refuse_keeps
      | with_reducible apply State.modDma_keeps | intro _ | split | dsimp only

theorem execDmaCopy_keeps {c : RingCmd} {s : State} {s₁ : State} (hk : s.Has K) (he : execDmaCopy c s = .next s₁) : s₁.Has K := by
  unfold execDmaCopy at he
  obtain rfl := Host.Outcome.next.inj he
  repeat' first
      | with_reducible assumption | with_reducible apply State.dmaCopy_keeps | with_reducible apply State.startCmd_keeps
      | intro _

theorem State.setHolder_keeps {s : State} {d : Nat} {k : Nat} {p : Nat} {h : Option Nat} (hk : s.Has K) : (State.setHolder s d k p h).Has K := by
  unfold State.setHolder
  repeat' first
      | with_reducible assumption | with_reducible apply State.modStack_keeps | with_reducible refine State.Has.fold ?_
      | simp only [↓State.has_mk] | intro _

theorem State.hbmGrant_keeps {s : State} {d : Nat} {ch : Nat} (hk : s.Has K) : (State.hbmGrant s d ch).1.Has K := by
  unfold State.hbmGrant
  repeat' first
      | with_reducible assumption | with_reducible apply State.setHolder_keeps | with_reducible apply State.drawFree_keeps
      | with_reducible apply State.modStack_keeps | intro _ | split | dsimp only

theorem State.hbmGrant_of {s : State} {d : Nat} {ch : Nat} {s₁ : State} {r₁ : Bool} (he : State.hbmGrant s d ch = (s₁, r₁)) (hk : s.Has K) : s₁.Has K := by
  have := State.hbmGrant_keeps hk (K := K) (s := s) (d := d) (ch := ch)
  rw [he] at this
  exact this

theorem State.dropGrants_keeps {s : State} {id : Nat} (hk : s.Has K) : (State.dropGrants s id).Has K := by
  unfold State.dropGrants
  repeat' first
      | with_reducible assumption | with_reducible apply State.setHolder_keeps | with_reducible apply State.forEach_keeps
      | with_reducible apply State.forEach_keeps | intro _ | dsimp only

theorem State.dmaRead_keeps {s : State} {t : Nat} {space : Nat} {a : Nat} {n : Nat} {host : List Byte} {acc : HostAcc} (hk : s.Has K) : (State.dmaRead s t space a n host acc).1.Has K := by
  unfold State.dmaRead
  repeat' first
      | with_reducible assumption | with_reducible apply State.translate_keeps
      | with_reducible refine State.translate_of (by with_reducible assumption) ?_ | with_reducible apply State.drawFree_keeps
      | split | dsimp only

theorem State.dmaRead_of {s : State} {t : Nat} {space : Nat} {a : Nat} {n : Nat} {host : List Byte} {acc : HostAcc} {s₁ : State} {r₁ : Except Nat (List Byte)} (he : State.dmaRead s t space a n host acc = (s₁, r₁)) (hk : s.Has K) : s₁.Has K := by
  have := State.dmaRead_keeps hk (K := K) (s := s) (t := t) (space := space) (a := a) (n := n) (host := host) (acc := acc)
  rw [he] at this
  exact this

theorem State.dmaWrite_keeps {s : State} {t : Nat} {space : Nat} {a : Nat} {bs : List Byte} {acc : HostAcc} (hw : K.Hbm) (hk : s.Has K) : (State.dmaWrite s t space a bs acc).1.Has K := by
  unfold State.dmaWrite
  repeat' first
      | with_reducible assumption | with_reducible apply State.hbmWrite_keeps (hw := hw)
      | with_reducible apply State.translate_keeps | with_reducible refine State.translate_of (by with_reducible assumption) ?_
      | with_reducible apply State.emit_keeps | with_reducible apply State.modEGroup_keeps
      | with_reducible apply State.modEng_keeps | intro _ | split | dsimp only

theorem State.dmaWrite_of {s : State} {t : Nat} {space : Nat} {a : Nat} {bs : List Byte} {acc : HostAcc} (hw : K.Hbm) {s₁ : State} {r₁ : Nat} (he : State.dmaWrite s t space a bs acc = (s₁, r₁)) (hk : s.Has K) : s₁.Has K := by
  have := State.dmaWrite_keeps (hw := hw) hk (K := K) (s := s) (t := t) (space := space) (a := a) (bs := bs) (acc := acc)
  rw [he] at this
  exact this

theorem State.modXfer_keeps {s : State} {ch : Nat} {f : Xfer → Xfer} (hk : s.Has K) : (State.modXfer s ch f).Has K := by
  unfold State.modXfer
  repeat' first
      | with_reducible assumption | with_reducible apply State.modDma_keeps | with_reducible refine State.Has.fold ?_
      | simp only [↓State.has_mk] | intro _

theorem State.stopXfer_keeps {s : State} {ch : Nat} {st : Nat} (hk : s.Has K) : (State.stopXfer s ch st).Has K := by
  unfold State.stopXfer
  repeat' first
      | with_reducible assumption | with_reducible apply State.modXfer_keeps | with_reducible apply State.dropGrants_keeps
      | with_reducible refine State.Has.fold ?_ | simp only [↓State.has_mk] | intro _

theorem State.grantAll_keeps {s : State} {ch : Nat} {l : List Nat} (hk : s.Has K) : (s.grantAll ch l).1.Has K := by
  induction l generalizing s with
  | nil => exact hk
  | cons d r ih =>
    unfold State.grantAll
    dsimp only
    split
    · exact ih (State.hbmGrant_keeps hk)
    · exact State.hbmGrant_keeps hk

theorem State.grantAll_of {s s₁ : State} {ch : Nat} {l : List Nat} {b : Bool} (he : s.grantAll ch l = (s₁, b)) (hk : s.Has K) :
    s₁.Has K := by
  have := State.grantAll_keeps (ch := ch) (l := l) hk
  rw [he] at this
  exact this

theorem State.dmaBurst_keeps {s : State} {ch : Nat} {host : List Byte} {srcAcc : HostAcc} {dstAcc : HostAcc} {ending : BurstEnd} (hw : K.Hbm) (hk : s.Has K) : (State.dmaBurst s ch host srcAcc dstAcc ending).Has K := by
  unfold State.dmaBurst
  repeat' first
      | with_reducible assumption | with_reducible apply State.grantAll_keeps
      | with_reducible refine State.grantAll_of (by with_reducible assumption) ?_ | with_reducible apply State.stopXfer_keeps
      | with_reducible apply State.modXfer_keeps | with_reducible apply State.dmaWrite_keeps (hw := hw)
      | with_reducible refine State.dmaWrite_of (hw := hw) (by with_reducible assumption) ?_
      | with_reducible apply State.dmaRead_keeps | with_reducible refine State.dmaRead_of (by with_reducible assumption) ?_
      | with_reducible apply State.dropGrants_keeps | intro _ | split | dsimp only

theorem execDmaBurst_keeps {ch : Fin 32} {hostData : List Byte} {srcAcc : HostAcc} {dstAcc : HostAcc} {ending : BurstEnd} {s : State} (hw : K.Hbm) {s₁ : State} (hk : s.Has K) (he : execDmaBurst ch hostData srcAcc dstAcc ending s = .next s₁) : s₁.Has K := by
  unfold execDmaBurst at he
  obtain rfl := Host.Outcome.next.inj he
  repeat' first
      | with_reducible assumption | with_reducible apply State.dmaBurst_keeps (hw := hw)

theorem State.dmaTimeout_keeps {s : State} {ch : Nat} (hk : s.Has K) : (State.dmaTimeout s ch).Has K := by
  unfold State.dmaTimeout
  repeat' first
      | with_reducible assumption | with_reducible apply State.stopXfer_keeps | split

theorem execDmaReadTimeout_keeps {ch : Fin 32} {s : State} {s₁ : State} (hk : s.Has K) (he : execDmaReadTimeout ch s = .next s₁) : s₁.Has K := by
  unfold execDmaReadTimeout at he
  obtain rfl := Host.Outcome.next.inj he
  repeat' first
      | with_reducible assumption | with_reducible apply State.dmaTimeout_keeps

theorem execDmaWithdrawalEnd_keeps {ch : Fin 32} {die : Fin 4} {stack : Fin 2} {port : Fin 8} {s : State} {s₁ : State} (hk : s.Has K) (he : execDmaWithdrawalEnd ch die stack port s = .next s₁) : s₁.Has K := by
  unfold execDmaWithdrawalEnd at he
  obtain rfl := Host.Outcome.next.inj he
  repeat' first
      | with_reducible assumption | with_reducible apply State.modStack_keeps | with_reducible refine State.Has.fold ?_
      | simp only [↓State.has_mk] | intro _ | dsimp only

theorem State.dmaPulse_keeps {s : State} {ch : Nat} {x : Xfer} (hk : s.Has K) : (State.dmaPulse s ch x).Has K := by
  unfold State.dmaPulse
  repeat' first
      | with_reducible assumption | with_reducible apply State.pulseLine_keeps | with_reducible apply State.completeOpt_keeps
      | with_reducible apply State.modChain_keeps | with_reducible refine State.Has.fold ?_ | simp only [↓State.has_mk]
      | intro _ | split

theorem State.dmaEntryEnd_keeps {s : State} {ch : Nat} {x : Xfer} (hk : s.Has K) : (State.dmaEntryEnd s ch x).Has K := by
  unfold State.dmaEntryEnd
  repeat' first
      | with_reducible assumption | with_reducible apply State.modEGroup_keeps | intro _ | split | dsimp only

theorem State.endXfer_keeps {s : State} {ch : Nat} (hk : s.Has K) : (State.endXfer s ch).Has K := by
  unfold State.endXfer
  repeat' first
      | with_reducible assumption | with_reducible apply State.dmaEntryEnd_keeps | with_reducible apply State.dmaPulse_keeps
      | with_reducible apply State.dropGrants_keeps | with_reducible apply State.dmaNext_keeps
      | with_reducible apply State.pulseInput_keeps | with_reducible apply State.finishInvals_keeps
      | with_reducible apply State.modDma_keeps | intro _ | split | dsimp only

theorem execDmaTransferEnd_keeps {ch : Fin 32} {s : State} {s₁ : State} (hk : s.Has K) (he : execDmaTransferEnd ch s = .next s₁) : s₁.Has K := by
  unfold execDmaTransferEnd at he
  obtain rfl := Host.Outcome.next.inj he
  repeat' first
      | with_reducible assumption | with_reducible apply State.endXfer_keeps | split

theorem State.rerank_keeps {s : State} (hk : s.Has K) : (State.rerank s).Has K := by
  unfold State.rerank
  repeat' first
      | with_reducible assumption | with_reducible apply State.setHolder_keeps | with_reducible apply State.forEach_keeps
      | with_reducible apply State.modStack_keeps | with_reducible apply State.forEach_keeps | intro _ | split | dsimp only

theorem State.arbCommit_keeps {s : State} (hc : K.Comm) (hk : s.Has K) : (State.arbCommit s).Has K := by
  unfold State.arbCommit
  repeat' first
      | with_reducible assumption | with_reducible apply State.rerank_keeps | with_reducible apply State.forEach_keeps
      | with_reducible apply State.setReg_keeps (hc := hc) | with_reducible apply State.forEach_keeps
      | with_reducible refine State.Has.fold ?_ | simp only [↓State.has_mk] | intro _ | dsimp only

theorem execArbCommit_keeps {s : State} (hc : K.Comm) {s₁ : State} (hk : s.Has K) (he : execArbCommit s = .next s₁) : s₁.Has K := by
  unfold execArbCommit at he
  obtain rfl := Host.Outcome.next.inj he
  repeat' first
      | with_reducible assumption | with_reducible apply State.arbCommit_keeps (hc := hc)
      | with_reducible apply State.bar2Write_keeps | intro _ | split

theorem execArbSet_keeps {c : RingCmd} {s : State} (hc : K.Comm) {s₁ : State} (hk : s.Has K) (he : execArbSet c s = .next s₁) : s₁.Has K := by
  unfold execArbSet at he
  obtain rfl := Host.Outcome.next.inj he
  repeat' first
      | with_reducible assumption | with_reducible apply State.arbCommit_keeps (hc := hc)
      | with_reducible apply State.startCmd_keeps | with_reducible apply State.refuse_keeps
      | with_reducible apply State.complete_keeps | with_reducible apply State.forEach_keeps
      | with_reducible apply State.setShadow_keeps | with_reducible apply State.forEach_keeps | intro _ | split | dsimp only

end Sys2Proof.Machine
end

