-- ==== Sys2Proof/Laws/KeepLanes.lean ====
section
/-! SUPPORT. What the operations of Machine/Lanes.lean leave alone. -/
set_option linter.all false
set_option Elab.async false

namespace Sys2Proof.Machine

open Sys2Proof

variable {K : Keep}

theorem State.postLane_keeps {s : State} {id : Nat} {what : Nat} (hk : s.Has K) : (State.postLane s id what).Has K := by
  unfold State.postLane
  repeat' first
      | with_reducible assumption | with_reducible apply State.postEvt_keeps

theorem State.gradeGroup_keeps {s : State} {g : Nat} (hk : s.Has K) : (State.gradeGroup s g).Has K := by
  unfold State.gradeGroup
  repeat' first
      | with_reducible assumption | with_reducible apply State.modGroup_keeps | intro _ | split | dsimp only

theorem State.clearGroup_keeps {s : State} {g : Nat} (hk : s.Has K) : (State.clearGroup s g).Has K := by
  unfold State.clearGroup
  repeat' first
      | with_reducible assumption | with_reducible apply State.tryClose_keeps | with_reducible apply State.forEach_keeps
      | with_reducible apply State.modLane_keeps | with_reducible apply State.forEach_keeps | intro _ | split | dsimp only

theorem State.enableGroup_keeps {s : State} {g : Nat} (hk : s.Has K) : (State.enableGroup s g).Has K := by
  unfold State.enableGroup
  repeat' first
      | with_reducible assumption | with_reducible apply State.clearGroup_keeps | with_reducible apply State.modGroup_keeps
      | intro _

theorem State.disableGroup_keeps {s : State} {g : Nat} (hk : s.Has K) : (State.disableGroup s g).Has K := by
  unfold State.disableGroup
  repeat' first
      | with_reducible assumption | with_reducible apply State.clearGroup_keeps | with_reducible apply State.modGroup_keeps
      | intro _

theorem State.retryGroup_keeps {s : State} {g : Nat} (hk : s.Has K) : (State.retryGroup s g).Has K := by
  unfold State.retryGroup
  repeat' first
      | with_reducible assumption | with_reducible apply State.postLane_keeps | with_reducible apply State.modGroup_keeps
      | intro _ | split | dsimp only

theorem State.stepLanes_keeps {s : State} {g : Nat} {was : LaneState} {now : LaneState} {mask : Nat} {st : GrpState} (hk : s.Has K) : (State.stepLanes s g was now mask st).Has K := by
  unfold State.stepLanes
  repeat' first
      | with_reducible assumption | with_reducible apply State.retryGroup_keeps | with_reducible apply State.forEach_keeps
      | with_reducible apply State.modGroup_keeps | with_reducible apply State.modLane_keeps
      | with_reducible apply State.forEach_keeps | intro _ | split | dsimp only

theorem State.acceptClock_keeps {s : State} {g : Nat} (hk : s.Has K) : (State.acceptClock s g).Has K := by
  unfold State.acceptClock
  repeat' first
      | with_reducible assumption | with_reducible apply State.modGroup_keeps | with_reducible refine State.Has.fold ?_
      | simp only [↓State.has_mk] | intro _ | split

theorem State.closeLane_keeps {s : State} {x : Nat} (hk : s.Has K) : (State.closeLane s x).Has K := by
  unfold State.closeLane
  repeat' first
      | with_reducible assumption | with_reducible apply State.modLane_keeps | with_reducible refine State.Has.fold ?_
      | simp only [↓State.has_mk] | intro _

theorem State.rejectClock_keeps {s : State} {g : Nat} (hk : s.Has K) : (State.rejectClock s g).Has K := by
  unfold State.rejectClock
  repeat' first
      | with_reducible assumption | with_reducible apply State.closeLane_keeps | with_reducible apply State.tryClose_keeps
      | with_reducible apply State.forEach_keeps | with_reducible apply State.modGroup_keeps
      | with_reducible apply State.forEach_keeps | intro _ | split | dsimp only

theorem State.groupWindow_keeps {s : State} {g : Nat} {count : Nat} (hk : s.Has K) : (State.groupWindow s g count).Has K := by
  unfold State.groupWindow
  repeat' first
      | with_reducible assumption | with_reducible apply State.rejectClock_keeps | with_reducible apply State.acceptClock_keeps
      | with_reducible apply State.modGroup_keeps | intro _ | split | dsimp only

theorem execDetectTimeout_keeps {g : Fin 36} {s : State} {s₁ : State} (hk : s.Has K) (he : execDetectTimeout g s = .next s₁) : s₁.Has K := by
  unfold execDetectTimeout at he
  obtain rfl := Host.Outcome.next.inj he
  repeat' first
      | with_reducible assumption | with_reducible apply State.postLane_keeps | with_reducible apply State.modGroup_keeps
      | with_reducible refine State.Has.fold ?_ | simp only [↓State.has_mk] | intro _ | split

theorem execTrainComplete_keeps {g : Fin 36} {s : State} {s₁ : State} (hk : s.Has K) (he : execTrainComplete g s = .next s₁) : s₁.Has K := by
  unfold execTrainComplete at he
  obtain rfl := Host.Outcome.next.inj he
  repeat' first
      | with_reducible assumption | with_reducible apply State.stepLanes_keeps | split

theorem execTrainTimeout_keeps {g : Fin 36} {centred : BitVec 8} {s : State} {s₁ : State} (hk : s.Has K) (he : execTrainTimeout g centred s = .next s₁) : s₁.Has K := by
  unfold execTrainTimeout at he
  obtain rfl := Host.Outcome.next.inj he
  repeat' first
      | with_reducible assumption | with_reducible apply State.stepLanes_keeps | split

theorem execLockComplete_keeps {g : Fin 36} {s : State} {s₁ : State} (hk : s.Has K) (he : execLockComplete g s = .next s₁) : s₁.Has K := by
  unfold execLockComplete at he
  obtain rfl := Host.Outcome.next.inj he
  repeat' first
      | with_reducible assumption | with_reducible apply State.stepLanes_keeps | split

theorem execLockTimeout_keeps {g : Fin 36} {locked : BitVec 8} {s : State} {s₁ : State} (hk : s.Has K) (he : execLockTimeout g locked s = .next s₁) : s₁.Has K := by
  unfold execLockTimeout at he
  obtain rfl := Host.Outcome.next.inj he
  repeat' first
      | with_reducible assumption | with_reducible apply State.stepLanes_keeps | split

theorem State.tsbSets_keeps {s : State} {lane : Nat} {t : Tsb} (hk : s.Has K) : (State.tsbSets s lane t).Has K := by
  unfold State.tsbSets
  repeat' first
      | with_reducible assumption | with_reducible apply State.gradeGroup_keeps | with_reducible apply State.postLane_keeps
      | with_reducible apply State.modGroup_keeps | with_reducible apply State.modLane_keeps | intro _ | split | dsimp only

theorem execTsbSetsReceived_keeps {lane : Fin 288} {tsb : Tsb} {s : State} {s₁ : State} (hk : s.Has K) (he : execTsbSetsReceived lane tsb s = .next s₁) : s₁.Has K := by
  unfold execTsbSetsReceived at he
  obtain rfl := Host.Outcome.next.inj he
  repeat' first
      | with_reducible assumption | with_reducible apply State.tsbSets_keeps

theorem execLaneErrorThreshold_keeps {lane : Fin 288} {s : State} {s₁ : State} (hk : s.Has K) (he : execLaneErrorThreshold lane s = .next s₁) : s₁.Has K := by
  unfold execLaneErrorThreshold at he
  obtain rfl := Host.Outcome.next.inj he
  repeat' first
      | with_reducible assumption | with_reducible apply State.gradeGroup_keeps | with_reducible apply State.tryClose_keeps
      | with_reducible apply State.modLane_keeps | intro _ | split

theorem execLaneRelock_keeps {lane : Fin 288} {s : State} {s₁ : State} (hk : s.Has K) (he : execLaneRelock lane s = .next s₁) : s₁.Has K := by
  unfold execLaneRelock at he
  obtain rfl := Host.Outcome.next.inj he
  repeat' first
      | with_reducible assumption | with_reducible apply State.gradeGroup_keeps | with_reducible apply State.modLane_keeps
      | with_reducible refine State.Has.fold ?_ | simp only [↓State.has_mk] | intro _ | split

theorem execRelockTimeout_keeps {lane : Fin 288} {s : State} {s₁ : State} (hk : s.Has K) (he : execRelockTimeout lane s = .next s₁) : s₁.Has K := by
  unfold execRelockTimeout at he
  obtain rfl := Host.Outcome.next.inj he
  repeat' first
      | with_reducible assumption | with_reducible apply State.closeLane_keeps | with_reducible apply State.gradeGroup_keeps
      | with_reducible apply State.postLane_keeps | split

theorem State.sendLane_keeps {s : State} {x : Nat} (hk : s.Has K) : (State.sendLane s x).Has K := by
  unfold State.sendLane
  repeat' first
      | with_reducible assumption | with_reducible apply State.subStaging_keeps | with_reducible apply State.emit_keeps
      | with_reducible apply State.forEach_keeps | with_reducible apply State.modOutLane_keeps
      | with_reducible apply State.forEach_keeps | intro _ | split | dsimp only

theorem State.endRecord_keeps {s : State} {x : Nat} (hk : s.Has K) : (State.endRecord s x).Has K := by
  unfold State.endRecord
  repeat' first
      | with_reducible assumption | with_reducible apply State.emit_keeps | with_reducible apply State.forEach_keeps
      | with_reducible apply State.modOutLane_keeps | with_reducible apply State.forEach_keeps | intro _ | dsimp only

theorem State.placeAgain_keeps {s : State} {d : Nat} {t : Nat} {bs : List Byte} (hk : s.Has K) : (State.placeAgain s d t bs).Has K := by
  unfold State.placeAgain
  repeat' first
      | with_reducible assumption | with_reducible apply State.subStaging_keeps | with_reducible apply State.dataLost_keeps
      | with_reducible apply State.modOutLane_keeps | with_reducible refine State.Has.fold ?_ | simp only [↓State.has_mk]
      | intro _ | split

theorem State.removeOut_keeps {s : State} {g : Nat} (hk : s.Has K) : (State.removeOut s g).Has K := by
  unfold State.removeOut
  repeat' first
      | with_reducible assumption | with_reducible apply State.placeAgain_keeps | with_reducible apply State.endRecord_keeps
      | with_reducible apply State.forEach_keeps | with_reducible apply State.modOutLane_keeps
      | with_reducible apply State.modOutGrp_keeps | with_reducible apply State.forEach_keeps | intro _ | dsimp only

theorem State.enableOut_keeps {s : State} {g : Nat} (hk : s.Has K) : (State.enableOut s g).Has K := by
  unfold State.enableOut
  repeat' first
      | with_reducible assumption | with_reducible apply State.modOutGrp_keeps | intro _

theorem execOutRxDetect_keeps {g : Fin 8} {detected : BitVec 8} {s : State} {s₁ : State} (hk : s.Has K) (he : execOutRxDetect g detected s = .next s₁) : s₁.Has K := by
  unfold execOutRxDetect at he
  obtain rfl := Host.Outcome.next.inj he
  repeat' first
      | with_reducible assumption | with_reducible apply State.modOutGrp_keeps | with_reducible refine State.Has.fold ?_
      | simp only [↓State.has_mk] | intro _ | split

theorem execOutTrainEnd_keeps {g : Fin 8} {s : State} {s₁ : State} (hk : s.Has K) (he : execOutTrainEnd g s = .next s₁) : s₁.Has K := by
  unfold execOutTrainEnd at he
  obtain rfl := Host.Outcome.next.inj he
  repeat' first
      | with_reducible assumption | with_reducible apply State.modOutGrp_keeps | with_reducible refine State.Has.fold ?_
      | simp only [↓State.has_mk] | intro _ | split

theorem execOutCapsEnd_keeps {g : Fin 8} {s : State} {s₁ : State} (hk : s.Has K) (he : execOutCapsEnd g s = .next s₁) : s₁.Has K := by
  unfold execOutCapsEnd at he
  obtain rfl := Host.Outcome.next.inj he
  repeat' first
      | with_reducible assumption | with_reducible apply State.forEach_keeps | with_reducible apply State.modOutLane_keeps
      | with_reducible apply State.modOutGrp_keeps | with_reducible apply State.forEach_keeps
      | with_reducible refine State.Has.fold ?_ | simp only [↓State.has_mk] | intro _ | split

theorem State.followLaneEn_keeps {s : State} (hk : s.Has K) : (State.followLaneEn s).Has K := by
  unfold State.followLaneEn
  repeat' first
      | with_reducible assumption | with_reducible apply State.enableOut_keeps | with_reducible apply State.removeOut_keeps
      | with_reducible apply State.disableGroup_keeps | with_reducible apply State.enableGroup_keeps
      | with_reducible apply State.forEach_keeps | with_reducible apply State.forEach_keeps | intro _ | split | dsimp only

theorem State.laneMapSwitch_keeps {s : State} {c : RingCmd} {r : CmdRef} (hk : s.Has K) : (State.laneMapSwitch s c r).Has K := by
  unfold State.laneMapSwitch
  repeat' first
      | with_reducible assumption | with_reducible apply State.refuse_keeps | with_reducible apply State.complete_keeps
      | with_reducible apply State.modDie_keeps | intro _ | split | dsimp only

theorem execLaneMapSwitch_keeps {c : RingCmd} {s : State} {s₁ : State} (hk : s.Has K) (he : execLaneMapSwitch c s = .next s₁) : s₁.Has K := by
  unfold execLaneMapSwitch at he
  obtain rfl := Host.Outcome.next.inj he
  repeat' first
      | with_reducible assumption | with_reducible apply State.laneMapSwitch_keeps | with_reducible apply State.startCmd_keeps
      | intro _

theorem State.laneGroupRestart_keeps {s : State} {c : RingCmd} {r : CmdRef} (hk : s.Has K) : (State.laneGroupRestart s c r).Has K := by
  unfold State.laneGroupRestart
  repeat' first
      | with_reducible assumption | with_reducible apply State.enableOut_keeps | with_reducible apply State.removeOut_keeps
      | with_reducible apply State.clearGroup_keeps | with_reducible apply State.refuse_keeps
      | with_reducible apply State.complete_keeps | with_reducible apply State.modGroup_keeps | intro _ | split | dsimp only

theorem execLaneGroupRestart_keeps {c : RingCmd} {s : State} {s₁ : State} (hk : s.Has K) (he : execLaneGroupRestart c s = .next s₁) : s₁.Has K := by
  unfold execLaneGroupRestart at he
  obtain rfl := Host.Outcome.next.inj he
  repeat' first
      | with_reducible assumption | with_reducible apply State.laneGroupRestart_keeps
      | with_reducible apply State.startCmd_keeps | intro _

theorem State.closeWait_keeps {s : State} {d : Nat} (hk : s.Has K) : (State.closeWait s d).Has K := by
  unfold State.closeWait
  repeat' first
      | with_reducible assumption | with_reducible apply State.closeDie_keeps | with_reducible apply State.modGrid_keeps
      | with_reducible refine State.Has.fold ?_ | simp only [↓State.has_mk] | intro _ | split

theorem execCloseWaitExpiry_keeps {die : Fin 4} {s : State} {s₁ : State} (hk : s.Has K) (he : execCloseWaitExpiry die s = .next s₁) : s₁.Has K := by
  unfold execCloseWaitExpiry at he
  obtain rfl := Host.Outcome.next.inj he
  repeat' first
      | with_reducible assumption | with_reducible apply State.closeWait_keeps

end Sys2Proof.Machine
end

