-- ==== Sys2Proof/Laws/KeepResets.lean ====
section
/-! SUPPORT. What the operations of Machine/Resets.lean leave alone. -/
set_option linter.all false
set_option Elab.async false

namespace Sys2Proof.Machine

open Sys2Proof

variable {K : Keep}

theorem State.removePass_keeps {s : State} {d : Nat} {p : Pass} (hk : s.Has K) : (State.removePass s d p).Has K := by
  unfold State.removePass
  repeat' first
      | with_reducible assumption | with_reducible apply State.modDie_keeps | with_reducible refine State.Has.fold ?_
      | simp only [↓State.has_mk] | intro _

theorem State.passNone_keeps {s : State} {d : Nat} {p : Pass} (hk : s.Has K) : (State.passNone s d p).Has K := by
  unfold State.passNone
  repeat' first
      | with_reducible assumption | with_reducible apply State.removePass_keeps
      | with_reducible apply State.endIntegration_keeps | with_reducible apply State.addLoss_keeps | dsimp only

theorem State.cutPass_keeps {s : State} {d : Nat} {p : Pass} (hk : s.Has K) : (State.cutPass s d p).Has K := by
  unfold State.cutPass
  repeat' first
      | with_reducible assumption | with_reducible apply State.passNone_keeps | with_reducible apply State.removePass_keeps
      | with_reducible apply State.endRegular_keeps | with_reducible apply State.drawFree_keeps
      | with_reducible apply State.modDie_keeps | intro _ | split | dsimp only

theorem State.cutPasses_keeps {s : State} {d : Nat} {cut : Pass → Bool} (hk : s.Has K) : (State.cutPasses s d cut).Has K := by
  unfold State.cutPasses
  repeat' first
      | with_reducible assumption | with_reducible apply State.cutPass_keeps | with_reducible apply State.postStatus_keeps
      | with_reducible apply State.forEach_keeps | with_reducible apply State.forEach_keeps | intro _ | dsimp only

theorem State.failCorrections_keeps {s : State} {d : Nat} {p : Part → Bool} (hk : s.Has K) : (State.failCorrections s d p).Has K := by
  unfold State.failCorrections
  repeat' first
      | with_reducible assumption | with_reducible apply State.finishPart_keeps | with_reducible apply State.forEach_keeps
      | with_reducible apply State.modDie_keeps | with_reducible apply State.forEach_keeps
      | with_reducible refine State.Has.fold ?_ | simp only [↓State.has_mk] | intro _ | dsimp only

theorem State.loseResident_keeps {s : State} {d : Nat} {p : Pass} (hk : s.Has K) : (State.loseResident s d p).Has K := by
  unfold State.loseResident
  repeat' first
      | with_reducible assumption | with_reducible apply State.removePass_keeps
      | with_reducible apply State.endIntegration_keeps | with_reducible apply State.modTile_keeps
      | with_reducible apply State.addLoss_keeps | with_reducible apply State.forEach_keeps
      | with_reducible apply State.modSub_keeps | with_reducible apply State.forEach_keeps
      | with_reducible refine State.Has.fold ?_ | simp only [↓State.has_mk] | intro _ | dsimp only

theorem State.tellDie_keeps {s : State} {d : Nat} (hk : s.Has K) : (State.tellDie s d).Has K := by
  unfold State.tellDie
  repeat' first
      | with_reducible assumption | with_reducible apply State.postStatus_keeps | with_reducible apply State.forEach_keeps
      | with_reducible apply State.forEach_keeps | intro _ | dsimp only

theorem State.assertTiles_keeps {s : State} {d : Nat} (hk : s.Has K) : (State.assertTiles s d).Has K := by
  unfold State.assertTiles
  repeat' first
      | with_reducible assumption | with_reducible apply State.tellDie_keeps | with_reducible apply State.loseResident_keeps
      | with_reducible apply State.passNone_keeps | with_reducible apply State.forEach_keeps
      | with_reducible apply State.modDie_keeps | with_reducible apply State.forEach_keeps
      | with_reducible refine State.Has.fold ?_ | simp only [↓State.has_mk] | intro _ | split | dsimp only

theorem State.releaseTiles_keeps {s : State} {d : Nat} (hk : s.Has K) : (State.releaseTiles s d).Has K := by
  unfold State.releaseTiles
  repeat' first
      | with_reducible assumption | with_reducible apply State.startNext_keeps | with_reducible apply State.admitPart_keeps
      | with_reducible apply State.completeFlagPosts_keeps | with_reducible apply State.forEach_keeps
      | with_reducible apply State.modDie_keeps | with_reducible apply State.forEach_keeps
      | with_reducible refine State.Has.fold ?_ | simp only [↓State.has_mk] | intro _ | dsimp only

theorem State.loseHbm_keeps {s : State} {d : Nat} (hw : K.Hbm) (hk : s.Has K) : (State.loseHbm s d).Has K := by
  unfold State.loseHbm
  repeat' first
      | with_reducible assumption | with_reducible apply State.failCorrections_keeps
      | with_reducible apply State.cutPasses_keeps | with_reducible apply State.completeFlagPosts_keeps
      | with_reducible apply State.postStatus_keeps | with_reducible apply State.forEach_keeps
      | with_reducible apply State.modBeam_keeps | with_reducible apply State.modDie_keeps
      | with_reducible apply State.modLane_keeps | with_reducible apply State.forEach_keeps | with_reducible apply foldl_keeps
      | with_reducible refine hw.clear _ _ _ _ _ _ ?_ | with_reducible refine State.Has.fold ?_ | simp only [↓State.has_mk]
      | intro _ | split | dsimp only

theorem State.releaseHbm_keeps {s : State} {d : Nat} {k : Nat} (hk : s.Has K) : (State.releaseHbm s d k).Has K := by
  unfold State.releaseHbm
  repeat' first
      | with_reducible assumption | with_reducible apply State.modStack_keeps | with_reducible apply State.modDie_keeps
      | with_reducible refine State.Has.fold ?_ | simp only [↓State.has_mk] | intro _ | split | dsimp only

theorem State.assertChan_keeps {s : State} {d : Nat} (hk : s.Has K) : (State.assertChan s d).Has K := by
  unfold State.assertChan
  repeat' first
      | with_reducible assumption | with_reducible apply State.tellDie_keeps | with_reducible apply State.modDie_keeps
      | with_reducible apply foldl_keeps | with_reducible refine State.Has.fold ?_ | simp only [↓State.has_mk] | intro _
      | dsimp only

theorem State.releaseChan_keeps {s : State} {d : Nat} (hk : s.Has K) : (State.releaseChan s d).Has K := by
  unfold State.releaseChan
  repeat' first
      | with_reducible assumption | with_reducible apply State.postThr_keeps | with_reducible apply State.forEach_keeps
      | with_reducible apply State.modDie_keeps | with_reducible apply State.forEach_keeps | with_reducible apply foldl_keeps
      | with_reducible refine State.Has.fold ?_ | simp only [↓State.has_mk] | intro _ | split | dsimp only

theorem State.assertLanes_keeps {s : State} {d : Nat} (hk : s.Has K) : (State.assertLanes s d).Has K := by
  unfold State.assertLanes
  repeat' first
      | with_reducible assumption | with_reducible apply State.tellDie_keeps | with_reducible apply State.removeOut_keeps
      | with_reducible apply State.disableGroup_keeps | with_reducible apply State.forEach_keeps
      | with_reducible apply State.forEach_keeps | intro _ | dsimp only

theorem State.releaseLanes_keeps {s : State} {d : Nat} (hk : s.Has K) : (State.releaseLanes s d).Has K := by
  unfold State.releaseLanes
  repeat' first
      | with_reducible assumption | with_reducible apply State.enableOut_keeps | with_reducible apply State.enableGroup_keeps
      | with_reducible apply State.forEach_keeps | with_reducible apply State.forEach_keeps | intro _ | split | dsimp only

theorem State.assertChains_keeps {s : State} (hk : s.Has K) : (State.assertChains s).Has K := by
  unfold State.assertChains
  repeat' first
      | with_reducible assumption | with_reducible apply State.closeBurst_keeps | with_reducible apply State.carrierRec_keeps
      | with_reducible apply State.postStatus_keeps | with_reducible apply State.forEach_keeps
      | with_reducible apply State.modChain_keeps | with_reducible apply State.forEach_keeps | intro _

theorem State.assertEngines_keeps {s : State} {g : Nat} (hk : s.Has K) : (State.assertEngines s g).Has K := by
  unfold State.assertEngines
  repeat' first
      | with_reducible assumption | with_reducible apply State.releaseBinding_keeps | with_reducible apply State.dropTask_keeps
      | with_reducible apply State.complete_keeps | with_reducible apply State.postStatus_keeps
      | with_reducible apply State.forEach_keeps | with_reducible apply State.modEng_keeps
      | with_reducible apply State.forEach_keeps | intro _ | split | dsimp only

theorem State.releaseEngines_keeps {s : State} {g : Nat} (hk : s.Has K) : (State.releaseEngines s g).Has K := by
  unfold State.releaseEngines
  repeat' first
      | with_reducible assumption | with_reducible apply State.startDetections_keeps
      | with_reducible apply State.dispatchAll_keeps | with_reducible apply State.forEach_keeps
      | with_reducible apply State.modEng_keeps | with_reducible apply State.forEach_keeps
      | with_reducible refine State.Has.fold ?_ | simp only [↓State.has_mk] | intro _ | split | dsimp only

theorem State.assertDecoder_keeps {s : State} (hk : s.Has K) : (State.assertDecoder s).Has K := by
  unfold State.assertDecoder
  repeat' first
      | with_reducible assumption | with_reducible apply State.jobEnded_keeps | with_reducible apply State.writeResult_keeps
      | with_reducible apply State.postStatus_keeps | with_reducible apply State.forEach_keeps
      | with_reducible apply State.forEach_keeps | intro _ | dsimp only

theorem State.releaseDecoder_keeps {s : State} (hk : s.Has K) : (State.releaseDecoder s).Has K := by
  unfold State.releaseDecoder
  repeat' first
      | with_reducible assumption | with_reducible apply State.carrierCmd_keeps | with_reducible apply State.startJobs_keeps
      | with_reducible apply State.complete_keeps | with_reducible apply State.forEach_keeps
      | with_reducible apply State.modDec_keeps | with_reducible apply State.forEach_keeps
      | with_reducible refine State.Has.fold ?_ | simp only [↓State.has_mk] | intro _ | dsimp only

theorem State.assertDma_keeps {s : State} (hk : s.Has K) : (State.assertDma s).Has K := by
  unfold State.assertDma
  repeat' first
      | with_reducible assumption | with_reducible apply State.endXfer_keeps | with_reducible apply State.stopXfer_keeps
      | with_reducible apply State.completeOpt_keeps | with_reducible apply State.postStatus_keeps
      | with_reducible apply State.forEach_keeps | with_reducible apply State.modDma_keeps
      | with_reducible apply State.forEach_keeps | intro _ | split | dsimp only

theorem State.releaseDma_keeps {s : State} (hk : s.Has K) : (State.releaseDma s).Has K := by
  unfold State.releaseDma
  repeat' first
      | with_reducible assumption | with_reducible refine State.Has.fold ?_ | simp only [↓State.has_mk] | intro _ | dsimp only

theorem State.assertLocks_keeps {s : State} (hk : s.Has K) : (State.assertLocks s).Has K := by
  unfold State.assertLocks
  repeat' first
      | with_reducible assumption | with_reducible apply State.completeOpt_keeps | with_reducible apply State.forEach_keeps
      | with_reducible apply State.modLock_keeps | with_reducible apply State.forEach_keeps | intro _ | split | dsimp only

theorem State.assertBlock_keeps {s : State} {b : Nat} (hw : K.Hbm) (hk : s.Has K) : (State.assertBlock s b).Has K := by
  unfold State.assertBlock
  repeat' first
      | with_reducible assumption | with_reducible apply State.assertLocks_keeps | with_reducible apply State.assertDma_keeps
      | with_reducible apply State.assertDecoder_keeps | with_reducible apply State.assertEngines_keeps
      | with_reducible apply State.assertChains_keeps | with_reducible apply State.assertLanes_keeps
      | with_reducible apply State.assertChan_keeps | with_reducible apply State.loseHbm_keeps (hw := hw)
      | with_reducible apply State.assertTiles_keeps | with_reducible apply State.tellDie_keeps | split

theorem State.releaseBlock_keeps {s : State} {b : Nat} (hk : s.Has K) : (State.releaseBlock s b).Has K := by
  unfold State.releaseBlock
  repeat' first
      | with_reducible assumption | with_reducible apply State.releaseDma_keeps
      | with_reducible apply State.releaseDecoder_keeps | with_reducible apply State.releaseEngines_keeps
      | with_reducible apply State.releaseLanes_keeps | with_reducible apply State.releaseChan_keeps
      | with_reducible apply State.releaseHbm_keeps | with_reducible apply State.releaseTiles_keeps | split

theorem State.postDie_keeps {s : State} {d : Nat} {what : Nat} (hk : s.Has K) : (State.postDie s d what).Has K := by
  unfold State.postDie
  repeat' first
      | with_reducible assumption | with_reducible apply State.postEvt_keeps

theorem State.dieOff_keeps {s : State} {d : Nat} (hw : K.Hbm) (hk : s.Has K) : (State.dieOff s d).Has K := by
  unfold State.dieOff
  repeat' first
      | with_reducible assumption | with_reducible apply State.postDie_keeps
      | with_reducible apply State.assertBlock_keeps (hw := hw) | with_reducible apply State.forEach_keeps
      | with_reducible apply State.modRst_keeps | with_reducible apply State.modDie_keeps
      | with_reducible apply State.forEach_keeps | with_reducible refine State.Has.fold ?_ | simp only [↓State.has_mk] | intro _
      | split | dsimp only

end Sys2Proof.Machine
end

