-- ==== Sys2Proof/Laws/KeepBoundary.lean ====
section
/-! SUPPORT. What the operations of Machine/Boundary.lean leave alone. -/
set_option linter.all false
set_option Elab.async false

namespace Sys2Proof.Machine

open Sys2Proof

variable {K : Keep}

theorem State.emitFlagmap_keeps {s : State} {d : Nat} {n : Nat} {b : Nat} (hk : s.Has K) : (State.emitFlagmap s d n b).Has K := by
  unfold State.emitFlagmap
  repeat' first
      | with_reducible assumption | with_reducible apply State.emitDie_keeps
      | with_reducible refine State.emitDie_of (by with_reducible assumption) ?_ | with_reducible apply State.forEach_keeps
      | with_reducible apply State.forEach_keeps | intro _ | split | dsimp only

theorem State.flagmaps_keeps {s : State} {d : Nat} {c : Nat} (hk : s.Has K) : (State.flagmaps s d c).Has K := by
  unfold State.flagmaps
  repeat' first
      | with_reducible assumption | with_reducible apply State.emitFlagmap_keeps | with_reducible apply State.forEach_keeps
      | with_reducible apply State.forEach_keeps | intro _ | split | dsimp only

theorem State.endOnDie_keeps {s : State} {d : Nat} {c : Nat} (hk : s.Has K) : (State.endOnDie s d c).Has K := by
  unfold State.endOnDie
  repeat' first
      | with_reducible assumption | with_reducible apply State.flagmaps_keeps | with_reducible apply State.failCorrections_keeps
      | with_reducible apply State.cutPasses_keeps | with_reducible apply State.retireFlags_keeps
      | with_reducible apply State.effectAll_keeps | with_reducible apply State.modDie_keeps
      | with_reducible refine State.Has.fold ?_ | simp only [↓State.has_mk] | intro _ | dsimp only

theorem State.releasePlans_keeps {s : State} {c : Nat} (hk : s.Has K) : (State.releasePlans s c).Has K := by
  unfold State.releasePlans
  repeat' first
      | with_reducible assumption | with_reducible apply State.dropBeam_keeps | with_reducible apply State.dropSub_keeps
      | with_reducible apply State.flushDirect_keeps | with_reducible apply State.forEach_keeps
      | with_reducible apply State.forEach_keeps | intro _ | split | dsimp only

theorem State.dieSetDone_keeps {s : State} (hk : s.Has K) : (State.dieSetDone s).Has K := by
  unfold State.dieSetDone
  repeat' first
      | with_reducible assumption | with_reducible apply State.complete_keeps | with_reducible apply State.forEach_keeps
      | with_reducible apply State.modGrid_keeps | with_reducible apply State.forEach_keeps
      | with_reducible refine State.Has.fold ?_ | simp only [↓State.has_mk] | intro _ | split

theorem State.switchDies_keeps {s : State} (hw : K.Hbm) (hk : s.Has K) : (State.switchDies s).Has K := by
  unfold State.switchDies
  repeat' first
      | with_reducible assumption | with_reducible apply State.dieSetDone_keeps
      | with_reducible apply State.dieOff_keeps (hw := hw) | with_reducible apply State.forEach_keeps
      | with_reducible apply State.forEach_keeps | with_reducible refine State.Has.fold ?_ | simp only [↓State.has_mk] | intro _
      | split | dsimp only

theorem State.beginBlock_keeps {s : State} {d : Nat} {c : Nat} {n : Nat} {ps : List (List Job)} (hk : s.Has K) : (State.beginBlock s d c n ps).Has K := by
  unfold State.beginBlock
  repeat' first
      | with_reducible assumption | with_reducible apply State.cutPasses_keeps | with_reducible apply State.modSub_keeps
      | with_reducible apply State.modDie_keeps | intro _ | split | dsimp only

theorem State.notePlan_keeps {s : State} {c : Nat} {n : Nat} (hk : s.Has K) : (State.notePlan s c n).Has K := by
  unfold State.notePlan
  repeat' first
      | with_reducible assumption | with_reducible apply State.modSub_keeps | intro _ | split | dsimp only

theorem State.repack_keeps {s : State} {d : Nat} {cs : List Clus} (hk : s.Has K) : (State.repack s d cs).Has K := by
  unfold State.repack
  repeat' first
      | with_reducible assumption | with_reducible apply State.forEach_keeps | with_reducible apply State.modDie_keeps
      | with_reducible apply State.forEach_keeps | with_reducible apply foldl_keeps | intro _ | dsimp only

theorem State.setBeamTiles_keeps {s : State} {p : DiePart} (hk : s.Has K) : (State.setBeamTiles s p).Has K := by
  unfold State.setBeamTiles
  repeat' first
      | with_reducible assumption | with_reducible apply State.modDie_keeps | with_reducible apply foldl_keeps
      | with_reducible refine State.Has.fold ?_ | simp only [↓State.has_mk] | intro _ | dsimp only

theorem State.withhold_keeps {s : State} (hk : s.Has K) : (State.withhold s).Has K := by
  unfold State.withhold
  repeat' first
      | with_reducible assumption | with_reducible apply State.modTile_keeps | with_reducible apply State.forEach_keeps
      | with_reducible apply State.forEach_keeps | with_reducible refine State.Has.fold ?_ | simp only [↓State.has_mk] | intro _
      | dsimp only

theorem State.beginOnDie_keeps {s : State} {c : Nat} {p : DiePart} (hk : s.Has K) : (State.beginOnDie s c p).Has K := by
  unfold State.beginOnDie
  repeat' first
      | with_reducible assumption | with_reducible apply State.setBeamTiles_keeps | with_reducible apply State.repack_keeps
      | with_reducible apply State.beginBlock_keeps | with_reducible apply State.startNext_keeps
      | with_reducible apply State.forEach_keeps | with_reducible apply State.forEach_keeps | intro _ | split | dsimp only

theorem State.countPeriod_keeps {s : State} (hk : s.Has K) : (State.countPeriod s).Has K := by
  unfold State.countPeriod
  repeat' first
      | with_reducible assumption | with_reducible apply State.forEach_keeps | with_reducible apply State.modDie_keeps
      | with_reducible apply State.modFn_keeps | with_reducible apply State.forEach_keeps | intro _ | split | dsimp only

theorem State.sleepStop_keeps {s : State} {c : Nat} (hk : s.Has K) : (State.sleepStop s c).Has K := by
  unfold State.sleepStop
  repeat' first
      | with_reducible assumption | with_reducible apply State.endBeam_keeps | with_reducible apply State.dropBeam_keeps
      | with_reducible apply State.dropSub_keeps | with_reducible apply State.takeHalt_keeps
      | with_reducible apply State.freeChain_keeps | with_reducible apply State.modeFollow_keeps
      | with_reducible apply State.completeOpt_keeps | with_reducible apply State.forEach_keeps
      | with_reducible apply State.modRst_keeps | with_reducible apply State.modSub_keeps
      | with_reducible apply State.forEach_keeps | with_reducible refine State.Has.fold ?_ | simp only [↓State.has_mk] | intro _
      | dsimp only

theorem State.boundaryAt_keeps {s : State} {c : Nat} (hw : K.Hbm) (hk : s.Has K) : (State.boundaryAt s c).Has K := by
  unfold State.boundaryAt
  repeat' first
      | with_reducible assumption | with_reducible apply State.sleepStop_keeps | with_reducible apply State.countPeriod_keeps
      | with_reducible apply State.beginOnDie_keeps | with_reducible apply State.withhold_keeps
      | with_reducible apply State.notePlan_keeps | with_reducible apply State.switchDies_keeps (hw := hw)
      | with_reducible apply State.releasePlans_keeps | with_reducible apply State.endOnDie_keeps
      | with_reducible apply State.freezeAt_keeps | with_reducible apply State.completeFlagPosts_keeps
      | with_reducible apply State.tryClose_keeps | with_reducible apply State.noteWork_keeps
      | with_reducible apply State.forEach_keeps | with_reducible apply State.modGrid_keeps
      | with_reducible apply State.forEach_keeps | with_reducible refine State.Has.fold ?_ | simp only [↓State.has_mk] | intro _
      | split | dsimp only

theorem State.blockBoundary_keeps {s : State} (hw : K.Hbm) (hk : s.Has K) : (State.blockBoundary s).Has K := by
  unfold State.blockBoundary
  repeat' first
      | with_reducible assumption | with_reducible apply State.boundaryAt_keeps (hw := hw) | split

theorem execBlockBoundary_keeps {s : State} (hw : K.Hbm) {s₁ : State} (hk : s.Has K) (he : execBlockBoundary s = .next s₁) : s₁.Has K := by
  unfold execBlockBoundary at he
  obtain rfl := Host.Outcome.next.inj he
  repeat' first
      | with_reducible assumption | with_reducible apply State.blockBoundary_keeps (hw := hw)

end Sys2Proof.Machine
end

