-- ==== Sys2Proof/Laws/KeepEngine.lean ====
section
/-! SUPPORT. What the operations of Machine/Engine.lean leave alone. -/
set_option linter.all false
set_option Elab.async false

namespace Sys2Proof.Machine

open Sys2Proof

variable {K : Keep}

theorem State.aluFree_keeps {s : State} {e : Nat} {o : EngOp} {f : Eng → Bool → Eng} (hk : s.Has K) : (State.aluFree s e o f).Has K := by
  unfold State.aluFree
  repeat' first
      | with_reducible assumption | with_reducible apply State.issue_keeps | with_reducible apply State.drawFree_keeps
      | with_reducible apply State.modEng_keeps | intro s₂ s₃ hk₂ he₂ | obtain rfl := Except.ok.inj he₂ | split at he₂
      | cases he₂ | dsimp only at he₂ | intro _

theorem execEngineNop_keeps {e : Fin 96} {o : EngOp} {s : State} {s₁ : State} (hk : s.Has K) (he : execEngineNop e o s = .next s₁) : s₁.Has K := by
  unfold execEngineNop at he
  obtain rfl := Host.Outcome.next.inj he
  repeat' first
      | with_reducible assumption | with_reducible apply State.issueEng_keeps

theorem execAdd_keeps {e : Fin 96} {o : EngOp} {dst : Fin 16} {x : Fin 16} {y : Fin 16} {s : State} {s₁ : State} (hk : s.Has K) (he : execAdd e o dst x y s = .next s₁) : s₁.Has K := by
  unfold execAdd at he
  obtain rfl := Host.Outcome.next.inj he
  repeat' first
      | with_reducible assumption | with_reducible apply State.issueEng_keeps | intro _

theorem execSub_keeps {e : Fin 96} {o : EngOp} {dst : Fin 16} {x : Fin 16} {y : Fin 16} {s : State} {s₁ : State} (hk : s.Has K) (he : execSub e o dst x y s = .next s₁) : s₁.Has K := by
  unfold execSub at he
  obtain rfl := Host.Outcome.next.inj he
  repeat' first
      | with_reducible assumption | with_reducible apply State.aluFree_keeps | intro _

theorem execNeg_keeps {e : Fin 96} {o : EngOp} {dst : Fin 16} {x : Fin 16} {s : State} {s₁ : State} (hk : s.Has K) (he : execNeg e o dst x s = .next s₁) : s₁.Has K := by
  unfold execNeg at he
  obtain rfl := Host.Outcome.next.inj he
  repeat' first
      | with_reducible assumption | with_reducible apply State.aluFree_keeps | intro _

theorem execAbs_keeps {e : Fin 96} {o : EngOp} {dst : Fin 16} {x : Fin 16} {s : State} {s₁ : State} (hk : s.Has K) (he : execAbs e o dst x s = .next s₁) : s₁.Has K := by
  unfold execAbs at he
  obtain rfl := Host.Outcome.next.inj he
  repeat' first
      | with_reducible assumption | with_reducible apply State.aluFree_keeps | intro _

theorem execCmp_keeps {e : Fin 96} {o : EngOp} {x : Fin 16} {y : Fin 16} {s : State} {s₁ : State} (hk : s.Has K) (he : execCmp e o x y s = .next s₁) : s₁.Has K := by
  unfold execCmp at he
  obtain rfl := Host.Outcome.next.inj he
  repeat' first
      | with_reducible assumption | with_reducible apply State.aluFree_keeps | intro _

theorem execMin_keeps {e : Fin 96} {o : EngOp} {dst : Fin 16} {x : Fin 16} {y : Fin 16} {s : State} {s₁ : State} (hk : s.Has K) (he : execMin e o dst x y s = .next s₁) : s₁.Has K := by
  unfold execMin at he
  obtain rfl := Host.Outcome.next.inj he
  repeat' first
      | with_reducible assumption | with_reducible apply State.aluFree_keeps | intro _

theorem execMax_keeps {e : Fin 96} {o : EngOp} {dst : Fin 16} {x : Fin 16} {y : Fin 16} {s : State} {s₁ : State} (hk : s.Has K) (he : execMax e o dst x y s = .next s₁) : s₁.Has K := by
  unfold execMax at he
  obtain rfl := Host.Outcome.next.inj he
  repeat' first
      | with_reducible assumption | with_reducible apply State.aluFree_keeps | intro _

theorem execAnd_keeps {e : Fin 96} {o : EngOp} {dst : Fin 16} {x : Fin 16} {y : Fin 16} {s : State} {s₁ : State} (hk : s.Has K) (he : execAnd e o dst x y s = .next s₁) : s₁.Has K := by
  unfold execAnd at he
  obtain rfl := Host.Outcome.next.inj he
  repeat' first
      | with_reducible assumption | with_reducible apply State.issueEng_keeps | intro _

theorem execOr_keeps {e : Fin 96} {o : EngOp} {dst : Fin 16} {x : Fin 16} {y : Fin 16} {s : State} {s₁ : State} (hk : s.Has K) (he : execOr e o dst x y s = .next s₁) : s₁.Has K := by
  unfold execOr at he
  obtain rfl := Host.Outcome.next.inj he
  repeat' first
      | with_reducible assumption | with_reducible apply State.issueEng_keeps | intro _

theorem execXor_keeps {e : Fin 96} {o : EngOp} {dst : Fin 16} {x : Fin 16} {y : Fin 16} {s : State} {s₁ : State} (hk : s.Has K) (he : execXor e o dst x y s = .next s₁) : s₁.Has K := by
  unfold execXor at he
  obtain rfl := Host.Outcome.next.inj he
  repeat' first
      | with_reducible assumption | with_reducible apply State.issueEng_keeps | intro _

theorem execShl_keeps {e : Fin 96} {o : EngOp} {dst : Fin 16} {x : Fin 16} {sh : Fin 25} {s : State} {s₁ : State} (hk : s.Has K) (he : execShl e o dst x sh s = .next s₁) : s₁.Has K := by
  unfold execShl at he
  obtain rfl := Host.Outcome.next.inj he
  repeat' first
      | with_reducible assumption | with_reducible apply State.issueEng_keeps | intro _

theorem execShr_keeps {e : Fin 96} {o : EngOp} {dst : Fin 16} {x : Fin 16} {sh : Fin 25} {s : State} {s₁ : State} (hk : s.Has K) (he : execShr e o dst x sh s = .next s₁) : s₁.Has K := by
  unfold execShr at he
  obtain rfl := Host.Outcome.next.inj he
  repeat' first
      | with_reducible assumption | with_reducible apply State.issueEng_keeps | intro _

theorem execSha_keeps {e : Fin 96} {o : EngOp} {dst : Fin 16} {x : Fin 16} {sh : Fin 25} {s : State} {s₁ : State} (hk : s.Has K) (he : execSha e o dst x sh s = .next s₁) : s₁.Has K := by
  unfold execSha at he
  obtain rfl := Host.Outcome.next.inj he
  repeat' first
      | with_reducible assumption | with_reducible apply State.issueEng_keeps | intro _

theorem execMac_keeps {e : Fin 96} {o : EngOp} {acc : Fin 4} {x : Fin 16} {y : Fin 16} {s : State} {s₁ : State} (hk : s.Has K) (he : execMac e o acc x y s = .next s₁) : s₁.Has K := by
  unfold execMac at he
  obtain rfl := Host.Outcome.next.inj he
  repeat' first
      | with_reducible assumption | with_reducible apply State.issueEng_keeps | intro _

theorem execMsu_keeps {e : Fin 96} {o : EngOp} {acc : Fin 4} {x : Fin 16} {y : Fin 16} {s : State} {s₁ : State} (hk : s.Has K) (he : execMsu e o acc x y s = .next s₁) : s₁.Has K := by
  unfold execMsu at he
  obtain rfl := Host.Outcome.next.inj he
  repeat' first
      | with_reducible assumption | with_reducible apply State.issueEng_keeps | intro _

theorem execMac2_keeps {e : Fin 96} {o : EngOp} {acc1 : Fin 4} {acc2 : Fin 4} {x1 : Fin 16} {y1 : Fin 16} {x2 : Fin 16} {y2 : Fin 16} {s : State} {s₁ : State} (hk : s.Has K) (he : execMac2 e o acc1 acc2 x1 y1 x2 y2 s = .next s₁) : s₁.Has K := by
  unfold execMac2 at he
  obtain rfl := Host.Outcome.next.inj he
  repeat' first
      | with_reducible assumption | with_reducible apply State.issueEng_keeps | intro _

theorem execCmac_keeps {e : Fin 96} {o : EngOp} {pair : Fin 2} {x : Fin 8} {y : Fin 8} {s : State} {s₁ : State} (hk : s.Has K) (he : execCmac e o pair x y s = .next s₁) : s₁.Has K := by
  unfold execCmac at he
  obtain rfl := Host.Outcome.next.inj he
  repeat' first
      | with_reducible assumption | with_reducible apply State.issueEng_keeps | intro _

theorem execCmacj_keeps {e : Fin 96} {o : EngOp} {pair : Fin 2} {x : Fin 8} {y : Fin 8} {s : State} {s₁ : State} (hk : s.Has K) (he : execCmacj e o pair x y s = .next s₁) : s₁.Has K := by
  unfold execCmacj at he
  obtain rfl := Host.Outcome.next.inj he
  repeat' first
      | with_reducible assumption | with_reducible apply State.issueEng_keeps | intro _

theorem execLmsu_keeps {e : Fin 96} {o : EngOp} {ag : Fin 8} {mu : Fin 16} {err : Fin 8} {x : Fin 8} {sh : Fin 64} {s : State} {s₁ : State} (hk : s.Has K) (he : execLmsu e o ag mu err x sh s = .next s₁) : s₁.Has K := by
  unfold execLmsu at he
  obtain rfl := Host.Outcome.next.inj he
  repeat' first
      | with_reducible assumption | with_reducible apply State.issue_keeps | with_reducible apply State.modEng_keeps
      | intro s₂ s₃ hk₂ he₂ | obtain rfl := Except.ok.inj he₂ | split at he₂ | cases he₂ | dsimp only at he₂ | intro _ | split

theorem execRnd_keeps {e : Fin 96} {o : EngOp} {dst : Fin 16} {acc : Fin 4} {sh : Fin 33} {s : State} {s₁ : State} (hk : s.Has K) (he : execRnd e o dst acc sh s = .next s₁) : s₁.Has K := by
  unfold execRnd at he
  obtain rfl := Host.Outcome.next.inj he
  repeat' first
      | with_reducible assumption | with_reducible apply State.issueEng_keeps | intro _ | dsimp only

theorem execMva_keeps {e : Fin 96} {o : EngOp} {acc : Fin 4} {x : Fin 16} {sh : Fin 33} {s : State} {s₁ : State} (hk : s.Has K) (he : execMva e o acc x sh s = .next s₁) : s₁.Has K := by
  unfold execMva at he
  obtain rfl := Host.Outcome.next.inj he
  repeat' first
      | with_reducible assumption | with_reducible apply State.issueEng_keeps | intro _

theorem execClr_keeps {e : Fin 96} {o : EngOp} {acc : Fin 4} {s : State} {s₁ : State} (hk : s.Has K) (he : execClr e o acc s = .next s₁) : s₁.Has K := by
  unfold execClr at he
  obtain rfl := Host.Outcome.next.inj he
  repeat' first
      | with_reducible assumption | with_reducible apply State.issueEng_keeps | intro _

theorem execAgset_keeps {e : Fin 96} {o : EngOp} {ag : Fin 8} {f : AgField} {src : ImmOrD} {s : State} {s₁ : State} (hk : s.Has K) (he : execAgset e o ag f src s = .next s₁) : s₁.Has K := by
  unfold execAgset at he
  obtain rfl := Host.Outcome.next.inj he
  repeat' first
      | with_reducible assumption | with_reducible apply State.issueEng_keeps | intro _ | split

theorem execAgget_keeps {e : Fin 96} {o : EngOp} {dst : Fin 16} {ag : Fin 8} {f : AgField} {s : State} {s₁ : State} (hk : s.Has K) (he : execAgget e o dst ag f s = .next s₁) : s₁.Has K := by
  unfold execAgget at he
  obtain rfl := Host.Outcome.next.inj he
  repeat' first
      | with_reducible assumption | with_reducible apply State.issueEng_keeps | intro _ | split | dsimp only

theorem State.memOp_keeps {s : State} {e : Nat} {o : EngOp} {f : Field} {ok : Nat → Bool} {start : Eng → Nat → Eng} (hk : s.Has K) : (State.memOp s e o f ok start).Has K := by
  unfold State.memOp
  repeat' first
      | with_reducible assumption | with_reducible apply State.issue_keeps | with_reducible apply State.modEng_keeps
      | intro s₂ s₃ hk₂ he₂ | obtain rfl := Except.ok.inj he₂ | split at he₂ | cases he₂ | dsimp only at he₂ | intro _ | split
      | dsimp only

theorem execLd_keeps {e : Fin 96} {o : EngOp} {bus : EBus} {dst : Fin 16} {ag : Fin 8} {adv : Bool} {s : State} {s₁ : State} (hk : s.Has K) (he : execLd e o bus dst ag adv s = .next s₁) : s₁.Has K := by
  unfold execLd at he
  obtain rfl := Host.Outcome.next.inj he
  repeat' first
      | with_reducible assumption | with_reducible apply State.memOp_keeps | intro _ | dsimp only

theorem execSt_keeps {e : Fin 96} {o : EngOp} {bus : EBus} {src : Fin 16} {ag : Fin 8} {adv : Bool} {s : State} {s₁ : State} (hk : s.Has K) (he : execSt e o bus src ag adv s = .next s₁) : s₁.Has K := by
  unfold execSt at he
  obtain rfl := Host.Outcome.next.inj he
  repeat' first
      | with_reducible assumption | with_reducible apply State.memOp_keeps | intro _ | dsimp only

theorem execLdh_keeps {e : Fin 96} {o : EngOp} {bus : EBus} {dst : Fin 16} {ag : Fin 8} {adv : Bool} {s : State} {s₁ : State} (hk : s.Has K) (he : execLdh e o bus dst ag adv s = .next s₁) : s₁.Has K := by
  unfold execLdh at he
  split at he
  · cases he
  · obtain rfl := Host.Outcome.next.inj he
    repeat' first
      | with_reducible assumption | with_reducible apply State.memOp_keeps | intro _ | split | dsimp only

theorem execLdg_keeps {e : Fin 96} {o : EngOp} {bus : EBus} {dst : Fin 16} {ag : Fin 8} {adv : Bool} {s : State} {s₁ : State} (hk : s.Has K) (he : execLdg e o bus dst ag adv s = .next s₁) : s₁.Has K := by
  unfold execLdg at he
  obtain rfl := Host.Outcome.next.inj he
  repeat' first
      | with_reducible assumption | with_reducible apply State.memOp_keeps | intro _ | dsimp only

theorem execStg_keeps {e : Fin 96} {o : EngOp} {bus : EBus} {src : Fin 16} {ag : Fin 8} {adv : Bool} {s : State} {s₁ : State} (hk : s.Has K) (he : execStg e o bus src ag adv s = .next s₁) : s₁.Has K := by
  unfold execStg at he
  obtain rfl := Host.Outcome.next.inj he
  repeat' first
      | with_reducible assumption | with_reducible apply State.memOp_keeps | intro _ | dsimp only

theorem execMvm_keeps {e : Fin 96} {o : EngOp} {toMain : Bool} {src : EngReg} {dst : EngReg} {s : State} {s₁ : State} (hk : s.Has K) (he : execMvm e o toMain src dst s = .next s₁) : s₁.Has K := by
  unfold execMvm at he
  obtain rfl := Host.Outcome.next.inj he
  repeat' first
      | with_reducible assumption | with_reducible apply State.issue_keeps | with_reducible apply State.modEng_keeps
      | with_reducible refine State.Has.fold ?_ | simp only [↓State.has_mk] | intro s₂ s₃ hk₂ he₂
      | obtain rfl := Except.ok.inj he₂ | split at he₂ | cases he₂ | dsimp only at he₂ | intro _ | split | dsimp only

theorem execBr_keeps {e : Fin 96} {o : EngOp} {target : BitVec 13} {s : State} {s₁ : State} (hk : s.Has K) (he : execBr e o target s = .next s₁) : s₁.Has K := by
  unfold execBr at he
  obtain rfl := Host.Outcome.next.inj he
  repeat' first
      | with_reducible assumption | with_reducible refine State.engBody_of (by with_reducible assumption) ?_
      | with_reducible apply State.issue_keeps | intro s₂ s₃ hk₂ he₂ | obtain rfl := Except.ok.inj he₂ | split at he₂
      | cases he₂ | dsimp only at he₂ | intro _

theorem execBrc_keeps {e : Fin 96} {o : EngOp} {cond : Cond} {target : BitVec 13} {s : State} {s₁ : State} (hk : s.Has K) (he : execBrc e o cond target s = .next s₁) : s₁.Has K := by
  unfold execBrc at he
  obtain rfl := Host.Outcome.next.inj he
  repeat' first
      | with_reducible assumption | with_reducible refine State.engBody_of (by with_reducible assumption) ?_
      | with_reducible apply State.issue_keeps | intro s₂ s₃ hk₂ he₂ | obtain rfl := Except.ok.inj he₂ | split at he₂
      | cases he₂ | dsimp only at he₂ | intro _ | split

theorem execCall_keeps {e : Fin 96} {o : EngOp} {target : BitVec 13} {s : State} {s₁ : State} (hk : s.Has K) (he : execCall e o target s = .next s₁) : s₁.Has K := by
  unfold execCall at he
  obtain rfl := Host.Outcome.next.inj he
  repeat' first
      | with_reducible assumption | with_reducible apply State.issue_keeps | with_reducible apply State.modEng_keeps
      | with_reducible refine State.Has.fold ?_ | simp only [↓State.has_mk] | intro s₂ s₃ hk₂ he₂
      | obtain rfl := Except.ok.inj he₂ | split at he₂ | cases he₂ | dsimp only at he₂ | intro _ | split

theorem execRet_keeps {e : Fin 96} {o : EngOp} {s : State} {s₁ : State} (hk : s.Has K) (he : execRet e o s = .next s₁) : s₁.Has K := by
  unfold execRet at he
  obtain rfl := Host.Outcome.next.inj he
  repeat' first
      | with_reducible assumption | with_reducible apply State.issue_keeps | with_reducible apply State.modEng_keeps
      | with_reducible refine State.Has.fold ?_ | simp only [↓State.has_mk] | intro s₂ s₃ hk₂ he₂
      | obtain rfl := Except.ok.inj he₂ | split at he₂ | cases he₂ | dsimp only at he₂ | intro _ | split

theorem execDbnz_keeps {e : Fin 96} {o : EngOp} {target : BitVec 13} {s : State} {s₁ : State} (hk : s.Has K) (he : execDbnz e o target s = .next s₁) : s₁.Has K := by
  unfold execDbnz at he
  obtain rfl := Host.Outcome.next.inj he
  repeat' first
      | with_reducible assumption | with_reducible refine State.engBody_of (by with_reducible assumption) ?_
      | with_reducible apply State.issue_keeps | intro s₂ s₃ hk₂ he₂ | obtain rfl := Except.ok.inj he₂ | split at he₂
      | cases he₂ | dsimp only at he₂ | intro _ | split | dsimp only

theorem execLoop_keeps {e : Fin 96} {o : EngOp} {n : LoopCount} {len : Nat} {s : State} {s₁ : State} (hk : s.Has K) (he : execLoop e o n len s = .next s₁) : s₁.Has K := by
  unfold execLoop at he
  split at he
  · cases he
  · obtain rfl := Host.Outcome.next.inj he
    repeat' first
      | with_reducible assumption | with_reducible apply State.issue_keeps | with_reducible apply State.modEng_keeps
      | intro s₂ s₃ hk₂ he₂ | obtain rfl := Except.ok.inj he₂ | split at he₂ | cases he₂ | dsimp only at he₂ | intro _ | split
      | dsimp only

theorem execRti_keeps {e : Fin 96} {o : EngOp} {s : State} {s₁ : State} (hk : s.Has K) (he : execRti e o s = .next s₁) : s₁.Has K := by
  unfold execRti at he
  obtain rfl := Host.Outcome.next.inj he
  repeat' first
      | with_reducible assumption | with_reducible apply State.returnMain_keeps | with_reducible apply State.issueThen_keeps
      | intro s₂ s₃ hk₂ he₂ | obtain rfl := Except.ok.inj he₂ | split at he₂ | cases he₂ | dsimp only at he₂ | intro _ | split

theorem execWaite_keeps {e : Fin 96} {o : EngOp} {mask : BitVec 64} {s : State} {s₁ : State} (hk : s.Has K) (he : execWaite e o mask s = .next s₁) : s₁.Has K := by
  unfold execWaite at he
  obtain rfl := Host.Outcome.next.inj he
  repeat' first
      | with_reducible assumption | with_reducible apply State.issueThen_keeps | with_reducible apply State.drawFree_keeps
      | with_reducible apply State.modEng_keeps | intro s₂ s₃ hk₂ he₂ | obtain rfl := Except.ok.inj he₂ | split at he₂
      | cases he₂ | dsimp only at he₂ | intro _ | split | dsimp only

theorem execEvs_keeps {e : Fin 96} {o : EngOp} {line : Fin 64} {s : State} {s₁ : State} (hk : s.Has K) (he : execEvs e o line s = .next s₁) : s₁.Has K := by
  unfold execEvs at he
  obtain rfl := Host.Outcome.next.inj he
  repeat' first
      | with_reducible assumption | with_reducible apply State.dmaGroupStart_keeps | with_reducible apply State.issue_keeps
      | with_reducible apply State.pulseLine_keeps | with_reducible apply State.forEach_keeps
      | with_reducible apply State.forEach_keeps | intro s₂ s₃ hk₂ he₂ | obtain rfl := Except.ok.inj he₂ | split at he₂
      | cases he₂ | dsimp only at he₂ | intro _ | split | dsimp only

theorem execClre_keeps {e : Fin 96} {o : EngOp} {input : Fin 64} {s : State} {s₁ : State} (hk : s.Has K) (he : execClre e o input s = .next s₁) : s₁.Has K := by
  unfold execClre at he
  obtain rfl := Host.Outcome.next.inj he
  repeat' first
      | with_reducible assumption | with_reducible apply State.issueEng_keeps | with_reducible refine State.Has.fold ?_
      | simp only [↓State.has_mk] | intro _

theorem execWbk_keeps {e : Fin 96} {o : EngOp} {chain : Fin 16} {gen : Fin 16} {freqLo : Fin 16} {freqHi : Fin 16} {time : Fin 16} {close : Fin 16} {evm : Fin 16} {s : State} {s₁ : State} (hk : s.Has K) (he : execWbk e o chain gen freqLo freqHi time close evm s = .next s₁) : s₁.Has K := by
  unfold execWbk at he
  obtain rfl := Host.Outcome.next.inj he
  repeat' first
      | with_reducible assumption | with_reducible apply State.issue_keeps | with_reducible apply State.modEng_keeps
      | with_reducible apply State.modChain_keeps | intro s₂ s₃ hk₂ he₂ | obtain rfl := Except.ok.inj he₂ | split at he₂
      | cases he₂ | dsimp only at he₂ | intro _ | split | dsimp only

theorem execFlg_keeps {e : Fin 96} {o : EngOp} {ag : Fin 8} {s : State} {s₁ : State} (hk : s.Has K) (he : execFlg e o ag s = .next s₁) : s₁.Has K := by
  unfold execFlg at he
  obtain rfl := Host.Outcome.next.inj he
  repeat' first
      | with_reducible assumption | with_reducible apply State.flagPort_keeps | with_reducible apply State.issue_keeps
      | intro s₂ s₃ hk₂ he₂ | obtain rfl := Except.ok.inj he₂ | split at he₂ | cases he₂ | dsimp only at he₂ | intro _ | split
      | dsimp only

theorem execBpb_keeps {e : Fin 96} {o : EngOp} {c : BitVec 10} {s : State} {s₁ : State} (hk : s.Has K) (he : execBpb e o c s = .next s₁) : s₁.Has K := by
  unfold execBpb at he
  obtain rfl := Host.Outcome.next.inj he
  repeat' first
      | with_reducible assumption | with_reducible refine State.bindPort_of (by with_reducible assumption) ?_
      | with_reducible apply State.issue_keeps | intro s₂ s₃ hk₂ he₂ | obtain rfl := Except.ok.inj he₂ | split at he₂
      | cases he₂ | dsimp only at he₂ | intro _

theorem execDsub_keeps {e : Fin 96} {o : EngOp} {ag : Fin 8} {s : State} {s₁ : State} (hk : s.Has K) (he : execDsub e o ag s = .next s₁) : s₁.Has K := by
  unfold execDsub at he
  obtain rfl := Host.Outcome.next.inj he
  repeat' first
      | with_reducible assumption | with_reducible apply State.dsub_keeps
      | with_reducible refine State.dsub_of (by with_reducible assumption) ?_ | with_reducible apply State.issue_keeps
      | with_reducible apply State.modEng_keeps | intro s₂ s₃ hk₂ he₂ | obtain rfl := Except.ok.inj he₂ | split at he₂
      | cases he₂ | dsimp only at he₂ | intro _ | split | dsimp only

theorem execTsk_keeps {e : Fin 96} {o : EngOp} {dn : Fin 16} {s : State} {s₁ : State} (hk : s.Has K) (he : execTsk e o dn s = .next s₁) : s₁.Has K := by
  unfold execTsk at he
  obtain rfl := Host.Outcome.next.inj he
  repeat' first
      | with_reducible assumption | with_reducible apply State.startDetections_keeps | with_reducible apply State.endTask_keeps
      | with_reducible apply State.issue_keeps | intro s₂ s₃ hk₂ he₂ | obtain rfl := Except.ok.inj he₂ | split at he₂
      | cases he₂ | dsimp only at he₂ | intro _

theorem execShfx_keeps {e : Fin 96} {o : EngOp} {dst : Fin 16} {n : Nat} {s : State} {s₁ : State} (hk : s.Has K) (he : execShfx e o dst n s = .next s₁) : s₁.Has K := by
  unfold execShfx at he
  split at he
  · cases he
  · obtain rfl := Host.Outcome.next.inj he
    repeat' first
      | with_reducible assumption | with_reducible apply State.feedEngine_keeps | with_reducible apply State.issueThen_keeps
      | with_reducible apply State.modEng_keeps | with_reducible refine State.Has.fold ?_ | simp only [↓State.has_mk]
      | intro s₂ s₃ hk₂ he₂ | obtain rfl := Except.ok.inj he₂ | split at he₂ | cases he₂ | dsimp only at he₂ | intro _ | split

theorem execVmac64_keeps {e : Fin 96} {o : EngOp} {agx : Fin 8} {agy : Fin 8} {agc : Fin 8} {sh : Nat} {s : State} {s₁ : State} (hk : s.Has K) (he : execVmac64 e o agx agy agc sh s = .next s₁) : s₁.Has K := by
  unfold execVmac64 at he
  split at he
  · cases he
  · obtain rfl := Host.Outcome.next.inj he
    repeat' first
      | with_reducible assumption | with_reducible apply State.runMicro_keeps | with_reducible apply State.issueThen_keeps
      | intro s₂ s₃ hk₂ he₂ | obtain rfl := Except.ok.inj he₂ | split at he₂ | cases he₂ | dsimp only at he₂ | intro _ | split
      | dsimp only

theorem execFft4_keeps {e : Fin 96} {o : EngOp} {agy : Fin 8} {agc : Fin 8} {q : Nat} {s_ : Nat} {s : State} {s₁ : State} (hk : s.Has K) (he : execFft4 e o agy agc q s_ s = .next s₁) : s₁.Has K := by
  unfold execFft4 at he
  split at he
  · cases he
  · obtain rfl := Host.Outcome.next.inj he
    repeat' first
      | with_reducible assumption | with_reducible apply State.runMicro_keeps | with_reducible apply State.issueThen_keeps
      | intro s₂ s₃ hk₂ he₂ | obtain rfl := Except.ok.inj he₂ | split at he₂ | cases he₂ | dsimp only at he₂ | intro _ | split
      | dsimp only

theorem execHlt_keeps {e : Fin 96} {o : EngOp} {s : State} {s₁ : State} (hk : s.Has K) (he : execHlt e o s = .next s₁) : s₁.Has K := by
  unfold execHlt at he
  obtain rfl := Host.Outcome.next.inj he
  repeat' first
      | with_reducible assumption | with_reducible apply State.takeHalt_keeps | with_reducible apply State.issueThen_keeps
      | with_reducible apply State.modEng_keeps | with_reducible refine State.Has.fold ?_ | simp only [↓State.has_mk]
      | intro s₂ s₃ hk₂ he₂ | obtain rfl := Except.ok.inj he₂ | split at he₂ | cases he₂ | dsimp only at he₂ | intro _ | split

end Sys2Proof.Machine
end

