-- ==== Sys2Proof/Laws/KeepPossess.lean ====
section
/-! SUPPORT. What the operations of Machine/Possess.lean leave alone. -/
set_option linter.all false
set_option Elab.async false

namespace Sys2Proof.Machine

open Sys2Proof

variable {K : Keep}

theorem State.lockCmd_keeps {s : State} {opc : Nat} {c : RingCmd} {body : CmdRef → State → State} (h_body : ∀ r₀ s₀, s₀.Has K → (body r₀ s₀).Has K) (hk : s.Has K) : (State.lockCmd s opc c body).Has K := by
  unfold State.lockCmd
  repeat' first
      | with_reducible assumption | with_reducible apply h_body | with_reducible apply State.startCmd_keeps
      | with_reducible apply State.complete_keeps | intro _ | split

theorem execPosAcquire_keeps {c : RingCmd} {s : State} {s₁ : State} (hk : s.Has K) (he : execPosAcquire c s = .next s₁) : s₁.Has K := by
  unfold execPosAcquire at he
  obtain rfl := Host.Outcome.next.inj he
  repeat' first
      | with_reducible assumption | with_reducible apply State.lockCmd_keeps | with_reducible apply State.failWith_keeps
      | with_reducible apply State.grantLock_keeps | with_reducible apply State.modLock_keeps | intro _ | split | dsimp only

theorem execPosRelease_keeps {c : RingCmd} {s : State} {s₁ : State} (hk : s.Has K) (he : execPosRelease c s = .next s₁) : s₁.Has K := by
  unfold execPosRelease at he
  obtain rfl := Host.Outcome.next.inj he
  repeat' first
      | with_reducible assumption | with_reducible apply State.lockCmd_keeps | with_reducible apply State.refuse_keeps
      | with_reducible apply State.releaseLock_keeps | with_reducible apply State.complete_keeps | intro _ | split | dsimp only

theorem execPosClear_keeps {c : RingCmd} {s : State} {s₁ : State} (hk : s.Has K) (he : execPosClear c s = .next s₁) : s₁.Has K := by
  unfold execPosClear at he
  obtain rfl := Host.Outcome.next.inj he
  repeat' first
      | with_reducible assumption | with_reducible apply State.lockCmd_keeps | with_reducible apply State.refuse_keeps
      | with_reducible apply State.releaseLock_keeps | with_reducible apply State.complete_keeps
      | with_reducible apply State.modLock_keeps | intro _ | split | dsimp only

theorem State.takeLockResp_keeps {s : State} {n : Nat} {st : Nat} (hk : s.Has K) : (State.takeLockResp s n st).Has K := by
  unfold State.takeLockResp
  repeat' first
      | with_reducible assumption | with_reducible apply State.refuse_keeps | with_reducible apply State.complete_keeps
      | with_reducible apply State.drawFree_keeps | with_reducible apply State.modMgmt_keeps
      | with_reducible apply State.modLock_keeps | intro _ | split | dsimp only

theorem State.answerChain_keeps {s : State} {n : Nat} {st : Nat} {holder : Nat} (hk : s.Has K) : (State.answerChain s n st holder).Has K := by
  unfold State.answerChain
  repeat' first
      | with_reducible assumption | with_reducible apply State.takeLockResp_keeps
      | with_reducible apply State.sendLockResp_keeps | split

theorem State.sendGrants_keeps {s : State} {k : Nat} (hk : s.Has K) : (State.sendGrants s k).Has K := by
  unfold State.sendGrants
  repeat' first
      | with_reducible assumption | with_reducible apply State.answerChain_keeps | with_reducible apply State.forEach_keeps
      | with_reducible apply State.modMgmt_keeps | with_reducible apply State.forEach_keeps
      | with_reducible refine State.Has.fold ?_ | simp only [↓State.has_mk] | intro _ | split | dsimp only

theorem State.grantChain_keeps {s : State} {n : Nat} {holder : Nat} (hk : s.Has K) : (State.grantChain s n holder).Has K := by
  unfold State.grantChain
  repeat' first
      | with_reducible assumption | with_reducible apply State.answerChain_keeps | with_reducible apply State.modMgmt_keeps
      | with_reducible apply State.modLock_keeps | intro _ | split | dsimp only

theorem State.releaseChain_keeps {s : State} {n : Nat} {mark : Nat} (hk : s.Has K) : (State.releaseChain s n mark).Has K := by
  unfold State.releaseChain
  repeat' first
      | with_reducible assumption | with_reducible apply State.grantChain_keeps | with_reducible apply State.modLock_keeps
      | intro _ | split | dsimp only

theorem State.chainRequest_keeps {s : State} {n : Nat} {holder : Nat} {wait : Bool} {limit : Nat} (hk : s.Has K) : (State.chainRequest s n holder wait limit).Has K := by
  unfold State.chainRequest
  repeat' first
      | with_reducible assumption | with_reducible apply State.grantChain_keeps | with_reducible apply State.answerChain_keeps
      | with_reducible apply State.modLock_keeps | intro _ | split | dsimp only

theorem State.packageLost_keeps {s : State} {addr : Nat} (hk : s.Has K) : (State.packageLost s addr).Has K := by
  unfold State.packageLost
  repeat' first
      | with_reducible assumption | with_reducible apply State.releaseChain_keeps | with_reducible apply State.forEach_keeps
      | with_reducible apply State.modLock_keeps | with_reducible apply State.forEach_keeps | intro _ | split | dsimp only

theorem State.sendLockReq_keeps {s : State} {w : LockWait} (hk : s.Has K) : (State.sendLockReq s w).Has K := by
  unfold State.sendLockReq
  repeat' first
      | with_reducible assumption | with_reducible apply State.chainRequest_keeps | with_reducible apply State.unicast_keeps
      | split

theorem State.sendLockRel_keeps {s : State} {n : Nat} {clear : Bool} {force : Bool} (hk : s.Has K) : (State.sendLockRel s n clear force).Has K := by
  unfold State.sendLockRel
  repeat' first
      | with_reducible assumption | with_reducible apply State.unicast_keeps

theorem execLockReq_keeps {p : Fin 2} {f : Frame} {s : State} {s₁ : State} (hk : s.Has K) (he : execLockReq p f s = .next s₁) : s₁.Has K := by
  unfold execLockReq at he
  obtain rfl := Host.Outcome.next.inj he
  repeat' first
      | with_reducible assumption | with_reducible apply State.chainRequest_keeps | with_reducible apply State.receive_keeps
      | intro _ | split | dsimp only

theorem execLockResp_keeps {p : Fin 2} {f : Frame} {s : State} {s₁ : State} (hk : s.Has K) (he : execLockResp p f s = .next s₁) : s₁.Has K := by
  unfold execLockResp at he
  obtain rfl := Host.Outcome.next.inj he
  repeat' first
      | with_reducible assumption | with_reducible apply State.takeLockResp_keeps | with_reducible apply State.receive_keeps
      | intro _

theorem execLockRel_keeps {p : Fin 2} {f : Frame} {s : State} {s₁ : State} (hk : s.Has K) (he : execLockRel p f s = .next s₁) : s₁.Has K := by
  unfold execLockRel at he
  obtain rfl := Host.Outcome.next.inj he
  repeat' first
      | with_reducible assumption | with_reducible apply State.releaseChain_keeps | with_reducible apply State.receive_keeps
      | with_reducible apply State.modLock_keeps | intro _ | split | dsimp only

theorem execChainPosAcquire_keeps {c : RingCmd} {s : State} {s₁ : State} (hk : s.Has K) (he : execChainPosAcquire c s = .next s₁) : s₁.Has K := by
  unfold execChainPosAcquire at he
  obtain rfl := Host.Outcome.next.inj he
  repeat' first
      | with_reducible assumption | with_reducible apply State.sendLockReq_keeps | with_reducible apply State.lockCmd_keeps
      | with_reducible apply State.failWith_keeps | with_reducible apply State.modMgmt_keeps | intro _ | split | dsimp only

theorem execChainPosRelease_keeps {c : RingCmd} {s : State} {s₁ : State} (hk : s.Has K) (he : execChainPosRelease c s = .next s₁) : s₁.Has K := by
  unfold execChainPosRelease at he
  obtain rfl := Host.Outcome.next.inj he
  repeat' first
      | with_reducible assumption | with_reducible apply State.sendLockRel_keeps | with_reducible apply State.releaseChain_keeps
      | with_reducible apply State.lockCmd_keeps | with_reducible apply State.refuse_keeps
      | with_reducible apply State.complete_keeps | with_reducible apply State.modLock_keeps | intro _ | split | dsimp only

theorem execChainPosClear_keeps {c : RingCmd} {s : State} {s₁ : State} (hk : s.Has K) (he : execChainPosClear c s = .next s₁) : s₁.Has K := by
  unfold execChainPosClear at he
  obtain rfl := Host.Outcome.next.inj he
  repeat' first
      | with_reducible assumption | with_reducible apply State.sendLockRel_keeps | with_reducible apply State.releaseChain_keeps
      | with_reducible apply State.lockCmd_keeps | with_reducible apply State.refuse_keeps
      | with_reducible apply State.complete_keeps | with_reducible apply State.modLock_keeps | intro _ | split | dsimp only

theorem execChainLockResend_keeps {tag : BitVec 16} {holder : Nat} {s : State} {s₁ : State} (hk : s.Has K) (he : execChainLockResend tag holder s = .next s₁) : s₁.Has K := by
  unfold execChainLockResend at he
  obtain rfl := Host.Outcome.next.inj he
  repeat' first
      | with_reducible assumption | with_reducible apply State.sendLockReq_keeps | with_reducible apply State.refuse_keeps
      | with_reducible apply State.modMgmt_keeps | intro _ | split | dsimp only

theorem execPosWaitTimeout_keeps {lock : Fin 1024} {holder : Nat} {s : State} {s₁ : State} (hk : s.Has K) (he : execPosWaitTimeout lock holder s = .next s₁) : s₁.Has K := by
  unfold execPosWaitTimeout at he
  obtain rfl := Host.Outcome.next.inj he
  repeat' first
      | with_reducible assumption | with_reducible apply State.answerChain_keeps | with_reducible apply State.completeOpt_keeps
      | with_reducible apply State.modLock_keeps | intro _ | split | dsimp only

theorem State.holdTimeout_keeps {s : State} {n : Nat} (hk : s.Has K) : (State.holdTimeout s n).Has K := by
  unfold State.holdTimeout
  repeat' first
      | with_reducible assumption | with_reducible apply State.releaseChain_keeps | with_reducible apply State.releaseLock_keeps
      | with_reducible apply State.postStatus_keeps | with_reducible apply State.modLock_keeps | intro _ | split | dsimp only

theorem execPosHoldTimeout_keeps {lock : Fin 1024} {s : State} {s₁ : State} (hk : s.Has K) (he : execPosHoldTimeout lock s = .next s₁) : s₁.Has K := by
  unfold execPosHoldTimeout at he
  obtain rfl := Host.Outcome.next.inj he
  repeat' first
      | with_reducible assumption | with_reducible apply State.holdTimeout_keeps

end Sys2Proof.Machine
end

