-- ==== Sys2Proof/Laws/KeepMgmt.lean ====
section
/-! SUPPORT. What the operations of Machine/Mgmt.lean leave alone. -/
set_option linter.all false
set_option Elab.async false

namespace Sys2Proof.Machine

open Sys2Proof

variable {K : Keep}

theorem State.trainPort_keeps {s : State} {p : Nat} {count : Bool} (hk : s.Has K) : (State.trainPort s p count).Has K := by
  unfold State.trainPort
  repeat' first
      | with_reducible assumption | with_reducible apply State.unsideline_keeps | with_reducible apply State.modPort_keeps
      | with_reducible refine State.Has.fold ?_ | simp only [↓State.has_mk] | intro _ | split

theorem execChainAck_keeps {p : Fin 2} {lseq : Byte} {s : State} {s₁ : State} (hk : s.Has K) (he : execChainAck p lseq s = .next s₁) : s₁.Has K := by
  unfold execChainAck at he
  obtain rfl := Host.Outcome.next.inj he
  repeat' first
      | with_reducible assumption | with_reducible apply State.checkPort_keeps | with_reducible apply State.modPort_keeps
      | with_reducible refine State.Has.fold ?_ | simp only [↓State.has_mk] | intro _ | split

theorem execChainAckTimeout_keeps {p : Fin 2} {lseq : Byte} {s : State} {s₁ : State} (hk : s.Has K) (he : execChainAckTimeout p lseq s = .next s₁) : s₁.Has K := by
  unfold execChainAckTimeout at he
  obtain rfl := Host.Outcome.next.inj he
  repeat' first
      | with_reducible assumption | with_reducible apply State.checkPort_keeps | with_reducible apply State.emit_keeps
      | with_reducible apply State.modPort_keeps | intro _ | split | dsimp only

theorem execChainPortTrainDone_keeps {p : Fin 2} {s : State} {s₁ : State} (hk : s.Has K) (he : execChainPortTrainDone p s = .next s₁) : s₁.Has K := by
  unfold execChainPortTrainDone at he
  obtain rfl := Host.Outcome.next.inj he
  repeat' first
      | with_reducible assumption | with_reducible apply State.sendJoin_keeps | with_reducible apply State.modPort_keeps
      | with_reducible refine State.Has.fold ?_ | simp only [↓State.has_mk] | intro _ | split

theorem execChainPortTrainTimeout_keeps {p : Fin 2} {s : State} {s₁ : State} (hk : s.Has K) (he : execChainPortTrainTimeout p s = .next s₁) : s₁.Has K := by
  unfold execChainPortTrainTimeout at he
  obtain rfl := Host.Outcome.next.inj he
  repeat' first
      | with_reducible assumption | with_reducible apply State.sideline_keeps | with_reducible apply State.modPort_keeps
      | with_reducible refine State.Has.fold ?_ | simp only [↓State.has_mk] | intro _ | split

theorem execChainPortSilence_keeps {p : Fin 2} {s : State} {s₁ : State} (hk : s.Has K) (he : execChainPortSilence p s = .next s₁) : s₁.Has K := by
  unfold execChainPortSilence at he
  obtain rfl := Host.Outcome.next.inj he
  repeat' first
      | with_reducible assumption | with_reducible apply State.portOff_keeps

theorem execChainPortRetry_keeps {p : Fin 2} {s : State} {s₁ : State} (hk : s.Has K) (he : execChainPortRetry p s = .next s₁) : s₁.Has K := by
  unfold execChainPortRetry at he
  obtain rfl := Host.Outcome.next.inj he
  repeat' first
      | with_reducible assumption | with_reducible apply State.trainPort_keeps | split

theorem execChainPortOn_keeps {c : RingCmd} {s : State} {s₁ : State} (hk : s.Has K) (he : execChainPortOn c s = .next s₁) : s₁.Has K := by
  unfold execChainPortOn at he
  obtain rfl := Host.Outcome.next.inj he
  repeat' first
      | with_reducible assumption | with_reducible apply State.trainPort_keeps | with_reducible apply State.startCmd_keeps
      | with_reducible apply State.refuse_keeps | with_reducible apply State.complete_keeps
      | with_reducible apply State.modPort_keeps | intro _ | split | dsimp only

theorem execBadFrame_keeps {p : Fin 2} {s : State} {s₁ : State} (hk : s.Has K) (he : execBadFrame p s = .next s₁) : s₁.Has K := by
  unfold execBadFrame at he
  obtain rfl := Host.Outcome.next.inj he
  repeat' first
      | with_reducible assumption | with_reducible apply State.checkPort_keeps | with_reducible apply State.modPort_keeps
      | with_reducible refine State.Has.fold ?_ | simp only [↓State.has_mk] | intro _ | split

theorem execUnknownTypeFrame_keeps {p : Fin 2} {f : Frame} {s : State} {s₁ : State} (hk : s.Has K) (he : execUnknownTypeFrame p f s = .next s₁) : s₁.Has K := by
  unfold execUnknownTypeFrame at he
  obtain rfl := Host.Outcome.next.inj he
  repeat' first
      | with_reducible assumption | with_reducible apply State.goodFrame_keeps | with_reducible apply State.modPort_keeps
      | with_reducible refine State.Has.fold ?_ | simp only [↓State.has_mk] | intro _ | split

theorem State.loseSync_keeps {s : State} (hk : s.Has K) : (State.loseSync s).Has K := by
  unfold State.loseSync
  repeat' first
      | with_reducible assumption | with_reducible apply State.sendGrants_keeps | with_reducible apply State.postEvt_keeps
      | with_reducible apply State.modMgmt_keeps | intro _ | split | dsimp only

theorem State.portWindow_keeps {s : State} {p : Nat} {count : Nat} (hk : s.Has K) : (State.portWindow s p count).Has K := by
  unfold State.portWindow
  repeat' first
      | with_reducible assumption | with_reducible apply State.loseSync_keeps | with_reducible apply State.portOff_keeps
      | with_reducible apply State.modMgmt_keeps | with_reducible apply State.modPort_keeps | intro _ | split | dsimp only

theorem execClockWindowEnd_keeps {clk : ClockSel} {count : Nat} {s : State} {s₁ : State} (hk : s.Has K) (he : execClockWindowEnd clk count s = .next s₁) : s₁.Has K := by
  unfold execClockWindowEnd at he
  obtain rfl := Host.Outcome.next.inj he
  repeat' first
      | with_reducible assumption | with_reducible apply State.portWindow_keeps | with_reducible apply State.groupWindow_keeps
      | split

theorem State.setAddr_keeps {s : State} {a : Nat} {e : AddrEnt} (hk : s.Has K) : (State.setAddr s a e).Has K := by
  unfold State.setAddr
  repeat' first
      | with_reducible assumption | with_reducible apply State.modMgmt_keeps | with_reducible refine State.Has.fold ?_
      | simp only [↓State.has_mk] | intro _

theorem State.dropAddr_keeps {s : State} {a : Nat} (hk : s.Has K) : (State.dropAddr s a).Has K := by
  unfold State.dropAddr
  repeat' first
      | with_reducible assumption | with_reducible apply State.setAddr_keeps | with_reducible apply State.packageLost_keeps

theorem State.sendAssign_keeps {s : State} {id : BitVec 64} {a : Nat} (hk : s.Has K) : (State.sendAssign s id a).Has K := by
  unfold State.sendAssign
  repeat' first
      | with_reducible assumption | with_reducible apply State.broadcast_keeps

theorem State.assignAddr_keeps {s : State} {id : BitVec 64} {a : Nat} {hE : Nat} {hW : Nat} (hk : s.Has K) : (State.assignAddr s id a hE hW).Has K := by
  unfold State.assignAddr
  repeat' first
      | with_reducible assumption | with_reducible apply State.sendAssign_keeps | with_reducible apply State.setAddr_keeps
      | dsimp only

theorem State.ownEntry_keeps {s : State} (hk : s.Has K) : (State.ownEntry s).Has K := by
  unfold State.ownEntry
  repeat' first
      | with_reducible assumption | with_reducible apply State.setAddr_keeps | with_reducible apply State.takeAddr_keeps
      | with_reducible apply State.modMgmt_keeps | intro _ | split | dsimp only

theorem State.takeJoin_keeps {s : State} {want : Nat} {id : BitVec 64} {hE : Nat} {hW : Nat} (hk : s.Has K) : (State.takeJoin s want id hE hW).Has K := by
  unfold State.takeJoin
  repeat' first
      | with_reducible assumption | with_reducible apply State.assignAddr_keeps | with_reducible apply State.dropAddr_keeps
      | with_reducible apply State.forEach_keeps | with_reducible apply State.modMgmt_keeps
      | with_reducible apply State.forEach_keeps | intro _ | split | dsimp only

theorem execJoin_keeps {p : Fin 2} {f : Frame} {s : State} {s₁ : State} (hk : s.Has K) (he : execJoin p f s = .next s₁) : s₁.Has K := by
  unfold execJoin at he
  obtain rfl := Host.Outcome.next.inj he
  repeat' first
      | with_reducible assumption | with_reducible apply State.takeJoin_keeps | with_reducible apply State.receive_keeps
      | intro _ | split

theorem execEnum_keeps {p : Fin 2} {f : Frame} {s : State} {s₁ : State} (hk : s.Has K) (he : execEnum p f s = .next s₁) : s₁.Has K := by
  unfold execEnum at he
  obtain rfl := Host.Outcome.next.inj he
  repeat' first
      | with_reducible assumption | with_reducible apply State.sendJoin_keeps | with_reducible apply State.receive_keeps

theorem execAssign_keeps {p : Fin 2} {f : Frame} {s : State} {s₁ : State} (hk : s.Has K) (he : execAssign p f s = .next s₁) : s₁.Has K := by
  unfold execAssign at he
  obtain rfl := Host.Outcome.next.inj he
  repeat' first
      | with_reducible assumption | with_reducible apply State.takeAddr_keeps | with_reducible apply State.receive_keeps
      | intro _ | split

theorem State.takeTopo_keeps {s : State} {f : Frame} (hk : s.Has K) : (State.takeTopo s f).Has K := by
  unfold State.takeTopo
  repeat' first
      | with_reducible assumption | with_reducible apply State.postEvt_keeps | with_reducible apply State.forEach_keeps
      | with_reducible apply State.modMgmt_keeps | with_reducible apply State.forEach_keeps | intro _ | split | dsimp only

theorem execTopo_keeps {p : Fin 2} {f : Frame} {s : State} {s₁ : State} (hk : s.Has K) (he : execTopo p f s = .next s₁) : s₁.Has K := by
  unfold execTopo at he
  obtain rfl := Host.Outcome.next.inj he
  repeat' first
      | with_reducible assumption | with_reducible apply State.takeTopo_keeps | with_reducible apply State.receive_keeps
      | intro _ | split

theorem State.sendTopo_keeps {s : State} (hk : s.Has K) : (State.sendTopo s).Has K := by
  unfold State.sendTopo
  repeat' first
      | with_reducible assumption | with_reducible apply State.broadcast_keeps | with_reducible apply State.forEach_keeps
      | with_reducible apply State.forEach_keeps | intro _

theorem State.recordHops_keeps {s : State} {f : Frame} (hk : s.Has K) : (State.recordHops s f).Has K := by
  unfold State.recordHops
  repeat' first
      | with_reducible assumption | with_reducible apply State.modMgmt_keeps | with_reducible refine State.Has.fold ?_
      | simp only [↓State.has_mk] | intro _ | split | dsimp only

theorem State.postMaster_keeps {s : State} (hk : s.Has K) : (State.postMaster s).Has K := by
  unfold State.postMaster
  repeat' first
      | with_reducible assumption | with_reducible apply State.postEvt_keeps

theorem State.takeBeacon_keeps {s : State} {f : Frame} (hk : s.Has K) : (State.takeBeacon s f).Has K := by
  unfold State.takeBeacon
  repeat' first
      | with_reducible assumption | with_reducible apply State.postMaster_keeps | with_reducible apply State.sendJoin_keeps
      | with_reducible apply State.reselect_keeps | with_reducible apply State.noteUpstream_keeps
      | with_reducible apply State.postEvt_keeps | with_reducible apply State.modMgmt_keeps | intro _ | split | dsimp only

theorem execBeacon_keeps {p : Fin 2} {f : Frame} {s : State} {s₁ : State} (hk : s.Has K) (he : execBeacon p f s = .next s₁) : s₁.Has K := by
  unfold execBeacon at he
  obtain rfl := Host.Outcome.next.inj he
  repeat' first
      | with_reducible assumption | with_reducible apply State.takeBeacon_keeps | with_reducible apply State.recordHops_keeps
      | with_reducible apply State.receive_keeps | intro _ | split

theorem execBeaconLoss_keeps {s : State} {s₁ : State} (hk : s.Has K) (he : execBeaconLoss s = .next s₁) : s₁.Has K := by
  unfold execBeaconLoss at he
  obtain rfl := Host.Outcome.next.inj he
  repeat' first
      | with_reducible assumption | with_reducible apply State.postMaster_keeps | with_reducible apply State.reselect_keeps
      | with_reducible apply State.noteUpstream_keeps | with_reducible apply State.holdSrc_keeps
      | with_reducible apply State.modMgmt_keeps | intro _ | split | dsimp only

theorem State.sendBeacon_keeps {s : State} (hk : s.Has K) : (State.sendBeacon s).Has K := by
  unfold State.sendBeacon
  repeat' first
      | with_reducible assumption | with_reducible apply State.broadcast_keeps | with_reducible apply State.modMgmt_keeps
      | with_reducible refine State.Has.fold ?_ | simp only [↓State.has_mk] | intro _ | dsimp only

theorem State.ageTable_keeps {s : State} (hk : s.Has K) : (State.ageTable s).Has K := by
  unfold State.ageTable
  repeat' first
      | with_reducible assumption | with_reducible apply State.dropAddr_keeps | with_reducible apply State.forEach_keeps
      | with_reducible apply State.forEach_keeps | intro _

theorem State.finishEnum_keeps {s : State} (hk : s.Has K) : (State.finishEnum s).Has K := by
  unfold State.finishEnum
  repeat' first
      | with_reducible assumption | with_reducible apply State.ownEntry_keeps | with_reducible apply State.assignAddr_keeps
      | with_reducible apply State.packageLost_keeps | with_reducible apply State.takeAddr_keeps
      | with_reducible apply State.complete_keeps | with_reducible apply State.forEach_keeps
      | with_reducible apply State.modMgmt_keeps | with_reducible apply State.forEach_keeps
      | with_reducible refine State.Has.fold ?_ | simp only [↓State.has_mk] | intro _ | split | dsimp only

theorem State.tellLostRings_keeps {s : State} (hk : s.Has K) : (State.tellLostRings s).Has K := by
  unfold State.tellLostRings
  repeat' first
      | with_reducible assumption | with_reducible apply State.sendLockRel_keeps | with_reducible apply State.releaseChain_keeps
      | with_reducible apply State.forEach_keeps | with_reducible apply State.modMgmt_keeps
      | with_reducible apply State.modLock_keeps | with_reducible apply State.forEach_keeps
      | with_reducible refine State.Has.fold ?_ | simp only [↓State.has_mk] | intro _ | split | dsimp only

theorem execChainReenum_keeps {c : RingCmd} {s : State} {s₁ : State} (hk : s.Has K) (he : execChainReenum c s = .next s₁) : s₁.Has K := by
  unfold execChainReenum at he
  obtain rfl := Host.Outcome.next.inj he
  repeat' first
      | with_reducible assumption | with_reducible apply State.broadcast_keeps | with_reducible apply State.startCmd_keeps
      | with_reducible apply State.refuse_keeps | with_reducible apply State.modMgmt_keeps | intro _ | split | dsimp only

theorem execChainTopoRead_keeps {c : RingCmd} {s : State} {s₁ : State} (hk : s.Has K) (he : execChainTopoRead c s = .next s₁) : s₁.Has K := by
  unfold execChainTopoRead at he
  obtain rfl := Host.Outcome.next.inj he
  repeat' first
      | with_reducible assumption | with_reducible apply State.writeRes_keeps | with_reducible apply State.startCmd_keeps
      | with_reducible apply State.complete_keeps | intro _

end Sys2Proof.Machine
end

