-- ==== Sys2Proof/Laws/KeepTwin.lean ====
section
/-! SUPPORT. What the operations of Machine/Twin.lean leave alone. -/
set_option linter.all false
set_option Elab.async false

namespace Sys2Proof.Machine

open Sys2Proof

variable {K : Keep}

theorem State.loadCopy_keeps {s : State} {body : List Byte} (hk : s.Has K) : (State.loadCopy s body).Has K := by
  unfold State.loadCopy
  repeat' first
      | with_reducible assumption | with_reducible apply State.forEach_keeps | with_reducible apply State.modDom_keeps
      | with_reducible apply State.modTime_keeps | with_reducible apply State.modMgmt_keeps
      | with_reducible apply State.modLock_keeps | with_reducible apply State.forEach_keeps | with_reducible apply foldl_keeps
      | intro _ | split | dsimp only

theorem State.startActing_keeps {s : State} (hk : s.Has K) : (State.startActing s).Has K := by
  unfold State.startActing
  repeat' first
      | with_reducible assumption | with_reducible apply State.loadCopy_keeps | with_reducible apply State.postMaster_keeps
      | with_reducible apply State.ownEntry_keeps | with_reducible apply State.sendLockReq_keeps
      | with_reducible apply State.reselect_keeps | with_reducible apply State.noteUpstream_keeps
      | with_reducible apply State.forEach_keeps | with_reducible apply State.modMgmt_keeps
      | with_reducible apply State.forEach_keeps | with_reducible refine State.Has.fold ?_ | simp only [↓State.has_mk] | intro _
      | split | dsimp only

theorem State.holdFilter_keeps {s : State} (hk : s.Has K) : (State.holdFilter s).Has K := by
  unfold State.holdFilter
  repeat' first
      | with_reducible assumption | with_reducible apply State.startActing_keeps | with_reducible apply State.modMgmt_keeps
      | intro _ | split | dsimp only

theorem execMasterHoldFilter_keeps {s : State} {s₁ : State} (hk : s.Has K) (he : execMasterHoldFilter s = .next s₁) : s₁.Has K := by
  unfold execMasterHoldFilter at he
  obtain rfl := Host.Outcome.next.inj he
  repeat' first
      | with_reducible assumption | with_reducible apply State.holdFilter_keeps

theorem execBenchStartWait_keeps {s : State} {s₁ : State} (hk : s.Has K) (he : execBenchStartWait s = .next s₁) : s₁.Has K := by
  unfold execBenchStartWait at he
  obtain rfl := Host.Outcome.next.inj he
  repeat' first
      | with_reducible assumption | with_reducible apply State.modMgmt_keeps | with_reducible refine State.Has.fold ?_
      | simp only [↓State.has_mk] | intro _ | split

theorem State.finishSwap_keeps {s : State} (hk : s.Has K) : (State.finishSwap s).Has K := by
  unfold State.finishSwap
  repeat' first
      | with_reducible assumption | with_reducible apply State.complete_keeps | with_reducible apply State.modMgmt_keeps
      | with_reducible refine State.Has.fold ?_ | simp only [↓State.has_mk] | intro _ | split

theorem execMasterHoldInAssert_keeps {withinTie : Bool} {s : State} {s₁ : State} (hk : s.Has K) (he : execMasterHoldInAssert withinTie s = .next s₁) : s₁.Has K := by
  unfold execMasterHoldInAssert at he
  obtain rfl := Host.Outcome.next.inj he
  repeat' first
      | with_reducible assumption | with_reducible apply State.finishSwap_keeps | with_reducible apply State.stopActing_keeps
      | with_reducible apply State.modMgmt_keeps | intro _ | split | dsimp only

theorem State.goodCopy_keeps {s : State} (hk : s.Has K) : (State.goodCopy s).Has K := by
  unfold State.goodCopy
  repeat' first
      | with_reducible assumption | with_reducible apply State.postEvt_keeps | with_reducible apply State.modMgmt_keeps
      | intro _ | split | dsimp only

theorem State.badCopy_keeps {s : State} (hk : s.Has K) : (State.badCopy s).Has K := by
  unfold State.badCopy
  repeat' first
      | with_reducible assumption | with_reducible apply State.loseSync_keeps | with_reducible apply State.modMgmt_keeps
      | with_reducible refine State.Has.fold ?_ | simp only [↓State.has_mk] | intro _

theorem execStateCopy_keeps {epoch : BitVec 16} {body : List Byte} {crcOk : Bool} {s : State} {s₁ : State} (hk : s.Has K) (he : execStateCopy epoch body crcOk s = .next s₁) : s₁.Has K := by
  unfold execStateCopy at he
  obtain rfl := Host.Outcome.next.inj he
  repeat' first
      | with_reducible assumption | with_reducible apply State.badCopy_keeps | with_reducible apply State.goodCopy_keeps
      | with_reducible apply State.finishSwap_keeps | with_reducible apply State.emit_keeps
      | with_reducible apply State.modMgmt_keeps | intro _ | split | dsimp only

theorem execStateCopyAck_keeps {crcOk : Bool} {s : State} {s₁ : State} (hk : s.Has K) (he : execStateCopyAck crcOk s = .next s₁) : s₁.Has K := by
  unfold execStateCopyAck at he
  obtain rfl := Host.Outcome.next.inj he
  repeat' first
      | with_reducible assumption | with_reducible apply State.badCopy_keeps | with_reducible apply State.goodCopy_keeps
      | with_reducible apply State.sendGrants_keeps | with_reducible apply State.stopActing_keeps
      | with_reducible apply State.modMgmt_keeps | intro _ | split | dsimp only

theorem execMissingCopy_keeps {s : State} {s₁ : State} (hk : s.Has K) (he : execMissingCopy s = .next s₁) : s₁.Has K := by
  unfold execMissingCopy at he
  obtain rfl := Host.Outcome.next.inj he
  repeat' first
      | with_reducible assumption | with_reducible apply State.badCopy_keeps | split

theorem execChainRoleSwap_keeps {c : RingCmd} {s : State} {s₁ : State} (hk : s.Has K) (he : execChainRoleSwap c s = .next s₁) : s₁.Has K := by
  unfold execChainRoleSwap at he
  obtain rfl := Host.Outcome.next.inj he
  repeat' first
      | with_reducible assumption | with_reducible apply State.startCmd_keeps | with_reducible apply State.refuse_keeps
      | with_reducible apply State.modMgmt_keeps | with_reducible refine State.Has.fold ?_ | simp only [↓State.has_mk] | intro _
      | split

theorem execRoleSwapTimeout_keeps {s : State} {s₁ : State} (hk : s.Has K) (he : execRoleSwapTimeout s = .next s₁) : s₁.Has K := by
  unfold execRoleSwapTimeout at he
  obtain rfl := Host.Outcome.next.inj he
  repeat' first
      | with_reducible assumption | with_reducible apply State.refuse_keeps | with_reducible apply State.modMgmt_keeps
      | with_reducible refine State.Has.fold ?_ | simp only [↓State.has_mk] | intro _ | split

theorem State.sendCopy_keeps {s : State} (hk : s.Has K) : (State.sendCopy s).Has K := by
  unfold State.sendCopy
  repeat' first
      | with_reducible assumption | with_reducible apply State.emit_keeps | with_reducible apply State.modMgmt_keeps | intro _
      | split | dsimp only

theorem State.endCycle_keeps {s : State} (hk : s.Has K) : (State.endCycle s).Has K := by
  unfold State.endCycle
  repeat' first
      | with_reducible assumption | with_reducible apply State.sendCopy_keeps | with_reducible apply State.finishEnum_keeps
      | split | dsimp only

theorem State.startCycle_keeps {s : State} (hk : s.Has K) : (State.startCycle s).Has K := by
  unfold State.startCycle
  repeat' first
      | with_reducible assumption | with_reducible apply State.ageTable_keeps | with_reducible apply State.sendBeacon_keeps
      | with_reducible apply State.sendTopo_keeps | with_reducible apply State.broadcast_keeps
      | with_reducible apply State.modMgmt_keeps | intro _ | split | dsimp only

theorem State.dropEnum_keeps {s : State} (hk : s.Has K) : (State.dropEnum s).Has K := by
  unfold State.dropEnum
  repeat' first
      | with_reducible assumption | with_reducible apply State.refuse_keeps | with_reducible apply State.forEach_keeps
      | with_reducible apply State.modMgmt_keeps | with_reducible apply State.forEach_keeps
      | with_reducible refine State.Has.fold ?_ | simp only [↓State.has_mk] | intro _ | dsimp only

theorem execManagementCycle_keeps {s : State} {s₁ : State} (hk : s.Has K) (he : execManagementCycle s = .next s₁) : s₁.Has K := by
  unfold execManagementCycle at he
  obtain rfl := Host.Outcome.next.inj he
  repeat' first
      | with_reducible assumption | with_reducible apply State.dropEnum_keeps | with_reducible apply State.startCycle_keeps
      | with_reducible apply State.endCycle_keeps | with_reducible apply State.tellLostRings_keeps | split | dsimp only

end Sys2Proof.Machine
end

