-- ==== Sys2Proof/Laws/KeepStart.lean ====
section
/-! SUPPORT. What the operations of Machine/Start.lean leave alone. -/
set_option linter.all false
set_option Elab.async false

namespace Sys2Proof.Machine

open Sys2Proof

variable {K : Keep}

theorem State.restart_keeps {s : State} {source : Nat} {warm : Bool} {wake : Nat} {thermal : Bool} (hr : K.Restart) (hk : s.Has K) : (State.restart s source warm wake thermal).Has K := by
  unfold State.restart
  repeat' first
      | with_reducible assumption | with_reducible refine hr.of ?_ | with_reducible apply State.faultRec_keeps
      | with_reducible apply foldl_keeps | with_reducible refine State.Has.fold ?_ | simp only [↓State.has_mk] | intro _ | split
      | dsimp only

theorem State.resetBy_keeps {s : State} {source : Nat} {warm : Bool} {thermal : Bool} (hr : K.Restart) (hk : s.Has K) : (State.resetBy s source warm thermal).Has K := by
  unfold State.resetBy
  repeat' first
      | with_reducible assumption | with_reducible apply State.restart_keeps (hr := hr)
      | with_reducible apply State.modRst_keeps | with_reducible refine State.Has.fold ?_ | simp only [↓State.has_mk] | intro _
      | split

theorem State.softStart_keeps {s : State} (hr : K.Restart) (hk : s.Has K) : (State.softStart s).Has K := by
  unfold State.softStart
  repeat' first
      | with_reducible assumption | with_reducible apply State.resetBy_keeps (hr := hr) | split

theorem execPowerOn_keeps {s : State} (hr : K.Restart) {s₁ : State} (hk : s.Has K) (he : execPowerOn s = .next s₁) : s₁.Has K := by
  unfold execPowerOn at he
  obtain rfl := Host.Outcome.next.inj he
  repeat' first
      | with_reducible assumption | with_reducible apply State.restart_keeps (hr := hr)

theorem execBrownOut_keeps {s : State} (hr : K.Restart) {s₁ : State} (hk : s.Has K) (he : execBrownOut s = .next s₁) : s₁.Has K := by
  unfold execBrownOut at he
  obtain rfl := Host.Outcome.next.inj he
  repeat' first
      | with_reducible assumption | with_reducible apply State.resetBy_keeps (hr := hr) | split

theorem execPinReset_keeps {s : State} (hr : K.Restart) {s₁ : State} (hk : s.Has K) (he : execPinReset s = .next s₁) : s₁.Has K := by
  unfold execPinReset at he
  obtain rfl := Host.Outcome.next.inj he
  repeat' first
      | with_reducible assumption | with_reducible apply State.resetBy_keeps (hr := hr)
      | with_reducible apply State.modRst_keeps | with_reducible refine State.Has.fold ?_ | simp only [↓State.has_mk] | intro _
      | split

theorem execWatchdogExpiry_keeps {s : State} (hr : K.Restart) {s₁ : State} (hk : s.Has K) (he : execWatchdogExpiry s = .next s₁) : s₁.Has K := by
  unfold execWatchdogExpiry at he
  obtain rfl := Host.Outcome.next.inj he
  repeat' first
      | with_reducible assumption | with_reducible apply State.resetBy_keeps (hr := hr) | split

theorem execDebugReset_keeps {s : State} (hr : K.Restart) {s₁ : State} (hk : s.Has K) (he : execDebugReset s = .next s₁) : s₁.Has K := by
  unfold execDebugReset at he
  obtain rfl := Host.Outcome.next.inj he
  repeat' first
      | with_reducible assumption | with_reducible apply State.resetBy_keeps (hr := hr) | split

theorem execClockFailure_keeps {s : State} (hr : K.Restart) {s₁ : State} (hk : s.Has K) (he : execClockFailure s = .next s₁) : s₁.Has K := by
  unfold execClockFailure at he
  obtain rfl := Host.Outcome.next.inj he
  repeat' first
      | with_reducible assumption | with_reducible apply State.resetBy_keeps (hr := hr) | split

theorem execLockup_keeps {s : State} (hr : K.Restart) {s₁ : State} (hk : s.Has K) (he : execLockup s = .next s₁) : s₁.Has K := by
  unfold execLockup at he
  obtain rfl := Host.Outcome.next.inj he
  repeat' first
      | with_reducible assumption | with_reducible apply State.resetBy_keeps (hr := hr) | split

theorem execSoftReset_keeps {c : RingCmd} {s : State} (hr : K.Restart) {s₁ : State} (hk : s.Has K) (he : execSoftReset c s = .next s₁) : s₁.Has K := by
  unfold execSoftReset at he
  obtain rfl := Host.Outcome.next.inj he
  repeat' first
      | with_reducible assumption | with_reducible apply State.softStart_keeps (hr := hr)
      | with_reducible apply State.startCmd_keeps | intro _

theorem execPcieHotReset_keeps {s : State} (hr : K.Restart) {s₁ : State} (hk : s.Has K) (he : execPcieHotReset s = .next s₁) : s₁.Has K := by
  unfold execPcieHotReset at he
  obtain rfl := Host.Outcome.next.inj he
  repeat' first
      | with_reducible assumption | with_reducible apply State.softStart_keeps (hr := hr)

theorem execNvfsPulseEnd_keeps {s : State} (hr : K.Restart) {s₁ : State} (hk : s.Has K) (he : execNvfsPulseEnd s = .next s₁) : s₁.Has K := by
  unfold execNvfsPulseEnd at he
  obtain rfl := Host.Outcome.next.inj he
  repeat' first
      | with_reducible assumption | with_reducible apply State.restart_keeps (hr := hr)
      | with_reducible apply State.modRst_keeps | intro _ | split | dsimp only

theorem State.latchStraps_keeps {s : State} {t : Straps} (hk : s.Has K) : (State.latchStraps s t).Has K := by
  unfold State.latchStraps
  repeat' first
      | with_reducible assumption | with_reducible apply State.modRst_keeps | with_reducible refine State.Has.fold ?_
      | simp only [↓State.has_mk] | intro _ | split | dsimp only

theorem execPwrGoodRise_keeps {straps : Straps} {s : State} (hr : K.Restart) {s₁ : State} (hk : s.Has K) (he : execPwrGoodRise straps s = .next s₁) : s₁.Has K := by
  unfold execPwrGoodRise at he
  obtain rfl := Host.Outcome.next.inj he
  repeat' first
      | with_reducible assumption | with_reducible apply State.latchStraps_keeps
      | with_reducible apply State.restart_keeps (hr := hr) | with_reducible apply State.modRst_keeps | intro _ | split
      | dsimp only

theorem execPwrGoodFall_keeps {coreBelow90 : Bool} {s : State} {s₁ : State} (hk : s.Has K) (he : execPwrGoodFall coreBelow90 s = .next s₁) : s₁.Has K := by
  unfold execPwrGoodFall at he
  obtain rfl := Host.Outcome.next.inj he
  repeat' first
      | with_reducible assumption | with_reducible apply State.modRst_keeps | with_reducible refine State.Has.fold ?_
      | simp only [↓State.has_mk] | intro _

theorem execResetNRelease_keeps {straps : Straps} {s : State} {s₁ : State} (hk : s.Has K) (he : execResetNRelease straps s = .next s₁) : s₁.Has K := by
  unfold execResetNRelease at he
  obtain rfl := Host.Outcome.next.inj he
  repeat' first
      | with_reducible assumption | with_reducible apply State.latchStraps_keeps | with_reducible apply State.modRst_keeps
      | with_reducible apply State.modTime_keeps | intro _ | split | dsimp only

theorem execPerstN_keeps {s : State} {s₁ : State} (hk : s.Has K) (he : execPerstN s = .next s₁) : s₁.Has K := by
  unfold execPerstN at he
  obtain rfl := Host.Outcome.next.inj he
  repeat' first
      | with_reducible assumption | with_reducible apply State.forEach_keeps | with_reducible apply State.modFn_keeps
      | with_reducible apply State.forEach_keeps | with_reducible refine State.Has.fold ?_ | simp only [↓State.has_mk] | intro _
      | dsimp only

theorem State.releaseClock_keeps {s : State} (hk : s.Has K) : (State.releaseClock s).Has K := by
  unfold State.releaseClock
  repeat' first
      | with_reducible assumption | with_reducible apply State.enterHold_keeps | with_reducible apply State.forEach_keeps
      | with_reducible apply State.modDom_keeps | with_reducible apply State.modTime_keeps
      | with_reducible apply State.forEach_keeps | intro _ | split | dsimp only

theorem State.writeFaultLog_keeps {s : State} (hk : s.Has K) : (State.writeFaultLog s).Has K := by
  unfold State.writeFaultLog
  repeat' first
      | with_reducible assumption | with_reducible apply State.modRst_keeps | with_reducible refine State.Has.fold ?_
      | simp only [↓State.has_mk] | intro _ | dsimp only

theorem State.releasePorts_keeps {s : State} (hk : s.Has K) : (State.releasePorts s).Has K := by
  unfold State.releasePorts
  repeat' first
      | with_reducible assumption | with_reducible apply State.startActing_keeps | with_reducible apply State.trainPort_keeps
      | with_reducible apply State.sideline_keeps | with_reducible apply State.forEach_keeps
      | with_reducible apply State.forEach_keeps | intro _ | split | dsimp only

theorem State.releaseDomain_keeps {s : State} {n : Nat} (hk : s.Has K) : (State.releaseDomain s n).Has K := by
  unfold State.releaseDomain
  repeat' first
      | with_reducible assumption | with_reducible apply State.releasePorts_keeps
      | with_reducible apply State.releaseClock_keeps | with_reducible apply State.followLaneEn_keeps
      | with_reducible apply State.forEach_keeps | with_reducible apply State.modRst_keeps
      | with_reducible apply State.modEng_keeps | with_reducible apply State.forEach_keeps
      | with_reducible refine State.Has.fold ?_ | simp only [↓State.has_mk] | intro _ | split

theorem execDomainRelease_keeps {n : Fin 14} {s : State} {s₁ : State} (hk : s.Has K) (he : execDomainRelease n s = .next s₁) : s₁.Has K := by
  unfold execDomainRelease at he
  obtain rfl := Host.Outcome.next.inj he
  repeat' first
      | with_reducible assumption | with_reducible apply State.releaseDomain_keeps
      | with_reducible apply State.writeFaultLog_keeps | with_reducible apply State.modRst_keeps | intro _ | split | dsimp only

theorem State.configCold_keeps {s : State} (hc : K.Comm) (hk : s.Has K) : (State.configCold s).Has K := by
  unfold State.configCold
  repeat' first
      | with_reducible assumption | with_reducible refine hc.of ?_ | with_reducible apply State.forEach_keeps
      | with_reducible apply State.setBoth_keeps (hc := hc) | with_reducible apply State.forEach_keeps
      | with_reducible refine State.Has.fold ?_ | simp only [↓State.has_mk] | intro _ | dsimp only

theorem State.forgetRetained_keeps {s : State} (hc : K.Comm) (hk : s.Has K) : (State.forgetRetained s).Has K := by
  unfold State.forgetRetained
  repeat' first
      | with_reducible assumption | with_reducible refine hc.of ?_ | with_reducible apply State.modRst_keeps
      | with_reducible apply State.modMgmt_keeps | with_reducible refine State.Has.fold ?_ | simp only [↓State.has_mk] | intro _
      | dsimp only

theorem State.configure_keeps {s : State} {r : WorkResult} (hc : K.Comm) (hk : s.Has K) : (State.configure s r).Has K := by
  unfold State.configure
  repeat' first
      | with_reducible assumption | with_reducible refine hc.of ?_ | with_reducible apply State.forgetRetained_keeps (hc := hc)
      | with_reducible apply State.configCold_keeps (hc := hc) | with_reducible apply State.faultRec_keeps
      | with_reducible apply State.forEach_keeps | with_reducible apply State.modRst_keeps
      | with_reducible apply State.modDie_keeps | with_reducible apply State.forEach_keeps | with_reducible apply foldl_keeps
      | with_reducible refine State.Has.fold ?_ | simp only [↓State.has_mk] | intro _ | split | dsimp only

theorem State.mapDie_keeps {s : State} {d : Nat} {failed : List (Nat × Nat × Nat)} (hk : s.Has K) : (State.mapDie s d failed).Has K := by
  unfold State.mapDie
  repeat' first
      | with_reducible assumption | with_reducible apply State.forEach_keeps | with_reducible apply State.modRst_keeps
      | with_reducible apply State.forEach_keeps | with_reducible refine State.Has.fold ?_ | simp only [↓State.has_mk] | intro _

theorem State.loadTables_keeps {s : State} (hk : s.Has K) : (State.loadTables s).Has K := by
  unfold State.loadTables
  repeat' first
      | with_reducible assumption | with_reducible apply State.modDec_keeps | with_reducible refine State.Has.fold ?_
      | simp only [↓State.has_mk] | intro _ | dsimp only

theorem State.endWork_keeps {s : State} {n : Nat} {r : WorkResult} (hc : K.Comm) (hk : s.Has K) : (State.endWork s n r).Has K := by
  unfold State.endWork
  repeat' first
      | with_reducible assumption | with_reducible apply State.loadTables_keeps | with_reducible apply State.mapDie_keeps
      | with_reducible apply State.configure_keeps (hc := hc) | with_reducible apply State.forEach_keeps
      | with_reducible apply State.modRst_keeps | with_reducible apply State.forEach_keeps
      | with_reducible refine State.Has.fold ?_ | simp only [↓State.has_mk] | intro _ | split

theorem State.dieWork_keeps {s : State} {r : WorkResult} (hk : s.Has K) : (State.dieWork s r).Has K := by
  unfold State.dieWork
  repeat' first
      | with_reducible assumption | with_reducible apply State.mapDie_keeps | with_reducible apply State.dieSetDone_keeps
      | with_reducible apply State.postDie_keeps | with_reducible apply State.releaseLanes_keeps
      | with_reducible apply State.forEach_keeps | with_reducible apply State.modRst_keeps
      | with_reducible apply State.modDie_keeps | with_reducible apply State.forEach_keeps | intro _ | split | dsimp only

theorem execDomainWorkEnd_keeps {n : Fin 14} {r : WorkResult} {s : State} (hc : K.Comm) {s₁ : State} (hk : s.Has K) (he : execDomainWorkEnd n r s = .next s₁) : s₁.Has K := by
  unfold execDomainWorkEnd at he
  obtain rfl := Host.Outcome.next.inj he
  repeat' first
      | with_reducible assumption | with_reducible apply State.dieWork_keeps
      | with_reducible apply State.endWork_keeps (hc := hc) | with_reducible apply State.modRst_keeps
      | with_reducible refine State.Has.fold ?_ | simp only [↓State.has_mk] | intro _ | split

theorem State.bootGo_keeps {s : State} {v : Nat} (hk : s.Has K) : (State.bootGo s v).Has K := by
  unfold State.bootGo
  repeat' first
      | with_reducible assumption | with_reducible apply State.modRst_keeps | intro _ | split | dsimp only

theorem execRstBootGo_keeps {v : W32} {s : State} {s₁ : State} (hk : s.Has K) (he : execRstBootGo v s = .next s₁) : s₁.Has K := by
  unfold execRstBootGo at he
  obtain rfl := Host.Outcome.next.inj he
  repeat' first
      | with_reducible assumption | with_reducible apply State.bootGo_keeps | split

end Sys2Proof.Machine
end

