-- ==== Sys2Proof/Laws/KeepPower.lean ====
section
/-! SUPPORT. What the operations of Machine/Power.lean leave alone. -/
set_option linter.all false
set_option Elab.async false

namespace Sys2Proof.Machine

open Sys2Proof

variable {K : Keep}

theorem State.setBlock_keeps {s : State} {b : Nat} {x : Option BlkReset} (hk : s.Has K) : (State.setBlock s b x).Has K := by
  unfold State.setBlock
  repeat' first
      | with_reducible assumption | with_reducible apply State.modRst_keeps | with_reducible refine State.Has.fold ?_
      | simp only [↓State.has_mk] | intro _

theorem State.beginBlockReset_keeps {s : State} {b : Nat} {cmd : Option CmdRef} {remote : Bool} (hk : s.Has K) : (State.beginBlockReset s b cmd remote).Has K := by
  unfold State.beginBlockReset
  repeat' first
      | with_reducible assumption | with_reducible apply State.setBlock_keeps | with_reducible apply State.faultRec_keeps
      | with_reducible refine State.Has.fold ?_ | simp only [↓State.has_mk] | split

theorem execBlockReset_keeps {c : RingCmd} {s : State} {s₁ : State} (hk : s.Has K) (he : execBlockReset c s = .next s₁) : s₁.Has K := by
  unfold execBlockReset at he
  obtain rfl := Host.Outcome.next.inj he
  repeat' first
      | with_reducible assumption | with_reducible apply State.beginBlockReset_keeps | with_reducible apply State.startCmd_keeps
      | with_reducible apply State.refuse_keeps | intro _ | split | dsimp only

theorem State.assertReset_keeps {s : State} {b : Nat} (hw : K.Hbm) (hk : s.Has K) : (State.assertReset s b).Has K := by
  unfold State.assertReset
  repeat' first
      | with_reducible assumption | with_reducible apply State.setBlock_keeps
      | with_reducible apply State.assertBlock_keeps (hw := hw) | with_reducible refine State.Has.fold ?_
      | simp only [↓State.has_mk] | split

theorem execBlockIdle_keeps {b : Fin 37} {s : State} (hw : K.Hbm) {s₁ : State} (hk : s.Has K) (he : execBlockIdle b s = .next s₁) : s₁.Has K := by
  unfold execBlockIdle at he
  obtain rfl := Host.Outcome.next.inj he
  repeat' first
      | with_reducible assumption | with_reducible apply State.assertReset_keeps (hw := hw)

theorem execBlockIdleTimeout_keeps {b : Fin 37} {s : State} (hw : K.Hbm) {s₁ : State} (hk : s.Has K) (he : execBlockIdleTimeout b s = .next s₁) : s₁.Has K := by
  unfold execBlockIdleTimeout at he
  obtain rfl := Host.Outcome.next.inj he
  repeat' first
      | with_reducible assumption | with_reducible apply State.assertReset_keeps (hw := hw)

theorem State.sendResetAck_keeps {s : State} {st : Nat} (hk : s.Has K) : (State.sendResetAck s st).Has K := by
  unfold State.sendResetAck
  repeat' first
      | with_reducible assumption | with_reducible apply State.unicast_keeps

theorem State.releaseReset_keeps {s : State} {b : Nat} (hk : s.Has K) : (State.releaseReset s b).Has K := by
  unfold State.releaseReset
  repeat' first
      | with_reducible assumption | with_reducible apply State.sendResetAck_keeps | with_reducible apply State.setBlock_keeps
      | with_reducible apply State.releaseBlock_keeps | with_reducible apply State.complete_keeps
      | with_reducible apply State.forEach_keeps | with_reducible apply State.modRst_keeps
      | with_reducible apply State.forEach_keeps | intro _ | split | dsimp only

theorem execBlockResetRelease_keeps {b : Fin 37} {s : State} {s₁ : State} (hk : s.Has K) (he : execBlockResetRelease b s = .next s₁) : s₁.Has K := by
  unfold execBlockResetRelease at he
  obtain rfl := Host.Outcome.next.inj he
  repeat' first
      | with_reducible assumption | with_reducible apply State.releaseReset_keeps

theorem State.aimDies_keeps {s : State} {m : Nat} (hw : K.Hbm) (hc : K.Comm) (hk : s.Has K) : (State.aimDies s m).Has K := by
  unfold State.aimDies
  repeat' first
      | with_reducible assumption | with_reducible apply State.switchDies_keeps (hw := hw)
      | with_reducible apply State.writeWarmImage_keeps | with_reducible apply State.forEach_keeps
      | with_reducible apply State.modGrid_keeps | with_reducible apply State.modDie_keeps
      | with_reducible apply State.setBoth_keeps (hc := hc) | with_reducible apply State.forEach_keeps | intro _ | split
      | dsimp only

theorem execDieSet_keeps {c : RingCmd} {s : State} (hw : K.Hbm) (hc : K.Comm) {s₁ : State} (hk : s.Has K) (he : execDieSet c s = .next s₁) : s₁.Has K := by
  unfold execDieSet at he
  obtain rfl := Host.Outcome.next.inj he
  repeat' first
      | with_reducible assumption | with_reducible apply State.aimDies_keeps (hw := hw) (hc := hc)
      | with_reducible apply State.dieSetDone_keeps | with_reducible apply State.startCmd_keeps
      | with_reducible apply State.refuse_keeps | with_reducible apply State.modGrid_keeps | intro _ | split | dsimp only

theorem State.modGov_keeps {s : State} {i : Nat} {f : Gov → Gov} (hk : s.Has K) : (State.modGov s i f).Has K := by
  unfold State.modGov
  repeat' first
      | with_reducible assumption | with_reducible apply State.modRst_keeps | with_reducible refine State.Has.fold ?_
      | simp only [↓State.has_mk] | intro _

theorem State.alertGov_keeps {s : State} {i : Nat} {ev : Nat} {d1 : Nat} (hk : s.Has K) : (State.alertGov s i ev d1).Has K := by
  unfold State.alertGov
  repeat' first
      | with_reducible assumption | with_reducible apply State.modGov_keeps | with_reducible apply State.postEvt_keeps
      | with_reducible refine State.Has.fold ?_ | simp only [↓State.has_mk] | intro _ | dsimp only

theorem execGovernorSample_keeps {i : Fin 17} {current : BitVec 12} {step : Nat} {s : State} {s₁ : State} (hk : s.Has K) (he : execGovernorSample i current step s = .next s₁) : s₁.Has K := by
  unfold execGovernorSample at he
  obtain rfl := Host.Outcome.next.inj he
  repeat' first
      | with_reducible assumption | with_reducible apply State.alertGov_keeps | with_reducible apply State.modGov_keeps
      | intro _ | split | dsimp only

theorem State.thermalTrip_keeps {s : State} {i : Nat} (hw : K.Hbm) (hc : K.Comm) (hr : K.Restart) (hk : s.Has K) : (State.thermalTrip s i).Has K := by
  unfold State.thermalTrip
  repeat' first
      | with_reducible assumption | with_reducible apply State.alertGov_keeps
      | with_reducible apply State.aimDies_keeps (hw := hw) (hc := hc) | with_reducible apply State.resetBy_keeps (hr := hr)
      | with_reducible apply State.faultRec_keeps | split | dsimp only

theorem execThermalRead_keeps {i : Fin 17} {celsius : Int} {s : State} (hw : K.Hbm) (hc : K.Comm) (hr : K.Restart) {s₁ : State} (hk : s.Has K) (he : execThermalRead i celsius s = .next s₁) : s₁.Has K := by
  unfold execThermalRead at he
  obtain rfl := Host.Outcome.next.inj he
  repeat' first
      | with_reducible assumption | with_reducible apply State.thermalTrip_keeps (hw := hw) (hc := hc) (hr := hr)
      | with_reducible apply State.alertGov_keeps | with_reducible apply State.modGov_keeps | intro _ | split | dsimp only

theorem execSmbusBlockRead_keeps {code : Byte} {s : State} {s₁ : State} (hk : s.Has K) (he : execSmbusBlockRead code s = .next s₁) : s₁.Has K := by
  unfold execSmbusBlockRead at he
  obtain rfl := Host.Outcome.next.inj he
  repeat' first
      | with_reducible assumption | with_reducible apply State.modGov_keeps | with_reducible apply State.emit_keeps | intro _
      | split | dsimp only

theorem execSelfProtect_keeps {c : RingCmd} {s : State} {s₁ : State} (hk : s.Has K) (he : execSelfProtect c s = .next s₁) : s₁.Has K := by
  unfold execSelfProtect at he
  obtain rfl := Host.Outcome.next.inj he
  repeat' first
      | with_reducible assumption | with_reducible apply State.failWith_keeps | with_reducible apply State.startCmd_keeps
      | with_reducible apply State.modFn_keeps | intro _ | split | dsimp only

theorem execFaultLogRead_keeps {c : RingCmd} {s : State} {s₁ : State} (hk : s.Has K) (he : execFaultLogRead c s = .next s₁) : s₁.Has K := by
  unfold execFaultLogRead at he
  obtain rfl := Host.Outcome.next.inj he
  repeat' first
      | with_reducible assumption | with_reducible apply State.writeRes_keeps | with_reducible apply State.startCmd_keeps
      | with_reducible apply State.complete_keeps | with_reducible apply State.drawFree_keeps
      | with_reducible refine State.Has.fold ?_ | simp only [↓State.has_mk] | intro _ | split | dsimp only

theorem execChainReset_keeps {c : RingCmd} {s : State} {s₁ : State} (hk : s.Has K) (he : execChainReset c s = .next s₁) : s₁.Has K := by
  unfold execChainReset at he
  obtain rfl := Host.Outcome.next.inj he
  repeat' first
      | with_reducible assumption | with_reducible apply State.unicast_keeps | with_reducible apply State.startCmd_keeps
      | with_reducible apply State.refuse_keeps | with_reducible apply State.modMgmt_keeps | intro _ | split | dsimp only

theorem State.takeResetReq_keeps {s : State} {f : Frame} (hr : K.Restart) (hk : s.Has K) : (State.takeResetReq s f).Has K := by
  unfold State.takeResetReq
  repeat' first
      | with_reducible assumption | with_reducible apply State.sendResetAck_keeps
      | with_reducible apply State.beginBlockReset_keeps | with_reducible apply State.softStart_keeps (hr := hr)
      | with_reducible apply State.faultRec_keeps | split | dsimp only

theorem execResetReq_keeps {p : Fin 2} {f : Frame} {s : State} (hr : K.Restart) {s₁ : State} (hk : s.Has K) (he : execResetReq p f s = .next s₁) : s₁.Has K := by
  unfold execResetReq at he
  obtain rfl := Host.Outcome.next.inj he
  repeat' first
      | with_reducible assumption | with_reducible apply State.takeResetReq_keeps (hr := hr)
      | with_reducible apply State.receive_keeps | intro _

theorem State.takeResetAck_keeps {s : State} {f : Frame} (hk : s.Has K) : (State.takeResetAck s f).Has K := by
  unfold State.takeResetAck
  repeat' first
      | with_reducible assumption | with_reducible apply State.complete_keeps | with_reducible apply State.modMgmt_keeps
      | intro _ | split | dsimp only

theorem execResetAck_keeps {p : Fin 2} {f : Frame} {s : State} {s₁ : State} (hk : s.Has K) (he : execResetAck p f s = .next s₁) : s₁.Has K := by
  unfold execResetAck at he
  obtain rfl := Host.Outcome.next.inj he
  repeat' first
      | with_reducible assumption | with_reducible apply State.takeResetAck_keeps | with_reducible apply State.receive_keeps
      | intro _

theorem execChainResetTimeout_keeps {s : State} {s₁ : State} (hk : s.Has K) (he : execChainResetTimeout s = .next s₁) : s₁.Has K := by
  unfold execChainResetTimeout at he
  obtain rfl := Host.Outcome.next.inj he
  repeat' first
      | with_reducible assumption | with_reducible apply State.unicast_keeps | with_reducible apply State.refuse_keeps
      | with_reducible apply State.modMgmt_keeps | intro _ | split | dsimp only

end Sys2Proof.Machine
end

