-- ==== Sys2Proof/Laws/KeepSetup.lean ====
section
/-! SUPPORT. What the operations of Machine/Setup.lean leave alone. -/
set_option linter.all false
set_option Elab.async false

namespace Sys2Proof.Machine

open Sys2Proof

variable {K : Keep}

theorem State.writeBar2_keeps {s : State} {off : Nat} {v : Nat} (hc : K.Comm) (hk : s.Has K) : (State.writeBar2 s off v).Has K := by
  unfold State.writeBar2
  repeat' first
      | with_reducible assumption | with_reducible apply State.writeRootSteer_keeps (hc := hc)
      | with_reducible apply State.writeRefLoop_keeps (hc := hc) | with_reducible apply State.modEGroup_keeps
      | with_reducible apply State.modStack_keeps | with_reducible apply State.setBoth_keeps (hc := hc)
      | with_reducible apply State.setShadow_keeps | with_reducible refine State.Has.fold ?_ | simp only [↓State.has_mk]
      | intro _ | split | dsimp only

theorem State.writeBar0_keeps {s : State} {fn : Nat} {off : Nat} {v : Nat} (hk : s.Has K) : (State.writeBar0 s fn off v).Has K := by
  unfold State.writeBar0
  repeat' first
      | with_reducible assumption | with_reducible apply State.emit_keeps | with_reducible apply State.modRing_keeps
      | with_reducible apply State.modFn_keeps | intro _ | split | dsimp only

theorem State.registerWrite_keeps {s : State} {fn : Nat} {bar : Bar} {off : Nat} {size : Nat} {v : Nat} (hc : K.Comm) (hk : s.Has K) : (State.registerWrite s fn bar off size v).Has K := by
  unfold State.registerWrite
  repeat' first
      | with_reducible assumption | with_reducible apply State.writeBar0_keeps
      | with_reducible apply State.writeBar2_keeps (hc := hc) | with_reducible apply State.bar2Write_keeps
      | with_reducible apply State.modRst_keeps | with_reducible refine State.Has.fold ?_ | simp only [↓State.has_mk] | intro _
      | split

theorem execRegisterWrite_keeps {fn : Fin 256} {bar : Bar} {off : Nat} {size : Nat} {v : W32} {s : State} (hc : K.Comm) {s₁ : State} (hk : s.Has K) (he : execRegisterWrite fn bar off size v s = .next s₁) : s₁.Has K := by
  unfold execRegisterWrite at he
  obtain rfl := Host.Outcome.next.inj he
  repeat' first
      | with_reducible assumption | with_reducible apply State.registerWrite_keeps (hc := hc)

theorem State.changeOwners_keeps {s : State} {old : State} (hk : s.Has K) : (State.changeOwners s old).Has K := by
  unfold State.changeOwners
  repeat' first
      | with_reducible assumption | with_reducible apply State.releaseBinding_keeps | with_reducible apply State.forEach_keeps
      | with_reducible apply State.modEGroup_keeps | with_reducible apply State.modEng_keeps
      | with_reducible apply State.forEach_keeps | with_reducible refine State.Has.fold ?_ | simp only [↓State.has_mk] | intro _
      | split | dsimp only

theorem State.followChainCfg_keeps {s : State} {old : State} (hk : s.Has K) : (State.followChainCfg s old).Has K := by
  unfold State.followChainCfg
  repeat' first
      | with_reducible assumption | with_reducible apply State.loseSync_keeps | with_reducible apply State.trainPort_keeps
      | with_reducible apply State.portOff_keeps | with_reducible apply State.sideline_keeps
      | with_reducible apply State.forEach_keeps | with_reducible apply State.modMgmt_keeps
      | with_reducible apply State.modPort_keeps | with_reducible apply State.forEach_keeps | intro _ | split | dsimp only

theorem State.followTimeCfg_keeps {s : State} {old : State} (hk : s.Has K) : (State.followTimeCfg s old).Has K := by
  unfold State.followTimeCfg
  repeat' first
      | with_reducible assumption | with_reducible apply State.refFail_keeps | with_reducible apply State.reselect_keeps
      | with_reducible apply State.leaveHold_keeps | with_reducible apply State.enterHold_keeps
      | with_reducible apply State.forEach_keeps | with_reducible apply State.modRef_keeps
      | with_reducible apply State.forEach_keeps | intro _ | split | dsimp only

theorem State.followDieEnable_keeps {s : State} (hw : K.Hbm) (hk : s.Has K) : (State.followDieEnable s).Has K := by
  unfold State.followDieEnable
  repeat' first
      | with_reducible assumption | with_reducible apply State.dieOff_keeps (hw := hw)
      | with_reducible apply State.forEach_keeps | with_reducible apply State.modDie_keeps
      | with_reducible apply State.forEach_keeps | intro _ | split | dsimp only

theorem State.followFormat_keeps {s : State} {old : State} (hk : s.Has K) : (State.followFormat s old).Has K := by
  unfold State.followFormat
  repeat' first
      | with_reducible assumption | with_reducible apply State.forEach_keeps | with_reducible apply State.modDie_keeps
      | with_reducible apply State.forEach_keeps | with_reducible refine State.Has.fold ?_ | simp only [↓State.has_mk] | intro _
      | split

theorem State.applyCommit_keeps {s : State} (hw : K.Hbm) (hc : K.Comm) (hk : s.Has K) : (State.applyCommit s).Has K := by
  unfold State.applyCommit
  repeat' first
      | with_reducible assumption | with_reducible refine hc.of ?_ | with_reducible apply State.followFormat_keeps
      | with_reducible apply State.followDieEnable_keeps (hw := hw) | with_reducible apply State.followTimeCfg_keeps
      | with_reducible apply State.followChainCfg_keeps | with_reducible apply State.changeOwners_keeps
      | with_reducible apply State.modeFollow_keeps | with_reducible apply State.followLaneEn_keeps
      | with_reducible apply State.writeWarmImage_keeps | with_reducible refine State.Has.fold ?_ | simp only [↓State.has_mk]
      | dsimp only

theorem State.setupCommit_keeps {s : State} (hw : K.Hbm) (hc : K.Comm) (hk : s.Has K) : (State.setupCommit s).Has K := by
  unfold State.setupCommit
  repeat' first
      | with_reducible assumption | with_reducible apply State.applyCommit_keeps (hw := hw) (hc := hc)
      | with_reducible refine State.Has.fold ?_ | simp only [↓State.has_mk] | split | dsimp only

theorem execSetupCommit_keeps {s : State} (hw : K.Hbm) (hc : K.Comm) {s₁ : State} (hk : s.Has K) (he : execSetupCommit s = .next s₁) : s₁.Has K := by
  unfold execSetupCommit at he
  obtain rfl := Host.Outcome.next.inj he
  repeat' first
      | with_reducible assumption | with_reducible apply State.setupCommit_keeps (hw := hw) (hc := hc)
      | with_reducible apply State.bar2Write_keeps | with_reducible refine State.Has.fold ?_ | simp only [↓State.has_mk]
      | intro _ | split | dsimp only

theorem execSetupCommitDone_keeps {s : State} {s₁ : State} (hk : s.Has K) (he : execSetupCommitDone s = .next s₁) : s₁.Has K := by
  unfold execSetupCommitDone at he
  obtain rfl := Host.Outcome.next.inj he
  repeat' first
      | with_reducible assumption | with_reducible refine State.Has.fold ?_ | simp only [↓State.has_mk] | split

theorem State.setupSeal_keeps {s : State} (hs : K.Seal) (hk : s.Has K) : (State.setupSeal s).Has K := by
  unfold State.setupSeal
  repeat' first
      | with_reducible assumption | with_reducible refine hs.of ?_ | with_reducible apply State.forEach_keeps
      | with_reducible apply State.modDie_keeps | with_reducible apply State.forEach_keeps
      | with_reducible refine State.Has.fold ?_ | simp only [↓State.has_mk] | intro _ | split | dsimp only

theorem execSetupSeal_keeps {s : State} (hs : K.Seal) {s₁ : State} (hk : s.Has K) (he : execSetupSeal s = .next s₁) : s₁.Has K := by
  unfold execSetupSeal at he
  obtain rfl := Host.Outcome.next.inj he
  repeat' first
      | with_reducible assumption | with_reducible apply State.setupSeal_keeps (hs := hs)
      | with_reducible apply State.bar2Write_keeps | with_reducible refine State.Has.fold ?_ | simp only [↓State.has_mk]
      | intro _ | split | dsimp only

end Sys2Proof.Machine
end

