-- ==== Sys2Proof/Laws/KeepShot.lean ====
section
/-! SUPPORT. What the operations of Machine/Shot.lean leave alone. -/
set_option linter.all false
set_option Elab.async false

namespace Sys2Proof.Machine

open Sys2Proof

variable {K : Keep}

theorem State.tellStale_keeps {s : State} {g : Nat} {t : Nat} {cfg : Nat} {released : Option Nat} {entries : List (Nat × List Nat)} (hk : s.Has K) : (State.tellStale s g t cfg released entries).Has K := by
  unfold State.tellStale
  repeat' first
      | with_reducible assumption | with_reducible apply State.emitHub_keeps | with_reducible apply State.postStatus_keeps
      | intro _ | split | dsimp only

theorem State.shotExpiry_keeps {s : State} {g : Nat} (hk : s.Has K) : (State.shotExpiry s g).Has K := by
  unfold State.shotExpiry
  repeat' first
      | with_reducible assumption | with_reducible apply State.tellStale_keeps | with_reducible apply State.forEach_keeps
      | with_reducible apply State.modEGroup_keeps | with_reducible apply State.modEng_keeps
      | with_reducible apply State.forEach_keeps | intro _ | split | dsimp only

theorem execShotClockExpiry_keeps {g : Fin 12} {s : State} {s₁ : State} (hk : s.Has K) (he : execShotClockExpiry g s = .next s₁) : s₁.Has K := by
  unfold execShotClockExpiry at he
  obtain rfl := Host.Outcome.next.inj he
  repeat' first
      | with_reducible assumption | with_reducible apply State.shotExpiry_keeps | split

end Sys2Proof.Machine
end

