-- ==== Sys2Proof/Laws/KeepSystem.lean ====
section
/-! SUPPORT. What the operations of Machine/System.lean leave alone. -/
set_option linter.all false
set_option Elab.async false

namespace Sys2Proof.Machine

open Sys2Proof

variable {K : Keep}

theorem execSleepEnter_keeps {c : RingCmd} {s : State} {s₁ : State} (hk : s.Has K) (he : execSleepEnter c s = .next s₁) : s₁.Has K := by
  unfold execSleepEnter at he
  obtain rfl := Host.Outcome.next.inj he
  repeat' first
      | with_reducible assumption | with_reducible apply State.sleepStop_keeps | with_reducible apply State.startCmd_keeps
      | with_reducible apply State.modRst_keeps | intro _ | split | dsimp only

theorem State.noteSleep_keeps {s : State} (hk : s.Has K) : (State.noteSleep s).Has K := by
  unfold State.noteSleep
  repeat' first
      | with_reducible assumption | with_reducible apply State.writeWarmImage_keeps | with_reducible apply State.sendLocal_keeps
      | with_reducible apply State.completeOpt_keeps | with_reducible apply State.modRst_keeps
      | with_reducible refine State.Has.fold ?_ | simp only [↓State.has_mk] | intro _ | dsimp only

theorem State.sleepProgress_keeps {s : State} (hk : s.Has K) : (State.sleepProgress s).Has K := by
  unfold State.sleepProgress
  repeat' first
      | with_reducible assumption | with_reducible apply State.noteSleep_keeps | with_reducible apply State.modRst_keeps
      | intro _ | split | dsimp only

theorem State.discardLane_keeps {s : State} {x : Nat} (hk : s.Has K) : (State.discardLane s x).Has K := by
  unfold State.discardLane
  repeat' first
      | with_reducible assumption | with_reducible apply State.endRecord_keeps | with_reducible apply State.subStaging_keeps
      | with_reducible apply State.dataLost_keeps | with_reducible apply State.forEach_keeps
      | with_reducible apply State.modOutLane_keeps | with_reducible apply State.forEach_keeps
      | with_reducible refine State.Has.fold ?_ | simp only [↓State.has_mk] | intro _ | dsimp only

theorem State.discardRing_keeps {s : State} {k : Nat} (hk : s.Has K) : (State.discardRing s k).Has K := by
  unfold State.discardRing
  repeat' first
      | with_reducible assumption | with_reducible apply State.subStaging_keeps | with_reducible apply State.dataLost_keeps
      | with_reducible apply State.forEach_keeps | with_reducible apply State.modRing_keeps
      | with_reducible apply State.forEach_keeps | with_reducible refine State.Has.fold ?_ | simp only [↓State.has_mk] | intro _
      | split | dsimp only

theorem State.discardDie_keeps {s : State} {d : Nat} (hk : s.Has K) : (State.discardDie s d).Has K := by
  unfold State.discardDie
  repeat' first
      | with_reducible assumption | with_reducible apply State.failCorrections_keeps
      | with_reducible apply State.postStatus_keeps | with_reducible apply State.forEach_keeps
      | with_reducible apply State.modDie_keeps | with_reducible apply State.forEach_keeps
      | with_reducible refine State.Has.fold ?_ | simp only [↓State.has_mk] | intro _ | dsimp only

theorem execSleepDrainTimeout_keeps {s : State} {s₁ : State} (hk : s.Has K) (he : execSleepDrainTimeout s = .next s₁) : s₁.Has K := by
  unfold execSleepDrainTimeout at he
  obtain rfl := Host.Outcome.next.inj he
  repeat' first
      | with_reducible assumption | with_reducible apply State.discardDie_keeps | with_reducible apply State.discardRing_keeps
      | with_reducible apply State.discardLane_keeps | with_reducible apply State.sleepProgress_keeps
      | with_reducible apply State.dropBeam_keeps | with_reducible apply State.dropSub_keeps
      | with_reducible apply State.completeFlagPosts_keeps | with_reducible apply State.forEach_keeps
      | with_reducible apply State.forEach_keeps | intro _ | split | dsimp only

theorem State.asleep_keeps {s : State} (hr : K.Restart) (hk : s.Has K) : (State.asleep s).Has K := by
  unfold State.asleep
  repeat' first
      | with_reducible assumption | with_reducible refine hr.of ?_ | with_reducible refine State.Has.fold ?_
      | simp only [↓State.has_mk] | intro _ | dsimp only

theorem execSleepReqAssert_keeps {s : State} (hr : K.Restart) {s₁ : State} (hk : s.Has K) (he : execSleepReqAssert s = .next s₁) : s₁.Has K := by
  unfold execSleepReqAssert at he
  obtain rfl := Host.Outcome.next.inj he
  repeat' first
      | with_reducible assumption | with_reducible apply State.asleep_keeps (hr := hr) | split

theorem State.wakeUp_keeps {s : State} {source : Nat} (hr : K.Restart) (hk : s.Has K) : (State.wakeUp s source).Has K := by
  unfold State.wakeUp
  repeat' first
      | with_reducible assumption | with_reducible apply State.restart_keeps (hr := hr)
      | with_reducible apply State.modRst_keeps | intro _ | split | dsimp only

theorem State.wakeEvent_keeps {s : State} {enBit : Nat} {source : Nat} (hr : K.Restart) (hk : s.Has K) : (State.wakeEvent s enBit source).Has K := by
  unfold State.wakeEvent
  repeat' first
      | with_reducible assumption | with_reducible apply State.wakeUp_keeps (hr := hr) | with_reducible apply State.modRst_keeps
      | with_reducible refine State.Has.fold ?_ | simp only [↓State.has_mk] | intro _ | split

theorem execWakeN_keeps {s : State} (hr : K.Restart) {s₁ : State} (hk : s.Has K) (he : execWakeN s = .next s₁) : s₁.Has K := by
  unfold execWakeN at he
  obtain rfl := Host.Outcome.next.inj he
  repeat' first
      | with_reducible assumption | with_reducible apply State.wakeEvent_keeps (hr := hr)

theorem execChainWakeDetect_keeps {p : Fin 2} {s : State} (hr : K.Restart) {s₁ : State} (hk : s.Has K) (he : execChainWakeDetect p s = .next s₁) : s₁.Has K := by
  unfold execChainWakeDetect at he
  obtain rfl := Host.Outcome.next.inj he
  repeat' first
      | with_reducible assumption | with_reducible apply State.wakeEvent_keeps (hr := hr) | split

theorem execSleepTimerExpiry_keeps {s : State} (hr : K.Restart) {s₁ : State} (hk : s.Has K) (he : execSleepTimerExpiry s = .next s₁) : s₁.Has K := by
  unfold execSleepTimerExpiry at he
  obtain rfl := Host.Outcome.next.inj he
  repeat' first
      | with_reducible assumption | with_reducible apply State.wakeEvent_keeps (hr := hr) | split

theorem execLatchedWake_keeps {s : State} (hr : K.Restart) {s₁ : State} (hk : s.Has K) (he : execLatchedWake s = .next s₁) : s₁.Has K := by
  unfold execLatchedWake at he
  obtain rfl := Host.Outcome.next.inj he
  repeat' first
      | with_reducible assumption | with_reducible apply State.wakeUp_keeps (hr := hr) | split

theorem execSleepNote_keeps {p : Fin 2} {f : Frame} {s : State} {s₁ : State} (hk : s.Has K) (he : execSleepNote p f s = .next s₁) : s₁.Has K := by
  unfold execSleepNote at he
  obtain rfl := Host.Outcome.next.inj he
  repeat' first
      | with_reducible assumption | with_reducible apply State.receive_keeps | with_reducible apply State.portOff_keeps
      | with_reducible apply State.modPort_keeps | with_reducible refine State.Has.fold ?_ | simp only [↓State.has_mk] | intro _

theorem State.takeWake_keeps {s : State} {p : Nat} {f : Frame} (hk : s.Has K) : (State.takeWake s p f).Has K := by
  unfold State.takeWake
  repeat' first
      | with_reducible assumption | with_reducible apply State.goodFrame_keeps | with_reducible apply State.forward_keeps
      | with_reducible apply State.modPort_keeps | intro _ | split | dsimp only

theorem execWake_keeps {p : Fin 2} {f : Frame} {s : State} {s₁ : State} (hk : s.Has K) (he : execWake p f s = .next s₁) : s₁.Has K := by
  unfold execWake at he
  obtain rfl := Host.Outcome.next.inj he
  repeat' first
      | with_reducible assumption | with_reducible apply State.takeWake_keeps | split

theorem execWakeClockEnd_keeps {p : Fin 2} {s : State} {s₁ : State} (hk : s.Has K) (he : execWakeClockEnd p s = .next s₁) : s₁.Has K := by
  unfold execWakeClockEnd at he
  obtain rfl := Host.Outcome.next.inj he
  repeat' first
      | with_reducible assumption | with_reducible apply State.modPort_keeps | with_reducible refine State.Has.fold ?_
      | simp only [↓State.has_mk] | intro _ | split

theorem State.dropPlansOf_keeps {s : State} {t : Nat} (hk : s.Has K) : (State.dropPlansOf s t).Has K := by
  unfold State.dropPlansOf
  repeat' first
      | with_reducible assumption | with_reducible apply State.stopReaders_keeps | with_reducible apply State.dropBeam_keeps
      | with_reducible apply State.dropSub_keeps | with_reducible apply State.dropQueued_keeps
      | with_reducible apply State.modeFollow_keeps | with_reducible apply State.returnEngines_keeps
      | with_reducible apply State.forEach_keeps | with_reducible apply State.modGrid_keeps
      | with_reducible apply State.modDec_keeps | with_reducible apply State.modChain_keeps
      | with_reducible apply State.modDie_keeps | with_reducible apply State.forEach_keeps
      | with_reducible refine State.Has.fold ?_ | simp only [↓State.has_mk] | unfold Option.elim | intro _ | split | dsimp only

theorem State.dropFlagsOf_keeps {s : State} {t : Nat} (hk : s.Has K) : (State.dropFlagsOf s t).Has K := by
  unfold State.dropFlagsOf
  repeat' first
      | with_reducible assumption | with_reducible apply State.forEach_keeps | with_reducible apply State.modDie_keeps
      | with_reducible apply State.modFn_keeps | with_reducible apply State.forEach_keeps
      | with_reducible refine State.Has.fold ?_ | simp only [↓State.has_mk] | intro _ | dsimp only

theorem State.dropMemoryOf_keeps {s : State} {t : Nat} (hw : K.Hbm) (hk : s.Has K) : (State.dropMemoryOf s t).Has K := by
  unfold State.dropMemoryOf
  repeat' first
      | with_reducible assumption | with_reducible apply State.releaseBinding_keeps
      | with_reducible apply State.dropGrants_keeps | with_reducible apply State.finishInvals_keeps
      | with_reducible apply State.freeAlloc_keeps (hw := hw) | with_reducible apply State.forEach_keeps
      | with_reducible apply State.modDma_keeps | with_reducible apply State.modEGroup_keeps
      | with_reducible apply State.modEng_keeps | with_reducible apply State.forEach_keeps
      | with_reducible refine hw.clear _ _ _ _ _ _ ?_ | with_reducible refine State.Has.fold ?_ | simp only [↓State.has_mk]
      | intro _ | dsimp only

theorem State.dropRecordsOf_keeps {s : State} {t : Nat} (hk : s.Has K) : (State.dropRecordsOf s t).Has K := by
  unfold State.dropRecordsOf
  repeat' first
      | with_reducible assumption | with_reducible apply State.forEach_keeps | with_reducible apply State.modDie_keeps
      | with_reducible apply State.modOutLane_keeps | with_reducible apply State.forEach_keeps
      | with_reducible refine State.Has.fold ?_ | simp only [↓State.has_mk] | intro _ | dsimp only

theorem State.dropRingsOf_keeps {s : State} {t : Nat} (hk : s.Has K) : (State.dropRingsOf s t).Has K := by
  unfold State.dropRingsOf
  repeat' first
      | with_reducible assumption | with_reducible apply State.loseHolder_keeps | with_reducible apply State.forEach_keeps
      | with_reducible apply State.modFn_keeps | with_reducible apply State.forEach_keeps
      | with_reducible refine State.Has.fold ?_ | simp only [↓State.has_mk] | intro _ | dsimp only

theorem State.resetVf_keeps {s : State} {t : Nat} (hw : K.Hbm) (hk : s.Has K) : (State.resetVf s t).Has K := by
  unfold State.resetVf
  repeat' first
      | with_reducible assumption | with_reducible apply State.dropRingsOf_keeps
      | with_reducible apply State.dropRecordsOf_keeps | with_reducible apply State.dropMemoryOf_keeps (hw := hw)
      | with_reducible apply State.dropFlagsOf_keeps | with_reducible apply State.dropPlansOf_keeps
      | with_reducible apply State.startDetections_keeps | with_reducible apply State.dispatchAll_keeps
      | with_reducible apply State.startJobs_keeps | with_reducible apply State.startNext_keeps
      | with_reducible apply State.completeFlagPosts_keeps | with_reducible apply State.forEach_keeps
      | with_reducible apply State.forEach_keeps | intro _ | dsimp only

theorem execFunctionLevelReset_keeps {fn : Fin 256} {s : State} (hw : K.Hbm) (hr : K.Restart) {s₁ : State} (hk : s.Has K) (he : execFunctionLevelReset fn s = .next s₁) : s₁.Has K := by
  unfold execFunctionLevelReset at he
  obtain rfl := Host.Outcome.next.inj he
  repeat' first
      | with_reducible assumption | with_reducible apply State.resetVf_keeps (hw := hw)
      | with_reducible apply State.softStart_keeps (hr := hr) | split

theorem State.tick_keeps {s : State} (hk : s.Has K) : (State.tick s).Has K := by
  unfold State.tick
  repeat' first
      | with_reducible assumption | with_reducible apply State.sleepProgress_keeps | with_reducible apply State.sendLane_keeps
      | with_reducible apply State.forEach_keeps | with_reducible apply State.modTime_keeps
      | with_reducible apply State.forEach_keeps | with_reducible refine State.Has.fold ?_ | simp only [↓State.has_mk] | intro _
      | split | dsimp only

end Sys2Proof.Machine
end

