-- ==== Sys2Proof/Laws/KeepTopk.lean ====
section
/-! SUPPORT. What the operations of Machine/Topk.lean leave alone. -/
set_option linter.all false
set_option Elab.async false

namespace Sys2Proof.Machine

open Sys2Proof

variable {K : Keep}

theorem State.emitTopk_keeps {s : State} {d : Nat} {dest : Nat} {r : Rec} (hk : s.Has K) : (State.emitTopk s d dest r).Has K := by
  unfold State.emitTopk
  repeat' first
      | with_reducible assumption | with_reducible apply State.emitDie_keeps
      | with_reducible refine State.emitDie_of (by with_reducible assumption) ?_ | with_reducible apply State.emit_keeps
      | with_reducible apply State.modDie_keeps | with_reducible refine State.Has.fold ?_ | simp only [↓State.has_mk] | intro _
      | split | dsimp only

theorem State.corrSubblock_keeps {s : State} {d : Nat} {tile : Nat} {sb : Nat} {p : Pass} {j : Job} {o : Nat} (hk : s.Has K) : (State.corrSubblock s d tile sb p j o).Has K := by
  unfold State.corrSubblock
  repeat' first
      | with_reducible assumption | with_reducible apply State.emitTopk_keeps | with_reducible apply State.modTile_keeps
      | intro _ | split | dsimp only

theorem State.beamSubblock_keeps {s : State} {d : Nat} {tile : Nat} {sb : Nat} {n : Nat} {jobs : List (Nat × Nat × Nat × Nat)} (hk : s.Has K) : (State.beamSubblock s d tile sb n jobs).Has K := by
  unfold State.beamSubblock
  repeat' first
      | with_reducible assumption | with_reducible apply State.emitTopk_keeps | with_reducible apply State.modDie_keeps
      | intro _ | split | dsimp only

theorem State.subblockEnd_keeps {s : State} {d : Nat} {tile : Nat} {sb : Nat} (hk : s.Has K) : (State.subblockEnd s d tile sb).Has K := by
  unfold State.subblockEnd
  repeat' first
      | with_reducible assumption | with_reducible apply State.beamSubblock_keeps
      | with_reducible apply State.corrSubblock_keeps | with_reducible apply State.forEach_keeps
      | with_reducible apply State.forEach_keeps | intro _ | split | dsimp only

theorem execSubblockEnd_keeps {die : Fin 4} {tile : Fin 256} {subblock : Nat} {s : State} {s₁ : State} (hk : s.Has K) (he : execSubblockEnd die tile subblock s = .next s₁) : s₁.Has K := by
  unfold execSubblockEnd at he
  obtain rfl := Host.Outcome.next.inj he
  repeat' first
      | with_reducible assumption | with_reducible apply State.subblockEnd_keeps

end Sys2Proof.Machine
end

