-- ==== Sys2Proof/Laws/KeepExec.lean ====
section
/-! SUPPORT. What a command leaves alone, by the classes of Safety.lean. -/
set_option linter.all false
set_option Elab.async false

namespace Sys2Proof.Machine

open Sys2Proof

variable {K : Keep}

/-- A command keeps a property that survives what its classes say it can write. -/
theorem exec_keeps {c : Instr} {s s₁ : State} (hw : writesHbm c = true → K.Hbm) (hc : writesCommitted c = true → K.Comm)
    (hs : c = .setupSeal → K.Seal) (hr : restarts c = true → K.Restart) (hk : s.Has K) (he : exec c s = .next s₁) : s₁.Has K := by
  cases c with
  | registerWrite => exact execRegisterWrite_keeps (hc := hc rfl) hk he
  | setupCommit => exact execSetupCommit_keeps (hw := hw rfl) (hc := hc rfl) hk he
  | setupSeal => exact execSetupSeal_keeps (hs := hs rfl) hk he
  | functionCommit => exact execFunctionCommit_keeps hk he
  | doorbell => exact execDoorbell_keeps hk he
  | ringReadTimeout => exact execRingReadTimeout_keeps hk he
  | functionLevelReset => exact execFunctionLevelReset_keeps (hw := hw rfl) (hr := hr rfl) hk he
  | pcieHotReset => exact execPcieHotReset_keeps (hr := hr rfl) hk he
  | completionWrite => exact execCompletionWrite_keeps hk he
  | outRecordWrite => exact execOutRecordWrite_keeps hk he
  | evtOverflow => exact execEvtOverflow_keeps hk he
  | nop => exact execNop_keeps hk he
  | dmaCopy => exact execDmaCopy_keeps hk he
  | memAlloc => exact execMemAlloc_keeps hk he
  | memFree => exact execMemFree_keeps (hw := hw rfl) hk he
  | tuInval => exact execTuInval_keeps hk he
  | dmaBurst => exact execDmaBurst_keeps (hw := hw rfl) hk he
  | dmaTransferEnd => exact execDmaTransferEnd_keeps hk he
  | dmaReadTimeout => exact execDmaReadTimeout_keeps hk he
  | planningFreeze => exact execPlanningFreeze_keeps hk he
  | blockBoundary => exact execBlockBoundary_keeps (hw := hw rfl) hk he
  | ingestPacket => exact execIngestPacket_keeps hk he
  | closeWaitExpiry => exact execCloseWaitExpiry_keeps hk he
  | cornerTurnRead => exact execCornerTurnRead_keeps hk he
  | laneMapSwitch => exact execLaneMapSwitch_keeps hk he
  | laneGroupRestart => exact execLaneGroupRestart_keeps hk he
  | clockWindowEnd => exact execClockWindowEnd_keeps hk he
  | detectTimeout => exact execDetectTimeout_keeps hk he
  | trainComplete => exact execTrainComplete_keeps hk he
  | trainTimeout => exact execTrainTimeout_keeps hk he
  | lockComplete => exact execLockComplete_keeps hk he
  | lockTimeout => exact execLockTimeout_keeps hk he
  | tsbSetsReceived => exact execTsbSetsReceived_keeps hk he
  | laneErrorThreshold => exact execLaneErrorThreshold_keeps hk he
  | laneRelock => exact execLaneRelock_keeps hk he
  | relockTimeout => exact execRelockTimeout_keeps hk he
  | outRxDetect => exact execOutRxDetect_keeps hk he
  | outTrainEnd => exact execOutTrainEnd_keeps hk he
  | outCapsEnd => exact execOutCapsEnd_keeps hk he
  | chnGainLoad => exact execChnGainLoad_keeps hk he
  | chnStatsRead => exact execChnStatsRead_keeps hk he
  | gainSwitch => exact execGainSwitch_keeps hk he
  | statsIntervalEnd => exact execStatsIntervalEnd_keeps hk he
  | slotPowerCompare => exact execSlotPowerCompare_keeps hk he
  | hbmTempRead => exact execHbmTempRead_keeps hk he
  | hbmRefresh => exact execHbmRefresh_keeps hk he
  | hbmReadReturn => exact execHbmReadReturn_keeps hk he
  | subarrayStart => exact execSubarrayStart_keeps hk he
  | subarrayStop => exact execSubarrayStop_keeps hk he
  | planLoad => exact execPlanLoad_keeps hk he
  | planRead => exact execPlanRead_keeps hk he
  | passSwitch => exact execPassSwitch_keeps hk he
  | visEmit => exact execVisEmit_keeps hk he
  | amendEmit => exact execAmendEmit_keeps hk he
  | beamStart => exact execBeamStart_keeps hk he
  | beamStop => exact execBeamStop_keeps hk he
  | beamWeights => exact execBeamWeights_keeps hk he
  | weightsReady => exact execWeightsReady_keeps hk he
  | beamCapture => exact execBeamCapture_keeps hk he
  | topkSet => exact execTopkSet_keeps hk he
  | dbWaitExpiry => exact execDbWaitExpiry_keeps hk he
  | sweepDeliver => exact execSweepDeliver_keeps hk he
  | rotationStart => exact execRotationStart_keeps hk he
  | bandsumTimeout => exact execBandsumTimeout_keeps hk he
  | subblockEnd => exact execSubblockEnd_keeps hk he
  | excPolicy => exact execExcPolicy_keeps hk he
  | flagPost => exact execFlagPost_keeps hk he
  | detectionInput => exact execDetectionInput_keeps hk he
  | flagAccept => exact execFlagAccept_keeps hk he
  | flagReceive => exact execFlagReceive_keeps hk he
  | cchStart => exact execCchStart_keeps hk he
  | cchRetune => exact execCchRetune_keeps hk he
  | cchStop => exact execCchStop_keeps hk he
  | chainInputTimeout => exact execChainInputTimeout_keeps hk he
  | chainSample => exact execChainSample_keeps hk he
  | chainSettled => exact execChainSettled_keeps hk he
  | thresholdWindowEnd => exact execThresholdWindowEnd_keeps hk he
  | agcWindowEnd => exact execAgcWindowEnd_keeps hk he
  | burstMaxLen => exact execBurstMaxLen_keeps hk he
  | writebackApply => exact execWritebackApply_keeps hk he
  | bitPortArrive => exact execBitPortArrive_keeps hk he
  | engineNop => exact execEngineNop_keeps hk he
  | add => exact execAdd_keeps hk he
  | sub => exact execSub_keeps hk he
  | neg => exact execNeg_keeps hk he
  | abs => exact execAbs_keeps hk he
  | cmp => exact execCmp_keeps hk he
  | min => exact execMin_keeps hk he
  | max => exact execMax_keeps hk he
  | and => exact execAnd_keeps hk he
  | or => exact execOr_keeps hk he
  | xor => exact execXor_keeps hk he
  | shl => exact execShl_keeps hk he
  | shr => exact execShr_keeps hk he
  | sha => exact execSha_keeps hk he
  | mac => exact execMac_keeps hk he
  | msu => exact execMsu_keeps hk he
  | mac2 => exact execMac2_keeps hk he
  | cmac => exact execCmac_keeps hk he
  | cmacj => exact execCmacj_keeps hk he
  | lmsu => exact execLmsu_keeps hk he
  | rnd => exact execRnd_keeps hk he
  | mva => exact execMva_keeps hk he
  | clr => exact execClr_keeps hk he
  | agset => exact execAgset_keeps hk he
  | agget => exact execAgget_keeps hk he
  | ld => exact execLd_keeps hk he
  | st => exact execSt_keeps hk he
  | ldh => exact execLdh_keeps hk he
  | ldg => exact execLdg_keeps hk he
  | stg => exact execStg_keeps hk he
  | groupMemoryReturn => exact execGroupMemoryReturn_keeps hk he
  | mvm => exact execMvm_keeps hk he
  | br => exact execBr_keeps hk he
  | brc => exact execBrc_keeps hk he
  | call => exact execCall_keeps hk he
  | ret => exact execRet_keeps hk he
  | dbnz => exact execDbnz_keeps hk he
  | loop => exact execLoop_keeps hk he
  | rti => exact execRti_keeps hk he
  | waite => exact execWaite_keeps hk he
  | evs => exact execEvs_keeps hk he
  | clre => exact execClre_keeps hk he
  | wbk => exact execWbk_keeps hk he
  | flg => exact execFlg_keeps hk he
  | bpb => exact execBpb_keeps hk he
  | dsub => exact execDsub_keeps hk he
  | tsk => exact execTsk_keeps hk he
  | shfx => exact execShfx_keeps hk he
  | vmac64 => exact execVmac64_keeps hk he
  | fft4 => exact execFft4_keeps hk he
  | hlt => exact execHlt_keeps hk he
  | tmrExpiry => exact execTmrExpiry_keeps hk he
  | interruptAccept => exact execInterruptAccept_keeps hk he
  | abortApply => exact execAbortApply_keeps hk he
  | haltTake => exact execHaltTake_keeps hk he
  | engLoad => exact execEngLoad_keeps hk he
  | engStart => exact execEngStart_keeps hk he
  | engHalt => exact execEngHalt_keeps hk he
  | engResume => exact execEngResume_keeps hk he
  | shotClockExpiry => exact execShotClockExpiry_keeps hk he
  | decCodeLoad => exact execDecCodeLoad_keeps hk he
  | decProfileLoad => exact execDecProfileLoad_keeps hk he
  | decoderJobEnd => exact execDecoderJobEnd_keeps hk he
  | modeSwitchEnd => exact execModeSwitchEnd_keeps hk he
  | deadlineExpiry => exact execDeadlineExpiry_keeps hk he
  | arbCommit => exact execArbCommit_keeps (hc := hc rfl) hk he
  | arbSet => exact execArbSet_keeps (hc := hc rfl) hk he
  | posAcquire => exact execPosAcquire_keeps hk he
  | posRelease => exact execPosRelease_keeps hk he
  | posClear => exact execPosClear_keeps hk he
  | posWaitTimeout => exact execPosWaitTimeout_keeps hk he
  | posHoldTimeout => exact execPosHoldTimeout_keeps hk he
  | managementCycle => exact execManagementCycle_keeps hk he
  | beacon => exact execBeacon_keeps hk he
  | enum => exact execEnum_keeps hk he
  | join => exact execJoin_keeps hk he
  | assign => exact execAssign_keeps hk he
  | topo => exact execTopo_keeps hk he
  | lockReq => exact execLockReq_keeps hk he
  | lockResp => exact execLockResp_keeps hk he
  | lockRel => exact execLockRel_keeps hk he
  | chainAck => exact execChainAck_keeps hk he
  | chainAckTimeout => exact execChainAckTimeout_keeps hk he
  | chainPortTrainDone => exact execChainPortTrainDone_keeps hk he
  | chainPortTrainTimeout => exact execChainPortTrainTimeout_keeps hk he
  | chainPortSilence => exact execChainPortSilence_keeps hk he
  | chainPortRetry => exact execChainPortRetry_keeps hk he
  | beaconLoss => exact execBeaconLoss_keeps hk he
  | masterHoldFilter => exact execMasterHoldFilter_keeps hk he
  | benchStartWait => exact execBenchStartWait_keeps hk he
  | stateCopy => exact execStateCopy_keeps hk he
  | stateCopyAck => exact execStateCopyAck_keeps hk he
  | chainLockResend => exact execChainLockResend_keeps hk he
  | chainReenum => exact execChainReenum_keeps hk he
  | chainPortOn => exact execChainPortOn_keeps hk he
  | chainTopoRead => exact execChainTopoRead_keeps hk he
  | chainRoleSwap => exact execChainRoleSwap_keeps hk he
  | roleSwapTimeout => exact execRoleSwapTimeout_keeps hk he
  | chainPosAcquire => exact execChainPosAcquire_keeps hk he
  | chainPosRelease => exact execChainPosRelease_keeps hk he
  | chainPosClear => exact execChainPosClear_keeps hk he
  | syncSend => exact execSyncSend_keeps hk he
  | delayReqSend => exact execDelayReqSend_keeps hk he
  | sync => exact execSync_keeps hk he
  | delayReq => exact execDelayReq_keeps hk he
  | delayResp => exact execDelayResp_keeps hk he
  | tuNowLatch => exact execTuNowLatch_keeps hk he
  | tuSet => exact execTuSet_keeps hk he
  | tuSetApply => exact execTuSetApply_keeps hk he
  | tuLabel => exact execTuLabel_keeps hk he
  | timecontEmit => exact execTimecontEmit_keeps hk he
  | refSet => exact execRefSet_keeps (hc := hc rfl) hk he
  | refActivityWindow => exact execRefActivityWindow_keeps hk he
  | refGate => exact execRefGate_keeps hk he
  | refWtrExpiry => exact execRefWtrExpiry_keeps hk he
  | ppsEdge => exact execPpsEdge_keeps hk he
  | extTrig => exact execExtTrig_keeps hk he
  | refLoopWrite => exact execRefLoopWrite_keeps (hc := hc rfl) hk he
  | rootSteerWrite => exact execRootSteerWrite_keeps (hc := hc rfl) hk he
  | openTimeout => exact execOpenTimeout_keeps hk he
  | phaseReport => exact execPhaseReport_keeps hk he
  | refPhaseRead => exact execRefPhaseRead_keeps hk he
  | powerOn => exact execPowerOn_keeps (hr := hr rfl) hk he
  | brownOut => exact execBrownOut_keeps (hr := hr rfl) hk he
  | pinReset => exact execPinReset_keeps (hr := hr rfl) hk he
  | watchdogExpiry => exact execWatchdogExpiry_keeps (hr := hr rfl) hk he
  | debugReset => exact execDebugReset_keeps (hr := hr rfl) hk he
  | clockFailure => exact execClockFailure_keeps (hr := hr rfl) hk he
  | lockup => exact execLockup_keeps (hr := hr rfl) hk he
  | pwrGoodRise => exact execPwrGoodRise_keeps (hr := hr rfl) hk he
  | pwrGoodFall => exact execPwrGoodFall_keeps hk he
  | domainRelease => exact execDomainRelease_keeps hk he
  | domainWorkEnd => exact execDomainWorkEnd_keeps (hc := hc rfl) hk he
  | rstBootGo => exact execRstBootGo_keeps hk he
  | nvfsPulseEnd => exact execNvfsPulseEnd_keeps (hr := hr rfl) hk he
  | softReset => exact execSoftReset_keeps (hr := hr rfl) hk he
  | blockReset => exact execBlockReset_keeps hk he
  | blockIdle => exact execBlockIdle_keeps (hw := hw rfl) hk he
  | blockIdleTimeout => exact execBlockIdleTimeout_keeps (hw := hw rfl) hk he
  | blockResetRelease => exact execBlockResetRelease_keeps hk he
  | dieSet => exact execDieSet_keeps (hw := hw rfl) (hc := hc rfl) hk he
  | sleepEnter => exact execSleepEnter_keeps hk he
  | sleepDrainTimeout => exact execSleepDrainTimeout_keeps hk he
  | sleepReqAssert => exact execSleepReqAssert_keeps (hr := hr rfl) hk he
  | wakeN => exact execWakeN_keeps (hr := hr rfl) hk he
  | chainWakeDetect => exact execChainWakeDetect_keeps (hr := hr rfl) hk he
  | sleepTimerExpiry => exact execSleepTimerExpiry_keeps (hr := hr rfl) hk he
  | wake => exact execWake_keeps hk he
  | sleepNote => exact execSleepNote_keeps hk he
  | governorSample => exact execGovernorSample_keeps hk he
  | thermalRead => exact execThermalRead_keeps (hw := hw rfl) (hc := hc rfl) (hr := hr rfl) hk he
  | selfProtect => exact execSelfProtect_keeps hk he
  | faultLogRead => exact execFaultLogRead_keeps hk he
  | chainReset => exact execChainReset_keeps hk he
  | resetReq => exact execResetReq_keeps (hr := hr rfl) hk he
  | resetAck => exact execResetAck_keeps hk he
  | chainResetTimeout => exact execChainResetTimeout_keeps hk he
  | smbusBlockRead => exact execSmbusBlockRead_keeps hk he
  | resetNRelease => exact execResetNRelease_keeps hk he
  | latchedWake => exact execLatchedWake_keeps (hr := hr rfl) hk he
  | wakeClockEnd => exact execWakeClockEnd_keeps hk he
  | badFrame => exact execBadFrame_keeps hk he
  | unknownTypeFrame => exact execUnknownTypeFrame_keeps hk he
  | masterHoldInAssert => exact execMasterHoldInAssert_keeps hk he
  | missingCopy => exact execMissingCopy_keeps hk he
  | dmaWithdrawalEnd => exact execDmaWithdrawalEnd_keeps hk he
  | ppsNoEdge => exact execPpsNoEdge_keeps hk he
  | setupCommitDone => exact execSetupCommitDone_keeps hk he
  | perstN => exact execPerstN_keeps hk he

end Sys2Proof.Machine
end

