-- ==== Sys2Proof/Laws/State.lean ====
section
/-! SUPPORT. What each update of the state leaves in each field and what the accessors read after it, true by unfolding. -/
set_option Elab.async false

namespace Sys2Proof.Machine

open Sys2Proof

/-- Reading a table after one entry was changed. -/
theorem getT_modT {α : Type} [DecidableEq α] {d : α} {t : Tab α} {j k : Nat} {f : α → α} (h : wfT d t = true) :
    getT d (modT d t j f) k = if k = j then f (getT d t j) else getT d t k := by
  split
  · rename_i e; rw [e]; exact getT_setT_self d t j _ none h
  · rename_i e; exact getT_setT_other d t j k _ e

variable {s : State} {j k : Nat}

section
variable {t : Nat} {f : Fn → Fn}
@[simp] theorem State.modFn_shadow : (s.modFn t f).shadow = s.shadow := rfl
@[simp] theorem State.modFn_comm : (s.modFn t f).comm = s.comm := rfl
@[simp] theorem State.modFn_setup : (s.modFn t f).setup = s.setup := rfl
@[simp] theorem State.modFn_numVfs : (s.modFn t f).numVfs = s.numVfs := rfl
@[simp] theorem State.modFn_fns : (s.modFn t f).fns = modT {} s.fns t f := rfl
@[simp] theorem State.modFn_rings : (s.modFn t f).rings = s.rings := rfl
@[simp] theorem State.modFn_lanes : (s.modFn t f).lanes = s.lanes := rfl
@[simp] theorem State.modFn_groups : (s.modFn t f).groups = s.groups := rfl
@[simp] theorem State.modFn_outGrps : (s.modFn t f).outGrps = s.outGrps := rfl
@[simp] theorem State.modFn_outLanes : (s.modFn t f).outLanes = s.outLanes := rfl
@[simp] theorem State.modFn_dies : (s.modFn t f).dies = s.dies := rfl
@[simp] theorem State.modFn_hbmStacks : (s.modFn t f).hbmStacks = s.hbmStacks := rfl
@[simp] theorem State.modFn_grid : (s.modFn t f).grid = s.grid := rfl
@[simp] theorem State.modFn_subs : (s.modFn t f).subs = s.subs := rfl
@[simp] theorem State.modFn_beams : (s.modFn t f).beams = s.beams := rfl
@[simp] theorem State.modFn_topks : (s.modFn t f).topks = s.topks := rfl
@[simp] theorem State.modFn_topkNext : (s.modFn t f).topkNext = s.topkNext := rfl
@[simp] theorem State.modFn_handles : (s.modFn t f).handles = s.handles := rfl
@[simp] theorem State.modFn_allocs : (s.modFn t f).allocs = s.allocs := rfl
@[simp] theorem State.modFn_hbm : (s.modFn t f).hbm = s.hbm := rfl
@[simp] theorem State.modFn_posts : (s.modFn t f).posts = s.posts := rfl
@[simp] theorem State.modFn_flagSeq : (s.modFn t f).flagSeq = s.flagSeq := rfl
@[simp] theorem State.modFn_flagWaits : (s.modFn t f).flagWaits = s.flagWaits := rfl
@[simp] theorem State.modFn_chains : (s.modFn t f).chains = s.chains := rfl
@[simp] theorem State.modFn_engs : (s.modFn t f).engs = s.engs := rfl
@[simp] theorem State.modFn_egroups : (s.modFn t f).egroups = s.egroups := rfl
@[simp] theorem State.modFn_dec : (s.modFn t f).dec = s.dec := rfl
@[simp] theorem State.modFn_dmas : (s.modFn t f).dmas = s.dmas := rfl
@[simp] theorem State.modFn_tlb : (s.modFn t f).tlb = s.tlb := rfl
@[simp] theorem State.modFn_invals : (s.modFn t f).invals = s.invals := rfl
@[simp] theorem State.modFn_locks : (s.modFn t f).locks = s.locks := rfl
@[simp] theorem State.modFn_tuFaults : (s.modFn t f).tuFaults = s.tuFaults := rfl
@[simp] theorem State.modFn_arbCommits : (s.modFn t f).arbCommits = s.arbCommits := rfl
@[simp] theorem State.modFn_fabDecerr : (s.modFn t f).fabDecerr = s.fabDecerr := rfl
@[simp] theorem State.modFn_fabDecAddr : (s.modFn t f).fabDecAddr = s.fabDecAddr := rfl
@[simp] theorem State.modFn_fabHold : (s.modFn t f).fabHold = s.fabHold := rfl
@[simp] theorem State.modFn_ports : (s.modFn t f).ports = s.ports := rfl
@[simp] theorem State.modFn_mgmt : (s.modFn t f).mgmt = s.mgmt := rfl
@[simp] theorem State.modFn_time : (s.modFn t f).time = s.time := rfl
@[simp] theorem State.modFn_rst : (s.modFn t f).rst = s.rst := rfl
@[simp] theorem State.modFn_out : (s.modFn t f).out = s.out := rfl
@[simp] theorem State.modFn_free : (s.modFn t f).free = s.free := rfl
@[simp] theorem State.modFn_pending : (s.modFn t f).pending = s.pending := rfl
/-- The accessors of the other fields. -/
@[simp] theorem State.modFn_reads :
    (s.modFn t f).ring j k = s.ring j k ∧ (s.modFn t f).lane j = s.lane j ∧ (s.modFn t f).group j = s.group j ∧
    (s.modFn t f).outGrp j = s.outGrp j ∧ (s.modFn t f).outLane j = s.outLane j ∧ (s.modFn t f).die j = s.die j ∧
    (s.modFn t f).stack j k = s.stack j k ∧ (s.modFn t f).subr j = s.subr j ∧ (s.modFn t f).beam j = s.beam j ∧
    (s.modFn t f).topk j = s.topk j ∧ (s.modFn t f).chain j = s.chain j ∧ (s.modFn t f).eng j = s.eng j ∧
    (s.modFn t f).egroup j = s.egroup j ∧ (s.modFn t f).dma j = s.dma j ∧ (s.modFn t f).lock j = s.lock j ∧
    (s.modFn t f).port j = s.port j ∧ (s.modFn t f).dom j = s.dom j ∧ (s.modFn t f).ref j = s.ref j ∧ (s.modFn t f).reg j = s.reg j := ⟨rfl, rfl, rfl, rfl, rfl, rfl, rfl, rfl, rfl, rfl, rfl, rfl, rfl, rfl, rfl, rfl, rfl, rfl, rfl⟩
end

section
variable {x : Nat} {f : Lane → Lane}
@[simp] theorem State.modLane_shadow : (s.modLane x f).shadow = s.shadow := rfl
@[simp] theorem State.modLane_comm : (s.modLane x f).comm = s.comm := rfl
@[simp] theorem State.modLane_setup : (s.modLane x f).setup = s.setup := rfl
@[simp] theorem State.modLane_numVfs : (s.modLane x f).numVfs = s.numVfs := rfl
@[simp] theorem State.modLane_fns : (s.modLane x f).fns = s.fns := rfl
@[simp] theorem State.modLane_rings : (s.modLane x f).rings = s.rings := rfl
@[simp] theorem State.modLane_lanes : (s.modLane x f).lanes = modT {} s.lanes x f := rfl
@[simp] theorem State.modLane_groups : (s.modLane x f).groups = s.groups := rfl
@[simp] theorem State.modLane_outGrps : (s.modLane x f).outGrps = s.outGrps := rfl
@[simp] theorem State.modLane_outLanes : (s.modLane x f).outLanes = s.outLanes := rfl
@[simp] theorem State.modLane_dies : (s.modLane x f).dies = s.dies := rfl
@[simp] theorem State.modLane_hbmStacks : (s.modLane x f).hbmStacks = s.hbmStacks := rfl
@[simp] theorem State.modLane_grid : (s.modLane x f).grid = s.grid := rfl
@[simp] theorem State.modLane_subs : (s.modLane x f).subs = s.subs := rfl
@[simp] theorem State.modLane_beams : (s.modLane x f).beams = s.beams := rfl
@[simp] theorem State.modLane_topks : (s.modLane x f).topks = s.topks := rfl
@[simp] theorem State.modLane_topkNext : (s.modLane x f).topkNext = s.topkNext := rfl
@[simp] theorem State.modLane_handles : (s.modLane x f).handles = s.handles := rfl
@[simp] theorem State.modLane_allocs : (s.modLane x f).allocs = s.allocs := rfl
@[simp] theorem State.modLane_hbm : (s.modLane x f).hbm = s.hbm := rfl
@[simp] theorem State.modLane_posts : (s.modLane x f).posts = s.posts := rfl
@[simp] theorem State.modLane_flagSeq : (s.modLane x f).flagSeq = s.flagSeq := rfl
@[simp] theorem State.modLane_flagWaits : (s.modLane x f).flagWaits = s.flagWaits := rfl
@[simp] theorem State.modLane_chains : (s.modLane x f).chains = s.chains := rfl
@[simp] theorem State.modLane_engs : (s.modLane x f).engs = s.engs := rfl
@[simp] theorem State.modLane_egroups : (s.modLane x f).egroups = s.egroups := rfl
@[simp] theorem State.modLane_dec : (s.modLane x f).dec = s.dec := rfl
@[simp] theorem State.modLane_dmas : (s.modLane x f).dmas = s.dmas := rfl
@[simp] theorem State.modLane_tlb : (s.modLane x f).tlb = s.tlb := rfl
@[simp] theorem State.modLane_invals : (s.modLane x f).invals = s.invals := rfl
@[simp] theorem State.modLane_locks : (s.modLane x f).locks = s.locks := rfl
@[simp] theorem State.modLane_tuFaults : (s.modLane x f).tuFaults = s.tuFaults := rfl
@[simp] theorem State.modLane_arbCommits : (s.modLane x f).arbCommits = s.arbCommits := rfl
@[simp] theorem State.modLane_fabDecerr : (s.modLane x f).fabDecerr = s.fabDecerr := rfl
@[simp] theorem State.modLane_fabDecAddr : (s.modLane x f).fabDecAddr = s.fabDecAddr := rfl
@[simp] theorem State.modLane_fabHold : (s.modLane x f).fabHold = s.fabHold := rfl
@[simp] theorem State.modLane_ports : (s.modLane x f).ports = s.ports := rfl
@[simp] theorem State.modLane_mgmt : (s.modLane x f).mgmt = s.mgmt := rfl
@[simp] theorem State.modLane_time : (s.modLane x f).time = s.time := rfl
@[simp] theorem State.modLane_rst : (s.modLane x f).rst = s.rst := rfl
@[simp] theorem State.modLane_out : (s.modLane x f).out = s.out := rfl
@[simp] theorem State.modLane_free : (s.modLane x f).free = s.free := rfl
@[simp] theorem State.modLane_pending : (s.modLane x f).pending = s.pending := rfl
/-- The accessors of the other fields. -/
@[simp] theorem State.modLane_reads :
    (s.modLane x f).fn j = s.fn j ∧ (s.modLane x f).ring j k = s.ring j k ∧ (s.modLane x f).group j = s.group j ∧
    (s.modLane x f).outGrp j = s.outGrp j ∧ (s.modLane x f).outLane j = s.outLane j ∧ (s.modLane x f).die j = s.die j ∧
    (s.modLane x f).stack j k = s.stack j k ∧ (s.modLane x f).subr j = s.subr j ∧ (s.modLane x f).beam j = s.beam j ∧
    (s.modLane x f).topk j = s.topk j ∧ (s.modLane x f).chain j = s.chain j ∧ (s.modLane x f).eng j = s.eng j ∧
    (s.modLane x f).egroup j = s.egroup j ∧ (s.modLane x f).dma j = s.dma j ∧ (s.modLane x f).lock j = s.lock j ∧
    (s.modLane x f).port j = s.port j ∧ (s.modLane x f).dom j = s.dom j ∧ (s.modLane x f).ref j = s.ref j ∧
    (s.modLane x f).reg j = s.reg j := ⟨rfl, rfl, rfl, rfl, rfl, rfl, rfl, rfl, rfl, rfl, rfl, rfl, rfl, rfl, rfl, rfl, rfl, rfl, rfl⟩
end

section
variable {g : Nat} {f : Group → Group}
@[simp] theorem State.modGroup_shadow : (s.modGroup g f).shadow = s.shadow := rfl
@[simp] theorem State.modGroup_comm : (s.modGroup g f).comm = s.comm := rfl
@[simp] theorem State.modGroup_setup : (s.modGroup g f).setup = s.setup := rfl
@[simp] theorem State.modGroup_numVfs : (s.modGroup g f).numVfs = s.numVfs := rfl
@[simp] theorem State.modGroup_fns : (s.modGroup g f).fns = s.fns := rfl
@[simp] theorem State.modGroup_rings : (s.modGroup g f).rings = s.rings := rfl
@[simp] theorem State.modGroup_lanes : (s.modGroup g f).lanes = s.lanes := rfl
@[simp] theorem State.modGroup_groups : (s.modGroup g f).groups = modT {} s.groups g f := rfl
@[simp] theorem State.modGroup_outGrps : (s.modGroup g f).outGrps = s.outGrps := rfl
@[simp] theorem State.modGroup_outLanes : (s.modGroup g f).outLanes = s.outLanes := rfl
@[simp] theorem State.modGroup_dies : (s.modGroup g f).dies = s.dies := rfl
@[simp] theorem State.modGroup_hbmStacks : (s.modGroup g f).hbmStacks = s.hbmStacks := rfl
@[simp] theorem State.modGroup_grid : (s.modGroup g f).grid = s.grid := rfl
@[simp] theorem State.modGroup_subs : (s.modGroup g f).subs = s.subs := rfl
@[simp] theorem State.modGroup_beams : (s.modGroup g f).beams = s.beams := rfl
@[simp] theorem State.modGroup_topks : (s.modGroup g f).topks = s.topks := rfl
@[simp] theorem State.modGroup_topkNext : (s.modGroup g f).topkNext = s.topkNext := rfl
@[simp] theorem State.modGroup_handles : (s.modGroup g f).handles = s.handles := rfl
@[simp] theorem State.modGroup_allocs : (s.modGroup g f).allocs = s.allocs := rfl
@[simp] theorem State.modGroup_hbm : (s.modGroup g f).hbm = s.hbm := rfl
@[simp] theorem State.modGroup_posts : (s.modGroup g f).posts = s.posts := rfl
@[simp] theorem State.modGroup_flagSeq : (s.modGroup g f).flagSeq = s.flagSeq := rfl
@[simp] theorem State.modGroup_flagWaits : (s.modGroup g f).flagWaits = s.flagWaits := rfl
@[simp] theorem State.modGroup_chains : (s.modGroup g f).chains = s.chains := rfl
@[simp] theorem State.modGroup_engs : (s.modGroup g f).engs = s.engs := rfl
@[simp] theorem State.modGroup_egroups : (s.modGroup g f).egroups = s.egroups := rfl
@[simp] theorem State.modGroup_dec : (s.modGroup g f).dec = s.dec := rfl
@[simp] theorem State.modGroup_dmas : (s.modGroup g f).dmas = s.dmas := rfl
@[simp] theorem State.modGroup_tlb : (s.modGroup g f).tlb = s.tlb := rfl
@[simp] theorem State.modGroup_invals : (s.modGroup g f).invals = s.invals := rfl
@[simp] theorem State.modGroup_locks : (s.modGroup g f).locks = s.locks := rfl
@[simp] theorem State.modGroup_tuFaults : (s.modGroup g f).tuFaults = s.tuFaults := rfl
@[simp] theorem State.modGroup_arbCommits : (s.modGroup g f).arbCommits = s.arbCommits := rfl
@[simp] theorem State.modGroup_fabDecerr : (s.modGroup g f).fabDecerr = s.fabDecerr := rfl
@[simp] theorem State.modGroup_fabDecAddr : (s.modGroup g f).fabDecAddr = s.fabDecAddr := rfl
@[simp] theorem State.modGroup_fabHold : (s.modGroup g f).fabHold = s.fabHold := rfl
@[simp] theorem State.modGroup_ports : (s.modGroup g f).ports = s.ports := rfl
@[simp] theorem State.modGroup_mgmt : (s.modGroup g f).mgmt = s.mgmt := rfl
@[simp] theorem State.modGroup_time : (s.modGroup g f).time = s.time := rfl
@[simp] theorem State.modGroup_rst : (s.modGroup g f).rst = s.rst := rfl
@[simp] theorem State.modGroup_out : (s.modGroup g f).out = s.out := rfl
@[simp] theorem State.modGroup_free : (s.modGroup g f).free = s.free := rfl
@[simp] theorem State.modGroup_pending : (s.modGroup g f).pending = s.pending := rfl
/-- The accessors of the other fields. -/
@[simp] theorem State.modGroup_reads :
    (s.modGroup g f).fn j = s.fn j ∧ (s.modGroup g f).ring j k = s.ring j k ∧ (s.modGroup g f).lane j = s.lane j ∧
    (s.modGroup g f).outGrp j = s.outGrp j ∧ (s.modGroup g f).outLane j = s.outLane j ∧ (s.modGroup g f).die j = s.die j ∧
    (s.modGroup g f).stack j k = s.stack j k ∧ (s.modGroup g f).subr j = s.subr j ∧ (s.modGroup g f).beam j = s.beam j ∧
    (s.modGroup g f).topk j = s.topk j ∧ (s.modGroup g f).chain j = s.chain j ∧ (s.modGroup g f).eng j = s.eng j ∧
    (s.modGroup g f).egroup j = s.egroup j ∧ (s.modGroup g f).dma j = s.dma j ∧ (s.modGroup g f).lock j = s.lock j ∧
    (s.modGroup g f).port j = s.port j ∧ (s.modGroup g f).dom j = s.dom j ∧ (s.modGroup g f).ref j = s.ref j ∧
    (s.modGroup g f).reg j = s.reg j := ⟨rfl, rfl, rfl, rfl, rfl, rfl, rfl, rfl, rfl, rfl, rfl, rfl, rfl, rfl, rfl, rfl, rfl, rfl, rfl⟩
end

section
variable {g : Nat} {f : OutGroup → OutGroup}
@[simp] theorem State.modOutGrp_shadow : (s.modOutGrp g f).shadow = s.shadow := rfl
@[simp] theorem State.modOutGrp_comm : (s.modOutGrp g f).comm = s.comm := rfl
@[simp] theorem State.modOutGrp_setup : (s.modOutGrp g f).setup = s.setup := rfl
@[simp] theorem State.modOutGrp_numVfs : (s.modOutGrp g f).numVfs = s.numVfs := rfl
@[simp] theorem State.modOutGrp_fns : (s.modOutGrp g f).fns = s.fns := rfl
@[simp] theorem State.modOutGrp_rings : (s.modOutGrp g f).rings = s.rings := rfl
@[simp] theorem State.modOutGrp_lanes : (s.modOutGrp g f).lanes = s.lanes := rfl
@[simp] theorem State.modOutGrp_groups : (s.modOutGrp g f).groups = s.groups := rfl
@[simp] theorem State.modOutGrp_outGrps : (s.modOutGrp g f).outGrps = modT {} s.outGrps g f := rfl
@[simp] theorem State.modOutGrp_outLanes : (s.modOutGrp g f).outLanes = s.outLanes := rfl
@[simp] theorem State.modOutGrp_dies : (s.modOutGrp g f).dies = s.dies := rfl
@[simp] theorem State.modOutGrp_hbmStacks : (s.modOutGrp g f).hbmStacks = s.hbmStacks := rfl
@[simp] theorem State.modOutGrp_grid : (s.modOutGrp g f).grid = s.grid := rfl
@[simp] theorem State.modOutGrp_subs : (s.modOutGrp g f).subs = s.subs := rfl
@[simp] theorem State.modOutGrp_beams : (s.modOutGrp g f).beams = s.beams := rfl
@[simp] theorem State.modOutGrp_topks : (s.modOutGrp g f).topks = s.topks := rfl
@[simp] theorem State.modOutGrp_topkNext : (s.modOutGrp g f).topkNext = s.topkNext := rfl
@[simp] theorem State.modOutGrp_handles : (s.modOutGrp g f).handles = s.handles := rfl
@[simp] theorem State.modOutGrp_allocs : (s.modOutGrp g f).allocs = s.allocs := rfl
@[simp] theorem State.modOutGrp_hbm : (s.modOutGrp g f).hbm = s.hbm := rfl
@[simp] theorem State.modOutGrp_posts : (s.modOutGrp g f).posts = s.posts := rfl
@[simp] theorem State.modOutGrp_flagSeq : (s.modOutGrp g f).flagSeq = s.flagSeq := rfl
@[simp] theorem State.modOutGrp_flagWaits : (s.modOutGrp g f).flagWaits = s.flagWaits := rfl
@[simp] theorem State.modOutGrp_chains : (s.modOutGrp g f).chains = s.chains := rfl
@[simp] theorem State.modOutGrp_engs : (s.modOutGrp g f).engs = s.engs := rfl
@[simp] theorem State.modOutGrp_egroups : (s.modOutGrp g f).egroups = s.egroups := rfl
@[simp] theorem State.modOutGrp_dec : (s.modOutGrp g f).dec = s.dec := rfl
@[simp] theorem State.modOutGrp_dmas : (s.modOutGrp g f).dmas = s.dmas := rfl
@[simp] theorem State.modOutGrp_tlb : (s.modOutGrp g f).tlb = s.tlb := rfl
@[simp] theorem State.modOutGrp_invals : (s.modOutGrp g f).invals = s.invals := rfl
@[simp] theorem State.modOutGrp_locks : (s.modOutGrp g f).locks = s.locks := rfl
@[simp] theorem State.modOutGrp_tuFaults : (s.modOutGrp g f).tuFaults = s.tuFaults := rfl
@[simp] theorem State.modOutGrp_arbCommits : (s.modOutGrp g f).arbCommits = s.arbCommits := rfl
@[simp] theorem State.modOutGrp_fabDecerr : (s.modOutGrp g f).fabDecerr = s.fabDecerr := rfl
@[simp] theorem State.modOutGrp_fabDecAddr : (s.modOutGrp g f).fabDecAddr = s.fabDecAddr := rfl
@[simp] theorem State.modOutGrp_fabHold : (s.modOutGrp g f).fabHold = s.fabHold := rfl
@[simp] theorem State.modOutGrp_ports : (s.modOutGrp g f).ports = s.ports := rfl
@[simp] theorem State.modOutGrp_mgmt : (s.modOutGrp g f).mgmt = s.mgmt := rfl
@[simp] theorem State.modOutGrp_time : (s.modOutGrp g f).time = s.time := rfl
@[simp] theorem State.modOutGrp_rst : (s.modOutGrp g f).rst = s.rst := rfl
@[simp] theorem State.modOutGrp_out : (s.modOutGrp g f).out = s.out := rfl
@[simp] theorem State.modOutGrp_free : (s.modOutGrp g f).free = s.free := rfl
@[simp] theorem State.modOutGrp_pending : (s.modOutGrp g f).pending = s.pending := rfl
/-- The accessors of the other fields. -/
@[simp] theorem State.modOutGrp_reads :
    (s.modOutGrp g f).fn j = s.fn j ∧ (s.modOutGrp g f).ring j k = s.ring j k ∧ (s.modOutGrp g f).lane j = s.lane j ∧
    (s.modOutGrp g f).group j = s.group j ∧ (s.modOutGrp g f).outLane j = s.outLane j ∧ (s.modOutGrp g f).die j = s.die j ∧
    (s.modOutGrp g f).stack j k = s.stack j k ∧ (s.modOutGrp g f).subr j = s.subr j ∧ (s.modOutGrp g f).beam j = s.beam j ∧
    (s.modOutGrp g f).topk j = s.topk j ∧ (s.modOutGrp g f).chain j = s.chain j ∧ (s.modOutGrp g f).eng j = s.eng j ∧
    (s.modOutGrp g f).egroup j = s.egroup j ∧ (s.modOutGrp g f).dma j = s.dma j ∧ (s.modOutGrp g f).lock j = s.lock j ∧
    (s.modOutGrp g f).port j = s.port j ∧ (s.modOutGrp g f).dom j = s.dom j ∧ (s.modOutGrp g f).ref j = s.ref j ∧
    (s.modOutGrp g f).reg j = s.reg j := ⟨rfl, rfl, rfl, rfl, rfl, rfl, rfl, rfl, rfl, rfl, rfl, rfl, rfl, rfl, rfl, rfl, rfl, rfl, rfl⟩
end

section
variable {x : Nat} {f : OutLane → OutLane}
@[simp] theorem State.modOutLane_shadow : (s.modOutLane x f).shadow = s.shadow := rfl
@[simp] theorem State.modOutLane_comm : (s.modOutLane x f).comm = s.comm := rfl
@[simp] theorem State.modOutLane_setup : (s.modOutLane x f).setup = s.setup := rfl
@[simp] theorem State.modOutLane_numVfs : (s.modOutLane x f).numVfs = s.numVfs := rfl
@[simp] theorem State.modOutLane_fns : (s.modOutLane x f).fns = s.fns := rfl
@[simp] theorem State.modOutLane_rings : (s.modOutLane x f).rings = s.rings := rfl
@[simp] theorem State.modOutLane_lanes : (s.modOutLane x f).lanes = s.lanes := rfl
@[simp] theorem State.modOutLane_groups : (s.modOutLane x f).groups = s.groups := rfl
@[simp] theorem State.modOutLane_outGrps : (s.modOutLane x f).outGrps = s.outGrps := rfl
@[simp] theorem State.modOutLane_outLanes : (s.modOutLane x f).outLanes = modT {} s.outLanes x f := rfl
@[simp] theorem State.modOutLane_dies : (s.modOutLane x f).dies = s.dies := rfl
@[simp] theorem State.modOutLane_hbmStacks : (s.modOutLane x f).hbmStacks = s.hbmStacks := rfl
@[simp] theorem State.modOutLane_grid : (s.modOutLane x f).grid = s.grid := rfl
@[simp] theorem State.modOutLane_subs : (s.modOutLane x f).subs = s.subs := rfl
@[simp] theorem State.modOutLane_beams : (s.modOutLane x f).beams = s.beams := rfl
@[simp] theorem State.modOutLane_topks : (s.modOutLane x f).topks = s.topks := rfl
@[simp] theorem State.modOutLane_topkNext : (s.modOutLane x f).topkNext = s.topkNext := rfl
@[simp] theorem State.modOutLane_handles : (s.modOutLane x f).handles = s.handles := rfl
@[simp] theorem State.modOutLane_allocs : (s.modOutLane x f).allocs = s.allocs := rfl
@[simp] theorem State.modOutLane_hbm : (s.modOutLane x f).hbm = s.hbm := rfl
@[simp] theorem State.modOutLane_posts : (s.modOutLane x f).posts = s.posts := rfl
@[simp] theorem State.modOutLane_flagSeq : (s.modOutLane x f).flagSeq = s.flagSeq := rfl
@[simp] theorem State.modOutLane_flagWaits : (s.modOutLane x f).flagWaits = s.flagWaits := rfl
@[simp] theorem State.modOutLane_chains : (s.modOutLane x f).chains = s.chains := rfl
@[simp] theorem State.modOutLane_engs : (s.modOutLane x f).engs = s.engs := rfl
@[simp] theorem State.modOutLane_egroups : (s.modOutLane x f).egroups = s.egroups := rfl
@[simp] theorem State.modOutLane_dec : (s.modOutLane x f).dec = s.dec := rfl
@[simp] theorem State.modOutLane_dmas : (s.modOutLane x f).dmas = s.dmas := rfl
@[simp] theorem State.modOutLane_tlb : (s.modOutLane x f).tlb = s.tlb := rfl
@[simp] theorem State.modOutLane_invals : (s.modOutLane x f).invals = s.invals := rfl
@[simp] theorem State.modOutLane_locks : (s.modOutLane x f).locks = s.locks := rfl
@[simp] theorem State.modOutLane_tuFaults : (s.modOutLane x f).tuFaults = s.tuFaults := rfl
@[simp] theorem State.modOutLane_arbCommits : (s.modOutLane x f).arbCommits = s.arbCommits := rfl
@[simp] theorem State.modOutLane_fabDecerr : (s.modOutLane x f).fabDecerr = s.fabDecerr := rfl
@[simp] theorem State.modOutLane_fabDecAddr : (s.modOutLane x f).fabDecAddr = s.fabDecAddr := rfl
@[simp] theorem State.modOutLane_fabHold : (s.modOutLane x f).fabHold = s.fabHold := rfl
@[simp] theorem State.modOutLane_ports : (s.modOutLane x f).ports = s.ports := rfl
@[simp] theorem State.modOutLane_mgmt : (s.modOutLane x f).mgmt = s.mgmt := rfl
@[simp] theorem State.modOutLane_time : (s.modOutLane x f).time = s.time := rfl
@[simp] theorem State.modOutLane_rst : (s.modOutLane x f).rst = s.rst := rfl
@[simp] theorem State.modOutLane_out : (s.modOutLane x f).out = s.out := rfl
@[simp] theorem State.modOutLane_free : (s.modOutLane x f).free = s.free := rfl
@[simp] theorem State.modOutLane_pending : (s.modOutLane x f).pending = s.pending := rfl
/-- The accessors of the other fields. -/
@[simp] theorem State.modOutLane_reads :
    (s.modOutLane x f).fn j = s.fn j ∧ (s.modOutLane x f).ring j k = s.ring j k ∧ (s.modOutLane x f).lane j = s.lane j ∧
    (s.modOutLane x f).group j = s.group j ∧ (s.modOutLane x f).outGrp j = s.outGrp j ∧ (s.modOutLane x f).die j = s.die j ∧
    (s.modOutLane x f).stack j k = s.stack j k ∧ (s.modOutLane x f).subr j = s.subr j ∧ (s.modOutLane x f).beam j = s.beam j ∧
    (s.modOutLane x f).topk j = s.topk j ∧ (s.modOutLane x f).chain j = s.chain j ∧ (s.modOutLane x f).eng j = s.eng j ∧
    (s.modOutLane x f).egroup j = s.egroup j ∧ (s.modOutLane x f).dma j = s.dma j ∧ (s.modOutLane x f).lock j = s.lock j ∧
    (s.modOutLane x f).port j = s.port j ∧ (s.modOutLane x f).dom j = s.dom j ∧ (s.modOutLane x f).ref j = s.ref j ∧
    (s.modOutLane x f).reg j = s.reg j := ⟨rfl, rfl, rfl, rfl, rfl, rfl, rfl, rfl, rfl, rfl, rfl, rfl, rfl, rfl, rfl, rfl, rfl, rfl, rfl⟩
end

section
variable {d : Nat} {f : Die → Die}
@[simp] theorem State.modDie_shadow : (s.modDie d f).shadow = s.shadow := rfl
@[simp] theorem State.modDie_comm : (s.modDie d f).comm = s.comm := rfl
@[simp] theorem State.modDie_setup : (s.modDie d f).setup = s.setup := rfl
@[simp] theorem State.modDie_numVfs : (s.modDie d f).numVfs = s.numVfs := rfl
@[simp] theorem State.modDie_fns : (s.modDie d f).fns = s.fns := rfl
@[simp] theorem State.modDie_rings : (s.modDie d f).rings = s.rings := rfl
@[simp] theorem State.modDie_lanes : (s.modDie d f).lanes = s.lanes := rfl
@[simp] theorem State.modDie_groups : (s.modDie d f).groups = s.groups := rfl
@[simp] theorem State.modDie_outGrps : (s.modDie d f).outGrps = s.outGrps := rfl
@[simp] theorem State.modDie_outLanes : (s.modDie d f).outLanes = s.outLanes := rfl
@[simp] theorem State.modDie_dies : (s.modDie d f).dies = modT {} s.dies d f := rfl
@[simp] theorem State.modDie_hbmStacks : (s.modDie d f).hbmStacks = s.hbmStacks := rfl
@[simp] theorem State.modDie_grid : (s.modDie d f).grid = s.grid := rfl
@[simp] theorem State.modDie_subs : (s.modDie d f).subs = s.subs := rfl
@[simp] theorem State.modDie_beams : (s.modDie d f).beams = s.beams := rfl
@[simp] theorem State.modDie_topks : (s.modDie d f).topks = s.topks := rfl
@[simp] theorem State.modDie_topkNext : (s.modDie d f).topkNext = s.topkNext := rfl
@[simp] theorem State.modDie_handles : (s.modDie d f).handles = s.handles := rfl
@[simp] theorem State.modDie_allocs : (s.modDie d f).allocs = s.allocs := rfl
@[simp] theorem State.modDie_hbm : (s.modDie d f).hbm = s.hbm := rfl
@[simp] theorem State.modDie_posts : (s.modDie d f).posts = s.posts := rfl
@[simp] theorem State.modDie_flagSeq : (s.modDie d f).flagSeq = s.flagSeq := rfl
@[simp] theorem State.modDie_flagWaits : (s.modDie d f).flagWaits = s.flagWaits := rfl
@[simp] theorem State.modDie_chains : (s.modDie d f).chains = s.chains := rfl
@[simp] theorem State.modDie_engs : (s.modDie d f).engs = s.engs := rfl
@[simp] theorem State.modDie_egroups : (s.modDie d f).egroups = s.egroups := rfl
@[simp] theorem State.modDie_dec : (s.modDie d f).dec = s.dec := rfl
@[simp] theorem State.modDie_dmas : (s.modDie d f).dmas = s.dmas := rfl
@[simp] theorem State.modDie_tlb : (s.modDie d f).tlb = s.tlb := rfl
@[simp] theorem State.modDie_invals : (s.modDie d f).invals = s.invals := rfl
@[simp] theorem State.modDie_locks : (s.modDie d f).locks = s.locks := rfl
@[simp] theorem State.modDie_tuFaults : (s.modDie d f).tuFaults = s.tuFaults := rfl
@[simp] theorem State.modDie_arbCommits : (s.modDie d f).arbCommits = s.arbCommits := rfl
@[simp] theorem State.modDie_fabDecerr : (s.modDie d f).fabDecerr = s.fabDecerr := rfl
@[simp] theorem State.modDie_fabDecAddr : (s.modDie d f).fabDecAddr = s.fabDecAddr := rfl
@[simp] theorem State.modDie_fabHold : (s.modDie d f).fabHold = s.fabHold := rfl
@[simp] theorem State.modDie_ports : (s.modDie d f).ports = s.ports := rfl
@[simp] theorem State.modDie_mgmt : (s.modDie d f).mgmt = s.mgmt := rfl
@[simp] theorem State.modDie_time : (s.modDie d f).time = s.time := rfl
@[simp] theorem State.modDie_rst : (s.modDie d f).rst = s.rst := rfl
@[simp] theorem State.modDie_out : (s.modDie d f).out = s.out := rfl
@[simp] theorem State.modDie_free : (s.modDie d f).free = s.free := rfl
@[simp] theorem State.modDie_pending : (s.modDie d f).pending = s.pending := rfl
/-- The accessors of the other fields. -/
@[simp] theorem State.modDie_reads :
    (s.modDie d f).fn j = s.fn j ∧ (s.modDie d f).ring j k = s.ring j k ∧ (s.modDie d f).lane j = s.lane j ∧
    (s.modDie d f).group j = s.group j ∧ (s.modDie d f).outGrp j = s.outGrp j ∧ (s.modDie d f).outLane j = s.outLane j ∧
    (s.modDie d f).stack j k = s.stack j k ∧ (s.modDie d f).subr j = s.subr j ∧ (s.modDie d f).beam j = s.beam j ∧
    (s.modDie d f).topk j = s.topk j ∧ (s.modDie d f).chain j = s.chain j ∧ (s.modDie d f).eng j = s.eng j ∧
    (s.modDie d f).egroup j = s.egroup j ∧ (s.modDie d f).dma j = s.dma j ∧ (s.modDie d f).lock j = s.lock j ∧
    (s.modDie d f).port j = s.port j ∧ (s.modDie d f).dom j = s.dom j ∧ (s.modDie d f).ref j = s.ref j ∧ (s.modDie d f).reg j = s.reg j := ⟨rfl, rfl, rfl, rfl, rfl, rfl, rfl, rfl, rfl, rfl, rfl, rfl, rfl, rfl, rfl, rfl, rfl, rfl, rfl⟩
end

section
variable {n : Nat} {f : Sub → Sub}
@[simp] theorem State.modSub_shadow : (s.modSub n f).shadow = s.shadow := rfl
@[simp] theorem State.modSub_comm : (s.modSub n f).comm = s.comm := rfl
@[simp] theorem State.modSub_setup : (s.modSub n f).setup = s.setup := rfl
@[simp] theorem State.modSub_numVfs : (s.modSub n f).numVfs = s.numVfs := rfl
@[simp] theorem State.modSub_fns : (s.modSub n f).fns = s.fns := rfl
@[simp] theorem State.modSub_rings : (s.modSub n f).rings = s.rings := rfl
@[simp] theorem State.modSub_lanes : (s.modSub n f).lanes = s.lanes := rfl
@[simp] theorem State.modSub_groups : (s.modSub n f).groups = s.groups := rfl
@[simp] theorem State.modSub_outGrps : (s.modSub n f).outGrps = s.outGrps := rfl
@[simp] theorem State.modSub_outLanes : (s.modSub n f).outLanes = s.outLanes := rfl
@[simp] theorem State.modSub_dies : (s.modSub n f).dies = s.dies := rfl
@[simp] theorem State.modSub_hbmStacks : (s.modSub n f).hbmStacks = s.hbmStacks := rfl
@[simp] theorem State.modSub_grid : (s.modSub n f).grid = s.grid := rfl
@[simp] theorem State.modSub_subs : (s.modSub n f).subs = modT {} s.subs n f := rfl
@[simp] theorem State.modSub_beams : (s.modSub n f).beams = s.beams := rfl
@[simp] theorem State.modSub_topks : (s.modSub n f).topks = s.topks := rfl
@[simp] theorem State.modSub_topkNext : (s.modSub n f).topkNext = s.topkNext := rfl
@[simp] theorem State.modSub_handles : (s.modSub n f).handles = s.handles := rfl
@[simp] theorem State.modSub_allocs : (s.modSub n f).allocs = s.allocs := rfl
@[simp] theorem State.modSub_hbm : (s.modSub n f).hbm = s.hbm := rfl
@[simp] theorem State.modSub_posts : (s.modSub n f).posts = s.posts := rfl
@[simp] theorem State.modSub_flagSeq : (s.modSub n f).flagSeq = s.flagSeq := rfl
@[simp] theorem State.modSub_flagWaits : (s.modSub n f).flagWaits = s.flagWaits := rfl
@[simp] theorem State.modSub_chains : (s.modSub n f).chains = s.chains := rfl
@[simp] theorem State.modSub_engs : (s.modSub n f).engs = s.engs := rfl
@[simp] theorem State.modSub_egroups : (s.modSub n f).egroups = s.egroups := rfl
@[simp] theorem State.modSub_dec : (s.modSub n f).dec = s.dec := rfl
@[simp] theorem State.modSub_dmas : (s.modSub n f).dmas = s.dmas := rfl
@[simp] theorem State.modSub_tlb : (s.modSub n f).tlb = s.tlb := rfl
@[simp] theorem State.modSub_invals : (s.modSub n f).invals = s.invals := rfl
@[simp] theorem State.modSub_locks : (s.modSub n f).locks = s.locks := rfl
@[simp] theorem State.modSub_tuFaults : (s.modSub n f).tuFaults = s.tuFaults := rfl
@[simp] theorem State.modSub_arbCommits : (s.modSub n f).arbCommits = s.arbCommits := rfl
@[simp] theorem State.modSub_fabDecerr : (s.modSub n f).fabDecerr = s.fabDecerr := rfl
@[simp] theorem State.modSub_fabDecAddr : (s.modSub n f).fabDecAddr = s.fabDecAddr := rfl
@[simp] theorem State.modSub_fabHold : (s.modSub n f).fabHold = s.fabHold := rfl
@[simp] theorem State.modSub_ports : (s.modSub n f).ports = s.ports := rfl
@[simp] theorem State.modSub_mgmt : (s.modSub n f).mgmt = s.mgmt := rfl
@[simp] theorem State.modSub_time : (s.modSub n f).time = s.time := rfl
@[simp] theorem State.modSub_rst : (s.modSub n f).rst = s.rst := rfl
@[simp] theorem State.modSub_out : (s.modSub n f).out = s.out := rfl
@[simp] theorem State.modSub_free : (s.modSub n f).free = s.free := rfl
@[simp] theorem State.modSub_pending : (s.modSub n f).pending = s.pending := rfl
/-- The accessors of the other fields. -/
@[simp] theorem State.modSub_reads :
    (s.modSub n f).fn j = s.fn j ∧ (s.modSub n f).ring j k = s.ring j k ∧ (s.modSub n f).lane j = s.lane j ∧
    (s.modSub n f).group j = s.group j ∧ (s.modSub n f).outGrp j = s.outGrp j ∧ (s.modSub n f).outLane j = s.outLane j ∧
    (s.modSub n f).die j = s.die j ∧ (s.modSub n f).stack j k = s.stack j k ∧ (s.modSub n f).beam j = s.beam j ∧
    (s.modSub n f).topk j = s.topk j ∧ (s.modSub n f).chain j = s.chain j ∧ (s.modSub n f).eng j = s.eng j ∧
    (s.modSub n f).egroup j = s.egroup j ∧ (s.modSub n f).dma j = s.dma j ∧ (s.modSub n f).lock j = s.lock j ∧
    (s.modSub n f).port j = s.port j ∧ (s.modSub n f).dom j = s.dom j ∧ (s.modSub n f).ref j = s.ref j ∧ (s.modSub n f).reg j = s.reg j := ⟨rfl, rfl, rfl, rfl, rfl, rfl, rfl, rfl, rfl, rfl, rfl, rfl, rfl, rfl, rfl, rfl, rfl, rfl, rfl⟩
end

section
variable {n : Nat} {f : Beam → Beam}
@[simp] theorem State.modBeam_shadow : (s.modBeam n f).shadow = s.shadow := rfl
@[simp] theorem State.modBeam_comm : (s.modBeam n f).comm = s.comm := rfl
@[simp] theorem State.modBeam_setup : (s.modBeam n f).setup = s.setup := rfl
@[simp] theorem State.modBeam_numVfs : (s.modBeam n f).numVfs = s.numVfs := rfl
@[simp] theorem State.modBeam_fns : (s.modBeam n f).fns = s.fns := rfl
@[simp] theorem State.modBeam_rings : (s.modBeam n f).rings = s.rings := rfl
@[simp] theorem State.modBeam_lanes : (s.modBeam n f).lanes = s.lanes := rfl
@[simp] theorem State.modBeam_groups : (s.modBeam n f).groups = s.groups := rfl
@[simp] theorem State.modBeam_outGrps : (s.modBeam n f).outGrps = s.outGrps := rfl
@[simp] theorem State.modBeam_outLanes : (s.modBeam n f).outLanes = s.outLanes := rfl
@[simp] theorem State.modBeam_dies : (s.modBeam n f).dies = s.dies := rfl
@[simp] theorem State.modBeam_hbmStacks : (s.modBeam n f).hbmStacks = s.hbmStacks := rfl
@[simp] theorem State.modBeam_grid : (s.modBeam n f).grid = s.grid := rfl
@[simp] theorem State.modBeam_subs : (s.modBeam n f).subs = s.subs := rfl
@[simp] theorem State.modBeam_beams : (s.modBeam n f).beams = modT {} s.beams n f := rfl
@[simp] theorem State.modBeam_topks : (s.modBeam n f).topks = s.topks := rfl
@[simp] theorem State.modBeam_topkNext : (s.modBeam n f).topkNext = s.topkNext := rfl
@[simp] theorem State.modBeam_handles : (s.modBeam n f).handles = s.handles := rfl
@[simp] theorem State.modBeam_allocs : (s.modBeam n f).allocs = s.allocs := rfl
@[simp] theorem State.modBeam_hbm : (s.modBeam n f).hbm = s.hbm := rfl
@[simp] theorem State.modBeam_posts : (s.modBeam n f).posts = s.posts := rfl
@[simp] theorem State.modBeam_flagSeq : (s.modBeam n f).flagSeq = s.flagSeq := rfl
@[simp] theorem State.modBeam_flagWaits : (s.modBeam n f).flagWaits = s.flagWaits := rfl
@[simp] theorem State.modBeam_chains : (s.modBeam n f).chains = s.chains := rfl
@[simp] theorem State.modBeam_engs : (s.modBeam n f).engs = s.engs := rfl
@[simp] theorem State.modBeam_egroups : (s.modBeam n f).egroups = s.egroups := rfl
@[simp] theorem State.modBeam_dec : (s.modBeam n f).dec = s.dec := rfl
@[simp] theorem State.modBeam_dmas : (s.modBeam n f).dmas = s.dmas := rfl
@[simp] theorem State.modBeam_tlb : (s.modBeam n f).tlb = s.tlb := rfl
@[simp] theorem State.modBeam_invals : (s.modBeam n f).invals = s.invals := rfl
@[simp] theorem State.modBeam_locks : (s.modBeam n f).locks = s.locks := rfl
@[simp] theorem State.modBeam_tuFaults : (s.modBeam n f).tuFaults = s.tuFaults := rfl
@[simp] theorem State.modBeam_arbCommits : (s.modBeam n f).arbCommits = s.arbCommits := rfl
@[simp] theorem State.modBeam_fabDecerr : (s.modBeam n f).fabDecerr = s.fabDecerr := rfl
@[simp] theorem State.modBeam_fabDecAddr : (s.modBeam n f).fabDecAddr = s.fabDecAddr := rfl
@[simp] theorem State.modBeam_fabHold : (s.modBeam n f).fabHold = s.fabHold := rfl
@[simp] theorem State.modBeam_ports : (s.modBeam n f).ports = s.ports := rfl
@[simp] theorem State.modBeam_mgmt : (s.modBeam n f).mgmt = s.mgmt := rfl
@[simp] theorem State.modBeam_time : (s.modBeam n f).time = s.time := rfl
@[simp] theorem State.modBeam_rst : (s.modBeam n f).rst = s.rst := rfl
@[simp] theorem State.modBeam_out : (s.modBeam n f).out = s.out := rfl
@[simp] theorem State.modBeam_free : (s.modBeam n f).free = s.free := rfl
@[simp] theorem State.modBeam_pending : (s.modBeam n f).pending = s.pending := rfl
/-- The accessors of the other fields. -/
@[simp] theorem State.modBeam_reads :
    (s.modBeam n f).fn j = s.fn j ∧ (s.modBeam n f).ring j k = s.ring j k ∧ (s.modBeam n f).lane j = s.lane j ∧
    (s.modBeam n f).group j = s.group j ∧ (s.modBeam n f).outGrp j = s.outGrp j ∧ (s.modBeam n f).outLane j = s.outLane j ∧
    (s.modBeam n f).die j = s.die j ∧ (s.modBeam n f).stack j k = s.stack j k ∧ (s.modBeam n f).subr j = s.subr j ∧
    (s.modBeam n f).topk j = s.topk j ∧ (s.modBeam n f).chain j = s.chain j ∧ (s.modBeam n f).eng j = s.eng j ∧
    (s.modBeam n f).egroup j = s.egroup j ∧ (s.modBeam n f).dma j = s.dma j ∧ (s.modBeam n f).lock j = s.lock j ∧
    (s.modBeam n f).port j = s.port j ∧ (s.modBeam n f).dom j = s.dom j ∧ (s.modBeam n f).ref j = s.ref j ∧
    (s.modBeam n f).reg j = s.reg j := ⟨rfl, rfl, rfl, rfl, rfl, rfl, rfl, rfl, rfl, rfl, rfl, rfl, rfl, rfl, rfl, rfl, rfl, rfl, rfl⟩
end

section
variable {c : Nat} {f : Chain → Chain}
@[simp] theorem State.modChain_shadow : (s.modChain c f).shadow = s.shadow := rfl
@[simp] theorem State.modChain_comm : (s.modChain c f).comm = s.comm := rfl
@[simp] theorem State.modChain_setup : (s.modChain c f).setup = s.setup := rfl
@[simp] theorem State.modChain_numVfs : (s.modChain c f).numVfs = s.numVfs := rfl
@[simp] theorem State.modChain_fns : (s.modChain c f).fns = s.fns := rfl
@[simp] theorem State.modChain_rings : (s.modChain c f).rings = s.rings := rfl
@[simp] theorem State.modChain_lanes : (s.modChain c f).lanes = s.lanes := rfl
@[simp] theorem State.modChain_groups : (s.modChain c f).groups = s.groups := rfl
@[simp] theorem State.modChain_outGrps : (s.modChain c f).outGrps = s.outGrps := rfl
@[simp] theorem State.modChain_outLanes : (s.modChain c f).outLanes = s.outLanes := rfl
@[simp] theorem State.modChain_dies : (s.modChain c f).dies = s.dies := rfl
@[simp] theorem State.modChain_hbmStacks : (s.modChain c f).hbmStacks = s.hbmStacks := rfl
@[simp] theorem State.modChain_grid : (s.modChain c f).grid = s.grid := rfl
@[simp] theorem State.modChain_subs : (s.modChain c f).subs = s.subs := rfl
@[simp] theorem State.modChain_beams : (s.modChain c f).beams = s.beams := rfl
@[simp] theorem State.modChain_topks : (s.modChain c f).topks = s.topks := rfl
@[simp] theorem State.modChain_topkNext : (s.modChain c f).topkNext = s.topkNext := rfl
@[simp] theorem State.modChain_handles : (s.modChain c f).handles = s.handles := rfl
@[simp] theorem State.modChain_allocs : (s.modChain c f).allocs = s.allocs := rfl
@[simp] theorem State.modChain_hbm : (s.modChain c f).hbm = s.hbm := rfl
@[simp] theorem State.modChain_posts : (s.modChain c f).posts = s.posts := rfl
@[simp] theorem State.modChain_flagSeq : (s.modChain c f).flagSeq = s.flagSeq := rfl
@[simp] theorem State.modChain_flagWaits : (s.modChain c f).flagWaits = s.flagWaits := rfl
@[simp] theorem State.modChain_chains : (s.modChain c f).chains = modT {} s.chains c f := rfl
@[simp] theorem State.modChain_engs : (s.modChain c f).engs = s.engs := rfl
@[simp] theorem State.modChain_egroups : (s.modChain c f).egroups = s.egroups := rfl
@[simp] theorem State.modChain_dec : (s.modChain c f).dec = s.dec := rfl
@[simp] theorem State.modChain_dmas : (s.modChain c f).dmas = s.dmas := rfl
@[simp] theorem State.modChain_tlb : (s.modChain c f).tlb = s.tlb := rfl
@[simp] theorem State.modChain_invals : (s.modChain c f).invals = s.invals := rfl
@[simp] theorem State.modChain_locks : (s.modChain c f).locks = s.locks := rfl
@[simp] theorem State.modChain_tuFaults : (s.modChain c f).tuFaults = s.tuFaults := rfl
@[simp] theorem State.modChain_arbCommits : (s.modChain c f).arbCommits = s.arbCommits := rfl
@[simp] theorem State.modChain_fabDecerr : (s.modChain c f).fabDecerr = s.fabDecerr := rfl
@[simp] theorem State.modChain_fabDecAddr : (s.modChain c f).fabDecAddr = s.fabDecAddr := rfl
@[simp] theorem State.modChain_fabHold : (s.modChain c f).fabHold = s.fabHold := rfl
@[simp] theorem State.modChain_ports : (s.modChain c f).ports = s.ports := rfl
@[simp] theorem State.modChain_mgmt : (s.modChain c f).mgmt = s.mgmt := rfl
@[simp] theorem State.modChain_time : (s.modChain c f).time = s.time := rfl
@[simp] theorem State.modChain_rst : (s.modChain c f).rst = s.rst := rfl
@[simp] theorem State.modChain_out : (s.modChain c f).out = s.out := rfl
@[simp] theorem State.modChain_free : (s.modChain c f).free = s.free := rfl
@[simp] theorem State.modChain_pending : (s.modChain c f).pending = s.pending := rfl
/-- The accessors of the other fields. -/
@[simp] theorem State.modChain_reads :
    (s.modChain c f).fn j = s.fn j ∧ (s.modChain c f).ring j k = s.ring j k ∧ (s.modChain c f).lane j = s.lane j ∧
    (s.modChain c f).group j = s.group j ∧ (s.modChain c f).outGrp j = s.outGrp j ∧ (s.modChain c f).outLane j = s.outLane j ∧
    (s.modChain c f).die j = s.die j ∧ (s.modChain c f).stack j k = s.stack j k ∧ (s.modChain c f).subr j = s.subr j ∧
    (s.modChain c f).beam j = s.beam j ∧ (s.modChain c f).topk j = s.topk j ∧ (s.modChain c f).eng j = s.eng j ∧
    (s.modChain c f).egroup j = s.egroup j ∧ (s.modChain c f).dma j = s.dma j ∧ (s.modChain c f).lock j = s.lock j ∧
    (s.modChain c f).port j = s.port j ∧ (s.modChain c f).dom j = s.dom j ∧ (s.modChain c f).ref j = s.ref j ∧
    (s.modChain c f).reg j = s.reg j := ⟨rfl, rfl, rfl, rfl, rfl, rfl, rfl, rfl, rfl, rfl, rfl, rfl, rfl, rfl, rfl, rfl, rfl, rfl, rfl⟩
end

section
variable {e : Nat} {f : Eng → Eng}
@[simp] theorem State.modEng_shadow : (s.modEng e f).shadow = s.shadow := rfl
@[simp] theorem State.modEng_comm : (s.modEng e f).comm = s.comm := rfl
@[simp] theorem State.modEng_setup : (s.modEng e f).setup = s.setup := rfl
@[simp] theorem State.modEng_numVfs : (s.modEng e f).numVfs = s.numVfs := rfl
@[simp] theorem State.modEng_fns : (s.modEng e f).fns = s.fns := rfl
@[simp] theorem State.modEng_rings : (s.modEng e f).rings = s.rings := rfl
@[simp] theorem State.modEng_lanes : (s.modEng e f).lanes = s.lanes := rfl
@[simp] theorem State.modEng_groups : (s.modEng e f).groups = s.groups := rfl
@[simp] theorem State.modEng_outGrps : (s.modEng e f).outGrps = s.outGrps := rfl
@[simp] theorem State.modEng_outLanes : (s.modEng e f).outLanes = s.outLanes := rfl
@[simp] theorem State.modEng_dies : (s.modEng e f).dies = s.dies := rfl
@[simp] theorem State.modEng_hbmStacks : (s.modEng e f).hbmStacks = s.hbmStacks := rfl
@[simp] theorem State.modEng_grid : (s.modEng e f).grid = s.grid := rfl
@[simp] theorem State.modEng_subs : (s.modEng e f).subs = s.subs := rfl
@[simp] theorem State.modEng_beams : (s.modEng e f).beams = s.beams := rfl
@[simp] theorem State.modEng_topks : (s.modEng e f).topks = s.topks := rfl
@[simp] theorem State.modEng_topkNext : (s.modEng e f).topkNext = s.topkNext := rfl
@[simp] theorem State.modEng_handles : (s.modEng e f).handles = s.handles := rfl
@[simp] theorem State.modEng_allocs : (s.modEng e f).allocs = s.allocs := rfl
@[simp] theorem State.modEng_hbm : (s.modEng e f).hbm = s.hbm := rfl
@[simp] theorem State.modEng_posts : (s.modEng e f).posts = s.posts := rfl
@[simp] theorem State.modEng_flagSeq : (s.modEng e f).flagSeq = s.flagSeq := rfl
@[simp] theorem State.modEng_flagWaits : (s.modEng e f).flagWaits = s.flagWaits := rfl
@[simp] theorem State.modEng_chains : (s.modEng e f).chains = s.chains := rfl
@[simp] theorem State.modEng_engs : (s.modEng e f).engs = modT {} s.engs e f := rfl
@[simp] theorem State.modEng_egroups : (s.modEng e f).egroups = s.egroups := rfl
@[simp] theorem State.modEng_dec : (s.modEng e f).dec = s.dec := rfl
@[simp] theorem State.modEng_dmas : (s.modEng e f).dmas = s.dmas := rfl
@[simp] theorem State.modEng_tlb : (s.modEng e f).tlb = s.tlb := rfl
@[simp] theorem State.modEng_invals : (s.modEng e f).invals = s.invals := rfl
@[simp] theorem State.modEng_locks : (s.modEng e f).locks = s.locks := rfl
@[simp] theorem State.modEng_tuFaults : (s.modEng e f).tuFaults = s.tuFaults := rfl
@[simp] theorem State.modEng_arbCommits : (s.modEng e f).arbCommits = s.arbCommits := rfl
@[simp] theorem State.modEng_fabDecerr : (s.modEng e f).fabDecerr = s.fabDecerr := rfl
@[simp] theorem State.modEng_fabDecAddr : (s.modEng e f).fabDecAddr = s.fabDecAddr := rfl
@[simp] theorem State.modEng_fabHold : (s.modEng e f).fabHold = s.fabHold := rfl
@[simp] theorem State.modEng_ports : (s.modEng e f).ports = s.ports := rfl
@[simp] theorem State.modEng_mgmt : (s.modEng e f).mgmt = s.mgmt := rfl
@[simp] theorem State.modEng_time : (s.modEng e f).time = s.time := rfl
@[simp] theorem State.modEng_rst : (s.modEng e f).rst = s.rst := rfl
@[simp] theorem State.modEng_out : (s.modEng e f).out = s.out := rfl
@[simp] theorem State.modEng_free : (s.modEng e f).free = s.free := rfl
@[simp] theorem State.modEng_pending : (s.modEng e f).pending = s.pending := rfl
/-- The accessors of the other fields. -/
@[simp] theorem State.modEng_reads :
    (s.modEng e f).fn j = s.fn j ∧ (s.modEng e f).ring j k = s.ring j k ∧ (s.modEng e f).lane j = s.lane j ∧
    (s.modEng e f).group j = s.group j ∧ (s.modEng e f).outGrp j = s.outGrp j ∧ (s.modEng e f).outLane j = s.outLane j ∧
    (s.modEng e f).die j = s.die j ∧ (s.modEng e f).stack j k = s.stack j k ∧ (s.modEng e f).subr j = s.subr j ∧
    (s.modEng e f).beam j = s.beam j ∧ (s.modEng e f).topk j = s.topk j ∧ (s.modEng e f).chain j = s.chain j ∧
    (s.modEng e f).egroup j = s.egroup j ∧ (s.modEng e f).dma j = s.dma j ∧ (s.modEng e f).lock j = s.lock j ∧
    (s.modEng e f).port j = s.port j ∧ (s.modEng e f).dom j = s.dom j ∧ (s.modEng e f).ref j = s.ref j ∧ (s.modEng e f).reg j = s.reg j := ⟨rfl, rfl, rfl, rfl, rfl, rfl, rfl, rfl, rfl, rfl, rfl, rfl, rfl, rfl, rfl, rfl, rfl, rfl, rfl⟩
end

section
variable {g : Nat} {f : EGroup → EGroup}
@[simp] theorem State.modEGroup_shadow : (s.modEGroup g f).shadow = s.shadow := rfl
@[simp] theorem State.modEGroup_comm : (s.modEGroup g f).comm = s.comm := rfl
@[simp] theorem State.modEGroup_setup : (s.modEGroup g f).setup = s.setup := rfl
@[simp] theorem State.modEGroup_numVfs : (s.modEGroup g f).numVfs = s.numVfs := rfl
@[simp] theorem State.modEGroup_fns : (s.modEGroup g f).fns = s.fns := rfl
@[simp] theorem State.modEGroup_rings : (s.modEGroup g f).rings = s.rings := rfl
@[simp] theorem State.modEGroup_lanes : (s.modEGroup g f).lanes = s.lanes := rfl
@[simp] theorem State.modEGroup_groups : (s.modEGroup g f).groups = s.groups := rfl
@[simp] theorem State.modEGroup_outGrps : (s.modEGroup g f).outGrps = s.outGrps := rfl
@[simp] theorem State.modEGroup_outLanes : (s.modEGroup g f).outLanes = s.outLanes := rfl
@[simp] theorem State.modEGroup_dies : (s.modEGroup g f).dies = s.dies := rfl
@[simp] theorem State.modEGroup_hbmStacks : (s.modEGroup g f).hbmStacks = s.hbmStacks := rfl
@[simp] theorem State.modEGroup_grid : (s.modEGroup g f).grid = s.grid := rfl
@[simp] theorem State.modEGroup_subs : (s.modEGroup g f).subs = s.subs := rfl
@[simp] theorem State.modEGroup_beams : (s.modEGroup g f).beams = s.beams := rfl
@[simp] theorem State.modEGroup_topks : (s.modEGroup g f).topks = s.topks := rfl
@[simp] theorem State.modEGroup_topkNext : (s.modEGroup g f).topkNext = s.topkNext := rfl
@[simp] theorem State.modEGroup_handles : (s.modEGroup g f).handles = s.handles := rfl
@[simp] theorem State.modEGroup_allocs : (s.modEGroup g f).allocs = s.allocs := rfl
@[simp] theorem State.modEGroup_hbm : (s.modEGroup g f).hbm = s.hbm := rfl
@[simp] theorem State.modEGroup_posts : (s.modEGroup g f).posts = s.posts := rfl
@[simp] theorem State.modEGroup_flagSeq : (s.modEGroup g f).flagSeq = s.flagSeq := rfl
@[simp] theorem State.modEGroup_flagWaits : (s.modEGroup g f).flagWaits = s.flagWaits := rfl
@[simp] theorem State.modEGroup_chains : (s.modEGroup g f).chains = s.chains := rfl
@[simp] theorem State.modEGroup_engs : (s.modEGroup g f).engs = s.engs := rfl
@[simp] theorem State.modEGroup_egroups : (s.modEGroup g f).egroups = modT {} s.egroups g f := rfl
@[simp] theorem State.modEGroup_dec : (s.modEGroup g f).dec = s.dec := rfl
@[simp] theorem State.modEGroup_dmas : (s.modEGroup g f).dmas = s.dmas := rfl
@[simp] theorem State.modEGroup_tlb : (s.modEGroup g f).tlb = s.tlb := rfl
@[simp] theorem State.modEGroup_invals : (s.modEGroup g f).invals = s.invals := rfl
@[simp] theorem State.modEGroup_locks : (s.modEGroup g f).locks = s.locks := rfl
@[simp] theorem State.modEGroup_tuFaults : (s.modEGroup g f).tuFaults = s.tuFaults := rfl
@[simp] theorem State.modEGroup_arbCommits : (s.modEGroup g f).arbCommits = s.arbCommits := rfl
@[simp] theorem State.modEGroup_fabDecerr : (s.modEGroup g f).fabDecerr = s.fabDecerr := rfl
@[simp] theorem State.modEGroup_fabDecAddr : (s.modEGroup g f).fabDecAddr = s.fabDecAddr := rfl
@[simp] theorem State.modEGroup_fabHold : (s.modEGroup g f).fabHold = s.fabHold := rfl
@[simp] theorem State.modEGroup_ports : (s.modEGroup g f).ports = s.ports := rfl
@[simp] theorem State.modEGroup_mgmt : (s.modEGroup g f).mgmt = s.mgmt := rfl
@[simp] theorem State.modEGroup_time : (s.modEGroup g f).time = s.time := rfl
@[simp] theorem State.modEGroup_rst : (s.modEGroup g f).rst = s.rst := rfl
@[simp] theorem State.modEGroup_out : (s.modEGroup g f).out = s.out := rfl
@[simp] theorem State.modEGroup_free : (s.modEGroup g f).free = s.free := rfl
@[simp] theorem State.modEGroup_pending : (s.modEGroup g f).pending = s.pending := rfl
/-- The accessors of the other fields. -/
@[simp] theorem State.modEGroup_reads :
    (s.modEGroup g f).fn j = s.fn j ∧ (s.modEGroup g f).ring j k = s.ring j k ∧ (s.modEGroup g f).lane j = s.lane j ∧
    (s.modEGroup g f).group j = s.group j ∧ (s.modEGroup g f).outGrp j = s.outGrp j ∧ (s.modEGroup g f).outLane j = s.outLane j ∧
    (s.modEGroup g f).die j = s.die j ∧ (s.modEGroup g f).stack j k = s.stack j k ∧ (s.modEGroup g f).subr j = s.subr j ∧
    (s.modEGroup g f).beam j = s.beam j ∧ (s.modEGroup g f).topk j = s.topk j ∧ (s.modEGroup g f).chain j = s.chain j ∧
    (s.modEGroup g f).eng j = s.eng j ∧ (s.modEGroup g f).dma j = s.dma j ∧ (s.modEGroup g f).lock j = s.lock j ∧
    (s.modEGroup g f).port j = s.port j ∧ (s.modEGroup g f).dom j = s.dom j ∧ (s.modEGroup g f).ref j = s.ref j ∧
    (s.modEGroup g f).reg j = s.reg j := ⟨rfl, rfl, rfl, rfl, rfl, rfl, rfl, rfl, rfl, rfl, rfl, rfl, rfl, rfl, rfl, rfl, rfl, rfl, rfl⟩
end

section
variable {c : Nat} {f : Dma → Dma}
@[simp] theorem State.modDma_shadow : (s.modDma c f).shadow = s.shadow := rfl
@[simp] theorem State.modDma_comm : (s.modDma c f).comm = s.comm := rfl
@[simp] theorem State.modDma_setup : (s.modDma c f).setup = s.setup := rfl
@[simp] theorem State.modDma_numVfs : (s.modDma c f).numVfs = s.numVfs := rfl
@[simp] theorem State.modDma_fns : (s.modDma c f).fns = s.fns := rfl
@[simp] theorem State.modDma_rings : (s.modDma c f).rings = s.rings := rfl
@[simp] theorem State.modDma_lanes : (s.modDma c f).lanes = s.lanes := rfl
@[simp] theorem State.modDma_groups : (s.modDma c f).groups = s.groups := rfl
@[simp] theorem State.modDma_outGrps : (s.modDma c f).outGrps = s.outGrps := rfl
@[simp] theorem State.modDma_outLanes : (s.modDma c f).outLanes = s.outLanes := rfl
@[simp] theorem State.modDma_dies : (s.modDma c f).dies = s.dies := rfl
@[simp] theorem State.modDma_hbmStacks : (s.modDma c f).hbmStacks = s.hbmStacks := rfl
@[simp] theorem State.modDma_grid : (s.modDma c f).grid = s.grid := rfl
@[simp] theorem State.modDma_subs : (s.modDma c f).subs = s.subs := rfl
@[simp] theorem State.modDma_beams : (s.modDma c f).beams = s.beams := rfl
@[simp] theorem State.modDma_topks : (s.modDma c f).topks = s.topks := rfl
@[simp] theorem State.modDma_topkNext : (s.modDma c f).topkNext = s.topkNext := rfl
@[simp] theorem State.modDma_handles : (s.modDma c f).handles = s.handles := rfl
@[simp] theorem State.modDma_allocs : (s.modDma c f).allocs = s.allocs := rfl
@[simp] theorem State.modDma_hbm : (s.modDma c f).hbm = s.hbm := rfl
@[simp] theorem State.modDma_posts : (s.modDma c f).posts = s.posts := rfl
@[simp] theorem State.modDma_flagSeq : (s.modDma c f).flagSeq = s.flagSeq := rfl
@[simp] theorem State.modDma_flagWaits : (s.modDma c f).flagWaits = s.flagWaits := rfl
@[simp] theorem State.modDma_chains : (s.modDma c f).chains = s.chains := rfl
@[simp] theorem State.modDma_engs : (s.modDma c f).engs = s.engs := rfl
@[simp] theorem State.modDma_egroups : (s.modDma c f).egroups = s.egroups := rfl
@[simp] theorem State.modDma_dec : (s.modDma c f).dec = s.dec := rfl
@[simp] theorem State.modDma_dmas : (s.modDma c f).dmas = modT {} s.dmas c f := rfl
@[simp] theorem State.modDma_tlb : (s.modDma c f).tlb = s.tlb := rfl
@[simp] theorem State.modDma_invals : (s.modDma c f).invals = s.invals := rfl
@[simp] theorem State.modDma_locks : (s.modDma c f).locks = s.locks := rfl
@[simp] theorem State.modDma_tuFaults : (s.modDma c f).tuFaults = s.tuFaults := rfl
@[simp] theorem State.modDma_arbCommits : (s.modDma c f).arbCommits = s.arbCommits := rfl
@[simp] theorem State.modDma_fabDecerr : (s.modDma c f).fabDecerr = s.fabDecerr := rfl
@[simp] theorem State.modDma_fabDecAddr : (s.modDma c f).fabDecAddr = s.fabDecAddr := rfl
@[simp] theorem State.modDma_fabHold : (s.modDma c f).fabHold = s.fabHold := rfl
@[simp] theorem State.modDma_ports : (s.modDma c f).ports = s.ports := rfl
@[simp] theorem State.modDma_mgmt : (s.modDma c f).mgmt = s.mgmt := rfl
@[simp] theorem State.modDma_time : (s.modDma c f).time = s.time := rfl
@[simp] theorem State.modDma_rst : (s.modDma c f).rst = s.rst := rfl
@[simp] theorem State.modDma_out : (s.modDma c f).out = s.out := rfl
@[simp] theorem State.modDma_free : (s.modDma c f).free = s.free := rfl
@[simp] theorem State.modDma_pending : (s.modDma c f).pending = s.pending := rfl
/-- The accessors of the other fields. -/
@[simp] theorem State.modDma_reads :
    (s.modDma c f).fn j = s.fn j ∧ (s.modDma c f).ring j k = s.ring j k ∧ (s.modDma c f).lane j = s.lane j ∧
    (s.modDma c f).group j = s.group j ∧ (s.modDma c f).outGrp j = s.outGrp j ∧ (s.modDma c f).outLane j = s.outLane j ∧
    (s.modDma c f).die j = s.die j ∧ (s.modDma c f).stack j k = s.stack j k ∧ (s.modDma c f).subr j = s.subr j ∧
    (s.modDma c f).beam j = s.beam j ∧ (s.modDma c f).topk j = s.topk j ∧ (s.modDma c f).chain j = s.chain j ∧
    (s.modDma c f).eng j = s.eng j ∧ (s.modDma c f).egroup j = s.egroup j ∧ (s.modDma c f).lock j = s.lock j ∧
    (s.modDma c f).port j = s.port j ∧ (s.modDma c f).dom j = s.dom j ∧ (s.modDma c f).ref j = s.ref j ∧ (s.modDma c f).reg j = s.reg j := ⟨rfl, rfl, rfl, rfl, rfl, rfl, rfl, rfl, rfl, rfl, rfl, rfl, rfl, rfl, rfl, rfl, rfl, rfl, rfl⟩
end

section
variable {n : Nat} {f : Lock → Lock}
@[simp] theorem State.modLock_shadow : (s.modLock n f).shadow = s.shadow := rfl
@[simp] theorem State.modLock_comm : (s.modLock n f).comm = s.comm := rfl
@[simp] theorem State.modLock_setup : (s.modLock n f).setup = s.setup := rfl
@[simp] theorem State.modLock_numVfs : (s.modLock n f).numVfs = s.numVfs := rfl
@[simp] theorem State.modLock_fns : (s.modLock n f).fns = s.fns := rfl
@[simp] theorem State.modLock_rings : (s.modLock n f).rings = s.rings := rfl
@[simp] theorem State.modLock_lanes : (s.modLock n f).lanes = s.lanes := rfl
@[simp] theorem State.modLock_groups : (s.modLock n f).groups = s.groups := rfl
@[simp] theorem State.modLock_outGrps : (s.modLock n f).outGrps = s.outGrps := rfl
@[simp] theorem State.modLock_outLanes : (s.modLock n f).outLanes = s.outLanes := rfl
@[simp] theorem State.modLock_dies : (s.modLock n f).dies = s.dies := rfl
@[simp] theorem State.modLock_hbmStacks : (s.modLock n f).hbmStacks = s.hbmStacks := rfl
@[simp] theorem State.modLock_grid : (s.modLock n f).grid = s.grid := rfl
@[simp] theorem State.modLock_subs : (s.modLock n f).subs = s.subs := rfl
@[simp] theorem State.modLock_beams : (s.modLock n f).beams = s.beams := rfl
@[simp] theorem State.modLock_topks : (s.modLock n f).topks = s.topks := rfl
@[simp] theorem State.modLock_topkNext : (s.modLock n f).topkNext = s.topkNext := rfl
@[simp] theorem State.modLock_handles : (s.modLock n f).handles = s.handles := rfl
@[simp] theorem State.modLock_allocs : (s.modLock n f).allocs = s.allocs := rfl
@[simp] theorem State.modLock_hbm : (s.modLock n f).hbm = s.hbm := rfl
@[simp] theorem State.modLock_posts : (s.modLock n f).posts = s.posts := rfl
@[simp] theorem State.modLock_flagSeq : (s.modLock n f).flagSeq = s.flagSeq := rfl
@[simp] theorem State.modLock_flagWaits : (s.modLock n f).flagWaits = s.flagWaits := rfl
@[simp] theorem State.modLock_chains : (s.modLock n f).chains = s.chains := rfl
@[simp] theorem State.modLock_engs : (s.modLock n f).engs = s.engs := rfl
@[simp] theorem State.modLock_egroups : (s.modLock n f).egroups = s.egroups := rfl
@[simp] theorem State.modLock_dec : (s.modLock n f).dec = s.dec := rfl
@[simp] theorem State.modLock_dmas : (s.modLock n f).dmas = s.dmas := rfl
@[simp] theorem State.modLock_tlb : (s.modLock n f).tlb = s.tlb := rfl
@[simp] theorem State.modLock_invals : (s.modLock n f).invals = s.invals := rfl
@[simp] theorem State.modLock_locks : (s.modLock n f).locks = modT {} s.locks n f := rfl
@[simp] theorem State.modLock_tuFaults : (s.modLock n f).tuFaults = s.tuFaults := rfl
@[simp] theorem State.modLock_arbCommits : (s.modLock n f).arbCommits = s.arbCommits := rfl
@[simp] theorem State.modLock_fabDecerr : (s.modLock n f).fabDecerr = s.fabDecerr := rfl
@[simp] theorem State.modLock_fabDecAddr : (s.modLock n f).fabDecAddr = s.fabDecAddr := rfl
@[simp] theorem State.modLock_fabHold : (s.modLock n f).fabHold = s.fabHold := rfl
@[simp] theorem State.modLock_ports : (s.modLock n f).ports = s.ports := rfl
@[simp] theorem State.modLock_mgmt : (s.modLock n f).mgmt = s.mgmt := rfl
@[simp] theorem State.modLock_time : (s.modLock n f).time = s.time := rfl
@[simp] theorem State.modLock_rst : (s.modLock n f).rst = s.rst := rfl
@[simp] theorem State.modLock_out : (s.modLock n f).out = s.out := rfl
@[simp] theorem State.modLock_free : (s.modLock n f).free = s.free := rfl
@[simp] theorem State.modLock_pending : (s.modLock n f).pending = s.pending := rfl
/-- The accessors of the other fields. -/
@[simp] theorem State.modLock_reads :
    (s.modLock n f).fn j = s.fn j ∧ (s.modLock n f).ring j k = s.ring j k ∧ (s.modLock n f).lane j = s.lane j ∧
    (s.modLock n f).group j = s.group j ∧ (s.modLock n f).outGrp j = s.outGrp j ∧ (s.modLock n f).outLane j = s.outLane j ∧
    (s.modLock n f).die j = s.die j ∧ (s.modLock n f).stack j k = s.stack j k ∧ (s.modLock n f).subr j = s.subr j ∧
    (s.modLock n f).beam j = s.beam j ∧ (s.modLock n f).topk j = s.topk j ∧ (s.modLock n f).chain j = s.chain j ∧
    (s.modLock n f).eng j = s.eng j ∧ (s.modLock n f).egroup j = s.egroup j ∧ (s.modLock n f).dma j = s.dma j ∧
    (s.modLock n f).port j = s.port j ∧ (s.modLock n f).dom j = s.dom j ∧ (s.modLock n f).ref j = s.ref j ∧
    (s.modLock n f).reg j = s.reg j := ⟨rfl, rfl, rfl, rfl, rfl, rfl, rfl, rfl, rfl, rfl, rfl, rfl, rfl, rfl, rfl, rfl, rfl, rfl, rfl⟩
end

section
variable {p : Nat} {f : Port → Port}
@[simp] theorem State.modPort_shadow : (s.modPort p f).shadow = s.shadow := rfl
@[simp] theorem State.modPort_comm : (s.modPort p f).comm = s.comm := rfl
@[simp] theorem State.modPort_setup : (s.modPort p f).setup = s.setup := rfl
@[simp] theorem State.modPort_numVfs : (s.modPort p f).numVfs = s.numVfs := rfl
@[simp] theorem State.modPort_fns : (s.modPort p f).fns = s.fns := rfl
@[simp] theorem State.modPort_rings : (s.modPort p f).rings = s.rings := rfl
@[simp] theorem State.modPort_lanes : (s.modPort p f).lanes = s.lanes := rfl
@[simp] theorem State.modPort_groups : (s.modPort p f).groups = s.groups := rfl
@[simp] theorem State.modPort_outGrps : (s.modPort p f).outGrps = s.outGrps := rfl
@[simp] theorem State.modPort_outLanes : (s.modPort p f).outLanes = s.outLanes := rfl
@[simp] theorem State.modPort_dies : (s.modPort p f).dies = s.dies := rfl
@[simp] theorem State.modPort_hbmStacks : (s.modPort p f).hbmStacks = s.hbmStacks := rfl
@[simp] theorem State.modPort_grid : (s.modPort p f).grid = s.grid := rfl
@[simp] theorem State.modPort_subs : (s.modPort p f).subs = s.subs := rfl
@[simp] theorem State.modPort_beams : (s.modPort p f).beams = s.beams := rfl
@[simp] theorem State.modPort_topks : (s.modPort p f).topks = s.topks := rfl
@[simp] theorem State.modPort_topkNext : (s.modPort p f).topkNext = s.topkNext := rfl
@[simp] theorem State.modPort_handles : (s.modPort p f).handles = s.handles := rfl
@[simp] theorem State.modPort_allocs : (s.modPort p f).allocs = s.allocs := rfl
@[simp] theorem State.modPort_hbm : (s.modPort p f).hbm = s.hbm := rfl
@[simp] theorem State.modPort_posts : (s.modPort p f).posts = s.posts := rfl
@[simp] theorem State.modPort_flagSeq : (s.modPort p f).flagSeq = s.flagSeq := rfl
@[simp] theorem State.modPort_flagWaits : (s.modPort p f).flagWaits = s.flagWaits := rfl
@[simp] theorem State.modPort_chains : (s.modPort p f).chains = s.chains := rfl
@[simp] theorem State.modPort_engs : (s.modPort p f).engs = s.engs := rfl
@[simp] theorem State.modPort_egroups : (s.modPort p f).egroups = s.egroups := rfl
@[simp] theorem State.modPort_dec : (s.modPort p f).dec = s.dec := rfl
@[simp] theorem State.modPort_dmas : (s.modPort p f).dmas = s.dmas := rfl
@[simp] theorem State.modPort_tlb : (s.modPort p f).tlb = s.tlb := rfl
@[simp] theorem State.modPort_invals : (s.modPort p f).invals = s.invals := rfl
@[simp] theorem State.modPort_locks : (s.modPort p f).locks = s.locks := rfl
@[simp] theorem State.modPort_tuFaults : (s.modPort p f).tuFaults = s.tuFaults := rfl
@[simp] theorem State.modPort_arbCommits : (s.modPort p f).arbCommits = s.arbCommits := rfl
@[simp] theorem State.modPort_fabDecerr : (s.modPort p f).fabDecerr = s.fabDecerr := rfl
@[simp] theorem State.modPort_fabDecAddr : (s.modPort p f).fabDecAddr = s.fabDecAddr := rfl
@[simp] theorem State.modPort_fabHold : (s.modPort p f).fabHold = s.fabHold := rfl
@[simp] theorem State.modPort_ports : (s.modPort p f).ports = modT {} s.ports p f := rfl
@[simp] theorem State.modPort_mgmt : (s.modPort p f).mgmt = s.mgmt := rfl
@[simp] theorem State.modPort_time : (s.modPort p f).time = s.time := rfl
@[simp] theorem State.modPort_rst : (s.modPort p f).rst = s.rst := rfl
@[simp] theorem State.modPort_out : (s.modPort p f).out = s.out := rfl
@[simp] theorem State.modPort_free : (s.modPort p f).free = s.free := rfl
@[simp] theorem State.modPort_pending : (s.modPort p f).pending = s.pending := rfl
/-- The accessors of the other fields. -/
@[simp] theorem State.modPort_reads :
    (s.modPort p f).fn j = s.fn j ∧ (s.modPort p f).ring j k = s.ring j k ∧ (s.modPort p f).lane j = s.lane j ∧
    (s.modPort p f).group j = s.group j ∧ (s.modPort p f).outGrp j = s.outGrp j ∧ (s.modPort p f).outLane j = s.outLane j ∧
    (s.modPort p f).die j = s.die j ∧ (s.modPort p f).stack j k = s.stack j k ∧ (s.modPort p f).subr j = s.subr j ∧
    (s.modPort p f).beam j = s.beam j ∧ (s.modPort p f).topk j = s.topk j ∧ (s.modPort p f).chain j = s.chain j ∧
    (s.modPort p f).eng j = s.eng j ∧ (s.modPort p f).egroup j = s.egroup j ∧ (s.modPort p f).dma j = s.dma j ∧
    (s.modPort p f).lock j = s.lock j ∧ (s.modPort p f).dom j = s.dom j ∧ (s.modPort p f).ref j = s.ref j ∧
    (s.modPort p f).reg j = s.reg j := ⟨rfl, rfl, rfl, rfl, rfl, rfl, rfl, rfl, rfl, rfl, rfl, rfl, rfl, rfl, rfl, rfl, rfl, rfl, rfl⟩
end

section
variable {m : Nat} {q : Nat} {f : Ring → Ring}
@[simp] theorem State.modRing_shadow : (s.modRing m q f).shadow = s.shadow := rfl
@[simp] theorem State.modRing_comm : (s.modRing m q f).comm = s.comm := rfl
@[simp] theorem State.modRing_setup : (s.modRing m q f).setup = s.setup := rfl
@[simp] theorem State.modRing_numVfs : (s.modRing m q f).numVfs = s.numVfs := rfl
@[simp] theorem State.modRing_fns : (s.modRing m q f).fns = s.fns := rfl
@[simp] theorem State.modRing_rings : (s.modRing m q f).rings = modT {} s.rings (m * 128 + q) f := rfl
@[simp] theorem State.modRing_lanes : (s.modRing m q f).lanes = s.lanes := rfl
@[simp] theorem State.modRing_groups : (s.modRing m q f).groups = s.groups := rfl
@[simp] theorem State.modRing_outGrps : (s.modRing m q f).outGrps = s.outGrps := rfl
@[simp] theorem State.modRing_outLanes : (s.modRing m q f).outLanes = s.outLanes := rfl
@[simp] theorem State.modRing_dies : (s.modRing m q f).dies = s.dies := rfl
@[simp] theorem State.modRing_hbmStacks : (s.modRing m q f).hbmStacks = s.hbmStacks := rfl
@[simp] theorem State.modRing_grid : (s.modRing m q f).grid = s.grid := rfl
@[simp] theorem State.modRing_subs : (s.modRing m q f).subs = s.subs := rfl
@[simp] theorem State.modRing_beams : (s.modRing m q f).beams = s.beams := rfl
@[simp] theorem State.modRing_topks : (s.modRing m q f).topks = s.topks := rfl
@[simp] theorem State.modRing_topkNext : (s.modRing m q f).topkNext = s.topkNext := rfl
@[simp] theorem State.modRing_handles : (s.modRing m q f).handles = s.handles := rfl
@[simp] theorem State.modRing_allocs : (s.modRing m q f).allocs = s.allocs := rfl
@[simp] theorem State.modRing_hbm : (s.modRing m q f).hbm = s.hbm := rfl
@[simp] theorem State.modRing_posts : (s.modRing m q f).posts = s.posts := rfl
@[simp] theorem State.modRing_flagSeq : (s.modRing m q f).flagSeq = s.flagSeq := rfl
@[simp] theorem State.modRing_flagWaits : (s.modRing m q f).flagWaits = s.flagWaits := rfl
@[simp] theorem State.modRing_chains : (s.modRing m q f).chains = s.chains := rfl
@[simp] theorem State.modRing_engs : (s.modRing m q f).engs = s.engs := rfl
@[simp] theorem State.modRing_egroups : (s.modRing m q f).egroups = s.egroups := rfl
@[simp] theorem State.modRing_dec : (s.modRing m q f).dec = s.dec := rfl
@[simp] theorem State.modRing_dmas : (s.modRing m q f).dmas = s.dmas := rfl
@[simp] theorem State.modRing_tlb : (s.modRing m q f).tlb = s.tlb := rfl
@[simp] theorem State.modRing_invals : (s.modRing m q f).invals = s.invals := rfl
@[simp] theorem State.modRing_locks : (s.modRing m q f).locks = s.locks := rfl
@[simp] theorem State.modRing_tuFaults : (s.modRing m q f).tuFaults = s.tuFaults := rfl
@[simp] theorem State.modRing_arbCommits : (s.modRing m q f).arbCommits = s.arbCommits := rfl
@[simp] theorem State.modRing_fabDecerr : (s.modRing m q f).fabDecerr = s.fabDecerr := rfl
@[simp] theorem State.modRing_fabDecAddr : (s.modRing m q f).fabDecAddr = s.fabDecAddr := rfl
@[simp] theorem State.modRing_fabHold : (s.modRing m q f).fabHold = s.fabHold := rfl
@[simp] theorem State.modRing_ports : (s.modRing m q f).ports = s.ports := rfl
@[simp] theorem State.modRing_mgmt : (s.modRing m q f).mgmt = s.mgmt := rfl
@[simp] theorem State.modRing_time : (s.modRing m q f).time = s.time := rfl
@[simp] theorem State.modRing_rst : (s.modRing m q f).rst = s.rst := rfl
@[simp] theorem State.modRing_out : (s.modRing m q f).out = s.out := rfl
@[simp] theorem State.modRing_free : (s.modRing m q f).free = s.free := rfl
@[simp] theorem State.modRing_pending : (s.modRing m q f).pending = s.pending := rfl
/-- The accessors of the other fields. -/
@[simp] theorem State.modRing_reads :
    (s.modRing m q f).fn j = s.fn j ∧ (s.modRing m q f).lane j = s.lane j ∧ (s.modRing m q f).group j = s.group j ∧
    (s.modRing m q f).outGrp j = s.outGrp j ∧ (s.modRing m q f).outLane j = s.outLane j ∧ (s.modRing m q f).die j = s.die j ∧
    (s.modRing m q f).stack j k = s.stack j k ∧ (s.modRing m q f).subr j = s.subr j ∧ (s.modRing m q f).beam j = s.beam j ∧
    (s.modRing m q f).topk j = s.topk j ∧ (s.modRing m q f).chain j = s.chain j ∧ (s.modRing m q f).eng j = s.eng j ∧
    (s.modRing m q f).egroup j = s.egroup j ∧ (s.modRing m q f).dma j = s.dma j ∧ (s.modRing m q f).lock j = s.lock j ∧
    (s.modRing m q f).port j = s.port j ∧ (s.modRing m q f).dom j = s.dom j ∧ (s.modRing m q f).ref j = s.ref j ∧
    (s.modRing m q f).reg j = s.reg j := ⟨rfl, rfl, rfl, rfl, rfl, rfl, rfl, rfl, rfl, rfl, rfl, rfl, rfl, rfl, rfl, rfl, rfl, rfl, rfl⟩
end

section
variable {d : Nat} {k : Nat} {f : Stack → Stack}
@[simp] theorem State.modStack_shadow : (s.modStack d k f).shadow = s.shadow := rfl
@[simp] theorem State.modStack_comm : (s.modStack d k f).comm = s.comm := rfl
@[simp] theorem State.modStack_setup : (s.modStack d k f).setup = s.setup := rfl
@[simp] theorem State.modStack_numVfs : (s.modStack d k f).numVfs = s.numVfs := rfl
@[simp] theorem State.modStack_fns : (s.modStack d k f).fns = s.fns := rfl
@[simp] theorem State.modStack_rings : (s.modStack d k f).rings = s.rings := rfl
@[simp] theorem State.modStack_lanes : (s.modStack d k f).lanes = s.lanes := rfl
@[simp] theorem State.modStack_groups : (s.modStack d k f).groups = s.groups := rfl
@[simp] theorem State.modStack_outGrps : (s.modStack d k f).outGrps = s.outGrps := rfl
@[simp] theorem State.modStack_outLanes : (s.modStack d k f).outLanes = s.outLanes := rfl
@[simp] theorem State.modStack_dies : (s.modStack d k f).dies = s.dies := rfl
@[simp] theorem State.modStack_hbmStacks : (s.modStack d k f).hbmStacks = modT {} s.hbmStacks (2 * d + k) f := rfl
@[simp] theorem State.modStack_grid : (s.modStack d k f).grid = s.grid := rfl
@[simp] theorem State.modStack_subs : (s.modStack d k f).subs = s.subs := rfl
@[simp] theorem State.modStack_beams : (s.modStack d k f).beams = s.beams := rfl
@[simp] theorem State.modStack_topks : (s.modStack d k f).topks = s.topks := rfl
@[simp] theorem State.modStack_topkNext : (s.modStack d k f).topkNext = s.topkNext := rfl
@[simp] theorem State.modStack_handles : (s.modStack d k f).handles = s.handles := rfl
@[simp] theorem State.modStack_allocs : (s.modStack d k f).allocs = s.allocs := rfl
@[simp] theorem State.modStack_hbm : (s.modStack d k f).hbm = s.hbm := rfl
@[simp] theorem State.modStack_posts : (s.modStack d k f).posts = s.posts := rfl
@[simp] theorem State.modStack_flagSeq : (s.modStack d k f).flagSeq = s.flagSeq := rfl
@[simp] theorem State.modStack_flagWaits : (s.modStack d k f).flagWaits = s.flagWaits := rfl
@[simp] theorem State.modStack_chains : (s.modStack d k f).chains = s.chains := rfl
@[simp] theorem State.modStack_engs : (s.modStack d k f).engs = s.engs := rfl
@[simp] theorem State.modStack_egroups : (s.modStack d k f).egroups = s.egroups := rfl
@[simp] theorem State.modStack_dec : (s.modStack d k f).dec = s.dec := rfl
@[simp] theorem State.modStack_dmas : (s.modStack d k f).dmas = s.dmas := rfl
@[simp] theorem State.modStack_tlb : (s.modStack d k f).tlb = s.tlb := rfl
@[simp] theorem State.modStack_invals : (s.modStack d k f).invals = s.invals := rfl
@[simp] theorem State.modStack_locks : (s.modStack d k f).locks = s.locks := rfl
@[simp] theorem State.modStack_tuFaults : (s.modStack d k f).tuFaults = s.tuFaults := rfl
@[simp] theorem State.modStack_arbCommits : (s.modStack d k f).arbCommits = s.arbCommits := rfl
@[simp] theorem State.modStack_fabDecerr : (s.modStack d k f).fabDecerr = s.fabDecerr := rfl
@[simp] theorem State.modStack_fabDecAddr : (s.modStack d k f).fabDecAddr = s.fabDecAddr := rfl
@[simp] theorem State.modStack_fabHold : (s.modStack d k f).fabHold = s.fabHold := rfl
@[simp] theorem State.modStack_ports : (s.modStack d k f).ports = s.ports := rfl
@[simp] theorem State.modStack_mgmt : (s.modStack d k f).mgmt = s.mgmt := rfl
@[simp] theorem State.modStack_time : (s.modStack d k f).time = s.time := rfl
@[simp] theorem State.modStack_rst : (s.modStack d k f).rst = s.rst := rfl
@[simp] theorem State.modStack_out : (s.modStack d k f).out = s.out := rfl
@[simp] theorem State.modStack_free : (s.modStack d k f).free = s.free := rfl
@[simp] theorem State.modStack_pending : (s.modStack d k f).pending = s.pending := rfl
/-- The accessors of the other fields. -/
@[simp] theorem State.modStack_reads :
    (s.modStack d k f).fn j = s.fn j ∧ (s.modStack d k f).ring j k = s.ring j k ∧ (s.modStack d k f).lane j = s.lane j ∧
    (s.modStack d k f).group j = s.group j ∧ (s.modStack d k f).outGrp j = s.outGrp j ∧ (s.modStack d k f).outLane j = s.outLane j ∧
    (s.modStack d k f).die j = s.die j ∧ (s.modStack d k f).subr j = s.subr j ∧ (s.modStack d k f).beam j = s.beam j ∧
    (s.modStack d k f).topk j = s.topk j ∧ (s.modStack d k f).chain j = s.chain j ∧ (s.modStack d k f).eng j = s.eng j ∧
    (s.modStack d k f).egroup j = s.egroup j ∧ (s.modStack d k f).dma j = s.dma j ∧ (s.modStack d k f).lock j = s.lock j ∧
    (s.modStack d k f).port j = s.port j ∧ (s.modStack d k f).dom j = s.dom j ∧ (s.modStack d k f).ref j = s.ref j ∧
    (s.modStack d k f).reg j = s.reg j := ⟨rfl, rfl, rfl, rfl, rfl, rfl, rfl, rfl, rfl, rfl, rfl, rfl, rfl, rfl, rfl, rfl, rfl, rfl, rfl⟩
end

section
variable {f : Dec → Dec}
@[simp] theorem State.modDec_shadow : (s.modDec f).shadow = s.shadow := rfl
@[simp] theorem State.modDec_comm : (s.modDec f).comm = s.comm := rfl
@[simp] theorem State.modDec_setup : (s.modDec f).setup = s.setup := rfl
@[simp] theorem State.modDec_numVfs : (s.modDec f).numVfs = s.numVfs := rfl
@[simp] theorem State.modDec_fns : (s.modDec f).fns = s.fns := rfl
@[simp] theorem State.modDec_rings : (s.modDec f).rings = s.rings := rfl
@[simp] theorem State.modDec_lanes : (s.modDec f).lanes = s.lanes := rfl
@[simp] theorem State.modDec_groups : (s.modDec f).groups = s.groups := rfl
@[simp] theorem State.modDec_outGrps : (s.modDec f).outGrps = s.outGrps := rfl
@[simp] theorem State.modDec_outLanes : (s.modDec f).outLanes = s.outLanes := rfl
@[simp] theorem State.modDec_dies : (s.modDec f).dies = s.dies := rfl
@[simp] theorem State.modDec_hbmStacks : (s.modDec f).hbmStacks = s.hbmStacks := rfl
@[simp] theorem State.modDec_grid : (s.modDec f).grid = s.grid := rfl
@[simp] theorem State.modDec_subs : (s.modDec f).subs = s.subs := rfl
@[simp] theorem State.modDec_beams : (s.modDec f).beams = s.beams := rfl
@[simp] theorem State.modDec_topks : (s.modDec f).topks = s.topks := rfl
@[simp] theorem State.modDec_topkNext : (s.modDec f).topkNext = s.topkNext := rfl
@[simp] theorem State.modDec_handles : (s.modDec f).handles = s.handles := rfl
@[simp] theorem State.modDec_allocs : (s.modDec f).allocs = s.allocs := rfl
@[simp] theorem State.modDec_hbm : (s.modDec f).hbm = s.hbm := rfl
@[simp] theorem State.modDec_posts : (s.modDec f).posts = s.posts := rfl
@[simp] theorem State.modDec_flagSeq : (s.modDec f).flagSeq = s.flagSeq := rfl
@[simp] theorem State.modDec_flagWaits : (s.modDec f).flagWaits = s.flagWaits := rfl
@[simp] theorem State.modDec_chains : (s.modDec f).chains = s.chains := rfl
@[simp] theorem State.modDec_engs : (s.modDec f).engs = s.engs := rfl
@[simp] theorem State.modDec_egroups : (s.modDec f).egroups = s.egroups := rfl
@[simp] theorem State.modDec_dec : (s.modDec f).dec = f s.dec := rfl
@[simp] theorem State.modDec_dmas : (s.modDec f).dmas = s.dmas := rfl
@[simp] theorem State.modDec_tlb : (s.modDec f).tlb = s.tlb := rfl
@[simp] theorem State.modDec_invals : (s.modDec f).invals = s.invals := rfl
@[simp] theorem State.modDec_locks : (s.modDec f).locks = s.locks := rfl
@[simp] theorem State.modDec_tuFaults : (s.modDec f).tuFaults = s.tuFaults := rfl
@[simp] theorem State.modDec_arbCommits : (s.modDec f).arbCommits = s.arbCommits := rfl
@[simp] theorem State.modDec_fabDecerr : (s.modDec f).fabDecerr = s.fabDecerr := rfl
@[simp] theorem State.modDec_fabDecAddr : (s.modDec f).fabDecAddr = s.fabDecAddr := rfl
@[simp] theorem State.modDec_fabHold : (s.modDec f).fabHold = s.fabHold := rfl
@[simp] theorem State.modDec_ports : (s.modDec f).ports = s.ports := rfl
@[simp] theorem State.modDec_mgmt : (s.modDec f).mgmt = s.mgmt := rfl
@[simp] theorem State.modDec_time : (s.modDec f).time = s.time := rfl
@[simp] theorem State.modDec_rst : (s.modDec f).rst = s.rst := rfl
@[simp] theorem State.modDec_out : (s.modDec f).out = s.out := rfl
@[simp] theorem State.modDec_free : (s.modDec f).free = s.free := rfl
@[simp] theorem State.modDec_pending : (s.modDec f).pending = s.pending := rfl
/-- The accessors of the other fields. -/
@[simp] theorem State.modDec_reads :
    (s.modDec f).fn j = s.fn j ∧ (s.modDec f).ring j k = s.ring j k ∧ (s.modDec f).lane j = s.lane j ∧ (s.modDec f).group j = s.group j ∧
    (s.modDec f).outGrp j = s.outGrp j ∧ (s.modDec f).outLane j = s.outLane j ∧ (s.modDec f).die j = s.die j ∧
    (s.modDec f).stack j k = s.stack j k ∧ (s.modDec f).subr j = s.subr j ∧ (s.modDec f).beam j = s.beam j ∧
    (s.modDec f).topk j = s.topk j ∧ (s.modDec f).chain j = s.chain j ∧ (s.modDec f).eng j = s.eng j ∧ (s.modDec f).egroup j = s.egroup j ∧
    (s.modDec f).dma j = s.dma j ∧ (s.modDec f).lock j = s.lock j ∧ (s.modDec f).port j = s.port j ∧ (s.modDec f).dom j = s.dom j ∧
    (s.modDec f).ref j = s.ref j ∧ (s.modDec f).reg j = s.reg j := ⟨rfl, rfl, rfl, rfl, rfl, rfl, rfl, rfl, rfl, rfl, rfl, rfl, rfl, rfl, rfl, rfl, rfl, rfl, rfl, rfl⟩
end

section
variable {f : Mgmt → Mgmt}
@[simp] theorem State.modMgmt_shadow : (s.modMgmt f).shadow = s.shadow := rfl
@[simp] theorem State.modMgmt_comm : (s.modMgmt f).comm = s.comm := rfl
@[simp] theorem State.modMgmt_setup : (s.modMgmt f).setup = s.setup := rfl
@[simp] theorem State.modMgmt_numVfs : (s.modMgmt f).numVfs = s.numVfs := rfl
@[simp] theorem State.modMgmt_fns : (s.modMgmt f).fns = s.fns := rfl
@[simp] theorem State.modMgmt_rings : (s.modMgmt f).rings = s.rings := rfl
@[simp] theorem State.modMgmt_lanes : (s.modMgmt f).lanes = s.lanes := rfl
@[simp] theorem State.modMgmt_groups : (s.modMgmt f).groups = s.groups := rfl
@[simp] theorem State.modMgmt_outGrps : (s.modMgmt f).outGrps = s.outGrps := rfl
@[simp] theorem State.modMgmt_outLanes : (s.modMgmt f).outLanes = s.outLanes := rfl
@[simp] theorem State.modMgmt_dies : (s.modMgmt f).dies = s.dies := rfl
@[simp] theorem State.modMgmt_hbmStacks : (s.modMgmt f).hbmStacks = s.hbmStacks := rfl
@[simp] theorem State.modMgmt_grid : (s.modMgmt f).grid = s.grid := rfl
@[simp] theorem State.modMgmt_subs : (s.modMgmt f).subs = s.subs := rfl
@[simp] theorem State.modMgmt_beams : (s.modMgmt f).beams = s.beams := rfl
@[simp] theorem State.modMgmt_topks : (s.modMgmt f).topks = s.topks := rfl
@[simp] theorem State.modMgmt_topkNext : (s.modMgmt f).topkNext = s.topkNext := rfl
@[simp] theorem State.modMgmt_handles : (s.modMgmt f).handles = s.handles := rfl
@[simp] theorem State.modMgmt_allocs : (s.modMgmt f).allocs = s.allocs := rfl
@[simp] theorem State.modMgmt_hbm : (s.modMgmt f).hbm = s.hbm := rfl
@[simp] theorem State.modMgmt_posts : (s.modMgmt f).posts = s.posts := rfl
@[simp] theorem State.modMgmt_flagSeq : (s.modMgmt f).flagSeq = s.flagSeq := rfl
@[simp] theorem State.modMgmt_flagWaits : (s.modMgmt f).flagWaits = s.flagWaits := rfl
@[simp] theorem State.modMgmt_chains : (s.modMgmt f).chains = s.chains := rfl
@[simp] theorem State.modMgmt_engs : (s.modMgmt f).engs = s.engs := rfl
@[simp] theorem State.modMgmt_egroups : (s.modMgmt f).egroups = s.egroups := rfl
@[simp] theorem State.modMgmt_dec : (s.modMgmt f).dec = s.dec := rfl
@[simp] theorem State.modMgmt_dmas : (s.modMgmt f).dmas = s.dmas := rfl
@[simp] theorem State.modMgmt_tlb : (s.modMgmt f).tlb = s.tlb := rfl
@[simp] theorem State.modMgmt_invals : (s.modMgmt f).invals = s.invals := rfl
@[simp] theorem State.modMgmt_locks : (s.modMgmt f).locks = s.locks := rfl
@[simp] theorem State.modMgmt_tuFaults : (s.modMgmt f).tuFaults = s.tuFaults := rfl
@[simp] theorem State.modMgmt_arbCommits : (s.modMgmt f).arbCommits = s.arbCommits := rfl
@[simp] theorem State.modMgmt_fabDecerr : (s.modMgmt f).fabDecerr = s.fabDecerr := rfl
@[simp] theorem State.modMgmt_fabDecAddr : (s.modMgmt f).fabDecAddr = s.fabDecAddr := rfl
@[simp] theorem State.modMgmt_fabHold : (s.modMgmt f).fabHold = s.fabHold := rfl
@[simp] theorem State.modMgmt_ports : (s.modMgmt f).ports = s.ports := rfl
@[simp] theorem State.modMgmt_mgmt : (s.modMgmt f).mgmt = f s.mgmt := rfl
@[simp] theorem State.modMgmt_time : (s.modMgmt f).time = s.time := rfl
@[simp] theorem State.modMgmt_rst : (s.modMgmt f).rst = s.rst := rfl
@[simp] theorem State.modMgmt_out : (s.modMgmt f).out = s.out := rfl
@[simp] theorem State.modMgmt_free : (s.modMgmt f).free = s.free := rfl
@[simp] theorem State.modMgmt_pending : (s.modMgmt f).pending = s.pending := rfl
/-- The accessors of the other fields. -/
@[simp] theorem State.modMgmt_reads :
    (s.modMgmt f).fn j = s.fn j ∧ (s.modMgmt f).ring j k = s.ring j k ∧ (s.modMgmt f).lane j = s.lane j ∧
    (s.modMgmt f).group j = s.group j ∧ (s.modMgmt f).outGrp j = s.outGrp j ∧ (s.modMgmt f).outLane j = s.outLane j ∧
    (s.modMgmt f).die j = s.die j ∧ (s.modMgmt f).stack j k = s.stack j k ∧ (s.modMgmt f).subr j = s.subr j ∧
    (s.modMgmt f).beam j = s.beam j ∧ (s.modMgmt f).topk j = s.topk j ∧ (s.modMgmt f).chain j = s.chain j ∧ (s.modMgmt f).eng j = s.eng j ∧
    (s.modMgmt f).egroup j = s.egroup j ∧ (s.modMgmt f).dma j = s.dma j ∧ (s.modMgmt f).lock j = s.lock j ∧
    (s.modMgmt f).port j = s.port j ∧ (s.modMgmt f).dom j = s.dom j ∧ (s.modMgmt f).ref j = s.ref j ∧ (s.modMgmt f).reg j = s.reg j := ⟨rfl, rfl, rfl, rfl, rfl, rfl, rfl, rfl, rfl, rfl, rfl, rfl, rfl, rfl, rfl, rfl, rfl, rfl, rfl, rfl⟩
end

section
variable {f : Time → Time}
@[simp] theorem State.modTime_shadow : (s.modTime f).shadow = s.shadow := rfl
@[simp] theorem State.modTime_comm : (s.modTime f).comm = s.comm := rfl
@[simp] theorem State.modTime_setup : (s.modTime f).setup = s.setup := rfl
@[simp] theorem State.modTime_numVfs : (s.modTime f).numVfs = s.numVfs := rfl
@[simp] theorem State.modTime_fns : (s.modTime f).fns = s.fns := rfl
@[simp] theorem State.modTime_rings : (s.modTime f).rings = s.rings := rfl
@[simp] theorem State.modTime_lanes : (s.modTime f).lanes = s.lanes := rfl
@[simp] theorem State.modTime_groups : (s.modTime f).groups = s.groups := rfl
@[simp] theorem State.modTime_outGrps : (s.modTime f).outGrps = s.outGrps := rfl
@[simp] theorem State.modTime_outLanes : (s.modTime f).outLanes = s.outLanes := rfl
@[simp] theorem State.modTime_dies : (s.modTime f).dies = s.dies := rfl
@[simp] theorem State.modTime_hbmStacks : (s.modTime f).hbmStacks = s.hbmStacks := rfl
@[simp] theorem State.modTime_grid : (s.modTime f).grid = s.grid := rfl
@[simp] theorem State.modTime_subs : (s.modTime f).subs = s.subs := rfl
@[simp] theorem State.modTime_beams : (s.modTime f).beams = s.beams := rfl
@[simp] theorem State.modTime_topks : (s.modTime f).topks = s.topks := rfl
@[simp] theorem State.modTime_topkNext : (s.modTime f).topkNext = s.topkNext := rfl
@[simp] theorem State.modTime_handles : (s.modTime f).handles = s.handles := rfl
@[simp] theorem State.modTime_allocs : (s.modTime f).allocs = s.allocs := rfl
@[simp] theorem State.modTime_hbm : (s.modTime f).hbm = s.hbm := rfl
@[simp] theorem State.modTime_posts : (s.modTime f).posts = s.posts := rfl
@[simp] theorem State.modTime_flagSeq : (s.modTime f).flagSeq = s.flagSeq := rfl
@[simp] theorem State.modTime_flagWaits : (s.modTime f).flagWaits = s.flagWaits := rfl
@[simp] theorem State.modTime_chains : (s.modTime f).chains = s.chains := rfl
@[simp] theorem State.modTime_engs : (s.modTime f).engs = s.engs := rfl
@[simp] theorem State.modTime_egroups : (s.modTime f).egroups = s.egroups := rfl
@[simp] theorem State.modTime_dec : (s.modTime f).dec = s.dec := rfl
@[simp] theorem State.modTime_dmas : (s.modTime f).dmas = s.dmas := rfl
@[simp] theorem State.modTime_tlb : (s.modTime f).tlb = s.tlb := rfl
@[simp] theorem State.modTime_invals : (s.modTime f).invals = s.invals := rfl
@[simp] theorem State.modTime_locks : (s.modTime f).locks = s.locks := rfl
@[simp] theorem State.modTime_tuFaults : (s.modTime f).tuFaults = s.tuFaults := rfl
@[simp] theorem State.modTime_arbCommits : (s.modTime f).arbCommits = s.arbCommits := rfl
@[simp] theorem State.modTime_fabDecerr : (s.modTime f).fabDecerr = s.fabDecerr := rfl
@[simp] theorem State.modTime_fabDecAddr : (s.modTime f).fabDecAddr = s.fabDecAddr := rfl
@[simp] theorem State.modTime_fabHold : (s.modTime f).fabHold = s.fabHold := rfl
@[simp] theorem State.modTime_ports : (s.modTime f).ports = s.ports := rfl
@[simp] theorem State.modTime_mgmt : (s.modTime f).mgmt = s.mgmt := rfl
@[simp] theorem State.modTime_time : (s.modTime f).time = f s.time := rfl
@[simp] theorem State.modTime_rst : (s.modTime f).rst = s.rst := rfl
@[simp] theorem State.modTime_out : (s.modTime f).out = s.out := rfl
@[simp] theorem State.modTime_free : (s.modTime f).free = s.free := rfl
@[simp] theorem State.modTime_pending : (s.modTime f).pending = s.pending := rfl
/-- The accessors of the other fields. -/
@[simp] theorem State.modTime_reads :
    (s.modTime f).fn j = s.fn j ∧ (s.modTime f).ring j k = s.ring j k ∧ (s.modTime f).lane j = s.lane j ∧
    (s.modTime f).group j = s.group j ∧ (s.modTime f).outGrp j = s.outGrp j ∧ (s.modTime f).outLane j = s.outLane j ∧
    (s.modTime f).die j = s.die j ∧ (s.modTime f).stack j k = s.stack j k ∧ (s.modTime f).subr j = s.subr j ∧
    (s.modTime f).beam j = s.beam j ∧ (s.modTime f).topk j = s.topk j ∧ (s.modTime f).chain j = s.chain j ∧ (s.modTime f).eng j = s.eng j ∧
    (s.modTime f).egroup j = s.egroup j ∧ (s.modTime f).dma j = s.dma j ∧ (s.modTime f).lock j = s.lock j ∧
    (s.modTime f).port j = s.port j ∧ (s.modTime f).reg j = s.reg j := ⟨rfl, rfl, rfl, rfl, rfl, rfl, rfl, rfl, rfl, rfl, rfl, rfl, rfl, rfl, rfl, rfl, rfl, rfl⟩
end

section
variable {f : Rst → Rst}
@[simp] theorem State.modRst_shadow : (s.modRst f).shadow = s.shadow := rfl
@[simp] theorem State.modRst_comm : (s.modRst f).comm = s.comm := rfl
@[simp] theorem State.modRst_setup : (s.modRst f).setup = s.setup := rfl
@[simp] theorem State.modRst_numVfs : (s.modRst f).numVfs = s.numVfs := rfl
@[simp] theorem State.modRst_fns : (s.modRst f).fns = s.fns := rfl
@[simp] theorem State.modRst_rings : (s.modRst f).rings = s.rings := rfl
@[simp] theorem State.modRst_lanes : (s.modRst f).lanes = s.lanes := rfl
@[simp] theorem State.modRst_groups : (s.modRst f).groups = s.groups := rfl
@[simp] theorem State.modRst_outGrps : (s.modRst f).outGrps = s.outGrps := rfl
@[simp] theorem State.modRst_outLanes : (s.modRst f).outLanes = s.outLanes := rfl
@[simp] theorem State.modRst_dies : (s.modRst f).dies = s.dies := rfl
@[simp] theorem State.modRst_hbmStacks : (s.modRst f).hbmStacks = s.hbmStacks := rfl
@[simp] theorem State.modRst_grid : (s.modRst f).grid = s.grid := rfl
@[simp] theorem State.modRst_subs : (s.modRst f).subs = s.subs := rfl
@[simp] theorem State.modRst_beams : (s.modRst f).beams = s.beams := rfl
@[simp] theorem State.modRst_topks : (s.modRst f).topks = s.topks := rfl
@[simp] theorem State.modRst_topkNext : (s.modRst f).topkNext = s.topkNext := rfl
@[simp] theorem State.modRst_handles : (s.modRst f).handles = s.handles := rfl
@[simp] theorem State.modRst_allocs : (s.modRst f).allocs = s.allocs := rfl
@[simp] theorem State.modRst_hbm : (s.modRst f).hbm = s.hbm := rfl
@[simp] theorem State.modRst_posts : (s.modRst f).posts = s.posts := rfl
@[simp] theorem State.modRst_flagSeq : (s.modRst f).flagSeq = s.flagSeq := rfl
@[simp] theorem State.modRst_flagWaits : (s.modRst f).flagWaits = s.flagWaits := rfl
@[simp] theorem State.modRst_chains : (s.modRst f).chains = s.chains := rfl
@[simp] theorem State.modRst_engs : (s.modRst f).engs = s.engs := rfl
@[simp] theorem State.modRst_egroups : (s.modRst f).egroups = s.egroups := rfl
@[simp] theorem State.modRst_dec : (s.modRst f).dec = s.dec := rfl
@[simp] theorem State.modRst_dmas : (s.modRst f).dmas = s.dmas := rfl
@[simp] theorem State.modRst_tlb : (s.modRst f).tlb = s.tlb := rfl
@[simp] theorem State.modRst_invals : (s.modRst f).invals = s.invals := rfl
@[simp] theorem State.modRst_locks : (s.modRst f).locks = s.locks := rfl
@[simp] theorem State.modRst_tuFaults : (s.modRst f).tuFaults = s.tuFaults := rfl
@[simp] theorem State.modRst_arbCommits : (s.modRst f).arbCommits = s.arbCommits := rfl
@[simp] theorem State.modRst_fabDecerr : (s.modRst f).fabDecerr = s.fabDecerr := rfl
@[simp] theorem State.modRst_fabDecAddr : (s.modRst f).fabDecAddr = s.fabDecAddr := rfl
@[simp] theorem State.modRst_fabHold : (s.modRst f).fabHold = s.fabHold := rfl
@[simp] theorem State.modRst_ports : (s.modRst f).ports = s.ports := rfl
@[simp] theorem State.modRst_mgmt : (s.modRst f).mgmt = s.mgmt := rfl
@[simp] theorem State.modRst_time : (s.modRst f).time = s.time := rfl
@[simp] theorem State.modRst_rst : (s.modRst f).rst = f s.rst := rfl
@[simp] theorem State.modRst_out : (s.modRst f).out = s.out := rfl
@[simp] theorem State.modRst_free : (s.modRst f).free = s.free := rfl
@[simp] theorem State.modRst_pending : (s.modRst f).pending = s.pending := rfl
/-- The accessors of the other fields. -/
@[simp] theorem State.modRst_reads :
    (s.modRst f).fn j = s.fn j ∧ (s.modRst f).ring j k = s.ring j k ∧ (s.modRst f).lane j = s.lane j ∧ (s.modRst f).group j = s.group j ∧
    (s.modRst f).outGrp j = s.outGrp j ∧ (s.modRst f).outLane j = s.outLane j ∧ (s.modRst f).die j = s.die j ∧
    (s.modRst f).stack j k = s.stack j k ∧ (s.modRst f).subr j = s.subr j ∧ (s.modRst f).beam j = s.beam j ∧
    (s.modRst f).topk j = s.topk j ∧ (s.modRst f).chain j = s.chain j ∧ (s.modRst f).eng j = s.eng j ∧ (s.modRst f).egroup j = s.egroup j ∧
    (s.modRst f).dma j = s.dma j ∧ (s.modRst f).lock j = s.lock j ∧ (s.modRst f).port j = s.port j ∧ (s.modRst f).dom j = s.dom j ∧
    (s.modRst f).ref j = s.ref j ∧ (s.modRst f).reg j = s.reg j := ⟨rfl, rfl, rfl, rfl, rfl, rfl, rfl, rfl, rfl, rfl, rfl, rfl, rfl, rfl, rfl, rfl, rfl, rfl, rfl, rfl⟩
end

section
variable {f : Grid → Grid}
@[simp] theorem State.modGrid_shadow : (s.modGrid f).shadow = s.shadow := rfl
@[simp] theorem State.modGrid_comm : (s.modGrid f).comm = s.comm := rfl
@[simp] theorem State.modGrid_setup : (s.modGrid f).setup = s.setup := rfl
@[simp] theorem State.modGrid_numVfs : (s.modGrid f).numVfs = s.numVfs := rfl
@[simp] theorem State.modGrid_fns : (s.modGrid f).fns = s.fns := rfl
@[simp] theorem State.modGrid_rings : (s.modGrid f).rings = s.rings := rfl
@[simp] theorem State.modGrid_lanes : (s.modGrid f).lanes = s.lanes := rfl
@[simp] theorem State.modGrid_groups : (s.modGrid f).groups = s.groups := rfl
@[simp] theorem State.modGrid_outGrps : (s.modGrid f).outGrps = s.outGrps := rfl
@[simp] theorem State.modGrid_outLanes : (s.modGrid f).outLanes = s.outLanes := rfl
@[simp] theorem State.modGrid_dies : (s.modGrid f).dies = s.dies := rfl
@[simp] theorem State.modGrid_hbmStacks : (s.modGrid f).hbmStacks = s.hbmStacks := rfl
@[simp] theorem State.modGrid_grid : (s.modGrid f).grid = f s.grid := rfl
@[simp] theorem State.modGrid_subs : (s.modGrid f).subs = s.subs := rfl
@[simp] theorem State.modGrid_beams : (s.modGrid f).beams = s.beams := rfl
@[simp] theorem State.modGrid_topks : (s.modGrid f).topks = s.topks := rfl
@[simp] theorem State.modGrid_topkNext : (s.modGrid f).topkNext = s.topkNext := rfl
@[simp] theorem State.modGrid_handles : (s.modGrid f).handles = s.handles := rfl
@[simp] theorem State.modGrid_allocs : (s.modGrid f).allocs = s.allocs := rfl
@[simp] theorem State.modGrid_hbm : (s.modGrid f).hbm = s.hbm := rfl
@[simp] theorem State.modGrid_posts : (s.modGrid f).posts = s.posts := rfl
@[simp] theorem State.modGrid_flagSeq : (s.modGrid f).flagSeq = s.flagSeq := rfl
@[simp] theorem State.modGrid_flagWaits : (s.modGrid f).flagWaits = s.flagWaits := rfl
@[simp] theorem State.modGrid_chains : (s.modGrid f).chains = s.chains := rfl
@[simp] theorem State.modGrid_engs : (s.modGrid f).engs = s.engs := rfl
@[simp] theorem State.modGrid_egroups : (s.modGrid f).egroups = s.egroups := rfl
@[simp] theorem State.modGrid_dec : (s.modGrid f).dec = s.dec := rfl
@[simp] theorem State.modGrid_dmas : (s.modGrid f).dmas = s.dmas := rfl
@[simp] theorem State.modGrid_tlb : (s.modGrid f).tlb = s.tlb := rfl
@[simp] theorem State.modGrid_invals : (s.modGrid f).invals = s.invals := rfl
@[simp] theorem State.modGrid_locks : (s.modGrid f).locks = s.locks := rfl
@[simp] theorem State.modGrid_tuFaults : (s.modGrid f).tuFaults = s.tuFaults := rfl
@[simp] theorem State.modGrid_arbCommits : (s.modGrid f).arbCommits = s.arbCommits := rfl
@[simp] theorem State.modGrid_fabDecerr : (s.modGrid f).fabDecerr = s.fabDecerr := rfl
@[simp] theorem State.modGrid_fabDecAddr : (s.modGrid f).fabDecAddr = s.fabDecAddr := rfl
@[simp] theorem State.modGrid_fabHold : (s.modGrid f).fabHold = s.fabHold := rfl
@[simp] theorem State.modGrid_ports : (s.modGrid f).ports = s.ports := rfl
@[simp] theorem State.modGrid_mgmt : (s.modGrid f).mgmt = s.mgmt := rfl
@[simp] theorem State.modGrid_time : (s.modGrid f).time = s.time := rfl
@[simp] theorem State.modGrid_rst : (s.modGrid f).rst = s.rst := rfl
@[simp] theorem State.modGrid_out : (s.modGrid f).out = s.out := rfl
@[simp] theorem State.modGrid_free : (s.modGrid f).free = s.free := rfl
@[simp] theorem State.modGrid_pending : (s.modGrid f).pending = s.pending := rfl
/-- The accessors of the other fields. -/
@[simp] theorem State.modGrid_reads :
    (s.modGrid f).fn j = s.fn j ∧ (s.modGrid f).ring j k = s.ring j k ∧ (s.modGrid f).lane j = s.lane j ∧
    (s.modGrid f).group j = s.group j ∧ (s.modGrid f).outGrp j = s.outGrp j ∧ (s.modGrid f).outLane j = s.outLane j ∧
    (s.modGrid f).die j = s.die j ∧ (s.modGrid f).stack j k = s.stack j k ∧ (s.modGrid f).subr j = s.subr j ∧
    (s.modGrid f).beam j = s.beam j ∧ (s.modGrid f).topk j = s.topk j ∧ (s.modGrid f).chain j = s.chain j ∧ (s.modGrid f).eng j = s.eng j ∧
    (s.modGrid f).egroup j = s.egroup j ∧ (s.modGrid f).dma j = s.dma j ∧ (s.modGrid f).lock j = s.lock j ∧
    (s.modGrid f).port j = s.port j ∧ (s.modGrid f).dom j = s.dom j ∧ (s.modGrid f).ref j = s.ref j ∧ (s.modGrid f).reg j = s.reg j := ⟨rfl, rfl, rfl, rfl, rfl, rfl, rfl, rfl, rfl, rfl, rfl, rfl, rfl, rfl, rfl, rfl, rfl, rfl, rfl, rfl⟩
end

section
variable {d : Nat} {f : Dom → Dom}
@[simp] theorem State.modDom_shadow : (s.modDom d f).shadow = s.shadow := rfl
@[simp] theorem State.modDom_comm : (s.modDom d f).comm = s.comm := rfl
@[simp] theorem State.modDom_setup : (s.modDom d f).setup = s.setup := rfl
@[simp] theorem State.modDom_numVfs : (s.modDom d f).numVfs = s.numVfs := rfl
@[simp] theorem State.modDom_fns : (s.modDom d f).fns = s.fns := rfl
@[simp] theorem State.modDom_rings : (s.modDom d f).rings = s.rings := rfl
@[simp] theorem State.modDom_lanes : (s.modDom d f).lanes = s.lanes := rfl
@[simp] theorem State.modDom_groups : (s.modDom d f).groups = s.groups := rfl
@[simp] theorem State.modDom_outGrps : (s.modDom d f).outGrps = s.outGrps := rfl
@[simp] theorem State.modDom_outLanes : (s.modDom d f).outLanes = s.outLanes := rfl
@[simp] theorem State.modDom_dies : (s.modDom d f).dies = s.dies := rfl
@[simp] theorem State.modDom_hbmStacks : (s.modDom d f).hbmStacks = s.hbmStacks := rfl
@[simp] theorem State.modDom_grid : (s.modDom d f).grid = s.grid := rfl
@[simp] theorem State.modDom_subs : (s.modDom d f).subs = s.subs := rfl
@[simp] theorem State.modDom_beams : (s.modDom d f).beams = s.beams := rfl
@[simp] theorem State.modDom_topks : (s.modDom d f).topks = s.topks := rfl
@[simp] theorem State.modDom_topkNext : (s.modDom d f).topkNext = s.topkNext := rfl
@[simp] theorem State.modDom_handles : (s.modDom d f).handles = s.handles := rfl
@[simp] theorem State.modDom_allocs : (s.modDom d f).allocs = s.allocs := rfl
@[simp] theorem State.modDom_hbm : (s.modDom d f).hbm = s.hbm := rfl
@[simp] theorem State.modDom_posts : (s.modDom d f).posts = s.posts := rfl
@[simp] theorem State.modDom_flagSeq : (s.modDom d f).flagSeq = s.flagSeq := rfl
@[simp] theorem State.modDom_flagWaits : (s.modDom d f).flagWaits = s.flagWaits := rfl
@[simp] theorem State.modDom_chains : (s.modDom d f).chains = s.chains := rfl
@[simp] theorem State.modDom_engs : (s.modDom d f).engs = s.engs := rfl
@[simp] theorem State.modDom_egroups : (s.modDom d f).egroups = s.egroups := rfl
@[simp] theorem State.modDom_dec : (s.modDom d f).dec = s.dec := rfl
@[simp] theorem State.modDom_dmas : (s.modDom d f).dmas = s.dmas := rfl
@[simp] theorem State.modDom_tlb : (s.modDom d f).tlb = s.tlb := rfl
@[simp] theorem State.modDom_invals : (s.modDom d f).invals = s.invals := rfl
@[simp] theorem State.modDom_locks : (s.modDom d f).locks = s.locks := rfl
@[simp] theorem State.modDom_tuFaults : (s.modDom d f).tuFaults = s.tuFaults := rfl
@[simp] theorem State.modDom_arbCommits : (s.modDom d f).arbCommits = s.arbCommits := rfl
@[simp] theorem State.modDom_fabDecerr : (s.modDom d f).fabDecerr = s.fabDecerr := rfl
@[simp] theorem State.modDom_fabDecAddr : (s.modDom d f).fabDecAddr = s.fabDecAddr := rfl
@[simp] theorem State.modDom_fabHold : (s.modDom d f).fabHold = s.fabHold := rfl
@[simp] theorem State.modDom_ports : (s.modDom d f).ports = s.ports := rfl
@[simp] theorem State.modDom_mgmt : (s.modDom d f).mgmt = s.mgmt := rfl
@[simp] theorem State.modDom_time : (s.modDom d f).time = { s.time with doms := modT {} s.time.doms d f } := rfl
@[simp] theorem State.modDom_rst : (s.modDom d f).rst = s.rst := rfl
@[simp] theorem State.modDom_out : (s.modDom d f).out = s.out := rfl
@[simp] theorem State.modDom_free : (s.modDom d f).free = s.free := rfl
@[simp] theorem State.modDom_pending : (s.modDom d f).pending = s.pending := rfl
/-- The accessors of the other fields. -/
@[simp] theorem State.modDom_reads :
    (s.modDom d f).fn j = s.fn j ∧ (s.modDom d f).ring j k = s.ring j k ∧ (s.modDom d f).lane j = s.lane j ∧
    (s.modDom d f).group j = s.group j ∧ (s.modDom d f).outGrp j = s.outGrp j ∧ (s.modDom d f).outLane j = s.outLane j ∧
    (s.modDom d f).die j = s.die j ∧ (s.modDom d f).stack j k = s.stack j k ∧ (s.modDom d f).subr j = s.subr j ∧
    (s.modDom d f).beam j = s.beam j ∧ (s.modDom d f).topk j = s.topk j ∧ (s.modDom d f).chain j = s.chain j ∧
    (s.modDom d f).eng j = s.eng j ∧ (s.modDom d f).egroup j = s.egroup j ∧ (s.modDom d f).dma j = s.dma j ∧
    (s.modDom d f).lock j = s.lock j ∧ (s.modDom d f).port j = s.port j ∧ (s.modDom d f).ref j = s.ref j ∧ (s.modDom d f).reg j = s.reg j := ⟨rfl, rfl, rfl, rfl, rfl, rfl, rfl, rfl, rfl, rfl, rfl, rfl, rfl, rfl, rfl, rfl, rfl, rfl, rfl⟩
end

section
variable {x : Nat} {f : Ref → Ref}
@[simp] theorem State.modRef_shadow : (s.modRef x f).shadow = s.shadow := rfl
@[simp] theorem State.modRef_comm : (s.modRef x f).comm = s.comm := rfl
@[simp] theorem State.modRef_setup : (s.modRef x f).setup = s.setup := rfl
@[simp] theorem State.modRef_numVfs : (s.modRef x f).numVfs = s.numVfs := rfl
@[simp] theorem State.modRef_fns : (s.modRef x f).fns = s.fns := rfl
@[simp] theorem State.modRef_rings : (s.modRef x f).rings = s.rings := rfl
@[simp] theorem State.modRef_lanes : (s.modRef x f).lanes = s.lanes := rfl
@[simp] theorem State.modRef_groups : (s.modRef x f).groups = s.groups := rfl
@[simp] theorem State.modRef_outGrps : (s.modRef x f).outGrps = s.outGrps := rfl
@[simp] theorem State.modRef_outLanes : (s.modRef x f).outLanes = s.outLanes := rfl
@[simp] theorem State.modRef_dies : (s.modRef x f).dies = s.dies := rfl
@[simp] theorem State.modRef_hbmStacks : (s.modRef x f).hbmStacks = s.hbmStacks := rfl
@[simp] theorem State.modRef_grid : (s.modRef x f).grid = s.grid := rfl
@[simp] theorem State.modRef_subs : (s.modRef x f).subs = s.subs := rfl
@[simp] theorem State.modRef_beams : (s.modRef x f).beams = s.beams := rfl
@[simp] theorem State.modRef_topks : (s.modRef x f).topks = s.topks := rfl
@[simp] theorem State.modRef_topkNext : (s.modRef x f).topkNext = s.topkNext := rfl
@[simp] theorem State.modRef_handles : (s.modRef x f).handles = s.handles := rfl
@[simp] theorem State.modRef_allocs : (s.modRef x f).allocs = s.allocs := rfl
@[simp] theorem State.modRef_hbm : (s.modRef x f).hbm = s.hbm := rfl
@[simp] theorem State.modRef_posts : (s.modRef x f).posts = s.posts := rfl
@[simp] theorem State.modRef_flagSeq : (s.modRef x f).flagSeq = s.flagSeq := rfl
@[simp] theorem State.modRef_flagWaits : (s.modRef x f).flagWaits = s.flagWaits := rfl
@[simp] theorem State.modRef_chains : (s.modRef x f).chains = s.chains := rfl
@[simp] theorem State.modRef_engs : (s.modRef x f).engs = s.engs := rfl
@[simp] theorem State.modRef_egroups : (s.modRef x f).egroups = s.egroups := rfl
@[simp] theorem State.modRef_dec : (s.modRef x f).dec = s.dec := rfl
@[simp] theorem State.modRef_dmas : (s.modRef x f).dmas = s.dmas := rfl
@[simp] theorem State.modRef_tlb : (s.modRef x f).tlb = s.tlb := rfl
@[simp] theorem State.modRef_invals : (s.modRef x f).invals = s.invals := rfl
@[simp] theorem State.modRef_locks : (s.modRef x f).locks = s.locks := rfl
@[simp] theorem State.modRef_tuFaults : (s.modRef x f).tuFaults = s.tuFaults := rfl
@[simp] theorem State.modRef_arbCommits : (s.modRef x f).arbCommits = s.arbCommits := rfl
@[simp] theorem State.modRef_fabDecerr : (s.modRef x f).fabDecerr = s.fabDecerr := rfl
@[simp] theorem State.modRef_fabDecAddr : (s.modRef x f).fabDecAddr = s.fabDecAddr := rfl
@[simp] theorem State.modRef_fabHold : (s.modRef x f).fabHold = s.fabHold := rfl
@[simp] theorem State.modRef_ports : (s.modRef x f).ports = s.ports := rfl
@[simp] theorem State.modRef_mgmt : (s.modRef x f).mgmt = s.mgmt := rfl
@[simp] theorem State.modRef_time : (s.modRef x f).time = { s.time with refs := modT {} s.time.refs x f } := rfl
@[simp] theorem State.modRef_rst : (s.modRef x f).rst = s.rst := rfl
@[simp] theorem State.modRef_out : (s.modRef x f).out = s.out := rfl
@[simp] theorem State.modRef_free : (s.modRef x f).free = s.free := rfl
@[simp] theorem State.modRef_pending : (s.modRef x f).pending = s.pending := rfl
/-- The accessors of the other fields. -/
@[simp] theorem State.modRef_reads :
    (s.modRef x f).fn j = s.fn j ∧ (s.modRef x f).ring j k = s.ring j k ∧ (s.modRef x f).lane j = s.lane j ∧
    (s.modRef x f).group j = s.group j ∧ (s.modRef x f).outGrp j = s.outGrp j ∧ (s.modRef x f).outLane j = s.outLane j ∧
    (s.modRef x f).die j = s.die j ∧ (s.modRef x f).stack j k = s.stack j k ∧ (s.modRef x f).subr j = s.subr j ∧
    (s.modRef x f).beam j = s.beam j ∧ (s.modRef x f).topk j = s.topk j ∧ (s.modRef x f).chain j = s.chain j ∧
    (s.modRef x f).eng j = s.eng j ∧ (s.modRef x f).egroup j = s.egroup j ∧ (s.modRef x f).dma j = s.dma j ∧
    (s.modRef x f).lock j = s.lock j ∧ (s.modRef x f).port j = s.port j ∧ (s.modRef x f).dom j = s.dom j ∧ (s.modRef x f).reg j = s.reg j := ⟨rfl, rfl, rfl, rfl, rfl, rfl, rfl, rfl, rfl, rfl, rfl, rfl, rfl, rfl, rfl, rfl, rfl, rfl, rfl⟩
end

section
variable {o : Output}
@[simp] theorem State.emit_shadow : (s.emit o).shadow = s.shadow := rfl
@[simp] theorem State.emit_comm : (s.emit o).comm = s.comm := rfl
@[simp] theorem State.emit_setup : (s.emit o).setup = s.setup := rfl
@[simp] theorem State.emit_numVfs : (s.emit o).numVfs = s.numVfs := rfl
@[simp] theorem State.emit_fns : (s.emit o).fns = s.fns := rfl
@[simp] theorem State.emit_rings : (s.emit o).rings = s.rings := rfl
@[simp] theorem State.emit_lanes : (s.emit o).lanes = s.lanes := rfl
@[simp] theorem State.emit_groups : (s.emit o).groups = s.groups := rfl
@[simp] theorem State.emit_outGrps : (s.emit o).outGrps = s.outGrps := rfl
@[simp] theorem State.emit_outLanes : (s.emit o).outLanes = s.outLanes := rfl
@[simp] theorem State.emit_dies : (s.emit o).dies = s.dies := rfl
@[simp] theorem State.emit_hbmStacks : (s.emit o).hbmStacks = s.hbmStacks := rfl
@[simp] theorem State.emit_grid : (s.emit o).grid = s.grid := rfl
@[simp] theorem State.emit_subs : (s.emit o).subs = s.subs := rfl
@[simp] theorem State.emit_beams : (s.emit o).beams = s.beams := rfl
@[simp] theorem State.emit_topks : (s.emit o).topks = s.topks := rfl
@[simp] theorem State.emit_topkNext : (s.emit o).topkNext = s.topkNext := rfl
@[simp] theorem State.emit_handles : (s.emit o).handles = s.handles := rfl
@[simp] theorem State.emit_allocs : (s.emit o).allocs = s.allocs := rfl
@[simp] theorem State.emit_hbm : (s.emit o).hbm = s.hbm := rfl
@[simp] theorem State.emit_posts : (s.emit o).posts = s.posts := rfl
@[simp] theorem State.emit_flagSeq : (s.emit o).flagSeq = s.flagSeq := rfl
@[simp] theorem State.emit_flagWaits : (s.emit o).flagWaits = s.flagWaits := rfl
@[simp] theorem State.emit_chains : (s.emit o).chains = s.chains := rfl
@[simp] theorem State.emit_engs : (s.emit o).engs = s.engs := rfl
@[simp] theorem State.emit_egroups : (s.emit o).egroups = s.egroups := rfl
@[simp] theorem State.emit_dec : (s.emit o).dec = s.dec := rfl
@[simp] theorem State.emit_dmas : (s.emit o).dmas = s.dmas := rfl
@[simp] theorem State.emit_tlb : (s.emit o).tlb = s.tlb := rfl
@[simp] theorem State.emit_invals : (s.emit o).invals = s.invals := rfl
@[simp] theorem State.emit_locks : (s.emit o).locks = s.locks := rfl
@[simp] theorem State.emit_tuFaults : (s.emit o).tuFaults = s.tuFaults := rfl
@[simp] theorem State.emit_arbCommits : (s.emit o).arbCommits = s.arbCommits := rfl
@[simp] theorem State.emit_fabDecerr : (s.emit o).fabDecerr = s.fabDecerr := rfl
@[simp] theorem State.emit_fabDecAddr : (s.emit o).fabDecAddr = s.fabDecAddr := rfl
@[simp] theorem State.emit_fabHold : (s.emit o).fabHold = s.fabHold := rfl
@[simp] theorem State.emit_ports : (s.emit o).ports = s.ports := rfl
@[simp] theorem State.emit_mgmt : (s.emit o).mgmt = s.mgmt := rfl
@[simp] theorem State.emit_time : (s.emit o).time = s.time := rfl
@[simp] theorem State.emit_rst : (s.emit o).rst = s.rst := rfl
@[simp] theorem State.emit_out : (s.emit o).out = s.out ++ [o] := rfl
@[simp] theorem State.emit_free : (s.emit o).free = s.free := rfl
@[simp] theorem State.emit_pending : (s.emit o).pending = s.pending := rfl
/-- The accessors of the other fields. -/
@[simp] theorem State.emit_reads :
    (s.emit o).fn j = s.fn j ∧ (s.emit o).ring j k = s.ring j k ∧ (s.emit o).lane j = s.lane j ∧ (s.emit o).group j = s.group j ∧
    (s.emit o).outGrp j = s.outGrp j ∧ (s.emit o).outLane j = s.outLane j ∧ (s.emit o).die j = s.die j ∧
    (s.emit o).stack j k = s.stack j k ∧ (s.emit o).subr j = s.subr j ∧ (s.emit o).beam j = s.beam j ∧ (s.emit o).topk j = s.topk j ∧
    (s.emit o).chain j = s.chain j ∧ (s.emit o).eng j = s.eng j ∧ (s.emit o).egroup j = s.egroup j ∧ (s.emit o).dma j = s.dma j ∧
    (s.emit o).lock j = s.lock j ∧ (s.emit o).port j = s.port j ∧ (s.emit o).dom j = s.dom j ∧ (s.emit o).ref j = s.ref j ∧
    (s.emit o).reg j = s.reg j := ⟨rfl, rfl, rfl, rfl, rfl, rfl, rfl, rfl, rfl, rfl, rfl, rfl, rfl, rfl, rfl, rfl, rfl, rfl, rfl, rfl⟩
end

section
@[simp] theorem State.drawFree_shadow : s.drawFree.shadow = s.shadow := rfl
@[simp] theorem State.drawFree_comm : s.drawFree.comm = s.comm := rfl
@[simp] theorem State.drawFree_setup : s.drawFree.setup = s.setup := rfl
@[simp] theorem State.drawFree_numVfs : s.drawFree.numVfs = s.numVfs := rfl
@[simp] theorem State.drawFree_fns : s.drawFree.fns = s.fns := rfl
@[simp] theorem State.drawFree_rings : s.drawFree.rings = s.rings := rfl
@[simp] theorem State.drawFree_lanes : s.drawFree.lanes = s.lanes := rfl
@[simp] theorem State.drawFree_groups : s.drawFree.groups = s.groups := rfl
@[simp] theorem State.drawFree_outGrps : s.drawFree.outGrps = s.outGrps := rfl
@[simp] theorem State.drawFree_outLanes : s.drawFree.outLanes = s.outLanes := rfl
@[simp] theorem State.drawFree_dies : s.drawFree.dies = s.dies := rfl
@[simp] theorem State.drawFree_hbmStacks : s.drawFree.hbmStacks = s.hbmStacks := rfl
@[simp] theorem State.drawFree_grid : s.drawFree.grid = s.grid := rfl
@[simp] theorem State.drawFree_subs : s.drawFree.subs = s.subs := rfl
@[simp] theorem State.drawFree_beams : s.drawFree.beams = s.beams := rfl
@[simp] theorem State.drawFree_topks : s.drawFree.topks = s.topks := rfl
@[simp] theorem State.drawFree_topkNext : s.drawFree.topkNext = s.topkNext := rfl
@[simp] theorem State.drawFree_handles : s.drawFree.handles = s.handles := rfl
@[simp] theorem State.drawFree_allocs : s.drawFree.allocs = s.allocs := rfl
@[simp] theorem State.drawFree_hbm : s.drawFree.hbm = s.hbm := rfl
@[simp] theorem State.drawFree_posts : s.drawFree.posts = s.posts := rfl
@[simp] theorem State.drawFree_flagSeq : s.drawFree.flagSeq = s.flagSeq := rfl
@[simp] theorem State.drawFree_flagWaits : s.drawFree.flagWaits = s.flagWaits := rfl
@[simp] theorem State.drawFree_chains : s.drawFree.chains = s.chains := rfl
@[simp] theorem State.drawFree_engs : s.drawFree.engs = s.engs := rfl
@[simp] theorem State.drawFree_egroups : s.drawFree.egroups = s.egroups := rfl
@[simp] theorem State.drawFree_dec : s.drawFree.dec = s.dec := rfl
@[simp] theorem State.drawFree_dmas : s.drawFree.dmas = s.dmas := rfl
@[simp] theorem State.drawFree_tlb : s.drawFree.tlb = s.tlb := rfl
@[simp] theorem State.drawFree_invals : s.drawFree.invals = s.invals := rfl
@[simp] theorem State.drawFree_locks : s.drawFree.locks = s.locks := rfl
@[simp] theorem State.drawFree_tuFaults : s.drawFree.tuFaults = s.tuFaults := rfl
@[simp] theorem State.drawFree_arbCommits : s.drawFree.arbCommits = s.arbCommits := rfl
@[simp] theorem State.drawFree_fabDecerr : s.drawFree.fabDecerr = s.fabDecerr := rfl
@[simp] theorem State.drawFree_fabDecAddr : s.drawFree.fabDecAddr = s.fabDecAddr := rfl
@[simp] theorem State.drawFree_fabHold : s.drawFree.fabHold = s.fabHold := rfl
@[simp] theorem State.drawFree_ports : s.drawFree.ports = s.ports := rfl
@[simp] theorem State.drawFree_mgmt : s.drawFree.mgmt = s.mgmt := rfl
@[simp] theorem State.drawFree_time : s.drawFree.time = s.time := rfl
@[simp] theorem State.drawFree_rst : s.drawFree.rst = s.rst := rfl
@[simp] theorem State.drawFree_out : s.drawFree.out = s.out := rfl
@[simp] theorem State.drawFree_free : s.drawFree.free = s.free + 1 := rfl
@[simp] theorem State.drawFree_pending : s.drawFree.pending = s.pending := rfl
/-- The accessors of the other fields. -/
@[simp] theorem State.drawFree_reads :
    s.drawFree.fn j = s.fn j ∧ s.drawFree.ring j k = s.ring j k ∧ s.drawFree.lane j = s.lane j ∧ s.drawFree.group j = s.group j ∧
    s.drawFree.outGrp j = s.outGrp j ∧ s.drawFree.outLane j = s.outLane j ∧ s.drawFree.die j = s.die j ∧
    s.drawFree.stack j k = s.stack j k ∧ s.drawFree.subr j = s.subr j ∧ s.drawFree.beam j = s.beam j ∧ s.drawFree.topk j = s.topk j ∧
    s.drawFree.chain j = s.chain j ∧ s.drawFree.eng j = s.eng j ∧ s.drawFree.egroup j = s.egroup j ∧ s.drawFree.dma j = s.dma j ∧
    s.drawFree.lock j = s.lock j ∧ s.drawFree.port j = s.port j ∧ s.drawFree.dom j = s.dom j ∧ s.drawFree.ref j = s.ref j ∧
    s.drawFree.reg j = s.reg j := ⟨rfl, rfl, rfl, rfl, rfl, rfl, rfl, rfl, rfl, rfl, rfl, rfl, rfl, rfl, rfl, rfl, rfl, rfl, rfl, rfl⟩
end

section
variable {a : Nat} {v : Nat}
@[simp] theorem State.setReg_shadow : (s.setReg a v).shadow = s.shadow := rfl
@[simp] theorem State.setReg_comm : (s.setReg a v).comm = setT (coldReg a) s.comm a (BitVec.ofNat 32 v) := rfl
@[simp] theorem State.setReg_setup : (s.setReg a v).setup = s.setup := rfl
@[simp] theorem State.setReg_numVfs : (s.setReg a v).numVfs = s.numVfs := rfl
@[simp] theorem State.setReg_fns : (s.setReg a v).fns = s.fns := rfl
@[simp] theorem State.setReg_rings : (s.setReg a v).rings = s.rings := rfl
@[simp] theorem State.setReg_lanes : (s.setReg a v).lanes = s.lanes := rfl
@[simp] theorem State.setReg_groups : (s.setReg a v).groups = s.groups := rfl
@[simp] theorem State.setReg_outGrps : (s.setReg a v).outGrps = s.outGrps := rfl
@[simp] theorem State.setReg_outLanes : (s.setReg a v).outLanes = s.outLanes := rfl
@[simp] theorem State.setReg_dies : (s.setReg a v).dies = s.dies := rfl
@[simp] theorem State.setReg_hbmStacks : (s.setReg a v).hbmStacks = s.hbmStacks := rfl
@[simp] theorem State.setReg_grid : (s.setReg a v).grid = s.grid := rfl
@[simp] theorem State.setReg_subs : (s.setReg a v).subs = s.subs := rfl
@[simp] theorem State.setReg_beams : (s.setReg a v).beams = s.beams := rfl
@[simp] theorem State.setReg_topks : (s.setReg a v).topks = s.topks := rfl
@[simp] theorem State.setReg_topkNext : (s.setReg a v).topkNext = s.topkNext := rfl
@[simp] theorem State.setReg_handles : (s.setReg a v).handles = s.handles := rfl
@[simp] theorem State.setReg_allocs : (s.setReg a v).allocs = s.allocs := rfl
@[simp] theorem State.setReg_hbm : (s.setReg a v).hbm = s.hbm := rfl
@[simp] theorem State.setReg_posts : (s.setReg a v).posts = s.posts := rfl
@[simp] theorem State.setReg_flagSeq : (s.setReg a v).flagSeq = s.flagSeq := rfl
@[simp] theorem State.setReg_flagWaits : (s.setReg a v).flagWaits = s.flagWaits := rfl
@[simp] theorem State.setReg_chains : (s.setReg a v).chains = s.chains := rfl
@[simp] theorem State.setReg_engs : (s.setReg a v).engs = s.engs := rfl
@[simp] theorem State.setReg_egroups : (s.setReg a v).egroups = s.egroups := rfl
@[simp] theorem State.setReg_dec : (s.setReg a v).dec = s.dec := rfl
@[simp] theorem State.setReg_dmas : (s.setReg a v).dmas = s.dmas := rfl
@[simp] theorem State.setReg_tlb : (s.setReg a v).tlb = s.tlb := rfl
@[simp] theorem State.setReg_invals : (s.setReg a v).invals = s.invals := rfl
@[simp] theorem State.setReg_locks : (s.setReg a v).locks = s.locks := rfl
@[simp] theorem State.setReg_tuFaults : (s.setReg a v).tuFaults = s.tuFaults := rfl
@[simp] theorem State.setReg_arbCommits : (s.setReg a v).arbCommits = s.arbCommits := rfl
@[simp] theorem State.setReg_fabDecerr : (s.setReg a v).fabDecerr = s.fabDecerr := rfl
@[simp] theorem State.setReg_fabDecAddr : (s.setReg a v).fabDecAddr = s.fabDecAddr := rfl
@[simp] theorem State.setReg_fabHold : (s.setReg a v).fabHold = s.fabHold := rfl
@[simp] theorem State.setReg_ports : (s.setReg a v).ports = s.ports := rfl
@[simp] theorem State.setReg_mgmt : (s.setReg a v).mgmt = s.mgmt := rfl
@[simp] theorem State.setReg_time : (s.setReg a v).time = s.time := rfl
@[simp] theorem State.setReg_rst : (s.setReg a v).rst = s.rst := rfl
@[simp] theorem State.setReg_out : (s.setReg a v).out = s.out := rfl
@[simp] theorem State.setReg_free : (s.setReg a v).free = s.free := rfl
@[simp] theorem State.setReg_pending : (s.setReg a v).pending = s.pending := rfl
/-- The accessors of the other fields. -/
@[simp] theorem State.setReg_reads :
    (s.setReg a v).fn j = s.fn j ∧ (s.setReg a v).ring j k = s.ring j k ∧ (s.setReg a v).lane j = s.lane j ∧
    (s.setReg a v).group j = s.group j ∧ (s.setReg a v).outGrp j = s.outGrp j ∧ (s.setReg a v).outLane j = s.outLane j ∧
    (s.setReg a v).die j = s.die j ∧ (s.setReg a v).stack j k = s.stack j k ∧ (s.setReg a v).subr j = s.subr j ∧
    (s.setReg a v).beam j = s.beam j ∧ (s.setReg a v).topk j = s.topk j ∧ (s.setReg a v).chain j = s.chain j ∧
    (s.setReg a v).eng j = s.eng j ∧ (s.setReg a v).egroup j = s.egroup j ∧ (s.setReg a v).dma j = s.dma j ∧
    (s.setReg a v).lock j = s.lock j ∧ (s.setReg a v).port j = s.port j ∧ (s.setReg a v).dom j = s.dom j ∧ (s.setReg a v).ref j = s.ref j := ⟨rfl, rfl, rfl, rfl, rfl, rfl, rfl, rfl, rfl, rfl, rfl, rfl, rfl, rfl, rfl, rfl, rfl, rfl, rfl⟩
end

section
variable {a : Nat} {v : Nat}
@[simp] theorem State.setShadow_shadow : (s.setShadow a v).shadow = setT (coldReg a) s.shadow a (BitVec.ofNat 32 v) := rfl
@[simp] theorem State.setShadow_comm : (s.setShadow a v).comm = s.comm := rfl
@[simp] theorem State.setShadow_setup : (s.setShadow a v).setup = s.setup := rfl
@[simp] theorem State.setShadow_numVfs : (s.setShadow a v).numVfs = s.numVfs := rfl
@[simp] theorem State.setShadow_fns : (s.setShadow a v).fns = s.fns := rfl
@[simp] theorem State.setShadow_rings : (s.setShadow a v).rings = s.rings := rfl
@[simp] theorem State.setShadow_lanes : (s.setShadow a v).lanes = s.lanes := rfl
@[simp] theorem State.setShadow_groups : (s.setShadow a v).groups = s.groups := rfl
@[simp] theorem State.setShadow_outGrps : (s.setShadow a v).outGrps = s.outGrps := rfl
@[simp] theorem State.setShadow_outLanes : (s.setShadow a v).outLanes = s.outLanes := rfl
@[simp] theorem State.setShadow_dies : (s.setShadow a v).dies = s.dies := rfl
@[simp] theorem State.setShadow_hbmStacks : (s.setShadow a v).hbmStacks = s.hbmStacks := rfl
@[simp] theorem State.setShadow_grid : (s.setShadow a v).grid = s.grid := rfl
@[simp] theorem State.setShadow_subs : (s.setShadow a v).subs = s.subs := rfl
@[simp] theorem State.setShadow_beams : (s.setShadow a v).beams = s.beams := rfl
@[simp] theorem State.setShadow_topks : (s.setShadow a v).topks = s.topks := rfl
@[simp] theorem State.setShadow_topkNext : (s.setShadow a v).topkNext = s.topkNext := rfl
@[simp] theorem State.setShadow_handles : (s.setShadow a v).handles = s.handles := rfl
@[simp] theorem State.setShadow_allocs : (s.setShadow a v).allocs = s.allocs := rfl
@[simp] theorem State.setShadow_hbm : (s.setShadow a v).hbm = s.hbm := rfl
@[simp] theorem State.setShadow_posts : (s.setShadow a v).posts = s.posts := rfl
@[simp] theorem State.setShadow_flagSeq : (s.setShadow a v).flagSeq = s.flagSeq := rfl
@[simp] theorem State.setShadow_flagWaits : (s.setShadow a v).flagWaits = s.flagWaits := rfl
@[simp] theorem State.setShadow_chains : (s.setShadow a v).chains = s.chains := rfl
@[simp] theorem State.setShadow_engs : (s.setShadow a v).engs = s.engs := rfl
@[simp] theorem State.setShadow_egroups : (s.setShadow a v).egroups = s.egroups := rfl
@[simp] theorem State.setShadow_dec : (s.setShadow a v).dec = s.dec := rfl
@[simp] theorem State.setShadow_dmas : (s.setShadow a v).dmas = s.dmas := rfl
@[simp] theorem State.setShadow_tlb : (s.setShadow a v).tlb = s.tlb := rfl
@[simp] theorem State.setShadow_invals : (s.setShadow a v).invals = s.invals := rfl
@[simp] theorem State.setShadow_locks : (s.setShadow a v).locks = s.locks := rfl
@[simp] theorem State.setShadow_tuFaults : (s.setShadow a v).tuFaults = s.tuFaults := rfl
@[simp] theorem State.setShadow_arbCommits : (s.setShadow a v).arbCommits = s.arbCommits := rfl
@[simp] theorem State.setShadow_fabDecerr : (s.setShadow a v).fabDecerr = s.fabDecerr := rfl
@[simp] theorem State.setShadow_fabDecAddr : (s.setShadow a v).fabDecAddr = s.fabDecAddr := rfl
@[simp] theorem State.setShadow_fabHold : (s.setShadow a v).fabHold = s.fabHold := rfl
@[simp] theorem State.setShadow_ports : (s.setShadow a v).ports = s.ports := rfl
@[simp] theorem State.setShadow_mgmt : (s.setShadow a v).mgmt = s.mgmt := rfl
@[simp] theorem State.setShadow_time : (s.setShadow a v).time = s.time := rfl
@[simp] theorem State.setShadow_rst : (s.setShadow a v).rst = s.rst := rfl
@[simp] theorem State.setShadow_out : (s.setShadow a v).out = s.out := rfl
@[simp] theorem State.setShadow_free : (s.setShadow a v).free = s.free := rfl
@[simp] theorem State.setShadow_pending : (s.setShadow a v).pending = s.pending := rfl
/-- The accessors of the other fields. -/
@[simp] theorem State.setShadow_reads :
    (s.setShadow a v).fn j = s.fn j ∧ (s.setShadow a v).ring j k = s.ring j k ∧ (s.setShadow a v).lane j = s.lane j ∧
    (s.setShadow a v).group j = s.group j ∧ (s.setShadow a v).outGrp j = s.outGrp j ∧ (s.setShadow a v).outLane j = s.outLane j ∧
    (s.setShadow a v).die j = s.die j ∧ (s.setShadow a v).stack j k = s.stack j k ∧ (s.setShadow a v).subr j = s.subr j ∧
    (s.setShadow a v).beam j = s.beam j ∧ (s.setShadow a v).topk j = s.topk j ∧ (s.setShadow a v).chain j = s.chain j ∧
    (s.setShadow a v).eng j = s.eng j ∧ (s.setShadow a v).egroup j = s.egroup j ∧ (s.setShadow a v).dma j = s.dma j ∧
    (s.setShadow a v).lock j = s.lock j ∧ (s.setShadow a v).port j = s.port j ∧ (s.setShadow a v).dom j = s.dom j ∧
    (s.setShadow a v).ref j = s.ref j ∧ (s.setShadow a v).reg j = s.reg j := ⟨rfl, rfl, rfl, rfl, rfl, rfl, rfl, rfl, rfl, rfl, rfl, rfl, rfl, rfl, rfl, rfl, rfl, rfl, rfl, rfl⟩
end

section
variable {a : Nat} {bs : List Byte}
@[simp] theorem State.hbmWrite_shadow : (s.hbmWrite a bs).shadow = s.shadow := rfl
@[simp] theorem State.hbmWrite_comm : (s.hbmWrite a bs).comm = s.comm := rfl
@[simp] theorem State.hbmWrite_setup : (s.hbmWrite a bs).setup = s.setup := rfl
@[simp] theorem State.hbmWrite_numVfs : (s.hbmWrite a bs).numVfs = s.numVfs := rfl
@[simp] theorem State.hbmWrite_fns : (s.hbmWrite a bs).fns = s.fns := rfl
@[simp] theorem State.hbmWrite_rings : (s.hbmWrite a bs).rings = s.rings := rfl
@[simp] theorem State.hbmWrite_lanes : (s.hbmWrite a bs).lanes = s.lanes := rfl
@[simp] theorem State.hbmWrite_groups : (s.hbmWrite a bs).groups = s.groups := rfl
@[simp] theorem State.hbmWrite_outGrps : (s.hbmWrite a bs).outGrps = s.outGrps := rfl
@[simp] theorem State.hbmWrite_outLanes : (s.hbmWrite a bs).outLanes = s.outLanes := rfl
@[simp] theorem State.hbmWrite_dies : (s.hbmWrite a bs).dies = s.dies := rfl
@[simp] theorem State.hbmWrite_hbmStacks : (s.hbmWrite a bs).hbmStacks = s.hbmStacks := rfl
@[simp] theorem State.hbmWrite_grid : (s.hbmWrite a bs).grid = s.grid := rfl
@[simp] theorem State.hbmWrite_subs : (s.hbmWrite a bs).subs = s.subs := rfl
@[simp] theorem State.hbmWrite_beams : (s.hbmWrite a bs).beams = s.beams := rfl
@[simp] theorem State.hbmWrite_topks : (s.hbmWrite a bs).topks = s.topks := rfl
@[simp] theorem State.hbmWrite_topkNext : (s.hbmWrite a bs).topkNext = s.topkNext := rfl
@[simp] theorem State.hbmWrite_handles : (s.hbmWrite a bs).handles = s.handles := rfl
@[simp] theorem State.hbmWrite_allocs : (s.hbmWrite a bs).allocs = s.allocs := rfl
@[simp] theorem State.hbmWrite_hbm : (s.hbmWrite a bs).hbm = setRun 0 s.hbm a bs := rfl
@[simp] theorem State.hbmWrite_posts : (s.hbmWrite a bs).posts = s.posts := rfl
@[simp] theorem State.hbmWrite_flagSeq : (s.hbmWrite a bs).flagSeq = s.flagSeq := rfl
@[simp] theorem State.hbmWrite_flagWaits : (s.hbmWrite a bs).flagWaits = s.flagWaits := rfl
@[simp] theorem State.hbmWrite_chains : (s.hbmWrite a bs).chains = s.chains := rfl
@[simp] theorem State.hbmWrite_engs : (s.hbmWrite a bs).engs = s.engs := rfl
@[simp] theorem State.hbmWrite_egroups : (s.hbmWrite a bs).egroups = s.egroups := rfl
@[simp] theorem State.hbmWrite_dec : (s.hbmWrite a bs).dec = s.dec := rfl
@[simp] theorem State.hbmWrite_dmas : (s.hbmWrite a bs).dmas = s.dmas := rfl
@[simp] theorem State.hbmWrite_tlb : (s.hbmWrite a bs).tlb = s.tlb := rfl
@[simp] theorem State.hbmWrite_invals : (s.hbmWrite a bs).invals = s.invals := rfl
@[simp] theorem State.hbmWrite_locks : (s.hbmWrite a bs).locks = s.locks := rfl
@[simp] theorem State.hbmWrite_tuFaults : (s.hbmWrite a bs).tuFaults = s.tuFaults := rfl
@[simp] theorem State.hbmWrite_arbCommits : (s.hbmWrite a bs).arbCommits = s.arbCommits := rfl
@[simp] theorem State.hbmWrite_fabDecerr : (s.hbmWrite a bs).fabDecerr = s.fabDecerr := rfl
@[simp] theorem State.hbmWrite_fabDecAddr : (s.hbmWrite a bs).fabDecAddr = s.fabDecAddr := rfl
@[simp] theorem State.hbmWrite_fabHold : (s.hbmWrite a bs).fabHold = s.fabHold := rfl
@[simp] theorem State.hbmWrite_ports : (s.hbmWrite a bs).ports = s.ports := rfl
@[simp] theorem State.hbmWrite_mgmt : (s.hbmWrite a bs).mgmt = s.mgmt := rfl
@[simp] theorem State.hbmWrite_time : (s.hbmWrite a bs).time = s.time := rfl
@[simp] theorem State.hbmWrite_rst : (s.hbmWrite a bs).rst = s.rst := rfl
@[simp] theorem State.hbmWrite_out : (s.hbmWrite a bs).out = s.out := rfl
@[simp] theorem State.hbmWrite_free : (s.hbmWrite a bs).free = s.free := rfl
@[simp] theorem State.hbmWrite_pending : (s.hbmWrite a bs).pending = s.pending := rfl
/-- The accessors of the other fields. -/
@[simp] theorem State.hbmWrite_reads :
    (s.hbmWrite a bs).fn j = s.fn j ∧ (s.hbmWrite a bs).ring j k = s.ring j k ∧ (s.hbmWrite a bs).lane j = s.lane j ∧
    (s.hbmWrite a bs).group j = s.group j ∧ (s.hbmWrite a bs).outGrp j = s.outGrp j ∧ (s.hbmWrite a bs).outLane j = s.outLane j ∧
    (s.hbmWrite a bs).die j = s.die j ∧ (s.hbmWrite a bs).stack j k = s.stack j k ∧ (s.hbmWrite a bs).subr j = s.subr j ∧
    (s.hbmWrite a bs).beam j = s.beam j ∧ (s.hbmWrite a bs).topk j = s.topk j ∧ (s.hbmWrite a bs).chain j = s.chain j ∧
    (s.hbmWrite a bs).eng j = s.eng j ∧ (s.hbmWrite a bs).egroup j = s.egroup j ∧ (s.hbmWrite a bs).dma j = s.dma j ∧
    (s.hbmWrite a bs).lock j = s.lock j ∧ (s.hbmWrite a bs).port j = s.port j ∧ (s.hbmWrite a bs).dom j = s.dom j ∧
    (s.hbmWrite a bs).ref j = s.ref j ∧ (s.hbmWrite a bs).reg j = s.reg j := ⟨rfl, rfl, rfl, rfl, rfl, rfl, rfl, rfl, rfl, rfl, rfl, rfl, rfl, rfl, rfl, rfl, rfl, rfl, rfl, rfl⟩
end

/-! ### What an update writes is what is read -/

@[simp] theorem State.modFn_fn {f : Fn → Fn} (h : wfT {} s.fns = true) : (s.modFn j f).fn k = if k = j then f (s.fn j) else s.fn k := getT_modT h
@[simp] theorem State.modLane_lane {f : Lane → Lane} (h : wfT {} s.lanes = true) : (s.modLane j f).lane k = if k = j then f (s.lane j) else s.lane k := getT_modT h
@[simp] theorem State.modGroup_group {f : Group → Group} (h : wfT {} s.groups = true) : (s.modGroup j f).group k = if k = j then f (s.group j) else s.group k := getT_modT h
@[simp] theorem State.modOutGrp_outGrp {f : OutGroup → OutGroup} (h : wfT {} s.outGrps = true) : (s.modOutGrp j f).outGrp k = if k = j then f (s.outGrp j) else s.outGrp k := getT_modT h
@[simp] theorem State.modOutLane_outLane {f : OutLane → OutLane} (h : wfT {} s.outLanes = true) : (s.modOutLane j f).outLane k = if k = j then f (s.outLane j) else s.outLane k := getT_modT h
@[simp] theorem State.modDie_die {f : Die → Die} (h : wfT {} s.dies = true) : (s.modDie j f).die k = if k = j then f (s.die j) else s.die k := getT_modT h
@[simp] theorem State.modSub_subr {f : Sub → Sub} (h : wfT {} s.subs = true) : (s.modSub j f).subr k = if k = j then f (s.subr j) else s.subr k := getT_modT h
@[simp] theorem State.modBeam_beam {f : Beam → Beam} (h : wfT {} s.beams = true) : (s.modBeam j f).beam k = if k = j then f (s.beam j) else s.beam k := getT_modT h
@[simp] theorem State.modChain_chain {f : Chain → Chain} (h : wfT {} s.chains = true) : (s.modChain j f).chain k = if k = j then f (s.chain j) else s.chain k := getT_modT h
@[simp] theorem State.modEng_eng {f : Eng → Eng} (h : wfT {} s.engs = true) : (s.modEng j f).eng k = if k = j then f (s.eng j) else s.eng k := getT_modT h
@[simp] theorem State.modEGroup_egroup {f : EGroup → EGroup} (h : wfT {} s.egroups = true) : (s.modEGroup j f).egroup k = if k = j then f (s.egroup j) else s.egroup k := getT_modT h
@[simp] theorem State.modDma_dma {f : Dma → Dma} (h : wfT {} s.dmas = true) : (s.modDma j f).dma k = if k = j then f (s.dma j) else s.dma k := getT_modT h
@[simp] theorem State.modLock_lock {f : Lock → Lock} (h : wfT {} s.locks = true) : (s.modLock j f).lock k = if k = j then f (s.lock j) else s.lock k := getT_modT h
@[simp] theorem State.modPort_port {f : Port → Port} (h : wfT {} s.ports = true) : (s.modPort j f).port k = if k = j then f (s.port j) else s.port k := getT_modT h

end Sys2Proof.Machine
end

