-- ==== Sys2Proof/Laws/Shared.lean ====
section
/-! SUPPORT. What the shared operations over rings, events, completions, locks and records can change, said once for each. -/
set_option Elab.async false

namespace Sys2Proof.Machine

open Sys2Proof

/-- Only what the host interface keeps has changed: function registers, rings, translation fault counts and outputs. -/
def State.HostOnly (s t : State) : Prop := t = { s with fns := t.fns, rings := t.rings, tuFaults := t.tuFaults, out := t.out }

theorem State.HostOnly.refl (s : State) : s.HostOnly s := rfl

theorem State.HostOnly.trans {s t u : State} (h1 : s.HostOnly t) (h2 : t.HostOnly u) : s.HostOnly u := by
  unfold State.HostOnly at *
  rw [h2, h1]

theorem State.modFn_only (s : State) (t : Nat) (f : Fn → Fn) : s.HostOnly (s.modFn t f) := rfl
theorem State.modRing_only (s : State) (fn q : Nat) (f : Ring → Ring) : s.HostOnly (s.modRing fn q f) := rfl
theorem State.emit_only (s : State) (o : Output) : s.HostOnly (s.emit o) := rfl
theorem State.countTuFault_only (s : State) (t : Nat) : s.HostOnly (s.countTuFault t) := rfl

theorem State.raiseVec_only (s : State) (fn v : Nat) : s.HostOnly (s.raiseVec fn v) := by
  unfold State.raiseVec; repeat' split
  all_goals rfl

theorem State.ringIrq_only (s : State) (fn q : Nat) : s.HostOnly (s.ringIrq fn q) := by
  unfold State.ringIrq; split
  · exact (s.modRing_only fn q _).trans (State.raiseVec_only _ fn _)
  · rfl

theorem State.writeEvt_only (s : State) (fn q w0 w1 d0 d1 : Nat) : s.HostOnly (s.writeEvt fn q w0 w1 d0 d1) := by
  unfold State.writeEvt; simp only; split
  · rfl
  · exact ((s.emit_only _).trans (State.modRing_only _ fn q _)).trans (State.ringIrq_only _ fn q)

theorem State.overflowEvt_only (s : State) (fn : Nat) : s.HostOnly (s.overflowEvt fn) := by
  unfold State.overflowEvt; simp only; split
  · exact (s.writeEvt_only fn _ _ _ _ _).trans (State.modFn_only _ fn _)
  · rfl

/-- An event, posted or discarded, changes nothing else. -/
theorem State.postEvt_only (s : State) (fn ev st kind id d0 d1 : Nat) : s.HostOnly (s.postEvt fn ev st kind id d0 d1) := by
  unfold State.postEvt; simp only; refine (s.overflowEvt_only fn).trans ?_; repeat' split
  · rfl
  · rfl
  · exact State.writeEvt_only _ fn _ _ _ _ _

theorem State.postStatus_only (s : State) (fn st kind id d0 d1 : Nat) : s.HostOnly (s.postStatus fn st kind id d0 d1) :=
  s.postEvt_only fn 0x01 st kind id d0 d1

/-- A completion changes only rings: it joins those that wait for the completion ring. -/
theorem State.complete_only (s : State) (r : CmdRef) (st r0 r1 : Nat) : s.complete r st r0 r1 = { s with rings := (s.complete r st r0 r1).rings } := rfl

theorem State.complete_host (s : State) (r : CmdRef) (st r0 r1 : Nat) : s.HostOnly (s.complete r st r0 r1) := rfl

theorem State.completeOpt_host (s : State) (r : Option CmdRef) (st r0 r1 : Nat) : s.HostOnly (s.completeOpt r st r0 r1) := by
  cases r <;> rfl

/-- A translation fault is counted and posted. -/
theorem State.tuFault_only (s : State) (t iova : Nat) (wr : Bool) : s.HostOnly (s.tuFault t iova wr) :=
  (s.countTuFault_only t).trans (State.postEvt_only _ t _ _ _ _ _ _)

/-- A translation that answers an address changes at most the cached translations. -/
theorem State.translate_some_only {s s' : State} {t iova a : Nat} {wr : Bool} {acc : HostAcc} (h : s.translate t iova wr acc = (s', some a)) :
    s' = { s with tlb := s'.tlb } := by
  unfold State.translate at h
  repeat' split at h
  all_goals cases h
  all_goals rfl

/-- A grant changes the locks, and the rings where a command waits for it. -/
theorem State.grantLock_only (s : State) (n holder : Nat) (cmd : Option CmdRef) :
    let t := s.grantLock n holder cmd
    t = { s with locks := t.locks, rings := t.rings } := by
  cases cmd <;> rfl

theorem State.grantNext_only (s : State) (n : Nat) : let t := s.grantNext n; t = { s with locks := t.locks, rings := t.rings } := by
  unfold State.grantNext; simp only; split
  · exact (State.grantLock_only _ n _ _)
  · rfl

/-- A release changes the locks, and the rings where the next waiter is granted. -/
theorem State.releaseLock_only (s : State) (n mark : Nat) : let t := s.releaseLock n mark; t = { s with locks := t.locks, rings := t.rings } :=
  State.grantNext_only _ n

/-- A discarded record is reported, nothing else. -/
theorem State.dataLost_only (s : State) (r : Rec) : s.HostOnly (s.dataLost r) := s.postStatus_only _ _ _ _ _ _

/-- Only what records on their way change: the host interface, record staging in the dies and the output lanes. -/
def State.RecOnly (s t : State) : Prop :=
  t = { s with fns := t.fns, rings := t.rings, tuFaults := t.tuFaults, out := t.out, dies := t.dies, outLanes := t.outLanes }

theorem State.RecOnly.trans {s t u : State} (h1 : s.RecOnly t) (h2 : t.RecOnly u) : s.RecOnly u := by
  unfold State.RecOnly at *
  rw [h2, h1]

theorem State.HostOnly.rec {s t : State} (h : s.HostOnly t) : s.RecOnly t := by
  unfold State.HostOnly at h
  unfold State.RecOnly
  rw [h]

theorem State.stageRing_only (s : State) (q : Nat) (r : Rec) : s.RecOnly (s.stageRing q r) := by
  unfold State.stageRing; simp only; repeat' split
  · exact (s.dataLost_only r).rec
  · exact ((s.modRing_only _ q _).trans (State.postStatus_only _ _ _ _ _ _ _)).rec
  all_goals rfl

theorem State.stageLane_only (s : State) (d : Nat) (r : Rec) : s.RecOnly (s.stageLane d r) := by
  unfold State.stageLane; split
  · exact (s.dataLost_only r).rec
  · rfl

/-- A record of a die enters staging and its destination, or is discarded. -/
theorem State.emitDie_only (s : State) (d dest : Nat) (r : Rec) : s.RecOnly (s.emitDie d dest r).1 := by
  unfold State.emitDie; simp only; repeat' split
  · exact (s.dataLost_only r).rec
  · exact (s.dataLost_only r).rec
  · exact s.stageLane_only d r
  · exact s.stageRing_only _ _
  · exact s.stageRing_only _ _

theorem State.emitHub_only (s : State) (dest : Nat) (r : Rec) : s.RecOnly (s.emitHub dest r) := s.stageRing_only _ r

end Sys2Proof.Machine
end

