-- ==== Sys2Proof/Laws/Start.lean ====
section
/-! SUPPORT. What the prologue of a ring command does: a translation that succeeds changes only the cached translations, and a
command that starts meets its own checks in `State.started`. -/
set_option Elab.async false

namespace Sys2Proof.Machine

open Sys2Proof

/-- A translation that succeeds changes nothing but the cached translations. -/
theorem translate_some {s s₁ : State} {t iova a : Nat} {wr : Bool} {acc : HostAcc}
    (h : s.translate t iova wr acc = (s₁, some a)) : s₁ = { s with tlb := s₁.tlb } := by
  unfold State.translate at h
  dsimp only at h
  repeat' split at h
  all_goals first
    | (cases h; done)
    | (cases h; rfl)

/-- The same, from the answer alone. -/
theorem translate_isSome {s : State} {t iova : Nat} {wr : Bool} {acc : HostAcc}
    (h : (s.translate t iova wr acc).2.isSome = true) :
    (s.translate t iova wr acc).1 = { s with tlb := (s.translate t iova wr acc).1.tlb } := by
  obtain ⟨a, ha⟩ := Option.isSome_iff_exists.mp h
  exact translate_some (Prod.ext rfl ha)

/-- Where the descriptor is readable, the prologue goes on to its checks. -/
theorem startCmd_readable {s : State} {opc : Nat} {pf : Bool} {c : RingCmd} {body : CmdRef → State → State}
    (h : s.readable c = true) :
    s.startCmd opc pf c body =
      if s.rst.sleep != .awake then (s.begun c).refuse (s.refOf c opc) stSleeping noField 0
      else if c.reserved || c.version != 1 then (s.begun c).refuse (s.refOf c opc) stConflict 0 0
      else if pf && c.fn != 0 then (s.begun c).refuse (s.refOf c opc) stDecerr 0 0
      else if c.buf.isEmpty then body (s.refOf c opc) (s.begun c)
      else match (s.begun c).translate c.fn c.bufIova.toNat false c.bufAcc with
        | (s₁, none) => s₁.refuse (s.refOf c opc) stDecerr 0x08 0
        | (s₁, some _) => body (s.refOf c opc) s₁ := by
  unfold State.readable at h
  rw [Bool.and_eq_true] at h
  obtain ⟨h1, h2⟩ := h
  obtain ⟨a, ha⟩ := Option.isSome_iff_exists.mp h2
  unfold State.startCmd
  rw [h1]
  generalize hp : s.translate c.fn ((s.ring c.fn c.q).base + 64 * ((s.ring c.fn c.q).c.toNat % (s.ring c.fn c.q).depth)) false c.desc = p
  have hp' : s.translate c.fn (s.descIova c.fn c.q) false c.desc = p := hp
  obtain ⟨s₁, o⟩ := p
  rw [hp'] at ha
  cases ha
  have e := translate_some hp
  have hb : s.begun c = s₁.consume c.fn c.q := by unfold State.begun; rw [hp']
  have hr : s₁.refOf c opc = s.refOf c opc := by rw [e]; rfl
  have hs : (s₁.consume c.fn c.q).rst = s.rst := by rw [e]; rfl
  simp only [Bool.not_true, Bool.false_eq_true, if_false, hb]
  rw [hp]
  simp only [hr, hs] <;> rfl

/-- A command that starts meets its own checks in `started`. -/
theorem startCmd_starts {s : State} {opc : Nat} {pf : Bool} {c : RingCmd} {body : CmdRef → State → State}
    (h : s.starts pf c = true) : s.startCmd opc pf c body = body (s.refOf c opc) (s.started c) := by
  unfold State.starts at h
  simp only [Bool.and_eq_true] at h
  obtain ⟨⟨⟨⟨⟨h1, h2⟩, h3⟩, h4⟩, h5⟩, h6⟩ := h
  rw [startCmd_readable h1]
  unfold State.started
  have n2 : (s.rst.sleep != SleepPhase.awake) = false := by simpa using h2
  have n3 : (c.reserved || c.version != 1) = false := by simp_all
  have n5 : (pf && c.fn != 0) = false := by cases pf <;> simp_all
  rw [n2, n3, n5]
  simp only [Bool.false_eq_true, if_false]
  split
  · rfl
  · rename_i hb
    have h6' := Or.resolve_left (by simpa using h6) (by simpa using hb)
    obtain ⟨a, ha⟩ := Option.isSome_iff_exists.mp h6'
    generalize (s.begun c).translate c.fn c.bufIova.toNat false c.bufAcc = p at *
    obtain ⟨s₁, o⟩ := p
    cases ha
    rfl

/-- What the start of a command changes: the cached translations, and the ring's consumer index and count. -/
theorem started_eq {s : State} {pf : Bool} {c : RingCmd} (h : s.starts pf c = true) :
    s.started c = { s.consume c.fn c.q with tlb := (s.started c).tlb } := by
  unfold State.starts at h
  simp only [Bool.and_eq_true] at h
  obtain ⟨⟨⟨⟨⟨h1, -⟩, -⟩, -⟩, -⟩, h6⟩ := h
  have e1 : s.begun c = { s.consume c.fn c.q with tlb := (s.begun c).tlb } := by
    unfold State.readable at h1
    rw [Bool.and_eq_true] at h1
    have e := translate_isSome h1.2
    unfold State.begun
    rw [e]
    rfl
  unfold State.started
  split
  · exact e1
  · rename_i hb
    have h6' := Or.resolve_left (by simpa using h6) (by simpa using hb)
    have e2 := translate_isSome h6'
    rw [e2, e1]

end Sys2Proof.Machine
end

