-- ==== Sys2Proof/Tests/Slice0.lean ====
section
/-! SUPPORT. Tests of single steps on small states, the well-formedness smoke test, and for each statement with hypotheses a state
and operands that meet them (the theorems named witness_…). Expected values are computed from the manual's text. -/
set_option Elab.async false

namespace Sys2Proof.Machine.Tests

open Sys2Proof Sys2Proof.Machine

/-! ### Small states -/

/-- A register table with the given values. -/
def regs (l : List (Nat × Nat)) : Tab W32 := l.foldl (fun t e => setT (coldReg e.1) t e.1 (BitVec.ofNat 32 e.2)) []

/-- An enabled ring of depth 16 of a kind whose completions go to ring 1. -/
def ringOf (kind : Nat) : Ring :=
  { co := { cfg := BitVec.ofNat 32 (2 ^ 31 + kind * 2 ^ 28 + 4 * 2 ^ 24 + 256) }, state := .run }

/-- Rings 0 to 3 of function `fn`: a command ring with one descriptor, a completion, a record and an event ring. -/
def ringsOf (fn : Nat) : Tab Ring :=
  [(128 * fn, { ringOf 0 with p := 1 }), (128 * fn + 1, ringOf 1), (128 * fn + 2, ringOf 2), (128 * fn + 3, ringOf 3)]

/-- A READY and sealed device with registers `l`: the PF and tenant 1 each have a root table, rings and a translation. -/
def upWith (l : List (Nat × Nat)) : State :=
  let comm := regs ([(0x10000, 1), (0x10008, 1), (tenReg 1 0, 2 ^ 31)] ++ l)
  { State.reset with
    comm := comm, shadow := comm, setup := { sealed := true }, rings := ringsOf 0 ++ ringsOf 1,
    tlb := [{ tenant := 0, iova := 0, size := 2 ^ 52, addr := 0, r := true, w := true },
            { tenant := 1, iova := 0, size := 2 ^ 52, addr := 0, r := true, w := true }],
    rst := { State.reset.rst with power := .ready, powerGood := true, released := 13 }, time := { running := true, c := 5000 } }

def up : State := upWith []

/-- A command of the PF and one of tenant 1. -/
def pf : RingCmd := { fn := 0, q := 0 }
def vf : RingCmd := { fn := 1, q := 0 }

/-- The device while it starts, with `n` domains released. -/
def starting (n : Nat) : State :=
  { State.reset with rst := { State.reset.rst with power := .starting, powerGood := true, released := n } }

/-- The answer is a next state that meets `p`. -/
def holds (o : Host.Outcome State Fault Refusal) (p : State → Bool) : Bool :=
  match o with
  | .next t => p t
  | _ => false

def isFault (o : Host.Outcome State Fault Refusal) (f : Fault) : Bool :=
  match o with
  | .fault g => decide (g = f)
  | _ => false

/-! ### Well-formedness: one ill-formed term for each check -/

theorem test_wf_descriptor : ({ pf with resLen := 2 ^ 32 } : RingCmd).wf = false := by decide +kernel
theorem test_wf_frame : (Instr.beacon 0 { payload := List.replicate 61 0 }).wf = false := by decide +kernel
theorem test_wf_write : (Instr.registerWrite 0 .bar4 0x1FFD 4 0).wf = false := by decide +kernel
theorem test_wf_burst : (Instr.dmaBurst 0 (List.replicate 513 0) {} {} .ok).wf = false := by decide +kernel
theorem test_wf_packet : (Instr.ingestPacket 0 true []).wf = false := by decide +kernel
theorem test_wf_thermal : (Instr.thermalRead 0 128).wf = false := by decide +kernel
theorem test_wf_agset : (Instr.agset 0 {} 0 .rev (.imm 2)).wf = false ∧ (Instr.agset 0 {} 0 .base (.imm (2 ^ 20))).wf = false ∧
    (Instr.agset 0 {} 0 .idx (.imm (2 ^ 17))).wf = false ∧ (Instr.agset 0 {} 0 .step (.imm (2 ^ 16))).wf = false ∧
    (Instr.agset 0 {} 0 .span (.imm (-1))).wf = false := by decide +kernel
theorem test_wf_ldh : (Instr.ldh 0 {} .x 3 0 true).wf = false := by decide +kernel
theorem test_wf_loop : (Instr.loop 0 {} .lc0 33).wf = false := by decide +kernel
theorem test_wf_shfx : (Instr.shfx 0 {} 0 25).wf = false := by decide +kernel
theorem test_wf_vmac : (Instr.vmac64 0 {} 0 1 2 24).wf = false := by decide +kernel
theorem test_wf_fft : (Instr.fft4 0 {} 0 1 7 0).wf = false ∧ (Instr.fft4 0 {} 0 1 3 3).wf = false := by decide +kernel

/-! ### Witnesses: the queue, the invariant and the frames -/

theorem witness_StepRunsTheFrontCommand : ({ up with pending := [.wakeN] } : State).pending = .wakeN :: [] := rfl

theorem witness_EveryStepKeepsTheStateSound : ∃ s t : State, s.Inv ∧ step s = .next t :=
  ⟨State.reset, _, ⟨by decide +kernel, by decide +kernel⟩, rfl⟩

theorem witness_frames : writesHbm .wakeN = false ∧ writesCommitted (.doorbell 0 0 0) = false ∧ restarts (.doorbell 0 0 0) = false ∧
    up.setup.sealed = true ∧ holds (exec (.doorbell 0 0 0) up) (fun _ => true) = true := by decide +kernel

theorem witness_IdleStepCountsTime : State.reset.pending = [] ∧ up.pending = [] ∧ up.time.running = true := by decide +kernel

/-! ### Witnesses: rings and registers -/

theorem witness_RingCommandPrologue :
    ringCmd (.nop vf) = some (0x00, false, vf) ∧ ringCmd (.refSet vf) = some (0x52, true, vf) ∧
    State.reset.canStart 1 0 false = false ∧ up.readable vf = true ∧
    ({ up with rst := { up.rst with sleep := .stopping } } : State).readable vf = true ∧ up.rst.sleep = .awake ∧ vf.fn ≠ 0 := by decide +kernel

theorem witness_starts : up.starts false vf = true ∧ up.starts true pf = true ∧ up.starts false { vf with buf := [1, 2] } = true := by decide +kernel

theorem witness_DoorbellPublishesTheIndex :
    up.ready = true ∧ up.fnExists 1 = true ∧ (up.ring 1 0).enabled = true ∧ (up.ring 1 0).state = .run ∧
    (up.ring 1 0).goodIndex 1 = true ∧ (up.ring 1 0).kind = 0 ∧
    (up.ring 1 1).enabled = true ∧ (up.ring 1 1).state = .run ∧ (up.ring 1 1).goodIndex 0 = true ∧ (up.ring 1 1).kind ≠ 0 ∧
    bit 0 31 = false ∧ bit (2 ^ 31) 31 = true := by decide +kernel

theorem witness_BadDoorbellStopsTheRing :
    up.ready = true ∧ up.fnExists 1 = true ∧ (up.ring 1 0).goodIndex 18 = false ∧ (up.ring 1 9).enabled = false ∧
    (up.ring 1 0).runs 0 = true ∧ (up.ring 1 0).used ≠ 0 := by decide +kernel

def aCpl : Cpl := { cmd := { fn := 1, q := 0, cplq := 1 } }
def aRec : Rec := { up.mkRec 0x01 1 0 0 0 (zeros 32) with die := some 0 }
def ringing : State :=
  { up with rings := setT {} (setT {} up.rings 129 { ringOf 1 with cplWait := [aCpl] }) 130 { ringOf 2 with staged := [aRec] },
            fns := [(1, { evtValid := true, evtQ := 3, evtFull := 2 })] }

theorem witness_RingWritesReachTheHost :
    (ringing.ring 1 1).cplWait = [aCpl] ∧ (ringing.ring 1 1).runs 1 = true ∧ (ringing.ring 1 1).isFull = false ∧
    (ringing.translate 1 0 true {}).2 = some 0 ∧
    (ringing.ring 1 2).staged = [aRec] ∧ (ringing.ring 1 2).runs 2 = true ∧ (aRec.len + 63) / 64 * 64 ≤ (ringing.ring 1 2).room ∧
    (ringing.fn 1).evtFull ≠ 0 ∧ (ringing.fn 1).evtValid = true ∧ (ringing.ring 1 3).runs 3 = true ∧ (ringing.ring 1 3).isFull = false := by
  decide +kernel

/-- The setup before the seal. -/
def unsealed : State := { up with setup := {} }

theorem witness_RegisterWritesFollowTheirAccess :
    ((findReg 0x200008).any fun d => d.rw == 0 && d.ws != 0) = true ∧ unsealed.ready = true ∧ unsealed.setup.busy = false ∧
    unsealed.setup.sealed = false ∧ up.setup.sealed = true ∧ up.fnExists 1 = true ∧ State.reset.fnExists 255 = true ∧
    ({ up with numVfs := 3 } : State).fnExists 4 = false := by decide +kernel

theorem witness_SetupCommitsAllOrNothing :
    unsealed.ready = true ∧ unsealed.commitConflict = none ∧ unsealed.lowestPending = none ∧
    ({ unsealed with shadow := regs [(0xC00000, 0x8000A000)] } : State).commitConflict.isSome = true ∧
    ({ unsealed with shadow := regs [(0x200008, 4)] } : State).lowestPending.isSome = true := by decide +kernel

theorem witness_FunctionCommitIsWhole :
    up.ready = true ∧ up.fnExists 1 = true ∧
    (({ up with rings := [(256, { sh := { cfg := 0x83000000 } })] } : State).modFn 2 fun f => { f with rsnap := [] }).fnCommitCheck 2 ≠ stOK ∧
    (up.modFn 2 fun f => { f with rsnap := [] }).fnCommitCheck 2 = stOK ∧
    (∀ q : Fin 128, cfgEnabled (up.ring 2 q).co = true → cfgEnabled (up.ring 2 q).sh = true) := by decide +kernel

/-! ### Witnesses: allocations, translations and DMA -/

/-- Tenant 1 may hold 10 granules of die 0; the pool of die 1 is small. -/
def pool : State := upWith [(tenReg 1 0x10, 20), (0x200108, 0x460), (tenReg 1 0x14, 0x1FFFF)]
def ask (die n : Nat) : RingCmd := { vf with arg0 := BitVec.ofNat 32 die, arg1 := BitVec.ofNat 32 n }
def owned : State := { pool with handles := [(0, some { tenant := 1, die := 0, granules := 10 }), (2, some { tenant := 0, die := 0, granules := 1 })] }

theorem witness_AllocationsFollowQuotaAndPool :
    (pool.starts false (ask 0 0) = true ∧ (ask 0 0).arg1.toNat = 0) ∧
    (pool.starts false (ask 0 11) = true ∧ pool.dieOn 0 = true ∧ pool.freeHandle = some 0 ∧ pool.hbmQuota 1 0 < pool.granulesOf 1 0 + 11) ∧
    (pool.granulesOf 1 0 + 10 ≤ pool.hbmQuota 1 0 ∧ pool.poolUsed 0 + 10 ≤ pool.poolSize 0) ∧
    (pool.granulesOf 1 1 + 511 ≤ pool.hbmQuota 1 1 ∧ pool.granulesOf 1 1 + 511 ≤ pool.poolSize 1) ∧
    (pool.poolSize 1 < pool.granulesOf 1 1 + 600 ∧ pool.granulesOf 1 1 + 600 ≤ pool.hbmQuota 1 1) ∧
    (owned.starts false (ask 0 0) = true ∧ getT none owned.handles 0 = some { tenant := 1, die := 0, granules := 10 } ∧ owned.handleBusy 0 = false) ∧
    (getT none owned.handles 2 = some { tenant := 0, die := 0, granules := 1 } ∧ getT none owned.handles 1 = none) := by decide +kernel

/-- The other tenant holds all but one granule of die 1's pool. -/
def crowded : State := { pool with handles := [(0, some { tenant := 0, die := 1, granules := pool.poolSize 1 - 1 })] }

theorem witness_AllocationsFollowQuotaAndPool_deferred :
    crowded.starts false (ask 1 2) = true ∧ crowded.dieOn 1 = true ∧ crowded.freeHandle = some 1 ∧
    crowded.granulesOf 1 1 + 2 ≤ crowded.hbmQuota 1 1 ∧ crowded.granulesOf 1 1 + 2 ≤ crowded.poolSize 1 ∧
    crowded.poolSize 1 < crowded.poolUsed 1 + 2 ∧ crowded.deferredOf 1 < 64 := by decide +kernel

theorem witness_InvalidationDropsTheCachedTranslations :
    up.starts true { pf with arg0 := 1, arg3 := 0x1000 } = true ∧ up.invals = [] ∧ up.xlatBusy 1 = false := by decide +kernel

/-- DMA channel 3 of tenant 1 in HOST mode, its allocations 0 and 1 on die 0, and a copy of 600 bytes between them. -/
def dmaUp : State :=
  { upWith [(0x20018, 0x80000001)] with
    handles := [(0, some { tenant := 1, die := 0, granules := 1 }), (1, some { tenant := 1, die := 0, granules := 1 })],
    hbm := [(0, 7), (599, 9)], hbmStacks := [(0, { holders := [(0, some 11)] })] }
def copyCmd : RingCmd := { vf with arg0 := 0x00400011, arg5 := 0x00010000, arg6 := 600, arg7 := 3 }
def copyW (i : Nat) : Nat := ([copyCmd.arg0, 0, 0, 0, 0, copyCmd.arg5, copyCmd.arg6, copyCmd.arg7].getD (min i 7) 0).toNat
def copying : State := dmaUp.modDma 3 fun _ => { cur := some (xferOf copyW) }
def copied : State := dmaUp.modDma 3 fun _ => { cur := some { xferOf copyW with moved := 600, cmd := some { fn := 1, cplq := 1 } } }
def fromHost : State := dmaUp.modDma 3 fun _ => { cur := some { len := 600, dst := 1 } }

theorem witness_DmaCopyQueuesATransfer :
    dmaUp.starts false copyCmd = true ∧ fld copyCmd.arg7.toNat 4 0 = 3 ∧ xferReserved copyW = false ∧ dmaUp.dmaValid 3 = true ∧
    dmaUp.dmaGroupMode 3 = false ∧ dmaUp.dmaTenant 3 = 1 ∧ (xferOf copyW).pulse = 1 ∧ fld (copyW 0) 15 8 = 0 ∧
    dmaUp.xferOk 1 (xferOf copyW) = true ∧ dmaUp.resetting 34 = false ∧ (dmaUp.dma 3).cur = none ∧ (dmaUp.dma 3).queue = [] ∧
    up.dmaValid 3 = false := by decide +kernel

theorem witness_DmaMovesHbmToHbm :
    (copying.dma 3).cur = some (xferOf copyW) ∧ (xferOf copyW).status = 0 ∧ (xferOf copyW).moved < (xferOf copyW).len ∧
    copying.inReset 34 = false ∧ copying.xferResetting (xferOf copyW) = false ∧ (xferOf copyW).src = 1 ∧ (xferOf copyW).dst = 1 ∧
    copying.grantAll 3 (copying.hbmDies (xferOf copyW)) = (copying, true) := by decide +kernel

theorem witness_DmaTransfersEndAndTimeOut :
    ((copied.dma 3).cur.any fun x => x.status == 0 && decide (x.len ≤ x.moved) && x.pulse == 1 && x.cmd.isSome && x.entry.isNone && !x.toData) = true ∧
    copied.invals = [] ∧ (fromHost.dma 3).cur = some { len := 600, dst := 1 } := by decide +kernel

/-- A burst moves 512 bytes, and the second the rest. -/
theorem test_dma_copies : holds (exec (.dmaBurst 3 [] {} {} .ok) copying) (fun t =>
    t.hbmRead (2 ^ 36) 1 == [7] && t.hbmRead (2 ^ 36 + 599) 1 == [0] && holds (exec (.dmaBurst 3 [] {} {} .ok) t) (fun u =>
      u.hbmRead (2 ^ 36 + 599) 1 == [9] && ((u.dma 3).cur.map (·.moved)) == some 600)) = true := by decide +kernel

/-! ### Witnesses: starts, resets, sleep and power -/

theorem witness_ResetSourcesRestartTheDevice :
    up.running = true ∧ up.rst.nvfsBusy = false ∧ 4 ≤ up.rst.released ∧ up.starts true pf = true := by decide +kernel

def pulsing : State := up.modRst fun r => { r with nvfsBusy := true }
theorem witness_NvPulseDelaysTheReset :
    pulsing.running = true ∧ pulsing.rst.nvfsBusy = true ∧ pulsing.rst.delayed = none ∧
    (pulsing.modRst fun r => { r with delayed := some (5, true, false) }).rst.delayed = some (5, true, false) := by decide +kernel

theorem witness_SuppliesAndStraps :
    State.reset.rst.powerGood = false ∧ State.reset.rst.power = .off ∧ State.reset.rst.source < 2 ∧
    (State.reset.modRst fun r => { r with source := 2, resetLow := true }).rst.resetLow = true ∧
    2 ≤ (State.reset.modRst fun r => { r with source := 2 }).rst.source := by decide +kernel

theorem witness_DomainsAreReleasedInOrder :
    (starting 0).mayRelease 1 = true ∧ (starting 0).mayRelease 2 = false ∧ (starting 2).mayRelease 3 = true ∧ (starting 2).rst.source ≠ 8 ∧
    ((starting 4).modRst fun r => { r with workDone := [4], rept := 3 }).mayRelease 5 = true ∧
    (starting 11).mayRelease 12 = true ∧ (starting 12).mayRelease 13 = true ∧ (starting 13).rst.power = .starting ∧
    (starting 13).rst.workDone.contains 13 = false := by decide +kernel

def booting : State := (starting 5).modRst fun r => { r with straps := { r.straps with boot := 1 } }
theorem witness_HostLoadedFirmwareIsChecked :
    up.rst.power ≠ .starting ∧ booting.rst.power = .starting ∧ booting.rst.straps.boot = 1#2 ∧ 5 ≤ booting.rst.released ∧
    booting.rst.booted = false ∧ bit 3 0 = true ∧ bit 3 1 = true ∧ bit 1 1 = false := by decide +kernel

def resetting3 (x : BlkReset) : State := up.setBlock 3 (some x)
theorem witness_BlockResetsRunTheirPhases :
    up.starts true { pf with arg0 := 36 } = true ∧ up.blockReset 36 = none ∧ up.starts true { pf with arg0 := 37 } = true ∧
    (resetting3 {}).blockReset 3 = some {} ∧ (resetting3 {}).starts true { pf with arg0 := 3 } = true ∧
    ({} : BlkReset).asserted = false ∧ (resetting3 { asserted := true }).blockReset 3 = some { asserted := true } ∧
    ({ asserted := true } : BlkReset).remote = false := by decide +kernel

def heldLock : State := ((up.modLock 5 fun l => { l with holder := some 128 }).setBlock 35 (some {}))
theorem witness_LockUnitResetMarksHeldLocks :
    heldLock.blockReset 35 = some {} ∧ (heldLock.lock 5).holder.isSome = true := by decide +kernel

def gridUp : State := { up with grid := { started := true, firstCtr := some 0 } }
theorem witness_DieSetAimsAtItsDies :
    up.starts true { pf with arg0 := 0 } = true ∧ gridUp.starts true { pf with arg0 := 0xE } = true ∧ gridUp.grid.started = true ∧
    (({ gridUp with dies := [(1, { enabled := false, dieReady := false })] } : State).die 1).enabled = false ∧ bit 0xE 1 = true := by decide +kernel

def sleeper (p : SleepPhase) : State := (upWith [(0xE00024, 7), (0xE00020, 100)]).modRst fun r => { r with sleep := p }
theorem witness_SleepEntryAndWaking :
    gridUp.starts true pf = true ∧ (sleeper .draining).rst.sleep = .draining ∧ up.rst.sleep ≠ .draining ∧ (sleeper .noted).rst.sleep = .noted ∧
    (sleeper .noted).sleepUnacked = false ∧ bit ((sleeper .requested).reg 0xE00024) 0 = true ∧ bit ((sleeper .requested).reg 0xE00024) 1 = true ∧
    bit ((sleeper .requested).reg 0xE00024) 2 = true ∧ (sleeper .requested).rst.sleep = .requested ∧ (sleeper .requested).rst.powerGood = true ∧
    (sleeper .requested).reg 0xE00020 ≠ 0 ∧ ((sleeper .requested).modRst fun r => { r with latched := 2 }).rst.latched ≠ 0 ∧
    ((sleeper .requested).modRst fun r => { r with powerGood := false }).rst.powerGood = false ∧ (sleeper .draining).rst.latched = 0 := by
  decide +kernel

theorem witness_GovernorAndThermal :
    0 ≤ excessLimit 0 ∧ excessLimit 0 < excessLimit 0 + 1 ∧ gradeMax - 10 ≤ gradeMax - 1 ∧ (up.gov 0).warned = false ∧
    ((up.modGov 0 fun g => { g with warned := true }).gov 0).warned = true ∧ up.running = true ∧ up.rst.nvfsBusy = false ∧
    (((upWith [(0xE00014, 0xE)]).modGov 0 fun g => { g with warned := true }).gov 0).warned = true ∧
    bit ((upWith [(0xE00014, 0xE)]).fieldOf 0xE00014 3 0) 0 = false := by
  refine ⟨Nat.zero_le _, Nat.lt_succ_self _, by omega, ?_⟩
  decide +kernel

theorem witness_ProtectionAndFaultLogCommands :
    up.starts false { vf with arg0 := 17 } = true ∧ up.starts false { vf with arg0 := 1, arg1 := 0x102, buf := zeros 16 } = true ∧
    up.destOk 1 0x102 = true ∧ up.destOk 1 0x1FF = false ∧ ((bandsOf (5 :: zeros 15) 1).any fun b => decide (b.hi < b.lo)) = true ∧
    ((bandsOf (zeros 16) 1).any fun b => decide (b.hi < b.lo)) = false ∧
    up.starts true { pf with resLen := 32768 } = true ∧ ((up.started pf).drawFree.translate 0 0 true {}).2 = some 0 := by decide +kernel

/-! ### Witnesses: lanes, packets and the corner turn -/

def grp (st : GrpState) (lane : LaneState) : State :=
  { up with groups := [(0, { st := st })], lanes := (List.range 8).map fun i => (i, { st := lane }) }

theorem witness_IngestGroupsComeUp :
    ((grp .detect .down).group 0).st = .detect ∧ ((grp .detect .down).group 0).clkOk = false ∧
    ((up.modGroup 0 fun _ => { st := .detect, good := 15 }).group 0).good = 15 ∧ 9990 ≤ 9990 ∧ 9990 ≤ 10010 ∧
    ((up.modGroup 0 fun _ => { st := .active, clkOk := true, bad := 1 }).group 0).bad = 1 ∧ 9949 < 9950 ∧ 10050 < 10051 ∧
    ((grp .train .down).group 0).st = .train ∧ ((grp .lock .centred).group 0).st = .lock ∧
    ((grp .caps .caps).lane 3).st = .caps ∧ ((grp .caps .caps).group 0).st = .caps ∧
    (grp .caps .caps).tsbOk 3 { laneNo := 3, version := 1, mode := 0, lmset := 0, sourceId := 7 } = true ∧
    (grp .caps .caps).tsbOk 3 { laneNo := 3, version := 2, mode := 0, lmset := 0, sourceId := 7 } = false := by decide +kernel

/-- A lane with detected receiver lanes trains; a group with none left retries. -/
theorem test_train_timeout : holds (exec (.trainTimeout 0 0x0F) (grp .train .down)) (fun t =>
    (t.group 0).st == .lock && (t.lane 3).st == .centred && (t.lane 4).st == .dead) = true ∧
    holds (exec (.trainTimeout 0 0) (grp .train .down)) (fun t => (t.group 0).st == .detect && (t.group 0).retry == 1) = true := by
  decide +kernel

def outGrpOf (st : GrpState) : State := { up with outGrps := [(2, { st := st, detected := 5 })] }
theorem witness_LanesFailAndOutputGroupsComeUp :
    ((grp .active .active).lane 0).st = .active ∧ ((grp .active .relock).lane 0).st = .relock ∧ ((outGrpOf .detect).outGrp 2).st = .detect ∧
    (5 : BitVec 8) ≠ 0 ∧ wfT {} (outGrpOf .caps).outLanes = true ∧ ((outGrpOf .caps).outGrp 2).st ≠ .detect ∧
    ((outGrpOf .caps).outGrp 2).st ≠ .train ∧ ((outGrpOf .train).outGrp 2).st = .train ∧ ((outGrpOf .caps).outGrp 2).st = .caps := by decide +kernel

/-- Lane 0 of die 0 carries signals 0 to 511 of channel 0. -/
def ingest (x : List Stream) : State :=
  { upWith [(0x201000, 0x801FF000)] with lanes := [(0, { st := .active, streams := x })] }

/-- The packet header of Table 2.5 for that stream at counter 0, its samples zero, and its CRC. -/
def pktBody : List Byte := (List.range 1040).map fun i => if i = 0 then 1 else if i = 7 then 2 else 0
def pkt : List Byte := pktBody ++ le32 (crc32 pktBody)
def parsed : Packet := parsePacket false pkt

theorem pkt_good : pkt.length = 1044 ∧ crc32 (pkt.take 1040) = leAt pkt 1040 4 := by
  have h : pktBody.length = 1040 := by simp [pktBody]
  have c := crc32_check pktBody
  rw [h] at c
  exact ⟨by simp [pkt, le32, h], c⟩

def one : Stream := { ch := 0, sig := 0, cnt := 512 }
def full : List Stream := List.replicate 16 { ch := 1, sig := 0, cnt := 512 }

theorem witness_PacketsAreCheckedInOrder :
    ((ingest []).lane 0).st = .active ∧ (up.lane 0).st ≠ .active ∧ parsed.version = 1 ∧ (ingest []).headerOk parsed = true ∧
    (ingest []).headerOk (parsePacket false (pktBody.set 0 2)) = false ∧
    (ingest []).localCh 0 parsed.ch = some 0 ∧ parsed.lmset = ((ingest []).die 0).setFor parsed.ctr ∧ (ingest []).mapOk 0 0 parsed.lmset 0 parsed = true ∧
    (upWith [(0x201000, 0)]).mapOk 0 0 parsed.lmset 0 parsed = false ∧
    ((ingest full).lane 0).streams.find? (fun x => x.isOf 0 parsed) = none ∧ 16 ≤ ((ingest full).lane 0).streams.length ∧
    ((ingest [one]).lane 0).streams = [one] ∧ one.isOf 0 parsed = true ∧ one.next = parsed.ctr ∧ one.downOpen = false ∧ one.openM = none ∧
    one.closedM = none ∧ (ingest [one]).fifoFull 0 = false := by decide +kernel

/-- The check value of the CRC-32 of R59: over "123456789" it is 0xCBF43926. -/
theorem test_crc32 : crc32 [0x31, 0x32, 0x33, 0x34, 0x35, 0x36, 0x37, 0x38, 0x39] = 0xCBF43926 := by decide +kernel

/-! ### Witnesses: the corner turn, planning, gains and the HBM stacks -/

/-- Die 0 takes a packet of block 0 of length 2^20; another stream of the die has gone past the block. -/
def turning (closed : Nat) : State :=
  { gridUp with lanes := [(0, { st := .active, streams := [{ next := 1048577 }], fifo := [.pkt 0 0 512 1024 false false []] })],
                dies := [(0, { closed := closed })] }

theorem witness_CornerTurnClosesBlocks :
    gridUp.dieOn 0 = true ∧ gridUp.grid.started = true ∧ gridUp.inReset 4 = false ∧ gridUp.inReset 5 = false ∧ (gridUp.lane 0).fifo = [] ∧
    ((turning 0).lane 0).fifo = .pkt 0 0 512 1024 false false [] :: [] ∧ (turning 0).grid.firstCtr ≠ none ∧
    1024 < (turning 0).blockEnd ∧ ((turning 0).die 0).closed ≤ 1024 ∧ 1024 < ((turning 2048).die 0).closed ∧
    ((turning 0).modGrid fun g => { g with period := 1024 }).blockEnd ≤ 1024 ∧
    (turning 0).dieClosed 0 = false ∧ (turning 0).laterDelivered 0 (turning 0).blockEnd = true ∧
    gridUp.laterDelivered 0 gridUp.blockEnd = false ∧ (gridUp.setBlock 4 (some { asserted := true })).inReset 4 = true := by decide +kernel

theorem witness_PlanningBoundariesMoveTheGrid :
    up.nextBound = none ∧ gridUp.nextBound = some 1048576 ∧ gridUp.anyStream = false ∧ (turning 0).nextBound = some 1048576 ∧
    (turning 0).anyStream = true ∧ (turning 0).grid.frozen = false ∧ (turning 0).inReset 36 = false ∧ (turning 0).boundaryDue = false ∧
    ({ turning 1048576 with dies := [(0, { closed := 1048576 }), (1, { closed := 1048576 }), (2, { closed := 1048576 }), (3, { closed := 1048576 })] } :
      State).boundaryDue = true := by decide +kernel

/-- A parameter of Table 10.7's list: item, row and value. -/
def prm (row item v : Nat) : List Byte := le 1 item ++ le 1 row ++ zeros 6 ++ le 8 v
def cmdOf (l : List (List Byte)) (tail : List Byte) : RingCmd := { vf with arg0 := BitVec.ofNat 32 l.length, buf := l.flatten ++ tail }
def gainCmd : RingCmd := { pf with arg1 := 2 ^ 20, buf := List.replicate 32768 0 }
def statUp : State := { up with dies := [(0, { stats := [{ firstSlot := 16 }] })] }

theorem witness_LaneAndGainCommands :
    up.starts true { pf with arg1 := 1024 } = true ∧ up.blockLens 0 = [] ∧ (up.die 0).highCtr = none ∧ (up.die 0).switch = none ∧
    ((up.modDie 0 fun y => { y with switch := some (1, 0) }).die 0).switch ≠ none ∧
    up.starts true { pf with arg0 := 35 } = true ∧ (upWith [(0x200004, 8)]).groupEn 35 = true ∧ (upWith [(0x200004, 0)]).groupEn 35 = false ∧
    bit 0x107 8 = true ∧ (upWith [(0x200004, 0x8000)]).outEn 7 = true ∧
    up.starts true gainCmd = true ∧ 2 * (4096 * up.chPerDie) ≤ gainCmd.buf.length ∧ up.switchCtr 0 (2 ^ 20) = true ∧
    (up.die 0).requantTo < 2 ^ 20 + up.numF ∧ (up.die 0).gainLoad = none ∧
    statUp.starts false { vf with arg1 := 16, resLen := 131072 } = true ∧ 8 * (4096 * statUp.chPerDie) ≤ 131072 ∧
    ((statUp.die 0).stats.find? fun x => x.firstSlot == 16).isSome = true ∧ (statUp.translate 1 0 true {}).2 = some 0 := by decide +kernel

/-- Die 0 runs a pass of subarray 7 on fine channel 0 and band 0. -/
def aJob : Job := { other := [some 0] }
def passing (p : Pass) : State := { up with dies := [(0, { passes := [{ p with jobs := [aJob] }] })] }
theorem witness_ChanneliserAndStackEvents :
    up.dieOn 0 = true ∧ up.inReset 12 = false ∧ ((up.modDie 0 fun y => { y with gainLoad := some (2 ^ 20, [1]) }).die 0).gainLoad = some (2 ^ 20, [1]) ∧
    ((upWith [(0x300000, 0x40000000)]).switchCtr 0 (2 ^ 20) && (upWith [(0x300000, 0x40000000)]).autoDue 0 (2 ^ 20)) = false ∧ (up.die 0).gainLoad = none ∧ 1024 * 1 % up.statLen ≠ 0 ∧ 1024 * 1024 % up.statLen = 0 ∧
    (95#8).toNat ≤ 95 ∧ 95 < (96#8).toNat ∧ ({ up with dies := [(0, { enabled := false })] } : State).dieOn 0 = false ∧
    (up.setBlock 0 (some { asserted := true })).inReset 0 = true ∧
    (takeFirst (fun q : Pass => q.running && q.reads 0 0) ((passing { running := true }).die 0).passes).any (fun e => e.1.correct == none) = true ∧
    ((passing { running := true }).die 0).ueLog.length < 1024 ∧
    (takeFirst (fun q : Pass => q.running && q.reads 0 0) ((passing { running := true, correct := some (1, 2, 3) }).die 0).passes).any
      (fun e => e.1.correct == some (1, 2, 3)) = true := by decide +kernel

/-- A subarray of signals 0 and 1 on channel 0, integration 1, on tenant 1's OUT ring. -/
def subCmd : RingCmd :=
  cmdOf [prm 1 0 (96 + 4 * 2 ^ 32), prm 2 0 1, prm 3 0 16384, prm 4 0 1, prm 5 0 0, prm 6 0 0x102] [0, 0, 1, 0]
def subPs : List Param := match paramList subCmd.buf 6 subItems with | .ok ps => ps | .error _ => []
def aSub : Sub := { status := .running, tenant := 1, sigs := [0, 1], chans := [0], len := 16384, dest := 0x102,
                    plans := [(5, [(0, [[aJob]])])] }
def subUp : State := { up with subs := [(7, aSub)] }

theorem witness_SubarrayCommands :
    up.starts false subCmd = true ∧ (paramList subCmd.buf 6 subItems).toOption = some subPs ∧ (subListOk subPs).toOption = some () ∧
    (up.subChecks 1 subPs (signalList subCmd.buf (paramD subPs 1 0 0))).toOption = some () ∧ up.freePlan = some 0 ∧
    (up.subChecks 1 subPs none).toOption = none ∧
    subUp.starts false { vf with arg0 := 7 } = true ∧ subUp.subOk 1 7 = true ∧ subUp.subOk 1 8 = false ∧
    aSub.plans.find? (fun e => e.1 % 2 ^ 32 == 5) = some (5, [(0, [[aJob]])]) ∧ (subUp.planBytes 0 aSub [[aJob]]).length ≤ 4096 ∧
    (subUp.translate 1 0 true {}).2 = some 0 := by decide +kernel

theorem witness_PassesDrainIntoRecords :
    (up.die 0).passes.all (fun p => !p.running) = true ∧
    (takeFirst (fun p : Pass => p.running) ((passing { sub := 7, running := true }).die 0).passes).any (fun e => e.1.correct == none) = true ∧
    (takeFirst (fun p : Pass => p.running) ((passing { running := true, correct := some (1, 2, 3) }).die 0).passes).isSome = true ∧
    (up.die 0).drained = [] ∧ ({ up with dies := [(0, { drained := [{}] })] } : State).dieOn 0 = true ∧
    ({ up with dies := [(0, { drained := [{}] })], outGrps := [(0, { st := .active, active := 1, detected := 1 })] } : State).placeLane 0 = some 0 ∧
    (up.subr 0).dest = 0 ∧ (up.die 0).amends = [] ∧ (amendRecords aSub {} []).length = 1 := by decide +kernel

/-! ### Witnesses: beams, flags and carrier chains -/

/-- A direct plan of signals 0 and 1, two beams and channel 0, VOLT8, on tenant 1's OUT ring. -/
def beamCmd : RingCmd :=
  cmdOf [prm 1 0 0, prm 2 0 (144 + 4 * 2 ^ 32), prm 3 0 2, prm 4 0 1, prm 6 0 0, prm 7 0 1, prm 8 0 0, prm 9 0 0x102, prm 10 0 0] [0, 0, 1, 0]
def beamPs : List Param := match paramList beamCmd.buf 9 beamItems with | .ok ps => ps | .error _ => []
def aBeam : Beam := { status := .running, tenant := 1, sigs := [0, 1], beams := 2, chans := [0], volt8 := true, dest := 0x102 }
def beamUp (b : Beam) : State := { gridUp with beams := [(5, b)] }
def beamArg (n : Nat) (l : List Byte) : RingCmd := { vf with arg0 := BitVec.ofNat 32 n, arg1 := 1000, buf := l }
def capBeam : Beam := { aBeam with capture := true, src := .fine }

theorem witness_BeamPlanCommands :
    up.starts false beamCmd = true ∧ (paramList beamCmd.buf 9 beamItems).toOption = some beamPs ∧ (beamListOk beamPs).toOption = some () ∧
    (up.beamChecks 1 beamPs (signalList beamCmd.buf (paramD beamPs 2 0 0))).toOption = some () ∧ (up.beamChecks 1 beamPs none).toOption = none ∧
    up.freePlan = some 0 ∧
    (beamUp aBeam).starts false (beamArg 5 (zeros 20)) = true ∧ (beamUp aBeam).beamOk 1 5 = true ∧ (beamUp aBeam).beamOk 1 6 = false ∧
    (beamUp aBeam).switchTooClose aBeam 1000 = false ∧ aBeam.next = none ∧ aBeam.steer = true ∧ aBeam.steerSize ≤ 20 ∧
    (beamUp { aBeam with steer := false }).starts false (beamArg 5 (zeros 65536)) = true ∧
    4 * ({ aBeam with steer := false } : Beam).setSize up ≤ 65536 ∧
    ({ aBeam with steer := false } : Beam).badPad (explicitWeights (zeros 65536) (({ aBeam with steer := false } : Beam).setSize up)) = none ∧
    capBeam.status.holds = true ∧ (beamUp capBeam).starts false (beamArg 5 []) = true ∧ bit 5 31 = false ∧
    ((beamUp capBeam).captured 5 0 0).length = 0 ∧ ((beamUp capBeam).translate 1 0 true {}).2 = some 0 ∧
    (beamUp aBeam).starts false { beamArg (2 ^ 31 + 5) [] with arg1 := 2, arg4 := 0x102 } = true ∧ bit (2 ^ 31 + 5) 31 = true ∧
    (beamUp aBeam).destOk 1 0x102 = true := by decide +kernel

/-- A sweep of plan 5 on its channel, and a carrier chain that reads it. -/
def aSweep : Sweep := { n := 3, outs := [{ plan := 5, ch := 0, vals := [] }] }
def sweeping (b : Beam) (cs : Tab Chain) : State := { beamUp b with dies := [(0, { sweepOut := [aSweep], sweepNext := some 3 })], chains := cs }
def aChain : Chain := { state := .run, tenant := 1, plan := 5, m := 1, firstCh := 0 }
def tileUp (t : Tile) (p : List Pass) : State := { gridUp with dies := [(0, { tiles := [(0, t)], passes := p })] }

theorem witness_BeamSweepsRotationsAndTopK :
    (up.die 0).sweepOut = [] ∧ ((sweeping aBeam []).die 0).sweepOut = aSweep :: [] ∧
    ((sweeping aBeam []).chains.filter fun e => e.2.state != .free) = [] ∧
    ((sweeping aBeam [(2, aChain)]).chains.filter fun e => e.2.state != .free) = [(2, aChain)] ∧ aChain.m = 1 ∧
    (aSweep.outs.find? fun o => o.plan == aChain.plan && (sweeping aBeam [(2, aChain)]).dieOfCh aChain.firstCh == 0 &&
      o.ch + 0 * (sweeping aBeam [(2, aChain)]).chPerDie == aChain.firstCh).isSome = true ∧
    (up.die 0).sweepNext = none ∧ ((sweeping aBeam []).die 0).sweepNext = some 3 ∧ (sweeping aBeam []).laterDelivered 0 256 = false ∧
    (({ sweeping aBeam [] with lanes := [(0, { streams := [{ next := 512 }] })] } : State).laterDelivered 0 256) = true ∧
    gridUp.dieOn 0 = true ∧ gridUp.inReset 0 = false ∧ (gridUp.setBlock 0 (some { asserted := true })).inReset 0 = true ∧
    gridUp.directOn 0 1024 = [] ∧
    ((beamUp capBeam).beams.filter fun e => e.2.src != .direct && e.2.status.holds && !((beamUp capBeam).chansOn 0 e.2.chans).isEmpty) = [(5, capBeam)] ∧
    (gridUp.flushDirect 0 1).beams = [] ∧ ((beamUp capBeam).flushDirect 0 1).beams = [(5, capBeam)] ∧
    ((tileUp { beam := true } []).tile 0 0).jobs = [] ∧
    dedup (((tileUp { beam := true, jobs := [(5, 0, 0, 0)] } []).tile 0 0).jobs.map (·.1)) = [5] ∧ (up.topk 11).k = 0 ∧
    ((tileUp {} []).tile 0 0).beam = false ∧ ((tileUp {} [{ running := true, jobs := [aJob] }]).die 0).passes = [{ running := true, jobs := [aJob] }] ∧
    ((passTiles { running := true, jobs := [aJob] }).filter fun e => e.2.1 == 0).length = 1 ∧
    (up.beam 5).partials = [] ∧ (minBy (·.first) ((beamUp { aBeam with partials := [{}] }).beam 5).partials).isSome = true := by decide +kernel

/-- EXC_POLICY OFF and preset 2 with PAD 1, whose detections go to tenant 1's OUT ring; tenant 1 owns engines 0 and 1. -/
def polCmd (l : List (List Byte)) : RingCmd := cmdOf (l ++ [prm 4 0 0, prm 5 0 0, prm 6 0 100]) []
def polOff : RingCmd := polCmd [prm 1 0 0]
def polOn : RingCmd := polCmd [prm 1 0 2, prm 1 1 0x102, prm 2 0 1, prm 3 0 0]
def engUp (g : Eng) : State := { upWith [(0x900000, 0x101), (0x900004, 0x101), (0x902004, 0x101)] with engs := [(0, g), (1, g)] }
def firmware : State :=
  { (engUp { st := .running, shipped := some 256, pool := some 256 }).modFn 1 fun f => { f with policy := { preset := 2 } } with chains := [(2, aChain)] }
def aReport : Detection := .burst 2 10 20
def detecting : State :=
  ((firmware.drawFree.release (firmware.detTask 1 aReport)).dispatch 0 { firmware.detTask 1 aReport with seq := 0, released := firmware.now }).modTask 0
    fun y => { y with det := none }
def aFlag : List Byte := le 4 0x01000000 ++ le 4 8 ++ le 4 0x10000 ++ le 4 7
def postCmd : RingCmd := { vf with arg0 := 1, buf := aFlag }

theorem witness_FlagsGoFromPostToDie :
    (engUp { st := .halted }).starts false polOn = true ∧ (parseParams polOn.buf 7).isSome = true ∧
    (List.range 7).find? (paramReserved polOn.buf) = none ∧ ((parseParams polOn.buf 7).bind (badPids policyItems)) = none ∧
    usesFirmware 2 = true ∧ ((parseParams polOn.buf 7).any fun ps => (policyNeeds 2).all fun y => (param? ps y.1 y.2).isSome) = true ∧
    paramBytes polOn.buf 0 = some [] ∧ (engUp { st := .halted }).destRing 1 0x102 = true ∧ 2 ≤ ((engUp { st := .halted }).takeable 1).length ∧
    (engUp { st := .halted }).shippedOf 1 detImage = [] ∧ up.starts false polOff = true ∧
    up.starts false (polCmd [prm 1 0 5]) = true ∧
    up.starts false postCmd = true ∧ flagReserved aFlag = false ∧ up.flagOk (flagOfBytes 1 aFlag) = true ∧
    (upWith [(0x700000, 0)]).flagRoom 1 [{ flagOfBytes 1 aFlag with host := true }] ≠ stOK ∧
    up.flagRoom 1 [{ flagOfBytes 1 aFlag with host := true }] = stOK ∧
    up.posts = [] ∧ (({ up with posts := [] } : State).retireFlags 0).dieOn 0 = true ∧
    (({ up with posts := [], dies := [(0, { enabled := false })] } : State).retireFlags 0).dieOn 0 = false ∧
    up.detects 1 = false ∧ firmware.detects 1 = true ∧ firmware.dec.tasks = [] ∧ firmware.poolFree 1 detImage = some 0 ∧
    (detecting.chain 2).tenant = 1 ∧ (detecting.chain 2).m = 1 ∧ (detecting.chain 3).tenant ≠ 1 := by
  decide +kernel

/-- CCH_START in expert tuning on plan 5, and the tenant's own engines, line 1 of group 0, and chain quota. -/
def cchCmd : RingCmd :=
  { cmdOf [prm 1 0 5, prm 1 1 0, prm 3 0 0, prm 3 1 1, prm 3 2 4, prm 3 3 (2 ^ 31), prm 3 4 0, prm 4 0 1, prm 5 0 8, prm 6 0 0, prm 7 0 100, prm 7 1 50,
      prm 7 2 2, prm 7 3 0, prm 8 0 0, prm 9 0 16, prm 9 1 256, prm 9 2 0, prm 10 0 0, prm 10 1 0, prm 10 2 4096, prm 10 3 1, prm 10 4 0x102, prm 10 5 1,
      prm 11 0 255] [] with resLen := 16 }
def cchUp : State :=
  { upWith [(0x900000, 0x101), (0x902004, 0x101), (tenReg 1 4, 8)] with grid := { started := true }, beams := [(5, { aBeam with chains := true })] }
/-- A switch to trellis decoding in progress that the one carrier of `profCmd` would not need. -/
def cchSwitching : State := { cchUp with dec := { switching := some [], target := true } }
def profCmd : RingCmd := { cmdOf [prm 11 0 3] [] with resLen := 16 }
def cchOk : List Param × Tuning × Search × List Nat := match cchUp.startChecks cchCmd with | .ok x => x | .error _ => ([], {}, .none, [])
def chained (x : Chain) : State := { cchUp with chains := [(2, x)] }
def retuneCmd : RingCmd :=
  { cmdOf [prm 3 0 0, prm 3 1 1, prm 3 2 4, prm 3 3 (2 ^ 31), prm 3 4 0] [] with arg1 := 2, resLen := 16 }
def retunePs : List Param := match paramList retuneCmd.buf 5 [(2, 2), (3, 5), (4, 1)] with | .ok ps => ps | .error _ => []

theorem witness_CarrierCommandsTakeAndFreeChains :
    cchUp.starts false cchCmd = true ∧ (cchUp.startChecks cchCmd).toOption = some cchOk ∧ (up.startChecks cchCmd).toOption = none ∧
    cchUp.dec.switching = none ∧ (cchSwitching.started profCmd).waitsSwitch 0x28 profCmd = true ∧ cchSwitching.starts false profCmd = true ∧
    lowestFree (fun n => (cchUp.chain n).state != .free) 512 = some 0 ∧
    lowestFree (fun n => (({ cchUp with chains := (List.range 512).map fun i => (i, { aChain with tenant := 0 }) } : State).chain n).state != .free) 512 = none ∧
    (cchUp.translate 1 0 true {}).2 = some 0 ∧ (chainOf 1 cchOk.1 cchOk.2.1 cchOk.2.2.1).profile = 255 ∧
    (chained aChain).starts false retuneCmd = true ∧ (paramList retuneCmd.buf 5 [(2, 2), (3, 5), (4, 1)]).toOption = some retunePs ∧
    (up.chain 2).state = .free ∧ ((chained aChain).chain 2).state ≠ .free ∧ ((chained aChain).chain 2).tenant = 1 ∧
    (hasRow retunePs 2 || hasRow retunePs 3) = true ∧ (tuningItems retunePs).toOption = some () ∧
    ((chained aChain).tuning ((chained aChain).beam 5) retunePs).toOption.isSome = true ∧ (checks [inParam retunePs 4 0 0 3]).toOption = some () ∧
    (chained aChain).starts false { vf with arg0 := 2 } = true ∧ aChain.profile = 255 ∧
    (chained { aChain with profile := 3 }).wantTrellis ((chained { aChain with profile := 3 }).carriers.length - 1) =
      (chained { aChain with profile := 3 }).dec.trellis := by decide +kernel

/-- A chain with enough samples of its input mixed. -/
def fed (st : ChainState) : Chain := { aChain with state := st, mixed := List.replicate 4 {}, settle := 3 }
def syncing : Chain := { aChain with state := .burst, search := .sync 2 false 8 0 0 false 100, bitsLeft := 5 }
def windowed : Chain := { aChain with agcOn := true, agcN := 4, thrN := 1, thrW := 0, thrAcc := 3 }

theorem witness_CarrierChainsFollowTheirSamples :
    (chained (fed .settling)).inReset 20 = false ∧ (cchUp.setBlock 20 (some { asserted := true })).inReset 20 = true ∧
    (chained (fed .settling)).fillMixed 1 1 (fed .settling) = some (fed .settling) ∧ (fed .settling).state = .settling ∧
    (chained (fed .run)).fillMixed 1 1 (fed .run) = some (fed .run) ∧ (chained aChain).fillMixed 1 1 aChain = none ∧
    ((fed .run).pos + (fed .run).adv + (fed .run).posAdj).toNat / 2 ^ 32 = 1 ∧
    ({ aChain with state := .settling } : Chain).settle = 0 ∧ (2 ^ windowed.agcW ≤ windowed.agcN ∧ windowed.frozen = false ∧ windowed.agcOn = true) ∧
    -6000 ≤ windowed.gain ∧ windowed.gain ≤ 6000 ∧ aChain.agcOn = false ∧ 2 ^ windowed.thrW ≤ windowed.thrN ∧ windowed.floorN = none ∧
    aChain.thrN < 2 ^ aChain.thrW ∧ ({ syncing with sinceDet := 64 } : Chain).maxLen ≤ 64 ∧ aChain.sinceDet < aChain.maxLen ∧ aChain.pending = [] ∧
    ({ gen := 1 } : WriteBack).gen ≠ aChain.gen ∧ ({} : WriteBack).gen = aChain.gen ∧ ({} : WriteBack).close = false ∧
    aChain.state ≠ .burst ∧ syncing.state = .burst ∧ 0 < syncing.bitsLeft ∧ syncing.boundTo = none ∧
    aChain.state ≠ .idle ∧ aChain.input = [] ∧ ({ aChain with input := [[]] } : Chain).input ≠ [] ∧ aChain.firstCh ≤ 0 ∧ 0 < aChain.firstCh + aChain.m ∧ aChain.firstCh + aChain.m ≤ 1 := by decide +kernel

/-! ### Witnesses and effects: engines -/

/-- Engine 0 runs; generator 1 points into the group-memory page of tenant 1, generator 2 past all memory. -/
def gens : Tab AddrGen := [(1, { base := 0x80000 }), (2, { base := 0x7000 })]
def runs (g : Eng) : State :=
  { upWith [(0x900000, 0x101), (0x900004, 0x101), (0x900200, 0x101), (0x902004, 0x101)] with engs := [(0, g), (1, { st := .halted })] }
def eng (d : Tab (BitVec 24)) : Eng := { st := .running, main := { d := d, ag := gens } }
def engine : State := runs (eng [(1, 0x7FFFFF), (2, 1), (3, 0xFFFFFE), (4, 0x800000)])

theorem witness_DataResultsClipOrWrap : engine.issues 0 .plain {} [] = true ∧ wfT 0 (eng []).set.d = true := by decide +kernel

/-- The engine a result lands in: an instruction, then NOPs until the results due are visible. -/
def after (n : Nat) (i : Instr) (p : Eng → Bool) (s : State := engine) : Bool :=
  match n with
  | 0 => holds (exec i s) fun t => p (t.landed 0)
  | n + 1 => holds (exec i s) fun t => after n (.engineNop 0 {}) p t

/-- The largest value plus 1 clips under S and wraps without it (R198). -/
theorem test_add_saturates : after 2 (.add 0 { sat := true } 5 1 2) (fun g => g.set.dv 5 == 0x7FFFFF) = true ∧
    after 2 (.add 0 {} 5 1 2) (fun g => g.set.dv 5 == 0x800000) = true := by decide +kernel
/-- A logical shift brings zeros, an arithmetic one the sign (Table 8.4). -/
theorem test_shifts : after 2 (.shr 0 {} 5 3 1) (fun g => g.set.dv 5 == 0x7FFFFF) = true ∧
    after 2 (.sha 0 {} 5 3 1) (fun g => g.set.dv 5 == 0xFFFFFF) = true := by decide +kernel
/-- −2 × −2^23 accumulates to 2^24 (R197). -/
theorem test_mac : after 4 (.mac 0 {} 1 3 4) (fun g => g.set.av 1 == 0x1000000) = true ∧
    after 1 (.mac 0 {} 1 3 4) (fun g => g.set.av 1 == 0) = true := by decide +kernel

theorem witness_EngineArithmeticInFlight :
    engine.issues 0 .plain {} [] = true ∧ (0 : Fin 4) ≠ 1 ∧ engine.issues 0 .plain {} [ownField true .c 0 0 true] = true ∧
    ((engine.landed 0).localCx .c ((engine.landed 0).eaOf 0)).isSome = true ∧ (busOff .c ((engine.landed 0).eaOf 0)).isSome = true ∧
    (busOff .c (((engine.landed 0).eaOf 0 + 1) % 2 ^ 20)).isSome = true := by decide +kernel

def handler : State := runs { st := .running, inh := true, shad := { ag := gens } }
def waitsGrp (g : Eng) : State := runs { g with main := { grp := some { reg := some 3, off := 0 } } }
theorem witness_EngineLoadsStoresAndMoves :
    engine.issues 0 .plain {} [ownField false .x 5 0 true] = true ∧ isGroupWord .x ((engine.landed 0).eaOf 0) = false ∧
    engine.issues 0 .plain {} [ownField false .x 5 1 true] = true ∧ isGroupWord .x ((engine.landed 0).eaOf 1) = true ∧
    engine.issues 0 .plain {} [ownField true .x 5 0 true] = true ∧ busOff .x ((engine.landed 0).eaOf 0) = some 0x10000 ∧
    engine.issues 0 .plain {} [ownField true .x 5 1 true] = true ∧ engine.canIssue 0 = true ∧ engine.issues 0 .plain {} [] = true ∧
    (engine.landed 0).inh = false ∧ handler.issues 0 .plain {} [] = true ∧ (handler.landed 0).inh = true ∧ engine.inReset 21 = false ∧
    (engine.setBlock 21 (some { asserted := true })).inReset 21 = true ∧ (engine.eng 0).main.grp = none ∧
    (((waitsGrp { st := .stalled }).eng 0).main.grp).isSome = true ∧ ((waitsGrp { st := .stalled }).eng 0).live = true ∧
    ((waitsGrp { st := .running, inh := true }).eng 0).inh = true := by decide +kernel

/-- An access to nothing mapped faults with DECERR; an odd LDH is not described. -/
theorem test_ld_faults : holds (exec (.ld 0 {} .x 5 2 true) engine) (fun t => (t.eng 0).st == .fault && (t.eng 0).fcode == fcDecerr) = true ∧
    isFault (exec (.ldh 0 {} .x 5 0 true) engine) (.notDescribed 195) = true := by decide +kernel

def branching : State := runs { st := .running, main := { branch := some (7, 2) } }
theorem witness_BranchesHaveTwoDelaySlots :
    (branching.eng 0).set.branch = some (7, 2) ∧ ((runs { st := .running, main := { branch := some (7, 1) } }).eng 0).set.branch = some (7, 1) ∧
    engine.issues 0 .plain {} [] = true ∧ engine.issues 0 .jump {} [] = true ∧ (engine.landed 0).set.retStack = [] ∧
    ((runs { st := .running, main := { retStack := List.replicate 8 1 } }).landed 0).set.retStack.length = 8 ∧
    (runs { st := .running, main := { retStack := List.replicate 8 1 } }).issues 0 .jump {} [] = true ∧
    branching.canIssue 0 = true ∧ (fieldsOf {}).isSome = true ∧ (branching.landed 0).set.branch.isSome = true := by decide +kernel

/-- CALL leaves the address behind its two delay slots and its target is met after them. -/
theorem test_call : holds (exec (.call 0 {} 100) engine) (fun t => (t.eng 0).pc == 1 && (t.eng 0).set.retStack == [3] &&
    holds (exec (.engineNop 0 {}) t) fun u => (u.eng 0).pc == 2 && holds (exec (.engineNop 0 {}) u) fun v => (v.eng 0).pc == 100) = true := by
  decide +kernel

def bound : State := { runs { st := .running, bound := some 2 } with chains := [(2, { aChain with group := 0, boundTo := some 0 })] }
theorem witness_EngineLoopsPortsAndRoutines :
    engine.issues 0 .plain {} [] = true ∧ (engine.atIssue 0).lineOk 0 1 ((engine.atIssue 0).engTenant 0) = true ∧
    (engine.atIssue 0).lineOk 0 2 ((engine.atIssue 0).engTenant 0) = false ∧
    ((bound.landed 0).set.dv 0).toNat = 0 ∧ ({ bound with chains := [(0, aChain)] } : State).issues 0 .plain {} [] = true ∧
    ((({ bound with chains := [(0, aChain)] } : State).atIssue 0).chain 0).tenant = (bound.atIssue 0).engTenant 0 ∧
    ((bound.atIssue 0).chain 0).state = .free ∧ ((engine.landed 0).rawX 0 4).isSome = true ∧ (engine.landed 0).rawX 0x7000 4 = none ∧
    ((bound.atIssue 0).bindPort 0 2).toOption.isSome = true ∧ ((bound.atIssue 0).bindPort 0 600).toOption.isNone = true ∧
    ((engine.landed 0).rawX 0x7000 8) = none ∧ ((engine.landed 0).rawX 0 8).isSome = true ∧
    engine.issues 0 .wait {} [] = true ∧ (engine.atIssue 0).maskOk 0 2 = true ∧ (engine.atIssue 0).maskOk 0 1 = false ∧
    engine.issues 0 .jump {} [] = true ∧ (engine.landed 0).pc.toNat + 32 ≤ 8191 ∧
    8191 < ((runs { st := .running, pc := 8190 }).landed 0).pc.toNat + 2 ∧ handler.issues 0 .jump {} [] = true ∧
    ((engine.finish (engine.atIssue 0) 0 .jump 1 {} []).eng 0).grpBusy = false ∧
    engine.issues 0 .hold {} [] = true ∧ (engine.landed 0).bound = none ∧ bound.issues 0 .hold {} [] = true ∧ (bound.landed 0).bound ≠ none ∧
    engine.issues 0 .micro {} [] = true ∧ ((engine.landed 0).set.gen 0).legal = true ∧ engine.canIssue 0 = true := by decide +kernel

/-- A handler that stands on an access of the interrupted program, which has not come back. -/
theorem witness_EngineLoopsPortsAndRoutines_busy :
    let s := runs { st := .running, inh := true, main := { grp := some {} } }
    s.issues 0 .jump {} [] = true ∧ ((s.finish (s.atIssue 0) 0 .jump 1 {} []).eng 0).grpBusy = true := by decide +kernel

/-- An engine image without sections (Table 8.8). -/
def imageHead : List Byte := le 4 0x4E454B43 ++ le 4 1 ++ le 4 0 ++ le 4 0 ++ le 4 32 ++ zeros 8
def image : List Byte := imageHead ++ le 4 (crc32 (imageHead ++ zeros 4))
def aborting (st : EngState) : State := runs { st := st, abortReq := true }
def waitsAll : State := { runs { st := .waiting, main := { wait := some 2 } } with engs := [(0, { st := .waiting, main := { wait := some 2 } })] }

theorem witness_EnginesStartStopAndTakeEvents :
    engine.starts false vf = true ∧ engine.engOwner 0 = some 1 ∧ engine.engOwner 5 ≠ some 1 ∧ (engine.eng 0).shipped = none ∧
    engine.resetting 21 = false ∧ (engine.setBlock 21 (some {})).resetting 21 = true ∧ (engine.setBlock 21 (some {})).starts false vf = true ∧
    (engine.eng 1).st = .halted ∧ (engine.eng 1).abortHeld = false ∧ ((runs { st := .halted, abortHeld := true }).eng 0).abortHeld = true ∧
    (engine.eng 0).st ≠ .halted ∧ (imageCheck []).isSome = true ∧ imageCheck image = none ∧
    ((runs { st := .running, tmr := 5 }).eng 0).tmr ≠ 0 ∧ (engine.eng 0).tmr = 0 ∧ (engine.eng 0).live = true ∧ engine.inReset 21 = false ∧
    ((runs { st := .running, main := { sr := 1 }, pend := 2, imaskLo := 2 }).eng 0).mayInterrupt = true ∧
    ((runs { st := .running, main := { sr := 1 }, pend := 2, imaskLo := 2 }).eng 0).wantsHalt = false ∧ (engine.eng 0).main.branch = none ∧
    (engine.eng 0).mayInterrupt = false ∧ ((runs { st := .running, haltWant := true }).eng 0).wantsHalt = true ∧ (engine.eng 0).grpBusy = false ∧
    ((runs { st := .running, haltWant := true, abortReq := true }).eng 0).abortReq = true ∧ ((aborting .running).eng 0).live = true ∧
    (engine.eng 0).abortReq = false ∧ ((aborting .halted).eng 0).abortReq = true ∧ ((aborting .fault).eng 0).st = .fault ∧
    waitsAll.ready = true ∧ waitsAll.shotRuns 0 = true ∧ waitsAll.inReset 21 = false ∧ engine.shotRuns 0 = false ∧
    ({ waitsAll with egroups := [(0, { frozen := true })] } : State).shotRuns 0 = true := by decide +kernel

/-! ### Witnesses: decoders, possessions and the chain -/

/-- A convolutional code of K = 2,048, Kc = 7, n = 2, tail-terminated, and an LDPC code header of Z = 96, mb = 8, nb = 24, E = 80, IMAX = 12. -/
def convCode : List Byte := le 4 0x80000001 ++ le 4 0x00270800 ++ le 4 (0x79 + 0x5B * 512) ++ zeros 4
def ldpcHead : List Byte := le 4 0x00000C01 ++ le 4 0x18080060 ++ le 4 80 ++ zeros 4

/-- The worst-case costs of Table 9.4: 36 + 12 × 128 + 24 and 2,054 × 4 + 40 + 0. -/
theorem test_code_cost : codeCost ldpcHead = 1596 ∧ codeCost convCode = 8256 := by decide +kernel

/-- A FRAMED profile of expert engines, without jobs. -/
def profHead : List Byte := le 4 0x00000001 ++ le 4 1024 ++ le 4 0 ++ le 4 100 ++ zeros 8 ++ le 4 0x40010000
def aProfile : List Byte := profHead ++ le 4 (crc32 profHead)
def aTask : Task := { seq := 4, stage := .decode, tenant := 1, started := some 0, codeId := 3 }
def deco (d : Dec) : State := { cchUp with dec := d }

theorem witness_DecoderJobsDeadlinesAndModes :
    up.starts true { pf with buf := convCode } = true ∧ codeOk (convCode.take (16 + codeTables convCode)) = true ∧ codeOk ((zeros 32).take (16 + codeTables (zeros 32))) = false ∧
    up.starts true { pf with buf := zeros 32 } = true ∧ up.profileOk (aProfile.take 32) = true ∧ up.profileOk (zeros 32) = false ∧
    ({ deco { profiles := [(3, some (le 4 0x00030401 ++ le 4 1024 ++ le 4 0 ++ le 4 0x00010064))] } with
        chains := [(2, { aChain with profile := 3 })] } : State).carriers.any (fun e => e.2.profile == 3) = true ∧
    (up.setBlock 33 (some { asserted := true })).inReset 33 = true ∧ up.inReset 33 = false ∧
    (up.dec.tasks.find? fun t => t.seq == 4 && t.stage == .decode && t.started.isSome) = none ∧
    ((deco { tasks := [aTask] }).dec.tasks.find? fun t => t.seq == 4 && t.stage == .decode && t.started.isSome) = some aTask ∧
    (up.profile 255).all profAssemble = true ∧ (some (le 4 0x00000401)).all profAssemble = false ∧ up.dec.switching = none ∧
    ((deco { switching := some [] }).dec.tasks.any fun t => t.stage == .decode && t.started.isSome) = false ∧
    ((deco { switching := some [], tasks := [aTask] }).dec.tasks.any fun t => t.stage == .decode && t.started.isSome) = true ∧
    (deco { switching := some [] }).dec.target = false ∧ (deco { switching := some [], target := true }).dec.target = true ∧
    ({ aTask with started := none } : Task).started = none ∧ ({ aTask with stage := .demod, unit := some 0 } : Task).stage ≠ .decode := by decide +kernel

/-- Lock 5 is enabled, of set 0, which tenant 1 may use; lock 992 is a chain lock. -/
def lockUp (l : Lock) (n : Nat := 5) : State :=
  { upWith [(0xB40000 + 4 * 5, 0x80000010), (0xB40F00 + 4 * 32, 0x80000010), (tenReg 1 8, 1), (tenReg 0 8, 1)] with locks := [(n, l)] }
def posArg (n : Nat) : RingCmd := { vf with arg0 := BitVec.ofNat 32 n }
def headOk (s : State) (n ring : Nat) (valid : Bool) : Bool := (checks (s.acquireHead 1 ring n valid)).toOption.isSome
def asMaster (s : State) : State := s.modMgmt fun m => { m with acting := true }
def lockWaiting (tries : Nat) : State := up.modMgmt fun m => { m with lockWait := [{ cmd := { fn := 1, tag := 9 }, holder := 128, tries := tries }] }

theorem witness_ArbitrationAndPossessions :
    up.ready = true ∧ up.setup.busy = false ∧ unsealed.setup.sealed = false ∧ up.starts true pf = true ∧ up.starts true { pf with buf := zeros 20 } = true ∧
    (lockUp {}).starts false (posArg 5) = true ∧ ((lockUp {}).setBlock 35 (some {})).resetting 35 = true ∧
    ((lockUp {}).setBlock 35 (some {})).starts false (posArg 5) = true ∧ (lockUp {}).resetting 35 = false ∧
    headOk (lockUp {}) 5 128 true = true ∧ headOk (lockUp {}) 5 128 false = false ∧ bit ((lockUp {}).posCfg 5) 31 = true ∧
    headOk (lockUp { holder := some 7, waiters := List.replicate 64 {} }) 5 128 true = true ∧
    headOk (lockUp { holder := some 7 }) 5 128 true = true ∧ bit (2 ^ 31 + 5) 31 = true ∧ (lockUp {}).starts false (posArg (2 ^ 31 + 5)) = true ∧
    ((lockUp { holder := some 128 }).lock 5).holder = some 128 ∧ (lockUp {}).starts false (posArg 960) = true ∧
    (lockUp {}).starts false { pf with arg0 := 2 ^ 31 + 5 } = true ∧ headOk (lockUp {}) 992 128 true = true ∧
    ((lockUp { holder := some ((lockUp {}).holderId 992 128) } 992).lock 992).holder = some ((lockUp {}).holderId 992 128) ∧
    (asMaster (lockUp {})).mgmt.acting = true ∧ (lockUp {}).mgmt.acting = false ∧ (lockUp {}).starts false (posArg 992) = true ∧
    (lockUp {}).starts false (posArg (2 ^ 31 + 992)) = true ∧ (lockUp {}).starts false { pf with arg0 := 2 ^ 31 + 992 } = true ∧
    (asMaster (lockUp {})).starts false (posArg 992) = true ∧
    (takeFirst (fun w : Waiter => w.holder == 7 && w.limit != 0) ((lockUp { waiters := [{ holder := 7, limit := 1 }] }).lock 5).waiters).isSome = true ∧
    fld ((lockUp {}).posCfg 5) 15 0 ≠ 0 ∧ ((lockUp { holder := some 128 }).lock 5).holder = some 128 ∧ fld (up.posCfg 5) 15 0 = 0 ∧
    (takeFirst (fun w : LockWait => w.cmd.tag == 9 && w.holder == 128) (lockWaiting 3).mgmt.lockWait).isSome = true ∧ (lockWaiting 3).mgmt.acting = false := by
  decide +kernel

/-- Chain port 0 is UP; a frame to everyone, one of this package and one named to a QUIET neighbour. -/
def onChain (x : Port) : State := { up with ports := [(0, x)] }
def joined : State := onChain { st := .up }
def toAll (l : List W32) : Frame := { src := 3, dst := 0x7F, seq := 8, payload := l }
def identWords : List W32 := [BitVec.ofNat 32 Config.identity.toNat, BitVec.ofNat 32 (Config.identity.toNat / 2 ^ 32), 5]

theorem witness_ChainFramesAreDeliveredOnce :
    (up.port 0).isUp = false ∧ (joined.port 0).isUp = true ∧ joined.hears 0 (toAll []) = true ∧
    (joined.modMgmt fun m => { m with seen := [(3, 8)] }).hears 0 (toAll []) = false ∧
    (joined.heard 0 (toAll [])).mgmt.acting = false ∧ ((asMaster joined).heard 0 (toAll [])).mgmt.acting = true ∧
    (((asMaster joined).modMgmt fun m => { m with enumOpen := true }).heard 0 (toAll [])).mgmt.enumOpen = true ∧
    ((asMaster joined).heard 0 (toAll [])).validAddrs = [] ∧ (((asMaster joined).heard 0 (toAll [])).addrEnt 2).valid = false ∧
    ((asMaster joined).heard 0 (toAll [])).freeAddr = some 0 ∧
    (({ asMaster joined with mgmt := { acting := true, table := (List.range 64).map fun a => (a, { valid := true }) } } : State).heard 0 (toAll [])).freeAddr = none ∧
    (({ asMaster joined with locks := [(992, { holder := some (3 * 65536 + 1) })] } : State).heard 0 (toAll [])).lock 992 = { holder := some (3 * 65536 + 1) } ∧
    ((joined.heard 0 (toAll [])).noteUpstream).upstream = none ∧
    (({ joined with mgmt := { hopW := some (0, 1) } } : State).heard 0 (toAll [])).upstream = some 0 ∧
    (joined.recordHops (toAll [])).hears 0 (toAll []) = true ∧ joined.ownBack (toAll []) = false ∧
    (joined.goodFrame 0 (toAll [])).isForMe (toAll []) = true ∧ (joined.goodFrame 0 { dst := 9 }).isForMe { dst := 9 } = false ∧
    (0 : BitVec 7) ≠ (joined.goodFrame 0 { dst := 9 }).mgmt.addr ∧
    (((onChain { st := .up, quiet := true, quietAddr := 9 }).goodFrame 0 { dst := 9 }).port 0).quiet = true ∧
    (({ joined with ports := [(0, { st := .up }), (1, { quiet := true, quietAddr := 9 })] } : State).goodFrame 0 { dst := 9 }).port 1 =
      { quiet := true, quietAddr := 9 } := by decide +kernel

/-- The ASSIGN that names this package. -/
theorem witness_ChainFramesAreDeliveredOnce_assign : payload64 (toAll identWords) 0 = Config.identity.toNat := by
  have h := Config.identity.isLt
  simp only [payload64, payloadNat, toAll, identWords, List.getD_cons_zero, List.getD_cons_succ, BitVec.toNat_ofNat]
  omega

def reqUp : State := { upWith [(0xC00000, 0x1000)] with ports := [(0, { st := .up })], mgmt := { master := 3 } }
def resetting (tries : Nat) (acked : Bool) : State :=
  { reqUp with mgmt := { master := 3, resetWait := [{ dst := 3, word := 1, tries := tries, acked := acked }] } }

theorem witness_ResetsCrossTheChain :
    reqUp.hears 0 (toAll [1]) = true ∧ (toAll [1]).src = (reqUp.heard 0 (toAll [1])).mgmt.master ∧ (toAll [1]).src ≠ 0x40#7 ∧
    (toAll [1]).epoch = (reqUp.heard 0 (toAll [1])).mgmt.epoch ∧ bit ((reqUp.heard 0 (toAll [1])).reg 0xC00000) 12 = true ∧
    fld (payloadNat (toAll [1]) 0) 1 0 = 1 ∧ fld (payloadNat (toAll [1]) 0) 15 8 ≤ 36 ∧ fld (payloadNat (toAll [0]) 0) 1 0 = 0 ∧
    takeFirst (fun w => w.dst == 3) (reqUp.heard 0 (toAll [1])).mgmt.resetWait = none ∧
    (takeFirst (fun w => w.dst == 3) ((resetting 0 false).heard 0 (toAll [1])).mgmt.resetWait).isSome = true ∧ fld (payloadNat (toAll [0]) 0) 7 0 = stOK ∧
    up.starts true pf = true ∧ up.mgmt.acting = false ∧ (asMaster up).starts true pf = true ∧ (asMaster up).mgmt.acting = true ∧
    takeFirst (fun w => !w.acked) up.mgmt.resetWait = none ∧ (takeFirst (fun w => !w.acked) (resetting 3 false).mgmt.resetWait).isSome = true ∧
    up.ready = true ∧ up.fnExists 1 = true := by decide +kernel

def portCfg (x : Port) : State := { upWith [(0xC00000, 0x80030000)] with ports := [(0, x)] }
def sent (tries : Nat) : Port := { st := .up, unacked := [{ f := { lseq := 7 }, tries := tries }] }
def twins (m : Mgmt) : State :=
  { upWith [(0xC00000, 0x80038000)] with mgmt := m, rst := { up.rst with straps := { chainRole := 3 } } }

theorem witness_ChainPortsTrainAndFail :
    takeFirst (fun u => u.f.lseq == 7) (up.port 0).unacked = none ∧ (takeFirst (fun u => u.f.lseq == 7) ((portCfg (sent 3)).port 0).unacked).isSome = true ∧
    ((portCfg { st := .up, rxErr := 250 }).port 0).rxErr = 250 ∧ ((portCfg { st := .up, rxErr := 120 }).port 0).st = .up ∧
    ((portCfg (sent 0)).port 0).txErr + 8 < 255 ∧ ((portCfg (sent 0)).port 0).isUp = true ∧ (up.port 0).isUp = false ∧
    ((portCfg { st := .training, clkOk := true }).port 0).clkOk = true ∧ (up.port 0).st = .off ∧ bit ((portCfg {}).reg 0xC00000) 31 = true ∧
    (portCfg {}).portUsable 0 = true ∧ bit ((upWith [(0xC00000, 0)]).reg 0xC00000) 31 = false ∧ (upWith [(0xC00000, 0)]).portUsable 0 = false := by decide +kernel

theorem witness_ChainPortsTrainAndFail_on :
    (portCfg {}).starts true pf = true ∧ ((portCfg {}).port 0).st = .off ∧ ((portCfg (sent 0)).port 0).st ≠ .off ∧ (portCfg (sent 0)).starts true pf = true ∧
    ((portCfg { wakeClk := true }).port 0).wakeClk = true ∧ (up.port 0).wakeClk = false ∧
    ((portCfg { st := .up, clkOk := true, bad := 1 }).port 0).clkOk = true ∧ badRun 1 0 = 2 ∧ badRun 0 10000 < 2 ∧ goodRun 15 10000 = 16 ∧
    (twins {}).twinEn = true ∧ (twins {}).chainOut = true ∧ ((twins {}).port 2).clkOk = false ∧ up.twinEn = false := by decide +kernel

theorem witness_MastersTwinsAndTheirCycle :
    up.mgmt.acting = false ∧ (twins { master := 3 }).mgmt.master ≠ 0x40#7 ∧ up.mgmt.master = 0x40#7 ∧
    (twins {}).inPair = true ∧ (twins {}).chainOut = true ∧ (twins {}).inReset 36 = false ∧ (twins {}).mgmt.swap = none ∧ (twins {}).mgmt.sidelined = false ∧
    (twins {}).rst.straps.chainRole = 3#2 ∧ (twins {}).mgmt.benchHeld = true ∧ (twins { benchHeld := false }).mgmt.benchHeld = false ∧ up.inPair = false ∧
    (twins { acting := true }).mgmt.acting = true ∧
    ((twins { swap := some {}, swapPhase := 3, copyBody := [1], goodRun := 1 }).mgmt.swap = some {} ∧
      (twins { swap := some {}, swapPhase := 3, copyBody := [1], goodRun := 1 }).mgmt.copyBody ≠ []) ∧
    (twins { twinUp := true, goodRun := 2 }).mgmt.twinUp = true ∧ (twins { twinUp := true, goodRun := 2 }).mgmt.sync = false ∧
    ((twins { acting := true }).goodCopy.sendGrants (twins { acting := true }).mgmt.copied).mgmt.swapPhase ≠ 2 ∧
    ((twins { acting := true, swapPhase := 2 }).goodCopy.sendGrants (twins { acting := true, swapPhase := 2 }).mgmt.copied).mgmt.swapPhase = 2 ∧
    (twins { sync := true }).mgmt.sync = true ∧ ((twins {}).setBlock 36 (some { asserted := true })).inReset 36 = true ∧ (twins {}).mgmt.lostRings = [] ∧
    (twins {}).mgmt.reenumCmds = [] ∧ (twins { acting := true, sync := true }).starts true pf = true ∧ (twins {}).starts true { pf with resLen := 1024 } = true ∧
    ((twins {}).translate 0 0 true {}).2 = some 0 ∧ (State.translate { twins {} with tlb := [] } 0 0 true {}).2 = none := by decide +kernel

/-! ### Witnesses: time and references -/

def tuCmd (op : Nat) (c1 : Nat) : RingCmd := { pf with arg0 := BitVec.ofNat 32 (op * 256), arg1 := 9, arg5 := BitVec.ofNat 32 c1 }
def follows : State := { joined with mgmt := { hopW := some (0, 1) } }
def timed (t : Time) : State := { up with time := { t with running := true, c := 5000 } }
def pendTu (at_ : Nat) : State := timed { pend := [{ at_ := at_, v := 3 }] }

theorem witness_TimeCommands :
    up.upstream = none ∧ follows.upstream = some 0 ∧ up.fnExists 1 = true ∧ ({ up with numVfs := 3 } : State).fnExists 4 = false ∧ up.ready = true ∧
    State.reset.ready = false ∧ State.reset.fnExists 1 = true ∧ up.starts true (tuCmd 0 0) = true ∧ up.domSrc 0 = 0 ∧
    (upWith [(0xD00000, 0x40000000)]).domSrc 0 = 1 ∧ up.now = 5000 ∧ up.starts true (tuCmd 1 5000) = true ∧ (4999 : Nat) < up.now ∧
    up.time.pend = [] ∧ minBy (·.at_) (pendTu 5000).time.pend = some { at_ := 5000, v := 3 } ∧
    minBy (·.at_) (pendTu 5001).time.pend = some { at_ := 5001, v := 3 } ∧
    up.starts false { vf with arg1 := 0x102 } = true ∧ (up.fn 1).labelPend = none ∧ up.destOk 1 0x102 = true ∧ up.destOk 1 0x101 = false ∧
    ((up.modFn 1 fun f => { f with labelPend := some {} }).fn 1).labelPend.isSome = true ∧ up.time.kq.find? (fun e => e.k == 1) = none ∧
    ((timed { kq := [{ k := 1 }] }).time.kq.find? fun e => e.k == 1) = some { k := 1 } ∧
    (starting 5).ready = false ∧ (starting 5).hostOut = true ∧ (starting 5).fnExists 1 = true ∧ State.reset.ready = false ∧ State.reset.hostOut = false ∧
    State.reset.fnExists 1 = true := by decide +kernel

/-- A time is set at once and at its counter; 0x9 units of 2^-32 ns. -/
theorem test_tu_set : holds (exec (.tuSet (tuCmd 0 0)) up) (fun t => (t.dom 0).time 5000 == 9 && (t.dom 0).valid) = true ∧
    holds (exec .tuSetApply (pendTu 5000)) (fun t => (t.dom 0).time 5000 == 3 && t.time.pend.isEmpty) = true := by decide +kernel

def refUp (x : Nat) (r : Ref) : State := timed { refs := [(x, r)] }
def ppsUp (r : Ref) : State := { upWith [(0xF00000, 0x00030080)] with time := { running := true, c := 5000, refs := [(4, r), (5, r)] } }

theorem witness_ReferencesAndPulses :
    (State.reset).time.running = false ∧ up.time.running = true ∧ up.refNominal 0 = 100 ∧ 3 * 100 ≤ 4 * 100 ∧ 4 * 100 ≤ 5 * 100 ∧ 4 * 74 < 3 * 100 ∧
    ((refUp 0 { st := .checking }).ref 0).st ≠ .disqualified ∧ (up.ref 0).st = .disqualified ∧ ((refUp 0 { st := .wait }).ref 0).st = .wait ∧
    ((refUp 0 { st := .qualified, badGates := 1 }).ref 0).badGates ≠ 0 ∧ ((refUp 0 { st := .checking, gates := 3 }).ref 0).gates = 3 ∧
    up.starts true { pf with arg0 := 3 } = true ∧ up.starts true { pf with arg0 := 4 } = true ∧
    (upWith [(0xF00000, 0)]).ppsOn 0 = false ∧ (ppsUp {}).ppsOn 0 = true ∧ (ppsUp {}).time.running = true ∧ ((ppsUp {}).ref 4).capped = false ∧
    ((ppsUp { capped := true }).ref 4).capped = true ∧ (ppsUp {}).now < 0 + 1249998750 ∧ 0 + 1250001250 < ({ (ppsUp {}) with time := { running := true, c := 1250001255, refs := [(4, { capped := true })] } } : State).now ∧
    fld (up.reg 0xF00000) 7 6 ≠ 2 ∧ fld ((ppsUp {}).reg 0xF00000) 7 6 = 2 ∧ (ppsUp {}).time.lastTrig.all (fun t => decide (t + 1250 ≤ 5000)) = true ∧
    (({ (ppsUp {}) with time := { running := true, c := 5000, lastTrig := some 4000 } } : State).time.lastTrig.any fun t => decide (5000 < t + 1250)) = true ∧
    up.ready = true ∧ up.setup.busy = false ∧ (State.setBoth up 0xD00140 (mergeBits 0xFF03FFFF up.refLoop 0)).reselect.time.active = none ∧
    (State.setBoth (timed { refs := [(0, { st := .qualified })] }) 0xD00140 (mergeBits 0xFF00FFFF (timed {}).refLoop 0x30000)).reselect.time.active = some 0 ∧
    up.time.loop = .holdover ∧ (timed { loop := .opened }).time.loop = .opened ∧ State.reset.ready = false ∧
    (State.modTime { upWith [(0xD00140, 0x80000000)] with time := { active := some 0 } } fun t => { t with steer := 0, steered := true }).loopMode = .opened := by
  decide +kernel

/-! ### Effects, from the manual's tables -/

/-- A write to a sealed RWS register is discarded, one before the seal changes the shadow alone (R247). -/
theorem test_register_write :
    holds (exec (.registerWrite 0 .bar2 0x200008 4 4) unsealed) (fun t => getT 0 t.shadow 0x200008 == 4 && getT 0 t.comm 0x200008 == getT 0 unsealed.comm 0x200008) = true := by
  decide +kernel
/-- NOP completes OK on the ring that RING_CFG.CPLQ names, and the consumer index moves (R250, R256). -/
theorem test_nop : holds (exec (.nop { vf with tag := 7 }) up) (fun t =>
    (t.ring 1 0).c == 1 && (t.ring 1 1).cplWait == [{ cmd := { fn := 1, q := 0, tag := 7, opc := 0, cplq := 1 } }]) = true := by decide +kernel
/-- A PF command from a VF completes with DECERR. -/
theorem test_pf_only : holds (exec (.softReset vf) up) (fun t => (t.ring 1 1).cplWait.map (·.status.toNat) == [stDecerr]) = true := by decide +kernel
/-- POS_ACQUIRE takes a free lock; a second ring is refused without WAIT (Table 11.6, check 6). -/
theorem test_pos_acquire :
    holds (exec (.posAcquire (posArg 5)) (lockUp {})) (fun t => (t.lock 5).holder == some 128) = true ∧
    holds (exec (.posAcquire (posArg 5)) (lockUp { holder := some 7 })) (fun t =>
      (t.lock 5).holder == some 7 && (t.ring 1 1).cplWait.map (fun c => (c.status.toNat, c.res1.toNat)) == [(stConflict, 6)]) = true := by decide +kernel
/-- MEM_ALLOC of 10 granules takes the lowest handle. -/
theorem test_mem_alloc : holds (exec (.memAlloc (ask 0 10)) pool) (fun t =>
    getT none t.handles 0 == some { tenant := 1, die := 0, granules := 10 } && (t.ring 1 1).cplWait.map (·.status.toNat) == [stOK]) = true := by decide +kernel
/-- An unknown frame type is counted at its port (R316). -/
theorem test_unknown_frame : holds (exec (.unknownTypeFrame 0 (toAll [])) joined) (fun t => (t.port 0).badType == 1) = true := by decide +kernel
/-- BEACON_LOSS leaves the package without a master, at address 0x40. -/
theorem test_beacon_loss : holds (exec .beaconLoss (twins { master := 3 })) (fun t => t.mgmt.master == 0x40#7) = true := by decide +kernel
/-- A chain port that hears nothing for its window goes OFF with both counters at 255 (Table 12.3). -/
theorem test_port_silence : holds (exec (.chainPortSilence 0) joined) (fun t => (t.port 0).st == .off && (t.port 0).txErr == 255) = true := by decide +kernel
/-- CCH_START takes chain 0, SETTLING; CCH_STOP frees it (R176). -/
theorem test_cch : holds (exec (.cchStart cchCmd) cchUp) (fun t => (t.chain 0).state == .settling && (t.chain 0).gen == 1) = true ∧
    holds (exec (.cchStop { vf with arg0 := 2 }) (chained aChain)) (fun t => (t.chain 2).state == .free) = true := by decide +kernel
/-- Four successive good gates take a reference from CHECKING to the wait (R345). -/
theorem test_ref_gate : holds (exec (.refGate 0 100) (refUp 0 { st := .checking, gates := 3 })) (fun t => (t.ref 0).st == .wait) = true ∧
    holds (exec (.refGate 0 101) (refUp 0 { st := .checking, gates := 3 })) (fun t => (t.ref 0).st == .checking && (t.ref 0).gates == 0) = true := by decide +kernel
/-- An idle step counts five C in a MGMT_CLK cycle. -/
theorem test_idle : holds (step up) (fun t => t.now == 5005) = true := by decide +kernel
/-- The front command runs on the queue's rest. -/
theorem test_step : holds (step { up with pending := [.nop vf, .wakeN] }) (fun t => t.pending == [.wakeN] && (t.ring 1 0).c == 1) = true := by decide +kernel
/-- A report is worked on by a free engine of the firmware; one that finds none waits, and at its deadline is lost with a
miss and no flag (R151, R239). -/
theorem test_detection : holds (exec (.detectionInput 1 aReport) firmware) (fun t =>
    t.posts.length == 1 && (t.dec.tasks.map fun x => x.started.isSome) == [true] && (t.eng 0).task == some 0) = true ∧
    holds (exec (.detectionInput 1 aReport) ({ firmware with engs := [] }.modEng 0 fun _ => { (firmware.eng 0) with task := some 9 })) (fun t =>
      t.posts.isEmpty && holds (exec (.deadlineExpiry 0) t) (fun u => u.dec.tasks.isEmpty && (u.fn 1).miss == 1 && u.posts.isEmpty)) = true := by
  decide +kernel

end Sys2Proof.Machine.Tests
end

section
/-! SUPPORT. Proofs about global setup: what a BAR2 or BAR0 write does by the access code of its register, what SETUP_COMMIT,
its completion and SETUP_SEAL do, that no other command writes committed registers, and the state after power-on. -/

namespace Sys2Proof.Machine

open Sys2Proof

/-! ### Committed registers outside the commits -/

/-- The property that the committed table is `c`, whatever memory, queue and seal are. -/
def Keep.commIs (c : Tab W32) : Keep := fun _ _ _ c' => c' = c

theorem Keep.commIs_hbm (c : Tab W32) : (Keep.commIs c).Hbm := ⟨fun _ _ _ _ _ _ h => h, fun _ _ _ _ _ _ h => h⟩

theorem Keep.commIs_seal (c : Tab W32) : (Keep.commIs c).Seal := fun _ _ _ _ h => h

/-- A command of neither class leaves the committed table alone. -/
theorem exec_comm {c : Instr} {s t : State} (hw : writesCommitted c = false) (hr : restarts c = false)
    (he : exec c s = .next t) : t.comm = s.comm :=
  exec_keeps (K := Keep.commIs s.comm) (fun _ => Keep.commIs_hbm _) (fun h => absurd h (by simp [hw]))
    (fun _ => Keep.commIs_seal _) (fun h => absurd h (by simp [hr])) rfl he

/-- Settles O5: committed words are read from the committed table alone. -/
theorem committedSetupChangesOnlyByItsCommands : Obligations.CommittedSetupChangesOnlyByItsCommands := by
  intro c s t hw hr he off
  unfold State.reg
  rw [exec_comm hw hr he]

/-! ### Writes of BAR2 and BAR0 (R16, R245, R247) -/

section
variable {s : State}

/-- The PF exists whatever NumVFs is. -/
@[simp] theorem State.fnExists_zero : s.fnExists 0 = true := by simp [State.fnExists]

theorem State.bar2Write_open {k : State → State} (hr : s.ready = true) (hb : s.setup.busy = false) : s.bar2Write k = k s := by
  simp [State.bar2Write, hr, hb]

/-- While BUSY a write only sets LOST. -/
theorem State.bar2Write_busy {k : State → State} (hr : s.ready = true) (hb : s.setup.busy = true) :
    s.bar2Write k = { s with setup := { s.setup with lost := true } } := by
  simp [State.bar2Write, hr, hb]

/-- An access that is not an aligned 32-bit one, or of a function that does not exist, is discarded. -/
theorem State.registerWrite_discarded {fn off size v : Nat} {bar : Bar}
    (h : size ≠ 4 ∨ off % 4 ≠ 0 ∨ s.fnExists fn = false) : s.registerWrite fn bar off size v = s := by
  unfold State.registerWrite
  rw [if_pos]
  rcases h with h | h | h <;> simp [h]

/-- An aligned write of the PF outside the boot window is a write of a BAR2 register. -/
theorem State.registerWrite_bar2 {off v : Nat} (h4 : off % 4 = 0) (hw : off < 0xE10000 ∨ 0xE20000 ≤ off) :
    s.registerWrite 0 .bar2 off 4 v = s.bar2Write fun s => s.writeBar2 off v := by
  have hwin : ¬(0xE10000 ≤ off ∧ off < 0xE20000) := by omega
  simp [State.registerWrite, h4, hwin]

/-- An aligned BAR0 write of a function that exists. -/
theorem State.registerWrite_bar0 {fn off v : Nat} (hr : s.ready = true) (hf : s.fnExists fn = true) (h4 : off % 4 = 0)
    (ho : off < 0x10000) : s.registerWrite fn .bar0 off 4 v = s.writeBar0 fn off v := by
  simp [State.registerWrite, hr, hf, h4, ho]

/-- The BAR2 words whose write is not a plain replacement of bits: REF_LOOP, ROOT_STEER, SETUP_STATUS, the over-temperature
and frozen bits that a write clears, and the sample format with its own check. -/
def OwnWrite (off : Nat) : Prop :=
  off = 0xD00140 ∨ off = 0xD0014C ∨ off = 4 ∨ (0x400100 ≤ off ∧ off < 0x400140 ∧ off % 8 = 0) ∨
    (0xB50004 ≤ off ∧ off < 0xB50060 ∧ off % 8 = 4) ∨ off = 0x300000

/-- A write of any other word replaces the bits of its access codes: RW in both tables, RWS and RWL in the shadow until the
seal. -/
theorem State.writeBar2_plain {off v : Nat} {d : RegDesc} (ho : ¬OwnWrite off) (hd : findReg off = some d) :
    s.writeBar2 off v =
      (let u := if d.rw = 0 then s else s.setBoth off (mergeBits d.rw (s.reg off) v)
       if u.setup.sealed = true ∨ d.ws = 0 then u else u.setShadow off (mergeBits d.ws (u.shadowReg off) v)) := by
  simp only [OwnWrite, not_or] at ho
  obtain ⟨hloop, hsteer, hstatus, htemp, hfrozen, hformat⟩ := ho
  have htemp' : ¬((0x400100 ≤ off ∧ off < 0x400140) ∧ off % 8 = 0) := by omega
  have hfrozen' : ¬((0xB50004 ≤ off ∧ off < 0xB50060) ∧ off % 8 = 4) := by omega
  simp [State.writeBar2, shadowMask, hloop, hsteer, hstatus, htemp', hfrozen', hformat, hd]

/-- A write of a word of RWS and RWL fields alone: its shadow before the seal, nothing after it. -/
theorem State.writeBar2_shadow {off v : Nat} {d : RegDesc} (ho : ¬OwnWrite off) (hd : findReg off = some d) (hrw : d.rw = 0)
    (hws : d.ws ≠ 0) :
    s.writeBar2 off v = if s.setup.sealed then s else s.setShadow off (mergeBits d.ws (s.shadowReg off) v) := by
  simp [State.writeBar2_plain ho hd, hrw, hws]

/-- A write of a word of RW fields alone: shadow and committed value together. -/
theorem State.writeBar2_both {off v : Nat} {d : RegDesc} (ho : ¬OwnWrite off) (hd : findReg off = some d) (hrw : d.rw ≠ 0)
    (hws : d.ws = 0) : s.writeBar2 off v = s.setBoth off (mergeBits d.rw (s.reg off) v) := by
  simp [State.writeBar2_plain ho hd, hrw, hws]

/-- A write of a ring's RING_BASE_LO changes the shadow of that ring. -/
theorem State.writeBar0_ringBase {fn q v : Nat} (hq : q < 128) :
    s.writeBar0 fn (0x1000 + 32 * q) v =
      s.modRing fn q fun r => { r with sh := { r.sh with baseLo := BitVec.ofNat 32 (v &&& 0xFFFFF000) } } := by
  have hcfg : 0x1000 + 32 * q ≠ 8 := by omega
  have hout : 0x1000 + 32 * q ≠ 0x6200 := by omega
  have hring : 0x1000 + 32 * q < 0x2000 := by omega
  have hword : (0x1000 + 32 * q) % 32 = 0 := by omega
  simp [State.writeBar0, hcfg, hout, hring, hword]

end

/-- Settles O14, by the access code of the word. -/
theorem registerWritesFollowTheirAccess : Obligations.RegisterWritesFollowTheirAccess := by
  intro fn off size v bar q s
  refine ⟨fun h => ?discarded, fun d hr hb h4 hd hrw hws hfmt htemp hfrz hst hwin hloop hsteer => ?shadow, fun hr hb => ?both,
    fun hr hb h4 hwin => ?busy, fun hr hf => ?ring⟩
  case discarded => exact congrArg Host.Outcome.next (State.registerWrite_discarded h)
  case shadow =>
    have hown : ¬OwnWrite off := by unfold OwnWrite; omega
    have hwrite : exec (.registerWrite 0 .bar2 off 4 v) s =
        .next (if s.setup.sealed then s else s.setShadow off (mergeBits d.ws (s.shadowReg off) v.toNat)) := by
      refine congrArg Host.Outcome.next ?_
      calc s.registerWrite 0 .bar2 off 4 v.toNat
          _ = s.bar2Write (fun s => s.writeBar2 off v.toNat) := State.registerWrite_bar2 h4 (.inl hwin)
          _ = s.writeBar2 off v.toNat := State.bar2Write_open hr hb
          _ = _ := State.writeBar2_shadow hown hd hrw hws
    exact ⟨fun hs => by simp [hwrite, hs], fun hs => by simp [hwrite, hs]⟩
  case both =>
    refine congrArg Host.Outcome.next ?_
    calc s.registerWrite 0 .bar2 0xE00020 4 v.toNat
        _ = s.bar2Write (fun s => s.writeBar2 0xE00020 v.toNat) := State.registerWrite_bar2 (by decide) (by decide)
        _ = s.writeBar2 0xE00020 v.toNat := State.bar2Write_open hr hb
        _ = _ := State.writeBar2_both (d := { base := 0xE00020, rw := 0xFFFFFFFF }) (by unfold OwnWrite; omega) (by decide)
          (by decide) rfl
  case busy =>
    exact congrArg Host.Outcome.next ((State.registerWrite_bar2 h4 hwin).trans (State.bar2Write_busy hr hb))
  case ring =>
    have hq := q.isLt
    exact congrArg Host.Outcome.next
      ((State.registerWrite_bar0 hr hf (by omega) (by omega)).trans (State.writeBar0_ringBase hq))

/-! ### SETUP_COMMIT and SETUP_SEAL (R247) -/

section
variable {s : State}

/-- What follows an applied commit changes no committed register beyond the commit itself. -/
theorem State.applyCommit_comm : s.applyCommit.comm = s.committed :=
  let K := Keep.commIs s.committed
  have hcommit : State.Has { s with comm := s.committed } K := rfl
  State.writeWarmImage_keeps (K := K) <| State.followTimeCfg_keeps <| State.followChainCfg_keeps <| State.modeFollow_keeps <|
    State.followLaneEn_keeps <| State.followDieEnable_keeps (Keep.commIs_hbm _) <| State.changeOwners_keeps <|
    State.followFormat_keeps hcommit

/-- After the seal a commit only shows REFUSED_SEALED. -/
theorem State.setupCommit_sealed (h : s.setup.sealed = true) :
    s.setupCommit = { s with setup := { s.setup with last := 0x16 } } := by
  unfold State.setupCommit
  rw [if_pos h]
  rfl

/-- A commit with a conflict changes the setup status alone. -/
theorem State.setupCommit_conflict {k : Conflict} (h : s.setup.sealed = false) (hk : s.commitConflict = some k) :
    s.setupCommit = { s with setup := { s.setup with
      busy := true, result := some (BitVec.ofNat 8 k.st, BitVec.ofNat 8 k.cls, BitVec.ofNat 24 k.a, BitVec.ofNat 24 k.b) } } := by
  simp [State.setupCommit, h, hk]

/-- A commit without a conflict is applied. -/
theorem State.setupCommit_applied (h : s.setup.sealed = false) (hk : s.commitConflict = none) :
    s.setupCommit = { s.applyCommit with setup := { s.applyCommit.setup with busy := true, result := some (0, 0, 0, 0) } } := by
  simp [State.setupCommit, h, hk, stOK]

/-- After the seal another one only shows REFUSED_SEALED. -/
theorem State.setupSeal_sealed (h : s.setup.sealed = true) :
    s.setupSeal = { s with setup := { s.setup with last := 0x16 } } := by
  unfold State.setupSeal
  rw [if_pos h]
  rfl

/-- A pending shadow refuses the seal. -/
theorem State.setupSeal_pending {off : Nat} (h : s.setup.sealed = false) (hp : s.lowestPending = some off) :
    s.setupSeal = { s with setup :=
      { s.setup with last := 0x13, confClass := 8, confA := BitVec.ofNat 24 off, confB := 0 } } := by
  simp [State.setupSeal, h, hp, stConflict]

/-- Updates of dies one after the other change nothing but the dies. -/
theorem State.forEach_modDie_only (l : List Nat) (f : Die → Die) :
    let t := s.forEach l fun s d => s.modDie d f
    t = { s with dies := t.dies } := by
  induction l generalizing s with
  | nil => rfl
  | cons d l ih => exact ih (s := s.modDie d f)

/-- With no shadow pending the setup is sealed, and the one automatic gain setting of each die is due again. -/
theorem State.setupSeal_done (h : s.setup.sealed = false) (hp : s.lowestPending = none) :
    ∃ ds c, s.setupSeal = { s with dies := ds, setup :=
      { s.setup with sealed := true, last := 0, confClass := 0, confA := 0, confB := 0, sealCtr := c } } := by
  have hdies := State.forEach_modDie_only (s := s) (List.range 4) fun y => { y with gainOnce := false }
  unfold State.setupSeal
  rw [if_neg (by simp [h]), hp]
  dsimp only at hdies ⊢
  rw [hdies]
  exact ⟨_, _, rfl⟩

/-- The completion of a commit shows its result. -/
theorem execSetupCommitDone_result {st cls : Byte} {a b : BitVec 24} (h : s.setup.result = some (st, cls, a, b)) :
    execSetupCommitDone s = .next { s with setup :=
      { s.setup with busy := false, result := none, last := st, confClass := cls, confA := a, confB := b } } := by
  simp [execSetupCommitDone, h]

theorem exec_setupCommit_open (hr : s.ready = true) (hb : s.setup.busy = false) : exec .setupCommit s = .next s.setupCommit :=
  congrArg Host.Outcome.next (State.bar2Write_open hr hb)

theorem exec_setupSeal_open (hr : s.ready = true) (hb : s.setup.busy = false) : exec .setupSeal s = .next s.setupSeal :=
  congrArg Host.Outcome.next (State.bar2Write_open hr hb)

end

/-- Settles O15, by BUSY, SEALED and the outcome of the checks. -/
theorem setupCommitsAllOrNothing : Obligations.SetupCommitsAllOrNothing := by
  intro s hr
  refine ⟨fun hb => ?busy, fun hb hs => ?isSealed, fun hb hs => ⟨fun k hk => ?conflict, fun hk => ?applied, fun off hp => ?pending,
    fun hp => ?seals⟩, fun st cls a b h => execSetupCommitDone_result h⟩
  case busy =>
    exact ⟨congrArg Host.Outcome.next (State.bar2Write_busy hr hb), congrArg Host.Outcome.next (State.bar2Write_busy hr hb)⟩
  case isSealed =>
    rw [exec_setupCommit_open hr hb, exec_setupSeal_open hr hb, State.setupCommit_sealed hs, State.setupSeal_sealed hs]
    exact ⟨rfl, rfl⟩
  case conflict =>
    rw [exec_setupCommit_open hr hb, State.setupCommit_conflict hs hk]
    exact ⟨_, rfl, rfl, rfl, hs⟩
  case applied =>
    rw [exec_setupCommit_open hr hb, State.setupCommit_applied hs hk]
    exact ⟨_, rfl, State.applyCommit_comm, rfl, rfl⟩
  case pending => rw [exec_setupSeal_open hr hb, State.setupSeal_pending hs hp]
  case seals =>
    obtain ⟨ds, c, h⟩ := State.setupSeal_done hs hp
    rw [exec_setupSeal_open hr hb, h]
    exact ⟨_, rfl, rfl, rfl, rfl, rfl, rfl, rfl⟩

/-! ### Power-on (R353, R354) -/

/-- A word that neither table lists reads its Cold value. -/
theorem State.reset_regs (off : Nat) :
    State.reset.reg off = (coldReg off).toNat ∧ State.reset.shadowReg off = (coldReg off).toNat := ⟨rfl, rfl⟩

/-- Settles O7: every table is empty after power-on, so each entry reads its default. -/
theorem resetLeavesTheColdState : Obligations.ResetLeavesTheColdState :=
  ⟨State.reset_regs, rfl, rfl, rfl, fun _ _ => ⟨rfl, rfl, rfl⟩, fun _ => ⟨rfl, rfl⟩, fun _ => rfl, fun _ => ⟨rfl, rfl, rfl⟩,
    fun _ => ⟨rfl, rfl, rfl⟩, fun _ => rfl, rfl, rfl, rfl, rfl⟩

end Sys2Proof.Machine
end

section
/-! SUPPORT. Proofs about the HBM pool and the events of the channeliser and the stacks: what MEM_ALLOC answers by the check of R92
that decides, what MEM_FREE erases, when a gain switch or a statistics interval takes effect, and what an uncorrectable read
does to the pass that needed it. -/

namespace Sys2Proof.Machine

open Sys2Proof

/-! ### Tables in any form -/

section
variable {α : Type} {d : α}

/-- An erased index reads its default, in a table of any form. -/
theorem getT_clearRun (t : Tab α) {a n k : Nat} (h1 : a ≤ k) (h2 : k < a + n) : getT d (clearRun t a n) k = d := by
  unfold clearRun
  induction t with
  | nil => rfl
  | cons e r ih =>
    obtain ⟨b, v⟩ := e
    rw [List.filter_cons]
    split
    · rename_i hb
      have hk : k ≠ b := by simp only [Bool.or_eq_true, decide_eq_true_eq] at hb; omega
      simp [getT, hk, ih]
    · exact ih

end

section
variable {s : State} {d e k : Nat}

/-- A rewritten entry that is not the default reads back, in a table of any form. -/
theorem State.modDie_die_ne {f : Die → Die} (h : f (s.die d) ≠ {}) : (s.modDie d f).die d = f (s.die d) := getT_setT_ne _ _ _ _ h

theorem State.modDie_die_other {f : Die → Die} (h : e ≠ d) : (s.modDie d f).die e = s.die e := getT_setT_other _ _ _ _ _ h

theorem State.modStack_stack_ne {f : Stack → Stack} (h : f (s.stack d k) ≠ {}) : (s.modStack d k f).stack d k = f (s.stack d k) :=
  getT_setT_ne _ _ _ _ h

/-- Only the die's present value matters to a rewrite of it. -/
theorem State.modDie_congr {f g : Die → Die} (h : f (s.die d) = g (s.die d)) : s.modDie d f = s.modDie d g := by
  have h' : f (getT {} s.dies d) = g (getT {} s.dies d) := h
  simp only [State.modDie, modT, h']

end

/-! ### MEM_ALLOC (R92, R259) -/

section
variable {s : State}

section
variable {t d n : Nat}

theorem State.checkGranules_quota (h : s.hbmQuota t d < s.granulesOf t d + n) : s.checkGranules t d n = .quota := if_pos h

theorem State.checkGranules_capacity (hq : s.granulesOf t d + n ≤ s.hbmQuota t d) (h : s.poolSize d < s.granulesOf t d + n) :
    s.checkGranules t d n = .capacity := by
  simp [State.checkGranules, Nat.not_lt.mpr hq, h]

theorem State.checkGranules_deferred (hq : s.granulesOf t d + n ≤ s.hbmQuota t d) (he : s.granulesOf t d + n ≤ s.poolSize d)
    (h : s.poolSize d < s.poolUsed d + n) : s.checkGranules t d n = .deferred := by
  simp [State.checkGranules, Nat.not_lt.mpr hq, Nat.not_lt.mpr he, h]

theorem State.checkGranules_ok (hq : s.granulesOf t d + n ≤ s.hbmQuota t d) (he : s.granulesOf t d + n ≤ s.poolSize d)
    (h : s.poolUsed d + n ≤ s.poolSize d) : s.checkGranules t d n = .ok := by
  simp [State.checkGranules, Nat.not_lt.mpr hq, Nat.not_lt.mpr he, Nat.not_lt.mpr h]

end

variable {c : RingCmd} {r : CmdRef}

theorem State.memAlloc_zero (hn : c.arg1.toNat = 0) : s.memAlloc c r = s.complete r stConflict 0x24 0 := by
  simp [State.memAlloc, hn, State.refuse, argOff]

theorem State.memAlloc_dieOff (hn : c.arg1.toNat ≠ 0) (hd : s.dieOn (fld c.arg0.toNat 1 0) = false) :
    s.memAlloc c r = s.complete r stCapacity 0x20 0 := by
  simp [State.memAlloc, hn, hd, State.refuse, argOff]

/-- Tenant `t` owns `n` granules of die `d` under handle `h`. -/
def State.allot (s : State) (t d n h : Nat) : State :=
  { s with handles := setT none s.handles h (some { tenant := t, die := d, granules := n }) }

/-- The request waits with its handle behind those that wait already. -/
def State.enqueueAlloc (s : State) (t d n h : Nat) : State :=
  { s with allocs := s.allocs ++ [{ handle := h, tenant := t, die := d, granules := n, senior := s.now }] }

/-- A request that takes a handle, as the check of R92 that decides leaves it. -/
def State.granted (s : State) (c : RingCmd) (r : CmdRef) (h : Nat) : Admit → State
  | .quota => s.complete r stQuota 0x24 1
  | .capacity => s.complete r stCapacity 0x24 2
  | .deferred =>
    if 64 ≤ s.deferredOf c.fn then s.complete r stQuota noField 0
    else (s.enqueueAlloc c.fn (fld c.arg0.toNat 1 0) c.arg1.toNat h).complete r stDeferred
      (s.onDeck (fld c.arg0.toNat 1 0) c.arg1.toNat) h
  | .ok => (s.allot c.fn (fld c.arg0.toNat 1 0) c.arg1.toNat h).complete r stOK h 0

theorem State.memAlloc_granted {h : Nat} {a : Admit} (hn : c.arg1.toNat ≠ 0) (hd : s.dieOn (fld c.arg0.toNat 1 0) = true)
    (hh : s.freeHandle = some h) (ha : s.checkGranules c.fn (fld c.arg0.toNat 1 0) c.arg1.toNat = a) :
    s.memAlloc c r = s.granted c r h a := by
  cases a <;> simp [State.memAlloc, State.granted, State.allot, State.enqueueAlloc, hn, hd, hh, ha, State.refuse, argOff]

theorem exec_memAlloc_starts (hs : s.starts false c = true) :
    exec (.memAlloc c) s = .next ((s.started c).memAlloc c (s.refOf c 0x03)) :=
  congrArg Host.Outcome.next (startCmd_starts hs)

/-! ### MEM_FREE (R259) -/

theorem State.memFree_unheld (h : getT none s.handles c.arg0.toNat = none) : s.memFree c r = s.complete r stConflict 0x20 0 := by
  simp [State.memFree, h, State.refuse, argOff]

theorem State.memFree_foreign {a : Handle} (h : getT none s.handles c.arg0.toNat = some a) (ht : a.tenant ≠ c.fn.val) :
    s.memFree c r = s.complete r stConflict 0x20 0 := by
  simp [State.memFree, h, ht, State.refuse, argOff]

theorem State.memFree_own {a : Handle} (h : getT none s.handles c.arg0.toNat = some a) (ht : a.tenant = c.fn.val)
    (hb : s.handleBusy c.arg0.toNat = false) : s.memFree c r = (s.freeAlloc c.arg0.toNat).complete r stOK 0 0 := by
  simp [State.memFree, h, ht, hb]

/-- A released allocation reads 0 throughout. -/
theorem State.freeAlloc_hbmRead (h : Nat) {b : Nat} (hb : b < 2 ^ 36) : (s.freeAlloc h).hbmRead (h * 2 ^ 36 + b) 1 = [0] :=
  congrArg (fun v => [v]) (getT_clearRun s.hbm (by unfold hbmAddr; omega) (by unfold hbmAddr; omega))

theorem exec_memFree_starts (hs : s.starts false c = true) :
    exec (.memFree c) s = .next ((s.started c).memFree c (s.refOf c 0x04)) :=
  congrArg Host.Outcome.next (startCmd_starts hs)

/-- The start of a command takes no time. -/
theorem State.started_now {pf : Bool} (hs : s.starts pf c = true) : (s.started c).now = s.now := by
  rw [started_eq hs]; rfl

/-- The start of a command moves no allocation. -/
theorem State.started_handles {pf : Bool} (hs : s.starts pf c = true) : (s.started c).handles = s.handles := by
  rw [started_eq hs]; rfl

end

/-- Settles O17, by the check of R92 that decides a request, and by who holds the handle that is freed. -/
theorem allocationsFollowQuotaAndPool : Obligations.AllocationsFollowQuotaAndPool := by
  intro c s hs
  rw [exec_memAlloc_starts hs, exec_memFree_starts hs, ← State.started_handles hs, ← State.started_now hs]
  refine ⟨fun hn => ?zero, fun hn hd => ?dieOff,
    fun h hn hd hh => ⟨fun hq => ?quota, fun hq he => ?capacity, fun hq he hp hw => ?deferred, fun hq he hp => ?ok⟩,
    fun a ha => ⟨fun ht => ?foreign, fun ht hb => ⟨?own, fun b => State.freeAlloc_hbmRead _⟩⟩, fun ha => ?unheld⟩
  case zero => rw [State.memAlloc_zero hn]
  case dieOff => rw [State.memAlloc_dieOff hn hd]
  case quota => rw [State.memAlloc_granted hn hd hh (State.checkGranules_quota hq)]; rfl
  case capacity => rw [State.memAlloc_granted hn hd hh (State.checkGranules_capacity hq he)]; rfl
  case deferred =>
    rw [State.memAlloc_granted hn hd hh (State.checkGranules_deferred hq he hp)]
    exact congrArg Host.Outcome.next (if_neg (by omega))
  case ok => rw [State.memAlloc_granted hn hd hh (State.checkGranules_ok hq he hp)]; rfl
  case foreign => rw [State.memFree_foreign ha ht]
  case own => rw [State.memFree_own ha ht hb]
  case unheld => rw [State.memFree_unheld ha]

/-! ### Gain switches and statistics intervals (R81, R84) -/

section
variable {s : State}

section
variable {d t slot : Nat}

theorem State.gainSwitch_loaded {gs : List (BitVec 16)} (hl : (s.die d).gainLoad = some (t, gs))
    (ha : (s.switchCtr d t && s.autoDue d t) = false) :
    s.gainSwitch d t =
      (s.modDie d fun y => { y with gains := (t, setRun 0x1000 [] 0 gs) :: y.gains, gainLoad := none }).unsetMeans d (t / 1024) true := by
  simp [State.gainSwitch, hl, ha]

theorem State.gainSwitch_idle (hl : (s.die d).gainLoad = none) (ha : (s.switchCtr d t && s.autoDue d t) = false) :
    s.gainSwitch d t = s := by
  simp [State.gainSwitch, hl, ha]

/-- A die after an interval has ended: the 8 newest are held, and the counts of interval `iv` are taken. -/
def Die.endInterval (x : StatIv) (iv sat : Nat) (y : Die) : Die :=
  { y with stats := (y.stats ++ [x]).drop (y.stats.length + 1 - 8), srcSat := y.srcSat.filter (fun e => e.1 / 65536 != iv),
           satAny := sat }

theorem Die.endInterval_last (x : StatIv) (iv sat : Nat) (y : Die) : (y.endInterval x iv sat).stats.getLast? = some x := by
  have h : ¬ (y.stats ++ [x]).length ≤ y.stats.length + 1 - 8 := by
    rw [List.length_append, List.length_singleton]
    omega
  simp only [Die.endInterval, List.getLast?_drop, if_neg h, List.getLast?_concat]

theorem Die.endInterval_length (x : StatIv) (iv sat : Nat) (y : Die) : (y.endInterval x iv sat).stats.length ≤ 8 := by
  simp only [Die.endInterval, List.length_drop, List.length_append, List.length_singleton]
  omega

/-- A die that holds an interval is not in its initial state. -/
theorem Die.endInterval_ne (x : StatIv) (iv sat : Nat) (y : Die) : y.endInterval x iv sat ≠ {} := fun h => by
  have hl := Die.endInterval_last x iv sat y
  rw [h] at hl
  cases hl

theorem State.statsEnd_between (h : 1024 * slot % s.statLen ≠ 0) : s.statsEnd d slot = s := by
  simp [State.statsEnd, h]

/-- At the end of an interval the die takes the interval that begins at the slot. -/
theorem State.statsEnd_due (h : 1024 * slot % s.statLen = 0) :
    ∃ es iv sat, s.statsEnd d slot = s.modDie d (Die.endInterval { firstSlot := slot, entries := es } iv sat) := by
  simp only [State.statsEnd, h, bne_self_eq_false, Bool.false_eq_true, if_false]
  exact ⟨_, _, _, rfl⟩

end

/-! ### When the events of a die take effect -/

variable {d : Fin 4} {k : Fin 2} {t slot fine band x : Nat} {cel : Byte} {ue : Bool}

theorem exec_gainSwitch_on (hd : s.dieOn d = true) (hr : s.inReset (12 + d) = false) :
    exec (.gainSwitch d t) s = .next (s.gainSwitch d t) :=
  congrArg Host.Outcome.next (if_pos (by simp [hd, hr]))

theorem exec_statsIntervalEnd_on (hd : s.dieOn d = true) (hr : s.inReset (12 + d) = false) :
    exec (.statsIntervalEnd d slot) s = .next (s.statsEnd d slot) :=
  congrArg Host.Outcome.next (if_pos (by simp [hd, hr]))

theorem exec_slotPowerCompare_on (hd : s.dieOn d = true) (hr : s.inReset (12 + d) = false) :
    exec (.slotPowerCompare d slot) s = .next ((s.comparePowers d slot).extendOpen d slot) :=
  congrArg Host.Outcome.next (if_pos (by simp [hd, hr]))

/-- Nothing reaches a die that is not on. -/
theorem exec_dieEvents_off (hd : s.dieOn d = false) :
    exec (.gainSwitch d t) s = .next s ∧ exec (.statsIntervalEnd d slot) s = .next s ∧
    exec (.slotPowerCompare d slot) s = .next s ∧ exec (.hbmReadReturn d k true fine band x) s = .next s :=
  ⟨congrArg Host.Outcome.next (if_neg (by simp [hd])), congrArg Host.Outcome.next (if_neg (by simp [hd])),
    congrArg Host.Outcome.next (if_neg (by simp [hd])), congrArg Host.Outcome.next (if_pos (by simp [hd]))⟩

/-- What the end of an interval changes: the statistics of one die, of which the newest is the interval's. -/
theorem exec_statsIntervalEnd_due (hd : s.dieOn d = true) (hr : s.inReset (12 + d) = false) (h : 1024 * slot % s.statLen = 0) :
    ∃ u, exec (.statsIntervalEnd d slot) s = .next u ∧ u = { s with dies := u.dies } ∧ (∀ e, e ≠ d.val → u.die e = s.die e) ∧
      ((u.die d).stats.getLast?.map (·.firstSlot)) = some slot ∧ (u.die d).stats.length ≤ 8 ∧
      (u.die d).coarse = (s.die d).coarse ∧ (u.die d).gains = (s.die d).gains := by
  obtain ⟨es, iv, sat, hu⟩ := State.statsEnd_due (d := d) h
  have hdie := State.modDie_die_ne (Die.endInterval_ne { firstSlot := slot, entries := es } iv sat (s.die d))
  rw [exec_statsIntervalEnd_on hd hr, hu]
  refine ⟨_, rfl, rfl, fun e he => State.modDie_die_other he, ?_⟩
  rw [hdie, Die.endInterval_last]
  exact ⟨rfl, Die.endInterval_length _ _ _ _, rfl, rfl⟩

/-! ### Temperature and refresh (R94) -/

theorem exec_hbmTempRead_cool (h : cel.toNat ≤ 95) :
    exec (.hbmTempRead d k cel) s = .next (s.modStack d k fun y => { y with temp := cel, hot := decide (85 < cel.toNat) }) :=
  congrArg Host.Outcome.next (if_neg (Nat.not_lt.mpr h))

theorem exec_hbmTempRead_over (h : 95 < cel.toNat) :
    exec (.hbmTempRead d k cel) s = .next (((s.modStack d k fun y => { y with temp := cel, hot := true }).modStack d k
      fun y => { y with overtemp := true }).postEvt 0 0x03 0 5 d (2 * d.val + k.val) 0) := by
  have hot : 85 < cel.toNat := by omega
  have he : exec (.hbmTempRead d k cel) s = execHbmTempRead d k cel s := rfl
  simp only [he, execHbmTempRead, if_pos h, decide_eq_true hot]

/-- A stack that has been refreshed is not in its initial state, so it reads back as written. -/
theorem State.refreshed_stack (d k : Nat) :
    (s.modStack d k fun y => { y with refX2 := y.hot, refreshes := y.refreshes + 1 }).stack d k =
      { s.stack d k with refX2 := (s.stack d k).hot, refreshes := (s.stack d k).refreshes + 1 } :=
  State.modStack_stack_ne fun h => absurd (congrArg Stack.refreshes h) (Nat.succ_ne_zero _)

theorem exec_hbmRefresh_due :
    ∃ u, exec (.hbmRefresh d k) s = .next u ∧ u = { s with hbmStacks := u.hbmStacks } ∧ (u.stack d k).refX2 = (s.stack d k).hot ∧
      (u.stack d k).refreshes = (s.stack d k).refreshes + 1 ∧ (u.stack d k).temp = (s.stack d k).temp := by
  refine ⟨_, rfl, rfl, ?_⟩
  rw [State.refreshed_stack]
  exact ⟨rfl, rfl, rfl⟩

/-! ### Reads that return (R95, R165) -/

theorem exec_hbmReadReturn_reset (hd : s.dieOn d = true) (hr : s.inReset d = true) :
    exec (.hbmReadReturn d k ue fine band x) s = .next (s.absorb d) := by
  refine congrArg Host.Outcome.next ((if_neg ?_).trans (if_pos hr))
  simp [hd]

theorem exec_hbmReadReturn_on (hd : s.dieOn d = true) (hr : s.inReset d = false) :
    exec (.hbmReadReturn d k ue fine band x) s = .next (s.readReturn d k ue fine band x) := by
  refine congrArg Host.Outcome.next ((if_neg ?_).trans (if_neg ?_)) <;> simp [hd, hr]

end

section
variable {s : State} {d k fine band x : Nat} {p : Pass} {r : List Pass}

theorem State.readReturn_corrected : s.readReturn d k false fine band x = s := rfl

/-- The brick is absent to the regular pass that needed it, and the error joins a log that is not full. -/
theorem State.readReturn_regular (hp : takeFirst (fun q => q.running && q.reads fine band) (s.die d).passes = some (p, r))
    (hc : p.correct = none) (hl : (s.die d).ueLog.length < 1024) :
    s.readReturn d k true fine band x = (s.modStack d k fun y => { y with ue := satTo 0xFFFF (y.ue + 1) }).modDie d fun y =>
      { y with ueLog := y.ueLog ++ [(fine, band, x)], ueOverflow := y.ueOverflow,
               passes := mapIf (fun q => q == p) (fun q => { q with ue := q.ue ++ [(fine, band, x)] }) y.passes } := by
  have hd : (s.modStack d k fun y => { y with ue := satTo 0xFFFF (y.ue + 1) }).die d = s.die d := rfl
  simp only [State.readReturn, Bool.not_true, Bool.false_eq_true, if_false, hd, hp, hc]
  refine State.modDie_congr ?_
  have hf : decide (1024 ≤ (s.die d).ueLog.length) = false := decide_eq_false (by omega)
  simp only [hd, if_pos hl, hf, Bool.or_false]

/-- The part that a correction's pass amends fails as a whole. -/
theorem State.readReturn_correction {key : Nat × Nat × Nat}
    (hp : takeFirst (fun q => q.running && q.reads fine band) (s.die d).passes = some (p, r)) (hc : p.correct = some key) :
    s.readReturn d k true fine band x = (s.modStack d k fun y => { y with ue := satTo 0xFFFF (y.ue + 1) }).failPart d key := by
  have hd : (s.modStack d k fun y => { y with ue := satTo 0xFFFF (y.ue + 1) }).die d = s.die d := rfl
  simp only [State.readReturn, Bool.not_true, Bool.false_eq_true, if_false, hd, hp, hc]

end

/-- Settles O39, event by event: whether the die is on and out of reset, then whether the event is due. -/
theorem channeliserAndStackEvents : Obligations.ChanneliserAndStackEvents := by
  intro d k t slot fine band x cel s
  refine ⟨fun hd hr => ⟨fun gs hl ha => ?loaded, fun hl ha => ?idle, fun h => ?between, exec_statsIntervalEnd_due hd hr,
      exec_slotPowerCompare_on hd hr⟩,
    exec_dieEvents_off, exec_hbmTempRead_cool, exec_hbmTempRead_over, exec_hbmRefresh_due, exec_hbmReadReturn_reset,
    fun hd hr => ⟨?corrected, fun p r hp hc hl => ?regular, fun p r key hp hc => ?correction⟩⟩
  case loaded => rw [exec_gainSwitch_on hd hr, State.gainSwitch_loaded hl ha]
  case idle => rw [exec_gainSwitch_on hd hr, State.gainSwitch_idle hl ha]
  case between => rw [exec_statsIntervalEnd_on hd hr, State.statsEnd_between h]
  case corrected => rw [exec_hbmReadReturn_on hd hr, State.readReturn_corrected]
  case regular => rw [exec_hbmReadReturn_on hd hr, State.readReturn_regular hp hc hl]
  case correction => rw [exec_hbmReadReturn_on hd hr, State.readReturn_correction hp hc]

end Sys2Proof.Machine
end

section
/-! SUPPORT. Proofs about correlation: what SUBARRAY_START, SUBARRAY_STOP, PLAN_LOAD and PLAN_READ do by the check that decides,
which pass PASS_SWITCH ends, and how a drained pass or a finished correction becomes records of its die. -/

namespace Sys2Proof.Machine

open Sys2Proof

section
variable {s : State} {c : RingCmd} {r : CmdRef}

/-! ### SUBARRAY_START and SUBARRAY_STOP (R104, R259, R260) -/

section
variable {ps : List Param}

/-- A parameter list in order leaves the start to the checks of Table 4.3. -/
theorem State.subStart_badCheck {f : Fail} (hp : paramList c.buf c.arg0.toNat subItems = .ok ps) (hl : subListOk ps = .ok ())
    (hf : s.subChecks c.fn ps (signalList c.buf (paramD ps 1 0 0)) = .error f) :
    s.subStart c r = s.complete r f.status f.field f.check := by
  simp only [State.subStart, hp, hl, hf, State.failWith, State.refuse]

/-- The subarray takes the lowest free plan number. -/
theorem State.subStart_numbered {k : Nat} (hp : paramList c.buf c.arg0.toNat subItems = .ok ps) (hl : subListOk ps = .ok ())
    (hc : s.subChecks c.fn ps (signalList c.buf (paramD ps 1 0 0)) = .ok ()) (hk : s.freePlan = some k) :
    s.subStart c r =
      { s with subs := setT {} s.subs k (s.subOfParams c.fn ps ((signalList c.buf (paramD ps 1 0 0)).getD []) r) } := by
  simp only [State.subStart, hp, hl, hc, hk]

theorem State.subStart_noNumber (hp : paramList c.buf c.arg0.toNat subItems = .ok ps) (hl : subListOk ps = .ok ())
    (hc : s.subChecks c.fn ps (signalList c.buf (paramD ps 1 0 0)) = .ok ()) (hk : s.freePlan = none) :
    s.subStart c r = s.complete r stCapacity noField 0 := by
  simp only [State.subStart, hp, hl, hc, hk, State.refuse]

end

theorem exec_subarrayStart_starts (hs : s.starts false c = true) :
    exec (.subarrayStart c) s = .next ((s.started c).subStart c (s.refOf c 0x10)) :=
  congrArg Host.Outcome.next (startCmd_starts hs)

theorem exec_subarrayStop_own (hs : s.starts false c = true) (ho : (s.started c).subOk c.fn c.arg0.toNat = true) :
    exec (.subarrayStop c) s = .next ((s.started c).modGrid fun g =>
      { g with stops := g.stops ++ [(s.refOf c 0x11, false, c.arg0.toNat)] }) :=
  congrArg Host.Outcome.next ((startCmd_starts hs).trans (if_pos ho))

theorem exec_subarrayStop_other (hs : s.starts false c = true) (ho : (s.started c).subOk c.fn c.arg0.toNat = false) :
    exec (.subarrayStop c) s = .next ((s.started c).complete (s.refOf c 0x11) stConflict (argOff 0) 0) :=
  congrArg Host.Outcome.next ((startCmd_starts hs).trans (if_neg (by simp [ho])))

/-! ### PLAN_LOAD (R110, R111) -/

/-- The plan that a plan buffer carries for its die. -/
def loadedPlan (b : List Byte) : Expert :=
  { die := fld (planW b 1) 17 16, passes := fld (planW b 2) 15 0, jobs := planEntries b }

theorem State.planLoad_other (ho : s.subOk c.fn c.arg0.toNat = false) :
    s.planLoad c r = s.complete r stConflict (argOff 0) 0 := by
  simp [State.planLoad, ho, State.refuse]

/-- A plan that passes Table 4.6 replaces the one held for its die. -/
theorem State.planLoad_held (ho : s.subOk c.fn c.arg0.toNat = true) (hlen : 32 ≤ c.buf.length) (hh : planHeadOk c.buf = true)
    (hm : s.planMatches (s.subr c.arg0.toNat) c.buf = true) (hb : s.planBad (s.subr c.arg0.toNat) c.buf = none) :
    s.planLoad c r = (s.modSub c.arg0.toNat fun x => { x with
      expertNext := x.expertNext.filter (fun y => y.die != (loadedPlan c.buf).die) ++ [loadedPlan c.buf] }).complete r stOK 0 0 := by
  simp [State.planLoad, loadedPlan, ho, Nat.not_lt.mpr hlen, hh, hm, hb]

theorem exec_planLoad_starts (hs : s.starts false c = true) :
    exec (.planLoad c) s = .next ((s.started c).planLoad c (s.refOf c 0x12)) :=
  congrArg Host.Outcome.next (startCmd_starts hs)

/-! ### PLAN_READ (R108, R267) -/

/-- Result bytes that fit a buffer with a translation are written there. -/
theorem State.writeRes_fits {bs : List Byte} {k : State → State} {w : State} {a : Nat} (hlen : bs.length ≤ c.resLen)
    (ht : s.translate c.fn c.resIova.toNat true c.resAcc = (w, some a)) :
    s.writeRes c r bs k = k (w.emit (.hostWrite c.fn c.resIova.toNat bs)) := by
  rw [State.writeRes, if_neg (Nat.not_lt.mpr hlen), ht]

/-- The plan of a block period is held under the period's number, and in it under the die. -/
theorem State.planRead_held {b d : Nat} {l : List (Nat × List (List Job))} {ps : List (List Job)}
    (hn : (s.subr c.arg0.toNat).status ≠ .free) (ht : (s.subr c.arg0.toNat).tenant = c.fn.val)
    (hb : (s.subr c.arg0.toNat).plans.find? (fun e => e.1 % 2 ^ 32 == c.arg2.toNat) = some (b, l))
    (hd : l.find? (fun e => e.1 == fld c.arg1.toNat 1 0) = some (d, ps)) :
    s.planRead c r =
      (let bs := s.planBytes (fld c.arg1.toNat 1 0) (s.subr c.arg0.toNat) ps
       s.writeRes c r bs fun s => s.complete r stOK bs.length 0) := by
  have hown : ((s.subr c.arg0.toNat).status == .free || (s.subr c.arg0.toNat).tenant != c.fn) = false := by simp [hn, ht]
  simp only [State.planRead, hown, Bool.false_eq_true, if_false, hb, hd]

theorem exec_planRead_starts (hs : s.starts false c = true) :
    exec (.planRead c) s = .next ((s.started c).planRead c (s.refOf c 0x13)) :=
  congrArg Host.Outcome.next (startCmd_starts hs)

end

/-- Settles O40, command by command and by the check that decides. -/
theorem subarrayCommands : Obligations.SubarrayCommands := by
  intro c s hs
  rw [exec_subarrayStart_starts hs, exec_planLoad_starts hs, exec_planRead_starts hs]
  refine ⟨fun ps hp hl => ⟨fun f hf => ?badCheck, fun hc => ⟨fun k hk => ?numbered, fun hk => ?noNumber⟩⟩,
    exec_subarrayStop_own hs, fun ho => ⟨exec_subarrayStop_other hs ho, ?other⟩,
    fun ho hlen hh hm hb => ?load, fun b l d ps w a hn ht hb hd hlen hw => ?read⟩
  case badCheck => rw [State.subStart_badCheck hp hl hf]
  case numbered => rw [State.subStart_numbered hp hl hc hk]
  case noNumber => rw [State.subStart_noNumber hp hl hc hk]
  case other => rw [State.planLoad_other ho]
  case load => exact congrArg Host.Outcome.next (State.planLoad_held ho hlen hh hm hb)
  case read => exact congrArg Host.Outcome.next ((State.planRead_held hn ht hb hd).trans (State.writeRes_fits hlen hw))

/-! ### PASS_SWITCH (R102) -/

/-- Nothing is taken exactly when nothing meets the predicate. -/
theorem takeFirst_eq_none {α : Type} {p : α → Bool} {l : List α} : takeFirst p l = none ↔ l.all (fun x => !p x) = true := by
  induction l with
  | nil => simp [takeFirst]
  | cons x l ih => cases hx : p x <;> simp [takeFirst, hx, ih]

section
variable {s : State} {d : Nat} {p : Pass} {rest : List Pass}

theorem State.passSwitch_idle (h : (s.die d).passes.all (fun p => !p.running) = true) : s.passSwitch d = s := by
  simp only [State.passSwitch, takeFirst_eq_none.mpr h]

theorem State.passSwitch_regular (h : takeFirst (fun p => p.running) (s.die d).passes = some (p, rest)) (hc : p.correct = none) :
    s.passSwitch d =
      (((((s.modDie d fun y => { y with passes := rest }).endRegular d p).residentCatchUp d p).effectAll d).startNext d).completeFlagPosts := by
  simp only [State.passSwitch, h, hc]

theorem State.passSwitch_correction {k : Nat × Nat × Nat} (h : takeFirst (fun p => p.running) (s.die d).passes = some (p, rest))
    (hc : p.correct = some k) :
    s.passSwitch d =
      ((((s.modDie d fun y => { y with passes := rest }).endCorrection d p k).effectAll d).startNext d).completeFlagPosts := by
  simp only [State.passSwitch, h, hc]

theorem exec_passSwitch_on {d : Fin 4} (hd : s.dieOn d = true) (hr : s.inReset d = false) :
    exec (.passSwitch d) s = .next (s.passSwitch d) :=
  congrArg Host.Outcome.next (if_pos (by simp [hd, hr]))

/-- Nothing ends on a die that is off, in reset, or without a running pass. -/
theorem exec_passSwitch_idle {d : Fin 4}
    (h : s.dieOn d = false ∨ s.inReset d = true ∨ (s.die d).passes.all (fun p => !p.running) = true) :
    exec (.passSwitch d) s = .next s := by
  refine congrArg Host.Outcome.next ?_
  rcases h with hd | hr | hp
  · exact if_neg (by simp [hd])
  · exact if_neg (by simp [hr])
  · rw [State.passSwitch_idle hp, ite_self]

end

/-! ### Records of a die (R73, R103) -/

section
variable {s : State} {d : Nat}

section
variable {dest : Nat} {r : Rec}

/-- A record that the tenant's staging cannot hold is lost. -/
theorem State.emitDie_full (h : s.stagingCap r.tenant < s.stagingUsed d r.tenant + r.len) :
    s.emitDie d dest r = (s.dataLost r, false) := if_pos h

/-- A record for the lanes that staging can hold queues whole on the lane that RECORD_PLACE picks. -/
theorem State.emitDie_lane {l : Nat} (h : s.stagingUsed d r.tenant + r.len ≤ s.stagingCap r.tenant) (hl : s.placeLane d = some l) :
    s.emitDie d 0 r =
      ((s.addStaging d r.tenant r.len).modOutLane l fun y => { y with queue := y.queue ++ [(r.tenant, r.bytes)] }, true) := by
  simp [State.emitDie, State.stageLane, Nat.not_lt.mpr h, hl]

end

/-! ### VIS_EMIT (R114, R117) -/

/-- The oldest drained pass has left the queue. -/
def State.dropDrained (s : State) (d : Nat) (rs : List Drained) : State := s.modDie d fun y => { y with drained := rs }

/-- The VIS record of a drained pass. -/
def State.visRec (s : State) (d : Nat) (r : Drained) : Rec :=
  let x := s.subr r.pass.sub
  s.mkRec 0x01 x.tenant r.pass.sub r.first (x.blockCtr r.first) (visBody d x r)

/-- A record that was kept counts as sent. -/
def State.sendVis (s : State) (d : Nat) (r : Drained) : State :=
  let e := s.emitDie d (s.subr r.pass.sub).dest (s.visRec d r)
  if e.2 then e.1.modSub r.pass.sub fun x => { x with visSent := modT 0 x.visSent d (· + 1) } else e.1

variable {r : Drained} {rs : List Drained}

theorem State.visEmit_idle (h : (s.die d).drained = []) : s.visEmit d = s := by
  simp only [State.visEmit, h]

theorem State.visEmit_valid {lost : Tab Nat} (h : (s.die d).drained = r :: rs) (hv : r.valid = some lost) :
    s.visEmit d = (s.dropDrained d rs).emitValid d r lost := by
  simp only [State.visEmit, h, hv, State.dropDrained]

theorem State.visEmit_record (h : (s.die d).drained = r :: rs) (hv : r.valid = none) :
    s.visEmit d = (s.dropDrained d rs).sendVis d r := by
  simp only [State.visEmit, h, hv]
  rfl

theorem State.sendVis_full
    (h : s.stagingCap (s.subr r.pass.sub).tenant < s.stagingUsed d (s.subr r.pass.sub).tenant + (s.visRec d r).len) :
    s.sendVis d r = s.dataLost (s.visRec d r) := by
  have he : s.emitDie d (s.subr r.pass.sub).dest (s.visRec d r) = (s.dataLost (s.visRec d r), false) := State.emitDie_full h
  rw [State.sendVis, he]
  rfl

theorem State.sendVis_lane {l : Nat} (hd : (s.subr r.pass.sub).dest = 0)
    (h : s.stagingUsed d (s.subr r.pass.sub).tenant + (s.visRec d r).len ≤ s.stagingCap (s.subr r.pass.sub).tenant)
    (hl : s.placeLane d = some l) :
    s.sendVis d r = (((s.addStaging d (s.subr r.pass.sub).tenant (s.visRec d r).len).modOutLane l fun y =>
      { y with queue := y.queue ++ [((s.subr r.pass.sub).tenant, (s.visRec d r).bytes)] }).modSub r.pass.sub fun y =>
        { y with visSent := modT 0 y.visSent d (· + 1) }) := by
  rw [State.sendVis, hd, State.emitDie_lane (r := s.visRec d r) h hl]
  rfl

/-! ### AMEND_EMIT (R160, R161) -/

/-- The oldest finished correction has left the queue. -/
def State.dropAmend (s : State) (d : Nat) (as : List Amend) : State := s.modDie d fun y => { y with amends := as }

/-- The AMEND record that is a whole set: sequence number 0, and the last. -/
def State.amendRec (s : State) (d : Nat) (a : Amend) (body : Nat × Nat × List Byte × List CountEnt) : Rec :=
  let x := s.subr a.part.sub
  s.mkRec 0x06 x.tenant a.part.sub a.part.block (x.blockCtr a.part.block) (amendBody d (getT 0 x.amendId d) 0 x a true body)

variable {a : Amend} {as : List Amend}

theorem State.amendEmit_idle (h : (s.die d).amends = []) : s.amendEmit d = s := by
  simp only [State.amendEmit, h]

/-- A set of one record: it is emitted under the die's next amendment number, and the part ends as the record fared. -/
theorem State.amendEmit_single {body : Nat × Nat × List Byte × List CountEnt} (h : (s.die d).amends = a :: as)
    (hb : amendRecords (s.subr a.part.sub) a ((s.dropAmend d as).countSection d a) = [body]) :
    s.amendEmit d =
      (let x := s.subr a.part.sub
       let e := (s.dropAmend d as).emitDie d x.dest ((s.dropAmend d as).amendRec d a body)
       ((e.1.modSub a.part.sub fun y => { y with amendId := setT 0 y.amendId d (getT 0 x.amendId d + 1) }).finishPart d a.part
         (if e.2 then a.part.cls else .amendLost)).completeFlagPosts) := by
  unfold State.dropAmend at hb
  simp only [State.amendEmit, h, hb, List.zipIdx_singleton, List.foldl_cons, List.foldl_nil, Bool.true_and]
  rfl

end

/-- Settles O41, event by event: whether a pass runs and of which kind, then the oldest drained pass and the oldest correction. -/
theorem passesDrainIntoRecords : Obligations.PassesDrainIntoRecords := by
  intro d s
  refine ⟨exec_passSwitch_idle, fun p rest hd hr hp => ⟨fun hc => ?regular, fun k hc => ?correction⟩,
    fun h => congrArg Host.Outcome.next (State.visEmit_idle h),
    fun r rs h => ⟨fun lost hv => ?valid, fun hv => ⟨fun hf => ?full, fun l hd hf hl => ?lane⟩⟩,
    fun h => congrArg Host.Outcome.next (State.amendEmit_idle h),
    fun a as body h hb => congrArg Host.Outcome.next (State.amendEmit_single h hb)⟩
  case regular => rw [exec_passSwitch_on hd hr, State.passSwitch_regular hp hc]
  case correction => rw [exec_passSwitch_on hd hr, State.passSwitch_correction hp hc]
  case valid => exact congrArg Host.Outcome.next (State.visEmit_valid h hv)
  case full => exact congrArg Host.Outcome.next ((State.visEmit_record h hv).trans (State.sendVis_full hf))
  case lane => exact congrArg Host.Outcome.next ((State.visEmit_record h hv).trans (State.sendVis_lane hd hf hl))

end Sys2Proof.Machine
end

section
/-! SUPPORT. Proofs about beam plans and top-k: what the commands of a plan do by the check that decides, what a sweep or a rotation
of a die hands on, which band sum leaves the hub, and which job's record the end of a sub-block gives. -/

namespace Sys2Proof.Machine

open Sys2Proof

section
variable {s : State} {c : RingCmd} {r : CmdRef}

/-! ### BEAM_START and BEAM_STOP (R129, R259, R260) -/

section
variable {ps : List Param}

/-- A parameter list in order leaves the start to the checks of Table 5.2. -/
theorem State.beamStart_badCheck {f : Fail} (hp : paramList c.buf c.arg0.toNat beamItems = .ok ps) (hl : beamListOk ps = .ok ())
    (hf : s.beamChecks c.fn ps (signalList c.buf (paramD ps 2 0 0)) = .error f) :
    s.beamStart c r = s.complete r f.status f.field f.check := by
  simp only [State.beamStart, hp, hl, hf, State.failWith, State.refuse]

/-- The plan takes the lowest free plan number, and its weights a free value. -/
theorem State.beamStart_numbered {k : Nat} (hp : paramList c.buf c.arg0.toNat beamItems = .ok ps) (hl : beamListOk ps = .ok ())
    (hc : s.beamChecks c.fn ps (signalList c.buf (paramD ps 2 0 0)) = .ok ()) (hk : s.freePlan = some k) :
    s.beamStart c r =
      { s.drawFree with beams := setT {} s.beams k (s.beamOfParams c.fn ps ((signalList c.buf (paramD ps 2 0 0)).getD []) r) } := by
  simp only [State.beamStart, hp, hl, hc, hk]

end

theorem exec_beamStart_starts (hs : s.starts false c = true) :
    exec (.beamStart c) s = .next ((s.started c).beamStart c (s.refOf c 0x18)) :=
  congrArg Host.Outcome.next (startCmd_starts hs)

theorem exec_beamStop_own (hs : s.starts false c = true) (ho : (s.started c).beamOk c.fn c.arg0.toNat = true) :
    exec (.beamStop c) s = .next (((s.started c).dropSwitch c.arg0.toNat).modGrid fun g =>
      { g with stops := g.stops ++ [(s.refOf c 0x19, true, c.arg0.toNat)] }) :=
  congrArg Host.Outcome.next ((startCmd_starts hs).trans (if_pos ho))

theorem exec_beamStop_other (hs : s.starts false c = true) (ho : (s.started c).beamOk c.fn c.arg0.toNat = false) :
    exec (.beamStop c) s = .next ((s.started c).complete (s.refOf c 0x19) stConflict (argOff 0) 0) :=
  congrArg Host.Outcome.next ((startCmd_starts hs).trans (if_neg (by simp [ho])))

/-! ### BEAM_WEIGHTS (R133, R134) -/

/-- The slot T that a BEAM_WEIGHTS names. -/
def switchSlot (c : RingCmd) : Nat := c.arg1.toNat + fld c.arg2.toNat 5 0 * 2 ^ 32

/-- The plan with weights that wait for slot `t`. -/
def Beam.pend (t : Nat) (ws : List Cx) (r : CmdRef) (b : Beam) : Beam :=
  { b with next := some { slot := t, w := { chans := sortBy id b.chans, w := ws }, cmd := some r } }

theorem State.beamWeights_other (ho : s.beamOk c.fn c.arg0.toNat = false) :
    s.beamWeights c r = s.complete r stConflict (argOff 0) 0 := by
  simp [State.beamWeights, ho, State.refuse]

section
variable (ho : s.beamOk c.fn c.arg0.toNat = true) (ht : s.switchTooClose (s.beam c.arg0.toNat) (switchSlot c) = false)
  (hn : (s.beam c.arg0.toNat).next = none)
include ho ht hn

/-- A buffer of delays and gains becomes the weights that the device computes from it. -/
theorem State.beamWeights_steer (hs : (s.beam c.arg0.toNat).steer = true) (hlen : (s.beam c.arg0.toNat).steerSize ≤ c.buf.length) :
    s.beamWeights c r =
      s.modBeam c.arg0.toNat (Beam.pend (switchSlot c) (s.steerWeights (s.beam c.arg0.toNat) c.buf) r) := by
  unfold switchSlot at *
  simp only [State.beamWeights, ho, ht, hn, hs, Nat.not_lt.mpr hlen, Bool.not_true, Bool.false_eq_true, Option.isSome_none,
    if_true, if_false]
  rfl

/-- A buffer of weights is taken as it stands, provided that it pads with zeros. -/
theorem State.beamWeights_explicit (hs : (s.beam c.arg0.toNat).steer = false)
    (hlen : 4 * (s.beam c.arg0.toNat).setSize s ≤ c.buf.length)
    (hp : (s.beam c.arg0.toNat).badPad (explicitWeights c.buf ((s.beam c.arg0.toNat).setSize s)) = none) :
    s.beamWeights c r =
      s.modBeam c.arg0.toNat (Beam.pend (switchSlot c) (explicitWeights c.buf ((s.beam c.arg0.toNat).setSize s)) r) := by
  unfold switchSlot at *
  simp only [State.beamWeights, ho, ht, hn, hs, hp, Nat.not_lt.mpr hlen, Bool.not_true, Bool.false_eq_true, Option.isSome_none,
    if_false]
  rfl

end

theorem exec_beamWeights_starts (hs : s.starts false c = true) :
    exec (.beamWeights c) s = .next ((s.started c).beamWeights c (s.refOf c 0x1A)) :=
  congrArg Host.Outcome.next (startCmd_starts hs)

/-! ### BEAM_CAPTURE (R137) -/

/-- The first and the last slot that a BEAM_CAPTURE asks for. -/
def captureLo (c : RingCmd) : Nat := (c.arg1.toNat + c.arg2.toNat * 2 ^ 32) / 1024
def captureHi (c : RingCmd) : Nat := (c.arg3.toNat + c.arg4.toNat * 2 ^ 32) / 1024

/-- The slots that a BEAM_CAPTURE asks for and that the plan's dies hold. -/
def State.capturedOf (s : State) (c : RingCmd) : List (Nat × Nat × List Byte) :=
  s.captured (fld c.arg0.toNat 30 0) (captureLo c) (captureHi c)

/-- A capture for the host writes the held slots, and its status says whether they are all. -/
theorem State.beamCapture_host (hb : (s.beam (fld c.arg0.toNat 30 0)).status.holds = true)
    (ht : (s.beam (fld c.arg0.toNat 30 0)).tenant = c.fn.val) (hc : (s.beam (fld c.arg0.toNat 30 0)).capture = true)
    (hr : captureLo c ≤ captureHi c) (hbit : bit c.arg0.toNat 31 = false) :
    s.beamCapture c r =
      (let bytes := (s.capturedOf c).flatMap (·.2.2)
       let asked := (captureHi c + 1 - captureLo c) * (s.beam (fld c.arg0.toNat 30 0)).chans.length
       s.writeRes c r bytes fun s' =>
        s'.complete r (if (s.capturedOf c).length = asked then stOK else stDataLost) bytes.length 0) := by
  unfold captureLo captureHi at hr
  have hown : (!(s.beam (fld c.arg0.toNat 30 0)).status.holds || (s.beam (fld c.arg0.toNat 30 0)).tenant != c.fn ||
    !(s.beam (fld c.arg0.toNat 30 0)).capture) = false := by simp [hb, ht, hc]
  simp only [State.beamCapture, hown, hbit, Nat.not_lt.mpr hr, Bool.false_eq_true, if_false, beq_iff_eq]
  rfl

theorem exec_beamCapture_starts (hs : s.starts false c = true) :
    exec (.beamCapture c) s = .next ((s.started c).beamCapture c (s.refOf c 0x1B)) :=
  congrArg Host.Outcome.next (startCmd_starts hs)

/-! ### TOPK_SET (R139) -/

/-- The setting that the arguments of a TOPK_SET describe. -/
def topkOfArgs (c : RingCmd) : Topk :=
  { k := fld c.arg1.toNat 3 0, sub := fld c.arg1.toNat 11 8, exclAuto := bit c.arg1.toNat 16, tshift := fld c.arg1.toNat 28 24,
    min := c.arg2.toNat + c.arg3.toNat * 2 ^ 32, dest := fld c.arg4.toNat 15 0 }

/-- A setting of a beam plan within its bounds waits for the freeze behind those that wait already. -/
theorem State.topkSet_beam (hb : bit c.arg0.toNat 31 = true) (ho : s.beamOk c.fn (fld c.arg0.toNat 30 0) = true)
    (h1 : 1 ≤ (topkOfArgs c).k) (h8 : (topkOfArgs c).k ≤ 8) (hsub : (topkOfArgs c).sub ≤ 10)
    (hd : s.destOk c.fn (topkOfArgs c).dest = true) :
    s.topkSet c r =
      ({ s with topkNext := s.topkNext ++ [(2 * fld c.arg0.toNat 30 0 + 1, topkOfArgs c)] } : State).complete r stOK 0 0 := by
  unfold topkOfArgs at *
  have hbounds : (!within 1 (fld c.arg1.toNat 3 0) 8 || decide (10 < fld c.arg1.toNat 11 8)) = false := by
    simp only [within, h1, h8, Nat.not_lt.mpr hsub, decide_true, decide_false, Bool.and_self, Bool.not_true, Bool.or_self]
  simp only [State.topkSet, hb, ho, hd, hbounds, bnat, Bool.not_true, Bool.false_and, Bool.or_false, Bool.false_eq_true, if_true, if_false]

theorem exec_topkSet_starts (hs : s.starts false c = true) :
    exec (.topkSet c) s = .next ((s.started c).topkSet c (s.refOf c 0x1C)) :=
  congrArg Host.Outcome.next (startCmd_starts hs)

end

/-- Settles O42, command by command and by the check that decides. -/
theorem beamPlanCommands : Obligations.BeamPlanCommands := by
  intro c plan s
  refine ⟨rfl, fun hs => ?_⟩
  rw [exec_beamStart_starts hs, exec_beamWeights_starts hs, exec_beamCapture_starts hs, exec_topkSet_starts hs]
  refine ⟨fun ps hp hl => ⟨fun f hf => ?badCheck, fun hc k hk => ?numbered⟩,
    fun ho => ⟨exec_beamStop_own hs ho, fun ht hn => ⟨fun hst hlen => ?steer, fun hst hlen hp => ?explicit⟩⟩,
    fun ho => ⟨exec_beamStop_other hs ho, ?other⟩, fun w a hb ht hc hr hbit hlen hw => ?capture,
    fun hb ho h1 h8 hsub hd => ?topk⟩
  case badCheck => rw [State.beamStart_badCheck hp hl hf]
  case numbered => exact congrArg Host.Outcome.next (State.beamStart_numbered hp hl hc hk)
  case steer => exact congrArg Host.Outcome.next (State.beamWeights_steer ho ht hn hst hlen)
  case explicit => exact congrArg Host.Outcome.next (State.beamWeights_explicit ho ht hn hst hlen hp)
  case other => rw [State.beamWeights_other ho]
  case capture => exact congrArg Host.Outcome.next ((State.beamCapture_host hb ht hc hr hbit).trans (State.writeRes_fits hlen hw))
  case topk => exact congrArg Host.Outcome.next (State.topkSet_beam hb ho h1 h8 hsub hd)

section
variable {s : State} {d : Nat}

/-! ### SWEEP_DELIVER and DB_WAIT_EXPIRY (R122, R123) -/

/-- The chains of the block that have been started. -/
def State.startedChains (s : State) : List (Nat × Chain) := s.chains.filter fun e => e.2.state != .free

/-- What the sweep holds for channel `pch` of die `d` and the plan that chain `x` reads. -/
def State.sweepFor (s : State) (d : Nat) (w : Sweep) (x : Chain) (pch : Nat) : Option SweepVals :=
  w.outs.find? fun o => o.plan == x.plan && s.dieOfCh pch == d && o.ch + d * s.chPerDie == pch

/-- The oldest sweep on its way has left its die. -/
def State.dropSweep (s : State) (d : Nat) (ws : List Sweep) : State := s.modDie d fun y => { y with sweepOut := ws }

theorem State.sweepDeliver_idle (h : (s.die d).sweepOut = []) : s.sweepDeliver d = s := by
  simp only [State.sweepDeliver, h]

section
variable {w : Sweep} {ws : List Sweep}

theorem State.sweepDeliver_unread (h : (s.die d).sweepOut = w :: ws) (hc : s.startedChains = []) :
    s.sweepDeliver d = (s.dropSweep d ws).trySweeps d := by
  unfold State.startedChains at hc
  simp only [State.sweepDeliver, h, State.modDie_chains, hc]
  rfl

/-- A chain of one channel takes the values of its beam; a skipped sweep counts 64 zeroed samples. -/
theorem State.sweepDeliver_read {n : Nat} {x : Chain} {o : SweepVals} (h : (s.die d).sweepOut = w :: ws)
    (hc : s.startedChains = [(n, x)]) (hm : x.m = 1) (ho : s.sweepFor d w x x.firstCh = some o) :
    s.sweepDeliver d =
      ((s.dropSweep d ws).chainInput n 0 (64 * w.n) (o.vals.getD x.beam []) (if w.skipped then 64 else 0)).trySweeps d := by
  have ho' : (s.dropSweep d ws).sweepFor d w x x.firstCh = some o := ho
  unfold State.startedChains at hc
  unfold State.sweepFor State.dropSweep at ho'
  simp only [State.sweepDeliver, h, State.modDie_chains, hc, State.forEach, hm, List.range_one, List.foldl_cons, List.foldl_nil,
    Nat.add_zero, ho']
  rfl

end

theorem State.dbWait_noSweep (h : (s.die d).sweepNext = none) : s.dbWait d = s := by
  simp only [State.dbWait, h]

/-- The wait ends only where a stream has passed the oldest sweep that waits. -/
theorem State.dbWait_next {n : Nat} (h : (s.die d).sweepNext = some n) :
    s.dbWait d =
      if s.laterDelivered d (64 * (max n (s.die d).sweepDue + 1)) then
        (s.modDie d fun y => { y with sweepDue := max n (s.die d).sweepDue + 1 }).trySweeps d
      else s := by
  simp only [State.dbWait, h]

/-! ### ROTATION_START (R124, R138) -/

/-- The buffered plans that a die runs. -/
def State.bufferedOn (s : State) (d : Nat) : List (Nat × Beam) :=
  s.beams.filter fun e => e.2.src != .direct && e.2.status.holds && !(s.chansOn d e.2.chans).isEmpty

theorem State.rotationStart_off {slot : Nat} (h : s.dieOn d = false ∨ s.inReset d = true) : s.rotationStart d slot = s := by
  refine if_pos ?_
  rcases h with h | h <;> simp [h]

/-- With no direct plan to mark, the slots before are finished and then the buffered plans rotate. -/
theorem State.rotationStart_buffered {slot : Nat} (hd : s.dieOn d = true) (hr : s.inReset d = false)
    (h : s.directOn d (1024 * slot) = []) :
    s.rotationStart d slot =
      (s.flushDirect d slot).forEach ((s.flushDirect d slot).bufferedOn d) fun s e => s.rotateBuffered d e.1 slot := by
  simp only [State.rotationStart, hd, hr, h, Bool.not_true, Bool.or_self, Bool.false_eq_true, if_false]
  rfl

/-! ### BANDSUM_TIMEOUT (R128) -/

theorem State.bandTimeout_idle {n : Nat} (h : (s.beam n).partials = []) : s.bandTimeout n = s := by
  simp only [State.bandTimeout, h, minBy]

theorem State.bandTimeout_oldest {n : Nat} {p : Partial} (h : minBy (·.first) (s.beam n).partials = some p) :
    s.bandTimeout n = (s.emitBand n p.first).modBeam n fun b => { b with bandDone := max b.bandDone (p.first + b.int) } := by
  simp only [State.bandTimeout, h]

/-! ### SUBBLOCK_END (R140) -/

variable {tile sb : Nat}

theorem State.subblockEnd_off (h : s.dieOn d = false ∨ s.inReset d = true) : s.subblockEnd d tile sb = s := by
  refine if_pos ?_
  rcases h with h | h <;> simp [h]

/-- A plan with no top-k setting gives no record. -/
theorem State.beamSubblock_unset {n : Nat} {jobs : List (Nat × Nat × Nat × Nat)} (h : (s.topk (2 * n + 1)).k = 0) :
    s.beamSubblock d tile sb n jobs = s :=
  if_pos (by simp [h])

/-- What a tile of die `d` works on for the regular passes that run: pass, job and the pair's place in the job. -/
def State.corrJobs (s : State) (d tile : Nat) : List (Pass × Job × Nat) :=
  (s.die d).passes.flatMap fun p =>
    if p.running && p.correct.isNone then ((passTiles p).filter fun e => e.2.1 == tile).map fun e => (p, e.2.2.1, e.2.2.2) else []

theorem State.corrJobs_idle (h : ∀ p ∈ (s.die d).passes, p.running = false) : s.corrJobs d tile = [] :=
  List.flatMap_eq_nil_iff.mpr fun p hp => by rw [h p hp]; rfl

theorem State.corrJobs_single {p : Pass} {j : Job} {i o : Nat} (hp : (s.die d).passes = [p]) (hr : p.running = true) (hc : p.correct = none)
    (ht : (passTiles p).filter (fun e => e.2.1 == tile) = [(i, tile, j, o)]) : s.corrJobs d tile = [(p, j, o)] := by
  simp [State.corrJobs, hp, hr, hc, ht]

section
variable (hd : s.dieOn d = true) (hr : s.inReset d = false)
include hd hr

/-- In beam mode each plan with a job on the tile gives its own record. -/
theorem State.subblockEnd_beam (ht : (s.tile d tile).beam = true) :
    s.subblockEnd d tile sb = s.forEach (dedup ((s.tile d tile).jobs.map (·.1))) fun u n =>
      u.beamSubblock d tile sb n ((s.tile d tile).jobs.filter fun e => e.1 == n) := by
  simp only [State.subblockEnd, hd, hr, ht, Bool.not_true, Bool.or_self, Bool.false_eq_true, if_true, if_false]

/-- In correlation mode the first job of the running passes on the tile gives the record. -/
theorem State.subblockEnd_corr (ht : (s.tile d tile).beam = false) :
    s.subblockEnd d tile sb =
      (s.corrJobs d tile).head?.elim s fun e => s.corrSubblock d tile sb e.1 e.2.1 e.2.2 := by
  simp only [State.subblockEnd, hd, hr, ht, Bool.not_true, Bool.or_self, Bool.false_eq_true, if_false]
  change (match s.corrJobs d tile with | (p, j, o) :: _ => s.corrSubblock d tile sb p j o | [] => s) = _
  cases s.corrJobs d tile <;> rfl

end

end

section
variable {s : State} {d : Fin 4}

theorem exec_sweepDeliver : exec (.sweepDeliver d) s = .next (s.sweepDeliver d) := rfl
theorem exec_dbWaitExpiry : exec (.dbWaitExpiry d) s = .next (s.dbWait d) := rfl
theorem exec_rotationStart {slot : Nat} : exec (.rotationStart d slot) s = .next (s.rotationStart d slot) := rfl
theorem exec_subblockEnd {tile : Fin 256} {sb : Nat} : exec (.subblockEnd d tile sb) s = .next (s.subblockEnd d tile sb) := rfl
theorem exec_bandsumTimeout {plan : Fin 4096} : exec (.bandsumTimeout plan) s = .next (s.bandTimeout plan) := rfl

end

/-- Settles O43, event by event: what is on its way, then whether the die is on and out of reset, then what the tile works on. -/
theorem beamSweepsRotationsAndTopK : Obligations.BeamSweepsRotationsAndTopK := by
  intro d slot sb tile plan s
  rw [exec_bandsumTimeout]
  refine ⟨fun h => ?idle,
    fun w ws h => ⟨fun hc => ?unread, fun n x o hc hm ho => ?read⟩,
    fun h => ?noSweep,
    fun n h => ⟨fun hl => ?waited, fun hl => ?waiting⟩,
    fun h => ⟨?rotationOff, ?subblockOff⟩,
    fun hd hr => ⟨fun h l hl => ⟨fun hn => ?noPlan, fun n b hb => ?onePlan⟩,
      fun ht hj => ?noJob, fun n ht hj => ⟨?beamJob, fun hk => ?unset⟩, fun ht hp => ?noPass, fun p j o i ht hp hrun hc hj => ?corrJob⟩,
    fun h => ?noBand, fun p h => ?oldestBand⟩
  case idle => rw [exec_sweepDeliver, State.sweepDeliver_idle h]
  case unread => rw [exec_sweepDeliver, State.sweepDeliver_unread h hc]; rfl
  case read => rw [exec_sweepDeliver, State.sweepDeliver_read h hc hm ho]; rfl
  case noSweep => rw [exec_dbWaitExpiry, State.dbWait_noSweep h]
  case waited => rw [exec_dbWaitExpiry, State.dbWait_next h, if_pos hl]
  case waiting => rw [exec_dbWaitExpiry, State.dbWait_next h, if_neg (by simp [hl])]
  case rotationOff => rw [exec_rotationStart, State.rotationStart_off h]
  case subblockOff => rw [exec_subblockEnd, State.subblockEnd_off h]
  case noPlan => rw [exec_rotationStart, State.rotationStart_buffered hd hr h, State.bufferedOn, hl, hn]; rfl
  case onePlan => rw [exec_rotationStart, State.rotationStart_buffered hd hr h, State.bufferedOn, hl, hb]; rfl
  case noJob => rw [exec_subblockEnd, State.subblockEnd_beam hd hr ht, hj]; rfl
  case beamJob => rw [exec_subblockEnd, State.subblockEnd_beam hd hr ht, hj]; rfl
  case unset =>
    rw [exec_subblockEnd, State.subblockEnd_beam hd hr ht, hj]
    exact congrArg Host.Outcome.next (State.beamSubblock_unset hk)
  case noPass => rw [exec_subblockEnd, State.subblockEnd_corr hd hr ht, State.corrJobs_idle hp]; rfl
  case corrJob => rw [exec_subblockEnd, State.subblockEnd_corr hd hr ht, State.corrJobs_single hp hrun hc hj]; rfl
  case noBand => rw [State.bandTimeout_idle h]
  case oldestBand => rw [State.bandTimeout_oldest h]

end Sys2Proof.Machine
end

section
/-! SUPPORT. Proofs about look-ahead excision: what EXC_POLICY and FLAG_POST do by the check that decides, where the hub sends the
post that it accepts, and how a report becomes a task of the detection firmware and then flags. -/

namespace Sys2Proof.Machine

open Sys2Proof

section
variable {s : State} {c : RingCmd} {r : CmdRef}

/-! ### EXC_POLICY (R148, R221) -/

section
variable {ps : List Param} {mask : List Byte}

/-- The publishing tenants that a policy's mask subscribes to. -/
def maskTenants (mask : List Byte) : List Nat := (bitmapOf mask).filter fun p => decide (p < 256)

/-- The policy that a parameter list in order and its mask describe. -/
def policyOf (ps : List Param) (mask : List Byte) : Policy :=
  { preset := paramD ps 1 0 0, dest := paramD ps 1 1 0, pad := paramD ps 2 0 0, self := paramD ps 3 0 0, subscribe := maskTenants mask,
    latePub := paramD ps 5 0 0, lateCap := paramD ps 6 0 0 }

/-- The state in which a tenant whose policy uses firmware has it, on two engines taken where it had none. -/
def State.withFirmware (s : State) (t preset : Nat) : State :=
  if usesFirmware preset = true ∧ s.shippedOf t detImage = [] then s.shipOn ((s.takeable t).take 2) detImage else s

variable (hp : parseParams c.buf c.arg0.toNat = some ps) (hr : (List.range c.arg0.toNat).find? (paramReserved c.buf) = none)
  (hb : badPids policyItems ps = none) (hn : ∀ y ∈ policyNeeds (paramD ps 1 0 0), (param? ps y.1 y.2).isSome = true)
  (hm : paramBytes c.buf (paramD ps 4 0 0) = some mask)
include hp hr hb hn hm

theorem State.excPolicy_unknownPreset (h : 4 < paramD ps 1 0 0) :
    s.excPolicy c r = s.complete r stConflict (paramOff ps 1 0) 1 := by
  simp only [State.excPolicy, hp, hr, hb, List.all_eq_true.mpr hn, hm, h, Bool.not_true, Bool.false_eq_true, if_true, if_false,
    State.refuse]

/-- A policy within the bounds of Table 6.3 is kept for the freeze, and its firmware is there from now on. -/
theorem State.excPolicy_kept (h4 : paramD ps 1 0 0 ≤ 4)
    (hfw : usesFirmware (paramD ps 1 0 0) = true → s.destRing c.fn (paramD ps 1 1 0) = true ∧ paramD ps 2 0 0 ≤ 15 ∧ paramD ps 3 0 0 ≤ 2 ∧
      (s.shippedOf c.fn detImage ≠ [] ∨ 2 ≤ (s.takeable c.fn).length))
    (hpub : ∀ p ∈ maskTenants mask, s.pubFlag p c.fn = true) (hcap : paramD ps 6 0 0 ≤ 65535) :
    s.excPolicy c r =
      ((s.withFirmware c.fn (paramD ps 1 0 0)).modFn c.fn fun f => { f with policyNext := some (policyOf ps mask) }).complete r stOK 0 0 := by
  have hnone : ((maskTenants mask).any fun p => !s.pubFlag p c.fn) = false := by simpa using hpub
  unfold maskTenants at hnone
  unfold State.withFirmware
  cases hu : usesFirmware (paramD ps 1 0 0) with
  | false =>
    simp only [State.excPolicy, hp, hr, hb, List.all_eq_true.mpr hn, hm, hu, hnone, Nat.not_lt.mpr h4, Nat.not_lt.mpr hcap,
      Bool.not_true, Bool.false_and, Bool.false_eq_true, false_and, if_false]
    rfl
  | true =>
    obtain ⟨hdest, hpad, hself, heng⟩ := hfw hu
    have hroom : ((s.shippedOf c.fn detImage).isEmpty && decide ((s.takeable c.fn).length < 2)) = false := by
      rcases heng with h | h
      · simp [h]
      · simp [Nat.not_lt.mpr h]
    simp only [State.excPolicy, hp, hr, hb, List.all_eq_true.mpr hn, hm, hu, hdest, hroom, hnone, Nat.not_lt.mpr h4, Nat.not_lt.mpr hpad,
      Nat.not_lt.mpr hself, Nat.not_lt.mpr hcap, List.isEmpty_iff, Bool.not_true, Bool.and_false, Bool.true_and, decide_false,
      Bool.false_eq_true, true_and, if_false]
    rfl

end

theorem exec_excPolicy_starts (hs : s.starts false c = true) :
    exec (.excPolicy c) s = .next ((s.started c).excPolicy c (s.refOf c 0x20)) :=
  congrArg Host.Outcome.next (startCmd_starts hs)

/-! ### FLAG_POST (R144, R152) -/

/-- The bytes of entry `i` in the buffer of a FLAG_POST. -/
def postedBytes (c : RingCmd) (i : Nat) : List Byte := (c.buf.drop (16 * i)).take 16

/-- The flags that a FLAG_POST asks for, in the order of its buffer. -/
def postedFlags (c : RingCmd) : List Flag :=
  (List.range c.arg0.toNat).map fun i => { flagOfBytes c.fn (postedBytes c i) with host := true }

/-- The posts in order, and the command that waits for their parts. -/
def State.postAll (s : State) (c : RingCmd) (r : CmdRef) : State :=
  let v := s.forEach (postedFlags c) State.postFlag
  { v with flagWaits := v.flagWaits ++ [{ cmd := r, lo := s.flagSeq, hi := s.flagSeq + c.arg0.toNat }] }

theorem getD_map_range {α : Type} (f : Nat → α) (d : α) {i n : Nat} (hi : i < n) : ((List.range n).map f).getD i d = f i := by
  simp [hi]

/-- Once its count, its buffer and its entries are in order, only the room for them decides on a FLAG_POST. -/
theorem State.flagPost_valid (h1 : 1 ≤ c.arg0.toNat) (h2 : c.arg0.toNat ≤ 4096) (hlen : 16 * c.arg0.toNat ≤ c.buf.length)
    (hres : ∀ i < c.arg0.toNat, flagReserved (postedBytes c i) = false) (hok : ∀ f ∈ postedFlags c, s.flagOk f = true) :
    s.flagPost c r =
      if s.flagRoom c.fn (postedFlags c) = stOK then s.postAll c r else s.complete r (s.flagRoom c.fn (postedFlags c)) noField 0 := by
  have hcount : (c.arg0.toNat == 0 || decide (4096 < c.arg0.toNat)) = false := by
    simp [Nat.ne_of_gt h1, Nat.not_lt.mpr h2]
  have hbytes : ((List.range c.arg0.toNat).map fun i => (c.buf.drop (16 * i)).take 16) = (List.range c.arg0.toNat).map (postedBytes c) := rfl
  have hflags : ((List.range c.arg0.toNat).map (postedBytes c)).map (fun b => { flagOfBytes c.fn b with host := true }) = postedFlags c :=
    List.map_map
  have hfind : (List.range c.arg0.toNat).find? (fun i =>
      flagReserved (((List.range c.arg0.toNat).map (postedBytes c)).getD i []) || !s.flagOk ((postedFlags c).getD i {})) = none := by
    refine List.find?_eq_none.mpr fun i hi => ?_
    have hentry := hok _ (List.mem_map_of_mem hi)
    have hi := List.mem_range.mp hi
    rw [postedFlags, getD_map_range _ _ hi, getD_map_range _ _ hi, hres i hi, hentry]
    decide
  simp only [State.flagPost, hcount, Nat.not_lt.mpr hlen, hbytes, hflags, hfind, Bool.false_eq_true, if_false, bne_iff_ne, ite_not,
    State.refuse]
  rfl

theorem exec_flagPost_starts (hs : s.starts false c = true) :
    exec (.flagPost c) s = .next ((s.started c).flagPost c (s.refOf c 0x21)) :=
  congrArg Host.Outcome.next (startCmd_starts hs)

end

/-! ### FLAG_ACCEPT (R144, R146) -/

section
variable {s : State}

theorem exec_flagAccept : exec .flagAccept s = .next s.flagAccept := rfl

theorem State.flagAccept_idle (h : s.posts = []) : s.flagAccept = s := by
  simp only [State.flagAccept, h]

/-- The state in which the hub has taken its first post, for die `d`, and has retired the flags of that die. -/
def State.takePost (s : State) (d : Nat) (rest : List Flag) : State := ({ s with posts := rest } : State).retireFlags d

section
variable {f : Flag} {rest : List Flag} (h : s.posts = f :: rest)
include h

theorem State.flagAccept_sent (hd : (s.takePost (s.dieOfCh f.ch) rest).dieOn (s.dieOfCh f.ch) = true) :
    s.flagAccept = ((s.takePost (s.dieOfCh f.ch) rest).modDie (s.dieOfCh f.ch) fun y =>
      { y with flagTx := y.flagTx ++ [{ f with post := s.now }] }).completeFlagPosts := by
  unfold State.takePost at *
  simp only [State.flagAccept, h, hd, if_true]

theorem State.flagAccept_stored (hd : (s.takePost (s.dieOfCh f.ch) rest).dieOn (s.dieOfCh f.ch) = false) :
    s.flagAccept = ((s.takePost (s.dieOfCh f.ch) rest).modDie (s.dieOfCh f.ch) fun y =>
      { y with flags := y.flags ++ [{ f with post := s.now }] }).completeFlagPosts := by
  unfold State.takePost at *
  simp only [State.flagAccept, h, hd, Bool.false_eq_true, if_false]

end

/-! ### DETECTION_INPUT (R149, R151) -/

variable {tn : Fin 256} {x : Detection}

theorem exec_detectionInput_deaf (h : s.detects tn = false) : exec (.detectionInput tn x) s = .next s :=
  congrArg Host.Outcome.next (if_neg (by simp [h]))

theorem exec_detectionInput_heard (h : s.detects tn = true) :
    exec (.detectionInput tn x) s = .next (s.drawFree.release (s.detTask tn x)).startDetections :=
  congrArg Host.Outcome.next (if_pos h)

/-- The task as its release numbers and dates it. -/
def State.releasedTask (s : State) (t : Task) : Task := { t with seq := s.dec.seq, released := s.now }

/-- The state in which a report's task runs on engine `e` and the firmware has read the report. -/
def State.detecting (s : State) (e t : Nat) (x : Detection) : State :=
  ((s.drawFree.release (s.detTask t x)).dispatch e (s.releasedTask (s.detTask t x))).modTask s.dec.seq fun y => { y with det := none }

/-- A detection task released where none is queued is the only one queued. -/
theorem State.queued_release_detTask {t : Nat} (h : (s.dec.tasks.filter fun y => y.started.isNone && y.stage == .excision) = []) :
    (s.drawFree.release (s.detTask t x)).queued (fun y => y.stage == .excision) = [s.releasedTask (s.detTask t x)] := by
  have htasks : (s.drawFree.release (s.detTask t x)).dec.tasks = s.dec.tasks ++ [s.releasedTask (s.detTask t x)] := rfl
  rw [State.queued, htasks, List.filter_append, h]
  rfl

/-- A queued detection task with an engine free for it is dispatched there, and the firmware has its report. -/
theorem State.startDetection_free {t : Task} {e : Nat} (he : s.poolFree t.tenant detImage = some e) (hx : t.det = some x) :
    s.startDetection t = ((s.dispatch e t).modTask t.seq fun y => { y with det := none }).detect t.tenant x := by
  simp only [State.startDetection, he, hx]

/-- The release of a task leaves the engines, so that the pool of the firmware is free as before. -/
theorem State.startDetections_single {t e : Nat} (h : (s.dec.tasks.filter fun y => y.started.isNone && y.stage == .excision) = [])
    (he : s.poolFree t detImage = some e) :
    (s.drawFree.release (s.detTask t x)).startDetections = (s.detecting e t x).detect t x := by
  have hfree : (s.drawFree.release (s.detTask t x)).poolFree t detImage = some e := he
  rw [State.startDetections, State.queued_release_detTask h]
  exact State.startDetection_free (t := s.releasedTask (s.detTask t x)) hfree rfl

/-- A burst of a chain that is another tenant's gives no flags. -/
theorem State.detect_burst_other {t j1 j2 : Nat} {k : Fin 512} (h : (s.chain k).tenant ≠ t) : s.detect t (.burst k j1 j2) = s :=
  if_pos (by simpa using h)

/-- A burst of a chain of one channel is posted on that channel. -/
theorem State.detect_burst_own {t j1 j2 : Nat} {k : Fin 512} (h : (s.chain k).tenant = t) (hm : (s.chain k).m = 1) :
    s.detect t (.burst k j1 j2) =
      s.postDet t (s.chain k).firstCh none ((s.fn t).policy.posts (s.selfIn (s.passband (s.chain k))) 2)
        (j1 - (s.fn t).policy.pad) (j2 + (s.fn t).policy.pad) := by
  refine (if_neg (by simp [h])).trans ?_
  rw [hm]
  rfl

end

/-- Settles O44, command by command and then along the way of a flag. -/
theorem flagsGoFromPostToDie : Obligations.FlagsGoFromPostToDie := by
  intro c d tn x s
  rw [exec_flagAccept]
  refine ⟨fun hs => ?commands, fun h => ?idle, fun f r h => ⟨fun hd => ?sent, fun hd => ?stored⟩, rfl,
    exec_detectionInput_deaf, fun e k j1 j2 ht hq he =>
      ⟨?detected, fun hk _ => State.detect_burst_other hk, fun hk hm _ => State.detect_burst_own hk hm⟩⟩
  case commands =>
    rw [exec_excPolicy_starts hs, exec_flagPost_starts hs]
    refine ⟨fun ps mask hp hr hb hn hm => ⟨fun h => ?unknownPreset, fun h4 hfw hpub hcap => ?kept⟩,
      fun h1 h2 hlen hres hok => ⟨fun hroom => ?posted, fun hroom => ?noRoom⟩⟩
    case unknownPreset => rw [State.excPolicy_unknownPreset hp hr hb hn hm h]
    case kept => exact congrArg Host.Outcome.next (State.excPolicy_kept hp hr hb hn hm h4 hfw hpub hcap)
    case posted => exact congrArg Host.Outcome.next ((State.flagPost_valid h1 h2 hlen hres hok).trans (if_pos hroom))
    case noRoom => exact congrArg Host.Outcome.next ((State.flagPost_valid h1 h2 hlen hres hok).trans (if_neg hroom))
  case idle => rw [State.flagAccept_idle h]
  case sent => exact congrArg Host.Outcome.next (State.flagAccept_sent h hd)
  case stored => exact congrArg Host.Outcome.next (State.flagAccept_stored h hd)
  case detected =>
    rw [exec_detectionInput_heard ht]
    exact congrArg Host.Outcome.next (State.startDetections_single hq he)

end Sys2Proof.Machine
end

section
/-! SUPPORT. Proofs about carrier chains: what the three ring commands do by the check that decides, and what each event of a
running chain leaves in its record. -/

namespace Sys2Proof.Machine

open Sys2Proof

/-! ### The record of a chain -/

section
variable {s t u : State} {k : Nat} {f : Chain → Chain}

/-- A chain that is not free reads back as it was written, in any table. -/
theorem State.modChain_chain_live (h : (f (s.chain k)).state ≠ .free) : (s.modChain k f).chain k = f (s.chain k) :=
  getT_setT_ne _ _ _ _ fun e => h (by rw [State.chain, e])

theorem State.modChain_modChain_chain_live {g : Chain → Chain} (hf : (f (s.chain k)).state ≠ .free)
    (hg : (g (f (s.chain k))).state ≠ .free) : ((s.modChain k f).modChain k g).chain k = g (f (s.chain k)) := by
  rw [← State.modChain_chain_live hf] at hg ⊢
  exact State.modChain_chain_live hg

/-- Nothing but the record of chain `k` has changed. -/
def State.OnlyChain (k : Nat) (s t : State) : Prop := t = { s with chains := t.chains } ∧ ∀ n, n ≠ k → t.chain n = s.chain n

theorem State.OnlyChain.trans (h1 : s.OnlyChain k t) (h2 : t.OnlyChain k u) : s.OnlyChain k u := by
  obtain ⟨hst, hs⟩ := h1
  obtain ⟨htu, ht⟩ := h2
  exact ⟨by rw [htu, hst], fun n hn => (ht n hn).trans (hs n hn)⟩

theorem State.modChain_onlyChain (s : State) (k : Nat) (f : Chain → Chain) : s.OnlyChain k (s.modChain k f) :=
  ⟨rfl, fun _ hn => getT_setT_other _ _ _ _ _ hn⟩

end

/-! ### CHAIN_SAMPLE (R175) -/

section
variable (x x' : Chain)

/-- The input position of the next output sample. -/
def Chain.nextPos : Nat := ((x.pos : Int) + x.adv + x.posAdj).toNat

/-- The mixed samples that the next output sample takes. -/
def Chain.taken : Nat := (x.nextPos / 2 ^ 32 - x.pos / 2 ^ 32) * 2 ^ x.d

/-- The filter memory of the next output sample of `x`, where `x'` is `x` with its input mixed. -/
def Chain.filtered : List Cx := x'.filt ++ x'.mixed.take x.taken

/-- The next output sample and its saturations. -/
def Chain.sample : Cx × Nat := satCx 8388607 (Config.filterOut x.preset x.d x.rs (x.nextPos % 2 ^ 32) (x.filtered x'))

/-- The chain once its next output sample is taken. -/
def Chain.stepped : Chain :=
  { x' with mixed := x'.mixed.drop x.taken, filt := (x.filtered x').drop ((x.filtered x').length - 4 * settleOf x.preset * 2 ^ x.d),
            pos := x.nextPos, posAdj := 0, sat := satTo 0xFFF (x'.sat + (x.sample x').2) }

end

section
variable {s : State} {k : Nat} {x' : Chain}

/-- A chain that is free or idle, or that lacks input, gives no sample. -/
theorem State.chainSample_none
    (h : (s.chain k).state = .free ∨ (s.chain k).state = .idle ∨ s.fillMixed (s.chain k).taken (s.chain k).taken (s.chain k) = none) :
    s.chainSample k = s := by
  unfold Chain.taken Chain.nextPos at h
  unfold State.chainSample
  rcases h with h | h | h
  · simp only [h, beq_self_eq_true, Bool.true_or, if_true]
  · simp only [h, beq_self_eq_true, Bool.or_true, if_true]
  · simp only [h, ite_self]

variable (hf : s.fillMixed (s.chain k).taken (s.chain k).taken (s.chain k) = some x')
include hf

/-- A settling chain only counts its samples. -/
theorem State.chainSample_settling (hx : (s.chain k).state = .settling) :
    s.chainSample k = s.modChain k fun _ => { (s.chain k).stepped x' with settle := x'.settle - 1 } := by
  unfold Chain.taken Chain.nextPos at hf
  simp only [State.chainSample, hx, hf, beq_self_eq_true, if_true]
  rfl

theorem State.chainSample_delivers (hx : (s.chain k).state = .run ∨ (s.chain k).state = .burst) :
    s.chainSample k = (s.modChain k fun _ => (s.chain k).stepped x').deliver k (s.chain k).tag ((s.chain k).sample x').1 := by
  unfold Chain.taken Chain.nextPos at hf
  rcases hx with hx | hx <;>
  · simp only [State.chainSample, hx, hf]
    rfl

end

theorem exec_chainSample_reset {s : State} {k : Fin 512} (h : s.inReset 20 = true) : exec (.chainSample k) s = .next s :=
  congrArg Host.Outcome.next (if_pos h)

theorem exec_chainSample_runs {s : State} {k : Fin 512} (h : s.inReset 20 = false) :
    exec (.chainSample k) s = .next (s.chainSample k) :=
  congrArg Host.Outcome.next (if_neg (by simp [h]))

/-! ### Windows (R179, R180) -/

theorem clampI_bounds {lo hi : Int} (h : lo ≤ hi) (v : Int) : lo ≤ clampI lo hi v ∧ clampI lo hi v ≤ hi := by
  unfold clampI
  split
  · omega
  · split <;> omega

/-- A clamped sum moves from a point within the bounds no further than the summand. -/
theorem clampI_add_bounds {lo hi g v a d : Int} (hlo : lo ≤ g) (hhi : g ≤ hi) (ha : 0 ≤ a) (hd : 0 ≤ d) (hv : -a ≤ v ∧ v ≤ d) :
    g - a ≤ clampI lo hi (g + v) ∧ clampI lo hi (g + v) ≤ g + d := by
  unfold clampI
  split
  · omega
  · split <;> omega

/-- What a full AGC window adds to GAIN before its bounds. -/
def Chain.agcStep (x : Chain) : Int :=
  clampI (-(x.attack : Int)) x.decay (Config.centiBel (x.target ^ 2 * 2 * x.agcN) (max 1 x.agcAcc))

theorem Chain.agcStep_bounds (x : Chain) : -(x.attack : Int) ≤ x.agcStep ∧ x.agcStep ≤ x.decay := clampI_bounds (by omega) _

/-- The power of a full threshold window. -/
def Chain.windowPower (x : Chain) : Nat := (rneDiv (x.thrAcc * 65536 : Nat) (max 1 x.thrN)).toNat

section
variable {s : State} {k : Nat}

theorem State.agcWindow_off (h : (s.chain k).agcOn = false ∨ (s.chain k).frozen = true) : s.agcWindow k = s := by
  unfold State.agcWindow
  rcases h with h | h <;> simp [h]

theorem State.agcWindow_full (hx : (s.chain k).state = .run) (hon : (s.chain k).agcOn = true) (hfr : (s.chain k).frozen = false)
    (hw : 2 ^ (s.chain k).agcW ≤ (s.chain k).agcN) :
    s.agcWindow k = s.modChain k fun x => { x with gain := clampI (-6000) 6000 (x.gain + (s.chain k).agcStep), agcAcc := 0, agcN := 0 } := by
  simp only [State.agcWindow, hx, hon, hfr, Nat.not_lt.mpr hw]
  rfl

theorem State.thrWindow_partial (h : (s.chain k).thrN < 2 ^ (s.chain k).thrW) : s.thrWindow k = s := by
  simp [State.thrWindow, h]

/-- The first window sets the floor. -/
theorem State.thrWindow_first (hx : (s.chain k).state = .run) (hw : 2 ^ (s.chain k).thrW ≤ (s.chain k).thrN)
    (hn : (s.chain k).floorN = none) :
    s.thrWindow k = (s.modChain k fun x => { x with thrAcc := 0, thrN := 0 }).modChain k fun x =>
      { x with floorN := some (s.chain k).windowPower } := by
  simp only [State.thrWindow, hx, hn, Nat.not_lt.mpr hw]
  rfl

end

/-! ### CHAIN_SETTLED and BURST_MAX_LEN (R185, Table 7.4) -/

section
variable {s : State} {k : Fin 512}

theorem exec_chainSettled_done (hx : (s.chain k).state = .settling) (h0 : (s.chain k).settle = 0) :
    exec (.chainSettled k) s = .next (s.modChain k fun x =>
      { x with state := .run, gain := 0, agcAcc := 0, agcN := 0, thrAcc := 0, thrN := 0, floorN := none }) :=
  congrArg Host.Outcome.next (if_pos (by simp [hx, h0]))

theorem exec_chainSettled_other (hx : (s.chain k).state ≠ .settling) : exec (.chainSettled k) s = .next s :=
  congrArg Host.Outcome.next (if_neg (by simp [hx]))

theorem exec_burstMaxLen_long (hx : (s.chain k).state = .burst) (hl : (s.chain k).maxLen ≤ (s.chain k).sinceDet) :
    exec (.burstMaxLen k) s = .next (s.closeBurst k 3) :=
  congrArg Host.Outcome.next (if_pos (by simp [hx, hl]))

theorem exec_burstMaxLen_short (hl : (s.chain k).sinceDet < (s.chain k).maxLen) : exec (.burstMaxLen k) s = .next s :=
  congrArg Host.Outcome.next (if_neg (by simp [hl]))

end

/-! ### Write-backs and the bit port (R173, R183) -/

/-- The chain whose frequency and position an open write-back of its generation has moved, with the messages `r` left. -/
def Chain.moved (x : Chain) (w : WriteBack) (r : List WriteBack) : Chain :=
  let cl := clampI (-(2 ^ x.pull : Int)) (2 ^ x.pull) (x.freqSum + w.freq)
  { x with pending := r, freqSum := cl, freq := x.freq0 + BitVec.ofInt 48 cl, posAdj := x.posAdj + rneDiv (w.time * x.adv) 65536,
           timeSum := x.timeSum + w.time, pullClamp := if cl == x.freqSum + w.freq then x.pullClamp else satTo 255 (x.pullClamp + 1) }

section
variable {s : State} {k : Nat}

theorem State.writebackApply_idle (h : (s.chain k).pending = []) : s.writebackApply k = s := by
  simp only [State.writebackApply, h]

section
variable {w : WriteBack} {r : List WriteBack} (h : (s.chain k).pending = w :: r)
include h

theorem State.writebackApply_stale (hg : w.gen ≠ (s.chain k).gen) :
    s.writebackApply k = s.modChain k fun x => { x with pending := r, staleWb := satTo 255 (x.staleWb + 1) } := by
  simp [State.writebackApply, h, hg]

theorem State.writebackApply_moves (hx : (s.chain k).state ≠ .free) (hg : w.gen = (s.chain k).gen) (hc : w.close = false) :
    s.writebackApply k = s.modChain k fun _ => (s.chain k).moved w r := by
  simp only [State.writebackApply, h, hg, hc, bne_self_eq_false, beq_eq_false_iff_ne.mpr hx, Bool.or_false, Bool.false_and, Bool.false_eq_true,
    if_false]
  rfl

end

theorem State.bitArrive_noBurst {b : Bool} (hx : (s.chain k).state ≠ .burst) : s.bitArrive k b = s := by
  simp [State.bitArrive, hx]

/-- A bit that no engine is bound to take is counted as abandoned. -/
theorem State.bitArrive_unbound {b fsk inv : Bool} {sps len word tol bitsMax : Nat} (hx : (s.chain k).state = .burst)
    (hs : (s.chain k).search = .sync sps fsk len word tol inv bitsMax) (hl : 0 < (s.chain k).bitsLeft)
    (hb : (s.chain k).boundTo = none) :
    s.bitArrive k b = (s.modChain k fun x => { x with bitsLeft := x.bitsLeft - 1 }).modChain k fun x =>
      { x with abandoned := satTo 0xFFFF (x.abandoned + 1) } := by
  simp [State.bitArrive, hx, hs, hb, searchCode, Nat.ne_of_gt hl]

end

/-! ### CHAIN_INPUT_TIMEOUT (R169) -/

section
variable {s : State} {k : Fin 512} {ch : Fin 32}

theorem exec_chainInputTimeout_other (h : (s.chain k).state = .free ∨ (s.chain k).state = .idle ∨ (s.chain k).input = [] ∨
    ch.val < (s.chain k).firstCh ∨ (s.chain k).firstCh + (s.chain k).m ≤ ch.val) : exec (.chainInputTimeout k ch) s = .next s :=
  congrArg Host.Outcome.next (if_pos (by
    simpa only [Bool.or_eq_true, beq_iff_eq, List.isEmpty_iff, decide_eq_true_eq, or_assoc] using h))

/-- The channel's sweep enters as 64 zero samples. -/
theorem exec_chainInputTimeout_zeroes (hx : (s.chain k).state ≠ .free) (hi : (s.chain k).state ≠ .idle) (hin : (s.chain k).input ≠ [])
    (h1 : (s.chain k).firstCh ≤ ch.val) (h2 : ch.val < (s.chain k).firstCh + (s.chain k).m) :
    exec (.chainInputTimeout k ch) s = .next (s.chainInput k (ch.val - (s.chain k).firstCh) 0 (List.replicate 64 {}) 64) :=
  congrArg Host.Outcome.next (if_neg (by simp [hx, hi, hin, h1, h2]))

end

/-- Settles O46, event by event. -/
theorem carrierChainsFollowTheirSamples : Obligations.CarrierChainsFollowTheirSamples := by
  intro k ch b s
  refine ⟨fun h => ?noSample, fun x' hr hf => ⟨fun hx hx' => ?settlingSample, fun hx => ?delivered⟩, fun hx h0 => ?settled,
    exec_chainSettled_other, fun hx hon hfr hw hlo hhi => ?agcWindow, fun h => congrArg Host.Outcome.next (State.agcWindow_off h),
    fun hx hw hn => ?firstWindow, fun h => congrArg Host.Outcome.next (State.thrWindow_partial h), exec_burstMaxLen_long,
    exec_burstMaxLen_short, fun h => congrArg Host.Outcome.next (State.writebackApply_idle h),
    fun w r h hx => ⟨fun hg => ?stale, fun hg hc => ?moved⟩, fun hx => congrArg Host.Outcome.next (State.bitArrive_noBurst hx),
    fun _ _ _ _ _ _ _ hx hs hl hb => ?unbound, exec_chainInputTimeout_other, exec_chainInputTimeout_zeroes⟩
  case noSample =>
    cases hr : s.inReset 20 with
    | true => exact exec_chainSample_reset hr
    | false =>
      rw [exec_chainSample_runs hr]
      exact congrArg Host.Outcome.next (State.chainSample_none (h.resolve_left (by simp [hr])))
  case settlingSample =>
    refine ⟨_, (exec_chainSample_runs hr).trans (congrArg Host.Outcome.next (State.chainSample_settling hf hx)),
      State.modChain_onlyChain s k _, ?_⟩
    rw [State.modChain_chain_live (by simp [Chain.stepped, hx'])]
    exact ⟨rfl, rfl, hx'⟩
  case delivered => exact (exec_chainSample_runs hr).trans (congrArg Host.Outcome.next (State.chainSample_delivers hf hx))
  case settled =>
    refine ⟨_, exec_chainSettled_done hx h0, State.modChain_onlyChain s k _, ?_⟩
    rw [State.modChain_chain_live (by simp)]
    exact ⟨rfl, rfl, rfl⟩
  case agcWindow =>
    refine ⟨_, congrArg Host.Outcome.next (State.agcWindow_full hx hon hfr hw), State.modChain_onlyChain s k _, ?_⟩
    rw [State.modChain_chain_live (by simp [hx])]
    obtain ⟨hmin, hmax⟩ := clampI_bounds (lo := -6000) (hi := 6000) (by omega) ((s.chain k).gain + (s.chain k).agcStep)
    exact ⟨rfl, hmin, hmax, clampI_add_bounds hlo hhi (Int.natCast_nonneg _) (Int.natCast_nonneg _) (s.chain k).agcStep_bounds⟩
  case firstWindow =>
    refine ⟨_, congrArg Host.Outcome.next (State.thrWindow_first hx hw hn),
      (State.modChain_onlyChain s k _).trans (State.modChain_onlyChain _ k _), ?_⟩
    rw [State.modChain_modChain_chain_live (by simp [hx]) (by simp [hx])]
    exact ⟨rfl, rfl⟩
  case stale =>
    refine ⟨_, congrArg Host.Outcome.next (State.writebackApply_stale h hg), State.modChain_onlyChain s k _, ?_⟩
    rw [State.modChain_chain_live (by simpa using hx)]
    exact ⟨rfl, rfl, rfl⟩
  case moved =>
    refine ⟨_, congrArg Host.Outcome.next (State.writebackApply_moves h hx hg hc), State.modChain_onlyChain s k _, ?_⟩
    rw [State.modChain_chain_live (by simpa [Chain.moved] using hx)]
    exact ⟨rfl, rfl, rfl, rfl, rfl⟩
  case unbound =>
    refine ⟨_, congrArg Host.Outcome.next (State.bitArrive_unbound hx hs hl hb),
      (State.modChain_onlyChain s k _).trans (State.modChain_onlyChain _ k _), ?_⟩
    rw [State.modChain_modChain_chain_live (by simp [hx]) (by simp [hx])]
    exact ⟨rfl, rfl, rfl⟩

/-! ### Which chain's profile is read -/

section
variable {s t : State} {n : Nat}

theorem State.chainProfile_none (h : (s.chain n).profile = 255) : s.chainProfile n = none := by
  simp [State.chainProfile, h]

/-- A record on its way and a tenant's first work leave the chains. -/
theorem State.RecOnly.chain (h : s.RecOnly t) (n : Nat) : t.chain n = s.chain n := by rw [h]; rfl

theorem State.noteWork_only (s : State) (t : Nat) : s.HostOnly (s.noteWork t) := by
  unfold State.noteWork
  split
  · rfl
  · exact State.modFn_only ..

/-- A CARRIER record leaves a chain that is not free its profile. -/
theorem State.carrierRec_profile {kind cause : Nat} (h : (s.chain n).state ≠ .free) :
    ((s.carrierRec n kind cause).chain n).profile = (s.chain n).profile := by
  unfold State.carrierRec
  simp only
  rw [State.modChain_chain_live]
  · rw [(State.emitHub_only ..).chain]
    split <;> rfl
  · rw [(State.emitHub_only ..).chain]
    split <;> exact h

end

/-! ### CCH_START (R176, R226) -/

section
variable {s : State} {c : RingCmd} {r : CmdRef}

theorem tuningBytes_length (v : Tuning) : (tuningBytes v).length = 16 := by simp [tuningBytes, rows, le32]

/-- The record that a start writes over chain `n`. -/
def State.startedChain (s : State) (x : Chain) (n : Nat) : Chain :=
  { x with state := if s.sourceRuns x.plan then .settling else .idle, gen := (s.chain n).gen + 1, settle := settleOf x.preset,
           boundTo := (s.chain n).boundTo, bitFifo := (s.chain n).bitFifo }

/-- The state in which a start has taken chain `n` for configuration `x` of tenant `t`. -/
def State.takeChain (s : State) (t : Nat) (x : Chain) (n : Nat) : State :=
  (((s.freshGen n ((s.chain n).gen + 1)).modChain n fun _ => s.startedChain x n).noteWork t).carrierRec n 0 0

theorem State.startedChain_live (s : State) (x : Chain) (n : Nat) : (s.startedChain x n).state ≠ .free := by
  unfold State.startedChain
  split <;> simp

theorem State.takeChain_profile (s : State) (t : Nat) (x : Chain) (n : Nat) : ((s.takeChain t x n).chain n).profile = x.profile := by
  have hchain : (((s.freshGen n ((s.chain n).gen + 1)).modChain n fun _ => s.startedChain x n).noteWork t).chain n = s.startedChain x n :=
    ((State.noteWork_only ..).rec.chain n).trans (State.modChain_chain_live (s.startedChain_live x n))
  unfold State.takeChain
  rw [State.carrierRec_profile (by rw [hchain]; exact s.startedChain_live x n), hchain]
  rfl

theorem State.cchStart_badCheck {f : Fail} (hf : s.startChecks c = .error f) : s.cchStart c r = s.complete r f.status f.field f.check := by
  simp only [State.cchStart, hf, State.refuse]

section
variable {ps : List Param} {v : Tuning} {q : Search} {es : List Nat} (hc : s.startChecks c = .ok (ps, v, q, es))
include hc

theorem State.cchStart_noChain (hn : lowestFree (fun n => (s.chain n).state != .free) 512 = none) :
    s.cchStart c r = s.complete r stQuota noField 11 := by
  simp only [State.cchStart, hc, hn, State.refuse]

/-- A carrier without a profile completes with its chain and generation. -/
theorem State.cchStart_taken {n a : Nat} {w : State}
    (hn : lowestFree (fun n => (s.chain n).state != .free) 512 = some n)
    (hlen : 16 ≤ c.resLen) (hw : s.translate c.fn c.resIova.toNat true c.resAcc = (w, some a))
    (hp : (chainOf c.fn ps v q).profile = 255) :
    s.cchStart c r =
      ((w.emit (.hostWrite c.fn c.resIova.toNat (tuningBytes v))).takeChain c.fn (chainOf c.fn ps v q) n).complete r stOK n
        ((w.chain n).gen + 1).toNat := by
  have hnone : ((w.emit (.hostWrite c.fn c.resIova.toNat (tuningBytes v))).takeChain c.fn (chainOf c.fn ps v q) n).chainProfile n = none :=
    State.chainProfile_none ((State.takeChain_profile ..).trans hp)
  unfold State.takeChain State.startedChain at hnone ⊢
  simp only [State.cchStart, hc, hn]
  rw [State.writeRes_fits (Nat.le_trans (Nat.le_of_eq (tuningBytes_length v)) hlen) hw]
  simp only [hnone]
  exact if_pos (by rw [hp]; rfl)

end

/-! ### CCH_RETUNE (R177) -/

/-- The chains that a tenant's retune or stop is refused for. -/
theorem State.foreignChain_iff {s : State} {n t : Nat} :
    (decide (512 ≤ n) || (s.chain n).state == .free || (s.chain n).tenant != t) = true ↔
      512 ≤ n ∨ (s.chain n).state = .free ∨ (s.chain n).tenant ≠ t := by
  simp only [Bool.or_eq_true, decide_eq_true_eq, beq_iff_eq, bne_iff_ne, or_assoc]

theorem State.ownChain {s : State} {n t : Nat} (hn : n < 512) (hx : (s.chain n).state ≠ .free) (ht : (s.chain n).tenant = t) :
    (decide (512 ≤ n) || (s.chain n).state == .free || (s.chain n).tenant != t) = false :=
  Bool.eq_false_iff.mpr fun h => by
    rcases State.foreignChain_iff.mp h with h | h | h
    · exact Nat.not_le.mpr hn h
    · exact hx h
    · exact h ht

section
variable {ps : List Param} (hps : paramList c.buf c.arg0.toNat [(2, 2), (3, 5), (4, 1)] = .ok ps)
include hps

/-- A chain that is free, another tenant's or none is refused. -/
theorem State.cchRetune_other
    (h : 512 ≤ c.arg1.toNat ∨ (s.chain c.arg1.toNat).state = .free ∨ (s.chain c.arg1.toNat).tenant ≠ c.fn.val) :
    s.cchRetune c r = s.complete r stConflict (argOff 1) 0 := by
  simp only [State.cchRetune, hps, State.refuse, State.foreignChain_iff.mpr h, if_true]

theorem State.cchRetune_tuned {v : Tuning} {w : State} {a : Nat} (hn : c.arg1.toNat < 512) (hx : (s.chain c.arg1.toNat).state ≠ .free)
    (ht : (s.chain c.arg1.toNat).tenant = c.fn.val) (hrow : (hasRow ps 2 || hasRow ps 3) = true) (hit : tuningItems ps = .ok ())
    (hv : s.tuning (s.beam (s.chain c.arg1.toNat).plan) ps = .ok v) (hpre : checks [inParam ps 4 0 0 3] = .ok ())
    (hlen : 16 ≤ c.resLen) (hw : s.translate c.fn c.resIova.toNat true c.resAcc = (w, some a)) :
    s.cchRetune c r =
      (let y := (w.emit (.hostWrite c.fn c.resIova.toNat (tuningBytes v))).retune c.arg1.toNat (some v) (param? ps 4 0)
       y.complete r stOK c.arg1.toNat (y.chain c.arg1.toNat).gen.toNat) := by
  simp only [State.cchRetune, hps, State.ownChain hn hx ht, hrow, hit, hv, hpre, Bool.not_true, Bool.false_and, Bool.false_eq_true,
    if_false, if_true]
  exact State.writeRes_fits (Nat.le_trans (Nat.le_of_eq (tuningBytes_length v)) hlen) hw

end

/-! ### CCH_STOP (R178, R226) -/

theorem State.cchStop_other
    (h : 512 ≤ c.arg0.toNat ∨ (s.chain c.arg0.toNat).state = .free ∨ (s.chain c.arg0.toNat).tenant ≠ c.fn.val) :
    s.cchStop c r = s.complete r stConflict (argOff 0) 0 :=
  if_pos (State.foreignChain_iff.mpr h)

section
variable (hn : c.arg0.toNat < 512) (hx : (s.chain c.arg0.toNat).state ≠ .free) (ht : (s.chain c.arg0.toNat).tenant = c.fn.val)
include hn hx ht

theorem State.cchStop_plain (hp : (s.chain c.arg0.toNat).profile = 255) :
    s.cchStop c r = (s.freeChain c.arg0.toNat 1).complete r stOK 0 0 := by
  simp only [State.cchStop, State.ownChain hn hx ht, hp, beq_self_eq_true, Bool.false_eq_true, if_false, if_true]

/-- A stop that the mode in force allows frees a carrier with a profile at once. -/
theorem State.cchStop_carrier (hp : (s.chain c.arg0.toNat).profile ≠ 255) (hm : s.wantTrellis (s.carriers.length - 1) = s.dec.trellis) :
    s.cchStop c r = (s.freeChain c.arg0.toNat 1).modeFollow (some { cmd := r }) := by
  simp only [State.cchStop, State.ownChain hn hx ht, beq_eq_false_iff_ne.mpr hp, hm, bne_self_eq_false, Bool.false_and, Bool.false_eq_true,
    if_false]

end

/-! ### Starts and stops during a mode switch (R226) -/

theorem State.waitsSwitch_free {opc : Nat} (h : s.dec.switching = none) : s.waitsSwitch opc c = false := by
  simp [State.waitsSwitch, h]

theorem State.waitsSwitch_stop (h : s.dec.switching = none ∨ (s.chain c.arg0.toNat).profile = 255) : s.waitsSwitch 0x2A c = false := by
  rcases h with h | h
  · exact State.waitsSwitch_free h
  · simp [State.waitsSwitch, h]

theorem exec_cchStart_waits (hs : s.starts false c = true) (h : (s.started c).waitsSwitch 0x28 c = true) :
    exec (.cchStart c) s = .next ((s.started c).modDec fun d => { d with switchWait := d.switchWait ++ [(s.refOf c 0x28, c)] }) :=
  congrArg Host.Outcome.next ((startCmd_starts hs).trans (if_pos h))

theorem exec_cchStart_goes (hs : s.starts false c = true) (h : (s.started c).waitsSwitch 0x28 c = false) :
    exec (.cchStart c) s = .next ((s.started c).cchStart c (s.refOf c 0x28)) :=
  congrArg Host.Outcome.next ((startCmd_starts hs).trans (if_neg (by simp [h])))

theorem exec_cchRetune_starts (hs : s.starts false c = true) :
    exec (.cchRetune c) s = .next ((s.started c).cchRetune c (s.refOf c 0x29)) :=
  congrArg Host.Outcome.next (startCmd_starts hs)

theorem exec_cchStop_goes (hs : s.starts false c = true) (h : (s.started c).waitsSwitch 0x2A c = false) :
    exec (.cchStop c) s = .next ((s.started c).cchStop c (s.refOf c 0x2A)) :=
  congrArg Host.Outcome.next ((startCmd_starts hs).trans (if_neg (by simp [h])))

end

/-- Settles O45, command by command and by the check that decides. -/
theorem carrierCommandsTakeAndFreeChains : Obligations.CarrierCommandsTakeAndFreeChains := by
  intro c s hs
  refine ⟨exec_cchStart_waits hs, fun hsw => ?start, fun ps hps => ?retune, fun hsw => ?stop⟩
  case start =>
    rw [exec_cchStart_goes hs (State.waitsSwitch_free hsw)]
    refine ⟨fun f hf => ?badCheck, fun ps v q es hc => ⟨fun hn => ?noChain, fun n w a hn hlen hw hp => ?taken⟩⟩
    case badCheck => rw [State.cchStart_badCheck hf]
    case noChain => rw [State.cchStart_noChain hc hn]
    case taken =>
      refine congrArg Host.Outcome.next ((State.cchStart_taken hc hn hlen hw hp).trans ?_)
      rw [State.translate_some_only hw]
      rfl
  case retune =>
    rw [exec_cchRetune_starts hs]
    exact ⟨fun h => congrArg Host.Outcome.next (State.cchRetune_other hps h), fun v w a hn hx ht hrow hit hv hpre hlen hw =>
      congrArg Host.Outcome.next (State.cchRetune_tuned hps hn hx ht hrow hit hv hpre hlen hw)⟩
  case stop =>
    rw [exec_cchStop_goes hs (State.waitsSwitch_stop hsw)]
    exact ⟨fun h => congrArg Host.Outcome.next (State.cchStop_other h), fun hn hx ht =>
      ⟨fun hp => congrArg Host.Outcome.next (State.cchStop_plain hn hx ht hp),
        fun hp hm => congrArg Host.Outcome.next (State.cchStop_carrier hn hx ht hp hm)⟩⟩

end Sys2Proof.Machine
end

section
/-! SUPPORT. What an engine instruction that issues leaves: the running register set, what starts in flight, where the PC goes,
and the engine at the instruction's end. -/

namespace Sys2Proof.Machine

open Sys2Proof

/-! ### The running register set -/

section
variable {g : Eng} {f f' : RegSet → RegSet}

@[simp] theorem Eng.modSet_set : (g.modSet f).set = f g.set := by
  unfold Eng.modSet Eng.set
  cases h : g.inh <;> simp

@[simp] theorem Eng.modSet_modSet : (g.modSet f).modSet f' = g.modSet fun r => f' (f r) := by
  unfold Eng.modSet
  cases h : g.inh <;> simp

/-- A rewrite of the running set leaves everything else of the engine. -/
theorem Eng.modSet_outside : g.modSet f = { g with main := (g.modSet f).main, shad := (g.modSet f).shad } := by
  unfold Eng.modSet
  cases g.inh <;> rfl

/-- The set that does not run is as it was. -/
def Eng.KeepsOther (g y : Eng) : Prop := if g.inh then y.main = g.main else y.shad = g.shad

theorem Eng.KeepsOther.refl (g : Eng) : g.KeepsOther g := by
  unfold Eng.KeepsOther
  split <;> rfl

theorem Eng.KeepsOther.trans {x y : Eng} (h : g.KeepsOther x) (hi : x.inh = g.inh) (h' : x.KeepsOther y) : g.KeepsOther y := by
  unfold Eng.KeepsOther at *
  rw [hi] at h'
  cases hg : g.inh <;> simp only [hg, if_true, Bool.false_eq_true, if_false] at h h' ⊢ <;> exact h'.trans h

theorem Eng.modSet_other : g.KeepsOther (g.modSet f) := by
  unfold Eng.KeepsOther Eng.modSet
  cases g.inh <;> rfl

/-- A rewrite of the running set by what stands in it. -/
theorem Eng.modSet_congr {f f' : RegSet → RegSet} (h : f g.set = f' g.set) : g.modSet f = g.modSet f' := by
  unfold Eng.modSet
  unfold Eng.set at h
  split at h <;> rename_i hi
  · rw [if_pos hi, if_pos hi, h]
  · rw [if_neg hi, if_neg hi, h]

theorem Eng.modSet_self {f : RegSet → RegSet} (h : f g.set = g.set) : g.modSet f = g := by
  unfold Eng.modSet
  unfold Eng.set at h
  split at h <;> rename_i hi
  · rw [if_pos hi, h]
  · rw [if_neg hi, h]

@[simp] theorem Eng.modSet_inh : (g.modSet f).inh = g.inh := by rw [Eng.modSet_outside]
@[simp] theorem Eng.modSet_pc : (g.modSet f).pc = g.pc := by rw [Eng.modSet_outside]
@[simp] theorem Eng.modSet_mem : (g.modSet f).mem = g.mem := by rw [Eng.modSet_outside]

theorem Eng.set_shadow {g : Eng} (h : g.inh = true) : g.set = g.shad := if_pos h
theorem Eng.set_main {g : Eng} (h : g.inh = false) : g.set = g.main := if_neg (by simp [h])

end

/-! ### What starts at an instruction's issue

Results and accesses that start change the lands, the generators and the access in flight of the running set alone. -/

/-- Engine `y` is engine `g` with more in flight: results, a group-memory access that stalls it, and generators moved. -/
structure Eng.InFlight (g y : Eng) : Prop where
  outside : y = { g with st := y.st, main := y.main, shad := y.shad }
  other : g.KeepsOther y
  running : y.set = { g.set with ag := y.set.ag, lands := y.set.lands, grp := y.set.grp }
  lands : g.set.lands ⊆ y.set.lands
  state : y.st = g.st ∨ y.st = .stalled

section
variable {g x y : Eng}

theorem Eng.InFlight.refl (g : Eng) : g.InFlight g :=
  ⟨rfl, .refl g, rfl, List.Subset.refl _, .inl rfl⟩

theorem Eng.InFlight.inh (h : g.InFlight y) : y.inh = g.inh := by rw [h.outside]

theorem Eng.InFlight.trans (h : g.InFlight x) (h' : x.InFlight y) : g.InFlight y where
  outside := by rw [h'.outside, h.outside]
  other := h.other.trans h.inh h'.other
  running := by rw [h'.running, h.running]
  lands := List.Subset.trans h.lands h'.lands
  state := by
    rcases h'.state with e | e
    · rw [e]; exact h.state
    · exact .inr e

/-- The engine's state and running set rewritten where results and accesses stand. -/
theorem Eng.inFlight_modSet {st : EngState} {f : RegSet → RegSet} (hst : st = g.st ∨ st = .stalled)
    (hf : f g.set = { g.set with ag := (f g.set).ag, lands := (f g.set).lands, grp := (f g.set).grp })
    (hl : g.set.lands ⊆ (f g.set).lands) : g.InFlight (({ g with st := st } : Eng).modSet f) where
  outside := by rw [Eng.modSet_outside]
  other := Eng.modSet_other (g := { g with st := st })
  running := by rw [Eng.modSet_set]; exact hf
  lands := by rw [Eng.modSet_set]; exact hl
  state := by rw [modSet_st]; exact hst

theorem Eng.fly_inFlight (g : Eng) (n : Nat) (l : Land) : g.InFlight (g.fly n l) :=
  Eng.inFlight_modSet (st := g.st) (.inl rfl) rfl (List.subset_append_left _ _)

theorem Eng.groupAccess_inFlight (g : Eng) (a : GrpAcc) : g.InFlight (g.groupAccess a) :=
  Eng.inFlight_modSet (.inr rfl) rfl (List.Subset.refl _)

theorem Eng.advance_inFlight (g : Eng) (f : Field) : g.InFlight (g.advance f) := by
  unfold Eng.advance
  split
  · exact Eng.inFlight_modSet (st := g.st) (.inl rfl) rfl (List.Subset.refl _)
  · exact .refl g

/-- An access flies or stalls the engine. -/
theorem Eng.access_inFlight (g : Eng) (f : Field) (w : Nat) : g.InFlight (g.access f w) := by
  unfold Eng.access
  split
  · exact g.groupAccess_inFlight _
  · split
    · split
      · exact g.fly_inFlight _ _
      · exact .refl g
    · exact g.fly_inFlight _ _

theorem Eng.foldl_inFlight {α : Type} {f : Eng → α → Eng} (hf : ∀ (g : Eng) (a : α), g.InFlight (f g a)) (l : List α) (g : Eng) :
    g.InFlight (l.foldl f g) := by
  induction l generalizing g with
  | nil => exact .refl g
  | cons a r ih => exact (hf g a).trans (ih _)

/-- The accesses of an instruction word have started and the generators have advanced. -/
def State.accessed (s : State) (e : Nat) (o : EngOp) (own : List Field) (y : Eng) : Eng :=
  let l := (fieldsOf o).getD []
  (l ++ own).foldl Eng.advance ((accessesOf (s.landed e) l).foldl (fun y f => y.access f.1 f.2) y)

theorem State.accessed_inFlight (s : State) (e : Nat) (o : EngOp) (own : List Field) (y : Eng) : y.InFlight (s.accessed e o own y) :=
  (Eng.foldl_inFlight (fun g (f : Field × Nat) => g.access_inFlight f.1 f.2) _ y).trans (Eng.foldl_inFlight Eng.advance_inFlight _ _)

/-- A word without accesses starts none. -/
theorem State.accessed_none {s : State} {e : Nat} {o : EngOp} (h : fieldsOf o = some []) : s.accessed e o [] y = y := by
  simp [State.accessed, h, accessesOf]

end

/-! ### The accesses of local memory leave a stalled engine's group access -/

section
variable {s : State} {e : Nat} {k : IssueKind} {o : EngOp}

theorem Eng.advance_grp (g : Eng) (f : Field) : (g.advance f).st = g.st ∧ (g.advance f).set.grp = g.set.grp := by
  unfold Eng.advance
  split
  · exact ⟨modSet_st .., by rw [Eng.modSet_set]; rfl⟩
  · exact ⟨rfl, rfl⟩

theorem Eng.access_local {f : Field} {w : Nat} (g : Eng) (h : isGroupWord f.bus w = false) :
    (g.access f w).st = g.st ∧ (g.access f w).set.grp = g.set.grp := by
  have hfly (n : Nat) (l : Land) : (g.fly n l).st = g.st ∧ (g.fly n l).set.grp = g.set.grp :=
    ⟨modSet_st .., by unfold Eng.fly; rw [Eng.modSet_set]⟩
  unfold Eng.access
  rw [if_neg (by simp [h])]
  split
  · split
    · exact hfly ..
    · exact ⟨rfl, rfl⟩
  · exact hfly ..

theorem Eng.foldl_grp {α : Type} {f : Eng → α → Eng} (l : List α)
    (hf : ∀ a ∈ l, ∀ g, (f g a).st = g.st ∧ (f g a).set.grp = g.set.grp) (g : Eng) :
    (l.foldl f g).st = g.st ∧ (l.foldl f g).set.grp = g.set.grp := by
  induction l generalizing g with
  | nil => exact ⟨rfl, rfl⟩
  | cons a r ih =>
    obtain ⟨hst, hgrp⟩ := hf a (by simp) g
    obtain ⟨ihst, ihgrp⟩ := ih (fun b hb => hf b (by simp [hb])) (f g a)
    exact ⟨ihst.trans hst, ihgrp.trans hgrp⟩

/-- Beside an operation's own group-memory access the fields of its word make none (R196). -/
theorem State.accessed_keepsGroup {f : Field} (h : s.issues e k o [f] = true)
    (hw : isGroupWord f.bus ((s.landed e).eaOf f.ag) = true) (y : Eng) :
    (s.accessed e o [f] y).st = y.st ∧ (s.accessed e o [f] y).set.grp = y.set.grp := by
  unfold State.issues at h
  cases hl : fieldsOf o with
  | none => simp [hl] at h
  | some l =>
    simp only [hl, Bool.and_eq_true, decide_eq_true_eq, List.filter_append, List.length_append] at h
    obtain ⟨-, -, hlen⟩ := h
    have hown : (accessesOf (s.landed e) [f]).filter (fun f => isGroupWord f.1.bus f.2) = accessesOf (s.landed e) [f] := by
      simpa [accessesOf, Eng.eaOf] using hw
    rw [hown] at hlen
    have hnone : (accessesOf (s.landed e) l).filter (fun f => isGroupWord f.1.bus f.2) = [] :=
      List.eq_nil_of_length_eq_zero (Nat.le_zero.mp (Nat.le_of_succ_le_succ hlen))
    have hlocal : ∀ a ∈ accessesOf (s.landed e) l, ∀ g : Eng,
        (g.access a.1 a.2).st = g.st ∧ (g.access a.1 a.2).set.grp = g.set.grp :=
      fun a ha g => g.access_local (Bool.eq_false_iff.mpr (List.filter_eq_nil_iff.mp hnone a ha))
    unfold State.accessed
    simp only [hl, Option.getD_some]
    obtain ⟨hst, hgrp⟩ := Eng.foldl_grp (f := fun (y : Eng) (f : Field × Nat) => y.access f.1 f.2) _ hlocal y
    obtain ⟨hst', hgrp'⟩ := Eng.foldl_grp (l ++ [f]) (fun f _ g => g.advance_grp f) 
      ((accessesOf (s.landed e) l).foldl (fun y f => y.access f.1 f.2) y)
    exact ⟨hst'.trans hst, hgrp'.trans hgrp⟩

end

/-! ### The PC after an instruction -/

section
variable {g y : Eng}

/-- The PC, the loop cache and the running set's branch, loop and loop counter are all that the move of the PC changes. -/
theorem Eng.nextPc_rewrites (g : Eng) : ∃ (p : BitVec 13) (c : Option (Nat × Nat)) (f : RegSet → RegSet),
    g.nextPc = ({ g with pc := p, cache := c } : Eng).modSet f ∧
      ∀ r, f r = { r with branch := (f r).branch, loopBlk := (f r).loopBlk, lc0 := (f r).lc0 } := by
  unfold Eng.nextPc
  dsimp only
  rcases g.set.branch with _ | ⟨t, _ | k⟩
  · rcases g.set.loopBlk with _ | l <;> dsimp only
    · exact ⟨_, g.cache, id, (Eng.modSet_self rfl).symm, fun _ => rfl⟩
    · split
      · exact ⟨_, g.cache, id, (Eng.modSet_self rfl).symm, fun _ => rfl⟩
      · split
        · exact ⟨_, g.cache, _, rfl, fun _ => rfl⟩
        · exact ⟨_, _, _, rfl, fun _ => rfl⟩
  · exact ⟨_, g.cache, _, rfl, fun _ => rfl⟩
  · dsimp only
    split
    · exact ⟨_, g.cache, _, rfl, fun _ => rfl⟩
    · exact ⟨_, g.cache, _, rfl, fun _ => rfl⟩

theorem Eng.nextPc_outside (g : Eng) :
    g.nextPc = { g with pc := g.nextPc.pc, cache := g.nextPc.cache, main := g.nextPc.main, shad := g.nextPc.shad } := by
  obtain ⟨p, c, f, h, -⟩ := g.nextPc_rewrites
  rw [h, Eng.modSet_outside]

theorem Eng.nextPc_other (g : Eng) : g.KeepsOther g.nextPc := by
  obtain ⟨p, c, f, h, -⟩ := g.nextPc_rewrites
  rw [h]
  exact Eng.modSet_other (g := { g with pc := p, cache := c })

theorem Eng.nextPc_running (g : Eng) :
    g.nextPc.set = { g.set with branch := g.nextPc.set.branch, loopBlk := g.nextPc.set.loopBlk, lc0 := g.nextPc.set.lc0 } := by
  obtain ⟨p, c, f, h, hf⟩ := g.nextPc_rewrites
  rw [h, Eng.modSet_set]
  exact hf g.set

/-- What is in flight has no part in it. -/
theorem Eng.InFlight.nextPc (h : g.InFlight y) :
    y.nextPc.pc = g.nextPc.pc ∧ y.nextPc.set.lc0 = g.nextPc.set.lc0 ∧ y.nextPc.set.branch = g.nextPc.set.branch := by
  have hpc : y.pc = g.pc := by rw [h.outside]
  have hbranch : y.set.branch = g.set.branch := by rw [h.running]
  have hloop : y.set.loopBlk = g.set.loopBlk := by rw [h.running]
  have hlc0 : y.set.lc0 = g.set.lc0 := by rw [h.running]
  unfold Eng.nextPc
  simp only [hpc, hbranch, hloop]
  rcases g.set.branch with _ | ⟨t, _ | k⟩
  · rcases g.set.loopBlk with _ | l
    · exact ⟨rfl, hlc0, hbranch⟩
    · dsimp only
      repeat' split
      · exact ⟨rfl, hlc0, hbranch⟩
      · simp only [Eng.modSet_pc, Eng.modSet_set]
        exact ⟨trivial, hlc0, hbranch⟩
      · simp only [Eng.modSet_pc, Eng.modSet_set]
        exact ⟨trivial, trivial, hbranch⟩
  · simp only [Eng.modSet_pc, Eng.modSet_set]
    exact ⟨trivial, hlc0, trivial⟩
  · dsimp only
    split <;> (simp only [Eng.modSet_pc, Eng.modSet_set]; exact ⟨trivial, hlc0, trivial⟩)

end

/-! ### The end of an instruction -/

/-- The engine after an instruction of `n` cycles whose own effect, accesses and advances left `y`. -/
def Eng.movedOn (y : Eng) (n : Nat) : Eng := y.nextPc.modSet fun r => { r with cyc := r.cyc + n }

section
variable {y : Eng} {n : Nat}

theorem Eng.movedOn_outside (y : Eng) (n : Nat) :
    y.movedOn n = { y with pc := y.nextPc.pc, cache := y.nextPc.cache, main := (y.movedOn n).main, shad := (y.movedOn n).shad } := by
  unfold Eng.movedOn
  rw [Eng.modSet_outside]
  generalize (y.nextPc.modSet fun r => { r with cyc := r.cyc + n }) = z
  rw [Eng.nextPc_outside]

theorem Eng.movedOn_other (y : Eng) (n : Nat) : y.KeepsOther (y.movedOn n) :=
  y.nextPc_other.trans (by rw [Eng.nextPc_outside]) Eng.modSet_other

theorem Eng.movedOn_running (y : Eng) (n : Nat) : (y.movedOn n).set =
    { y.set with branch := y.nextPc.set.branch, loopBlk := y.nextPc.set.loopBlk, lc0 := y.nextPc.set.lc0, cyc := y.set.cyc + n } := by
  unfold Eng.movedOn
  rw [Eng.modSet_set, Eng.nextPc_running]

section
variable {g : Eng} (h : g.InFlight y)
include h

theorem Eng.InFlight.movedOn_outside : y.movedOn n =
    { g with st := y.st, pc := g.nextPc.pc, cache := y.nextPc.cache, main := (y.movedOn n).main, shad := (y.movedOn n).shad } := by
  rw [Eng.movedOn_outside y n, h.nextPc.1]
  generalize y.movedOn n = z
  generalize y.nextPc = w
  rw [h.outside]

theorem Eng.InFlight.movedOn_other : g.KeepsOther (y.movedOn n) := h.other.trans h.inh (y.movedOn_other n)

theorem Eng.InFlight.movedOn_running : (y.movedOn n).set =
    { g.set with ag := y.set.ag, lands := y.set.lands, grp := y.set.grp, branch := g.nextPc.set.branch,
                 loopBlk := y.nextPc.set.loopBlk, lc0 := g.nextPc.set.lc0, cyc := g.set.cyc + n } := by
  obtain ⟨-, hlc0, hbranch⟩ := h.nextPc
  rw [Eng.movedOn_running, hlc0, hbranch]
  generalize y.nextPc = w
  rw [h.running]

end

end

section
variable {s v : State} {e : Nat} {o : EngOp} {own : List Field} {n : Nat}

theorem State.landed_st (h : s.canIssue e = true) : (s.landed e).st = .running := by
  simp only [State.canIssue, Bool.and_eq_true, beq_iff_eq] at h
  simp [State.landed, landTo_st, h.1.1]

theorem State.modEng_eng_other {j k : Nat} {f : Eng → Eng} (h : k ≠ j) : (s.modEng j f).eng k = s.eng k := getT_setT_other _ _ _ _ _ h

theorem State.finish_plain {k : IssueKind} (hk : k ≠ .hold ∧ k ≠ .micro) :
    s.finish v e k n o own = v.modEng e fun y => (s.accessed e o own y).movedOn n := by
  obtain ⟨h1, h2⟩ := hk
  have h : (k == .hold || k == .micro) = false := by simp [h1, h2]
  unfold State.finish
  simp only [h, Bool.false_eq_true, if_false]
  rfl

theorem State.finish_eng {k : IssueKind} (hk : k ≠ .hold ∧ k ≠ .micro) (h : (v.eng e).st ≠ .reset) :
    (s.finish v e k n o own).eng e = (s.accessed e o own (v.eng e)).movedOn n := by
  rw [State.finish_plain hk]
  apply eng_modEng
  rw [Eng.movedOn_outside]
  have hst := (s.accessed_inFlight e o own (v.eng e)).state
  rcases hst with hst | hst <;> simp [hst, h]

theorem State.issues_canIssue {k : IssueKind} {own : List Field} (h : s.issues e k o own = true) : s.canIssue e = true := by
  simp only [State.issues, Bool.and_eq_true] at h
  exact h.1.1

/-- The engine of an instruction that issues, as its own effect meets it. -/
theorem State.issues_eng {k : IssueKind} {own : List Field} (h : s.issues e k o own = true) : (s.atIssue e).eng e = s.landed e :=
  atIssue_eng s e (State.issues_canIssue h)

theorem State.atIssue_modEng_eng {f : Eng → Eng} (hc : s.canIssue e = true) (h : (f (s.landed e)).st ≠ .reset) :
    ((s.atIssue e).modEng e f).eng e = f (s.landed e) := by
  have hu := atIssue_eng s e hc
  rw [eng_modEng, hu]
  rwa [hu]

/-- The instruction's own effect gave `v`: results and accesses of engine `e` in flight, and perhaps free values drawn. -/
structure State.Fires (s : State) (e : Nat) (v : State) : Prop where
  only : v = { s with engs := v.engs, free := v.free }
  others : ∀ k, k ≠ e → v.eng k = s.eng k
  flight : (s.landed e).InFlight (v.eng e)

theorem Eng.InFlight.live {g y : Eng} (h : g.InFlight y) (hg : g.st = .running) : y.st ≠ .reset := by
  rcases h.state with e | e <;> simp [e, hg]

/-- An own effect of the engine alone. -/
theorem State.fires_modEng {f : Eng → Eng} (hc : s.canIssue e = true) (hf : (s.landed e).InFlight (f (s.landed e))) :
    s.Fires e ((s.atIssue e).modEng e f) where
  only := rfl
  others _ hk := (State.modEng_eng_other hk).trans (State.modEng_eng_other hk)
  flight := by rwa [State.atIssue_modEng_eng hc (hf.live (State.landed_st hc))]

theorem State.Fires.drawFree (h : s.Fires e v) : s.Fires e v.drawFree := by
  obtain ⟨honly, hothers, hflight⟩ := h
  exact ⟨by unfold State.drawFree; rw [honly], hothers, hflight⟩

section
variable (hc : s.canIssue e = true) (hv : s.Fires e v)
include hc hv

theorem State.Fires.finish_eng {k : IssueKind} (hk : k ≠ .hold ∧ k ≠ .micro) :
    (s.finish v e k n o own).eng e = (s.accessed e o own (v.eng e)).movedOn n :=
  State.finish_eng hk (hv.flight.live (State.landed_st hc))

/-- What an instruction fires stays in flight behind it. -/
theorem State.Fires.lands : (v.eng e).set.lands ⊆ ((s.finish v e .plain n o own).eng e).set.lands := by
  rw [hv.finish_eng hc (by decide), Eng.movedOn_running]
  exact (s.accessed_inFlight e o own (v.eng e)).lands

/-- The generators stay where the word has no access. -/
theorem State.Fires.gens (ho : fieldsOf o = some []) : ((s.finish v e .plain n o []).eng e).set.ag = (v.eng e).set.ag := by
  rw [hv.finish_eng hc (by decide), Eng.movedOn_running, State.accessed_none ho]

theorem State.Fires.step : EngStep s (s.finish v e .plain n o own) e n := by
  have hflight := hv.flight.trans (s.accessed_inFlight e o own (v.eng e))
  have heng : (s.finish v e .plain n o own).eng e = (s.accessed e o own (v.eng e)).movedOn n := hv.finish_eng hc (by decide)
  have hout := hflight.movedOn_outside (n := n)
  have hrun := hflight.movedOn_running (n := n)
  have hother := hflight.movedOn_other (n := n)
  rw [← heng] at hout hrun hother
  refine ⟨?only, fun k hk => (State.modEng_eng_other hk).trans (hv.others k hk), by rw [hout], by rw [hrun], by rw [hrun], by rw [hrun],
    by rw [hrun], by rw [hrun], by rw [hrun], hother, by rw [hout], by rw [hout], by rw [hout], by rw [hout], by rw [hout],
    by rw [hout], by rw [hout], by rw [hout], by rw [hout], by rw [hout], by rw [hout], by rw [hout], by rw [hout], by rw [hrun],
    by rw [hout]⟩
  case only =>
    have honly := hv.only
    rw [State.finish_plain (by decide)]
    generalize (fun y => (s.accessed e o own y).movedOn n) = f
    unfold State.modEng
    rw [honly]

end
end

/-! ### What an own effect answers -/

section
variable {s v : State} {e n c : Nat} {k : IssueKind} {o : EngOp} {own : List Field} {body : State → Except Nat State}
  (h : s.issues e k o own = true)
include h

theorem State.issue_ok (hb : body (s.atIssue e) = .ok v) : s.issue e k n o own body = s.finish v e k n o own := by
  rw [issue_eq _ _ _ _ _ _ _ h, hb]

theorem State.issue_error (hb : body (s.atIssue e) = .error c) : s.issue e k n o own body = (s.atIssue e).engFault e c := by
  rw [issue_eq _ _ _ _ _ _ _ h, hb]

end

/-! ### An instruction whose effect is its engine's alone -/

section
variable {s : State} {e n : Nat} {k : IssueKind} {o : EngOp} {own : List Field} {f : Eng → Eng}

/-- Nothing but engine `e` has changed. -/
def State.OnlyEng (e : Nat) (s t : State) : Prop := t = { s with engs := t.engs } ∧ ∀ k, k ≠ e → t.eng k = s.eng k

theorem State.finish_onlyEng : s.OnlyEng e (s.finish ((s.atIssue e).modEng e f) e k n o own) :=
  ⟨rfl, fun _ hj => ((State.modEng_eng_other hj).trans (State.modEng_eng_other hj)).trans (State.modEng_eng_other hj)⟩

/-- The engine behind such an instruction: what it left, with its accesses in flight, moved on. -/
theorem State.finish_own_eng (hc : s.canIssue e = true) (hk : k ≠ .hold ∧ k ≠ .micro) (hf : (f (s.landed e)).st = .running) :
    ∃ y, (f (s.landed e)).InFlight y ∧ (s.finish ((s.atIssue e).modEng e f) e k n o own).eng e = y.movedOn n := by
  have heng : ((s.atIssue e).modEng e f).eng e = f (s.landed e) := State.atIssue_modEng_eng hc (by simp [hf])
  refine ⟨s.accessed e o own (f (s.landed e)), s.accessed_inFlight .., ?_⟩
  rw [State.finish_eng hk (by simp [heng, hf]), heng]

end

end Sys2Proof.Machine
end

section
/-! SUPPORT. Proofs about the data results and the memory of the Cellek engines -/

namespace Sys2Proof.Machine

open Sys2Proof

/-! ### Conversion of results (R198) -/

theorem clampI_eq_max_min {lo hi : Int} (h : lo ≤ hi) (v : Int) : clampI lo hi v = max lo (min hi v) := by
  unfold clampI
  split
  · omega
  · split <;> omega

/-- Clipped under S, else wrapped. -/
theorem conv24_value (sat : Bool) (v : Int) :
    (conv24 sat v).1 = BitVec.ofInt 24 (if sat then max (-8388607) (min 8388607 v) else v) := by
  cases sat
  · rfl
  · exact congrArg (BitVec.ofInt 24) (clampI_eq_max_min (by decide) v)

/-- A clipped value stands in 24 bits as it is, and never at the end of the range. -/
theorem ofInt24_clipped_ne (v : Int) : (BitVec.ofInt 24 (max (-8388607) (min 8388607 v))).toInt ≠ -8388608 := by
  rw [BitVec.toInt_ofInt, Int.bmod_eq_of_le] <;> omega

/-! ### Results put in flight together -/

/-- Results that land later, each at its cycle. -/
def Eng.flyAll (g : Eng) (ls : List (Nat × Land)) : Eng := g.modSet fun r => { r with lands := r.lands ++ ls }

section
variable {g : Eng} {n : Nat} {l : Land} {ls : List (Nat × Land)}

theorem Eng.flyAll_inFlight (g : Eng) (ls : List (Nat × Land)) : g.InFlight (g.flyAll ls) :=
  Eng.inFlight_modSet (st := g.st) (.inl rfl) rfl (List.subset_append_left _ _)

theorem Eng.flyAll_lands : ls ⊆ (g.flyAll ls).set.lands := by
  unfold Eng.flyAll
  rw [Eng.modSet_set]
  exact List.subset_append_right _ _

theorem Eng.flyAll_ag : (g.flyAll ls).set.ag = g.set.ag := by
  unfold Eng.flyAll
  rw [Eng.modSet_set]

theorem Eng.fly_eq : g.fly n l = g.flyAll [(g.set.cyc + n, l)] := by
  unfold Eng.fly Eng.flyAll Eng.modSet Eng.set
  cases g.inh <;> rfl

theorem Eng.flyAll_fly : (g.flyAll ls).fly n l = g.flyAll (ls ++ [(g.set.cyc + n, l)]) := by
  unfold Eng.fly Eng.flyAll
  rw [Eng.modSet_modSet]
  unfold Eng.modSet Eng.set
  cases g.inh <;> simp

/-- Engine `y` is engine `g` with results in flight of which `l` is one. -/
def Eng.FliesWith (g : Eng) (l : Nat × Land) (y : Eng) : Prop := ∃ ls, y = g.flyAll ls ∧ l ∈ ls

theorem Eng.fly_fliesWith (g : Eng) (n : Nat) (l : Land) : g.FliesWith (g.set.cyc + n, l) (g.fly n l) :=
  ⟨_, Eng.fly_eq, by simp⟩

section
variable {m : Nat × Land} {y : Eng} (h : g.FliesWith m y)
include h

theorem Eng.FliesWith.inFlight : g.InFlight y := by
  obtain ⟨ls, rfl, -⟩ := h
  exact g.flyAll_inFlight ls

theorem Eng.FliesWith.fly (n : Nat) (l : Land) : g.FliesWith m (y.fly n l) := by
  obtain ⟨ls, rfl, hm⟩ := h
  exact ⟨_, Eng.flyAll_fly, List.mem_append_left _ hm⟩

/-- The sticky bits follow the results in flight. -/
theorem Eng.FliesWith.sticky (n : Nat) (sf ovf : Bool) : g.FliesWith m (y.sticky n sf ovf) := by
  cases sf <;> cases ovf
  · exact h
  · exact h.fly n .ovf
  · exact h.fly n .satf
  · exact (h.fly n .satf).fly n .ovf

end

/-- An ALU result is in flight for two cycles, with its flags (R193, R198). -/
theorem Eng.aluResult_flies (g : Eng) (dst : Nat) (sat : Bool) (v : Int) (c : Bool) :
    g.FliesWith (g.set.cyc + 2, .d dst (conv24 sat v).1) (g.aluResult dst sat v c) :=
  ((g.fly_fliesWith 2 _).fly 2 _).sticky 2 _ _

end

/-! ### Instructions whose results are all in flight -/

section
variable {s : State} {e n : Nat} {o : EngOp} {f : Eng → Eng} {l : Nat × Land}

/-- The effect of an instruction that puts results in flight, `l` among them. -/
def State.Gives (s : State) (e n : Nat) (o : EngOp) (l : Nat × Land) (t : State) : Prop :=
  EngStep s t e n ∧ l ∈ (t.eng e).set.lands ∧ (fieldsOf o = some [] → (t.eng e).set.ag = (s.landed e).set.ag)

theorem State.Fires.gives {v : State} (hc : s.canIssue e = true) (hv : s.Fires e v) (hl : (s.landed e).FliesWith l (v.eng e)) :
    s.Gives e n o l (s.finish v e .plain n o []) := by
  obtain ⟨ls, hy, hmem⟩ := hl
  refine ⟨hv.step hc, hv.lands hc ?_, fun ho => ?_⟩
  · rw [hy]; exact Eng.flyAll_lands hmem
  · rw [hv.gens hc ho, hy, Eng.flyAll_ag]

theorem State.issueEng_gives (h : s.issues e .plain o [] = true) (hf : (s.landed e).FliesWith l (f (s.landed e))) :
    s.Gives e n o l (s.issueEng e n o f) := by
  have hc := State.issues_canIssue h
  have heng : ((s.atIssue e).modEng e f).eng e = f (s.landed e) := State.atIssue_modEng_eng hc (hf.inFlight.live (State.landed_st hc))
  unfold State.issueEng
  rw [issue_eq _ _ _ _ _ _ _ h]
  exact (State.fires_modEng hc hf.inFlight).gives hc (by rw [heng]; exact hf)

/-- An operation whose carry is a free value. -/
theorem State.aluFree_gives {f : Eng → Bool → Eng} (h : s.issues e .plain o [] = true)
    (hf : ∀ c, (s.landed e).FliesWith l (f (s.landed e) c)) : s.Gives e 1 o l (s.aluFree e o f) := by
  have hc := State.issues_canIssue h
  unfold State.aluFree
  rw [issue_eq _ _ _ _ _ _ _ h]
  generalize ((s.atIssue e).freeNat % 2 == 1) = c
  have heng : (((s.atIssue e).modEng e fun x => f x c).drawFree).eng e = f (s.landed e) c :=
    State.atIssue_modEng_eng (f := fun x => f x c) hc ((hf c).inFlight.live (State.landed_st hc))
  exact (State.fires_modEng hc (hf c).inFlight).drawFree.gives hc (by rw [heng]; exact hf c)

end

/-- Settles O47, by what each operation puts in flight. -/
theorem dataResultsClipOrWrap : Obligations.DataResultsClipOrWrap := by
  refine ⟨ofInt24_clipped_ne, fun g n v h => ?landed, fun e o dst x y acc sh s h => ?results⟩
  case landed =>
    unfold Eng.land
    rw [Eng.modSet_set]
    exact getT_setT_self _ _ _ _ _ h
  case results =>
    have alu (v : Int) (c : Bool) : (s.landed e).FliesWith
        ((s.landed e).set.cyc + 2, .d dst (BitVec.ofInt 24 (if o.sat then max (-8388607) (min 8388607 v) else v)))
        ((s.landed e).aluResult dst o.sat v c) := conv24_value o.sat v ▸ Eng.aluResult_flies ..
    have rnd (v : Int) : (s.landed e).FliesWith
        ((s.landed e).set.cyc + 3, .d dst (BitVec.ofInt 24 (if o.sat then max (-8388607) (min 8388607 v) else v)))
        (((s.landed e).fly 3 (.d dst (conv24 o.sat v).1)).sticky 3 (conv24 o.sat v).2.1 (conv24 o.sat v).2.2) :=
      conv24_value o.sat v ▸ (Eng.fly_fliesWith ..).sticky ..
    exact ⟨⟨_, rfl, State.issueEng_gives h (rnd _)⟩, ⟨_, rfl, State.issueEng_gives h (Eng.fly_fliesWith ..)⟩,
      ⟨_, rfl, State.issueEng_gives h (alu ..)⟩, ⟨_, rfl, State.aluFree_gives h (alu _)⟩, ⟨_, rfl, State.aluFree_gives h (alu _)⟩,
      ⟨_, rfl, State.aluFree_gives h (alu _)⟩, ⟨_, rfl, State.aluFree_gives h (alu _)⟩, ⟨_, rfl, State.aluFree_gives h (alu _)⟩⟩

end Sys2Proof.Machine
end

section
/-! SUPPORT. Proofs about the memory of the Cellek engines: the accesses that an operation makes itself, the moves between the
register sets, and what a group-memory return does. -/

namespace Sys2Proof.Machine

open Sys2Proof

/-! ### An operation's own access (R195, R196, R200) -/

section
variable {g : Eng} {bus : EBus} {n : Fin 16} {ag w : Nat} {adv : Bool}

theorem RegSet.readReg_data (r : RegSet) (n : Fin 16) : r.readReg n = r.dv n := if_pos n.isLt

theorem Eng.access_load (h : isGroupWord bus w = false) :
    g.access (ownField false bus n ag adv) w = g.fly 3 (.load n bus w) := by simp [Eng.access, ownField, h]

theorem Eng.access_store {off : Nat} (h : isGroupWord bus w = false) (ho : busOff bus w = some off) :
    g.access (ownField true bus n ag adv) w = g.fly 2 (.store off (container (g.set.dv n))) := by
  simp [Eng.access, ownField, h, ho, RegSet.readReg_data]

theorem Eng.access_groupLoad (h : isGroupWord bus w = true) :
    g.access (ownField false bus n ag adv) w = g.groupAccess { reg := some n, off := (w - 0x80000) * 4 } := by
  simp [Eng.access, ownField, h]

theorem Eng.access_groupStore (h : isGroupWord bus w = true) :
    g.access (ownField true bus n ag adv) w = g.groupAccess { off := (w - 0x80000) * 4, data := g.set.dv n } := by
  simp [Eng.access, ownField, h, RegSet.readReg_data]

end

section
variable {s : State} {e : Nat} {o : EngOp} {f : Field} {ok : Nat → Bool} {start : Eng → Nat → Eng}
  (h : s.issues e .plain o [f] = true)
include h

theorem State.memOp_eq : s.memOp e o f ok start =
    if ok ((s.landed e).eaOf f.ag) then
      s.finish ((s.atIssue e).modEng e fun g => start g ((s.landed e).eaOf f.ag)) e .plain 1 o [f]
    else (s.atIssue e).engFault e fcDecerr := by
  unfold State.memOp
  rw [issue_eq _ _ _ _ _ _ _ h, State.issues_eng h]
  dsimp only
  cases ok ((s.landed e).eaOf f.ag) <;> rfl

theorem State.memOp_refused (hok : ok ((s.landed e).eaOf f.ag) = false) : s.memOp e o f ok start = (s.atIssue e).engFault e fcDecerr := by
  rw [State.memOp_eq h, hok]
  rfl

/-- An access of local memory is in flight behind its instruction. -/
theorem State.memOp_lands {k : Nat} {l : Land} (hok : ok ((s.landed e).eaOf f.ag) = true)
    (hs : start (s.landed e) ((s.landed e).eaOf f.ag) = (s.landed e).fly k l) :
    EngStep s (s.memOp e o f ok start) e 1 ∧
      ((s.landed e).set.cyc + k, l) ∈ ((s.memOp e o f ok start).eng e).set.lands := by
  have hc := State.issues_canIssue h
  have hv : s.Fires e ((s.atIssue e).modEng e fun g => start g ((s.landed e).eaOf f.ag)) :=
    State.fires_modEng hc (hs ▸ Eng.fly_inFlight _ k l)
  rw [State.memOp_eq h, if_pos hok]
  refine ⟨hv.step hc, hv.lands hc ?_⟩
  rw [State.atIssue_modEng_eng hc, hs]
  · simp [Eng.fly]
  · rw [hs]; exact (Eng.fly_inFlight _ k l).live (State.landed_st hc)

/-- An access of group memory stalls the engine. -/
theorem State.memOp_stalls {a : GrpAcc} (hok : ok ((s.landed e).eaOf f.ag) = true)
    (hw : isGroupWord f.bus ((s.landed e).eaOf f.ag) = true)
    (hs : start (s.landed e) ((s.landed e).eaOf f.ag) = (s.landed e).groupAccess a) :
    EngStep s (s.memOp e o f ok start) e 1 ∧
      ((s.memOp e o f ok start).eng e).st = .stalled ∧ ((s.memOp e o f ok start).eng e).set.grp = some a := by
  have hc := State.issues_canIssue h
  have hv : s.Fires e ((s.atIssue e).modEng e fun g => start g ((s.landed e).eaOf f.ag)) :=
    State.fires_modEng hc (hs ▸ Eng.groupAccess_inFlight _ a)
  have heng : ((s.atIssue e).modEng e fun g => start g ((s.landed e).eaOf f.ag)).eng e = (s.landed e).groupAccess a := by
    rw [State.atIssue_modEng_eng hc, hs]
    rw [hs]; exact (Eng.groupAccess_inFlight _ a).live (State.landed_st hc)
  obtain ⟨hst, hgrp⟩ := State.accessed_keepsGroup h hw ((s.landed e).groupAccess a)
  rw [State.memOp_eq h, if_pos hok]
  refine ⟨hv.step hc, ?_⟩
  rw [hv.finish_eng hc (by decide), heng, Eng.movedOn_running, Eng.movedOn_outside, hst, hgrp]
  exact ⟨modSet_st .., by simp [Eng.groupAccess]⟩

end

/-- LDH into an even register is the access of a sample (R195). -/
theorem exec_ldh_even {s : State} {e : Fin 96} {o : EngOp} {bus : EBus} {n : Fin 16} {ag : Fin 8} {adv : Bool} (h : n.val % 2 = 0) :
    exec (.ldh e o bus n ag adv) s = .next (s.memOp e o (ownField false bus n ag adv) (fun _ => true) fun g w =>
      if isGroupWord bus w then g.groupAccess { reg := some n, half := true, off := (w - 0x80000) * 4 } else g.fly 3 (.loadH n bus w)) :=
  if_neg (by simp [h])

/-! ### Moves between the register sets (R206) -/

section
variable {g : Eng} {b : Bool} {x : EngReg} {v : Nat}

theorem Eng.writeMv_outside (g : Eng) (b : Bool) (x : EngReg) (v : Nat) :
    (g.writeMv b x v).inh = g.inh ∧ (g.writeMv b x v).st = g.st := by
  cases x <;> cases b <;> exact ⟨rfl, rfl⟩

theorem Eng.writeMv_main : (g.writeMv true x v).shad = g.shad := by cases x <;> rfl
theorem Eng.writeMv_shadow : (g.writeMv false x v).main = g.main := by cases x <;> rfl

/-- The value that MVM reads: in the main set where it writes the shadow set, and the other way round. -/
def Eng.mvmValue (g : Eng) (now : Nat) (toMain : Bool) (src : EngReg) : Nat :=
  if src = .tmr then (g.tmrValue now).toNat else if toMain then g.readReg g.shad true src else g.readReg g.main false src

/-- The engine after MVM's own effect; a timer counts from now. -/
def Eng.mvm (g : Eng) (now : Nat) (toMain : Bool) (src dst : EngReg) : Eng :=
  let m := g.writeMv toMain dst (g.mvmValue now toMain src)
  { m with tmrAt := if dst = .tmr then now else m.tmrAt }

end

section
variable {s : State} {e : Fin 96} {o : EngOp} {toMain : Bool} {src dst : EngReg} (h : s.issues e .plain o [] = true)
include h

theorem exec_mvm_main (hi : (s.landed e).inh = false) :
    exec (.mvm e o toMain src dst) s = .next ((s.atIssue e).engFault e fcSeq) := by
  refine congrArg Host.Outcome.next ((issue_eq _ _ _ _ _ _ _ h).trans ?_)
  rw [State.issues_eng h, hi]
  rfl

theorem exec_mvm_shadow (hi : (s.landed e).inh = true) : exec (.mvm e o toMain src dst) s =
    .next (s.finish ((s.atIssue e).modEng e fun g => g.mvm s.now toMain src dst) e .plain 1 o []) := by
  have hbody : (fun g : Eng =>
      let t := g.tmrValue (s.atIssue e).now
      let v := match src with | .tmr => t.toNat | _ => if toMain then g.readReg g.shad true src else g.readReg g.main false src
      let g := g.writeMv toMain dst v
      match dst with | .tmr => { g with tmrAt := (s.atIssue e).now } | _ => g) = fun g => g.mvm s.now toMain src dst := by
    funext g
    cases src <;> cases dst <;> rfl
  refine congrArg Host.Outcome.next ((issue_eq _ _ _ _ _ _ _ h).trans ?_)
  rw [State.issues_eng h, hi, ← hbody]
  rfl

end

section
variable {s : State} {e : Nat} {o : EngOp} {toMain : Bool} {src dst : EngReg}

/-- What MVM of the shadow set leaves: what it wrote beside the running set, and in the running set the registers. -/
theorem State.mvm_leaves (hc : s.canIssue e = true) (hi : (s.landed e).inh = true) :
    let y := (s.finish ((s.atIssue e).modEng e fun g => g.mvm s.now toMain src dst) e .plain 1 o []).eng e
    let m := (s.landed e).writeMv toMain dst ((s.landed e).mvmValue s.now toMain src)
    y.main = m.main ∧ y.spc = m.spc ∧ y.rpi = m.rpi ∧ y.tmr = m.tmr ∧ y.imaskLo = m.imaskLo ∧ y.imaskHi = m.imaskHi ∧
      y.shad.d = m.shad.d ∧ y.shad.a = m.shad.a ∧ y.shad.sr = m.shad.sr := by
  dsimp only
  obtain ⟨hinh, hst⟩ := (s.landed e).writeMv_outside toMain dst ((s.landed e).mvmValue s.now toMain src)
  obtain ⟨y, hy, heng⟩ := State.finish_own_eng (f := fun g => g.mvm s.now toMain src dst) (k := .plain) (n := 1) (o := o) (own := [])
    hc (by decide) (hst.trans (State.landed_st hc))
  have hout := hy.movedOn_outside (n := 1)
  have hother := hy.movedOn_other (n := 1)
  have hrun := hy.movedOn_running (n := 1)
  have hx : ((s.landed e).mvm s.now toMain src dst).inh = true := hinh.trans hi
  unfold Eng.KeepsOther at hother
  rw [hx, if_pos rfl] at hother
  rw [Eng.set_shadow (by rw [hout]; exact hx), Eng.set_shadow hx] at hrun
  rw [heng]
  refine ⟨hother, by rw [hout]; rfl, by rw [hout]; rfl, by rw [hout]; rfl, by rw [hout]; rfl, by rw [hout]; rfl,
    by rw [hrun]; rfl, by rw [hrun]; rfl, by rw [hrun]; rfl⟩

end

/-! ### GROUP_MEMORY_RETURN (R196) -/

section
variable {s : State} {e : Nat} {a : GrpAcc}

/-- Making an access leaves the state of an engine that is not in reset. -/
theorem State.groupMake_st (h : (s.eng e).st ≠ .reset) : ((s.groupMake e a fun f y => y.modSet f).eng e).st = (s.eng e).st := by
  have hmod (f : RegSet → RegSet) : ((s.modEng e fun y => y.modSet f).eng e).st = (s.eng e).st := by
    rw [eng_modEng _ _ _ (by rwa [modSet_st]), modSet_st]
  unfold State.groupMake
  split
  · rfl
  · dsimp only
    split <;> exact hmod _

theorem Eng.live_of_st {x y : Eng} (h : x.st = y.st) : x.live = y.live := by simp [Eng.live, h]

theorem Eng.live_not_reset {x : Eng} (h : x.live = true) : x.st ≠ .reset := fun hr => by simp [Eng.live, hr] at h

section
variable (hr : s.inReset (21 + e / 8) = false)
include hr

theorem State.groupReturn_none (hi : (s.eng e).inh = false) (hg : (s.eng e).main.grp = none) : s.groupReturn e = s := by
  simp [State.groupReturn, hr, hi, Eng.set_main hi, hg]

/-- The running set's access is made, and its engine goes on. -/
theorem State.groupReturn_running (hi : (s.eng e).inh = false) (hg : (s.eng e).main.grp = some a) (hl : (s.eng e).live = true) :
    s.groupReturn e =
      let v := s.drawFree.modEng e fun y =>
        let y := y.modSet fun r => { r with cyc := r.cyc + s.freeNat % 32, grp := none }
        y.landTo y.set.cyc
      (v.groupMake e a fun f y => y.modSet f).goOn e := by
  dsimp only
  have hst : ((s.drawFree.modEng e fun y =>
      let y := y.modSet fun r => { r with cyc := r.cyc + s.freeNat % 32, grp := none }
      y.landTo y.set.cyc).eng e).st = (s.eng e).st := by
    rw [eng_modEng _ _ _ (by rw [landTo_st, modSet_st]; exact Eng.live_not_reset hl), landTo_st, modSet_st]
    rfl
  have hmake := State.groupMake_st (a := a) (hst ▸ Eng.live_not_reset hl)
  have hlive := (Eng.live_of_st (hmake.trans hst)).trans hl
  unfold State.groupReturn
  simp only [hr, hi, Eng.set_main hi, hg, Bool.false_and, Bool.false_eq_true, if_false]
  exact if_pos hlive

/-- An interrupted program's access is made in its own set. -/
theorem State.groupReturn_parked (hi : (s.eng e).inh = true) (hg : (s.eng e).main.grp = some a) : s.groupReturn e =
    (s.groupMake e a fun f y => { y with main := f y.main }).modEng e fun y => { y with main := { y.main with grp := none } } := by
  simp [State.groupReturn, hr, hi, hg]

end
end

/-- Settles O49, operation by operation. -/
theorem engineLoadsStoresAndMoves : Obligations.EngineLoadsStoresAndMoves := by
  intro e o bus n ag adv toMain src dst s
  refine ⟨fun h => ⟨fun hw => ?loads, fun hw => ?groupLoads⟩, fun h => ⟨fun k hw hk => ?stores, fun hw => ?groupStores⟩,
    fun hc hn => if_pos (by simp [hc, hn]), fun h => ⟨exec_mvm_main h, fun hi => ⟨?toMain, ?toShadow⟩⟩,
    fun hr => congrArg Host.Outcome.next (if_pos hr), 
    fun hr => ⟨fun hi hg => congrArg Host.Outcome.next (State.groupReturn_none hr hi hg),
      fun a hi hg hl => congrArg Host.Outcome.next (State.groupReturn_running hr hi hg hl),
      fun a hi hg => congrArg Host.Outcome.next (State.groupReturn_parked hr hi hg)⟩⟩
  case loads =>
    exact ⟨⟨_, rfl, State.memOp_lands h rfl (Eng.access_load hw)⟩,
      fun hn => ⟨_, exec_ldh_even hn, State.memOp_lands h rfl (if_neg (Bool.eq_false_iff.mp hw))⟩,
      congrArg Host.Outcome.next (State.memOp_refused h hw)⟩
  case groupLoads =>
    exact ⟨⟨_, rfl, State.memOp_stalls h rfl hw (Eng.access_groupLoad hw)⟩,
      ⟨_, rfl, State.memOp_stalls h hw hw (Eng.access_groupLoad hw)⟩,
      fun hn => ⟨_, exec_ldh_even hn, State.memOp_stalls h rfl hw (if_pos hw)⟩⟩
  case stores =>
    exact ⟨⟨_, rfl, State.memOp_lands h rfl (Eng.access_store hw hk)⟩, congrArg Host.Outcome.next (State.memOp_refused h hw)⟩
  case groupStores =>
    exact ⟨⟨_, rfl, State.memOp_stalls h rfl hw (Eng.access_groupStore hw)⟩,
      ⟨_, rfl, State.memOp_stalls h hw hw (Eng.access_groupStore hw)⟩⟩
  case toMain =>
    obtain ⟨hmain, hspc, hrpi, htmr, hlo, hhi, hd, ha, -⟩ :=
      State.mvm_leaves (toMain := true) (src := src) (dst := dst) (o := o) (State.issues_canIssue h) hi
    rw [Eng.writeMv_main] at hd ha
    exact ⟨_, exec_mvm_shadow h hi, State.finish_onlyEng.1, State.finish_onlyEng.2, hmain, hspc, hrpi, htmr, hlo, hhi, hd, ha⟩
  case toShadow =>
    obtain ⟨hmain, hspc, hrpi, htmr, hlo, hhi, hd, ha, hsr⟩ :=
      State.mvm_leaves (toMain := false) (src := src) (dst := dst) (o := o) (State.issues_canIssue h) hi
    rw [Eng.writeMv_shadow] at hmain
    exact ⟨_, exec_mvm_shadow h hi, State.finish_onlyEng.1, State.finish_onlyEng.2, hmain, hd, ha, hsr, hspc, hrpi, htmr, hlo, hhi⟩

end Sys2Proof.Machine
end

section
/-! SUPPORT. Proofs about the order of an engine's instructions: the delay slots of branches, calls and returns, and what the
sequence around the PC refuses. -/

namespace Sys2Proof.Machine

open Sys2Proof

/-! ### The delay slots of a branch (R202) -/

section
variable {g : Eng} {t k : Nat}

/-- Before the last slot the PC moves on and the branch stays pending. -/
theorem Eng.nextPc_slot (h : g.set.branch = some (t, k + 2)) :
    g.nextPc.pc = g.pc + 1 ∧ g.nextPc.set.branch = some (t, k + 1) := by
  unfold Eng.nextPc
  simp only [h]
  rw [if_neg (by simp), Eng.modSet_pc, Eng.modSet_set]
  exact ⟨rfl, rfl⟩

/-- Behind the last slot stands the target. -/
theorem Eng.nextPc_target (h : g.set.branch = some (t, 1)) : g.nextPc.pc = BitVec.ofNat 13 t ∧ g.nextPc.set.branch = none := by
  unfold Eng.nextPc
  simp only [h, beq_self_eq_true, if_true]
  rw [Eng.modSet_pc, Eng.modSet_set]
  exact ⟨rfl, rfl⟩

theorem Eng.nextPc_next (hb : g.set.branch = none) (hl : g.set.loopBlk = none) :
    g.nextPc.pc = g.pc + 1 ∧ g.nextPc.set.branch = none := by
  unfold Eng.nextPc
  simp only [hb, hl]
  exact ⟨trivial, hb⟩

end

/-! ### Branches, calls and returns -/

/-- The own effect of a jump: where it goes behind its slots, if anywhere, the return stack and the counter it leaves. -/
def Eng.jump (g : Eng) (into : Option Nat) (ret : List Nat) (lc1 : BitVec 16) : Eng :=
  g.modSet fun r => { r with branch := into.map (·, 3), retStack := ret, lc1 := lc1 }

section
variable {g : Eng} {into : Option Nat} {ret : List Nat} {lc1 : BitVec 16}

theorem Eng.jump_nextPc (hl : g.set.loopBlk = none) :
    (g.jump into ret lc1).nextPc.pc = g.pc + 1 ∧ (g.jump into ret lc1).nextPc.set.branch = into.map (·, 2) := by
  have hpc : (g.jump into ret lc1).pc = g.pc := Eng.modSet_pc
  have hset : (g.jump into ret lc1).set = { g.set with branch := into.map (·, 3), retStack := ret, lc1 := lc1 } := Eng.modSet_set
  rw [← hpc]
  cases into with
  | none => exact Eng.nextPc_next (by rw [hset]; rfl) (by rw [hset]; exact hl)
  | some t => exact Eng.nextPc_slot (k := 1) (by rw [hset]; rfl)

theorem Eng.branchTo_jump (t : Nat) : g.branchTo t = g.jump (some t) g.set.retStack g.set.lc1 := Eng.modSet_congr rfl

/-- A call pushes the address behind its slots. -/
theorem Eng.call_jump (t a : Nat) :
    (g.modSet fun r => { r with retStack := a :: r.retStack }).branchTo t = g.jump (some t) (a :: g.set.retStack) g.set.lc1 := by
  unfold Eng.branchTo
  rw [Eng.modSet_modSet]
  exact Eng.modSet_congr rfl

theorem Eng.ret_jump (t : Nat) (r : List Nat) :
    (g.modSet fun x => { x with retStack := r }).branchTo t = g.jump (some t) r g.set.lc1 := by
  unfold Eng.branchTo
  rw [Eng.modSet_modSet]
  exact Eng.modSet_congr rfl

/-- DBNZ goes on once its counter is 0. -/
theorem Eng.dbnz_jump (hb : g.set.branch = none) (t : Nat) :
    (let y := g.modSet fun r => { r with lc1 := r.lc1 - 1 }; if y.set.lc1 != 0 then y.branchTo t else y) =
      g.jump (if g.set.lc1 - 1 = 0 then none else some t) g.set.retStack (g.set.lc1 - 1) := by
  dsimp only
  rw [Eng.modSet_set]
  by_cases h0 : g.set.lc1 - 1 = 0
  · rw [if_neg (by simpa using h0), if_pos h0]
    exact Eng.modSet_congr (by rw [Option.map_none, ← hb])
  · rw [if_pos (by simpa using h0), if_neg h0]
    unfold Eng.branchTo
    rw [Eng.modSet_modSet]
    exact Eng.modSet_congr rfl

theorem Eng.jump_none (hb : g.set.branch = none) : g.jump none g.set.retStack g.set.lc1 = g :=
  Eng.modSet_self (by rw [Option.map_none, ← hb])

end

section
variable {s : State} {e : Nat} {o : EngOp} {into : Option Nat} {ret : List Nat} {lc1 : BitVec 16} {f : Eng → Eng}

/-- What a jump leaves: a branch pending behind two slots, or none. -/
def State.Jumped (s : State) (e : Nat) (into : Option Nat) (ret : List Nat) (lc1 : BitVec 16) (t : State) : Prop :=
  let g := s.landed e
  t = { s with engs := t.engs } ∧ (∀ k, k ≠ e → t.eng k = s.eng k) ∧ (t.eng e).pc = g.pc + 1 ∧ (t.eng e).inh = g.inh ∧
    (t.eng e).set.branch = into.map (fun x => (x, 2)) ∧ (t.eng e).set.retStack = ret ∧ (t.eng e).set.lc1 = lc1 ∧
    (t.eng e).set.d = g.set.d ∧ (t.eng e).set.a = g.set.a ∧ (t.eng e).set.sr = g.set.sr ∧ (t.eng e).mem = g.mem

theorem State.issues_straight {own : List Field} (h : s.issues e .jump o own = true) :
    (s.landed e).set.branch = none ∧ (s.landed e).set.loopBlk = none := by
  simp only [State.issues, Bool.and_eq_true, seqFault, Bool.not_eq_true', Bool.or_eq_false_iff, Option.isSome_eq_false_iff,
    Option.isNone_iff_eq_none] at h
  exact h.1.2

theorem State.finish_jumped (h : s.issues e .jump o [] = true) (hf : f (s.landed e) = (s.landed e).jump into ret lc1) :
    s.Jumped e into ret lc1 (s.finish ((s.atIssue e).modEng e f) e .jump 1 o []) := by
  have hc := State.issues_canIssue h
  obtain ⟨-, hl⟩ := State.issues_straight h
  obtain ⟨hpc, hbranch⟩ := Eng.jump_nextPc (into := into) (ret := ret) (lc1 := lc1) hl
  obtain ⟨y, hy, heng⟩ := State.finish_own_eng (f := f) (k := .jump) (n := 1) (o := o) (own := []) hc (by decide)
    (by rw [hf]; exact (modSet_st ..).trans (State.landed_st hc))
  rw [hf] at hy
  have hset : ((s.landed e).jump into ret lc1).set =
      { (s.landed e).set with branch := into.map (·, 3), retStack := ret, lc1 := lc1 } := Eng.modSet_set
  have hout := hy.movedOn_outside (n := 1)
  have hrun := hy.movedOn_running (n := 1)
  rw [hpc] at hout
  rw [hbranch, hset] at hrun
  unfold State.Jumped
  rw [heng]
  exact ⟨State.finish_onlyEng.1, State.finish_onlyEng.2, by rw [hout], by rw [hout]; exact Eng.modSet_inh, by rw [hrun], by rw [hrun],
    by rw [hrun], by rw [hrun], by rw [hrun], by rw [hrun], by rw [hout]; exact Eng.modSet_mem⟩

/-- A jump whose own effect is the engine's alone. -/
theorem State.issue_jumped (h : s.issues e .jump o [] = true) (hf : f (s.landed e) = (s.landed e).jump into ret lc1) :
    s.Jumped e into ret lc1 (s.issue e .jump 1 o [] (State.engBody e f)) := by
  rw [issue_eq _ _ _ _ _ _ _ h]
  exact State.finish_jumped h hf

end

/-! ### Instructions that their place refuses (R202, R203) -/

section
variable {s : State} {e n : Nat} {k : IssueKind} {o : EngOp} {own : List Field} {body : State → Except Nat State} {post : State → State}
  {c : Nat}

theorem State.issue_misplaced (hc : s.canIssue e = true) (ho : (fieldsOf o).isSome = true) (hq : seqFault (s.landed e).set k = true) :
    s.issue e k n o own body = (s.atIssue e).engFault e fcSeq := by
  have hx := atIssue_eng s e hc
  have he : (s.modEng e fun x => { (x.landTo x.set.cyc) with issued := x.issued || !x.inh }) = s.atIssue e := rfl
  unfold fieldsOf at ho
  unfold State.issue
  simp only [hc, Bool.not_true, Bool.false_eq_true, if_false, he, hx]
  cases ha : fieldOfBits o.ma <;> cases hb : fieldOfBits o.mb <;> simp only [ha, hb, Option.isSome_none, Bool.false_eq_true] at ho ⊢
  exact if_pos hq

/-- What the host interface keeps is none of the engines. -/
theorem State.HostOnly.eng {t : State} (h : s.HostOnly t) (j : Nat) : t.eng j = s.eng j := by rw [h]; rfl

theorem State.engFault_st : ((s.engFault e c).eng e).st = .fault := by
  unfold State.engFault
  rw [(State.postEvt_only ..).eng, eng_modEng s e _ (by simp)]

/-- What follows an instruction does not follow one that faults. -/
theorem State.issueThen_fault (hc : s.canIssue e = true) (hi : s.issue e k n o own body = (s.atIssue e).engFault e c) :
    s.issueThen e k n o own body post = (s.atIssue e).engFault e c := by
  unfold State.issueThen
  simp only [hc, hi, State.engFault_st, Bool.not_true, Bool.false_eq_true, if_false, beq_self_eq_true, if_true]

end

section
variable {s : State} {e : Fin 96} {o : EngOp} {tgt : BitVec 13} (h : s.issues e .jump o [] = true)
include h

theorem exec_call_full (hl : 8 ≤ (s.landed e).set.retStack.length) :
    exec (.call e o tgt) s = .next ((s.atIssue e).engFault e fcSeq) :=
  congrArg Host.Outcome.next (State.issue_error h (if_pos (by rwa [State.issues_eng h])))

theorem exec_call_pushes (hl : (s.landed e).set.retStack.length < 8) : exec (.call e o tgt) s =
    .next (s.finish ((s.atIssue e).modEng e fun g =>
      (g.modSet fun r => { r with retStack := (g.pc + 3).toNat :: r.retStack }).branchTo tgt.toNat) e .jump 1 o []) :=
  congrArg Host.Outcome.next (State.issue_ok h (if_neg (by rw [State.issues_eng h]; omega)))

theorem exec_ret_empty (hr : (s.landed e).set.retStack = []) : exec (.ret e o) s = .next ((s.atIssue e).engFault e fcSeq) := by
  refine congrArg Host.Outcome.next (State.issue_error h ?_)
  simp only [State.issues_eng h, hr]

theorem exec_ret_pops {t : Nat} {r : List Nat} (hr : (s.landed e).set.retStack = t :: r) : exec (.ret e o) s =
    .next (s.finish ((s.atIssue e).modEng e fun g => (g.modSet fun x => { x with retStack := r }).branchTo t) e .jump 1 o []) := by
  refine congrArg Host.Outcome.next (State.issue_ok h ?_)
  simp only [State.issues_eng h, hr]

end

/-- A NOP moves the PC on. -/
theorem State.nop_moves {s : State} {e : Nat} {o : EngOp} (h : s.issues e .plain o [] = true) :
    ((s.issueEng e 1 o id).eng e).pc = (s.landed e).nextPc.pc ∧
      ((s.issueEng e 1 o id).eng e).set.branch = (s.landed e).nextPc.set.branch := by
  have hc := State.issues_canIssue h
  obtain ⟨y, hy, heng⟩ := State.finish_own_eng (f := id) (k := .plain) (n := 1) (o := o) (own := []) hc (by decide) (State.landed_st hc)
  have hfinish : s.issueEng e 1 o id = s.finish ((s.atIssue e).modEng e id) e .plain 1 o [] := State.issue_ok h rfl
  rw [hfinish, heng, hy.movedOn_running, hy.movedOn_outside]
  exact ⟨rfl, rfl⟩

/-- Settles O50, instruction by instruction. -/
theorem branchesHaveTwoDelaySlots : Obligations.BranchesHaveTwoDelaySlots := by
  refine ⟨fun g t h => Eng.nextPc_slot (k := 0) h, fun g t h => Eng.nextPc_target h, fun e o tgt cond n len sh q st a1 a2 a3 s =>
    ⟨fun h => ?nop, fun h => ?jumps, fun hc ho hb => ?misplaced⟩⟩
  case nop => exact ⟨_, rfl, State.nop_moves h⟩
  case jumps =>
    obtain ⟨hb, -⟩ := State.issues_straight h
    refine ⟨⟨_, rfl, State.issue_jumped h (Eng.branchTo_jump _)⟩, ⟨_, rfl, State.issue_jumped h ?brc⟩,
      ⟨_, rfl, State.issue_jumped h (Eng.dbnz_jump hb _)⟩,
      fun hl => ⟨_, exec_call_pushes h hl, State.finish_jumped h (Eng.call_jump ..)⟩,
      exec_call_full h, fun t r hr => ⟨_, exec_ret_pops h hr, State.finish_jumped h (Eng.ret_jump ..)⟩, exec_ret_empty h⟩
    case brc =>
      cases (s.landed e).set.holds cond with
      | true => exact Eng.branchTo_jump _
      | false => exact (Eng.jump_none hb).symm
  case misplaced =>
    have hjump : seqFault (s.landed e).set .jump = true := by simp [seqFault, hb]
    have hmicro : seqFault (s.landed e).set .micro = true := hjump
    have faults (n : Nat) (body : State → Except Nat State) : s.issue e .jump n o [] body = (s.atIssue e).engFault e fcSeq :=
      State.issue_misplaced hc ho hjump
    refine ⟨congrArg Host.Outcome.next (faults ..), congrArg Host.Outcome.next (faults ..), congrArg Host.Outcome.next (faults ..),
      congrArg Host.Outcome.next (faults ..), congrArg Host.Outcome.next (faults ..),
      fun h1 h2 => (if_neg (by simp [within, h1, h2])).trans (congrArg Host.Outcome.next (faults ..)),
      congrArg Host.Outcome.next (State.issueThen_fault hc (faults ..)), congrArg Host.Outcome.next (State.issueThen_fault hc (faults ..)),
      fun hsh => (if_neg (by simp [hsh])).trans
        (congrArg Host.Outcome.next (State.issueThen_fault hc (State.issue_misplaced hc ho hmicro))),
      fun h1 h2 h3 => (if_neg (by simp [within, h1, h2, h3])).trans
        (congrArg Host.Outcome.next (State.issueThen_fault hc (State.issue_misplaced hc ho hmicro)))⟩

end Sys2Proof.Machine
end

section
/-! SUPPORT. Proofs about the engine instructions with an effect outside their registers: event lines, ports, waits, loops,
micro-routines, and the ends of handlers and programs. -/

namespace Sys2Proof.Machine

open Sys2Proof

/-! ### What follows an instruction that did not fault -/

section
variable {s v : State} {e n : Nat} {k : IssueKind} {o : EngOp} {own : List Field} {body : State → Except Nat State}
  {post : State → State}

/-- An instruction never leaves its engine in FAULT. -/
theorem State.finish_not_fault (hv : (v.eng e).st = .running) : ((s.finish v e k n o own).eng e).st ≠ .fault := by
  have hnext (y : Eng) : y.nextPc.st = y.st := by rw [Eng.nextPc_outside]
  have hst : ((if k == .hold || k == .micro then s.accessed e o own (v.eng e) else (s.accessed e o own (v.eng e)).nextPc).modSet
      fun r => { r with cyc := r.cyc + n }).st = (s.accessed e o own (v.eng e)).st := by
    rw [modSet_st]
    split
    · rfl
    · exact hnext _
  have hrun := (s.accessed_inFlight e o own (v.eng e)).state
  have heng : ((s.finish v e k n o own).eng e).st = (s.accessed e o own (v.eng e)).st := by
    refine (congrArg Eng.st (eng_modEng v e _ ?_)).trans hst
    exact fun h => by rcases hrun with hr | hr <;> simp [hst.symm.trans h, hv] at hr
  rcases hrun with hr | hr <;> simp [heng, hr, hv]

theorem State.issueThen_ok (h : s.issues e k o own = true) (hb : body (s.atIssue e) = .ok (s.atIssue e)) :
    s.issueThen e k n o own body post = post (s.finish (s.atIssue e) e k n o own) := by
  have hc := State.issues_canIssue h
  have hst : ((s.atIssue e).eng e).st = .running := by rw [atIssue_eng s e hc]; exact State.landed_st hc
  unfold State.issueThen
  simp only [hc, State.issue_ok h hb, Bool.not_true, Bool.false_eq_true, if_false]
  exact if_neg (by simpa using State.finish_not_fault hst)

theorem State.issueThen_error {c : Nat} (h : s.issues e k o own = true) (hb : body (s.atIssue e) = .error c) :
    s.issueThen e k n o own body post = (s.atIssue e).engFault e c :=
  State.issueThen_fault (State.issues_canIssue h) (State.issue_error h hb)

end

/-! ### Lines, inputs and ports (R212 to R215, R235, R236) -/

section
variable {s : State} {e : Fin 96} {o : EngOp} (h : s.issues e .plain o [] = true)
include h

theorem exec_evs_pulses {l : Fin 64} (hl : (s.atIssue e).lineOk (e.val / 8) l ((s.atIssue e).engTenant e) = true) :
    exec (.evs e o l) s = .next (s.finish (((s.atIssue e).pulseLine (e.val / 8) l ((s.atIssue e).engTenant e)).forEach
      ((s.atIssue e).dmaStarted (e.val / 8) l) State.dmaGroupStart) e .plain 1 o []) :=
  congrArg Host.Outcome.next (State.issue_ok h (if_neg (by simp [hl])))

theorem exec_evs_refused {l : Fin 64} (hl : (s.atIssue e).lineOk (e.val / 8) l ((s.atIssue e).engTenant e) = false) :
    exec (.evs e o l) s = .next ((s.atIssue e).engFault e fcPort) :=
  congrArg Host.Outcome.next (State.issue_error h (if_pos (by simp [hl])))

/-- A message for a chain of the tenant joins those on their way. -/
theorem exec_wbk_queues {c g1 f1 f2 t1 c1 e1 : Fin 16} (hk : ((s.landed e).set.dv c).toNat < 512)
    (hst : ((s.atIssue e).chain ((s.landed e).set.dv c).toNat).state ≠ .free)
    (ht : ((s.atIssue e).chain ((s.landed e).set.dv c).toNat).tenant = (s.atIssue e).engTenant e) :
    exec (.wbk e o c g1 f1 f2 t1 c1 e1) s = .next (s.finish ((s.atIssue e).modChain ((s.landed e).set.dv c).toNat fun y =>
      { y with pending := y.pending ++ [(s.landed e).message g1 f1 f2 t1 c1 e1] }) e .plain 1 o []) := by
  refine congrArg Host.Outcome.next (State.issue_ok h ?_)
  dsimp only
  rw [State.issues_eng h, State.ownChain hk hst ht]
  rfl

theorem exec_wbk_counts {c g1 f1 f2 t1 c1 e1 : Fin 16}
    (hk : 512 ≤ ((s.landed e).set.dv c).toNat ∨ ((s.atIssue e).chain ((s.landed e).set.dv c).toNat).state = .free ∨
      ((s.atIssue e).chain ((s.landed e).set.dv c).toNat).tenant ≠ (s.atIssue e).engTenant e) :
    exec (.wbk e o c g1 f1 f2 t1 c1 e1) s =
      .next (s.finish ((s.atIssue e).modEng e fun y => { y with portRej := satTo 255 (y.portRej + 1) }) e .plain 1 o []) := by
  refine congrArg Host.Outcome.next (State.issue_ok h ?_)
  dsimp only
  rw [State.issues_eng h, State.foreignChain_iff.mpr hk]
  rfl

theorem exec_flg_posts {ag : Fin 8} {bs : List Byte} (hbs : (s.landed e).rawX ((s.landed e).eaOf ag) 4 = some bs) :
    exec (.flg e o ag) s = .next (s.finish ((s.atIssue e).flagPort e bs) e .plain 1 o []) := by
  refine congrArg Host.Outcome.next (State.issue_ok h ?_)
  simp only [State.issues_eng h, hbs]

theorem exec_flg_unmapped {ag : Fin 8} (hbs : (s.landed e).rawX ((s.landed e).eaOf ag) 4 = none) :
    exec (.flg e o ag) s = .next ((s.atIssue e).engFault e fcDecerr) := by
  refine congrArg Host.Outcome.next (State.issue_error h ?_)
  simp only [State.issues_eng h, hbs]

theorem exec_dsub_unmapped {ag : Fin 8} (hbs : (s.landed e).rawX ((s.landed e).eaOf ag) 8 = none) :
    exec (.dsub e o ag) s = .next ((s.atIssue e).engFault e fcDecerr) := by
  refine congrArg Host.Outcome.next (State.issue_error h ?_)
  simp only [State.issues_eng h, hbs]

theorem exec_dsub_queues {ag : Fin 8} {bs : List Byte} {v : State} {z : Bool} (hbs : (s.landed e).rawX ((s.landed e).eaOf ag) 8 = some bs)
    (hv : (s.atIssue e).dsub (taskOfDesc e ((s.atIssue e).engTenant e) fun i => leAt bs (4 * i) 4) = (v, z)) :
    exec (.dsub e o ag) s = .next (s.finish (v.modEng e fun y => y.modSet fun r => r.setZ z) e .plain 1 o []) := by
  refine congrArg Host.Outcome.next (State.issue_ok h ?_)
  simp only [State.issues_eng h, hbs, hv]

theorem exec_tsk_ends {dst : Fin 16} : exec (.tsk e o dst) s =
    .next (s.finish (((s.atIssue e).endTask e (((s.landed e).set.dv dst).toNat % 4)).startDetections) e .plain 1 o []) := by
  refine congrArg Host.Outcome.next (State.issue_ok h ?_)
  rw [State.issues_eng h]

end

/-! ### Waits and shifts (R204, R212, R214) -/

section
variable {s : State} {e : Fin 96} {o : EngOp} {m : BitVec 64} {dst : Fin 16} {cnt : Nat}

theorem exec_waite_waits (h : s.issues e .wait o [] = true) (hm : (s.atIssue e).maskOk e m.toNat = true) :
    ∃ k, exec (.waite e o m) s = .next (((s.finish (s.atIssue e) e .wait 1 o []).modEng e fun y =>
      let y := y.modSet fun r => { r with wait := some m.toNat, cyc := r.cyc + k }
      ({ y with st := if y.set.grp.isSome then .stalled else .waiting, waitedAt := s.now } : Eng).wake).drawFree) :=
  ⟨_, congrArg Host.Outcome.next (State.issueThen_ok h (if_pos hm))⟩

theorem exec_waite_refused (h : s.issues e .wait o [] = true) (hm : (s.atIssue e).maskOk e m.toNat = false) :
    exec (.waite e o m) s = .next ((s.atIssue e).engFault e fcPort) :=
  congrArg Host.Outcome.next (State.issueThen_error h (if_neg (by simp [hm])))

section
variable (h1 : 1 ≤ cnt) (h2 : cnt ≤ 24)
include h1 h2

theorem exec_shfx_described : exec (.shfx e o dst cnt) s =
    .next (s.issueThen e .hold 1 o [] (fun s => if (s.eng e).bound.isNone then .error fcPort else .ok s) fun s =>
      (s.modEng e fun x => ({ x with st := .stalled } : Eng).modSet fun r => { r with shfx := some (dst, cnt) }).feedEngine e) :=
  if_neg (by simp [within, h1, h2])

variable (h : s.issues e .hold o [] = true)
include h

theorem exec_shfx_unbound (hb : (s.landed e).bound = none) :
    exec (.shfx e o dst cnt) s = .next ((s.atIssue e).engFault e fcPort) := by
  rw [exec_shfx_described h1 h2, State.issueThen_error h]
  rw [State.issues_eng h, hb]
  rfl

theorem exec_shfx_takes (hb : (s.landed e).bound ≠ none) : exec (.shfx e o dst cnt) s =
    .next (((s.finish (s.atIssue e) e .hold 1 o []).modEng e fun y =>
      ({ y with st := .stalled } : Eng).modSet fun r => { r with shfx := some (dst.val, cnt) }).feedEngine e) := by
  rw [exec_shfx_described h1 h2, State.issueThen_ok h]
  rw [State.issues_eng h]
  exact if_neg (by simpa using hb)

end
end

/-! ### Loops, returns from handlers and halts (R203, R207, R217) -/

section
variable {s : State} {e : Fin 96} {o : EngOp} {n : LoopCount} {len : Nat} (h : s.issues e .jump o [] = true)
include h

theorem exec_loop_opens (h1 : 1 ≤ len) (h2 : len ≤ 32) (hp : (s.landed e).pc.toNat + len ≤ 8191) :
    exec (.loop e o n len) s = .next (s.finish ((s.atIssue e).modEng e fun y => y.modSet fun r =>
      let k := match n with | .imm v => v.toNat | .lc0 => r.lc0.toNat
      { r with loopBlk := some { start := y.pc.toNat + 1, len := len, left := k - 1 }, lc0 := BitVec.ofNat 16 (k - 1) })
      e .jump 1 o []) := by
  refine (if_neg (by simp [within, h1, h2])).trans (congrArg Host.Outcome.next (State.issue_ok h (if_neg ?_)))
  rw [State.issues_eng h]
  omega

theorem exec_loop_long (h1 : 1 ≤ len) (h2 : len ≤ 32) (hp : 8191 < (s.landed e).pc.toNat + len) :
    exec (.loop e o n len) s = .next ((s.atIssue e).engFault e fcSeq) := by
  refine (if_neg (by simp [within, h1, h2])).trans (congrArg Host.Outcome.next (State.issue_error h (if_pos ?_)))
  rwa [State.issues_eng h]

theorem exec_rti_returns (hi : (s.landed e).inh = true) :
    exec (.rti e o) s = .next ((s.finish (s.atIssue e) e .jump 1 o []).returnMain e) :=
  congrArg Host.Outcome.next (State.issueThen_ok h (if_pos (by rwa [State.issues_eng h])))

theorem exec_rti_main (hi : (s.landed e).inh = false) : exec (.rti e o) s = .next ((s.atIssue e).engFault e fcSeq) :=
  congrArg Host.Outcome.next (State.issueThen_error h (if_neg (by simp [State.issues_eng h, hi])))

theorem exec_hlt : exec (.hlt e o) s =
    .next (let t := s.finish (s.atIssue e) e .jump 1 o []
      if (t.eng e).grpBusy then t.modEng e fun y => { y with haltWant := true } else t.takeHalt e) :=
  congrArg Host.Outcome.next (State.issueThen_ok h rfl)

end

/-! ### Micro-routines (R209 to R211) -/

section
variable {s : State} {e : Fin 96} {o : EngOp} {ag a2 a3 : Fin 8} {sh q st : Nat} (h : s.issues e .micro o [] = true)
  (hg : ((s.landed e).set.gen ag).legal = true) (hg2 : ((s.landed e).set.gen a2).legal = true)
include h hg hg2

theorem exec_vmac64_runs (hg3 : ((s.landed e).set.gen a3).legal = true) (hs : sh ≤ 23) :
    exec (.vmac64 e o ag a2 a3 sh) s = .next ((s.finish (s.atIssue e) e .micro 0 o []).runMicro e
      (.vmac ((s.landed e).eaOf ag) ((s.landed e).eaOf a2) ((s.landed e).eaOf a3) sh ag a2 a3
        ((s.landed e).set.gen ag) ((s.landed e).set.gen a2) ((s.landed e).set.gen a3) o.sat) 0) := by
  refine (if_neg (by simp [hs])).trans (congrArg Host.Outcome.next (State.issueThen_ok h (if_pos ?_)))
  simp only [Bool.and_eq_true]
  exact ⟨⟨hg, hg2⟩, hg3⟩

theorem exec_fft4_runs (h1 : 2 ≤ q) (h2 : q ≤ 6) (h3 : st < q) :
    exec (.fft4 e o ag a2 q st) s = .next ((s.finish (s.atIssue e) e .micro 0 o []).runMicro e
      (.fft ((s.landed e).eaOf ag) ((s.landed e).eaOf a2) q st o.sat) 0) := by
  refine (if_neg (by simp [within, h1, h2, h3])).trans (congrArg Host.Outcome.next (State.issueThen_ok h (if_pos ?_)))
  simp only [Bool.and_eq_true]
  exact ⟨hg, hg2⟩

end

/-- Settles O51, instruction by instruction. -/
theorem engineLoopsPortsAndRoutines : Obligations.EngineLoopsPortsAndRoutines := by
  intro e o m l c g1 f1 f2 t1 c1 e1 dst ch ag a2 a3 n len cnt sh q st s
  refine ⟨fun h => ⟨exec_evs_pulses h, exec_evs_refused h, congrArg Host.Outcome.next (State.issue_ok h rfl),
      ⟨exec_wbk_queues h, exec_wbk_counts h⟩, fun _ => exec_flg_posts h, exec_flg_unmapped h,
      fun v hv => congrArg Host.Outcome.next (State.issue_ok h hv), fun k hk => congrArg Host.Outcome.next (State.issue_error h hk),
      exec_dsub_unmapped h, fun _ _ _ => exec_dsub_queues h, exec_tsk_ends h⟩,
    fun h => ⟨exec_waite_refused h, exec_waite_waits h⟩,
    fun h => ⟨fun h1 h2 => ⟨exec_loop_opens h h1 h2, exec_loop_long h h1 h2⟩, exec_rti_returns h, exec_rti_main h,
      fun hb => ?halts, fun hb => ?waitsToHalt⟩,
    fun h h1 h2 => ⟨exec_shfx_unbound h1 h2 h, exec_shfx_takes h1 h2 h⟩,
    fun h hg hg2 hg3 => ⟨exec_vmac64_runs h hg hg2 hg3, exec_fft4_runs h hg hg2⟩,
    fun hc => ⟨fun hn => if_pos ?loop, fun hn => if_pos ?shfx, fun hn => if_pos ?vmac, fun hn => if_pos ?fft⟩⟩
  case halts => exact (exec_hlt h).trans (congrArg Host.Outcome.next (if_neg (by simp [hb])))
  case waitsToHalt => exact (exec_hlt h).trans (congrArg Host.Outcome.next (if_pos hb))
  case loop => simp [hc, within]; omega
  case shfx => simp [hc, within]; omega
  case vmac => simp [hc, hn]
  case fft =>
    simp only [hc, within, Bool.true_and, Bool.or_eq_true, Bool.not_eq_true', Bool.and_eq_false_iff,
      decide_eq_false_iff_not, decide_eq_true_eq]
    omega

end Sys2Proof.Machine
end

section
/-! SUPPORT. Proofs about the commands and events of an engine: load, start, halt and resume, the timer, interrupts, aborts,
and the shot clock of its group. -/

namespace Sys2Proof.Machine

open Sys2Proof

/-! ### The checks of an engine command (R216, R219) -/

section
variable {s : State} {c : RingCmd} {opc : Nat} {bar : Bool} {body : Nat → CmdRef → State → State}

/-- The engine that a command names. -/
def engineOf (c : RingCmd) : Nat := fld c.arg0.toNat 6 0

/-- What refuses every engine command refuses each of the four. -/
theorem exec_engCommands_refused {st : Nat} (h : ∀ opc bar body, s.engCmd opc bar c body =
      (s.started c).complete (s.refOf c opc) st (argOff 0) 0) :
    ∀ i ∈ [(Instr.engLoad c, 0x30), (.engStart c, 0x31), (.engHalt c, 0x32), (.engResume c, 0x33)],
      exec i.1 s = .next ((s.started c).complete (s.refOf c i.2) st (argOff 0) 0) := by
  simp only [List.mem_cons, List.not_mem_nil, or_false, forall_eq_or_imp, forall_eq]
  exact ⟨congrArg Host.Outcome.next (h ..), congrArg Host.Outcome.next (h ..), congrArg Host.Outcome.next (h ..),
    congrArg Host.Outcome.next (h ..)⟩

section
variable (hs : s.starts false c = true)
include hs

theorem State.engCmd_foreign (h : 96 ≤ engineOf c ∨ (s.started c).engOwner (engineOf c) ≠ some c.fn.val) :
    s.engCmd opc bar c body = (s.started c).complete (s.refOf c opc) stConflict (argOff 0) 0 := by
  refine (startCmd_starts hs).trans (if_pos ?_)
  rcases h with h | h
  · simp [show 96 ≤ fld c.arg0.toNat 6 0 from h]
  · simp [show (s.started c).engOwner (fld c.arg0.toNat 6 0) ≠ some c.fn.val from h]

section
variable (hk : engineOf c < 96) (ho : (s.started c).engOwner (engineOf c) = some c.fn.val)
  (hx : ((s.started c).eng (engineOf c)).shipped = none)
include hk ho hx

/-- The tenant's own engine passes the check of ownership. -/
theorem State.engCmd_own : s.engCmd opc bar c body =
    if (s.started c).resetting (21 + engineOf c / 8) then (s.started c).complete (s.refOf c opc) stResetting (argOff 0) 0
    else body (engineOf c) (s.refOf c opc) (s.started c) := by
  refine (startCmd_starts hs).trans (if_neg ?_)
  have hk' : ¬ 96 ≤ fld c.arg0.toNat 6 0 := Nat.not_le.mpr hk
  have ho' : (s.started c).engOwner (fld c.arg0.toNat 6 0) = some c.fn.val := ho
  have hx' : ((s.started c).eng (fld c.arg0.toNat 6 0)).shipped = none := hx
  simp [hk', ho', hx']

theorem State.engCmd_resetting (hr : (s.started c).resetting (21 + engineOf c / 8) = true) :
    s.engCmd opc bar c body = (s.started c).complete (s.refOf c opc) stResetting (argOff 0) 0 :=
  (State.engCmd_own hs hk ho hx).trans (if_pos hr)

variable (hr : (s.started c).resetting (21 + engineOf c / 8) = false)
include hr

theorem State.engCmd_goes : s.engCmd opc bar c body = body (engineOf c) (s.refOf c opc) (s.started c) :=
  (State.engCmd_own hs hk ho hx).trans (if_neg (by simp [hr]))

/-! ### ENG_START, ENG_HALT and ENG_RESUME -/

theorem exec_engStart_halted (h : ((s.started c).eng (engineOf c)).st = .halted) :
    exec (.engStart c) s = .next (((s.started c).modEng (engineOf c) Eng.startAt).complete (s.refOf c 0x31) stOK 0 0) :=
  congrArg Host.Outcome.next ((State.engCmd_goes hs hk ho hx hr).trans (if_neg (by simp [h])))

theorem exec_engStart_busy (h : ((s.started c).eng (engineOf c)).st ≠ .halted) :
    exec (.engStart c) s = .next ((s.started c).complete (s.refOf c 0x31) stConflict (argOff 0) 0) :=
  congrArg Host.Outcome.next ((State.engCmd_goes hs hk ho hx hr).trans (if_pos (by simp [h])))

theorem exec_engHalt_halted (h : ((s.started c).eng (engineOf c)).st = .halted) :
    exec (.engHalt c) s = .next ((s.started c).complete (s.refOf c 0x32) stOK ((s.started c).eng (engineOf c)).pc.toNat 0) :=
  congrArg Host.Outcome.next ((State.engCmd_goes hs hk ho hx hr).trans (if_pos (by simp [h])))

theorem exec_engHalt_waits (h : ((s.started c).eng (engineOf c)).st ≠ .halted) :
    exec (.engHalt c) s = .next ((s.started c).modEng (engineOf c) fun x => { x with haltReq := x.haltReq ++ [s.refOf c 0x32] }) :=
  congrArg Host.Outcome.next ((State.engCmd_goes hs hk ho hx hr).trans (if_neg (by simp [h])))

section
variable (h : ((s.started c).eng (engineOf c)).st = .halted)
include h

/-- A resumed engine applies an ABORT that was held, or goes on (R218). -/
theorem execEngResume_halted : s.engCmd 0x33 false c (fun e r s =>
      if (s.eng e).st != .halted then s.refuse r stConflict (argOff 0) 0
      else
        let s := s.modEng e fun x => { x with shr := 0, shc := 0, parked := 0 }
        (if (s.eng e).abortHeld then s.applyAbort e else s.goOn e).complete r stOK 0 0) =
    let v := (s.started c).modEng (engineOf c) fun x => { x with shr := 0, shc := 0, parked := 0 }
    (if ((s.started c).eng (engineOf c)).abortHeld then v.applyAbort (engineOf c) else v.goOn (engineOf c)).complete
      (s.refOf c 0x33) stOK 0 0 := by
  rw [State.engCmd_goes hs hk ho hx hr, if_neg (by simp [h])]
  dsimp only
  rw [eng_modEng _ _ _ (by simp [h])]

theorem exec_engResume_goesOn (ha : ((s.started c).eng (engineOf c)).abortHeld = false) : exec (.engResume c) s =
    .next ((((s.started c).modEng (engineOf c) fun x => { x with shr := 0, shc := 0, parked := 0 }).goOn (engineOf c)).complete
      (s.refOf c 0x33) stOK 0 0) :=
  congrArg Host.Outcome.next ((execEngResume_halted hs hk ho hx hr h).trans (by rw [ha]; rfl))

theorem exec_engResume_aborts (ha : ((s.started c).eng (engineOf c)).abortHeld = true) : exec (.engResume c) s =
    .next ((((s.started c).modEng (engineOf c) fun x => { x with shr := 0, shc := 0, parked := 0 }).applyAbort (engineOf c)).complete
      (s.refOf c 0x33) stOK 0 0) :=
  congrArg Host.Outcome.next ((execEngResume_halted hs hk ho hx hr h).trans (by rw [ha]; rfl))

end

/-! ### ENG_LOAD (R219, R220) -/

section
variable (h : ((s.started c).eng (engineOf c)).st = .halted ∨ ((s.started c).eng (engineOf c)).st = .fault)
include h

theorem exec_engLoad_refused {n : Nat} (hi : imageCheck c.buf = some n) :
    exec (.engLoad c) s = .next ((s.started c).complete (s.refOf c 0x30) stConflict (bufOff 0) n) := by
  refine congrArg Host.Outcome.next ((State.engCmd_goes hs hk ho hx hr).trans ((if_neg ?_).trans ?_))
  · rcases h with h | h <;> simp [h]
  · simp only [hi]
    rfl

theorem exec_engLoad_loads (hi : imageCheck c.buf = none) : exec (.engLoad c) s =
    .next ((let v := ((s.started c).loadImage (engineOf c) c.buf).haltDone (engineOf c)
      if bit c.arg0.toNat 31 then v.modEng (engineOf c) Eng.startAt else v).complete (s.refOf c 0x30) stOK 0 0) := by
  refine congrArg Host.Outcome.next ((State.engCmd_goes hs hk ho hx hr).trans ((if_neg ?_).trans ?_))
  · rcases h with h | h <;> simp [h]
  · simp only [hi]

end
end
end
end

/-! ### Timer, interrupts, aborts and halts (R204, R205, R208, R217) -/

section
variable {s : State} {e : Fin 96}

theorem exec_tmrExpiry_pulses (ht : (s.eng e).tmr ≠ 0) (hx : (s.eng e).st ≠ .reset) :
    exec (.tmrExpiry e) s = .next ((s.modEng e fun y => { y with tmr := 0 }).pulseInput e 48) :=
  congrArg Host.Outcome.next (if_neg (by simpa [hx] using ht))

theorem exec_tmrExpiry_stopped (ht : (s.eng e).tmr = 0) : exec (.tmrExpiry e) s = .next s :=
  congrArg Host.Outcome.next (if_pos (by simp [ht]))

/-- At an acceptance point the handler starts in the shadow set. -/
theorem State.acceptInterrupt_accepts (hl : (s.eng e).live = true) (hr : s.inReset (21 + e.val / 8) = false)
    (hm : (s.eng e).mayInterrupt = true) (hw : (s.eng e).wantsHalt = false)
    (hp : (s.eng e).main.branch = none ∨ (s.eng e).st ≠ .running) :
    s.acceptInterrupt e = s.modEng e fun x =>
      { x with st := .running, inh := true, spc := x.pc, pc := x.ivec, ints := satTo 0xFFFF (x.ints + 1),
               parked := satTo 7 x.main.lands.length } := by
  have hp' : ((s.eng e).main.branch.isNone || (s.eng e).st != .running) = true := by
    rcases hp with hp | hp <;> simp [hp]
  exact if_neg (by simp only [hl, hr, hm, hw, hp']; decide)

theorem State.acceptInterrupt_not (h : (s.eng e).mayInterrupt = false ∨ (s.eng e).wantsHalt = true) : s.acceptInterrupt e = s :=
  if_pos (by rcases h with h | h <;> simp [h])

theorem State.haltTake_takes (hl : (s.eng e).live = true) (hr : s.inReset (21 + e.val / 8) = false) (hw : (s.eng e).wantsHalt = true)
    (hg : (s.eng e).grpBusy = false) : s.haltTake e = (if (s.eng e).abortReq then s.applyAbort e else s).takeHalt e :=
  if_neg (by simp [hl, hr, hw, hg])

theorem State.haltTake_not (hw : (s.eng e).wantsHalt = false) : s.haltTake e = s := if_pos (by simp [hw])

theorem State.abortApply_none (h : (s.eng e).abortReq = false) : s.abortApply e = s := if_pos (by simp [h])

section
variable (h : (s.eng e).abortReq = true)
include h

theorem State.abortApply_live (hl : (s.eng e).live = true) (hg : (s.eng e).grpBusy = false) : s.abortApply e = s.applyAbort e := by
  unfold State.abortApply
  cases hst : (s.eng e).st <;> simp_all [Eng.live]

/-- While HALTED an ABORT is held. -/
theorem State.abortApply_halted (hst : (s.eng e).st = .halted) :
    s.abortApply e = s.modEng e fun y => { y with abortReq := false, abortHeld := true } := by
  simp [State.abortApply, h, hst]

theorem State.abortApply_discards (hst : (s.eng e).st = .reset ∨ (s.eng e).st = .fault) :
    s.abortApply e = s.modEng e fun y => { y with abortReq := false } := by
  rcases hst with hst | hst <;> simp [State.abortApply, h, hst]

end
end

/-! ### The shot clock of a group (R302, R303) -/

section
variable {s t : State} {g : Nat}

theorem State.RecOnly.egroup (h : s.RecOnly t) (g : Nat) : t.egroup g = s.egroup g := by rw [h]; rfl

/-- The STALEMATE record and event leave the groups. -/
theorem State.tellStale_egroup {n cfg j : Nat} {released : Option Nat} {entries : List (Nat × List Nat)} :
    (s.tellStale g n cfg released entries).egroup j = s.egroup j := by
  unfold State.tellStale
  dsimp only
  rw [(State.postStatus_only ..).rec.egroup]
  split
  · rw [(State.emitHub_only ..).egroup]
  · rfl

theorem State.forEach_egroup {α : Type} {f : State → α → State} {j : Nat}
    (hf : ∀ s a, (f s a).egroup j = s.egroup j) (l : List α) :
    (s.forEach l f).egroup j = s.egroup j := by
  induction l generalizing s with
  | nil => rfl
  | cons a r ih => exact (ih (s := f s a)).trans (hf s a)

/-- A group at an expiry: counted, and frozen with this snapshot unless it was frozen before. -/
def EGroup.expired (y : EGroup) (snap : List W32) : EGroup :=
  { y with frozen := true, count := satTo 0xFFFF (y.count + 1), snap := if y.frozen then y.snap else snap }

theorem State.modEGroup_frozen {f : EGroup → EGroup} (h : (f (s.egroup g)).frozen = true) : (s.modEGroup g f).egroup g = f (s.egroup g) :=
  getT_setT_ne _ _ _ _ fun hd => by rw [State.egroup, hd] at h; cases h

theorem State.releaseOpt_egroup (s : State) (r : Option Nat) :
    (match r with | some e => s.modEng e Eng.release | none => s).egroup g = s.egroup g := by
  cases r <;> rfl

/-- Neither the release of the oldest wait nor the records change the groups. -/
theorem State.shotExpiry_egroup (s : State) (g : Nat) : (s.shotExpiry g).egroup g =
    (s.egroup g).expired (((engsOf g).map fun e => (e, s.staleEntry e)).flatMap fun e => e.2.map (BitVec.ofNat 32)) := by
  unfold State.shotExpiry
  dsimp only
  rw [State.forEach_egroup fun _ _ => State.tellStale_egroup]
  refine (State.releaseOpt_egroup _ _).trans ((State.modEGroup_frozen ?_).trans ?_)
  · rfl
  · unfold EGroup.expired
    cases (s.egroup g).frozen <;> rfl

end

/-- Settles O52, command by command and event by event. -/
theorem enginesStartStopAndTakeEvents : Obligations.EnginesStartStopAndTakeEvents := by
  intro c e g s
  refine ⟨fun hs => ⟨fun h => ?foreign, fun hk ho hx => ⟨fun hr => ?resetting,
      fun hr => ⟨fun hst => ⟨exec_engStart_halted hs hk ho hx hr hst,
      exec_engHalt_halted hs hk ho hx hr hst, exec_engResume_goesOn hs hk ho hx hr hst, exec_engResume_aborts hs hk ho hx hr hst⟩,
      fun hst => ⟨exec_engHalt_waits hs hk ho hx hr hst, exec_engStart_busy hs hk ho hx hr hst⟩,
      fun hst => ⟨fun n => exec_engLoad_refused hs hk ho hx hr hst, exec_engLoad_loads hs hk ho hx hr hst⟩⟩⟩⟩,
    ⟨exec_tmrExpiry_pulses, exec_tmrExpiry_stopped, fun hl hr => ⟨fun hm hw hp => ?interrupt, fun h => ?noInterrupt,
      fun hw hg => ⟨fun ha => ?halt, fun ha => ?abortThenHalt⟩, fun hw => ?noHalt, fun ha hg => ?abort⟩,
      fun ha => ?noAbort, fun ha hst => ?held, fun ha hst => ?discarded⟩, fun hr hg hc => ?expires, fun hc => ?clockStopped⟩
  case foreign => exact exec_engCommands_refused fun _ _ _ => State.engCmd_foreign hs h
  case resetting => exact exec_engCommands_refused fun _ _ _ => State.engCmd_resetting hs hk ho hx hr
  case interrupt =>
    refine ⟨_, congrArg Host.Outcome.next (State.acceptInterrupt_accepts hl hr hm hw hp), rfl,
      fun j hj => State.modEng_eng_other hj, ?_⟩
    rw [eng_modEng s e _ (by simp)]
    exact ⟨rfl, rfl, rfl, rfl, rfl⟩
  case noInterrupt => exact congrArg Host.Outcome.next (State.acceptInterrupt_not h)
  case halt => exact congrArg Host.Outcome.next ((State.haltTake_takes hl hr hw hg).trans (by rw [ha]; rfl))
  case abortThenHalt => exact congrArg Host.Outcome.next ((State.haltTake_takes hl hr hw hg).trans (by rw [ha]; rfl))
  case noHalt => exact congrArg Host.Outcome.next (State.haltTake_not hw)
  case abort => exact congrArg Host.Outcome.next (State.abortApply_live ha hl hg)
  case noAbort => exact congrArg Host.Outcome.next (State.abortApply_none ha)
  case held => exact congrArg Host.Outcome.next (State.abortApply_halted ha hst)
  case discarded => exact congrArg Host.Outcome.next (State.abortApply_discards ha hst)
  case expires =>
    refine ⟨_, congrArg Host.Outcome.next (if_pos (by simp [hr, hg, hc])), ?_⟩
    rw [State.shotExpiry_egroup]
    exact ⟨rfl, rfl, rfl, fun hfr => if_pos hfr⟩
  case clockStopped => exact congrArg Host.Outcome.next (if_neg (by simp [hc]))

end Sys2Proof.Machine
end

section
/-! SUPPORT. Proofs about the decoder fabric: loading codes and profiles, the end of a job, the end of a mode switch, and
expired deadlines. -/

namespace Sys2Proof.Machine

open Sys2Proof

/-! ### DEC_CODE_LOAD (R227) -/

section
variable {s : State} {c : RingCmd} {r : CmdRef}

/-- A running carrier's profile has jobs of this code. -/
def State.codeUsed (s : State) (id : Nat) : Bool :=
  s.carriers.any fun e => (s.chainProfile e.1).any fun p => profCode p == id && decide (1 ≤ profJobs p)

/-- The bytes of the buffer that are the code: its header and its tables. -/
def codeEntry (c : RingCmd) : CodeBytes := c.buf.take (16 + codeTables c.buf)

theorem exec_decCodeLoad_starts (hs : s.starts true c = true) :
    exec (.decCodeLoad c) s = .next ((s.started c).decCodeLoad c (s.refOf c 0x38)) :=
  congrArg Host.Outcome.next (startCmd_starts hs)

theorem State.decCodeLoad_short (h : c.buf.length < 16) : s.decCodeLoad c r = s.complete r stConflict 0x10 0 := if_pos h

section
variable (hlen : 16 ≤ c.buf.length)
include hlen

theorem State.decCodeLoad_badNumber (h : 64 ≤ c.arg0.toNat ∨ s.codeUsed c.arg0.toNat = true) :
    s.decCodeLoad c r = s.complete r stConflict (argOff 0) 0 :=
  (if_neg (Nat.not_lt.mpr hlen)).trans (if_pos (by simpa [State.codeUsed] using h))

section
variable (hid : c.arg0.toNat < 64) (hu : s.codeUsed c.arg0.toNat = false)
include hid hu

/-- The number of a code that is free for it leaves the checks of the entry. -/
theorem State.decCodeLoad_number : s.decCodeLoad c r = if !codeOk (codeEntry c) then s.refuse r stConflict (bufOff 0) 0
    else (s.modDec fun d => { d with codes := setT none d.codes c.arg0.toNat (some (codeEntry c)) }).complete r stOK 0 0 := by
  refine (if_neg (Nat.not_lt.mpr hlen)).trans (if_neg ?_)
  unfold State.codeUsed at hu
  rw [hu]
  simpa using hid

theorem State.decCodeLoad_badEntry (h : codeOk (codeEntry c) = false) : s.decCodeLoad c r = s.complete r stConflict (bufOff 0) 0 :=
  (State.decCodeLoad_number hlen hid hu).trans (if_pos (by simp [h]))

theorem State.decCodeLoad_loads (h : codeOk (codeEntry c) = true) : s.decCodeLoad c r =
    (s.modDec fun d => { d with codes := setT none d.codes c.arg0.toNat (some (codeEntry c)) }).complete r stOK 0 0 :=
  (State.decCodeLoad_number hlen hid hu).trans (if_neg (by simp [h]))

end
end

/-! ### DEC_PROFILE_LOAD (R231) -/

/-- A running carrier has this profile. -/
def State.profileUsed (s : State) (n : Nat) : Bool := s.carriers.any fun e => e.2.profile == n

theorem exec_decProfileLoad_starts (hs : s.starts true c = true) :
    exec (.decProfileLoad c) s = .next ((s.started c).decProfileLoad c (s.refOf c 0x39)) :=
  congrArg Host.Outcome.next (startCmd_starts hs)

theorem State.decProfileLoad_short (h : c.buf.length < 32) : s.decProfileLoad c r = s.complete r stConflict 0x10 0 := if_pos h

section
variable (hlen : 32 ≤ c.buf.length)
include hlen

theorem State.decProfileLoad_badNumber (h : 255 ≤ c.arg0.toNat ∨ s.profileUsed c.arg0.toNat = true) :
    s.decProfileLoad c r = s.complete r stConflict (argOff 0) 0 :=
  (if_neg (Nat.not_lt.mpr hlen)).trans (if_pos (by simpa [State.profileUsed] using h))

section
variable (hid : c.arg0.toNat < 255) (hu : s.profileUsed c.arg0.toNat = false)
include hid hu

/-- The number of a profile that no carrier has leaves the checks of Table 9.5. -/
theorem State.decProfileLoad_number : s.decProfileLoad c r =
    if !s.profileOk (c.buf.take 32) then s.refuse r stConflict (bufOff 0) 0
    else (s.modDec fun d => { d with profiles := setT none d.profiles c.arg0.toNat (some (c.buf.take 32)) }).complete r stOK 0 0 := by
  refine (if_neg (Nat.not_lt.mpr hlen)).trans (if_neg ?_)
  unfold State.profileUsed at hu
  rw [hu]
  simpa using hid

theorem State.decProfileLoad_badEntry (h : s.profileOk (c.buf.take 32) = false) :
    s.decProfileLoad c r = s.complete r stConflict (bufOff 0) 0 :=
  (State.decProfileLoad_number hlen hid hu).trans (if_pos (by simp [h]))

theorem State.decProfileLoad_loads (h : s.profileOk (c.buf.take 32) = true) : s.decProfileLoad c r =
    (s.modDec fun d => { d with profiles := setT none d.profiles c.arg0.toNat (some (c.buf.take 32)) }).complete r stOK 0 0 :=
  (State.decProfileLoad_number hlen hid hu).trans (if_neg (by simp [h]))

end
end
end

/-! ### DECODER_JOB_END (R237, R240) -/

section
variable {s : State} {seq : Nat} {t : Task}

/-- The job of this sequence number that a decoder unit runs. -/
def State.runningJob (s : State) (seq : Nat) : Option Task :=
  s.dec.tasks.find? fun t => t.seq == seq && t.stage == .decode && t.started.isSome

def State.jobCode (s : State) (t : Task) : CodeBytes := (s.code t.codeId).getD []

/-- What the fabric makes of the job's input: converged, iterations, path metric and bits (R228, R229). -/
def State.decoded (s : State) (t : Task) : Bool × Nat × Nat × List Byte :=
  decodeJob (s.jobCode t) t.input (if t.imax = 0 then codeImax (s.jobCode t) else t.imax)

def State.jobData (s : State) (t : Task) (bits : List Byte) : List Byte := fitBytes ((codeBits (s.jobCode t) + 7) / 8) bits

/-- The result of a job that ended OK. -/
def State.jobDone (s : State) (t : Task) (conv : Bool) (iters : Nat) (bits : List Byte) : JobDone :=
  { chain := t.chain, gen := t.gen, slot := t.slot, iters := satTo 255 iters, conv := conv, bits := codeBits (s.jobCode t),
    data := s.jobData t bits, tag := t.jobTag }

/-- The job has ended OK: its result is written, it is counted, and its slot has it. -/
def State.endedOk (s : State) (t : Task) (conv : Bool) (iters metric : Nat) (bits : List Byte) : State :=
  ((s.writeResult (t.engine / 8) t.outAddr t.line stOK (satTo 255 iters) (codeBits (s.jobCode t)) metric t.jobTag.toNat t.tenant conv
    (s.jobData t bits)).modFn t.tenant fun f => { f with decoded := satTo 0xFFFFFFFF (f.decoded + 1) }).jobEnded t
      (s.jobDone t conv iters bits)

/-- The DECODED record of a job's result, where the task's profile does not assemble the slot. -/
def State.tellDecoded (v : State) (t : Task) (r : JobDone) : State :=
  match v.profile t.profile with
  | some p => if profAssemble p then v else v.decodedRec t 0 t.codeId [r]
  | none => v

theorem State.tellDecoded_assembled {v : State} {r : JobDone} (h : (v.profile t.profile).all profAssemble = true) :
    v.tellDecoded t r = v := by
  unfold State.tellDecoded
  split
  next p hp => exact if_pos (by simpa [hp] using h)
  next => rfl

theorem State.tellDecoded_record {v : State} {r : JobDone} {p : ProfBytes} (hp : v.profile t.profile = some p)
    (ha : profAssemble p = false) : v.tellDecoded t r = v.decodedRec t 0 t.codeId [r] := by
  simp [State.tellDecoded, hp, ha]

theorem State.decoderJobEnd_none (h : s.runningJob seq = none) : s.decoderJobEnd seq = s := by
  unfold State.runningJob at h
  simp only [State.decoderJobEnd, h]

theorem State.decoderJobEnd_running {conv : Bool} {iters metric : Nat} {bits : List Byte} (h : s.runningJob seq = some t)
    (hd : s.decoded t = (conv, iters, metric, bits)) :
    s.decoderJobEnd seq = ((s.endedOk t conv iters metric bits).tellDecoded t (s.jobDone t conv iters bits)).startJobs := by
  unfold State.runningJob at h
  unfold State.decoded State.jobCode at hd
  simp only [State.decoderJobEnd, h, beq_iff_eq, hd]
  rfl

theorem exec_decoderJobEnd_idle (h : s.inReset 33 = true ∨ s.runningJob seq = none) : exec (.decoderJobEnd seq) s = .next s := by
  refine congrArg Host.Outcome.next ?_
  rcases h with hr | hj
  · exact if_pos hr
  · rw [State.decoderJobEnd_none hj, ite_self]

theorem exec_decoderJobEnd_running {conv : Bool} {iters metric : Nat} {bits : List Byte} (hr : s.inReset 33 = false)
    (h : s.runningJob seq = some t) (hd : s.decoded t = (conv, iters, metric, bits)) : exec (.decoderJobEnd seq) s =
      .next ((s.endedOk t conv iters metric bits).tellDecoded t (s.jobDone t conv iters bits)).startJobs :=
  congrArg Host.Outcome.next ((if_neg (by simp [hr])).trans (State.decoderJobEnd_running h hd))

/-! ### MODE_SWITCH_END (R226, R242, Table 9.2) -/

/-- A decoder unit runs a job. -/
def State.jobRuns (s : State) : Bool := s.dec.tasks.any fun t => t.stage == .decode && t.started.isSome

/-- The fabric has taken a mode, and no command waits. -/
def State.inMode (s : State) (trellis : Bool) : State :=
  s.modDec fun d => { d with trellis := trellis, switching := none, switchWait := [] }

/-- The commands that waited for the switch complete, those behind them are checked again, and the fabric starts jobs. -/
def State.settleSwitch (s : State) (cpls : List Cpl) (wait : List (CmdRef × RingCmd)) : State :=
  (((s.forEach cpls fun v x => v.complete x.cmd x.status.toNat x.res0.toNat x.res1.toNat).forEach
    wait fun v w => v.carrierCmd w.1.opc.toNat w.2 w.1).modeFollow none).startJobs

/-- Only the trellis mode strands queued jobs of other codes. -/
theorem State.endStranded_inMode_false : (s.inMode false).endStranded = s.inMode false := if_pos rfl

theorem exec_modeSwitchEnd_none (h : s.dec.switching = none) : exec .modeSwitchEnd s = .next s := by
  refine congrArg Host.Outcome.next ?_
  simp only [State.modeSwitchEnd, h]

section
variable {cpls : List Cpl} (h : s.dec.switching = some cpls)
include h

theorem exec_modeSwitchEnd_waits (hw : s.inReset 33 = true ∨ s.jobRuns = true) : exec .modeSwitchEnd s = .next s := by
  unfold State.jobRuns at hw
  refine congrArg Host.Outcome.next ?_
  simp only [State.modeSwitchEnd, h]
  exact if_pos (by simpa only [Bool.or_eq_true] using hw)

theorem exec_modeSwitchEnd_switches (hr : s.inReset 33 = false) (hb : s.jobRuns = false) :
    exec .modeSwitchEnd s = .next ((s.inMode s.dec.target).endStranded.settleSwitch cpls s.dec.switchWait) := by
  unfold State.jobRuns at hb
  refine congrArg Host.Outcome.next ?_
  simp only [State.modeSwitchEnd, h, hr, hb]
  rfl

end

/-! ### DEADLINE_EXPIRY (R239, R240) -/

/-- The task of this sequence number that has not ended. -/
def State.task (s : State) (seq : Nat) : Option Task := s.dec.tasks.find? fun t => t.seq == seq

/-- No later stage of an expired task's carrier slot is released. -/
def State.abortSlot (s : State) (t : Task) : State :=
  if t.stage = .excision then s else s.modSlot t.chain t.gen t.slot fun x => { x with aborted := true }

/-- The result of a job that missed its deadline. -/
def Task.missed (t : Task) : JobDone :=
  { chain := t.chain, gen := t.gen, slot := t.slot, status := BitVec.ofNat 8 stDeadlineMiss, tag := t.jobTag }

theorem State.abortSlot_switching : (s.abortSlot t).dec.switching = s.dec.switching := by
  unfold State.abortSlot
  split <;> rfl

theorem State.deadlineExpiry_ended (h : s.task seq = none) : s.deadlineExpiry seq = s := by
  unfold State.task at h
  simp only [State.deadlineExpiry, h]

section
variable (h : s.task seq = some t)
include h

/-- A queued task is dropped; a job's cause is the switch that held it back. -/
theorem State.deadlineExpiry_queued (hq : t.started = none) : s.deadlineExpiry seq =
    ((s.abortSlot t).dropTask seq).deadlineRec t (if t.stage == .decode && s.dec.switching.isSome then 2 else 1) (s.laterStages t) := by
  rw [← State.abortSlot_switching (s := s) (t := t)]
  unfold State.task at h
  simp only [State.deadlineExpiry, h, hq, beq_iff_eq]
  rfl

section
variable (hr : t.started.isSome = true)
include hr

/-- A running job ends with DEADLINE_MISS in its result. -/
theorem State.deadlineExpiry_job (hd : t.stage = .decode) : s.deadlineExpiry seq =
    ((((s.abortSlot t).writeResult (t.engine / 8) t.outAddr t.line stDeadlineMiss 0 0 0 t.jobTag.toNat t.tenant false []).jobEnded t
      t.missed).deadlineRec t 0 (s.laterStages t)).startJobs := by
  obtain ⟨b, hb⟩ := Option.isSome_iff_exists.mp hr
  unfold State.task at h
  simp only [State.deadlineExpiry, h, hb, hd, State.abortSlot]
  rfl

/-- A running engine task is aborted. -/
theorem State.deadlineExpiry_engine {e : Nat} (hd : t.stage ≠ .decode) (hu : t.unit = some e) : s.deadlineExpiry seq =
    (((s.abortSlot t).modEng e fun x => { x with abortReq := true }).dropTask seq).deadlineRec t 0 (s.laterStages t) := by
  obtain ⟨b, hb⟩ := Option.isSome_iff_exists.mp hr
  unfold State.task at h
  simp only [State.deadlineExpiry, h, hb, hu, beq_iff_eq, hd, if_false]
  rfl

end

theorem exec_deadlineExpiry_switch (hq : t.started = none) (hd : t.stage = .decode) (hsw : s.dec.switching.isSome = true) :
    exec (.deadlineExpiry seq) s = .next (((s.abortSlot t).dropTask seq).deadlineRec t 2 (s.laterStages t)) :=
  congrArg Host.Outcome.next ((State.deadlineExpiry_queued h hq).trans (by simp [hd, hsw]))

theorem exec_deadlineExpiry_queued (hq : t.started = none) (ho : t.stage ≠ .decode ∨ s.dec.switching = none) :
    exec (.deadlineExpiry seq) s = .next (((s.abortSlot t).dropTask seq).deadlineRec t 1 (s.laterStages t)) := by
  refine congrArg Host.Outcome.next ((State.deadlineExpiry_queued h hq).trans ?_)
  rcases ho with hd | hsw
  · simp [hd]
  · simp [hsw]

end
end

/-- Settles O53, command by command and by the check that decides; then by what runs when a job, a switch or a deadline ends. -/
theorem decoderJobsDeadlinesAndModes : Obligations.DecoderJobsDeadlinesAndModes := by
  intro c seq s
  refine ⟨fun hs => ?loads, ⟨exec_decoderJobEnd_idle, fun t hr hj conv iters metric bits hd => ?jobEnd⟩, exec_modeSwitchEnd_none,
    fun cpls hsw => ⟨exec_modeSwitchEnd_waits hsw, fun hr hb hm => ?codeMode, fun hr hb hm => ?trellisMode⟩,
    fun h => congrArg Host.Outcome.next (State.deadlineExpiry_ended h),
    fun t h => ⟨fun hq => ⟨exec_deadlineExpiry_switch h hq, exec_deadlineExpiry_queued h hq⟩,
      fun hr => ⟨fun hd => congrArg Host.Outcome.next (State.deadlineExpiry_job h hr hd),
        fun e hd hu => congrArg Host.Outcome.next (State.deadlineExpiry_engine h hr hd hu)⟩⟩⟩
  case loads =>
    rw [exec_decCodeLoad_starts hs, exec_decProfileLoad_starts hs]
    exact ⟨fun h => congrArg Host.Outcome.next (State.decCodeLoad_short h),
      fun hlen => ⟨fun h => congrArg Host.Outcome.next (State.decCodeLoad_badNumber hlen h),
        fun hid hu => ⟨fun h => congrArg Host.Outcome.next (State.decCodeLoad_badEntry hlen hid hu h),
          fun h => congrArg Host.Outcome.next (State.decCodeLoad_loads hlen hid hu h)⟩⟩,
      fun h => congrArg Host.Outcome.next (State.decProfileLoad_short h),
      fun hlen => ⟨fun h => congrArg Host.Outcome.next (State.decProfileLoad_badNumber hlen h),
        fun hid hu => ⟨fun h => congrArg Host.Outcome.next (State.decProfileLoad_badEntry hlen hid hu h),
          fun h => congrArg Host.Outcome.next (State.decProfileLoad_loads hlen hid hu h)⟩⟩⟩
  case jobEnd =>
    rw [exec_decoderJobEnd_running hr hj hd]
    exact ⟨fun ha => congrArg (fun v => Host.Outcome.next v.startJobs) (State.tellDecoded_assembled ha),
      fun p hp ha => congrArg (fun v => Host.Outcome.next v.startJobs) (State.tellDecoded_record hp ha)⟩
  case codeMode =>
    rw [exec_modeSwitchEnd_switches hsw hr hb, hm, State.endStranded_inMode_false]
    rfl
  case trellisMode =>
    rw [exec_modeSwitchEnd_switches hsw hr hb, hm]
    rfl

end Sys2Proof.Machine
end

section
/-! SUPPORT. Proofs about every command and every step: that memory stays canonical and the queue well formed, that HBM contents
change only through the commands that write memory, and that the seal stays. -/

namespace Sys2Proof.Machine

open Sys2Proof

/-! ### The invariant of every step (R259, R271) -/

/-- The invariant, as a property of the HBM contents and the queue. -/
def Keep.sound : Keep := fun m p _ _ => Memory.wf m = true ∧ p.all Instr.wf = true

theorem State.has_sound {s : State} : s.Has Keep.sound ↔ s.Inv := Iff.rfl

theorem Keep.sound_hbm : Keep.sound.Hbm where
  write _ _ _ _ _ _ := fun ⟨hm, hp⟩ => ⟨setRun_wf hm _ _, hp⟩
  clear _ _ _ _ _ _ := fun ⟨hm, hp⟩ => ⟨clearRun_wf hm _ _, hp⟩

theorem Keep.sound_seal : Keep.sound.Seal := fun _ _ _ _ h => h

theorem Keep.sound_comm : Keep.sound.Comm := fun _ _ _ _ _ h => h

/-- A restart leaves the memory empty and the queue as it is. -/
theorem Keep.sound_restart : Keep.sound.Restart := fun _ _ _ _ _ ⟨_, hp⟩ => ⟨rfl, hp⟩

theorem exec_inv {c : Instr} {s t : State} (h : s.Inv) (he : exec c s = .next t) : t.Inv :=
  State.has_sound.mp <| exec_keeps (fun _ => Keep.sound_hbm) (fun _ => Keep.sound_comm) (fun _ => Keep.sound_seal)
    (fun _ => Keep.sound_restart) (State.has_sound.mpr h) he

/-- Taking the front command leaves a sound state. -/
theorem State.Inv.rest {s : State} {c : Instr} {r : List Instr} (h : s.Inv) (hp : s.pending = c :: r) :
    ({ s with pending := r } : State).Inv := by
  obtain ⟨hm, hq⟩ := h
  rw [State.queueWf, hp, List.all_cons, Bool.and_eq_true] at hq
  exact ⟨hm, hq.2⟩

/-- Settles O2: the front command keeps the invariant, and so does a cycle of time. -/
theorem everyStepKeepsTheStateSound : Obligations.EveryStepKeepsTheStateSound := by
  intro s t h he
  cases hp : s.pending with
  | nil =>
    have ht : s.tick = t := by simpa [step, hp] using he
    exact ht ▸ State.has_sound.mp (State.tick_keeps (State.has_sound.mpr h))
  | cons c r =>
    have hc : exec c { s with pending := r } = .next t := by simpa [step, hp] using he
    exact exec_inv (h.rest hp) hc

/-! ### HBM contents outside the commands that write memory (R246, R268, R271, R356) -/

/-- The property that the HBM contents are `m`. -/
def Keep.hbmIs (m : List Host.Cell) : Keep := fun m' _ _ _ => m' = m

/-- A command of neither class leaves the HBM contents alone. -/
theorem exec_hbm {c : Instr} {s t : State} (hw : writesHbm c = false) (hr : restarts c = false) (he : exec c s = .next t) :
    t.hbm = s.hbm :=
  exec_keeps (K := Keep.hbmIs s.hbm) (fun h => absurd h (by simp [hw])) (fun _ _ _ _ _ _ h => h) (fun _ _ _ _ _ h => h)
    (fun h => absurd h (by simp [hr])) rfl he

/-- Settles O4: every byte of HBM is read from the HBM contents alone. -/
theorem onlyNamedCommandsWriteHbm : Obligations.OnlyNamedCommandsWriteHbm := by
  intro c s t hw hr he a n
  unfold State.hbmRead
  rw [exec_hbm hw hr he]

/-! ### The seal (R247) -/

/-- The property that the setup is sealed. -/
def Keep.sealed : Keep := fun _ _ b _ => b = true

theorem Keep.sealed_hbm : Keep.sealed.Hbm := ⟨fun _ _ _ _ _ _ h => h, fun _ _ _ _ _ _ h => h⟩

/-- Settles O6: no command but the restarts writes SEALED, save SETUP_SEAL, which sets it. -/
theorem sealStaysUntilARestart : Obligations.SealStaysUntilARestart := by
  intro c s t hr hs he
  exact exec_keeps (K := Keep.sealed) (fun _ => Keep.sealed_hbm) (fun _ _ _ _ _ _ h => h) (fun _ _ _ _ _ _ => rfl)
    (fun h => absurd h (by simp [hr])) hs he

end Sys2Proof.Machine
end

section
/-! SUPPORT. Proofs about the rings of the host interface: the prologue of every ring command, NOP and TU_INVAL, doorbells, the
writes of completions, records and events, and function commits. -/

namespace Sys2Proof.Machine

open Sys2Proof

/-! ### The prologue of every ring command (R247, R255 to R257) -/

/-- Every ring command is the prologue with its opcode and its own checks behind it. -/
theorem exec_ringCmd {i : Instr} {opc : Nat} {pf : Bool} {c : RingCmd} (h : ringCmd i = some (opc, pf, c)) :
    ∃ body, ∀ s, exec i s = .next (s.startCmd opc pf c body) := by
  cases i <;> cases h <;> exact ⟨_, fun _ => rfl⟩

section
variable {s : State} {opc : Nat} {pf : Bool} {c : RingCmd} {body : CmdRef → State → State}

theorem startCmd_held (h : s.canStart c.fn c.q c.fence = false) : s.startCmd opc pf c body = s := by
  simp [State.startCmd, h]

theorem startCmd_sleeping (h : s.readable c = true) (hs : s.rst.sleep ≠ .awake) :
    s.startCmd opc pf c body = (s.begun c).complete (s.refOf c opc) stSleeping noField 0 := by
  simp [startCmd_readable h, hs, State.refuse]

theorem startCmd_malformed (h : s.readable c = true) (hs : s.rst.sleep = .awake) (hc : c.reserved = true ∨ c.version ≠ 1) :
    s.startCmd opc pf c body = (s.begun c).complete (s.refOf c opc) stConflict 0 0 := by
  have hbad : (c.reserved || c.version != 1) = true := by simpa using hc
  rw [startCmd_readable h, if_neg (by simp [hs]), if_pos hbad]
  rfl

theorem startCmd_notPf (h : s.readable c = true) (hs : s.rst.sleep = .awake) (hr : c.reserved = false) (hv : c.version = 1)
    (hp : pf = true) (hf : c.fn ≠ 0) :
    s.startCmd opc pf c body = (s.begun c).complete (s.refOf c opc) stDecerr 0 0 := by
  simp [startCmd_readable h, hs, hr, hv, hp, hf, State.refuse]

end

/-- Settles O9, by the first check of the prologue that a command does not pass. -/
theorem ringCommandPrologue : Obligations.RingCommandPrologue := by
  intro i opc pf c s hi
  obtain ⟨body, he⟩ := exec_ringCmd hi
  rw [he]
  exact ⟨fun h => by rw [startCmd_held h], fun h hs => by rw [startCmd_sleeping h hs],
    fun h hs hc => by rw [startCmd_malformed h hs hc], fun h hs hr hv hp hf => by rw [startCmd_notPf h hs hr hv hp hf]⟩

/-- Settles O10: what the prologue changes beside the ring is the cached translations. -/
theorem nopCompletesOk : Obligations.NopCompletesOk := by
  intro c s hs
  have he : exec (.nop c) s = .next ((s.started c).complete (s.refOf c 0x00) stOK 0 0) :=
    congrArg Host.Outcome.next (startCmd_starts hs)
  refine ⟨_, he, ?_⟩
  rw [started_eq hs]
  exact ⟨rfl, rfl⟩

/-! ### TU_INVAL (R266) -/

/-- What a step leaves alone, the steps over a list leave alone. -/
theorem State.forEach_same {α β : Type} (g : State → β) {f : State → α → State} (hf : ∀ s x, g (f s x) = g s) (l : List α)
    (s : State) : g (s.forEach l f) = g s := by
  induction l generalizing s with
  | nil => rfl
  | cons x l ih => exact (ih (f s x)).trans (hf s x)

section
variable {s : State}

theorem State.finishInvals_tlb : s.finishInvals.tlb = s.tlb := by
  unfold State.finishInvals
  refine (State.forEach_same State.tlb ?_ _ _).trans ?_
  · exact fun _ _ => rfl
  · rfl

theorem State.finishInvals_none (h : s.invals = []) : s.finishInvals = s := by
  have hs : ({ s with invals := [] } : State) = s := by rw [← h]
  simp [State.finishInvals, State.forEach, h, hs]

/-- The only invalidation waiting completes where no access of its tenant is in flight. -/
theorem State.finishInvals_single {x : CmdRef × Nat × Nat × Nat} (h : s.invals = [x]) (hb : s.xlatBusy x.2.1 = false) :
    s.finishInvals = ({ s with invals := [] } : State).complete x.1 stOK 0 0 := by
  simp [State.finishInvals, State.forEach, h, hb]

/-- The cached translations that TU_INVAL removes. -/
def invalHits (c : RingCmd) (e : Tlb) : Bool :=
  let lo := c.arg1.toNat + 2 ^ 32 * c.arg2.toNat
  e.tenant == fld c.arg0.toNat 7 0 && (bit c.arg0.toNat 31 ||
    (decide (e.iova < lo + (c.arg3.toNat + 2 ^ 32 * c.arg4.toNat)) && decide (lo < e.iova + e.size)))

theorem State.tuInval_tlb {c : RingCmd} {r : CmdRef} : (s.tuInval c r).tlb = s.tlb.filter fun e => !invalHits c e :=
  State.finishInvals_tlb

/-- With nothing else waiting or in flight TU_INVAL completes at once. -/
theorem State.tuInval_atOnce {c : RingCmd} {r : CmdRef} (h : s.invals = []) (hb : s.xlatBusy (fld c.arg0.toNat 7 0) = false) :
    s.tuInval c r = ({ s with tlb := (s.tuInval c r).tlb } : State).complete r stOK 0 0 := by
  rw [State.tuInval_tlb]
  unfold State.tuInval
  refine (State.finishInvals_single (congrArg (· ++ [_]) h) hb).trans ?_
  rw [← h]
  rfl

end

/-- Settles O18: the filter of the cached translations, and the completion of the only invalidation. -/
theorem invalidationDropsTheCachedTranslations : Obligations.InvalidationDropsTheCachedTranslations := by
  intro c s hs
  have he : exec (.tuInval c) s = .next ((s.started c).tuInval c (s.refOf c 0x05)) :=
    congrArg Host.Outcome.next (startCmd_starts hs)
  have hinv : (s.started c).invals = s.invals := by rw [started_eq hs]; rfl
  have hbusy : (s.started c).xlatBusy = s.xlatBusy := by rw [started_eq hs]; rfl
  exact ⟨_, he, State.tuInval_tlb, fun h hb => State.tuInval_atOnce (hinv.trans h) (hbusy ▸ hb)⟩

/-! ### Reading a ring after a write, in a table of any form -/

/-- An enabled ring is not the default one. -/
theorem Ring.enabled_ne {r : Ring} (h : r.enabled = true) : r ≠ {} := by
  rintro rfl
  exact absurd h (by decide)

section
variable {s : State} {fn q : Nat} {f : Ring → Ring}

theorem State.modRing_ring_enabled (h : (f (s.ring fn q)).enabled = true) : (s.modRing fn q f).ring fn q = f (s.ring fn q) :=
  getT_setT_ne _ _ _ _ (Ring.enabled_ne h)

theorem State.modRing_ring_other {p : Nat} (h : p ≠ q) : (s.modRing fn q f).ring fn p = s.ring fn p :=
  getT_setT_other _ _ _ _ _ (by omega)

theorem State.modFn_ring {t : Nat} {f : Fn → Fn} : (s.modFn t f).ring = s.ring := rfl

/-- Only the ring's present value matters to a rewrite of it. -/
theorem State.modRing_congr {g : Ring → Ring} (h : f (s.ring fn q) = g (s.ring fn q)) : s.modRing fn q f = s.modRing fn q g := by
  have h' : f (getT {} s.rings (fn * 128 + q)) = g (getT {} s.rings (fn * 128 + q)) := h
  simp only [State.modRing, modT, h']

end

/-! ### Doorbells (R250, R253, R254) -/

section
variable {s : State} {fn q v : Nat}

/-- The index that a doorbell writes. -/
abbrev indexOf (v : Nat) : BitVec 24 := BitVec.ofNat 24 v

theorem State.doorbell_disabled (h : (s.ring fn q).enabled = false) : s.doorbell fn q v = s := by
  simp [State.doorbell, h]

/-- The ring takes doorbells: the device is READY, the function exists and the ring runs. -/
structure State.TakesDoorbells (s : State) (fn q : Nat) : Prop where
  ready   : s.ready = true
  exist   : s.fnExists fn = true
  enabled : (s.ring fn q).enabled = true
  run     : (s.ring fn q).state = .run

variable (hr : s.TakesDoorbells fn q)
include hr

theorem State.doorbell_bad (hi : (s.ring fn q).goodIndex (indexOf v) = false) :
    s.doorbell fn q v = (s.modRing fn q fun r => { r with tail := indexOf v }).ringError fn q 1 := by
  obtain ⟨h1, h2, h3, h4⟩ := hr
  simp [State.doorbell, h1, h2, h3, h4, hi]

/-- Without ARM, and on a CMD ring in any case, a good index is published and nothing else happens. -/
theorem State.doorbell_publishes (hi : (s.ring fn q).goodIndex (indexOf v) = true)
    (ha : (s.ring fn q).kind = 0 ∨ bit v 31 = false) : s.doorbell fn q v = s.modRing fn q fun r => r.publish (indexOf v) := by
  obtain ⟨h1, h2, h3, h4⟩ := hr
  rcases ha with ha | ha <;> simp [State.doorbell, h1, h2, h3, h4, hi, ha]

/-- With ARM the ring is armed, and raises its vector at once where it holds entries. -/
theorem State.doorbell_arms (hi : (s.ring fn q).goodIndex (indexOf v) = true) (hk : (s.ring fn q).kind ≠ 0)
    (ha : bit v 31 = true) :
    s.doorbell fn q v =
      (let u := (s.modRing fn q fun r => r.publish (indexOf v)).modRing fn q fun r => { r with armed := true }
       if (u.ring fn q).used = 0 then u else u.ringIrq fn q) := by
  obtain ⟨h1, h2, h3, h4⟩ := hr
  simp [State.doorbell, h1, h2, h3, h4, hi, ha, hk]

end

section
variable {s : State} {fn q v : Nat}

theorem Ring.publish_cmd {r : Ring} {i : BitVec 24} (h : r.kind = 0) : r.publish i = { r with p := i, tail := i } := by
  simp [Ring.publish, h]

/-- On a ring other than CMD the index becomes C and P stays. -/
theorem Ring.publish_consumer {r : Ring} {i : BitVec 24} (h : r.kind ≠ 0) :
    (r.publish i).c = i ∧ (r.publish i).p = r.p ∧ (r.publish i).co = r.co := by
  simp [Ring.publish, h]

/-- A raised vector is a message, or a pending bit while it is masked. -/
theorem State.raiseVec_frame : s.raiseVec fn v = { s with fns := (s.raiseVec fn v).fns, out := (s.raiseVec fn v).out } := by
  unfold State.raiseVec
  split <;> rfl

theorem State.raiseVec_ring : (s.raiseVec fn v).ring = s.ring := by
  rw [State.raiseVec_frame]; rfl

theorem State.raiseVec_out :
    (s.raiseVec fn v).out = s.out ++ if (s.fn fn).msixMask.contains v = false then [.msix fn v] else [] := by
  unfold State.raiseVec
  cases hm : (s.fn fn).msixMask.contains v
  · simp [State.emit]
  · simp

theorem State.ringIrq_armed (h : (s.ring fn q).armed = true) :
    s.ringIrq fn q = (s.modRing fn q fun r => { r with armed := false }).raiseVec fn (s.ring fn q).vec := by
  simp [State.ringIrq, h]

end

section
variable {s : State} {fn q v : Nat}

/-- What ARM comes to on a ring other than CMD. -/
theorem State.doorbell_armed (hr : s.TakesDoorbells fn q) (hi : (s.ring fn q).goodIndex (indexOf v) = true)
    (hk : (s.ring fn q).kind ≠ 0) (ha : bit v 31 = true) :
    let r := s.ring fn q
    let n := (r.p - indexOf v).toNat
    let t := s.doorbell fn q v
    t = { s with rings := t.rings, fns := t.fns, out := t.out } ∧ (t.ring fn q).c = indexOf v ∧
      (t.ring fn q).armed = decide (n = 0) ∧
      t.out = s.out ++ (if n ≠ 0 ∧ (s.fn fn).msixMask.contains r.vec = false then [.msix fn r.vec] else []) := by
  intro r n t
  obtain ⟨hc, hp, hco⟩ := Ring.publish_consumer (i := indexOf v) hk
  have hpub : ((r.publish (indexOf v))).enabled = true := by unfold Ring.enabled Ring.cfgN; rw [hco]; exact hr.enabled
  let u := (s.modRing fn q fun r => r.publish (indexOf v)).modRing fn q fun r => { r with armed := true }
  have hu : u.ring fn q = { r.publish (indexOf v) with armed := true } := by
    have h1 := State.modRing_ring_enabled (s := s) (f := fun r => r.publish (indexOf v)) hpub
    exact (State.modRing_ring_enabled (by rw [h1]; exact hpub)).trans (by rw [h1])
  have hused : (u.ring fn q).used = n := by rw [hu]; unfold Ring.used; rw [hc, hp]
  have hvec : (u.ring fn q).vec = r.vec := by rw [hu]; unfold Ring.vec Ring.cfgN; rw [hco]
  have ht : t = if n = 0 then u else u.ringIrq fn q := by rw [← hused]; exact State.doorbell_arms hr hi hk ha
  by_cases hn : n = 0
  · rw [if_pos hn] at ht
    rw [ht]
    refine ⟨rfl, by rw [hu]; exact hc, by rw [hu]; simp [hn], by simp [hn]; rfl⟩
  · rw [if_neg hn, State.ringIrq_armed (by rw [hu]), hvec] at ht
    have hring : t.ring fn q = { r.publish (indexOf v) with armed := false } := by
      rw [ht, State.raiseVec_ring]
      exact (State.modRing_ring_enabled (by rw [hu]; exact hpub)).trans (by rw [hu])
    refine ⟨?_, by rw [hring]; exact hc, by rw [hring]; simp [hn], ?_⟩
    · rw [ht, State.raiseVec_frame]; rfl
    · rw [ht, State.raiseVec_out]; simp [hn]; rfl

end

/-- Settles O11, by the kind of the ring and ARM. -/
theorem doorbellPublishesTheIndex : Obligations.DoorbellPublishesTheIndex := by
  intro fn q v s r i h1 h2 h3 h4 hi
  have hr : s.TakesDoorbells fn q := ⟨h1, h2, h3, h4⟩
  refine ⟨fun hk => congrArg Host.Outcome.next ?cmd, fun hk ha => congrArg Host.Outcome.next ?plain, fun hk ha => ⟨_, rfl, ?armed⟩⟩
  case cmd => exact (State.doorbell_publishes hr hi (.inl hk)).trans (State.modRing_congr (Ring.publish_cmd hk))
  case plain => exact State.doorbell_publishes hr hi (.inr ha)
  case armed => exact State.doorbell_armed hr hi hk ha

/-- A read of a CMD ring that times out places the ring in ERROR. -/
theorem exec_ringReadTimeout_waits {fn : Fin 256} {q : Fin 128} {s : State} (hr : (s.ring fn q).runs 0 = true)
    (hu : (s.ring fn q).used ≠ 0) : exec (.ringReadTimeout fn q) s = .next (s.ringError fn q 3) :=
  congrArg Host.Outcome.next (if_pos (by simp [hr, hu]))

/-- Settles O12, by the checks of a doorbell, and the timeout of a ring that waits for a read. -/
theorem badDoorbellStopsTheRing : Obligations.BadDoorbellStopsTheRing := by
  intro fn q v s r i
  exact ⟨fun h1 h2 h3 h4 hi => congrArg Host.Outcome.next (State.doorbell_bad ⟨h1, h2, h3, h4⟩ hi),
    fun h => congrArg Host.Outcome.next (State.doorbell_disabled h), exec_ringReadTimeout_waits⟩

/-! ### Completions, records and events (R251, R252, R263) -/

section
variable {s u : State} {fn q a : Nat} {acc : HostAcc}

theorem State.writeCompletion_room {c : Cpl} {cs : List Cpl} (hw : (s.ring fn q).cplWait = c :: cs)
    (hr : (s.ring fn q).runs 1 = true) (hf : (s.ring fn q).isFull = false)
    (ht : s.translate fn ((s.ring fn q).base + 16 * ((s.ring fn q).p.toNat % (s.ring fn q).depth)) true acc = (u, some a)) :
    s.writeCompletion fn q acc =
      ((u.emit (.hostWrite fn ((s.ring fn q).base + 16 * ((s.ring fn q).p.toNat % (s.ring fn q).depth))
        (c.bytes ((s.ring fn q).phase (s.ring fn q).p.toNat) (s.ring fn c.cmd.q).c.toNat))).modRing fn q
          fun x => { x with p := x.p + 1, cplWait := cs }).ringIrq fn q := by
  have hu : u.ring = s.ring := by rw [State.translate_some_only ht]; rfl
  simp [State.writeCompletion, hw, hr, hf, ht, hu]

theorem State.writeOutRecord_room {x : Rec} {xs : List Rec} (hw : (s.ring fn q).staged = x :: xs)
    (hr : (s.ring fn q).runs 2 = true) (hf : (x.len + 63) / 64 * 64 ≤ (s.ring fn q).room)
    (ht : s.translate fn ((s.ring fn q).base + (s.ring fn q).p.toNat % (s.ring fn q).capacity) true acc = (u, some a)) :
    s.writeOutRecord fn q acc =
      (let r := s.ring fn q
       let p := r.p + BitVec.ofNat 24 ((x.len + 63) / 64 * 64)
       let w := (u.forEach (wrapWrites fn r.base r.capacity (r.p.toNat % r.capacity) x.bytes) State.emit).emit
        (.hostWrite fn r.wb (le32 p.toNat))
       ((match x.die with | some d => w.subStaging d x.tenant x.len | none => w).modRing fn q
        fun y => { y with p := p, staged := xs, recEnds := y.recEnds ++ [p] }).ringIrq fn q) := by
  cases hd : x.die <;> simp [State.writeOutRecord, hw, hr, ht, hd, Nat.not_lt.mpr hf]

theorem State.overflowEvt_room {g : Ring} (hg : s.ring fn (s.fn fn).evtQ = g) (hn : (s.fn fn).evtFull ≠ 0)
    (hv : (s.fn fn).evtValid = true) (hr : g.runs 3 = true) (hf : g.isFull = false) :
    s.overflowEvt fn = (s.writeEvt fn (s.fn fn).evtQ (0x06 * 256) (15 * 2 ^ 28) (s.fn fn).evtFull 0).modFn fn
      fun f => { f with evtFull := 0 } := by
  simp [State.overflowEvt, hg, hn, hv, hr, hf]

end

/-- Settles O13: each write is the branch of its command where the ring runs and has room. -/
theorem ringWritesReachTheHost : Obligations.RingWritesReachTheHost := by
  intro fn q acc s r
  exact ⟨fun c cs a u hw hr hf ht => congrArg Host.Outcome.next (State.writeCompletion_room hw hr hf ht),
    fun x xs a u hw hr hf ht => congrArg Host.Outcome.next (State.writeOutRecord_room hw hr hf ht),
    fun g hg hn hv hr hf => congrArg Host.Outcome.next (State.overflowEvt_room hg hn hv hr hf)⟩

/-! ### Function commits (R248, R250) -/

section
variable {s : State} {fn : Nat}

/-- A commit of a function that exists, before its check. -/
theorem State.functionCommit_ready (hr : s.ready = true) (he : s.fnExists fn = true) :
    s.functionCommit fn =
      (let u := s.modFn fn fun f => { f with rsnap := [] }
       if u.fnCommitCheck fn ≠ stOK then u.modFn fn fun f => { f with last := BitVec.ofNat 8 (u.fnCommitCheck fn) }
       else ((u.forEach (u.fnRings fn) fun s x => s.modRing fn x.1 Ring.commit).modFn fn fun f => { f with
         last := 0, evtValid := f.evtValidSh, evtQ := f.evtQSh, staleValid := f.staleValidSh, staleQ := f.staleQSh }).forEach
           (u.fnRings fn) fun s x => s.afterDisable fn x.1 x.2) := by
  simp [State.functionCommit, hr, he]

/-- Steps that each change nothing change nothing. -/
theorem State.forEach_id {α : Type} {f : State → α → State} (l : List α) (hf : ∀ x ∈ l, ∀ s, f s x = s) (s : State) :
    s.forEach l f = s := by
  induction l with
  | nil => rfl
  | cons x l ih => exact (congrArg (fun s => State.forEach s l f) (hf x (by simp) s)).trans (ih fun y hy => hf y (by simp [hy]))

/-- A ring that stays enabled, or was not, leaves nothing to be ended. -/
theorem State.afterDisable_kept {q : Nat} {r : Ring} (h : cfgEnabled r.co = true → cfgEnabled r.sh = true) :
    s.afterDisable fn q r = s := by
  cases hc : cfgEnabled r.co <;> simp_all [State.afterDisable]

section
variable {f : Ring → Ring}

/-- The listed rings of a function, one after the other rewritten. -/
abbrev State.modRings (s : State) (fn : Nat) (l : List (Nat × Ring)) (f : Ring → Ring) : State :=
  s.forEach l fun s x => s.modRing fn x.1 f

theorem State.modRings_only (l : List (Nat × Ring)) : s.modRings fn l f = { s with rings := (s.modRings fn l f).rings } := by
  induction l generalizing s with
  | nil => rfl
  | cons x l ih => exact ih (s := s.modRing fn x.1 f)

theorem State.modRings_ring_other {q : Nat} (l : List (Nat × Ring)) (hq : q ∉ l.map (·.1)) :
    (s.modRings fn l f).ring fn q = s.ring fn q := by
  induction l generalizing s with
  | nil => rfl
  | cons x l ih =>
    rw [List.map_cons, List.mem_cons, not_or] at hq
    exact (ih (s := s.modRing fn x.1 f) hq.2).trans (State.modRing_ring_other hq.1)

/-- A ring rewritten once, to an enabled one, reads as rewritten. -/
theorem State.modRings_ring {q : Nat} (l : List (Nat × Ring)) (hn : (l.map (·.1)).Nodup) (hq : q ∈ l.map (·.1))
    (he : (f (s.ring fn q)).enabled = true) : (s.modRings fn l f).ring fn q = f (s.ring fn q) := by
  induction l generalizing s with
  | nil => simp at hq
  | cons x l ih =>
    rw [List.map_cons, List.nodup_cons] at hn
    rcases List.mem_cons.mp hq with rfl | hq
    · exact (State.modRings_ring_other (s := s.modRing fn x.1 f) l hn.1).trans (State.modRing_ring_enabled he)
    · have hx : (s.modRing fn x.1 f).ring fn q = s.ring fn q := State.modRing_ring_other fun h => hn.1 (h ▸ hq)
      exact (ih (s := s.modRing fn x.1 f) hn.2 hq (by rw [hx]; exact he)).trans (by rw [hx])

end

theorem State.fnRings_numbers : (s.fnRings fn).map (·.1) = List.range 128 := by
  simp [State.fnRings, Function.comp_def]

/-- A commit that finds no conflict and disables no ring. -/
theorem State.functionCommit_applied (hr : s.ready = true) (he : s.fnExists fn = true)
    (hc : (s.modFn fn fun f => { f with rsnap := [] }).fnCommitCheck fn = stOK)
    (hd : ∀ q < 128, cfgEnabled (s.ring fn q).co = true → cfgEnabled (s.ring fn q).sh = true) :
    s.functionCommit fn =
      ((s.modFn fn fun f => { f with rsnap := [] }).modRings fn (s.fnRings fn) Ring.commit).modFn fn fun f => { f with
         last := 0, evtValid := f.evtValidSh, evtQ := f.evtQSh, staleValid := f.staleValidSh, staleQ := f.staleQSh } := by
  have hkept : ∀ x ∈ s.fnRings fn, ∀ v : State, v.afterDisable fn x.1 x.2 = v := by
    intro x hx v
    obtain ⟨q, hq, rfl⟩ := List.mem_map.mp hx
    exact State.afterDisable_kept (hd q (List.mem_range.mp hq))
  rw [State.functionCommit_ready hr he]
  exact (if_neg fun h => h hc).trans (State.forEach_id _ hkept _)

/-- A ring that takes enabled registers: its indices start at 0 where it was disabled, and stay where it was not. -/
theorem Ring.commit_enabled {r : Ring} (h : cfgEnabled r.sh = true) :
    r.commit.co = r.sh ∧ if cfgEnabled r.co then r.commit.p = r.p ∧ r.commit.c = r.c
      else r.commit.state = .run ∧ r.commit.p = 0 ∧ r.commit.c = 0 := by
  cases hc : cfgEnabled r.co <;> simp [Ring.commit, h, hc]

end

/-- Settles O16, by the outcome of the check. -/
theorem functionCommitIsWhole : Obligations.FunctionCommitIsWhole := by
  intro fn s hr he u
  refine ⟨fun hc => ?refused, fun hc hd => ⟨_, rfl, ?frame, ?fns, fun q hq => ?rings⟩⟩
  case refused =>
    exact congrArg Host.Outcome.next ((State.functionCommit_ready hr he).trans (if_pos hc))
  all_goals
    rw [State.functionCommit_applied hr he hc fun q hq => hd ⟨q, hq⟩]
  case frame | fns =>
    obtain ⟨rs, hrs⟩ : ∃ rs, u.modRings fn (s.fnRings fn) Ring.commit = { u with rings := rs } := ⟨_, State.modRings_only _⟩
    rw [hrs]
    rfl
  case rings =>
    obtain ⟨hco, hidx⟩ := Ring.commit_enabled hq
    have hon : (s.ring fn q).commit.enabled = true := by unfold Ring.enabled Ring.cfgN; rw [hco]; exact hq
    have hmem : (q : Nat) ∈ (s.fnRings fn).map (·.1) := by rw [State.fnRings_numbers]; exact List.mem_range.mpr q.isLt
    have hring : (u.modRings fn (s.fnRings fn) Ring.commit).ring fn q = (s.ring fn q).commit :=
      State.modRings_ring (s := u) _ (by rw [State.fnRings_numbers]; exact List.nodup_range) hmem hon
    rw [State.modFn_ring, hring]
    exact ⟨hco, hidx⟩

end Sys2Proof.Machine
end

section
/-! SUPPORT. Proofs about the hub DMA: the checks of DMA_COPY, a burst between HBM allocations, and how transfers end. -/

namespace Sys2Proof.Machine

open Sys2Proof

/-! ### Reading a channel after a write, in a table of any form -/

section
variable {s : State} {ch : Nat} {f : Dma → Dma}

theorem State.modDma_dma_cur {x : Xfer} (h : (f (s.dma ch)).cur = some x) : (s.modDma ch f).dma ch = f (s.dma ch) :=
  getT_setT_ne _ _ _ _ fun he => by rw [show f (s.dma ch) = _ from he] at h; cases h

theorem State.modDma_dma_queue (h : (f (s.dma ch)).queue ≠ []) : (s.modDma ch f).dma ch = f (s.dma ch) :=
  getT_setT_ne _ _ _ _ fun he => h (by rw [show f (s.dma ch) = _ from he])

/-- Progress of a transfer in place. -/
theorem State.modXfer_cur {g : Xfer → Xfer} {x : Xfer} (h : (s.dma ch).cur = some x) :
    ((s.modXfer ch g).dma ch).cur = some (g x) := by
  have hg : ((s.dma ch).cur.map g) = some (g x) := by rw [h]; rfl
  exact (congrArg Dma.cur (State.modDma_dma_cur (f := fun y => { y with cur := y.cur.map g }) hg)).trans hg

/-- Steps that each change the stacks alone change the stacks alone. -/
theorem State.forEach_stacks {α : Type} {f : State → α → State} (hf : ∀ s x, f s x = { s with hbmStacks := (f s x).hbmStacks })
    (l : List α) (s : State) : s.forEach l f = { s with hbmStacks := (s.forEach l f).hbmStacks } := by
  induction l generalizing s with
  | nil => rfl
  | cons x l ih =>
    exact (ih (f s x)).trans (congrArg (fun t : State => { t with hbmStacks := (State.forEach (f s x) l f).hbmStacks }) (hf s x))

theorem State.dropGrants_only (id : Nat) : s.dropGrants id = { s with hbmStacks := (s.dropGrants id).hbmStacks } :=
  State.forEach_stacks (fun s d => State.forEach_stacks (fun _ _ => rfl) (s.grantsOf d id) s) _ _

@[simp] theorem State.dropGrants_hbm (id : Nat) : (s.dropGrants id).hbm = s.hbm := by
  rw [State.dropGrants_only]

@[simp] theorem State.dropGrants_dmas (id : Nat) : (s.dropGrants id).dmas = s.dmas := by
  rw [State.dropGrants_only]

@[simp] theorem State.dropGrants_dma (id k : Nat) : (s.dropGrants id).dma k = s.dma k := by
  unfold State.dma
  rw [State.dropGrants_dmas]

@[simp] theorem State.dropGrants_invals (id : Nat) : (s.dropGrants id).invals = s.invals := by
  rw [State.dropGrants_only]

end

/-! ### DMA_COPY (R268, R269) -/

/-- The eight words of a DMA_COPY's transfer. -/
def xferWords (c : RingCmd) (i : Nat) : Nat :=
  ([c.arg0, c.arg1, c.arg2, c.arg3, c.arg4, c.arg5, c.arg6, c.arg7].getD (min i 7) 0).toNat

section
variable {s : State} {c : RingCmd} {r : CmdRef}

/-- DMA_COPY over the words of its transfer. -/
theorem State.dmaCopy_eq : s.dmaCopy c r =
    (let ch := fld c.arg7.toNat 4 0
     let x := xferOf (xferWords c)
     if xferReserved (xferWords c) then s.refuse r stConflict noField 0
     else if !s.dmaValid ch || s.dmaGroupMode ch || s.dmaTenant ch != c.fn.val then s.refuse r stConflict (argOff 7) 0
     else if x.pulse != 1 || fld ((xferWords c) 0) 15 8 != 0 || !s.xferOk c.fn x then s.refuse r stConflict noField 0
     else if s.resetting 34 then s.refuse r stResetting noField 0
     else (s.modDma ch fun y => { y with queue := y.queue ++ [{ x with cmd := some r }] }).dmaNext ch) := rfl

theorem State.dmaCopy_reserved (h : xferReserved (xferWords c) = true) : s.dmaCopy c r = s.complete r stConflict noField 0 := by
  simp [State.dmaCopy_eq, h, State.refuse]

theorem State.dmaCopy_otherChannel (h : xferReserved (xferWords c) = false)
    (hc : s.dmaValid (fld c.arg7.toNat 4 0) = false ∨ s.dmaGroupMode (fld c.arg7.toNat 4 0) = true ∨
      s.dmaTenant (fld c.arg7.toNat 4 0) ≠ c.fn.val) : s.dmaCopy c r = s.complete r stConflict 0x3C 0 := by
  rcases hc with hc | hc | hc <;> simp [State.dmaCopy_eq, h, hc, State.refuse, argOff]

/-- The command passes every check of DMA_COPY. -/
structure State.Copies (s : State) (c : RingCmd) : Prop where
  clean  : xferReserved (xferWords c) = false
  valid  : s.dmaValid (fld c.arg7.toNat 4 0) = true
  single : s.dmaGroupMode (fld c.arg7.toNat 4 0) = false
  own    : s.dmaTenant (fld c.arg7.toNat 4 0) = c.fn.val
  pulse  : (xferOf (xferWords c)).pulse = 1
  status : fld ((xferWords c) 0) 15 8 = 0
  ends   : s.xferOk c.fn (xferOf (xferWords c)) = true
  works  : s.resetting 34 = false

theorem State.dmaCopy_queues (h : s.Copies c) :
    s.dmaCopy c r = (s.modDma (fld c.arg7.toNat 4 0) fun y =>
      { y with queue := y.queue ++ [{ xferOf (xferWords c) with cmd := some r }] }).dmaNext (fld c.arg7.toNat 4 0) := by
  obtain ⟨h1, h2, h3, h4, h5, h6, h7, h8⟩ := h
  simp [State.dmaCopy_eq, h1, h2, h3, h4, h5, h6, h7, h8]

/-- An idle channel takes the only transfer of its queue. -/
theorem State.dmaNext_starts {ch : Nat} {x : Xfer} (hg : s.dmaGroupMode ch = false) (hi : (s.dma ch).cur = none)
    (hq : (s.dma ch).queue = [x]) :
    ((s.dmaNext ch).dma ch).cur = some x ∧ ((s.dmaNext ch).dma ch).queue = [] := by
  have hn : s.dmaNext ch = s.modDma ch fun y => { y with cur := some x, queue := [] } := by
    simp [State.dmaNext, hg, hi, hq]
  rw [hn, State.modDma_dma_cur (f := fun y => { y with cur := some x, queue := [] }) rfl]
  exact ⟨rfl, rfl⟩

theorem State.dmaCopy_startsAtOnce (h : s.Copies c) (hi : (s.dma (fld c.arg7.toNat 4 0)).cur = none)
    (hq : (s.dma (fld c.arg7.toNat 4 0)).queue = []) :
    ((s.dmaCopy c r).dma (fld c.arg7.toNat 4 0)).cur = some { xferOf (xferWords c) with cmd := some r } ∧
      ((s.dmaCopy c r).dma (fld c.arg7.toNat 4 0)).queue = [] := by
  rw [State.dmaCopy_queues h]
  have hy : (s.modDma (fld c.arg7.toNat 4 0) fun y => { y with queue := y.queue ++ [{ xferOf (xferWords c) with cmd := some r }] }).dma
      (fld c.arg7.toNat 4 0) = { s.dma (fld c.arg7.toNat 4 0) with queue := [{ xferOf (xferWords c) with cmd := some r }] } := by
    rw [State.modDma_dma_queue (by simp), hq]
    rfl
  exact State.dmaNext_starts h.single (by rw [hy]; exact hi) (by rw [hy])

end

/-- Settles O19, by the check of DMA_COPY that decides. -/
theorem dmaCopyQueuesATransfer : Obligations.DmaCopyQueuesATransfer := by
  intro c s hs u r ch w x
  have he : exec (.dmaCopy c) s = .next (u.dmaCopy c r) := congrArg Host.Outcome.next (startCmd_starts hs)
  rw [he]
  exact ⟨fun h => congrArg Host.Outcome.next (State.dmaCopy_reserved h),
    fun h hc => congrArg Host.Outcome.next (State.dmaCopy_otherChannel h hc),
    fun h1 h2 h3 h4 h5 h6 h7 h8 =>
      have h : u.Copies c := ⟨h1, h2, h3, h4, h5, h6, h7, h8⟩
      ⟨congrArg Host.Outcome.next (State.dmaCopy_queues h), fun hi hq => ⟨_, rfl, State.dmaCopy_startsAtOnce h hi hq⟩⟩⟩

/-! ### Bursts (R270, R271, R273) -/

/-- A run of writes leaves every index outside it as it was. -/
theorem getT_setRun_other {α : Type} [DecidableEq α] {d : α} {l : List α} {t : Tab α} {k j : Nat} (h : j < k ∨ k + l.length ≤ j) :
    getT d (setRun d t k l) j = getT d t j := by
  induction l generalizing t k with
  | nil => rfl
  | cons v l ih =>
    rw [List.length_cons] at h
    exact (ih (t := setT d t k v) (k := k + 1) (by omega)).trans (getT_setT_other d t k j v (by omega))

@[simp] theorem getRun_length {α : Type} (d : α) (t : Tab α) (k n : Nat) : (getRun d t k n).length = n := by
  induction n generalizing k with
  | zero => rfl
  | succ n ih => simp [getRun, ih]

section
variable {s : State} {ch : Nat} {x : Xfer} {hd : List Byte} {a1 a2 : HostAcc}

/-- A transfer that a burst moves on: it has not stopped, bytes are left, and the hub DMA is not in reset. -/
structure State.Moving (s : State) (ch : Nat) (x : Xfer) : Prop where
  cur    : (s.dma ch).cur = some x
  status : x.status = 0
  left   : x.moved < x.len
  works  : s.inReset 34 = false

theorem State.dmaBurst_resetting (h : s.Moving ch x) : s.dmaBurst ch hd a1 a2 .resetting = s.stopXfer ch stResetting := by
  obtain ⟨h1, h2, h3, h4⟩ := h
  simp [State.dmaBurst, h1, h2, h4, Nat.not_le.mpr h3]

theorem State.dmaBurst_decerr (h : s.Moving ch x) (hr : s.xferResetting x = false) :
    s.dmaBurst ch hd a1 a2 .decerr = s.stopXfer ch stDecerr := by
  obtain ⟨h1, h2, h3, h4⟩ := h
  simp [State.dmaBurst, h1, h2, h4, Nat.not_le.mpr h3, hr]

/-- The HBM address of the next byte of an end of a transfer. -/
def burstAddr (a : BitVec 64) (moved : Nat) : Nat := hbmAddr ((a.toNat + moved) / 2 ^ 48) ((a.toNat + moved) % 2 ^ 36)

/-- The bytes of a burst between HBM allocations, written at the destination. -/
def State.copyBurst (s : State) (x : Xfer) (n : Nat) : State :=
  s.hbmWrite (burstAddr x.dstA x.moved) (s.hbmRead (burstAddr x.srcA x.moved) n)

/-- Once granted, the bytes are copied and counted; the grants are dropped at the end or where bursts are spaced. -/
theorem State.dmaBurst_copies (h : s.Moving ch x) (hr : s.xferResetting x = false) (hs : x.src = 1) (ht : x.dst = 1)
    (hg : s.grantAll ch (s.hbmDies x) = (s, true)) :
    s.dmaBurst ch hd a1 a2 .ok =
      (let n := min 512 (x.len - x.moved)
       let u := (s.copyBurst x n).modXfer ch fun x => { x with moved := x.moved + n }
       if u.dmaDribble ch != 0 || decide (x.len ≤ x.moved + n) then u.dropGrants (ch + 8) else u) := by
  obtain ⟨h1, h2, h3, h4⟩ := h
  simp [State.dmaBurst, h1, h2, h4, Nat.not_le.mpr h3, hr, hg, hs, ht, State.dmaRead, State.dmaWrite, State.copyBurst, burstAddr]

/-- Whether or not the grants are dropped, a copied burst has written its bytes and moved its transfer on. -/
theorem State.dmaBurst_moved (h : s.Moving ch x) (hr : s.xferResetting x = false) (hs : x.src = 1) (ht : x.dst = 1)
    (hg : s.grantAll ch (s.hbmDies x) = (s, true)) :
    let n := min 512 (x.len - x.moved)
    let t := s.dmaBurst ch hd a1 a2 .ok
    t.hbm = (s.copyBurst x n).hbm ∧ (t.dma ch).cur.map (·.moved) = some (x.moved + n) := by
  intro n t
  obtain ⟨u, hu⟩ : ∃ u, u = (s.copyBurst x n).modXfer ch fun x => { x with moved := x.moved + n } := ⟨_, rfl⟩
  have hhbm : u.hbm = (s.copyBurst x n).hbm := by rw [hu]; rfl
  have hcur : (u.dma ch).cur.map (·.moved) = some (x.moved + n) := by
    rw [hu, State.modXfer_cur (s := s.copyBurst x n) h.cur]
    rfl
  have ht : t = if u.dmaDribble ch != 0 || decide (x.len ≤ x.moved + n) then u.dropGrants (ch + 8) else u := by
    rw [hu]
    exact State.dmaBurst_copies h hr hs ht hg
  rw [ht]
  split
  · simp [hhbm, hcur]
  · exact ⟨hhbm, hcur⟩

end

/-- Settles O20, by the response of the burst. -/
theorem dmaMovesHbmToHbm : Obligations.DmaMovesHbmToHbm := by
  intro ch x hd a1 a2 s h1 h2 h3 h4
  have h : s.Moving ch x := ⟨h1, h2, h3, h4⟩
  refine ⟨congrArg Host.Outcome.next (State.dmaBurst_resetting h), fun hr => congrArg Host.Outcome.next (State.dmaBurst_decerr h hr),
    fun hr hs ht hg => ?copies⟩
  obtain ⟨hhbm, hmoved⟩ := State.dmaBurst_moved (hd := hd) (a1 := a1) (a2 := a2) h hr hs ht hg
  refine ⟨_, rfl, hhbm, hmoved, fun a ha => congrArg (fun b => [b]) ?outside⟩
  rw [show State.hbm _ = _ from hhbm]
  exact getT_setRun_other (by rwa [State.hbmRead, getRun_length])

/-! ### Ends of transfers (R272, R273, R286) -/

section
variable {s : State} {ch : Nat} {x : Xfer}

theorem State.dmaTimeout_reads (h : (s.dma ch).cur = some x) (h0 : x.status = 0) (hs : x.src = 0) (hm : x.moved < x.len) :
    s.dmaTimeout ch = s.stopXfer ch stDecerr := by
  simp [State.dmaTimeout, h, h0, hs, hm]

theorem State.complete_invals (r : CmdRef) (st r0 r1 : Nat) : (s.complete r st r0 r1).invals = s.invals := rfl

/-- The completion of a DMA_COPY's transfer, with no invalidation waiting for it. -/
theorem State.endXfer_copy {r : CmdRef} (h : (s.dma ch).cur = some x) (hp : x.pulse = 1) (hr : x.cmd = some r)
    (he : x.entry = none) (hd : x.toData = false) (hi : s.invals = []) :
    s.endXfer ch = (((s.modDma ch fun y => { y with cur := none, done := y.done + 1 }).dropGrants (ch + 8)).complete r
      x.status.toNat (if x.status = 0 then x.moved else noField) 0).dmaNext ch := by
  unfold State.endXfer
  simp only [h, State.dmaEntryEnd, he, hd, Bool.false_and, Bool.false_eq_true, if_false, State.dmaPulse, hp, hr, State.completeOpt, beq_iff_eq]
  rw [State.finishInvals_none]
  rw [State.complete_invals, State.dropGrants_invals]
  exact hi

theorem exec_dmaTransferEnd_ends {ch : Fin 32} (h : (s.dma ch).cur = some x) (he : x.status ≠ 0 ∨ x.len ≤ x.moved) :
    exec (.dmaTransferEnd ch) s = .next (s.endXfer ch) := by
  have hends : (x.status != 0 || decide (x.len ≤ x.moved)) = true := by simpa using he
  show execDmaTransferEnd ch s = _
  simp only [execDmaTransferEnd, h, hends, if_true]

end

/-- Settles O21: the end, the timeout and the withdrawal are each one branch of their command. -/
theorem dmaTransfersEndAndTimeOut : Obligations.DmaTransfersEndAndTimeOut := by
  intro ch die k port s
  refine ⟨fun x r h he hp hr hn hd hi => ?ends, fun x h h0 hs hm => congrArg Host.Outcome.next (State.dmaTimeout_reads h h0 hs hm), rfl⟩
  rw [exec_dmaTransferEnd_ends h he, State.endXfer_copy h hp hr hn hd hi]

end Sys2Proof.Machine
end

section
/-! SUPPORT. Proofs about resets: what every start keeps and clears, the sources that begin one, and resets across the chain. -/

namespace Sys2Proof.Machine

open Sys2Proof

/-! ### Starts (R355, R356, R360, R361) -/

section
variable {s u : State} {source : Nat} {warm : Bool}

/-- A restart begins a start of its source. -/
theorem State.restart_restarted (s : State) (source : Nat) (warm : Bool) (wake : Nat) (thermal : Bool) :
    Restarted s source warm (.next (s.restart source warm wake thermal)) := by
  refine ⟨_, rfl, rfl, rfl, rfl, rfl, rfl, ?comm, rfl, rfl, rfl, rfl, rfl, rfl, rfl, rfl, rfl, rfl, rfl, rfl, rfl⟩
  simp [State.restart, State.faultRec, State.modRst]

/-- Where no pulse of the NV store runs, a source begins its start at once. -/
theorem State.resetBy_restarted {thermal : Bool} (h : s.rst.nvfsBusy = false) :
    Restarted s source warm (.next (s.resetBy source warm thermal)) := by
  rw [show s.resetBy source warm thermal = s.restart source warm 0 thermal by simp [State.resetBy, h]]
  exact s.restart_restarted ..

theorem State.softStart_restarted (hr : s.running = true) (h : s.rst.nvfsBusy = false) : Restarted s 4 true (.next s.softStart) := by
  rw [show s.softStart = s.resetBy 4 true false from if_pos hr]
  exact State.resetBy_restarted h

/-- A start reads of the state before it only what its parts name. -/
theorem Restarted.of_eq {o : Host.Outcome State Fault Refusal} (h : Restarted u source warm o) (hp : u.rst.power = s.rst.power)
    (hw : u.rst.warm = s.rst.warm) (hc : u.comm = s.comm) (ho : u.out = s.out) (hq : u.pending = s.pending) :
    Restarted s source warm o := by
  unfold Restarted at *
  rwa [hp, hw, hc, ho, hq] at h

end

section
variable {s : State} (hr : s.running = true)
include hr

theorem exec_brownOut_running : exec .brownOut s = .next (s.resetBy 1 false false) :=
  congrArg Host.Outcome.next (if_pos (by simp [hr]))

theorem exec_watchdogExpiry_running (hd : 4 ≤ s.rst.released) : exec .watchdogExpiry s = .next (s.resetBy 3 true false) :=
  congrArg Host.Outcome.next (if_pos (by simp [hr, hd]))

theorem exec_lockup_running (hd : 4 ≤ s.rst.released) : exec .lockup s = .next (s.resetBy 7 true false) :=
  congrArg Host.Outcome.next (if_pos (by simp [hr, hd]))

theorem exec_clockFailure_running (hd : 3 ≤ s.rst.released) : exec .clockFailure s = .next (s.resetBy 6 true false) :=
  congrArg Host.Outcome.next (if_pos (by simp [hr, hd]))

theorem exec_debugReset_running : exec .debugReset s = .next (s.resetBy 5 true false) :=
  congrArg Host.Outcome.next (if_pos hr)

/-- RESET_N stays noted as low. -/
theorem exec_pinReset_running : exec .pinReset s = .next ((s.modRst fun r => { r with resetLow := true }).resetBy 2 false false) := by
  simp only [State.running, State.ready, Bool.and_eq_true, Bool.or_eq_true, beq_iff_eq, Bool.not_eq_true'] at hr
  obtain ⟨hp, hl⟩ := hr
  have hoff : s.rst.power ≠ .off := by rcases hp with hp | hp <;> simp [hp]
  show execPinReset s = _
  simp [execPinReset, hl, hoff]

end

/-- SOFT_RESET restarts the state before it: its descriptor leaves nothing that a start keeps. -/
theorem exec_softReset_restarted {s : State} {c : RingCmd} (hs : s.starts true c = true) (hr : s.running = true)
    (hb : s.rst.nvfsBusy = false) : Restarted s 4 true (exec (.softReset c) s) := by
  have he : exec (.softReset c) s = .next (s.started c).softStart := congrArg Host.Outcome.next (startCmd_starts hs)
  have hrst : (s.started c).rst = s.rst := by rw [started_eq hs]; rfl
  have hrun : (s.started c).running = true := by simpa [State.running, State.ready, hrst] using hr
  rw [he]
  exact (State.softStart_restarted hrun (by rw [hrst]; exact hb)).of_eq (by rw [hrst]) (by rw [hrst]) (by rw [started_eq hs]; rfl)
    (by rw [started_eq hs]; rfl) (by rw [started_eq hs]; rfl)

/-- Settles O22, source by source. -/
theorem resetSourcesRestartTheDevice : Obligations.ResetSourcesRestartTheDevice := by
  intro s c
  refine ⟨s.restart_restarted .., fun hr hb => ⟨?brownOut, ?pin, fun hd => ⟨?watchdog, ?lockup⟩, fun hd => ?clock, ?debug,
    State.softStart_restarted hr hb, State.softStart_restarted hr hb, fun hs => exec_softReset_restarted hs hr hb⟩⟩
  case brownOut => rw [exec_brownOut_running hr]; exact State.resetBy_restarted hb
  case pin =>
    rw [exec_pinReset_running hr]
    exact (State.resetBy_restarted (s := s.modRst fun r => { r with resetLow := true }) hb).of_eq rfl rfl rfl rfl rfl
  case watchdog => rw [exec_watchdogExpiry_running hr hd]; exact State.resetBy_restarted hb
  case lockup => rw [exec_lockup_running hr hd]; exact State.resetBy_restarted hb
  case clock => rw [exec_clockFailure_running hr hd]; exact State.resetBy_restarted hb
  case debug => rw [exec_debugReset_running hr]; exact State.resetBy_restarted hb

/-! ### Frames that a package hears (R309) -/

/-- A frame that is heard has its effect after its acknowledgement, and is passed on unless it ends here. -/
theorem State.receive_heard {s : State} {p : Nat} {f : Frame} {link : Bool} {deliver : State → State} (h : s.hears p f = true) :
    s.receive p f link deliver = s.passed p f link (deliver (s.heard p f)) := by
  simp only [State.hears, State.ownBack, Bool.and_eq_true, Bool.not_eq_true'] at h
  obtain ⟨⟨⟨hup, hme⟩, hback⟩, hseen⟩ := h
  simp only [State.receive, State.passed, State.heard, State.ownBack, hup, hme, hback, hseen]
  rfl

/-! ### Resets across the chain (R383) -/

section
variable {s : State} {f : Frame}

/-- The order is the acting master's, in the epoch last seen, and this package accepts resets. -/
def State.ordered (s : State) (f : Frame) : Prop :=
  f.src = s.mgmt.master ∧ f.src ≠ 0x40#7 ∧ f.epoch = s.mgmt.epoch ∧ bit (s.reg 0xC00000) 12 = true

theorem State.ordered_iff :
    (f.src == s.mgmt.master && f.src != 0x40 && f.epoch == s.mgmt.epoch && bit (s.reg 0xC00000) 12) = true ↔ s.ordered f := by
  simp [State.ordered, and_assoc]

theorem State.takeResetReq_refused
    (h : ¬s.ordered f ∨ 1 < fld (payloadNat f 0) 1 0 ∨ (fld (payloadNat f 0) 1 0 = 1 ∧ 36 < fld (payloadNat f 0) 15 8)) :
    s.takeResetReq f = (s.sendResetAck stConflict).faultRec .resetRefused := by
  rw [← State.ordered_iff, Bool.not_eq_true] at h
  refine if_pos ?_
  rcases h with h | h | ⟨hk, hb⟩
  · simp only [h, Bool.not_false, Bool.true_or]
  · simp [h]
  · simp [hk, hb]

theorem State.takeResetReq_start (h : s.ordered f) (hk : fld (payloadNat f 0) 1 0 = 0) :
    s.takeResetReq f = (s.sendResetAck stOK).softStart := by
  obtain ⟨h1, h2, h3, h4⟩ := h
  simp [State.takeResetReq, ← h1, h2, h3, h4, hk]

theorem State.takeResetReq_block (h : s.ordered f) (hk : fld (payloadNat f 0) 1 0 = 1) (hb : fld (payloadNat f 0) 15 8 ≤ 36) :
    s.takeResetReq f = (s.sendResetAck stOK).beginBlockReset (fld (payloadNat f 0) 15 8) none true := by
  obtain ⟨h1, h2, h3, h4⟩ := h
  simp [State.takeResetReq, ← h1, h2, h3, h4, hk, Nat.not_lt.mpr hb]

section
variable {w : ResetWait} {ws : List ResetWait}

theorem State.takeResetAck_unasked (h : takeFirst (fun w => w.dst == f.src.toNat) s.mgmt.resetWait = none) : s.takeResetAck f = s := by
  simp [State.takeResetAck, h]

theorem State.takeResetAck_first (h : takeFirst (fun w => w.dst == f.src.toNat) s.mgmt.resetWait = some (w, ws))
    (hk : w.word % 4 = 1) (ha : w.acked = false) (hs : fld (payloadNat f 0) 7 0 = stOK) :
    s.takeResetAck f =
      s.modMgmt fun m => { m with resetWait := mapIf (fun x => x == w) (fun x => { x with acked := true }) m.resetWait } := by
  simp [State.takeResetAck, h, hk, ha, hs]

theorem State.takeResetAck_last (h : takeFirst (fun w => w.dst == f.src.toNat) s.mgmt.resetWait = some (w, ws))
    (hk : w.word % 4 ≠ 1 ∨ w.acked = true ∨ fld (payloadNat f 0) 7 0 ≠ stOK) :
    s.takeResetAck f = (s.modMgmt fun m => { m with resetWait := ws }).complete w.cmd (fld (payloadNat f 0) 7 0)
      (fld (payloadNat f 0) 7 0) 0 := by
  rcases hk with hk | hk | hk <;> simp [State.takeResetAck, h, hk]

end

/-- CHAIN_RESET once started. -/
theorem exec_chainReset_starts {c : RingCmd} (hs : s.starts true c = true) :
    exec (.chainReset c) s = .next (
      let u := s.started c
      let r := s.refOf c 0x5E
      let kind := fld c.arg0.toNat 9 8
      if !u.mgmt.acting then u.refuse r stConflict noField 0
      else if 1 < kind then u.refuse r stConflict (argOff 0) 0
      else
        let w : ResetWait := { cmd := r, dst := fld c.arg0.toNat 6 0, word := kind + satTo 255 c.arg1.toNat * 256 }
        (u.modMgmt fun m => { m with resetWait := m.resetWait ++ [w] }).unicast 0x1A 0 (BitVec.ofNat 7 w.dst) [w.word]) :=
  congrArg Host.Outcome.next (startCmd_starts hs)

theorem exec_chainResetTimeout_none (h : takeFirst (fun w => !w.acked) s.mgmt.resetWait = none) :
    exec .chainResetTimeout s = .next s := by
  show execChainResetTimeout s = _
  simp [execChainResetTimeout, h]

/-- The oldest unanswered request is sent again, or refused after the third time. -/
theorem exec_chainResetTimeout_oldest {w : ResetWait} {ws : List ResetWait}
    (h : takeFirst (fun w => !w.acked) s.mgmt.resetWait = some (w, ws)) :
    exec .chainResetTimeout s = .next (
      if w.tries < 3 then
        (s.modMgmt fun m => { m with resetWait := mapIf (fun x => x == w) (fun x => { x with tries := x.tries + 1 }) m.resetWait }).unicast
          0x1A 0 (BitVec.ofNat 7 w.dst) [w.word]
      else (s.modMgmt fun m => { m with resetWait := ws }).complete w.cmd stCapacity noField 0) := by
  show execChainResetTimeout s = _
  simp [execChainResetTimeout, h, State.refuse]

/-- The function-level reset of a VF. -/
theorem exec_functionLevelReset_vf {fn : Fin 256} (h : fn ≠ 0) :
    exec (.functionLevelReset fn) s = .next (if s.ready && s.fnExists fn then s.resetVf fn else s) :=
  congrArg Host.Outcome.next (if_neg (by simpa using h))

end

/-- Settles O56, by the frame that is heard, the state of the request, and whether the VF exists. -/
theorem resetsCrossTheChain : Obligations.ResetsCrossTheChain := by
  intro p f c fn s
  refine ⟨fun hf => ?frames, fun hs => ?master, exec_chainResetTimeout_none, fun w ws h => ⟨fun ht => ?again, fun ht => ?gaveUp⟩,
    fun h0 => ⟨fun hr he => ?vf, fun h => ?noVf⟩⟩
  case frames =>
    have req : exec (.resetReq p f) s = .next (s.passed p f false ((s.heard p f).takeResetReq f)) :=
      congrArg Host.Outcome.next (State.receive_heard hf)
    have ack : exec (.resetAck p f) s = .next (s.passed p f false ((s.heard p f).takeResetAck f)) :=
      congrArg Host.Outcome.next (State.receive_heard hf)
    intro g kind b ours after
    simp only [after, req, ack]
    exact ⟨fun h => by rw [State.takeResetReq_refused h], fun ho hk => by rw [State.takeResetReq_start ho hk],
      fun ho hk hb => by rw [State.takeResetReq_block ho hk hb], fun h => by rw [State.takeResetAck_unasked h],
      fun w ws h => ⟨fun hk ha hs => by rw [State.takeResetAck_first h hk ha hs], fun hk => by rw [State.takeResetAck_last h hk]⟩⟩
  case master =>
    simp only [exec_chainReset_starts hs]
    refine ⟨fun ha => ?_, fun ha hk => ?_, fun ha hk => ?_⟩
    · simp [ha, State.refuse]
    · simp [ha, hk, State.refuse]
    · simp [ha, Nat.not_lt.mpr hk]
  case again => rw [exec_chainResetTimeout_oldest h, if_pos ht]
  case gaveUp => rw [exec_chainResetTimeout_oldest h, if_neg (Nat.not_lt.mpr ht)]
  case vf => rw [exec_functionLevelReset_vf h0, if_pos (by simp [hr, he])]
  case noVf => rw [exec_functionLevelReset_vf h0, if_neg (by rcases h with h | h <;> simp [h])]

end Sys2Proof.Machine
end

section
/-! SUPPORT. Proofs about the possession locks and arbitration: what the reset of the lock unit leaves in a held lock, how the
checks of a request decide, what each lock command, limit and resend does, and when the arbitration shadows take effect. -/

namespace Sys2Proof.Machine

open Sys2Proof

/-! ### Locks in a table of any form -/

section
variable {s : State} {n m : Nat} {f : Lock → Lock}

/-- A rewritten lock that is not the default reads back. -/
theorem State.modLock_lock_ne (h : f (s.lock n) ≠ {}) : (s.modLock n f).lock n = f (s.lock n) := getT_setT_ne _ _ _ _ h

theorem State.modLock_lock_other (h : m ≠ n) : (s.modLock n f).lock m = s.lock m := getT_setT_other _ _ _ _ _ h

/-- An index that does not read as the default is listed. -/
theorem getT_ne_mem {α : Type} {d : α} {t : Tab α} {k : Nat} (h : getT d t k ≠ d) : k ∈ t.map (·.1) := by
  induction t with
  | nil => exact absurd rfl h
  | cons e r ih =>
    obtain ⟨a, v⟩ := e
    by_cases hk : k = a
    · simp [hk]
    · simp only [getT, if_neg hk] at h
      exact List.mem_cons_of_mem _ (ih h)

/-- A held lock is listed. -/
theorem State.lock_held_mem (h : (s.lock n).holder.isSome = true) : n ∈ s.locks.map (·.1) :=
  getT_ne_mem fun e : s.lock n = {} => by simp [e] at h

end

/-! ### The reset of the lock unit (R298, Table 14.7) -/

section
variable {s : State} {n m : Nat}

/-- The lock was taken from its holder by a reset. -/
def Lock.Abandoned (l : Lock) : Prop := l.holder = none ∧ l.waiters = [] ∧ l.mark = 1

/-- What the reset of the lock unit writes over a lock. -/
def Lock.afterReset (l : Lock) : Lock := { l with holder := none, waiters := [], mark := if l.holder.isSome then 1 else l.mark }

theorem Lock.afterReset_held {l : Lock} (h : l.holder.isSome = true) : l.afterReset.Abandoned := ⟨rfl, rfl, if_pos h⟩

theorem Lock.afterReset_abandoned {l : Lock} (h : l.Abandoned) : l.afterReset.Abandoned := by
  obtain ⟨hholder, -, hmark⟩ := h
  exact ⟨rfl, rfl, by simp [Lock.afterReset, hholder, hmark]⟩

/-- The requests that wait for a lock are answered RESETTING. -/
def State.answerWaiters (s : State) (n : Nat) : State := s.forEach (s.lock n).waiters fun s w => s.completeOpt w.cmd stResetting n 0

theorem State.answerWaiters_locks : (s.answerWaiters n).locks = s.locks :=
  State.forEach_same State.locks (fun s w => by rw [s.completeOpt_host w.cmd stResetting n 0]) _ _

theorem State.answerWaiters_lock : (s.answerWaiters n).lock m = s.lock m := by simp only [State.lock, State.answerWaiters_locks]

/-- What the reset of the lock unit does to one lock. -/
def State.resetLock (s : State) (n : Nat) : State := (s.answerWaiters n).modLock n Lock.afterReset

theorem State.assertLocks_eq : s.assertLocks = s.forEach (s.locks.map (·.1)) State.resetLock := rfl

theorem State.resetLock_other (h : m ≠ n) : (s.resetLock n).lock m = s.lock m :=
  (State.modLock_lock_other h).trans State.answerWaiters_lock

theorem State.resetLock_same (h : (s.lock n).afterReset.Abandoned) : ((s.resetLock n).lock n).Abandoned := by
  rw [← State.answerWaiters_lock (n := n)] at h
  have hne : ((s.answerWaiters n).lock n).afterReset ≠ {} := fun e => by simp [Lock.Abandoned, e] at h
  rwa [State.resetLock, State.modLock_lock_ne hne]

theorem State.resetLock_keeps_abandoned (h : (s.lock m).Abandoned) : ((s.resetLock n).lock m).Abandoned := by
  by_cases e : m = n
  · subst e
    exact State.resetLock_same (Lock.afterReset_abandoned h)
  · rwa [State.resetLock_other e]

theorem State.forEach_resetLock_keeps_abandoned {l : List Nat} (h : (s.lock m).Abandoned) :
    ((s.forEach l State.resetLock).lock m).Abandoned := by
  induction l generalizing s with
  | nil => exact h
  | cons n l ih => exact ih (State.resetLock_keeps_abandoned h)

/-- A held lock among those that are reset ends abandoned: its own reset takes it, no other reset touches it. -/
theorem State.forEach_resetLock_held {l : List Nat} (hm : m ∈ l) (h : (s.lock m).holder.isSome = true) :
    ((s.forEach l State.resetLock).lock m).Abandoned := by
  induction l generalizing s with
  | nil => exact absurd hm List.not_mem_nil
  | cons n l ih =>
    by_cases e : m = n
    · subst e
      exact State.forEach_resetLock_keeps_abandoned (s := s.resetLock m) (State.resetLock_same (Lock.afterReset_held h))
    · exact ih ((List.mem_cons.mp hm).resolve_left e) (by rwa [State.resetLock_other e])

theorem State.assertLocks_held (h : (s.lock m).holder.isSome = true) : (s.assertLocks.lock m).Abandoned := by
  rw [State.assertLocks_eq]
  exact State.forEach_resetLock_held (State.lock_held_mem h) h

theorem State.assertReset_first {b : Nat} {x : BlkReset} (h : s.blockReset b = some x) (ha : x.asserted = false) :
    s.assertReset b = (s.setBlock b (some { x with asserted := true, heldFrom := s.now })).assertBlock b := by
  simp [State.assertReset, h, ha]

end

theorem exec_blockIdle_lockUnit {s : State} {x : BlkReset} (h : s.blockReset 35 = some x) (ha : x.asserted = false) :
    exec (.blockIdle 35) s = .next (s.setBlock 35 (some { x with asserted := true, heldFrom := s.now })).assertLocks :=
  congrArg Host.Outcome.next (State.assertReset_first h ha)

/-- Settles O28: every held lock is among those that the assertion resets. -/
theorem lockUnitResetMarksHeldLocks : Obligations.LockUnitResetMarksHeldLocks := by
  intro x s hx ha
  exact ⟨_, exec_blockIdle_lockUnit hx ha, fun n hn => State.assertLocks_held hn⟩

/-! ### Checks in order -/

section
variable {l r : List Check}

theorem checks_append_error {f : Fail} (h : checks l = .error f) : checks (l ++ r) = .error f := by
  induction l with
  | nil => cases h
  | cons a l ih =>
    cases a with
    | error g => exact h
    | ok => exact ih h

theorem checks_append_ok (h : checks l = .ok ()) : checks (l ++ r) = checks r := by
  induction l with
  | nil => rfl
  | cons a l ih =>
    cases a with
    | error g => cases h
    | ok => exact ih h

theorem checks_failIf {b : Bool} {st field check : Nat} :
    checks (failIf b st field check :: l) = if b then .error { status := st, field := field, check := check } else checks l := by
  cases b <;> rfl

end

/-- What a command leaves by its checks: a refusal that names the one that failed, or its effect `v`. -/
def State.onChecks (s : State) (r : CmdRef) (k : Check) (v : State) : State :=
  match k with
  | .error f => s.complete r f.status f.field f.check
  | .ok () => v

@[simp] theorem State.onChecks_error {s v : State} {r : CmdRef} {f : Fail} :
    s.onChecks r (.error f) v = s.complete r f.status f.field f.check := rfl

@[simp] theorem State.onChecks_ok {s v : State} {r : CmdRef} : s.onChecks r (.ok ()) v = v := rfl

/-- A ring that a hold limit took the lock from is told so. -/
theorem Lock.notHeld_eq {l : Lock} {h : Nat} : l.notHeld h = if h ∈ l.limitFrom then stAbandonedTimeout else stConflict := by
  simp [Lock.notHeld]

/-! ### The lock commands (R299, Table 11.6; R321) -/

/-- The global ring id that a command comes from. -/
abbrev globalRing (c : RingCmd) : Nat := c.fn * 128 + c.q

section
variable {s : State} {c : RingCmd} (hs : s.starts false c = true)
include hs

theorem State.lockCmd_resetting {opc : Nat} {body : CmdRef → State → State} (h : (s.started c).resetting 35 = true) :
    s.lockCmd opc c body = (s.started c).complete (s.refOf c opc) stResetting noField 0 :=
  (startCmd_starts hs).trans (if_pos h)

variable (h35 : (s.started c).resetting 35 = false)

section
include h35

theorem State.lockCmd_open {opc : Nat} {body : CmdRef → State → State} :
    s.lockCmd opc c body = body (s.refOf c opc) (s.started c) :=
  (startCmd_starts hs).trans (if_neg (by simp [h35]))

/-- POS_RELEASE once started. -/
theorem exec_posRelease_open : exec (.posRelease c) s = .next (
    let u := s.started c
    let r := s.refOf c 0x42
    let n := c.arg0.toNat
    if 960 ≤ n then u.complete r stConflict (argOff 0) 1
    else if (u.lock n).holder != some (globalRing c) then u.complete r ((u.lock n).notHeld (globalRing c)) (argOff 0) 2
    else (u.complete r stOK n 0).releaseLock n 0) :=
  congrArg Host.Outcome.next (State.lockCmd_open hs h35)

/-- POS_CLEAR once started. -/
theorem exec_posClear_open : exec (.posClear c) s = .next (
    let u := s.started c
    let r := s.refOf c 0x43
    let n := fld c.arg0.toNat 9 0
    let force := bit c.arg0.toNat 31
    if 960 ≤ n then u.complete r stConflict (argOff 0) 1
    else if !force && (u.lock n).holder != some (globalRing c) then u.complete r stConflict (argOff 0) 2
    else if force && c.fn != 0 then u.complete r stDecerr (argOff 0) 3
    else
      let v := u.complete r stOK n (u.lock n).mark
      if force then v.releaseLock n 1 else v.modLock n fun l => { l with mark := 0 }) :=
  congrArg Host.Outcome.next (State.lockCmd_open hs h35)

/-- CHAIN_POS_RELEASE once started. -/
theorem exec_chainPosRelease_open : exec (.chainPosRelease c) s = .next (
    let u := s.started c
    let r := s.refOf c 0x4D
    let n := c.arg0.toNat
    let h := u.holderId n (globalRing c)
    if n < 992 || 1024 ≤ n then u.complete r stConflict (argOff 0) 1
    else if (u.lock n).holder != some h then u.complete r ((u.lock n).notHeld h) (argOff 0) 2
    else
      let v := u.complete r stOK n 0
      if u.mgmt.acting then v.releaseChain n 0 else (v.modLock n fun l => { l with holder := none, mark := 0 }).sendLockRel n false false) :=
  congrArg Host.Outcome.next (State.lockCmd_open hs h35)

/-- CHAIN_POS_CLEAR once started. -/
theorem exec_chainPosClear_open : exec (.chainPosClear c) s = .next (
    let u := s.started c
    let r := s.refOf c 0x4E
    let n := fld c.arg0.toNat 9 0
    let force := bit c.arg0.toNat 31
    if n < 992 then u.complete r stConflict (argOff 0) 1
    else if !force && (u.lock n).holder != some (u.holderId n (globalRing c)) then u.complete r stConflict (argOff 0) 2
    else if force && c.fn != 0 then u.complete r stDecerr (argOff 0) 3
    else
      let v := u.complete r stOK n (u.lock n).mark
      if u.mgmt.acting then (if force then v.releaseChain n 1 else v.modLock n fun l => { l with mark := 0 })
      else (v.modLock n fun l => { l with holder := if force then none else l.holder, mark := 0 }).sendLockRel n (!force) force) :=
  congrArg Host.Outcome.next (State.lockCmd_open hs h35)

end

include h35

/-- POS_ACQUIRE once started. -/
theorem exec_posAcquire_open : exec (.posAcquire c) s = .next (
    let u := s.started c
    let r := s.refOf c 0x41
    let n := fld c.arg0.toNat 9 0
    let l := u.lock n
    u.onChecks r (checks (u.acquireHead c.fn (globalRing c) n (decide (n < 960) && bit (u.posCfg n) 31) ++
        [failIf (decide (64 ≤ l.waiters.length)) stCapacity noField 5,
         failIf (l.holder.isSome && !bit c.arg0.toNat 31) stConflict (argOff 0) 6]))
      (if l.holder.isNone then u.grantLock n (globalRing c) (some r)
       else u.modLock n fun l => { l with waiters := l.waiters ++ [{ holder := globalRing c, cmd := some r, limit := c.arg1.toNat }] })) :=
  congrArg Host.Outcome.next (State.lockCmd_open hs h35)

/-- A request that fails one of the first four checks. -/
theorem exec_posAcquire_refused {f : Fail}
    (h : let n := fld c.arg0.toNat 9 0
      checks ((s.started c).acquireHead c.fn (globalRing c) n (decide (n < 960) && bit ((s.started c).posCfg n) 31)) = .error f) :
    exec (.posAcquire c) s = .next ((s.started c).complete (s.refOf c 0x41) f.status f.field f.check) := by
  rw [exec_posAcquire_open hs h35]
  dsimp only
  rw [checks_append_error h, State.onChecks_error]

/-- POS_ACQUIRE past its first four checks: room among the waiters, and a lock that is free or may be waited for. -/
theorem exec_posAcquire_checked
    (h : let n := fld c.arg0.toNat 9 0
      checks ((s.started c).acquireHead c.fn (globalRing c) n (decide (n < 960) && bit ((s.started c).posCfg n) 31)) = .ok ()) :
    exec (.posAcquire c) s = .next (
      let u := s.started c
      let r := s.refOf c 0x41
      let n := fld c.arg0.toNat 9 0
      let l := u.lock n
      if 64 ≤ l.waiters.length then u.complete r stCapacity noField 5
      else if l.holder.isSome && !bit c.arg0.toNat 31 then u.complete r stConflict (argOff 0) 6
      else if l.holder.isNone then u.grantLock n (globalRing c) (some r)
      else u.modLock n fun l => { l with waiters := l.waiters ++ [{ holder := globalRing c, cmd := some r, limit := c.arg1.toNat }] }) := by
  rw [exec_posAcquire_open hs h35]
  dsimp only
  rw [checks_append_ok h, checks_failIf, checks_failIf]
  by_cases hfull : 64 ≤ ((s.started c).lock (fld c.arg0.toNat 9 0)).waiters.length
  · simp [hfull]
  · cases hbusy : ((s.started c).lock (fld c.arg0.toNat 9 0)).holder.isSome && !bit c.arg0.toNat 31 <;> simp [hfull, checks]

/-- CHAIN_POS_ACQUIRE once started: a request that passes its checks waits for the answer of the master. -/
theorem exec_chainPosAcquire_open : exec (.chainPosAcquire c) s = .next (
    let u := s.started c
    let n := fld c.arg0.toNat 9 0
    let w : LockWait := { cmd := s.refOf c 0x4C, holder := globalRing c, lock := n, wait := bit c.arg0.toNat 31, limit := c.arg1.toNat }
    u.onChecks (s.refOf c 0x4C) (checks (u.acquireHead c.fn (globalRing c) n (decide (992 ≤ n))))
      ((u.modMgmt fun g => { g with lockWait := g.lockWait ++ [w] }).sendLockReq w)) :=
  congrArg Host.Outcome.next (State.lockCmd_open hs h35)

end

/-! ### Limits and resends (R297, R298, R321) -/

section
variable {s : State}

theorem exec_posWaitTimeout_waiter {lock : Fin 1024} {holder : Nat} {w : Waiter} {ws : List Waiter}
    (h : takeFirst (fun w => w.holder == holder && w.limit != 0) (s.lock lock).waiters = some (w, ws)) :
    exec (.posWaitTimeout lock holder) s = .next (
      let v := s.modLock lock fun l => { l with waiters := ws }
      if lock < 992 then v.completeOpt w.cmd stConflict (argOff 0) 7 else v.answerChain lock stConflict holder) := by
  show execPosWaitTimeout lock holder s = _
  simp [execPosWaitTimeout, h]

variable {n h : Nat}

theorem exec_posHoldTimeout_eq {lock : Fin 1024} : exec (.posHoldTimeout lock) s = .next (s.holdTimeout lock) := rfl

theorem State.holdTimeout_none (hn : (s.lock n).holder = none ∨ fld (s.posCfg n) 15 0 = 0) : s.holdTimeout n = s := by
  unfold State.holdTimeout
  rcases hn with hn | hn
  · rw [hn]
  · cases (s.lock n).holder <;> simp [hn]

/-- The hold limit of a local lock takes it, and the tenant of a ring that held it is told. -/
theorem State.holdTimeout_local (hh : (s.lock n).holder = some h) (hl : fld (s.posCfg n) 15 0 ≠ 0) (hn : n < 992) :
    s.holdTimeout n =
      let v := s.modLock n fun l => { l with limitFrom := l.limitFrom ++ [h] }
      (if h < 32768 then v.postStatus (h / 128) stAbandonedTimeout 15 n 0 0 else v).releaseLock n 2 := by
  have hchain : ¬992 ≤ n := Nat.not_le.mpr hn
  simp only [State.holdTimeout, hh, beq_eq_false_iff_ne.mpr hl, hn, hchain, decide_true, decide_false, Bool.false_and, Bool.true_and,
    Bool.or_false, Bool.false_eq_true, decide_eq_true_eq, if_true, if_false]
  by_cases hr : h < 32768
  · simp [hr, Nat.mod_eq_of_lt (show h < 65536 by omega)]
  · simp [hr]

/-- A request without an answer is sent again 3 times, then refused. -/
theorem exec_chainLockResend_unanswered {tag : BitVec 16} {holder : Nat} {w : LockWait} {ws : List LockWait}
    (h : takeFirst (fun w => w.cmd.tag == tag && w.holder == holder) s.mgmt.lockWait = some (w, ws)) (ha : s.mgmt.acting = false) :
    exec (.chainLockResend tag holder) s = .next (
      if w.tries < 3 then
        let again : LockWait := { w with tries := w.tries + 1 }
        (s.modMgmt fun m => { m with lockWait := mapIf (fun x => x.cmd.tag == tag && x.holder == holder) (fun _ => again) m.lockWait }).sendLockReq
          again
      else (s.modMgmt fun m => { m with lockWait := ws }).complete w.cmd stConflict noField 0) := by
  show execChainLockResend tag holder s = _
  simp [execChainLockResend, h, ha, State.refuse]

end

/-! ### Arbitration (R286, R287) -/

/-- The shadows of the ranks as the buffer of an ARB_SET gives them. -/
def State.setRanks (s : State) (buf : List Byte) : State :=
  s.forEach arbRegs.zipIdx fun s e => s.setShadow e.1 (leAt buf (4 * e.2) 4)

/-- ARB_SET once started. -/
theorem exec_arbSet_starts {s : State} {c : RingCmd} (hs : s.starts true c = true) :
    exec (.arbSet c) s = .next (
      let u := s.started c
      let r := s.refOf c 0x40
      if c.buf.length < 20 then u.complete r stConflict 0x10 0 else (u.setRanks c.buf).arbCommit.complete r stOK 0 0) :=
  congrArg Host.Outcome.next (startCmd_starts hs)

theorem exec_arbCommit_open {s : State} (hr : s.ready = true) (hb : s.setup.busy = false) :
    exec .arbCommit s = .next (if s.setup.sealed then s else s.arbCommit) :=
  congrArg Host.Outcome.next (State.bar2Write_open hr hb)

/-- Settles O54, command by command and limit by limit. -/
theorem arbitrationAndPossessions : Obligations.ArbitrationAndPossessions := by
  intro c lock holder tag s
  refine ⟨fun hr hb => ?commit, fun hs => ?set, fun hs => ?commands, ?limits, fun w ws h ha => ?resend⟩
  case commit =>
    rw [exec_arbCommit_open hr hb]
    exact ⟨fun h => by rw [if_pos h], fun h => by rw [if_neg (by simp [h])]⟩
  case set =>
    rw [exec_arbSet_starts hs]
    exact ⟨fun h => congrArg _ (if_pos h), fun h => congrArg _ (if_neg (Nat.not_lt.mpr h))⟩
  case resend =>
    rw [exec_chainLockResend_unanswered h ha]
    exact ⟨fun ht => congrArg _ (if_pos ht), fun ht => congrArg _ (if_neg (Nat.not_lt.mpr ht))⟩
  case limits =>
    intro l
    refine ⟨fun w ws h => ?wait, fun hn => by rw [exec_posHoldTimeout_eq, State.holdTimeout_none hn], fun h hh hl hn => ?hold⟩
    case wait =>
      rw [exec_posWaitTimeout_waiter h]
      exact ⟨fun hl => congrArg _ (if_pos hl), fun hl => congrArg _ (if_neg (by omega))⟩
    case hold =>
      rw [exec_posHoldTimeout_eq, State.holdTimeout_local hh hl hn]
      exact ⟨fun ht => by simp [ht], fun ht => by simp [Nat.not_lt.mpr ht]⟩
  case commands =>
    refine ⟨fun hr => ?resetting, fun hr => ?opened⟩
    case resetting =>
      simp only [List.forall_mem_cons, List.not_mem_nil, false_implies, implies_true, and_true]
      refine ⟨?_, ?_, ?_, ?_, ?_, ?_⟩ <;> exact congrArg _ (State.lockCmd_resetting hs hr)
    case opened =>
      refine ⟨fun f hf => exec_posAcquire_refused hs hr hf, fun hok => ?acquire, fun hm => ?relChain, fun hm => ?release, fun hn => ?clearChain,
        fun hn => ?clear, fun f hf => ?chainRefused, fun hok => ?chainAsks, fun hm => ?chainRelLocal, fun h1 h2 => ?chainRelease,
        fun hn => ?chainClearLocal, fun hn => ?chainClear⟩
      case acquire =>
        simp only [exec_posAcquire_checked hs hr hok]
        exact ⟨fun hw => by simp [hw], fun hw => ⟨fun hh => by simp [Nat.not_le.mpr hw, hh], fun hh hf => by simp [Nat.not_le.mpr hw, hh, hf],
          fun hh hf => by simp [Nat.not_le.mpr hw, Option.isSome_iff_ne_none.mp hh, hf]⟩⟩
      case relChain => simp [exec_posRelease_open hs hr, hm]
      case release =>
        simp only [exec_posRelease_open hs hr]
        exact ⟨fun hh => by simp [Nat.not_le.mpr hm, hh], fun hh => by simp [Nat.not_le.mpr hm, hh, Lock.notHeld_eq]⟩
      case clearChain => simp [exec_posClear_open hs hr, hn]
      case clear =>
        simp only [exec_posClear_open hs hr]
        exact ⟨fun hf hh => by simp [Nat.not_le.mpr hn, hf, hh], fun hf hh => by simp [Nat.not_le.mpr hn, hf, hh],
          fun hf hc => by simp [Nat.not_le.mpr hn, hf, hc], fun hf hc => by simp [Nat.not_le.mpr hn, hf, hc]⟩
      case chainRefused => simp [exec_chainPosAcquire_open hs hr, hf]
      case chainAsks => simp [exec_chainPosAcquire_open hs hr, hok]
      case chainRelLocal => simp [exec_chainPosRelease_open hs hr, hm]
      case chainRelease =>
        simp only [exec_chainPosRelease_open hs hr]
        exact ⟨fun hh => by simp [Nat.not_lt.mpr h1, Nat.not_le.mpr h2, hh, Lock.notHeld_eq],
          fun hh ha => by simp [Nat.not_lt.mpr h1, Nat.not_le.mpr h2, hh, ha],
          fun hh ha => by simp [Nat.not_lt.mpr h1, Nat.not_le.mpr h2, hh, ha]⟩
      case chainClearLocal => simp [exec_chainPosClear_open hs hr, hn]
      case chainClear =>
        simp only [exec_chainPosClear_open hs hr]
        exact ⟨fun hf hh => by simp [Nat.not_lt.mpr hn, hf, hh], fun hf hc => by simp [Nat.not_lt.mpr hn, hf, hc],
          fun hf hh => ⟨fun ha => by simp [Nat.not_lt.mpr hn, hf, hh, ha], fun ha => by simp [Nat.not_lt.mpr hn, hf, hh, ha]⟩,
          fun hf hc => ⟨fun ha => by simp [Nat.not_lt.mpr hn, hf, hc, ha], fun ha => by simp [Nat.not_lt.mpr hn, hf, hc, ha]⟩⟩

end Sys2Proof.Machine
end

section
/-! SUPPORT. Proofs about single steps: the front of the queue, the state after power-on, and a step with no command waiting. -/

namespace Sys2Proof.Machine

open Sys2Proof

/-! ### The queue -/

/-- Settles O1: the step takes the front command off the queue. -/
theorem stepRunsTheFrontCommand : Obligations.StepRunsTheFrontCommand := by
  intro c r s h
  simp only [step, h]

/-- Settles O3: after power-on memory and queue are empty. -/
theorem resetIsSound : Obligations.ResetIsSound := ⟨rfl, rfl⟩

/-! ### A step with no command waiting (R330) -/

section
variable {s : State}

/-- A packet on an output lane takes no time of its own. -/
theorem State.sendLane_time {x : Nat} : (s.sendLane x).time = s.time := by
  unfold State.sendLane
  dsimp only
  split
  · rfl
  · refine (State.forEach_same State.time ?_ _ _).trans rfl
    exact fun _ _ => rfl

theorem State.sendOn_time {p : Nat} {f : Frame} : (s.sendOn p f).time = s.time := by
  unfold State.sendOn
  dsimp only
  repeat' split
  all_goals rfl

theorem State.sendLocal_time {p typ prio : Nat} {ts : Bool} {ws : List Nat} : (s.sendLocal p typ prio ts ws).time = s.time :=
  State.sendOn_time

theorem State.noteSleep_time : s.noteSleep.time = s.time := by
  have h : ∀ u : State, ((u.completeOpt u.rst.sleepCmd stOK 0 0).modRst fun x => { x with sleep := .noted, sleepCmd := none }).time = u.time :=
    fun u => by rw [State.completeOpt_host]; rfl
  exact (h _).trans (State.sendLocal_time.trans State.sendLocal_time)

/-- Sleep entry goes on without touching the time unit. -/
theorem State.sleepProgress_time : s.sleepProgress.time = s.time := by
  have h : ∀ u : State, (if u.rst.sleep == .drained && u.dmaIdle then u.noteSleep else u).time = u.time := by
    intro u
    split
    · exact State.noteSleep_time
    · rfl
  refine (h _).trans ?_
  split <;> rfl

/-- An MGMT_CLK cycle advances C by 5 while the root clock runs. -/
theorem State.tick_c : s.tick.time.c = if s.time.running then s.time.c + 5 else s.time.c := by
  unfold State.tick
  dsimp only
  rw [State.sleepProgress_time, State.forEach_same State.time fun _ _ => State.sendLane_time]
  split <;> rfl

end

/-- Settles O8. -/
theorem idleStepCountsTime : Obligations.IdleStepCountsTime := fun s h => ⟨s.tick, by simp only [step, h], State.tick_c⟩

end Sys2Proof.Machine
end

section
/-! SUPPORT. Proofs about starts: a reset during a pulse of the NV store, supplies and straps, the release of the domains and the
end of their work, and the firmware that the host loads. -/

namespace Sys2Proof.Machine

open Sys2Proof

section
variable {s : State}

/-! ### Pulses of the NV store (R363) -/

/-- During a pulse the first source to arrive waits. -/
theorem State.resetBy_delayed {source : Nat} {warm thermal : Bool} (hb : s.rst.nvfsBusy = true) (h0 : source ≠ 0)
    (hd : s.rst.delayed = none) :
    s.resetBy source warm thermal = s.modRst fun r => { r with delayed := some (source, warm, thermal) } := by
  simp [State.resetBy, hb, h0, State.modRst, hd]

theorem exec_nvfsPulseEnd_none (h : s.rst.delayed = none) :
    exec .nvfsPulseEnd s = .next (s.modRst fun r => { r with nvfsBusy := false }) := by
  show execNvfsPulseEnd s = _
  simp [execNvfsPulseEnd, h]

theorem exec_nvfsPulseEnd_some {source : Nat} {warm thermal : Bool} (h : s.rst.delayed = some (source, warm, thermal)) :
    exec .nvfsPulseEnd s = .next ((s.modRst fun r => { r with nvfsBusy := false }).restart source warm 0 thermal) := by
  show execNvfsPulseEnd s = _
  simp [execNvfsPulseEnd, h]

/-- Settles O23, by the reset that waits. -/
theorem nvPulseDelaysTheReset : Obligations.NvPulseDelaysTheReset := by
  intro s
  refine ⟨fun hr hb hd => ?arrives, fun source warm thermal h => ?waiting, exec_nvfsPulseEnd_none⟩
  case arrives => rw [exec_debugReset_running hr, State.resetBy_delayed hb (by decide) hd]
  case waiting =>
    rw [exec_nvfsPulseEnd_some h]
    exact (State.restart_restarted _ source warm 0 thermal).of_eq rfl rfl rfl rfl rfl

/-! ### Supplies and straps (R353, R354, R360, R362, R376) -/

/-- The straps as they are latched: a reserved encoding takes its fallback. -/
def latchedStraps (st : Straps) : Straps :=
  { st with boot := if st.boot = 3#2 then 0 else st.boot, hostLanes := if st.hostLanes = 3#2 then 2 else st.hostLanes }

/-- A strap has a reserved encoding. -/
def reservedStrap (st : Straps) : Bool := decide (st.boot = 3#2) || decide (st.hostLanes = 3#2)

theorem State.latchStraps_eq (st : Straps) : s.latchStraps st = s.modRst fun r => { r with straps := latchedStraps st, strapBad := reservedStrap st } := by
  simp only [State.latchStraps, latchedStraps, reservedStrap, Bool.beq_eq_decide_eq, decide_eq_true_eq]

/-- The straps latched where the source asks for it. -/
def Rst.latch (r : Rst) (asks : Bool) (st : Straps) : Rst :=
  { r with straps := if asks then latchedStraps st else r.straps, strapBad := if asks then reservedStrap st else r.strapBad }

theorem State.latchIf_eq (asks : Bool) (st : Straps) :
    (if asks then s.latchStraps st else s) = s.modRst fun r => r.latch asks st := by
  cases asks
  · rfl
  · exact State.latchStraps_eq st

/-- Power good of a device that is off: the straps of a power-on or brown-out are latched and the start begins. -/
theorem exec_pwrGoodRise_off {st : Straps} (hg : s.rst.powerGood = false) (hp : s.rst.power = .off) :
    exec (.pwrGoodRise st) s = .next (s.modRst fun r =>
      { ({ r with powerGood := true, bleed := false } : Rst).latch (decide (s.rst.source < 2)) st with power := .starting }) := by
  show execPwrGoodRise st s = _
  have h := State.latchIf_eq (s := s.modRst fun r => { r with powerGood := true, bleed := false }) (decide (s.rst.source < 2)) st
  simp only [decide_eq_true_eq] at h
  simp only [execPwrGoodRise, hg, Bool.false_eq_true, if_false, State.modRst_rst, hp, beq_self_eq_true, if_true]
  rw [h]
  rfl

/-- The release of RESET_N: the straps of a pin start are latched, and the AO_CLK cycles of the pin kept. -/
theorem exec_resetNRelease_low {st : Straps} (h : s.rst.resetLow = true) :
    exec (.resetNRelease st) s = .next ((s.modTime fun t => { t with aoCount := 0 }).modRst fun r =>
      { r.latch (s.rst.source == 2) st with
        resetLow := false, held := BitVec.ofNat 32 (satTo 0xFFFFFFFF (aoCycles s.time.aoCount)) }) := by
  show execResetNRelease st s = _
  simp only [execResetNRelease, h, Bool.not_true, Bool.false_eq_true, if_false, State.latchIf_eq]
  rfl

end

/-- Settles O24, pin by pin. -/
theorem suppliesAndStraps : Obligations.SuppliesAndStraps := by
  intro st low s latched bad
  refine ⟨fun hg hp => ?rise, rfl, fun hl => ?release, rfl⟩
  case rise =>
    refine ⟨_, exec_pwrGoodRise_off hg hp, rfl, rfl, rfl, fun h => ?_, fun h => ?_⟩
    · simp [Rst.latch, h, latched, bad, latchedStraps, reservedStrap]
    · simp [Rst.latch, Nat.not_lt.mpr h]
  case release =>
    refine ⟨_, exec_resetNRelease_low hl, rfl, rfl, rfl, rfl, fun h => ?_, fun h => ?_⟩
    · simp [Rst.latch, h, latched, bad, latchedStraps, reservedStrap]
    · simp [Rst.latch, h]

/-! ### The release of the domains (R329, R357, R358, R361, Table 14.4) -/

/-- What every step over a list sets for its own element and no other step undoes holds of each element at the end. -/
theorem State.forEach_reaches {α : Type} {f : State → α → State} {P : State → Prop} {x : α} (hx : ∀ s, P (f s x))
    (hkeep : ∀ s y, P s → P (f s y)) {l : List α} (hm : x ∈ l) (s : State) : P (s.forEach l f) := by
  have hrest : ∀ (r : List α) (s : State), P s → P (s.forEach r f) := by
    intro r
    induction r with
    | nil => exact fun _ h => h
    | cons y r ih => exact fun s h => ih _ (hkeep s y h)
  induction l generalizing s with
  | nil => cases hm
  | cons y l ih =>
    rcases List.mem_cons.mp hm with rfl | hm
    · exact hrest l _ (hx s)
    · exact ih hm (f s y)

section
variable {s : State} {n : Fin 14}

theorem State.mayRelease_ne_zero (h : s.mayRelease n = true) : n ≠ 0 := by
  rintro rfl
  simp [State.mayRelease] at h

theorem State.mayRelease_starting (h : s.mayRelease n = true) : s.rst.power = .starting := by
  simp only [State.mayRelease, Bool.and_eq_true, beq_iff_eq] at h
  obtain ⟨⟨⟨⟨⟨⟨⟨hp, -⟩, -⟩, -⟩, -⟩, -⟩, -⟩, -⟩ := h
  exact hp

theorem exec_domainRelease_refused (h : s.mayRelease n = false) : exec (.domainRelease n) s = .next s :=
  congrArg Host.Outcome.next (if_neg (by simp [h]))

/-- A release in its turn: the fault records are logged before the host interface, the domain counts as released, and its own
effect follows. -/
theorem exec_domainRelease_allowed (h : s.mayRelease n = true) :
    exec (.domainRelease n) s =
      .next (((if n == 5 then s.writeFaultLog else s).modRst fun r => { r with released := n }).releaseDomain n) :=
  congrArg Host.Outcome.next (if_pos (by simp [h, State.mayRelease_ne_zero h]))

/-- The release of the engines halts every engine with an owner. -/
theorem State.releaseDomain_engines {e : Nat} (he : e < 96) (ho : (s.engOwner e).isSome = true) :
    ((s.releaseDomain 12).eng e).st = .halted := by
  refine State.forEach_reaches (P := fun u => (u.eng e).st = .halted) (fun u => ?_) (fun u y h => ?_)
    (List.mem_filter.mpr ⟨List.mem_range.mpr he, ho⟩) s
  · exact congrArg Eng.st (getT_setT_ne _ _ _ _ fun hf => EngState.noConfusion (congrArg Eng.st hf))
  · by_cases hy : e = y
    · subst hy
      exact congrArg Eng.st (getT_setT_ne _ _ _ _ fun hf => EngState.noConfusion (congrArg Eng.st hf))
    · rwa [State.modEng_eng_other hy]

/-- The end of a domain's work, but for step 4 with firmware from the host. -/
theorem exec_domainWorkEnd_noted {w : WorkResult} (hp : s.rst.power = .starting) (h0 : n ≠ 0) (hr : n.val ≤ s.rst.released)
    (hd : s.rst.workDone.contains n.val = false) (h4 : n ≠ 4) :
    exec (.domainWorkEnd n w) s = .next ((s.modRst fun r => { r with workDone := r.workDone ++ [n.val] }).endWork n w) := by
  show execDomainWorkEnd n w s = _
  simp [execDomainWorkEnd, State.ready, hp, h0, Nat.not_lt.mpr hr, h4] at hd ⊢
  simp [hd]

end

/-- Settles O25, domain by domain. -/
theorem domainsAreReleasedInOrder : Obligations.DomainsAreReleasedInOrder := by
  intro n w s
  refine ⟨exec_domainRelease_refused, fun h => ?released, fun hp h0 hr hd => ⟨fun hn => ?worked, fun hn => ?ready⟩⟩
  case released =>
    rw [exec_domainRelease_allowed h]
    refine ⟨fun hn => ?plain, fun hn hs => ?clock, fun hn => ?host, fun hn => ?engines⟩
    case plain =>
      simp only [List.mem_cons, List.not_mem_nil, or_false] at hn
      rcases hn with rfl | rfl | rfl | rfl | rfl | rfl | rfl | rfl <;> rfl
    case clock =>
      subst hn
      exact congrArg Host.Outcome.next (if_neg (by simpa using hs))
    case host =>
      subst hn
      have hp := State.mayRelease_starting h
      by_cases h3 : 3 ≤ s.rst.rept
      · refine ⟨_, congrArg Host.Outcome.next (if_pos h3), rfl, rfl, rfl, fun _ => rfl, fun hl => absurd h3 (Nat.not_le.mpr hl)⟩
      · exact ⟨_, congrArg Host.Outcome.next (if_neg h3), rfl, rfl, rfl, fun hg => absurd hg h3, fun _ => hp⟩
    case engines =>
      subst hn
      exact ⟨_, rfl, fun e he ho => State.releaseDomain_engines he ho⟩
  case worked =>
    have h4 : n ≠ 4 := by rintro rfl; simp at hn
    rw [exec_domainWorkEnd_noted hp h0 hr hd h4]
    simp only [List.mem_cons, List.not_mem_nil, or_false] at hn
    rcases hn with rfl | rfl | rfl | rfl | rfl | rfl | rfl | rfl | rfl <;> rfl
  case ready =>
    subst hn
    exact ⟨_, exec_domainWorkEnd_noted hp h0 hr hd (by decide), rfl, rfl, rfl⟩

/-! ### Host-loaded firmware (R359) -/

section
variable {s : State} {v : W32}

theorem exec_rstBootGo_notStarting (h : s.rst.power ≠ .starting) : exec (.rstBootGo v) s = .next s :=
  congrArg Host.Outcome.next (if_neg (by simp [h]))

theorem exec_rstBootGo_taken (hp : s.rst.power = .starting) (hb : s.rst.straps.boot = 1#2) (hr : 5 ≤ s.rst.released)
    (hn : s.rst.booted = false) (hg : bit v.toNat 0 = true) : exec (.rstBootGo v) s = .next (s.bootGo v.toNat) :=
  congrArg Host.Outcome.next (if_pos (by simp [hp, hb, hr, hn, hg]))

/-- A portion with MORE joins the image. -/
theorem State.bootGo_more {v : Nat} (h : bit v 1 = true) : s.bootGo v =
    s.modRst fun r => { r with bootImg := r.bootImg ++ getRun 0 r.bootWin 0 65536, bootParts := r.bootParts + 1 } := by
  simp only [State.bootGo, h, if_true]

/-- The last portion ends the image, which is taken where it is good. -/
theorem State.bootGo_last {v : Nat} (h : bit v 1 = false) : s.bootGo v =
    let good := imageGood (s.rst.bootParts + 1) (s.rst.bootImg ++ getRun 0 s.rst.bootWin 0 (4 * fld v 31 16))
    s.modRst fun r => { r with bootImg := [], bootParts := 0, booted := good, bootBad := !good } := by
  simp only [State.bootGo, h, Bool.false_eq_true, if_false]
  rfl

end

/-- Settles O26, by MORE. -/
theorem hostLoadedFirmwareIsChecked : Obligations.HostLoadedFirmwareIsChecked := by
  intro v s
  refine ⟨exec_rstBootGo_notStarting, fun hp hb hr hn hg => ?_⟩
  rw [exec_rstBootGo_taken hp hb hr hn hg]
  refine ⟨fun hm => congrArg _ (State.bootGo_more hm), fun hm => ?_⟩
  rw [State.bootGo_last hm]
  exact ⟨_, rfl, rfl, rfl, rfl, rfl, rfl⟩

end Sys2Proof.Machine
end

section
/-! SUPPORT. Proofs about blocks and power: the phases of a block reset, DIE_SET, the load governor and the thermal sensors, the
SMBus block read, protected bands and the fault log. -/

namespace Sys2Proof.Machine

open Sys2Proof

/-! ### Block resets (R366, R368, Tables 14.7, 14.9) -/

section
variable {s : State} {b : Nat} {x : BlkReset} {r : CmdRef}

theorem State.beginBlockReset_first (h : s.blockReset b = none) :
    s.beginBlockReset b (some r) false = (s.setBlock b (some { cmds := [r] })).faultRec (.blockReset b) := by
  simp only [State.beginBlockReset, h]
  rfl

/-- A second request joins the first. -/
theorem State.beginBlockReset_joins (h : s.blockReset b = some x) :
    s.beginBlockReset b (some r) false = s.setBlock b (some { x with cmds := x.cmds ++ [r], remote := x.remote }) := by
  simp [State.beginBlockReset, h]

theorem exec_blockReset_starts {c : RingCmd} (hs : s.starts true c = true) :
    exec (.blockReset c) s = .next (if 36 < c.arg0.toNat then (s.started c).complete (s.refOf c 0x59) stConflict 0x20 0
      else (s.started c).beginBlockReset c.arg0.toNat (some (s.refOf c 0x59)) false) :=
  congrArg Host.Outcome.next (startCmd_starts hs)

theorem State.assertReset_again (h : s.blockReset b = some x) (ha : x.asserted = true) : s.assertReset b = s := by
  simp [State.assertReset, h, ha]

/-- Completions take no time. -/
theorem State.forEach_complete_now {l : List CmdRef} {f : State → Nat} {st r1 : Nat} (hf : ∀ u v : State, u.now = v.now → f u = f v) :
    (s.forEach l fun w r => w.complete r st (f w) r1) = s.forEach l fun w r => w.complete r st (f s) r1 := by
  have h : ∀ u : State, u.now = s.now →
      (u.forEach l fun w r => w.complete r st (f w) r1) = u.forEach l fun w r => w.complete r st (f s) r1 := by
    induction l with
    | nil => exact fun _ _ => rfl
    | cons r l ih =>
      intro u hu
      exact (ih (u.complete r st (f u) r1) hu).trans (by rw [hf u s hu]; rfl)
  exact h s rfl

/-- The release of a reset that no other package asked for. -/
theorem State.releaseReset_asserted (h : s.blockReset b = some x) (ha : x.asserted = true) (hr : x.remote = false) :
    s.releaseReset b =
      let u := ((s.setBlock b none).releaseBlock b).modRst fun r => { r with resets := satTo 0xFFFF (r.resets + 1) }
      u.forEach x.cmds fun w r => w.complete r stOK ((u.now - x.heldFrom) / 5) x.absorbed := by
  simp only [State.releaseReset, h, ha, hr, Bool.not_true, Bool.false_eq_true, if_false]
  exact State.forEach_complete_now (f := fun w => (w.now - x.heldFrom) / 5) fun u v huv => by rw [huv]

end

/-- Settles O27, phase by phase. -/
theorem blockResetsRunTheirPhases : Obligations.BlockResetsRunTheirPhases := by
  intro c b s
  refine ⟨fun hs => ?begins, fun x h ha => ⟨congrArg _ (State.assertReset_first h ha), rfl⟩,
    fun x h ha => ⟨congrArg _ (State.assertReset_again h ha), congrArg _ (State.assertReset_again h ha)⟩,
    fun x h ha hr => congrArg _ (State.releaseReset_asserted h ha hr)⟩
  rw [exec_blockReset_starts hs]
  exact ⟨fun hn => congrArg _ (if_pos hn),
    fun hn h => congrArg _ ((if_neg (Nat.not_lt.mpr hn)).trans (State.beginBlockReset_first h)),
    fun x hn h => congrArg _ ((if_neg (Nat.not_lt.mpr hn)).trans (State.beginBlockReset_joins h))⟩

/-! ### DIE_SET (R369) -/

section
variable {s : State} {m : Nat}

/-- Completions change only the rings. -/
theorem State.forEach_complete_only (l : List CmdRef) (f : State → Nat) (st r1 : Nat) :
    (s.forEach l fun w r => w.complete r st (f w) r1) = { s with rings := (s.forEach l fun w r => w.complete r st (f w) r1).rings } := by
  induction l generalizing s with
  | nil => rfl
  | cons r l ih => exact ih (s := s.complete r st (f s) r1)

/-- What a DIE_SET that is done changes: the grid's target and the rings of the commands that waited. -/
theorem State.dieSetDone_only (s : State) : let t := s.dieSetDone; t = { s with grid := t.grid, rings := t.rings } := by
  unfold State.dieSetDone
  split
  · rfl
  · split
    · dsimp only
      rw [State.forEach_complete_only _ State.diesBits]
      rfl
    · rfl

/-- A die enabled, its steps of Table 14.4 still to run. -/
def Die.switchedOn (y : Die) : Die := { y with enabled := true, dieReady := false }

theorem Die.switchedOn_ne (y : Die) : y.switchedOn ≠ {} := fun h => Bool.noConfusion (congrArg Die.dieReady h)

/-- The dies of a list are enabled, one after the other. -/
def State.switchOn (s : State) (l : List Nat) : State := s.forEach l fun s d => s.modDie d Die.switchedOn

theorem State.switchOn_die {d : Nat} {l : List Nat} (hd : d ∈ l) :
    ((s.switchOn l).die d).enabled = true ∧ ((s.switchOn l).die d).dieReady = false := by
  have hown : ∀ u : State, ((u.modDie d Die.switchedOn).die d).enabled = true ∧ ((u.modDie d Die.switchedOn).die d).dieReady = false := by
    intro u
    rw [State.modDie_die_ne (Die.switchedOn_ne _)]
    exact ⟨rfl, rfl⟩
  refine State.forEach_reaches (x := d) (P := fun u => (u.die d).enabled = true ∧ (u.die d).dieReady = false) hown (fun u e h => ?_) hd s
  by_cases he : d = e
  · subst he
    exact hown u
  · rwa [State.modDie_die_other he]

theorem State.switchOn_only (s : State) (l : List Nat) : s.switchOn l = { s with dies := (s.switchOn l).dies } := by
  induction l generalizing s with
  | nil => rfl
  | cons d l ih => exact ih (s.modDie d Die.switchedOn)

/-- While blocks run, DIE_ENABLE is written at once, the dies newly named are enabled, and the others wait for the freeze. -/
theorem State.aimDies_started (h : s.grid.started = true) : s.aimDies m =
    ((s.setBoth 0xE00014 m).writeWarmImage.switchOn ((List.range 4).filter fun d => bit m d && !(s.die d).enabled)).modGrid
      fun g => { g with dieTarget := some (BitVec.ofNat 4 m) } := by
  refine if_pos ?_
  show Grid.started (State.grid (State.switchOn _ _)) = true
  rw [State.switchOn_only]
  exact h

theorem exec_dieSet_starts {c : RingCmd} (hs : s.starts true c = true) :
    exec (.dieSet c) s = .next (
      let m := fld c.arg0.toNat 3 0
      if m == 0 then (s.started c).complete (s.refOf c 0x5A) stConflict 0x20 0
      else (((s.started c).modGrid fun g => { g with dieSetCmds := g.dieSetCmds ++ [s.refOf c 0x5A] }).aimDies m).dieSetDone) :=
  congrArg Host.Outcome.next (startCmd_starts hs)

end

/-- Settles O29. -/
theorem dieSetAimsAtItsDies : Obligations.DieSetAimsAtItsDies := by
  intro c s hs m
  rw [exec_dieSet_starts hs]
  refine ⟨fun hm => congrArg _ (if_pos (by simpa using hm)), fun hm hg => ⟨_, congrArg _ (if_neg (by simpa using hm)), ?_⟩⟩
  have hu : ((s.started c).modGrid fun g => { g with dieSetCmds := g.dieSetCmds ++ [s.refOf c 0x5A] }).grid.started = true := by
    rw [started_eq hs]
    exact hg
  rw [State.dieSetDone_only, State.aimDies_started hu]
  refine ⟨?comm, ?shadow, fun d hd hb hoff => State.switchOn_die ?_⟩
  case comm =>
    rw [State.switchOn_only, started_eq hs]
    rfl
  case shadow =>
    rw [State.switchOn_only, started_eq hs]
    rfl
  · have hdie : ((s.started c).die d).enabled = false := by
      rw [started_eq hs]
      exact hoff
    exact List.mem_filter.mpr ⟨List.mem_range.mpr hd, Bool.and_eq_true_iff.mpr ⟨hb, congrArg not hdie⟩⟩

/-! ### The load governor, the thermal sensors and the SMBus block read (R373, R375, R392) -/

section
variable {s : State} {i : Fin 17} {deg : Int}

theorem exec_governorSample_calm {cur : BitVec 12} {step : Nat} (h : step ≤ excessLimit i) :
    exec (.governorSample i cur step) s = .next (s.modGov i fun g => { g with current := cur }) :=
  congrArg Host.Outcome.next (if_neg (Nat.not_lt.mpr h))

theorem exec_governorSample_excess {cur : BitVec 12} {step : Nat} (h : excessLimit i < step) :
    exec (.governorSample i cur step) s = .next (((s.modGov i fun g => { g with current := cur }).modGov i
      fun g => { g with excess := satTo 4095 (g.excess + 1) }).alertGov i 0x30 step) :=
  congrArg Host.Outcome.next (if_pos h)

/-- A reading below the warning level. -/
theorem exec_thermalRead_cool (h : deg < gradeMax - 10) :
    exec (.thermalRead i deg) s = .next (s.modGov i fun g => { g with temp := deg, warned := false }) := by
  have hhot : ¬gradeMax - 10 ≤ deg := by omega
  have hmax : ¬gradeMax ≤ deg := by omega
  show execThermalRead i deg s = _
  simp [execThermalRead, hhot, hmax]

/-- The state after a reading at the warning level or above: it is shown, and warned of once. -/
def State.warn (s : State) (i : Nat) (deg : Int) : State :=
  let u := s.modGov i fun g => { g with temp := deg, warned := true }
  if (s.gov i).warned then u else u.alertGov i 0x31 1

theorem State.warn_again {i : Nat} (h : (s.gov i).warned = true) :
    s.warn i deg = s.modGov i fun g => { g with temp := deg, warned := true } := if_pos h

theorem State.warn_first {i : Nat} (h : (s.gov i).warned = false) :
    s.warn i deg = (s.modGov i fun g => { g with temp := deg, warned := true }).alertGov i 0x31 1 := if_neg (by simp [h])

/-- A reading at the warning level or above, which trips at the maximum. -/
theorem exec_thermalRead_hot (h : gradeMax - 10 ≤ deg) :
    exec (.thermalRead i deg) s = .next (if gradeMax ≤ deg then (s.warn i deg).thermalTrip i else s.warn i deg) := by
  show execThermalRead i deg s = _
  cases hw : (s.gov i).warned <;> simp [execThermalRead, State.warn, h, hw]

theorem State.alertGov_only (s : State) (i ev d1 : Nat) : (s.modGov i fun g => { g with alert := true }).HostOnly (s.alertGov i ev d1) :=
  State.postEvt_only _ _ _ _ _ _ _ _

/-- An alert leaves of the reset state what the governor does not hold. -/
theorem State.alertGov_rst (s : State) (i ev d1 : Nat) :
    (s.alertGov i ev d1).rst = { s.rst with gov := modT {} s.rst.gov i fun g => { g with alert := true } } := by
  rw [s.alertGov_only i ev d1]
  rfl

theorem State.warn_rst (s : State) (i : Nat) (deg : Int) : (s.warn i deg).rst = { s.rst with gov := (s.warn i deg).rst.gov } := by
  unfold State.warn
  dsimp only
  split
  · rfl
  · rw [State.alertGov_rst]
    rfl

theorem State.thermalTrip_dieOff {i : Nat} (hi : i < 16) (h : bit (s.fieldOf 0xE00014 3 0) (i / 4) = false) : s.thermalTrip i = s := by
  simp [State.thermalTrip, hi, h]

/-- The hub's sensor begins a lock-up start with THERMAL. -/
theorem State.thermalTrip_hub (hr : s.running = true) (hb : s.rst.nvfsBusy = false) :
    s.thermalTrip 16 = ((s.alertGov 16 0x31 2).faultRec (.thermalTrip 16)).restart 7 true 0 true := by
  have hbusy : ((s.alertGov 16 0x31 2).faultRec (.thermalTrip 16)).rst.nvfsBusy = false := by
    show (s.alertGov 16 0x31 2).rst.nvfsBusy = false
    rw [State.alertGov_rst]
    exact hb
  simp [State.thermalTrip, hr, State.resetBy, hbusy]

end

/-- Settles O31: the governor by its limit, the sensors by the reading, the block read by its code. -/
theorem governorAndThermal : Obligations.GovernorAndThermal := by
  intro i cur step deg code s
  refine ⟨exec_governorSample_calm, exec_governorSample_excess, exec_thermalRead_cool, fun h hm hw => ?again, fun h hm hw => ?first,
    fun hm hi hw hoff => ?dieOff, fun hm hi hr hb => ?hub, fun h => congrArg _ (if_pos h), fun h1 h2 => ?stack, fun h => ?other⟩
  case again => rw [exec_thermalRead_hot h, if_neg (by omega), State.warn_again hw]
  case first =>
    rw [exec_thermalRead_hot h, if_neg (by omega), State.warn_first hw]
    rfl
  case dieOff => rw [exec_thermalRead_hot (by omega), if_pos hm, State.warn_again hw, State.thermalTrip_dieOff hi (by exact hoff)]
  case hub =>
    subst hi
    have hrst := s.warn_rst 16 deg
    have hrun : (s.warn 16 deg).running = true := by
      simp only [State.running, State.ready] at hr ⊢
      rw [hrst]
      exact hr
    have hbusy : (s.warn 16 deg).rst.nvfsBusy = false := by
      rw [hrst]
      exact hb
    rw [exec_thermalRead_hot (by omega), if_pos hm]
    exact ⟨_, congrArg _ (State.thermalTrip_hub hrun hbusy), rfl, rfl, rfl, rfl⟩
  case stack => exact congrArg _ ((if_neg (by omega)).trans (if_pos (by simp [h1, h2])))
  case other => exact congrArg _ ((if_neg (by omega)).trans (if_neg (by simp only [Bool.and_eq_true, decide_eq_true_eq]; omega)))

/-! ### SELF_PROTECT and FAULT_LOG_READ (R365, R378) -/

section
variable {s : State} {c : RingCmd}

/-- The checks of SELF_PROTECT, in order. -/
def State.bandChecks (u : State) (c : RingCmd) : Check :=
  let n := c.arg0.toNat
  let bands := bandsOf c.buf n
  checks
    [ failIf (decide (16 < n) || decide (c.buf.length < 16 * n)) stConflict (argOff 0) 0
    , failIf (!u.destOk c.fn (fld c.arg1.toNat 15 0)) stConflict (argOff 1) 0
    , failIf (bands.any fun b => decide (b.hi < b.lo)) stConflict (bufOff (16 * bands.findIdx fun b => decide (b.hi < b.lo))) 0 ]

theorem exec_selfProtect_starts (hs : s.starts false c = true) :
    exec (.selfProtect c) s = .next ((s.started c).onChecks (s.refOf c 0x5C) ((s.started c).bandChecks c)
      ((s.started c).modFn c.fn fun f => { f with bands := bandsOf c.buf c.arg0.toNat, bandDest := some (fld c.arg1.toNat 15 0),
                                                  bandsCmds := f.bandsCmds ++ [s.refOf c 0x5C] })) :=
  congrArg Host.Outcome.next (startCmd_starts hs)

theorem State.bandChecks_count (h : 16 < c.arg0.toNat ∨ c.buf.length < 16 * c.arg0.toNat) :
    s.bandChecks c = .error { status := stConflict, field := argOff 0, check := 0 } := by
  rw [State.bandChecks, checks_failIf, if_pos (by simpa using h)]

theorem State.bandChecks_fits (hn : c.arg0.toNat ≤ 16) (hl : 16 * c.arg0.toNat ≤ c.buf.length) :
    s.bandChecks c = if !s.destOk c.fn (fld c.arg1.toNat 15 0) then .error { status := stConflict, field := argOff 1, check := 0 }
      else if (bandsOf c.buf c.arg0.toNat).any fun b => decide (b.hi < b.lo) then
        .error { status := stConflict, field := bufOff (16 * (bandsOf c.buf c.arg0.toNat).findIdx fun b => decide (b.hi < b.lo)), check := 0 }
      else .ok () := by
  rw [State.bandChecks, checks_failIf, if_neg (by simp [hn, hl]), checks_failIf, checks_failIf]
  rfl

/-- FAULT_LOG_READ with room in a mapped result buffer. -/
theorem exec_faultLogRead_mapped {v : State} {a : Nat} (hs : s.starts true c = true) (hl : 32768 ≤ c.resLen)
    (ht : (s.started c).drawFree.translate c.fn c.resIova.toNat true c.resAcc = (v, some a)) :
    exec (.faultLogRead c) s = .next ((v.emit (.hostWrite c.fn c.resIova.toNat (le 32768 (s.started c).freeNat))).complete
      (s.refOf c 0x5D) stOK v.rst.faultLog.length ((v.rst.logCount - 1) % 1024)) := by
  have hfit : (le 32768 (s.started c).freeNat).length ≤ c.resLen := by rwa [le_length]
  exact congrArg Host.Outcome.next ((startCmd_starts hs).trans (State.writeRes_fits hfit ht))

end

/-- Settles O32: SELF_PROTECT by the check that decides, FAULT_LOG_READ by the buffer. -/
theorem protectionAndFaultLogCommands : Obligations.ProtectionAndFaultLogCommands := by
  intro c s
  refine ⟨fun hs => ?bands, fun v a hs hl ht => ?log⟩
  case bands =>
    rw [exec_selfProtect_starts hs]
    refine ⟨fun h => by rw [State.bandChecks_count h]; rfl, fun hn hl hd => ?_, fun hn hl hd hb => ?_, fun hn hl hd hb => ?_⟩
    all_goals rw [State.bandChecks_fits hn hl]
    · simp [hd]
    · simp [hd, hb]
    · simp [hd, hb]
  case log =>
    have hrst : v.rst = s.rst := by
      rw [State.translate_some_only ht, started_eq hs]
      rfl
    refine ⟨_, le_length 32768 (s.started c).freeNat, ?_⟩
    rw [exec_faultLogRead_mapped hs hl ht, hrst]

end Sys2Proof.Machine
end

section
/-! SUPPORT. Proofs about sleep: the steps of sleep entry, what the device keeps asleep, and the wake events before and after
SLEEP_REQ_N is asserted. -/

namespace Sys2Proof.Machine

open Sys2Proof

section
variable {s : State}

/-! ### Sleep entry (R370) -/

/-- SLEEP_ENTER while blocks run: the stop waits for a boundary. -/
theorem exec_sleepEnter_started {c : RingCmd} (hs : s.starts true c = true) (hg : s.grid.started = true) :
    exec (.sleepEnter c) s = .next ((s.started c).modRst fun x => { x with sleep := .stopping, sleepCmd := some (s.refOf c 0x5B) }) := by
  refine congrArg Host.Outcome.next ((startCmd_starts hs).trans (if_pos ?_))
  rw [started_eq hs]
  exact hg

theorem exec_sleepDrainTimeout_other (h : s.rst.sleep ≠ .draining) : exec .sleepDrainTimeout s = .next s :=
  congrArg Host.Outcome.next (if_pos (by simpa using h))

theorem exec_sleepReqAssert_noted (h : s.rst.sleep = .noted) (ha : s.sleepUnacked = false) : exec .sleepReqAssert s = .next s.asleep :=
  congrArg Host.Outcome.next (if_pos (by simp [h, ha]))

/-! ### Waking (R371, Table 14.10) -/

theorem State.wakeEvent_disabled {k source : Nat} (h : bit (s.reg 0xE00024) k = false) : s.wakeEvent k source = s :=
  if_pos (by simp [h])

/-- Once SLEEP_REQ_N is asserted, an enabled event wakes the device. -/
theorem State.wakeEvent_requested {k source : Nat} (h : bit (s.reg 0xE00024) k = true) (hr : s.rst.sleep = .requested) :
    s.wakeEvent k source = s.wakeUp source := by
  simp [State.wakeEvent, h, hr]

/-- Before that, the first enabled event is latched. -/
theorem State.wakeEvent_draining {k source : Nat} (h : bit (s.reg 0xE00024) k = true) (hd : s.rst.sleep = .draining)
    (hl : s.rst.latched = 0) : s.wakeEvent k source = s.modRst fun r => { r with latched := source } := by
  simp [State.wakeEvent, h, hd, State.modRst, hl]

/-- With the rails up, waking is a warm start of source 8. -/
theorem State.wakeUp_restarted {source : Nat} (hg : s.rst.powerGood = true) : Restarted s 8 true (.next (s.wakeUp source)) := by
  rw [show s.wakeUp source = _ from if_pos hg]
  exact (State.restart_restarted _ 8 true source false).of_eq rfl rfl rfl rfl rfl

/-- With the rails down, the start waits for PWR_GOOD. -/
theorem State.wakeUp_railsDown {source : Nat} (hg : s.rst.powerGood = false) :
    s.wakeUp source = s.modRst fun r => { r with sleepReq := false, sleep := .waking, wake := source, latched := 0 } :=
  if_neg (by simp [hg])

theorem exec_wakeN : exec .wakeN s = .next (s.wakeEvent 0 1) := rfl

theorem exec_chainWakeDetect {p : Fin 2} : exec (.chainWakeDetect p) s = .next (s.wakeEvent 1 2) :=
  congrArg Host.Outcome.next (if_neg (Nat.not_le.mpr p.isLt))

theorem exec_sleepTimerExpiry_on (hr : s.rst.sleep = .requested) (ht : s.reg 0xE00020 ≠ 0) :
    exec .sleepTimerExpiry s = .next (s.wakeEvent 2 3) :=
  congrArg Host.Outcome.next (if_pos (by simp [hr, ht]))

theorem exec_latchedWake_due (hr : s.rst.sleep = .requested) (hl : s.rst.latched ≠ 0) :
    exec .latchedWake s = .next (s.wakeUp s.rst.latched) :=
  congrArg Host.Outcome.next (if_pos (by simp [hr, hl]))

end

/-- Settles O30: sleep entry step by step, then each wake event by the state of SLEEP_REQ_N and of the rails. -/
theorem sleepEntryAndWaking : Obligations.SleepEntryAndWaking := by
  intro c p s
  refine ⟨exec_sleepEnter_started, exec_sleepDrainTimeout_other, fun h => ?drain, fun h ha => ?asleep, fun h => ?disabled,
    fun h hr hg => ?pin, fun h hr hg => ?chain, fun h hr hg ht => ?timer, fun hr hg hl => ?latched, fun h hr hg => ?railsDown,
    fun h hd hl => ?latch⟩
  case drain =>
    show execSleepDrainTimeout s = _
    rw [execSleepDrainTimeout, if_neg (by simp [h])]
  case asleep => exact ⟨_, exec_sleepReqAssert_noted h ha, rfl, rfl, rfl, rfl, rfl, rfl, rfl, rfl, rfl, rfl⟩
  case disabled => rw [exec_wakeN, State.wakeEvent_disabled h]
  case pin =>
    rw [exec_wakeN, State.wakeEvent_requested h hr]
    exact State.wakeUp_restarted hg
  case chain =>
    rw [exec_chainWakeDetect, State.wakeEvent_requested h hr]
    exact State.wakeUp_restarted hg
  case timer =>
    rw [exec_sleepTimerExpiry_on hr ht, State.wakeEvent_requested h hr]
    exact State.wakeUp_restarted hg
  case latched =>
    rw [exec_latchedWake_due hr hl]
    exact State.wakeUp_restarted hg
  case railsDown => rw [exec_wakeN, State.wakeEvent_requested h hr, State.wakeUp_railsDown hg]
  case latch => rw [exec_chainWakeDetect, State.wakeEvent_draining h hd hl]

end Sys2Proof.Machine
end

section
/-! SUPPORT. Proofs about the commands of the time unit: SYNC and DELAY_REQ, the latch of TU_NOW, TU_SET and its apply counter,
TU_LABEL, and the records of a K that has arrived. -/

namespace Sys2Proof.Machine

open Sys2Proof

/-! ### Elements taken from a list -/

theorem minBy_mem {α : Type} {key : α → Nat} {l : List α} {x : α} (h : minBy key l = some x) : x ∈ l := by
  induction l generalizing x with
  | nil => cases h
  | cons y l ih =>
    unfold minBy at h
    split at h
    · cases h
      exact List.mem_cons_self
    · rename_i z hz
      split at h <;> cases h
      · exact List.mem_cons_of_mem y (ih hz)
      · exact List.mem_cons_self

/-- An element of a list is the first that equals it. -/
theorem takeFirst_mem {α : Type} [DecidableEq α] {l : List α} {x : α} (h : x ∈ l) : ∃ rest, takeFirst (· == x) l = some (x, rest) := by
  induction l with
  | nil => cases h
  | cons y l ih =>
    by_cases hy : y = x
    · subst hy
      exact ⟨l, if_pos (beq_self_eq_true y)⟩
    · obtain ⟨rest, hrest⟩ := ih ((List.mem_cons.mp h).resolve_left (Ne.symm hy))
      exact ⟨y :: rest, by simp [takeFirst, hy, hrest]⟩

section
variable {s : State}

/-! ### SYNC, DELAY_REQ and TU_NOW (R332, R339, R340, R358) -/

theorem exec_delayReqSend_none (h : s.upstream = none) : exec .delayReqSend s = .next s := by
  show execDelayReqSend s = _
  rw [execDelayReqSend, h]

theorem exec_delayReqSend_some {p : Nat} (h : s.upstream = some p) : exec .delayReqSend s =
    .next ((s.sendLocal p 0x11 1 true [0, 0, s.time.reqId % 2 ^ 32]).modTime fun t => { t with reqId := t.reqId + 1 }) := by
  show execDelayReqSend s = _
  rw [execDelayReqSend, h]

theorem exec_tuNowLatch_noFunction {fn : Fin 256} (h : s.fnExists fn = false) : exec (.tuNowLatch fn) s = .next s :=
  congrArg Host.Outcome.next (if_pos (by simp [h]))

/-- Before READY a read answers 0 once the host interface is released. -/
theorem exec_tuNowLatch_notReady {fn : Fin 256} (h : s.fnExists fn = true) (hr : s.ready = false) :
    exec (.tuNowLatch fn) s = .next (if s.hostOut then s.emit (.read fn 0) else s) := by
  show execTuNowLatch fn s = _
  simp only [execTuNowLatch, h, hr, Bool.not_true, Bool.not_false, Bool.false_eq_true, if_false, if_true]

theorem exec_tuNowLatch_ready {fn : Fin 256} (h : s.fnExists fn = true) (hr : s.ready = true) :
    exec (.tuNowLatch fn) s = .next (
      let t (i : Nat) := let v := ofSigned 96 ((s.dom i).time s.now); [v % 2 ^ 32, v / 2 ^ 32 % 2 ^ 32, v / 2 ^ 64]
      (s.modFn fn fun f => { f with tuNow := ([s.now % 2 ^ 32, s.now / 2 ^ 32] ++ t 0 ++ t 1).map (BitVec.ofNat 32) }).emit
        (.read fn (BitVec.ofNat 32 s.now))) := by
  show execTuNowLatch fn s = _
  simp only [execTuNowLatch, h, hr, Bool.not_true, Bool.false_eq_true, if_false]

/-! ### TU_SET (R333, Table 13.6) -/

section
variable {c : RingCmd} {r : CmdRef}

/-- The host may set the domain, or this acting master where its source is CHAIN. -/
def State.maySet (s : State) (d : Nat) : Prop := s.domSrc d = 0 ∨ (s.domSrc d = 3 ∧ s.mgmt.acting = true)

/-- ARG0 names an operation and sets no reserved bit. -/
def TuSetArg (a : Nat) : Prop := fld a 9 8 ≠ 3 ∧ a < 1024 ∧ fld a 7 1 = 0

/-- The apply counter C1. -/
def applyAt (c : RingCmd) : Nat := c.arg5.toNat + 2 ^ 32 * c.arg6.toNat

/-- The TU_SET that a command asks for. -/
def tuSetOf (c : RingCmd) (r : CmdRef) : TuPend :=
  { dom := c.arg0.toNat % 2, op := fld c.arg0.toNat 9 8,
    v := toSigned 96 (c.arg1.toNat + 2 ^ 32 * c.arg2.toNat + 2 ^ 64 * c.arg3.toNat),
    rate := toSigned 32 c.arg4.toNat, at_ := applyAt c, cmd := r }

theorem exec_tuSet_starts (hs : s.starts true c = true) : exec (.tuSet c) s = .next ((s.started c).tuSet c (s.refOf c 0x50)) :=
  congrArg Host.Outcome.next (startCmd_starts hs)

theorem State.maySet_iff {d : Nat} : (s.domSrc d == 0 || (s.domSrc d == 3 && s.mgmt.acting)) = true ↔ s.maySet d := by
  simp [State.maySet]

theorem tuSetArg_iff {a : Nat} : (fld a 9 8 == 3 || a / 1024 != 0 || fld a 7 1 != 0) = true ↔ ¬TuSetArg a := by
  simp only [TuSetArg, Bool.or_eq_true, beq_iff_eq, bne_iff_ne]
  omega

/-- A domain of another source, a reserved operation or a reserved bit is refused. -/
theorem State.tuSet_refused (h : ¬s.maySet (c.arg0.toNat % 2) ∨ ¬TuSetArg c.arg0.toNat) :
    s.tuSet c r = s.complete r stConflict (argOff 0) 0 := by
  rw [← State.maySet_iff, ← tuSetArg_iff] at h
  dsimp only [State.tuSet, State.refuse]
  rcases h with h | h
  · exact if_pos (by rwa [Bool.not_eq_true', ← Bool.not_eq_true])
  · rw [if_pos h, ite_self]

/-- A TU_SET that is well formed: a counter that has passed is refused, 0 is at once, a later one waits. -/
theorem State.tuSet_accepted (hm : s.maySet (c.arg0.toNat % 2)) (ha : TuSetArg c.arg0.toNat) :
    s.tuSet c r = if applyAt c != 0 && decide (applyAt c < s.now) then s.complete r stConflict (argOff 5) 0
      else if applyAt c == 0 then s.applyTuSet (tuSetOf c r) s.now
      else s.modTime fun t => { t with pend := t.pend ++ [tuSetOf c r] } := by
  refine (if_neg ?_).trans (if_neg ?_)
  · rw [Bool.not_eq_true', State.maySet_iff.mpr hm]
    exact Bool.noConfusion
  · rw [tuSetArg_iff]
    exact not_not_intro ha

theorem State.tuSet_passed (hm : s.maySet (c.arg0.toNat % 2)) (ha : TuSetArg c.arg0.toNat) (h0 : applyAt c ≠ 0)
    (hc : applyAt c < s.now) : s.tuSet c r = s.complete r stConflict (argOff 5) 0 := by
  rw [State.tuSet_accepted hm ha, if_pos (by simp [h0, hc])]

theorem State.tuSet_waits (hm : s.maySet (c.arg0.toNat % 2)) (ha : TuSetArg c.arg0.toNat) (h0 : applyAt c ≠ 0)
    (hc : s.now ≤ applyAt c) : s.tuSet c r = s.modTime fun t => { t with pend := t.pend ++ [tuSetOf c r] } := by
  rw [State.tuSet_accepted hm ha, if_neg (by simp [Nat.not_lt.mpr hc]), if_neg (by simp [h0])]

theorem State.tuSet_atOnce (hm : s.maySet (c.arg0.toNat % 2)) (ha : TuSetArg c.arg0.toNat) (h0 : applyAt c = 0) :
    s.tuSet c r = s.applyTuSet (tuSetOf c r) s.now := by
  rw [State.tuSet_accepted hm ha, if_neg (by simp [h0]), if_pos (by simp [h0])]

end

section
variable {x : TuPend} {c1 : Nat}

theorem State.applyTuSet_set (h : x.op = 0) :
    s.applyTuSet x c1 = (s.setDom x.dom c1 x.v).complete x.cmd stOK (c1 % 2 ^ 32) (c1 / 2 ^ 32) := by
  simp only [State.applyTuSet, h]

theorem State.applyTuSet_step (h : x.op = 1) :
    s.applyTuSet x c1 = (s.stepDom x.dom x.v).complete x.cmd stOK (c1 % 2 ^ 32) (c1 / 2 ^ 32) := by
  simp only [State.applyTuSet, h]

theorem State.applyTuSet_rate (h : x.op = 2) :
    s.applyTuSet x c1 = (s.changeRate x.dom c1 x.rate).complete x.cmd stOK (c1 % 2 ^ 32) (c1 / 2 ^ 32) := by
  simp only [State.applyTuSet, h]

theorem exec_tuSetApply_none (h : s.time.pend = []) : exec .tuSetApply s = .next s := by
  show execTuSetApply s = _
  rw [execTuSetApply, h]
  rfl

/-- C has not reached the earliest apply counter. -/
theorem exec_tuSetApply_early (h : minBy (·.at_) s.time.pend = some x) (hc : s.now < x.at_) : exec .tuSetApply s = .next s := by
  show execTuSetApply s = _
  rw [execTuSetApply, h]
  exact congrArg _ (if_pos hc)

/-- The earliest TU_SET leaves the queue and is applied at its counter. -/
theorem exec_tuSetApply_due {rest : List TuPend} (h : minBy (·.at_) s.time.pend = some x) (hc : x.at_ ≤ s.now)
    (ht : takeFirst (· == x) s.time.pend = some (x, rest)) :
    exec .tuSetApply s = .next ((s.modTime fun t => { t with pend := rest }).applyTuSet x x.at_) := by
  show execTuSetApply s = _
  rw [execTuSetApply, h]
  refine congrArg _ ((if_neg (Nat.not_lt.mpr hc)).trans ?_)
  rw [ht]

end

/-! ### TU_LABEL and TIMECONT (R336 to R338) -/

theorem exec_tuLabel_starts {c : RingCmd} (hs : s.starts false c = true) :
    exec (.tuLabel c) s = .next (
      let u := s.started c
      let r := s.refOf c 0x51
      let dest := fld c.arg1.toNat 15 0
      if (u.fn c.fn).labelPend.isSome then u.complete r stConflict noField 0
      else if !u.destOk c.fn dest then u.complete r stConflict (argOff 1) 0
      else u.modFn c.fn fun f => { f with labelPend := some { dom := c.arg0.toNat % 2, dest := dest, t0 := u.now, cmd := r } }) :=
  congrArg Host.Outcome.next (startCmd_starts hs)

theorem exec_timecontEmit_none {k : Nat} (h : s.time.kq.find? (fun e => e.k == k) = none) : exec (.timecontEmit k) s = .next s := by
  show execTimecontEmit k s = _
  rw [execTimecontEmit, h]

theorem exec_timecontEmit_some {k : Nat} {e : KArr} (h : s.time.kq.find? (fun e => e.k == k) = some e) : exec (.timecontEmit k) s =
    .next ((s.modTime fun t => { t with kq := t.kq.filter (fun e => e.k != k) }).forEach ((List.range 256).filter fun t => s.fnExists t)
      fun v t => v.emitTimecont t e) := by
  show execTimecontEmit k s = _
  rw [execTimecontEmit, h]
  rfl

end

/-- Settles O59, command by command. -/
theorem timeCommands : Obligations.TimeCommands := by
  intro fn k c s
  refine ⟨rfl, exec_delayReqSend_none, fun p => exec_delayReqSend_some, exec_tuNowLatch_noFunction, fun hf => ?latch, fun hs => ?set,
    exec_tuSetApply_none, fun x h => ⟨exec_tuSetApply_early h, fun hc => ?apply⟩, fun hs => ?label, exec_timecontEmit_none,
    fun e => exec_timecontEmit_some⟩
  case latch =>
    refine ⟨fun hr ho => ?_, fun hr ho => ?_, exec_tuNowLatch_ready hf⟩
    · rw [exec_tuNowLatch_notReady hf hr, if_pos ho]
    · rw [exec_tuNowLatch_notReady hf hr, if_neg (by simp [ho])]
  case set =>
    have hx : ∀ v, (s.started c).tuSet c (s.refOf c 0x50) = v → exec (.tuSet c) s = .next v := fun v hv => by
      rw [exec_tuSet_starts hs, hv]
    refine ⟨fun h => hx _ (State.tuSet_refused h), fun hm ha => ⟨fun h0 hc => hx _ (State.tuSet_passed hm ha h0 hc),
      fun hc h0 => hx _ (State.tuSet_waits hm ha h0 hc), fun h0 => ⟨fun ho => hx _ ?_, fun ho => hx _ ?_, fun ho => hx _ ?_⟩⟩⟩
    · rw [State.tuSet_atOnce hm ha h0, State.applyTuSet_set ho]
      rfl
    · rw [State.tuSet_atOnce hm ha h0, State.applyTuSet_step ho]
      rfl
    · rw [State.tuSet_atOnce hm ha h0, State.applyTuSet_rate ho]
      rfl
  case apply =>
    obtain ⟨rest, hr⟩ := takeFirst_mem (minBy_mem h)
    exact ⟨rest, hr, exec_tuSetApply_due h hc hr⟩
  case label =>
    rw [exec_tuLabel_starts hs]
    refine ⟨fun h => congrArg _ (if_pos h), fun h => ⟨fun hd => ?_, fun hd => ?_⟩⟩
    · exact congrArg _ ((if_neg (by simp [h])).trans (if_pos (by simp [hd])))
    · exact congrArg _ ((if_neg (by simp [h])).trans (if_neg (by simp [hd])))

end Sys2Proof.Machine
end

section
/-! SUPPORT. Proofs about references: an input that fails leaves selection, the gates of an input by its state, pulse edges and
the external trigger, and the writes, reports and reads of the root loop. -/

namespace Sys2Proof.Machine

open Sys2Proof

/-! ### Selection (R347, R348) -/

section
variable {s : State} {x : Nat}

/-- A device event takes no time. -/
theorem State.postEvt_time (s : State) (fn ev st kind id d0 d1 : Nat) : (s.postEvt fn ev st kind id d0 d1).time = s.time := by
  rw [s.postEvt_only fn ev st kind id d0 d1]

theorem State.setLoop_inputs (s : State) (m : LoopMode) :
    (s.setLoop m).time.refs = s.time.refs ∧ (s.setLoop m).time.active = s.time.active := by
  unfold State.setLoop
  split
  · exact ⟨rfl, rfl⟩
  · dsimp only
    rw [State.postEvt_time]
    cases m <;> exact ⟨rfl, rfl⟩

theorem State.setActive_inputs (s : State) (a : Option Nat) :
    (s.setActive a).time.refs = s.time.refs ∧ (s.setActive a).time.active = a := by
  unfold State.setActive
  split
  case isTrue h => exact ⟨rfl, by simpa using h⟩
  case isFalse =>
    dsimp only
    rw [State.postEvt_time]
    exact ⟨rfl, rfl⟩

/-- Selection leaves the inputs as they are, and the best of them active. -/
theorem State.reselect_inputs (s : State) : s.reselect.time.refs = s.time.refs ∧ s.reselect.time.active = s.bestRef := by
  obtain ⟨hrefs, hact⟩ := s.setActive_inputs s.bestRef
  have hloop : ∀ m, ((s.setActive s.bestRef).setLoop m).time.refs = s.time.refs ∧
      ((s.setActive s.bestRef).setLoop m).time.active = s.bestRef := fun m => by
    obtain ⟨h1, h2⟩ := (s.setActive s.bestRef).setLoop_inputs m
    exact ⟨h1.trans hrefs, h2.trans hact⟩
  unfold State.reselect
  dsimp only
  repeat' split
  all_goals first | exact hloop _ | exact ⟨hrefs, hact⟩

theorem State.selectable_qualified (h : s.selectable x = true) : (s.ref x).st = .qualified := by
  simp only [State.selectable, Bool.and_eq_true, beq_iff_eq] at h
  obtain ⟨⟨-, hq⟩, -⟩ := h
  exact hq

/-- Only a qualified input is selected. -/
theorem State.bestRef_qualified (h : s.bestRef = some x) : (s.ref x).st = .qualified := by
  unfold State.bestRef at h
  dsimp only at h
  split at h
  · split at h <;> cases h
    rename_i hq
    simp only [Bool.and_eq_true, beq_iff_eq] at hq
    exact hq.2
  · split at h
    · cases h
    · rename_i b hb
      have hbest := State.selectable_qualified (List.mem_filter.mp (minBy_mem hb)).2
      split at h
      · split at h <;> cases h
        · rename_i ha
          rw [Bool.and_eq_true] at ha
          exact State.selectable_qualified ha.1
        · exact hbest
      · cases h
        exact hbest

/-! ### An input that changes its state (R342, R344, Table 13.4) -/

theorem State.enterHold_refs (s : State) (d : Nat) : (s.enterHold d).time.refs = s.time.refs := by
  unfold State.enterHold
  split
  · rfl
  · dsimp only [State.addCause, State.modTime]
    rw [State.postEvt_time]
    rfl

theorem State.leaveHold_refs (s : State) (d : Nat) : (s.leaveHold d).time.refs = s.time.refs := by
  unfold State.leaveHold
  split
  · rfl
  · dsimp only [State.addCause, State.modTime]
    rw [State.postEvt_time]
    rfl

theorem State.holdSrc_refs (s : State) (src : Nat) : (s.holdSrc src).time.refs = s.time.refs := by
  refine State.forEach_same (fun u => u.time.refs) (fun u d => ?_) _ s
  split
  · exact u.enterHold_refs d
  · rfl

theorem State.ref_congr {t : State} (h : t.time.refs = s.time.refs) : t.ref x = s.ref x := by simp only [State.ref, h]

/-- What follows a change of state changes no input. -/
theorem State.afterQual_refs (s : State) (x : Nat) : (s.afterQual x).time.refs = s.time.refs := by
  unfold State.afterQual
  split
  · exact s.reselect_inputs.1
  · split
    · refine State.forEach_same (fun u => u.time.refs) (fun u d => ?_) _ s
      split
      · exact u.leaveHold_refs d
      · rfl
    · exact s.holdSrc_refs _

/-- A rewritten input that is not the default reads back, in a table of any form. -/
theorem State.modRef_ref_ne {f : Ref → Ref} (h : f (s.ref x) ≠ {}) : (s.modRef x f).ref x = f (s.ref x) := getT_setT_ne _ _ _ _ h

/-- Only the input's present value matters to a rewrite of it. -/
theorem State.modRef_congr {f g : Ref → Ref} (h : f (s.ref x) = g (s.ref x)) : s.modRef x f = s.modRef x g := by
  have h' : f (getT {} s.time.refs x) = g (getT {} s.time.refs x) := h
  simp only [State.modRef, State.modTime, modT, h']

theorem Ref.ne_of_inactive {r : Ref} (h : r.activityOk = false) : r ≠ {} := fun e => Bool.noConfusion (h.symm.trans (congrArg Ref.activityOk e))

theorem Ref.ne_of_st {r : Ref} (h : r.st ≠ .disqualified) : r ≠ {} := fun e => h (congrArg Ref.st e)

theorem Ref.ne_of_captured {r : Ref} (h : r.capped = true) : r ≠ {} := fun e => Bool.noConfusion (h.symm.trans (congrArg Ref.capped e))

/-- An input that an event disqualifies keeps what the event wrote, and is not selected. -/
theorem State.disqualified_ref {f : Ref → Ref} (ha : (f (s.ref x)).activityOk = false) (hst : (f (s.ref x)).st = .disqualified) :
    (((s.modRef x f).postQual x).afterQual x).ref x = f (s.ref x) ∧
      (x < 4 → (((s.modRef x f).postQual x).afterQual x).time.active ≠ some x) := by
  have href := State.modRef_ref_ne (Ref.ne_of_inactive ha)
  have hqual : ((s.modRef x f).postQual x).ref x = f (s.ref x) :=
    (State.ref_congr (congrArg Time.refs (State.postEvt_time _ _ _ _ _ _ _ _))).trans href
  refine ⟨(State.ref_congr (State.afterQual_refs _ x)).trans hqual, fun hx hact => ?_⟩
  rw [State.afterQual, if_pos hx, (State.reselect_inputs _).2] at hact
  have hq := State.bestRef_qualified hact
  rw [hqual, hst] at hq
  cases hq

/-- An input that fails: disqualified, its counts of gates 0, its activity to be seen anew; a failure of one that was not
disqualified counts. -/
def Ref.failed (r : Ref) : Ref :=
  { r with st := .disqualified, gates := 0, badGates := 0, activityOk := false,
           fails := if r.st == .disqualified then r.fails else satTo 0xFFFF (r.fails + 1) }

theorem State.refFail_eq (s : State) (x : Nat) :
    s.refFail x = if (s.ref x).st == .disqualified then s.modRef x Ref.failed else ((s.modRef x Ref.failed).postQual x).afterQual x := rfl

theorem State.refFail_ref : (s.refFail x).ref x = (s.ref x).failed := by
  rw [State.refFail_eq]
  split
  · exact State.modRef_ref_ne (Ref.ne_of_inactive rfl)
  · exact (State.disqualified_ref rfl rfl).1

/-! ### Activity and gates (R344, R345, Table 13.4) -/

theorem State.refFail_deselects (hx : x < 4) (h : (s.ref x).st ≠ .disqualified) : (s.refFail x).time.active ≠ some x := by
  rw [State.refFail_eq, if_neg (by simpa using h)]
  exact (State.disqualified_ref rfl rfl).2 hx

variable {off : Int}

/-- The state with the offset of the gate written. -/
def State.withOffset (s : State) (x : Nat) (off : Int) : State := s.modRef x fun r => { r with offset := clampI (-8388608) 8388607 off }

theorem State.withOffset_ref (h : (s.ref x).st ≠ .disqualified) :
    (s.withOffset x off).ref x = { s.ref x with offset := clampI (-8388608) 8388607 off } := State.modRef_ref_ne (Ref.ne_of_st h)

theorem State.refGateAt_disqualified (h : (s.ref x).st = .disqualified) : s.refGateAt x off = (s.withOffset x off).modRef x fun r =>
    if r.activityOk then { r with st := .checking, gates := 0 } else { r with activityOk := true } := by
  simp only [State.refGateAt, h]
  rfl

/-- Four gates in a row within 100 ppb take an input to its wait. -/
theorem State.refGateAt_checking (h : (s.ref x).st = .checking) : s.refGateAt x off =
    if -100 ≤ off ∧ off ≤ 100 then
      if (s.ref x).gates < 3 then (s.withOffset x off).modRef x fun r => { r with gates := (s.ref x).gates + 1 }
      else (s.withOffset x off).modRef x fun r => { r with st := .wait, gates := 0, waitAt := s.now }
    else (s.withOffset x off).modRef x fun r => { r with gates := 0 } := by
  have hgates : ((s.withOffset x off).ref x).gates = (s.ref x).gates := by
    rw [State.withOffset_ref fun e => Qual.noConfusion (h.symm.trans e)]
  simp only [State.refGateAt, h]
  by_cases hn : -100 ≤ off ∧ off ≤ 100
  · rw [if_pos hn, if_neg (by simp [hn])]
    by_cases hg : (s.ref x).gates < 3
    · rw [if_pos hg, if_pos (by omega)]
      exact State.modRef_congr (congrArg (fun n => { (s.withOffset x off).ref x with gates := n + 1 }) hgates)
    · rw [if_neg hg, if_neg (by omega)]
      rfl
  · rw [if_neg hn, if_pos (by simp only [Bool.not_eq_true', Bool.and_eq_false_iff, decide_eq_false_iff_not]; omega)]
    rfl

theorem State.refGateAt_wait (h : (s.ref x).st = .wait) : s.refGateAt x off =
    if -1000 ≤ off ∧ off ≤ 1000 then s.withOffset x off
    else (s.withOffset x off).modRef x fun r => { r with st := .checking, gates := 0 } := by
  simp only [State.refGateAt, h, Bool.and_eq_true, decide_eq_true_eq]
  rfl

/-- A qualified input is lost at the second gate in a row beyond 1,000 ppb. -/
theorem State.refGateAt_qualified (h : (s.ref x).st = .qualified) : s.refGateAt x off =
    if -1000 ≤ off ∧ off ≤ 1000 then (s.withOffset x off).modRef x fun r => { r with badGates := 0 }
    else if (s.ref x).badGates = 0 then (s.withOffset x off).modRef x fun r => { r with badGates := 1 }
    else (((s.withOffset x off).modRef x fun r => { r with st := .disqualified, gates := 0, badGates := 0, activityOk := false,
                                                           fails := satTo 0xFFFF (r.fails + 1) }).postQual x).afterQual x := by
  simp only [State.refGateAt, h, Bool.and_eq_true, decide_eq_true_eq, beq_iff_eq]
  rfl

end

/-- While the root clock runs, the activity and the gates of inputs 0 to 3 count. -/
theorem exec_refInputs_on {s : State} {x : RefInput} (hx : x.val < 4) (hr : s.time.running = true) :
    (∀ count, exec (.refActivityWindow x count) s =
      .next (if 3 * s.refNominal x ≤ 4 * count ∧ 4 * count ≤ 5 * s.refNominal x then s else s.refFail x)) ∧
    (∀ off, exec (.refGate x off) s = .next (s.refGateAt x off)) := by
  have hgo : (decide (4 ≤ x.val) || !s.time.running) = false := by simp [hx, hr]
  refine ⟨fun count => ?_, fun off => ?_⟩
  · show execRefActivityWindow x count s = _
    simp [execRefActivityWindow, Nat.not_le.mpr hx, hr]
  · show execRefGate x off s = _
    simp [execRefGate, Nat.not_le.mpr hx, hr]

theorem exec_refInputs_off {s : State} {x : RefInput} (h : 4 ≤ x.val ∨ s.time.running = false) :
    (∀ count, exec (.refActivityWindow x count) s = .next s) ∧ ∀ off, exec (.refGate x off) s = .next s := by
  have hoff : (decide (4 ≤ x.val) || !s.time.running) = true := by simpa using h
  exact ⟨fun _ => congrArg Host.Outcome.next (if_pos hoff), fun _ => congrArg Host.Outcome.next (if_pos hoff)⟩

section
variable {s : State}

theorem exec_refWtrExpiry_wait {x : RefInput} (h : (s.ref x).st = .wait) : exec (.refWtrExpiry x) s =
    .next (((s.modRef x fun r => { r with st := .qualified, badGates := 0 }).postQual x).afterQual x) :=
  congrArg Host.Outcome.next (if_pos (by simp [h]))

theorem exec_refWtrExpiry_other {x : RefInput} (h : (s.ref x).st ≠ .wait) : exec (.refWtrExpiry x) s = .next s :=
  congrArg Host.Outcome.next (if_neg (by simpa using h))

theorem exec_refSet_starts {c : RingCmd} (hs : s.starts true c = true) :
    exec (.refSet c) s = .next ((s.started c).refSet c (s.refOf c 0x52)) :=
  congrArg Host.Outcome.next (startCmd_starts hs)

/-! ### Pulse inputs and the external trigger (R334, R394) -/

/-- The state with the edge of input `n` captured. -/
def State.withCapture (s : State) (n : Nat) : State := s.modRef n fun r => { r with cap := s.now, capped := true }

theorem State.withCapture_ref (s : State) (n : Nat) : (s.withCapture n).ref n = { s.ref n with cap := s.now, capped := true } :=
  State.modRef_ref_ne (Ref.ne_of_captured rfl)

/-- An input that has been captured reads back its activity. -/
theorem State.fresh_ref {n : Nat} (h : (s.ref n).capped = true) :
    (s.modRef n fun r => { r with activityOk := true }).ref n = { s.ref n with activityOk := true } :=
  State.modRef_ref_ne (Ref.ne_of_captured h)

variable {i : Nat}

/-- The first edge of a period of an input that is not qualified steers nothing. -/
theorem State.ppsCapture_first (hc : (s.ref (4 + i)).capped = false) (hq : (s.ref (4 + i)).st ≠ .qualified) :
    s.ppsCapture i = (s.withCapture (4 + i)).modRef (4 + i) fun r => { r with activityOk := true } := by
  have hst : (((s.withCapture (4 + i)).modRef (4 + i) fun r => { r with activityOk := true }).ref (4 + i)).st = (s.ref (4 + i)).st := by
    rw [State.fresh_ref (by rw [State.withCapture_ref]), State.withCapture_ref]
  simp only [State.ppsCapture, hc, Bool.not_false, if_true]
  refine if_neg ?_
  rw [Bool.and_eq_true, beq_iff_eq]
  exact fun h => hq (hst.symm.trans h.1)

/-- An edge more than 1 µs early or late fails the input, and a new period starts. -/
theorem State.ppsCapture_astray (hc : (s.ref (4 + i)).capped = true)
    (hp : s.now < (s.ref (4 + i)).cap + 1249998750 ∨ (s.ref (4 + i)).cap + 1250001250 < s.now) :
    s.ppsCapture i = ((s.withCapture (4 + i)).refFail (4 + i)).modRef (4 + i) fun r => { r with activityOk := true } := by
  have hst : ((((s.withCapture (4 + i)).refFail (4 + i)).modRef (4 + i) fun r => { r with activityOk := true }).ref (4 + i)).st =
      .disqualified := by
    rw [State.fresh_ref (by rw [State.refFail_ref, State.withCapture_ref]; rfl), State.refFail_ref]
    rfl
  have hout : (decide ((s.now : Int) - (s.ref (4 + i)).cap < 1250000000 - 1250) ||
      decide (1250000000 + 1250 < (s.now : Int) - (s.ref (4 + i)).cap)) = true := by
    simp only [Bool.or_eq_true, decide_eq_true_eq]
    omega
  simp only [State.ppsCapture, hc, Bool.not_true, Bool.false_eq_true, if_false, hout, if_true]
  refine if_neg ?_
  rw [Bool.and_eq_true, beq_iff_eq]
  exact fun h => Qual.noConfusion (h.1.symm.trans hst)

theorem exec_ppsEdge_on {i : Fin 2} (ho : s.ppsOn i = true) (hr : s.time.running = true) :
    exec (.ppsEdge i) s = .next (s.ppsCapture i) :=
  congrArg Host.Outcome.next (if_pos (by simp [ho, hr]))

theorem exec_extTrig_on (hm : fld (s.reg 0xF00000) 7 6 = 2) (hr : s.time.running = true) :
    exec .extTrig s = .next (if s.time.lastTrig.all (fun t => decide (t + 1250 ≤ s.now)) then
        ((s.withCapture 5).modTime fun t => { t with lastTrig := some s.now }).postEvt 0 0x34 0 15 0 (s.now % 2 ^ 32) (s.now / 2 ^ 32)
      else s.withCapture 5) := by
  show execExtTrig s = _
  cases ht : s.time.lastTrig with
  | none => simp [execExtTrig, hm, hr, ht, State.withCapture]
  | some t =>
    by_cases hc : s.now < t + 1250
    · simp [execExtTrig, hm, hr, ht, hc, Nat.not_le.mpr hc, State.withCapture]
    · simp [execExtTrig, hm, hr, ht, hc, Nat.not_lt.mp hc, State.withCapture]

/-! ### The root loop (R348 to R350, R358, Table 13.5) -/

theorem State.writeRefLoop_eq (v : Nat) : s.writeRefLoop v =
    let w := (s.setBoth 0xD00140 (mergeBits (if fld v 17 16 = 3 then 0xFF00FFFF else 0xFF03FFFF) s.refLoop v)).reselect
    if w.time.active = none then w.setLoop .holdover else w.setLoop w.loopMode := by
  simp only [State.writeRefLoop, beq_iff_eq]
  generalize State.reselect _ = w
  cases w.time.active with
  | none => rfl
  | some a => exact (if_neg (Option.some_ne_none a)).symm

theorem exec_refLoopWrite_open {v : W32} (hr : s.ready = true) (hb : s.setup.busy = false) :
    exec (.refLoopWrite v) s = .next (s.writeRefLoop v.toNat) :=
  congrArg Host.Outcome.next (State.bar2Write_open hr hb)

theorem exec_rootSteerWrite_open {v : W32} (hr : s.ready = true) (hb : s.setup.busy = false) :
    exec (.rootSteerWrite v) s = .next (s.writeRootSteer v.toNat) :=
  congrArg Host.Outcome.next (State.bar2Write_open hr hb)

/-- A write of ROOT_STEER is clamped; it ends HOLDOVER under MODE OPEN with a reference selected. -/
theorem State.writeRootSteer_eq (v : Nat) : s.writeRootSteer v =
    let y := clampI (-16777216) 16777216 (toSigned 32 v)
    let w := (s.setBoth 0xD0014C (ofSigned 32 y)).modTime fun t => { t with steer := y, steered := true }
    if s.time.loop = .holdover ∧ w.loopMode = .opened ∧ s.time.active.isSome = true then w.setLoop .opened else w := by
  simp only [State.writeRootSteer, Bool.and_eq_true, beq_iff_eq, and_assoc]
  rfl

end

/-- Settles O60, input by input and then the loop. -/
theorem referencesAndPulses : Obligations.ReferencesAndPulses := by
  intro x i count off v phase c s near wide st
  refine ⟨fun h => ⟨(exec_refInputs_off h).1 count, (exec_refInputs_off h).2 off⟩, fun hx hr => ⟨?activity, ?gate⟩, exec_refWtrExpiry_wait,
    exec_refWtrExpiry_other, fun hs => ?set, ?pulses, fun h => ?trigOff, fun hm hr => ?trig, fun hr hb => ⟨?loop, ?steer⟩,
    fun h => ⟨?timeout, ?report⟩, fun h => ⟨?noTimeout, ?noReport⟩, fun h => congrArg _ (if_pos h), fun h ho => ?zero, fun h ho => ?unread⟩
  case activity =>
    obtain ⟨hact, -⟩ := exec_refInputs_on hx hr
    refine ⟨fun h1 h2 => ?_, fun h hst => ⟨_, hact count, ?_⟩⟩
    · rw [hact, if_pos ⟨h1, h2⟩]
    · rw [if_neg (by omega), State.refFail_ref]
      exact ⟨rfl, if_neg (by simpa using hst), State.refFail_deselects hx hst⟩
  case gate =>
    obtain ⟨-, hgate⟩ := exec_refInputs_on hx hr
    simp only [hgate]
    refine ⟨fun h => ?_, fun h => ?_, fun h => ?_, fun h => ?_⟩
    · exact congrArg _ (State.refGateAt_disqualified h)
    · rw [State.refGateAt_checking h]
      exact ⟨fun hn => congrArg _ (if_neg hn), fun hn hg => congrArg _ ((if_pos hn).trans (if_pos hg)),
        fun hn hg => congrArg _ ((if_pos hn).trans (if_neg (Nat.not_lt.mpr hg)))⟩
    · rw [State.refGateAt_wait h]
      exact ⟨fun hw => congrArg _ (if_pos hw), fun hw => congrArg _ (if_neg hw)⟩
    · rw [State.refGateAt_qualified h]
      refine ⟨fun hw => congrArg _ (if_pos hw), fun hw hb => congrArg _ ((if_neg hw).trans (if_pos hb)),
        fun hw hb => ⟨_, congrArg _ ((if_neg hw).trans (if_neg hb)), ?_⟩⟩
      obtain ⟨href, hact⟩ := State.disqualified_ref (s := s.withOffset x off) (x := x) (f := fun r =>
        { r with st := .disqualified, gates := 0, badGates := 0, activityOk := false, fails := satTo 0xFFFF (r.fails + 1) }) rfl rfl
      exact ⟨congrArg Ref.st href, hact hx⟩
  case set =>
    rw [exec_refSet_starts hs]
    refine ⟨fun hy => congrArg _ (if_pos hy), fun hy => congrArg _ ((if_neg (Nat.not_lt.mpr hy)).trans ?_)⟩
    simp only [beq_iff_eq]
  case pulses =>
    refine ⟨fun h => ?_, fun ho hr => ⟨fun hc hq => ?_, fun hc hp => ?_⟩, fun ho hc => ?_, fun h => ?_⟩
    · exact congrArg _ (if_neg (by rcases h with h | h <;> simp [h]))
    · rw [exec_ppsEdge_on ho hr, State.ppsCapture_first hc hq]
      rfl
    · rw [exec_ppsEdge_on ho hr, State.ppsCapture_astray hc hp]
      rfl
    · exact congrArg _ (if_pos (by rw [ho]; exact hc))
    · refine congrArg _ (if_neg ?_)
      rw [Bool.and_eq_true]
      rintro ⟨ho, hc⟩
      rcases h with h | h
      · exact Bool.noConfusion (h.symm.trans ho)
      · exact Bool.noConfusion (h.symm.trans hc)
  case trigOff => exact congrArg _ (if_pos (by rcases h with h | h <;> simp [h]))
  case trig =>
    rw [exec_extTrig_on hm hr]
    refine ⟨fun h => congrArg _ (if_pos h), fun h => congrArg _ (if_neg ?_)⟩
    cases ht : s.time.lastTrig <;> simp_all
  case loop =>
    rw [exec_refLoopWrite_open hr hb, State.writeRefLoop_eq]
    exact ⟨fun h => congrArg _ (if_pos h), fun h => congrArg _ (if_neg h)⟩
  case steer =>
    rw [exec_rootSteerWrite_open hr hb, State.writeRootSteer_eq]
    exact ⟨fun h => congrArg _ (if_neg fun ⟨hl, _⟩ => h hl), fun h hm ha => congrArg _ (if_pos ⟨h, hm, ha⟩)⟩
  case timeout => exact congrArg _ (if_pos (by simp [h]))
  case report => exact congrArg _ (if_pos (by simp [h]))
  case noTimeout => exact congrArg _ (if_neg (by simpa using h))
  case noReport => exact congrArg _ (if_neg (by simpa using h))
  case zero => exact congrArg _ ((if_neg (by simp [h])).trans (if_pos ho))
  case unread => exact congrArg _ ((if_neg (by simp [h])).trans (if_neg (by simp [ho])))

end Sys2Proof.Machine
end

section
/-! SUPPORT. Proofs about the frames of the management chain: what a port that is not up, a frame not heard and a frame heard
leave, and what each type does where it is heard. -/

namespace Sys2Proof.Machine

open Sys2Proof

/-! ### Reception (R309, R311) -/

section
variable {s v : State} {p : Nat} {f : Frame} {link : Bool} {deliver : State → State}

theorem State.receive_down (h : (s.port p).isUp = false) : s.receive p f link deliver = s := if_pos (by simp [h])

/-- A frame that is not for this package, its own or seen before is only passed on. -/
theorem State.receive_unheard (hup : (s.port p).isUp = true) (h : s.hears p f = false) :
    s.receive p f link deliver = s.passed p f link (s.goodFrame p f) := by
  have hno : ((s.goodFrame p f).isForMe f && !(f.src == (s.goodFrame p f).mgmt.addr && f.src != 0x40) &&
      !(s.goodFrame p f).seenBefore f) = false := by
    simpa only [State.hears, State.ownBack, hup, Bool.true_and] using h
  simp only [State.receive, State.passed, State.ownBack, hup, hno, Bool.not_true, Bool.false_eq_true, if_false]
  rfl

/-- A link-local frame is never passed on. -/
theorem State.passed_link : s.passed p f true v = v := by
  simp only [State.passed, Bool.true_or, if_true]

end

section
variable {s : State} {p : Fin 2} {f : Frame}

/-- The frames that travel beyond the link, but for BEACON. -/
def farFrames (p : Fin 2) (f : Frame) : List Instr :=
  [.enum p f, .join p f, .assign p f, .topo p f, .lockReq p f, .lockResp p f, .lockRel p f, .resetReq p f, .resetAck p f]

/-- The link-local frames. -/
def nearFrames (p : Fin 2) (f : Frame) : List Instr := [.sync p f, .delayReq p f, .delayResp p f, .sleepNote p f]

/-- Each frame that travels on is received, whatever it does where it is heard. -/
theorem exec_farFrame {i : Instr} (hi : i ∈ farFrames p f) :
    ∃ deliver, exec i s = .next (s.receive p f false deliver) := by
  simp only [farFrames, List.mem_cons, List.not_mem_nil, or_false] at hi
  rcases hi with rfl | rfl | rfl | rfl | rfl | rfl | rfl | rfl | rfl <;> exact ⟨_, rfl⟩

theorem exec_nearFrame {i : Instr} (hi : i ∈ nearFrames p f) :
    ∃ deliver, exec i s = .next (s.receive p f true deliver) := by
  simp only [nearFrames, List.mem_cons, List.not_mem_nil, or_false] at hi
  rcases hi with rfl | rfl | rfl | rfl <;> exact ⟨_, rfl⟩

theorem exec_frame_down (h : (s.port p).isUp = false) {i : Instr}
    (hi : i ∈ farFrames p f ++ nearFrames p f ++ [.beacon p f, .wake p f, .unknownTypeFrame p f]) : exec i s = .next s := by
  rcases List.mem_append.mp hi with hi | hi
  · rcases List.mem_append.mp hi with hi | hi
    · obtain ⟨d, hd⟩ := exec_farFrame (s := s) hi
      rw [hd, State.receive_down h]
    · obtain ⟨d, hd⟩ := exec_nearFrame (s := s) hi
      rw [hd, State.receive_down h]
  · simp only [List.mem_cons, List.not_mem_nil, or_false] at hi
    rcases hi with rfl | rfl | rfl
    · exact congrArg Host.Outcome.next (if_pos (by simp [h]))
    · exact congrArg Host.Outcome.next (if_neg (by simp [h]))
    · exact congrArg Host.Outcome.next (if_neg (by simp [h]))

theorem exec_farFrame_unheard (hup : (s.port p).isUp = true) (h : s.hears p f = false) {i : Instr} (hi : i ∈ farFrames p f) :
    exec i s = .next (s.passed p f false (s.goodFrame p f)) := by
  obtain ⟨d, hd⟩ := exec_farFrame (s := s) hi
  rw [hd, State.receive_unheard hup h]

theorem exec_nearFrame_unheard (hup : (s.port p).isUp = true) (h : s.hears p f = false) {i : Instr} (hi : i ∈ nearFrames p f) :
    exec i s = .next (s.goodFrame p f) := by
  obtain ⟨d, hd⟩ := exec_nearFrame (s := s) hi
  rw [hd, State.receive_unheard hup h, State.passed_link]

end

/-! ### JOIN at the acting master (R314) -/

section
variable {s : State} {want : Nat} {id : BitVec 64} {hE hW : Nat}

/-- During a re-enumeration a JOIN is collected. -/
theorem State.takeJoin_open (h : s.mgmt.enumOpen = true) : s.takeJoin want id hE hW =
    s.modMgmt fun m => { m with reenum := m.reenum.filter (fun e => e.1 != id) ++ [(id, hE, hW)] } := if_pos h

/-- The address that a new identity gets: the one wanted where it is free, else the lowest free one. -/
def State.addrFor (s : State) (want : Nat) : Option Nat := if want < 64 ∧ (s.addrEnt want).valid = false then some want else s.freeAddr

theorem State.takeJoin_new (h : s.mgmt.enumOpen = false) (hid : ∀ a ∈ s.validAddrs, (s.addrEnt a).id ≠ id) :
    s.takeJoin want id hE hW = match s.addrFor want with
      | some a => s.assignAddr id a hE hW
      | none => s.modMgmt fun m => { m with tableNew := true } := by
  have hold : ∀ k : Nat → Bool, (s.validAddrs.filter fun a => (s.addrEnt a).id == id && k a) = [] := fun k =>
    List.filter_eq_nil_iff.mpr fun a ha => by simp [hid a ha]
  have hwant : (decide (want < 64) && (!(s.addrEnt want).valid || (s.addrEnt want).id == id)) =
      decide (want < 64 ∧ (s.addrEnt want).valid = false) := by
    by_cases hw : want < 64
    · cases hv : (s.addrEnt want).valid with
      | false => simp [hw]
      | true => simpa [hw] using hid want (List.mem_filter.mpr ⟨List.mem_range.mpr hw, hv⟩)
    · simp [hw]
  simp only [State.takeJoin, h, Bool.false_eq_true, if_false, hold, hwant, decide_eq_true_eq]
  rfl

theorem State.addrFor_wanted (h : want < 64) (hv : (s.addrEnt want).valid = false) : s.addrFor want = some want := if_pos ⟨h, hv⟩

theorem State.addrFor_lowest (h : 64 ≤ want ∨ (s.addrEnt want).valid = true) : s.addrFor want = s.freeAddr := by
  refine if_neg fun ⟨hw, hv⟩ => ?_
  rcases h with h | h
  · exact Nat.not_lt.mpr h hw
  · exact Bool.noConfusion (hv.symm.trans h)

end

/-! ### Frames that are heard -/

section
variable {s : State} {p : Fin 2} {f : Frame} (hf : s.hears p f = true)
include hf

theorem exec_enum_heard : exec (.enum p f) s = .next (s.passed p f false (s.heard p f).sendJoin) :=
  congrArg Host.Outcome.next (State.receive_heard hf)

theorem exec_join_heard : exec (.join p f) s = .next (s.passed p f false (if !(s.heard p f).mgmt.acting then s.heard p f
    else (s.heard p f).takeJoin (fld (payloadNat f 0) 6 0) (BitVec.ofNat 64 (payload64 f 1)) (fld (payloadNat f 3) 7 0)
      (fld (payloadNat f 3) 15 8))) :=
  congrArg Host.Outcome.next (State.receive_heard hf)

theorem exec_assign_heard : exec (.assign p f) s = .next (s.passed p f false (
    if payload64 f 0 == Config.identity.toNat && !(s.heard p f).mgmt.acting then (s.heard p f).takeAddr (BitVec.ofNat 7 (payloadNat f 2))
    else s.heard p f)) :=
  congrArg Host.Outcome.next (State.receive_heard hf)

theorem exec_topo_heard : exec (.topo p f) s =
    .next (s.passed p f false (if (s.heard p f).mgmt.acting then s.heard p f else (s.heard p f).takeTopo f)) :=
  congrArg Host.Outcome.next (State.receive_heard hf)

theorem exec_lockReq_heard : exec (.lockReq p f) s = .next (s.passed p f false (if (s.heard p f).mgmt.acting then
      (s.heard p f).chainRequest (fld (payloadNat f 0) 9 0) (chainHolder f.src.toNat (payloadNat f 1 % 65536)) (bit (payloadNat f 0) 31)
        (payloadNat f 2)
    else s.heard p f)) :=
  congrArg Host.Outcome.next (State.receive_heard hf)

theorem exec_lockResp_heard : exec (.lockResp p f) s =
    .next (s.passed p f false ((s.heard p f).takeLockResp (payloadNat f 0) (payloadNat f 1))) :=
  congrArg Host.Outcome.next (State.receive_heard hf)

theorem exec_lockRel_heard : exec (.lockRel p f) s = .next (s.passed p f false (
    let h := s.heard p f
    let n := fld (payloadNat f 0) 9 0
    if !h.mgmt.acting || n < 992 then h
    else if bit (payloadNat f 0) 31 then h.releaseChain n 1
    else if !(h.lock n).holder.any fun x => x / 65536 == f.src.toNat then h
    else if bit (payloadNat f 0) 30 then h.modLock n fun l => { l with mark := 0 }
    else h.releaseChain n 0)) :=
  congrArg Host.Outcome.next (State.receive_heard hf)

theorem exec_sync_heard : exec (.sync p f) s = .next ((s.heard p f).takeSync p f) :=
  congrArg Host.Outcome.next ((State.receive_heard hf).trans State.passed_link)

theorem exec_delayReq_heard : exec (.delayReq p f) s = .next ((s.heard p f).sendLocal p 0x12 1 false
    [(s.heard p f).now % 2 ^ 32, (s.heard p f).now / 2 ^ 32, payloadNat f 2, payloadNat f 0, payloadNat f 1]) :=
  congrArg Host.Outcome.next ((State.receive_heard hf).trans State.passed_link)

theorem exec_delayResp_heard : exec (.delayResp p f) s = .next ((s.heard p f).takeDelayResp p f) :=
  congrArg Host.Outcome.next ((State.receive_heard hf).trans State.passed_link)

theorem exec_sleepNote_heard : exec (.sleepNote p f) s =
    .next (((s.heard p f).portOff p).modPort p fun x => { x with quiet := true, quietAddr := f.src.toNat }) :=
  congrArg Host.Outcome.next ((State.receive_heard hf).trans State.passed_link)

section
variable (ha : (s.heard p f).mgmt.acting = true)
include ha

theorem exec_join_acting : exec (.join p f) s = .next (s.passed p f false ((s.heard p f).takeJoin (fld (payloadNat f 0) 6 0)
    (BitVec.ofNat 64 (payload64 f 1)) (fld (payloadNat f 3) 7 0) (fld (payloadNat f 3) 15 8))) := by
  rw [exec_join_heard hf, if_neg (by simp [ha])]

/-- LOCK_REL at the acting master: FORCE releases from any holder, otherwise only the holder's package may. -/
theorem exec_lockRel_acting : exec (.lockRel p f) s = .next (s.passed p f false (
    let h := s.heard p f
    let n := fld (payloadNat f 0) 9 0
    if n < 992 then h
    else if bit (payloadNat f 0) 31 = true then h.releaseChain n 1
    else if (h.lock n).holder.any (fun x => x / 65536 == f.src.toNat) = false then h
    else if bit (payloadNat f 0) 30 = true then h.modLock n fun l => { l with mark := 0 }
    else h.releaseChain n 0)) := by
  rw [exec_lockRel_heard hf]
  simp only [ha, Bool.not_true, Bool.false_or, decide_eq_true_eq, Bool.not_eq_true']

end

end

section
variable {s : State} {p : Nat} {f : Frame}

theorem State.takeSync_other (h : s.noteUpstream.upstream ≠ some p) : s.takeSync p f = s.noteUpstream := if_pos (by simpa using h)

theorem State.takeDelayResp_other (h : s.upstream ≠ some p) : s.takeDelayResp p f = s := if_pos (by simpa using h)

/-- One exchange with the upstream port, the last 1,024 kept. -/
theorem State.takeDelayResp_upstream (h : s.upstream = some p) : s.takeDelayResp p f = ((s.modTime fun t =>
    let d : Int := ((t.upT2 : Int) - t.upT1) + ((payload64 f 0 : Int) - payload64 f 3)
    let l := t.exchange ++ [(payloadNat f 2, d)]
    { t with exchange := l.drop (l.length - 1024) }).modMgmt fun m => { m with exchanges := m.exchanges + 1 }).steerChain := by
  rw [State.takeDelayResp, if_neg (by simp [h])]
  dsimp only [State.modTime]

end

/-! ### BEACON and WAKE (R313, R371) -/

section
variable {s : State} {p : Fin 2} {f : Frame}

/-- The state that a BEACON is received in: the hops of its copy are noted, unless it has come back. -/
def State.hopsNoted (s : State) (f : Frame) : State := if s.ownBack f then s else s.recordHops f

theorem State.hopsNoted_port (s : State) (f : Frame) (q : Nat) : (s.hopsNoted f).port q = s.port q := by
  unfold State.hopsNoted
  split <;> rfl

theorem exec_beacon_up (h : (s.port p).isUp = true) : exec (.beacon p f) s =
    .next ((s.hopsNoted f).receive p f false fun s => if s.mgmt.acting then s else s.takeBeacon f) :=
  congrArg Host.Outcome.next (if_neg (by simp [h]))

theorem exec_beacon_heard (h : (s.port p).isUp = true) (hh : (s.hopsNoted f).hears p f = true) : exec (.beacon p f) s =
    .next ((s.hopsNoted f).passed p f false (
      let b := (s.hopsNoted f).heard p f
      if b.mgmt.acting then b else b.takeBeacon f)) := by
  rw [exec_beacon_up h, State.receive_heard hh]

theorem exec_beacon_unheard (h : (s.port p).isUp = true) (hh : (s.hopsNoted f).hears p f = false) : exec (.beacon p f) s =
    .next ((s.hopsNoted f).passed p f false ((s.hopsNoted f).goodFrame p f)) := by
  rw [exec_beacon_up h, State.receive_unheard (by rwa [State.hopsNoted_port]) hh]

theorem exec_wake_up (h : (s.port p).isUp = true) : exec (.wake p f) s = .next (s.takeWake p f) := congrArg Host.Outcome.next (if_pos h)

/-- Port `q` of the state that a WAKE meets is QUIET and the frame names its neighbour. -/
def State.wakes (g : State) (f : Frame) (q : Nat) : Bool := (g.port q).quiet && (g.port q).quietAddr == f.dst.toNat

/-- WAKE: the clock of the first port named, else it goes on to its address. -/
theorem State.takeWake_eq (s : State) (p : Nat) (f : Frame) : s.takeWake p f =
    let g := s.goodFrame p f
    if g.wakes f 0 then g.modPort 0 fun x => { x with wakeClk := true }
    else if g.wakes f 1 then g.modPort 1 fun x => { x with wakeClk := true }
    else if g.isForMe f || f.src == g.mgmt.addr then g else g.forward p f := by
  have hfind : ∀ g : State, ([0, 1].find? fun q => (g.port q).quiet && (g.port q).quietAddr == f.dst.toNat) =
      if g.wakes f 0 then some 0 else if g.wakes f 1 then some 1 else none := fun g => by
    cases h0 : g.wakes f 0 <;> cases h1 : g.wakes f 1 <;> simp only [State.wakes] at h0 h1 <;> simp [List.find?, h0, h1]
  simp only [State.takeWake, hfind]
  generalize s.goodFrame p f = g
  cases g.wakes f 0 <;> cases g.wakes f 1 <;> rfl

end

/-- Settles O55: a port that is not up, a frame not heard, then each type where it is heard. -/
theorem chainFramesAreDeliveredOnce : Obligations.ChainFramesAreDeliveredOnce := by
  intro p f s g h acting far near after here
  have into : ∀ {i : Instr} {v w : State}, exec i s = .next (s.passed p f false v) → v = w → after i w := fun hi e => e ▸ hi
  have onto : ∀ {i : Instr} {v w : State}, exec i s = .next v → v = w → here i w := fun hi e => e ▸ hi
  refine ⟨fun hd i hi => exec_frame_down hd hi,
    fun hup hh => ⟨fun i hi => exec_farFrame_unheard hup hh hi, fun i hi => exec_nearFrame_unheard hup hh hi⟩,
    fun hf => ⟨exec_enum_heard hf, fun ha => ?follower, fun ha => ⟨?topo, ⟨fun ho => ?collect, fun ho hid => ?new⟩, ?lockReq, ?lockRel⟩,
      fun hid ha => ?assign, fun hid => ?assignOther, exec_lockResp_heard hf, exec_sync_heard hf,
      fun hu => onto (exec_sync_heard hf) (State.takeSync_other hu), exec_delayReq_heard hf,
      fun hu => onto (exec_delayResp_heard hf) (State.takeDelayResp_other hu),
      fun hu => onto (exec_delayResp_heard hf) (State.takeDelayResp_upstream hu), exec_sleepNote_heard hf⟩,
    ⟨fun hh hup => ?beacon, fun hh hup => ?beaconUnheard⟩, fun hup => ?wake⟩
  case follower =>
    have ha : (s.heard p f).mgmt.acting = false := ha
    exact ⟨into (exec_join_heard hf) (if_pos (by simp [ha])), into (exec_lockReq_heard hf) (if_neg (by simp [ha])),
      into (exec_lockRel_heard hf) (if_pos (by simp [ha])), into (exec_topo_heard hf) (if_neg (by simp [ha]))⟩
  case topo => exact into (exec_topo_heard hf) (if_pos ha)
  case collect => exact into (exec_join_acting hf ha) (State.takeJoin_open ho)
  case new =>
    have hnew := exec_join_acting hf ha
    rw [State.takeJoin_new ho hid] at hnew
    refine ⟨fun hw hv => into hnew ?_, fun hw => ⟨fun a hfree => into hnew ?_, fun hfree => into hnew ?_⟩⟩
    · rw [State.addrFor_wanted hw hv]
    · rw [State.addrFor_lowest hw, hfree]
    · rw [State.addrFor_lowest hw, hfree]
  case lockReq => exact into (exec_lockReq_heard hf) (if_pos ha)
  case lockRel =>
    intro n mine
    have hrel := exec_lockRel_acting hf ha
    refine ⟨fun hn => into hrel (if_pos hn), fun hn hb => into hrel ((if_neg (Nat.not_lt.mpr hn)).trans (if_pos hb)),
      fun hn hb hm => ?_, fun hn hb hm => ⟨fun hc => ?_, fun hc => ?_⟩⟩
    all_goals refine into hrel ((if_neg (Nat.not_lt.mpr hn)).trans ((if_neg (Bool.eq_false_iff.mp hb)).trans ?_))
    · exact if_pos hm
    · exact (if_neg (Bool.not_eq_false _ ▸ hm)).trans (if_pos hc)
    · exact (if_neg (Bool.not_eq_false _ ▸ hm)).trans (if_neg (Bool.eq_false_iff.mp hc))
  case assign => exact into (exec_assign_heard hf) (if_pos (by simpa [hid] using ha))
  case assignOther =>
    refine into (exec_assign_heard hf) (if_neg ?_)
    rw [Bool.and_eq_true, beq_iff_eq, Bool.not_eq_true']
    rintro ⟨he, ha⟩
    rcases hid with hid | hid
    · exact hid he
    · exact Bool.noConfusion (ha.symm.trans hid)
  case beacon =>
    refine ⟨fun ha => (exec_beacon_heard hup hh).trans ?_, fun ha => (exec_beacon_heard hup hh).trans ?_⟩
    · exact congrArg (fun v => Host.Outcome.next ((s.hopsNoted f).passed p f false v)) (if_pos ha)
    · exact congrArg (fun v => Host.Outcome.next ((s.hopsNoted f).passed p f false v)) (if_neg (Bool.eq_false_iff.mp ha))
  case beaconUnheard => exact exec_beacon_unheard hup hh
  case wake =>
    have hwake := (exec_wake_up (f := f) hup).trans (congrArg _ (State.takeWake_eq s p f))
    refine ⟨congrArg _ (if_pos hup), fun h0 => onto hwake (if_pos h0),
      fun h0 h1 => onto hwake ((if_neg (Bool.eq_false_iff.mp h0)).trans (if_pos h1)), fun h0 h1 hme => ?_, fun h0 h1 hme hsrc => ?_⟩
    all_goals refine onto hwake ((if_neg (Bool.eq_false_iff.mp h0)).trans ((if_neg (Bool.eq_false_iff.mp h1)).trans ?_))
    · exact if_pos (by simpa using hme)
    · have hme : (s.goodFrame p f).isForMe f = false := hme
      have hsrc : f.src ≠ (s.goodFrame p f).mgmt.addr := hsrc
      exact if_neg (by simp [hme, hsrc])

end Sys2Proof.Machine
end

section
/-! SUPPORT. Proofs about masters and twins: the loss of BEACONs, the interlock, the state copy and its bench, the role swap, the
commands of the chain and the management cycle. -/

namespace Sys2Proof.Machine

open Sys2Proof

section
variable {s : State}

/-! ### Who acts (R313, R318, R319) -/

theorem exec_beaconLoss_none (h : s.mgmt.acting = true ∨ s.mgmt.master = 0x40#7) : exec .beaconLoss s = .next s :=
  congrArg Host.Outcome.next (if_pos (by simpa using h))

theorem exec_beaconLoss_follower (ha : s.mgmt.acting = false) (hm : s.mgmt.master ≠ 0x40#7) : exec .beaconLoss s =
    .next (((s.modMgmt fun m => { m with master := 0x40, hopE := none, hopW := none }).postMaster.holdSrc 3).noteUpstream.reselect) :=
  congrArg Host.Outcome.next (if_neg (by simp [ha, hm]))

/-- A package of a pair that nothing holds from acting, but for a bench in its START_WAIT. -/
def State.mayTakeOver (s : State) : Prop :=
  s.inPair = true ∧ s.chainOut = true ∧ s.mgmt.acting = false ∧ s.mgmt.sidelined = false ∧ s.inReset 36 = false ∧ s.mgmt.swap = none

/-- A bench in its START_WAIT. -/
def State.benchWaits (s : State) : Prop := s.rst.straps.chainRole = 3#2 ∧ s.mgmt.benchHeld = true

theorem State.holdFilter_eq : s.holdFilter =
    let v := s.modMgmt fun m => { m with holdIn := false }
    if !s.inPair || !s.chainOut || s.mgmt.acting || s.mgmt.sidelined || s.inReset 36 then v
    else if s.rst.straps.chainRole == 3#2 && s.mgmt.benchHeld then v
    else if s.mgmt.swap.isSome then v
    else v.startActing := rfl

theorem State.holdFilter_takesOver (h : s.mayTakeOver) (hb : ¬s.benchWaits) :
    s.holdFilter = (s.modMgmt fun m => { m with holdIn := false }).startActing := by
  obtain ⟨hp, hc, ha, hs, hr, hw⟩ := h
  rw [State.holdFilter_eq, if_neg (by simp [hp, hc, ha, hs, hr]), if_neg (by simpa [State.benchWaits] using hb), if_neg (by simp [hw])]

theorem State.holdFilter_held (h : ¬s.mayTakeOver ∨ s.benchWaits) :
    s.holdFilter = s.modMgmt fun m => { m with holdIn := false } := by
  rw [State.holdFilter_eq]
  dsimp only
  split
  · rfl
  split
  · rfl
  split
  · rfl
  · rename_i hfree hbench hswap
    simp only [Bool.or_eq_true, Bool.not_eq_true', not_or, Bool.not_eq_false, Bool.not_eq_true] at hfree
    obtain ⟨⟨⟨⟨hp, hc⟩, ha⟩, hs⟩, hr⟩ := hfree
    rcases h with h | ⟨hrole, hheld⟩
    · exact absurd ⟨hp, hc, ha, hs, hr, by simpa using hswap⟩ h
    · exact absurd (by simp [hrole, hheld]) hbench

theorem exec_benchStartWait_bench (hr : s.rst.straps.chainRole = 3#2) (hc : s.chainOut = true) :
    exec .benchStartWait s = .next (s.modMgmt fun m => { m with benchHeld := false }) :=
  congrArg Host.Outcome.next (if_pos (by simp [hr, hc]))

/-! ### Role swaps (R322) -/

theorem State.finishSwap_none (h : s.mgmt.swap = none) : s.finishSwap = s := by simp only [State.finishSwap, h]

/-- The signal of the new master and its first good copy end a swap. -/
theorem State.finishSwap_done {r : CmdRef} (h : s.mgmt.swap = some r) (hp : s.mgmt.swapPhase = 3) (hi : s.mgmt.holdIn = true)
    (hb : s.mgmt.copyBody ≠ []) (hg : s.mgmt.goodRun ≠ 0) : s.finishSwap =
      (s.modMgmt fun m => { m with swap := none, swapPhase := 0 }).complete r stOK s.mgmt.master.toNat s.mgmt.epoch.toNat := by
  simp [State.finishSwap, h, hp, hi, hb, hg]

theorem exec_masterHoldInAssert_alone {tie : Bool} (h : s.inPair = false) : exec (.masterHoldInAssert tie) s = .next s :=
  congrArg Host.Outcome.next (if_pos (by simp [h]))

/-- MASTER_HOLD_IN asserted in a pair: a bench that acts stops in a tie, and a role swap may end. -/
theorem exec_masterHoldInAssert_pair {tie : Bool} (h : s.inPair = true) : exec (.masterHoldInAssert tie) s = .next (
    let v := s.modMgmt fun m => { m with holdIn := true }
    (if tie && s.mgmt.acting && s.rst.straps.chainRole == 3#2 then v.stopActing else v).finishSwap) :=
  congrArg Host.Outcome.next (if_neg (by simp [h]))

theorem exec_masterHoldInAssert_stops {tie : Bool} (hp : s.inPair = true) (hw : s.mgmt.swap = none) (ht : tie = true)
    (ha : s.mgmt.acting = true) (hr : s.rst.straps.chainRole = 3#2) : exec (.masterHoldInAssert tie) s =
      .next ((s.modMgmt fun m => { m with holdIn := true }).modMgmt fun m => { m with acting := false, holdOut := false }) := by
  rw [exec_masterHoldInAssert_pair hp]
  dsimp only
  rw [if_pos (by simp [ht, ha, hr]), State.finishSwap_none (by exact hw)]
  rfl

theorem exec_masterHoldInAssert_stays {tie : Bool} (hp : s.inPair = true) (hw : s.mgmt.swap = none)
    (h : tie = false ∨ s.mgmt.acting = false ∨ s.rst.straps.chainRole ≠ 3#2) :
    exec (.masterHoldInAssert tie) s = .next (s.modMgmt fun m => { m with holdIn := true }) := by
  rw [exec_masterHoldInAssert_pair hp]
  dsimp only
  rw [if_neg (by rcases h with h | h | h <;> simp [h]), State.finishSwap_none (by exact hw)]

theorem exec_masterHoldInAssert_ends {r : CmdRef} (hp : s.inPair = true) (hw : s.mgmt.swap = some r) (hph : s.mgmt.swapPhase = 3)
    (hb : s.mgmt.copyBody ≠ []) (hg : s.mgmt.goodRun ≠ 0) : exec (.masterHoldInAssert false) s =
      .next ((s.modMgmt fun m => { m with holdIn := true, swap := none, swapPhase := 0 }).complete r stOK s.mgmt.master.toNat
        s.mgmt.epoch.toNat) := by
  rw [exec_masterHoldInAssert_pair hp]
  exact congrArg Host.Outcome.next (State.finishSwap_done (s := s.modMgmt fun m => { m with holdIn := true }) hw hph rfl hb hg)

theorem exec_roleSwapTimeout_none (h : s.mgmt.swap = none) : exec .roleSwapTimeout s = .next s := by
  show execRoleSwapTimeout s = _
  rw [execRoleSwapTimeout, h]

theorem exec_roleSwapTimeout_some {r : CmdRef} (h : s.mgmt.swap = some r) : exec .roleSwapTimeout s =
    .next ((s.modMgmt fun m => { m with swap := none, swapPhase := 0 }).complete r stCapacity noField 0) := by
  show execRoleSwapTimeout s = _
  rw [execRoleSwapTimeout, h]
  rfl

/-! ### Copies (R320, R321) -/

/-- Sending a frame touches nothing of the management unit but the number of the next one. -/
theorem State.sendOn_mgmt {p : Nat} {f : Frame} : (s.sendOn p f).mgmt = s.mgmt := by
  unfold State.sendOn
  dsimp only
  repeat' split
  all_goals rfl

theorem State.postEvt_mgmt (s : State) (fn ev st kind id d0 d1 : Nat) : (s.postEvt fn ev st kind id d0 d1).mgmt = s.mgmt := by
  rw [s.postEvt_only fn ev st kind id d0 d1]

/-- What the bench knows of its copies: SYNC, and those missed. -/
def State.bench (s : State) : Bool × Nat := (s.mgmt.sync, s.mgmt.missed)

theorem State.bench_congr {t : State} (h : t.mgmt = s.mgmt) : t.bench = s.bench := by rw [State.bench, h]; rfl

theorem State.nextSeq_bench : s.nextSeq.bench = s.bench := rfl

theorem State.sendLockResp_bench {n st holder : Nat} : (s.sendLockResp n st holder).bench = s.bench :=
  State.nextSeq_bench.trans (State.bench_congr State.sendOn_mgmt)

theorem State.complete_bench {r : CmdRef} {st r0 r1 : Nat} : (s.complete r st r0 r1).bench = s.bench :=
  State.bench_congr (by rw [s.complete_only r st r0 r1])

theorem State.takeLockResp_bench {n st : Nat} : (s.takeLockResp n st).bench = s.bench := by
  unfold State.takeLockResp
  split
  · rfl
  · dsimp only
    repeat' split
    all_goals exact State.complete_bench

theorem State.answerChain_bench {n st holder : Nat} : (s.answerChain n st holder).bench = s.bench := by
  unfold State.answerChain
  split
  · exact State.takeLockResp_bench
  · exact State.sendLockResp_bench

/-- Grants sent leave SYNC and the count of missed copies alone. -/
theorem State.sendGrants_bench {k : Nat} : (s.sendGrants k).bench = s.bench := by
  refine (State.forEach_same State.bench (fun u e => ?_) _ _).trans rfl
  split
  · exact State.answerChain_bench
  · rfl

theorem State.loseSync_bench : s.loseSync.bench = (false, s.mgmt.missed) := by
  unfold State.loseSync
  split
  · rename_i h
    exact congrArg (fun b => (b, s.mgmt.missed)) (by simpa using h)
  · exact State.sendGrants_bench.trans (State.bench_congr (State.postEvt_mgmt _ _ _ _ _ _ _ _))

/-- A copy that is missing or bad clears SYNC and is counted. -/
theorem State.badCopy_bench : s.badCopy.bench = (false, satTo 255 (s.mgmt.missed + 1)) := State.loseSync_bench

/-- The third good copy in a row is SYNC. -/
theorem State.goodCopy_third (hg : s.mgmt.goodRun = 2) (hs : s.mgmt.sync = false) : s.goodCopy.mgmt =
    { s.mgmt with goodRun := 3, sinceGood := 0, sync := true } := by
  rw [State.goodCopy, hg, hs]
  dsimp only
  rw [if_pos (by decide), State.postEvt_mgmt]
  exact congrArg (fun b => { s.mgmt with goodRun := 3, sinceGood := 0, sync := b }) (Bool.or_true _)

theorem exec_stateCopy_ignored {epoch : BitVec 16} {body : List Byte} {crcOk : Bool}
    (h : s.mgmt.acting = true ∨ s.twinEn = false ∨ s.mgmt.twinUp = false) : exec (.stateCopy epoch body crcOk) s = .next s :=
  congrArg Host.Outcome.next (if_pos (by simpa [or_assoc] using h))

/-- A copy at a bench: its CRC is returned, and a good one is taken. -/
theorem exec_stateCopy_bench {epoch : BitVec 16} {body : List Byte} {crcOk : Bool} (ha : s.mgmt.acting = false) (he : s.twinEn = true)
    (hu : s.mgmt.twinUp = true) : exec (.stateCopy epoch body crcOk) s = .next (
      let v := s.emit (.twinCrc (BitVec.ofNat 32 (crc32 body)))
      if !crcOk then v.badCopy
      else (v.modMgmt fun m => { m with copyBody := le 2 epoch.toNat ++ body.drop 2, copies := m.copies + 1 }).goodCopy.finishSwap) :=
  congrArg Host.Outcome.next (if_neg (by simp [ha, he, hu]))

theorem exec_stateCopy_third {epoch : BitVec 16} {body : List Byte} (ha : s.mgmt.acting = false) (he : s.twinEn = true)
    (hu : s.mgmt.twinUp = true) (hw : s.mgmt.swap = none) (hg : s.mgmt.goodRun = 2) (hs : s.mgmt.sync = false) :
    ∃ t, exec (.stateCopy epoch body true) s = .next t ∧ t.mgmt.sync = true := by
  refine ⟨_, exec_stateCopy_bench ha he hu, ?_⟩
  rw [if_neg (by simp)]
  generalize hv : (s.emit (.twinCrc (BitVec.ofNat 32 (crc32 body)))).modMgmt (fun m =>
    { m with copyBody := le 2 epoch.toNat ++ body.drop 2, copies := m.copies + 1 }) = v
  have hm : v.mgmt = { s.mgmt with copyBody := le 2 epoch.toNat ++ body.drop 2, copies := s.mgmt.copies + 1 } := by rw [← hv]; rfl
  have hthird := State.goodCopy_third (s := v) (by rw [hm]; exact hg) (by rw [hm]; exact hs)
  rw [State.finishSwap_none (by rw [hthird, hm]; exact hw), hthird]

theorem exec_stateCopy_bad {epoch : BitVec 16} {body : List Byte} (ha : s.mgmt.acting = false) (he : s.twinEn = true)
    (hu : s.mgmt.twinUp = true) : ∃ t, exec (.stateCopy epoch body false) s = .next t ∧ t.mgmt.sync = false ∧
      t.mgmt.missed = satTo 255 (s.mgmt.missed + 1) :=
  have hbench := State.badCopy_bench (s := s.emit (.twinCrc (BitVec.ofNat 32 (crc32 body))))
  ⟨_, exec_stateCopy_bench ha he hu, congrArg Prod.fst hbench, congrArg Prod.snd hbench⟩

theorem exec_stateCopyAck_ignored {crcOk : Bool} (h : s.mgmt.acting = false ∨ s.inPair = false) : exec (.stateCopyAck crcOk) s = .next s :=
  congrArg Host.Outcome.next (if_pos (by simpa using h))

theorem exec_stateCopyAck_master {crcOk : Bool} (ha : s.mgmt.acting = true) (hp : s.inPair = true) :
    exec (.stateCopyAck crcOk) s = .next (if !crcOk then s.badCopy else
      let v := s.goodCopy.sendGrants s.mgmt.copied
      if v.mgmt.swapPhase = 2 then
        v.modMgmt fun m => { m with acting := false, holdOut := false, swapPhase := 3, copyBody := [], goodRun := 0, sync := false }
      else v) := by
  show execStateCopyAck crcOk s = _
  rw [execStateCopyAck, if_neg (by simp [ha, hp])]
  simp only [beq_iff_eq]
  rfl

theorem exec_missingCopy_counts (hp : s.inPair = true) (h : s.mgmt.sync = true ∨ s.mgmt.twinUp = true) :
    exec .missingCopy s = .next s.badCopy :=
  congrArg Host.Outcome.next (if_pos (by simp [hp, h]))

theorem exec_missingCopy_ignored (h : s.inPair = false ∨ (s.mgmt.sync = false ∧ s.mgmt.twinUp = false)) :
    exec .missingCopy s = .next s :=
  congrArg Host.Outcome.next (if_neg (by rcases h with h | ⟨hs, hu⟩ <;> simp [*]))

/-! ### The commands of the chain (R314, R322, R323) -/

/-- Pieces of one length, joined. -/
theorem length_flatMap_of_length {α β : Type} {f : α → List β} {k : Nat} (h : ∀ a, (f a).length = k) (l : List α) :
    (l.flatMap f).length = l.length * k := by
  induction l with
  | nil => rw [List.flatMap_nil, List.length_nil, List.length_nil, Nat.zero_mul]
  | cons a l ih => rw [List.flatMap_cons, List.length_append, h, ih, List.length_cons, Nat.succ_mul, Nat.add_comm]

theorem rows_length (ws : List Nat) : (rows ws).length = ws.length * 4 :=
  length_flatMap_of_length (f := le32) (k := 4) (fun _ => rfl) ws

theorem State.tableWords_length : s.tableWords.length = 256 :=
  (length_flatMap_of_length (f := fun a => (s.addrEnt a).words a) (k := 4) (fun _ => rfl) (List.range 64)).trans (by rw [List.length_range])

theorem State.topoRes_length : (rows s.tableWords).length = 1024 := by rw [rows_length, State.tableWords_length]

theorem State.writeRes_short {c : RingCmd} {r : CmdRef} {bs : List Byte} {k : State → State} (h : c.resLen < bs.length) :
    s.writeRes c r bs k = s.complete r stConflict 0x1C 0 :=
  if_pos h

theorem State.writeRes_unmapped {c : RingCmd} {r : CmdRef} {bs : List Byte} {k : State → State} {w : State} (hlen : bs.length ≤ c.resLen)
    (ht : s.translate c.fn c.resIova.toNat true c.resAcc = (w, none)) : s.writeRes c r bs k = w.complete r stDecerr 0x14 0 := by
  rw [State.writeRes, if_neg (Nat.not_lt.mpr hlen), ht]
  rfl

section
variable {c : RingCmd} (hs : s.starts true c = true)
include hs

theorem exec_chainRoleSwap_eq : exec (.chainRoleSwap c) s = .next (
    let u := s.started c
    if !u.mgmt.acting || !u.inPair || !u.mgmt.sync || u.mgmt.swap.isSome then u.refuse (s.refOf c 0x4B) stConflict noField 0
    else u.modMgmt fun m => { m with swap := some (s.refOf c 0x4B), swapPhase := 1 }) :=
  congrArg Host.Outcome.next (startCmd_starts hs)

theorem exec_chainRoleSwap_swaps (h : (s.started c).mgmt.acting = true ∧ (s.started c).inPair = true ∧ (s.started c).mgmt.sync = true ∧
    (s.started c).mgmt.swap = none) : exec (.chainRoleSwap c) s =
      .next ((s.started c).modMgmt fun m => { m with swap := some (s.refOf c 0x4B), swapPhase := 1 }) := by
  obtain ⟨ha, hp, hy, hw⟩ := h
  exact (exec_chainRoleSwap_eq hs).trans (congrArg Host.Outcome.next (if_neg (by simp [ha, hp, hy, hw])))

theorem exec_chainRoleSwap_refused (h : ¬((s.started c).mgmt.acting = true ∧ (s.started c).inPair = true ∧ (s.started c).mgmt.sync = true ∧
    (s.started c).mgmt.swap = none)) : exec (.chainRoleSwap c) s = .next ((s.started c).complete (s.refOf c 0x4B) stConflict noField 0) := by
  refine (exec_chainRoleSwap_eq hs).trans (congrArg Host.Outcome.next (if_pos ?_))
  refine Decidable.byContradiction fun hfree => h ?_
  simp only [Bool.or_eq_true, Bool.not_eq_true', not_or, Bool.not_eq_false, Option.not_isSome_iff_eq_none] at hfree
  obtain ⟨⟨⟨ha, hp⟩, hy⟩, hw⟩ := hfree
  exact ⟨ha, hp, hy, hw⟩

theorem exec_chainReenum_refused (ha : (s.started c).mgmt.acting = false) :
    exec (.chainReenum c) s = .next ((s.started c).complete (s.refOf c 0x48) stConflict noField 0) :=
  congrArg Host.Outcome.next ((startCmd_starts hs).trans (if_pos (by simp [ha])))

theorem exec_chainReenum_master (ha : (s.started c).mgmt.acting = true) : exec (.chainReenum c) s =
    .next (((s.started c).modMgmt fun m =>
      { m with enumOpen := true, reenum := [], reenumCmds := m.reenumCmds ++ [s.refOf c 0x48],
               table := m.table.map fun e => (e.1, { e.2 with valid := false }) }).broadcast 0x02 0 [1]) :=
  congrArg Host.Outcome.next ((startCmd_starts hs).trans (if_neg (by simp [ha])))

theorem exec_chainTopoRead_eq : exec (.chainTopoRead c) s = .next ((s.started c).writeRes c (s.refOf c 0x4A) (rows (s.started c).tableWords)
    fun u => u.complete (s.refOf c 0x4A) stOK u.validAddrs.length u.mgmt.epoch.toNat) :=
  congrArg Host.Outcome.next (startCmd_starts hs)

theorem exec_chainTopoRead_short (h : c.resLen < 1024) :
    exec (.chainTopoRead c) s = .next ((s.started c).complete (s.refOf c 0x4A) stConflict 0x1C 0) :=
  (exec_chainTopoRead_eq hs).trans (congrArg Host.Outcome.next (State.writeRes_short (by rw [State.topoRes_length]; exact h)))

theorem exec_chainTopoRead_unmapped {w : State} (h : 1024 ≤ c.resLen)
    (ht : (s.started c).translate c.fn c.resIova.toNat true c.resAcc = (w, none)) :
    exec (.chainTopoRead c) s = .next (w.complete (s.refOf c 0x4A) stDecerr 0x14 0) :=
  (exec_chainTopoRead_eq hs).trans (congrArg Host.Outcome.next (State.writeRes_unmapped (by rw [State.topoRes_length]; exact h) ht))

theorem exec_chainTopoRead_writes {w : State} {a : Nat} (h : 1024 ≤ c.resLen)
    (ht : (s.started c).translate c.fn c.resIova.toNat true c.resAcc = (w, some a)) : exec (.chainTopoRead c) s =
      .next ((w.emit (.hostWrite c.fn c.resIova.toNat (rows (s.started c).tableWords))).complete (s.refOf c 0x4A) stOK
        (s.started c).validAddrs.length (s.started c).mgmt.epoch.toNat) := by
  have hmgmt : w.mgmt = (s.started c).mgmt := by rw [State.translate_some_only ht]
  have htable : w.validAddrs = (s.started c).validAddrs := by rw [State.translate_some_only ht]; rfl
  rw [exec_chainTopoRead_eq hs, State.writeRes_fits (by rw [State.topoRes_length]; exact h) ht, ← hmgmt, ← htable]
  rfl

end

/-! ### The management cycle -/

/-- With no ring lost, the master has nothing to be told of. -/
theorem State.tellLostRings_none (h : s.mgmt.lostRings = []) : s.tellLostRings = s := by
  have hs : s.modMgmt (fun m => { m with lostRings := [] }) = s := by
    show { s with mgmt := { s.mgmt with lostRings := [] } } = s
    rw [← h]
  rw [State.tellLostRings, h, hs]
  rfl

theorem exec_managementCycle_reset (h : s.inReset 36 = true) : exec .managementCycle s = .next s :=
  congrArg Host.Outcome.next (if_pos h)

theorem exec_managementCycle_runs (hr : s.inReset 36 = false) (hl : s.mgmt.lostRings = []) :
    exec .managementCycle s = .next (if s.mgmt.acting then s.endCycle.startCycle else s.dropEnum) := by
  show execManagementCycle s = _
  rw [execManagementCycle, if_neg (by simp [hr]), State.tellLostRings_none hl]

/-- With no re-enumeration to refuse, one that was open ends. -/
theorem State.dropEnum_none (h : s.mgmt.reenumCmds = []) : s.dropEnum = s.modMgmt fun m => { m with enumOpen := false, reenum := [] } := by
  rw [State.dropEnum, h]
  show { s with mgmt := { s.mgmt with enumOpen := false, reenum := [], reenumCmds := [] } } = _
  rw [← h]
  rfl

end

/-- Settles O58: each command by the branch of its rule; the bench's SYNC through what a copy leaves of it. -/
theorem mastersTwinsAndTheirCycle : Obligations.MastersTwinsAndTheirCycle := by
  intro epoch body crcOk tie c s
  refine ⟨exec_beaconLoss_none, exec_beaconLoss_follower, ⟨?_, ?_⟩, exec_benchStartWait_bench, exec_masterHoldInAssert_alone, ?_, ?_,
    exec_stateCopy_ignored, ?_, exec_stateCopyAck_ignored, ?_, exec_missingCopy_counts, exec_missingCopy_ignored,
    exec_managementCycle_reset, ?_, fun r => exec_roleSwapTimeout_some, exec_roleSwapTimeout_none, ?_⟩
  · exact fun hfree hheld => congrArg Host.Outcome.next (State.holdFilter_takesOver hfree hheld)
  · exact fun h => congrArg Host.Outcome.next (State.holdFilter_held h)
  · exact fun hp hw => ⟨fun ht ha hr => exec_masterHoldInAssert_stops hp hw ht ha hr, fun h => exec_masterHoldInAssert_stays hp hw h⟩
  · exact fun r hp hw hph hb hg => exec_masterHoldInAssert_ends hp hw hph hb hg
  · exact fun ha he hu => ⟨exec_stateCopy_bench ha he hu, exec_stateCopy_bench ha he hu, exec_stateCopy_third ha he hu,
      exec_stateCopy_bad ha he hu⟩
  · intro ha hp
    refine ⟨exec_stateCopyAck_master ha hp, fun h => ?_, fun h => ?_⟩
    · exact (exec_stateCopyAck_master ha hp).trans (congrArg Host.Outcome.next (if_neg h))
    · exact (exec_stateCopyAck_master ha hp).trans (congrArg Host.Outcome.next (if_pos h))
  · intro hr hl
    refine ⟨fun ha => ?_, fun ha hc => ?_⟩
    · rw [exec_managementCycle_runs hr hl, if_pos ha]
    · rw [exec_managementCycle_runs hr hl, if_neg (by simp [ha]), State.dropEnum_none hc]
  · intro hs
    refine ⟨exec_chainRoleSwap_swaps hs, exec_chainRoleSwap_refused hs, exec_chainReenum_refused hs, exec_chainReenum_master hs,
      exec_chainTopoRead_short hs, fun w => exec_chainTopoRead_unmapped hs, fun w a => exec_chainTopoRead_writes hs⟩

end Sys2Proof.Machine
end

section
/-! SUPPORT. Proofs about the bring-up of lanes: what an ingest group does at each event of Table 2.4, how the errors of a lane
take it out of service and back, and the way of an output group to ACTIVE. -/

namespace Sys2Proof.Machine

open Sys2Proof

section
variable {s : State} {x y g : Nat}

/-! ### Reading a lane or a group after a write, in a table of any form -/

theorem State.modLane_lane_ne {f : Lane → Lane} (h : (f (s.lane x)).st ≠ .down) : (s.modLane x f).lane x = f (s.lane x) :=
  getT_setT_ne _ _ _ _ (ne_of_apply_ne Lane.st h)

theorem State.modLane_lane_other {f : Lane → Lane} (h : y ≠ x) : (s.modLane x f).lane y = s.lane y := getT_setT_other _ _ _ _ _ h

theorem State.modGroup_group_ne {f : Group → Group} (h : (f (s.group g)).st ≠ .disabled) :
    (s.modGroup g f).group g = f (s.group g) :=
  getT_setT_ne _ _ _ _ (ne_of_apply_ne Group.st h)

/-- What a rewrite does depends only on its value at what it rewrites. -/
theorem State.modGroup_congr {f f' : Group → Group} (h : f (s.group g) = f' (s.group g)) : s.modGroup g f = s.modGroup g f' :=
  congrArg (fun v => { s with groups := setT {} s.groups g v }) h

theorem State.modOutGrp_outGrp_ne {f : OutGroup → OutGroup} (h : (f (s.outGrp g)).st ≠ .disabled) :
    (s.modOutGrp g f).outGrp g = f (s.outGrp g) :=
  getT_setT_ne _ _ _ _ (ne_of_apply_ne OutGroup.st h)

/-- Rewrites of different lanes that take each out of its reset state do not disturb each other. -/
theorem State.forEach_modLane_lane {f : Nat → Lane → Lane} (hf : ∀ z l, (f z l).st ≠ .down) {l : List Nat} (hn : l.Nodup) :
    (s.forEach l fun s z => s.modLane z (f z)).lane x = if x ∈ l then f x (s.lane x) else s.lane x := by
  induction l generalizing s with
  | nil => rfl
  | cons z l ih =>
    obtain ⟨hz, hl⟩ := List.nodup_cons.mp hn
    refine (ih hl (s := s.modLane z (f z))).trans ?_
    by_cases hx : x = z
    · subst hx
      simp [hz, State.modLane_lane_ne (hf _ _)]
    · simp [hx, State.modLane_lane_other hx]

/-- Lanes that are cleared read as cleared, the others as before. -/
theorem State.forEach_clearOut {l : List Nat} (hw : wfT {} s.outLanes = true) :
    (s.forEach l fun s z => s.modOutLane z fun _ => {}).outLane x = if x ∈ l then {} else s.outLane x := by
  induction l generalizing s with
  | nil => rfl
  | cons z l ih =>
    refine (ih (s := s.modOutLane z fun _ => {}) (modT_wf hw z fun _ => {})).trans ?_
    rw [State.modOutLane_outLane hw]
    by_cases hx : x = z <;> simp [hx]

theorem mem_grpLanes : x ∈ grpLanes g ↔ x / 8 = g := by
  simp only [grpLanes, List.mem_map, List.mem_range]
  exact ⟨fun ⟨a, ha, hx⟩ => by omega, fun h => ⟨x % 8, by omega⟩⟩

theorem grpLanes_nodup : (grpLanes g).Nodup := List.nodup_range.map fun a b h => by simpa using h

theorem State.postLane_lane {id what : Nat} : (s.postLane id what).lane x = s.lane x := by
  rw [State.postLane, s.postEvt_only]
  rfl

theorem State.postLane_group {id what : Nat} : (s.postLane id what).group g = s.group g := by
  rw [State.postLane, s.postEvt_only]
  rfl

/-! ### The state of a group (Tables 2.4, 2.9) -/

theorem State.gradeGroup_only : let t := s.gradeGroup g; t = { s with groups := t.groups } := by
  unfold State.gradeGroup
  dsimp only
  split <;> rfl

theorem State.gradeGroup_lane : (s.gradeGroup g).lane x = s.lane x := by
  rw [State.gradeGroup_only]
  rfl

/-- From CAPS on, a group with an ACTIVE lane is ACTIVE. -/
theorem State.gradeGroup_active (hg : (s.group g).st = .caps ∨ (s.group g).st = .active) (hx : x / 8 = g)
    (ha : (s.lane x).st = .active) : s.gradeGroup g = s.modGroup g fun y => { y with st := .active } := by
  have hany : ((grpLanes g).any fun l => (s.lane l).st == .active) = true :=
    List.any_eq_true.mpr ⟨x, mem_grpLanes.mpr hx, by simp [ha]⟩
  rw [State.gradeGroup, if_pos (by simpa using hg), hany]
  rfl

/-- A retry is counted, and the third makes the group FAILED. -/
theorem State.retryGroup_group : (s.retryGroup g).group g =
    { s.group g with retry := (s.group g).retry + 1, st := if 3 ≤ (s.group g).retry + 1 then .failed else .detect } := by
  have hv : (s.modGroup g fun y => { y with retry := (s.group g).retry + 1, st := .detect }).group g =
      { s.group g with retry := (s.group g).retry + 1, st := .detect } := State.modGroup_group_ne (by simp)
  unfold State.retryGroup
  dsimp only
  split
  · rw [State.postLane_group, State.modGroup_group_ne (by simp), hv]
  · exact hv

theorem State.retryGroup_lane : (s.retryGroup g).lane x = s.lane x := by
  unfold State.retryGroup
  dsimp only
  split
  · exact State.postLane_lane
  · rfl

/-- The end of a step of bring-up that left `t`: the lanes that were in `was` and are in the mask are in `now`, the others DEAD;
with one or more of them the group is in `st`, with none it retries. -/
def State.StepEnds (s t : State) (g : Nat) (was now : LaneState) (mask : Nat) (st : GrpState) : Prop :=
  (∀ l ∈ grpLanes g, (t.lane l).st = if (s.lane l).st = was ∧ bit mask (l % 8) = true then now else .dead) ∧
  ((∃ l ∈ grpLanes g, (s.lane l).st = was ∧ bit mask (l % 8) = true) → (t.group g).st = st) ∧
  ((∀ l ∈ grpLanes g, ¬ ((s.lane l).st = was ∧ bit mask (l % 8) = true)) → (t.group g).retry = (s.group g).retry + 1 ∧
    (t.group g).st = if 3 ≤ (s.group g).retry + 1 then .failed else .detect)

/-- Lane `z` after such a step. -/
def Lane.stepped (was now : LaneState) (mask z : Nat) (l : Lane) : Lane :=
  { l with st := if l.st == was && bit mask (z % 8) then now else .dead }

theorem Lane.stepped_st {was now : LaneState} {mask z : Nat} {l : Lane} :
    (l.stepped was now mask z).st = if l.st = was ∧ bit mask (z % 8) = true then now else .dead := by
  simp [Lane.stepped]

/-- The lanes have taken the step, the group not yet. -/
def State.lanesStepped (s : State) (g : Nat) (was now : LaneState) (mask : Nat) : State :=
  s.forEach (grpLanes g) fun s z => s.modLane z (Lane.stepped was now mask z)

theorem State.stepLanes_eq {was now : LaneState} {mask : Nat} {st : GrpState} : s.stepLanes g was now mask st =
    let v := s.lanesStepped g was now mask
    if (grpLanes g).any fun l => (v.lane l).st == now then v.modGroup g fun y => { y with st := st } else v.retryGroup g := rfl

theorem State.lanesStepped_group {was now : LaneState} {mask : Nat} : (s.lanesStepped g was now mask).group g = s.group g :=
  State.forEach_same (fun t => t.group g) (f := fun s z => s.modLane z (Lane.stepped was now mask z)) (fun _ _ => rfl) _ _

section
variable {was now : LaneState} {mask : Nat} (hnow : now ≠ .down)
include hnow

theorem State.lanesStepped_lane (hx : x ∈ grpLanes g) : ((s.lanesStepped g was now mask).lane x).st =
    if (s.lane x).st = was ∧ bit mask (x % 8) = true then now else .dead := by
  have hup (z : Nat) (l : Lane) : (Lane.stepped was now mask z l).st ≠ .down := by
    rw [Lane.stepped_st]
    split <;> simp [hnow]
  rw [State.lanesStepped, State.forEach_modLane_lane hup grpLanes_nodup, if_pos hx, Lane.stepped_st]

/-- A lane is left exactly where one was in the state and in the mask. -/
theorem State.lanesStepped_any (hdead : now ≠ .dead) :
    ((grpLanes g).any fun l => ((s.lanesStepped g was now mask).lane l).st == now) = true ↔
      ∃ l ∈ grpLanes g, (s.lane l).st = was ∧ bit mask (l % 8) = true := by
  rw [List.any_eq_true]
  refine exists_congr fun l => and_congr_right fun hl => ?_
  rw [State.lanesStepped_lane hnow hl, beq_iff_eq]
  split <;> simp_all [Ne.symm hdead]

theorem State.stepLanes_ends {st : GrpState} (hdead : now ≠ .dead) (hst : st ≠ .disabled) :
    s.StepEnds (s.stepLanes g was now mask st) g was now mask st := by
  have hlane (l : Nat) (hl : l ∈ grpLanes g) := State.lanesStepped_lane (s := s) (was := was) (mask := mask) hnow hl
  have hgrp := State.lanesStepped_group (s := s) (g := g) (was := was) (now := now) (mask := mask)
  have hany := State.lanesStepped_any (s := s) (g := g) (was := was) (mask := mask) hnow hdead
  rw [State.stepLanes_eq]
  generalize s.lanesStepped g was now mask = v at hlane hgrp hany ⊢
  by_cases h : ∃ l ∈ grpLanes g, (s.lane l).st = was ∧ bit mask (l % 8) = true
  · rw [if_pos (hany.mpr h)]
    refine ⟨hlane, fun _ => ?_, fun hno => ?_⟩
    · rw [State.modGroup_group_ne hst]
    · obtain ⟨l, hl, hmade⟩ := h
      exact absurd hmade (hno l hl)
  · rw [if_neg (mt hany.mp h)]
    refine ⟨fun l hl => ?_, fun hmade => absurd hmade h, fun _ => ?_⟩
    · rw [State.retryGroup_lane, hlane l hl]
    · rw [State.retryGroup_group, hgrp]
      exact ⟨rfl, rfl⟩

end

/-! ### Clock windows of a group (R55) -/

theorem goodRun_good {n count : Nat} (hlo : 9990 ≤ count) (hhi : count ≤ 10010) : goodRun n count = satTo 16 (n + 1) :=
  if_pos (by simp [hlo, hhi])

theorem goodRun_bad {n count : Nat} (h : count < 9950 ∨ 10050 < count) : goodRun n count = 0 :=
  if_neg (by simp only [Bool.and_eq_true, decide_eq_true_eq]; omega)

theorem badRun_bad {n count : Nat} (h : count < 9950 ∨ 10050 < count) : badRun n count = satTo 2 (n + 1) :=
  if_pos (by simpa using h)

/-- A window of an enabled group: a rejected clock first, then an accepted one. -/
theorem State.groupWindow_enabled {count : Nat} (h : (s.group g).st ≠ .disabled) : s.groupWindow g count =
    let y := s.group g
    let v := s.modGroup g fun y => { y with good := goodRun y.good count, bad := badRun y.bad count }
    if y.clkOk && badRun y.bad count == 2 then v.rejectClock g
    else if goodRun y.good count == 16 || (y.clkOk && y.st == .detect) then v.acceptClock g
    else v := by
  rw [State.groupWindow, if_neg (by simpa using h)]
  dsimp only
  rw [State.modGroup_group_ne h]

/-- The 16th good window of a group in DETECT. -/
theorem State.groupWindow_accepts {count : Nat} (hst : (s.group g).st = .detect) (hclk : (s.group g).clkOk = false)
    (hgood : (s.group g).good = 15) (hlo : 9990 ≤ count) (hhi : count ≤ 10010) : s.groupWindow g count =
      (s.modGroup g fun y => { y with good := goodRun y.good count, bad := badRun y.bad count }).acceptClock g := by
  rw [State.groupWindow_enabled (by simp [hst])]
  simp [hclk, hgood, goodRun_good hlo hhi, satTo]

/-- CLOCK_ACCEPT of a group in DETECT. -/
theorem State.acceptClock_group (h : (s.group g).st = .detect) :
    (s.acceptClock g).group g = { s.group g with clkOk := true, absent := false, st := .train } := by
  rw [State.acceptClock, State.modGroup_group_ne (by simp [h])]
  simp [h]

/-- The second bad window in a row of an ACTIVE group. -/
theorem State.groupWindow_rejects {count : Nat} (hst : (s.group g).st = .active) (hclk : (s.group g).clkOk = true)
    (hbad : (s.group g).bad = 1) (hcount : count < 9950 ∨ 10050 < count) : s.groupWindow g count =
      (s.modGroup g fun y => { y with good := 0, bad := 2 }).rejectClock g := by
  rw [State.groupWindow_enabled (by simp [hst])]
  dsimp only
  rw [badRun_bad hcount, hbad, hclk, if_pos (by decide)]
  refine congrArg (State.rejectClock · g) (State.modGroup_congr ?_)
  rw [goodRun_bad hcount, badRun_bad hcount, hbad]
  rfl

/-- CLOCK_REJECT of an ACTIVE group. -/
theorem State.rejectClock_active (h : (s.group g).st = .active) : s.rejectClock g =
    (((s.modGroup g fun y => { y with clkOk := false }).forEach (grpLanes g) State.closeLane).modGroup g
      fun y => { y with st := .detect }).tryClose (g / 9) := by
  rw [State.rejectClock, if_pos (by simp [h])]

end

/-! ### TSB sets (R58) -/

section
variable {s : State} {lane : Fin 288} {x : Tsb}

/-- Matching sets on a lane in CAPS, of a group in CAPS or ACTIVE. -/
theorem exec_tsbSetsReceived_match (hl : (s.lane lane).st = .caps)
    (hg : (s.group (lane / 8)).st = .caps ∨ (s.group (lane / 8)).st = .active) (hx : s.tsbOk lane x = true) :
    ∃ t, exec (.tsbSetsReceived lane x) s = .next t ∧ t = { s with lanes := t.lanes, groups := t.groups } ∧
      (t.lane lane).st = .active ∧ (t.group (lane / 8)).st = .active ∧ (t.group (lane / 8)).srcId = x.sourceId := by
  generalize hv : (if x.laneNo.toNat != lane % 8 then s.modGroup (lane / 8) fun y => { y with laneOrder := true } else s) = v
  have honly : v = { s with groups := v.groups } := by
    rw [← hv]
    split <;> rfl
  have hgv : (v.group (lane / 8)).st = (s.group (lane / 8)).st := by
    rw [← hv]
    split
    · rw [State.modGroup_group_ne (by rcases hg with h | h <;> simp [h])]
    · rfl
  have hok : v.tsbOk lane x = true := by
    rw [honly]
    exact hx
  generalize hu : ((v.modLane lane fun l => { l with st := .active }).modGroup (lane / 8) fun y => { y with srcId := x.sourceId }) = u
  have hlu : (u.lane lane).st = .active := by
    rw [← hu]
    exact congrArg Lane.st (State.modLane_lane_ne (s := v) (f := fun l => { l with st := .active }) (by simp))
  have hgu : u.group (lane / 8) = { v.group (lane / 8) with srcId := x.sourceId } := by
    rw [← hu]
    exact State.modGroup_group_ne (f := fun y => { y with srcId := x.sourceId })
      (show (v.group (lane / 8)).st ≠ .disabled by rcases hg with h | h <;> simp [hgv, h])
  have hgrade := State.gradeGroup_active (s := u) (g := lane / 8) (by rwa [hgu, hgv]) rfl hlu
  have hexec : exec (.tsbSetsReceived lane x) s = .next (u.gradeGroup (lane / 8)) := by
    refine congrArg Host.Outcome.next ?_
    rw [State.tsbSets, if_neg (by simp [hl])]
    dsimp only
    rw [hv, if_pos hok, hu]
  refine ⟨_, hexec, ?_, ?_⟩
  · rw [hgrade, ← hu, honly]
    rfl
  · rw [hgrade, State.modGroup_group_ne (by simp), hgu]
    exact ⟨hlu, rfl, rfl⟩

/-- Sets of the right lane number that do not match. -/
theorem exec_tsbSetsReceived_mismatch (hl : (s.lane lane).st = .caps) (hx : s.tsbOk lane x = false) (hn : x.laneNo.toNat = lane % 8) :
    exec (.tsbSetsReceived lane x) s = .next ((s.modGroup (lane / 8) fun y => { y with capsMis := true }).postLane lane 4) := by
  refine congrArg Host.Outcome.next ?_
  rw [State.tsbSets, if_neg (by simp [hl])]
  simp [hn, hx]

end

/-- Settles O33, by the state of the group: clock windows in DETECT and ACTIVE, the ends of TRAIN and LOCK, TSB sets in CAPS. -/
theorem ingestGroupsComeUp : Obligations.IngestGroupsComeUp := by
  intro g count m lane x s made
  refine ⟨fun hst hclk => ⟨congrArg Host.Outcome.next (if_pos (by simp [hst, hclk])), fun hgood hlo hhi => ?accept⟩,
    fun hclk hbad hst hcount => ?reject, fun hst => ?train, fun hst => ?lock,
    fun hl hg => ⟨exec_tsbSetsReceived_match hl hg, exec_tsbSetsReceived_mismatch hl⟩⟩
  case accept =>
    have hv := State.modGroup_group_ne (s := s) (g := g)
      (f := fun y => { y with good := goodRun y.good count, bad := badRun y.bad count }) (by simp [hst])
    refine ⟨_, congrArg Host.Outcome.next (State.groupWindow_accepts hst hclk hgood hlo hhi), rfl, ?_⟩
    rw [State.acceptClock_group (by rw [hv]; exact hst)]
    exact ⟨rfl, rfl, rfl⟩
  case reject =>
    refine congrArg Host.Outcome.next ((State.groupWindow_rejects hst hclk hbad hcount).trans (State.rejectClock_active ?_))
    rw [State.modGroup_group_ne (by simp [hst])]
    exact hst
  case train =>
    have hstep (mask : Nat) : made .down .centred mask .lock (s.stepLanes g .down .centred mask .lock) :=
      State.stepLanes_ends (by decide) (by decide) (by decide)
    exact ⟨⟨_, congrArg Host.Outcome.next (if_pos (by simp [hst])), hstep _⟩,
      ⟨_, congrArg Host.Outcome.next (if_pos (by simp [hst])), hstep _⟩⟩
  case lock =>
    have hstep (mask : Nat) : made .centred .caps mask .caps (s.stepLanes g .centred .caps mask .caps) :=
      State.stepLanes_ends (by decide) (by decide) (by decide)
    exact ⟨⟨_, congrArg Host.Outcome.next (if_pos (by simp [hst])), hstep _⟩,
      ⟨_, congrArg Host.Outcome.next (if_pos (by simp [hst])), hstep _⟩⟩

/-! ### Lane errors and relock (R56), and output groups (R57) -/

section
variable {s : State} {g : Fin 8}

theorem exec_outRxDetect_detected {det : BitVec 8} (hst : (s.outGrp g).st = .detect) (hdet : det ≠ 0) : exec (.outRxDetect g det) s =
    .next (s.modOutGrp g fun y => { y with st := .train, detected := det, dead := ~~~det }) :=
  congrArg Host.Outcome.next (if_pos (by simpa [hst] using hdet))

theorem exec_outTrainEnd_train (hst : (s.outGrp g).st = .train) :
    exec (.outTrainEnd g) s = .next (s.modOutGrp g fun y => { y with st := .caps }) :=
  congrArg Host.Outcome.next (if_pos (by simp [hst]))

theorem exec_outCapsEnd_caps (hst : (s.outGrp g).st = .caps) : exec (.outCapsEnd g) s =
    .next ((s.forEach (grpLanes g) fun s x => s.modOutLane x fun _ => {}).modOutGrp g fun y =>
      { y with st := .active, active := y.detected }) :=
  congrArg Host.Outcome.next (if_pos (by simp [hst]))

/-- Clearing output lanes leaves the rest. -/
theorem State.forEach_clearOut_only {l : List Nat} :
    let t := s.forEach l fun s x => s.modOutLane x fun _ => {}
    t = { s with outLanes := t.outLanes } := by
  induction l generalizing s with
  | nil => rfl
  | cons z l ih => exact (ih (s := s.modOutLane z fun _ => {})).trans rfl

end

/-- Settles O34, event by event, and by the state in which each acts. -/
theorem lanesFailAndOutputGroupsComeUp : Obligations.LanesFailAndOutputGroupsComeUp := by
  intro lane g det s
  refine ⟨fun hst => congrArg Host.Outcome.next (if_pos (by simp [hst])), fun hst => ⟨?relock, ?dead⟩, fun hst => ?notActive,
    fun hst => ⟨?notRelocked, ?notDead⟩, fun hst hdet => ?detect, fun hst => ?train, fun hst => ?caps, fun h => ?notDetected,
    fun hst => ?notTrained, fun hst => ?notCaps⟩
  case notActive => exact congrArg Host.Outcome.next (if_neg (by simpa using hst))
  case notRelocked => exact congrArg Host.Outcome.next (if_neg (by simpa using hst))
  case notDead => exact congrArg Host.Outcome.next (if_neg (by simpa using hst))
  case notDetected => exact congrArg Host.Outcome.next (if_neg (by rcases h with h | h <;> simp [h]))
  case notTrained => exact congrArg Host.Outcome.next (if_neg (by simpa using hst))
  case notCaps => exact congrArg Host.Outcome.next (if_neg (by simpa using hst))
  case relock =>
    have hlane : (s.modLane lane fun l => { l with st := .active }).lane lane = { s.lane lane with st := .active } :=
      State.modLane_lane_ne (by simp)
    refine ⟨_, congrArg Host.Outcome.next (if_pos (by simp [hst])), ?_, ?_⟩
    · rw [State.gradeGroup_only]
      rfl
    · rw [State.gradeGroup_lane, hlane]
      exact ⟨rfl, rfl⟩
  case dead =>
    refine ⟨_, congrArg Host.Outcome.next (if_pos (by simp [hst])), ?_, rfl⟩
    rw [State.gradeGroup_lane, State.postLane_lane]
    exact congrArg Lane.st (State.modLane_lane_ne (by simp))
  case detect =>
    refine ⟨_, exec_outRxDetect_detected hst hdet, rfl, ?_⟩
    rw [State.modOutGrp_outGrp_ne (by simp)]
    exact ⟨rfl, rfl, rfl⟩
  case train => exact ⟨_, exec_outTrainEnd_train hst, rfl, congrArg OutGroup.st (State.modOutGrp_outGrp_ne (by simp))⟩
  case caps =>
    have honly := State.forEach_clearOut_only (s := s) (l := grpLanes g)
    have hclear := fun hw x => State.forEach_clearOut (s := s) (x := x) (l := grpLanes g) hw
    rw [exec_outCapsEnd_caps hst]
    generalize s.forEach (grpLanes g) (fun s x => s.modOutLane x fun _ => {}) = v at honly hclear ⊢
    refine ⟨_, rfl, by rw [honly]; rfl, ?_⟩
    rw [State.modOutGrp_outGrp_ne (by simp)]
    exact ⟨rfl, by rw [honly]; rfl, fun hw l hl => (hclear hw l).trans (if_pos hl)⟩

end Sys2Proof.Machine
end

section
/-! SUPPORT. Proofs about ingest packets: what the arrival of a counter leaves of the lanes, the check of Table 2.6 that decides, and
the packet that continues its stream. -/

namespace Sys2Proof.Machine

open Sys2Proof

/-! ### The arrival of a counter leaves the lanes (R337, R338, R379) -/

section
variable {s t : State}

theorem State.RecOnly.lanes (h : s.RecOnly t) : t.lanes = s.lanes := by rw [h]

theorem State.emitEach_lanes {x dest : Nat} {mk : Nat → Rec} : (s.emitEach x dest mk).lanes = s.lanes := by
  unfold State.emitEach
  split
  · exact State.forEach_same State.lanes (f := fun u d => (u.emitDie d 0 (mk d)).1) (fun u d => (u.emitDie_only d 0 _).lanes) _ _
  · exact (s.emitHub_only _ _).lanes

theorem State.switchSelfTable_lanes {k : Nat} : (s.switchSelfTable k).lanes = s.lanes := by
  unfold State.switchSelfTable
  dsimp only
  split
  · rfl
  · exact State.forEach_same State.lanes (fun _ _ => State.emitEach_lanes) _ _

theorem State.arriveK_lanes {ctr k : Nat} : (s.arriveK ctr k).lanes = s.lanes := by
  refine State.switchSelfTable_lanes.trans ((State.forEach_same State.lanes (fun _ _ => ?_) _ _).trans ?_)
  all_goals rfl

theorem State.fixLabels_lanes {ctr : Nat} : (s.fixLabels ctr).lanes = s.lanes := by
  refine State.forEach_same State.lanes (fun u e => ?_) _ _
  repeat' split
  all_goals rfl

theorem State.switchLabels_lanes {ctr : Nat} : (s.switchLabels ctr).lanes = s.lanes := by
  refine State.forEach_same State.lanes (fun u e => ?_) _ _
  repeat' split
  all_goals rfl

@[simp] theorem State.arrive_lanes {ctr : Nat} : (s.arrive ctr).lanes = s.lanes := by
  refine State.switchLabels_lanes.trans ((State.forEach_same State.lanes (fun _ _ => State.arriveK_lanes) _ _).trans ?_)
  split
  all_goals exact State.fixLabels_lanes

@[simp] theorem State.arrive_lane {ctr x : Nat} : (s.arrive ctr).lane x = s.lane x := by
  rw [State.lane, State.arrive_lanes]
  rfl

@[simp] theorem State.arrive_comm {ctr : Nat} : (s.arrive ctr).comm = s.comm := State.arrive_keeps (K := Keep.commIs s.comm) rfl

end

/-! ### Room in a FIFO, and markers (R69, R70) -/

section
variable {s t : State} {x : Nat}

theorem State.reg_congr (h : t.comm = s.comm) (off : Nat) : t.reg off = s.reg off := by rw [State.reg, h]; rfl

theorem State.timeSamples_congr (h : t.comm = s.comm) (cnt : Nat) : t.timeSamples cnt = s.timeSamples cnt := by
  have hm : t.mode4 = s.mode4 := congrArg (bit · 0) (State.reg_congr h _)
  rw [State.timeSamples, hm]
  rfl

/-- Whether a FIFO is full depends on the registers and on what the FIFOs hold. -/
theorem State.fifoFull_congr (hc : t.comm = s.comm) (hf : ∀ k, (t.lane k).fifo = (s.lane k).fifo) : t.fifoFull x = s.fifoFull x := by
  have hword (k : Nat) : (t.lane k).words = (s.lane k).words := by rw [Lane.words, hf]; rfl
  have hspill (d : Nat) : t.spillUsed d = s.spillUsed d := by simp only [State.spillUsed, hword]
  have hfield (off hi lo : Nat) : t.fieldOf off hi lo = s.fieldOf off hi lo := congrArg (fld · hi lo) (State.reg_congr hc off)
  rw [State.fifoFull, hword, hspill, hfield, hfield]
  rfl

theorem State.modLane_fifo {f : Lane → Lane} (hst : (f (s.lane x)).st ≠ .down) (hf : (f (s.lane x)).fifo = (s.lane x).fifo) (k : Nat) :
    ((s.modLane x f).lane k).fifo = (s.lane k).fifo := by
  by_cases hk : k = x
  · rw [hk, State.modLane_lane_ne hst, hf]
  · rw [State.modLane_lane_other hk]

/-- A lane without markers has none to push. -/
theorem Lane.pushMarkers_none {l : Lane} {p closed : Nat} (h : ∀ y ∈ l.streams, y.openM = none ∧ y.closedM = none) :
    l.pushMarkers p closed = l := by
  have hclear : l.clearMarkers = l := by
    have hmap : (l.streams.map fun y => { y with openM := none, closedM := none }) = l.streams :=
      (List.map_congr_left fun y hy => by
        obtain ⟨ho, hc⟩ := h y hy
        show ({ y with openM := none, closedM := none } : Stream) = y
        cases y
        simp_all).trans (List.map_id _)
    rw [Lane.clearMarkers, hmap]
  have hmarks : l.markers = [] := by
    have hnil : (l.streams.flatMap fun y => y.closedM.toList ++ y.openM.toList) = [] :=
      List.flatMap_eq_nil_iff.mpr fun y hy => by
        obtain ⟨ho, hc⟩ := h y hy
        simp [ho, hc]
    rw [Lane.markers, hnil]
    rfl
  rw [Lane.pushMarkers, hclear, hmarks]
  simp

end

/-! ### The checks of Table 2.6 -/

/-- The frame and CRC check (R59). -/
def goodFraming (framed : Bool) (bs : List Byte) : Prop :=
  framed = true ∧ bs.length = 1044 ∧ crc32 (bs.take 1040) = leAt bs 1040 4

/-- The packet is for this die-local channel and passes the checks of channel and lane map. -/
def State.mapsTo (s : State) (lane : Nat) (p : Packet) (ch : Nat) : Prop :=
  s.localCh (lane / 72) p.ch = some ch ∧ p.lmset = (s.die (lane / 72)).setFor p.ctr ∧
    s.mapOk (lane / 72) (lane % 72) p.lmset ch p = true

section
variable {s : State} {lane : Nat} {framed : Bool} {bs : List Byte}

theorem State.ingestPacket_inactive (h : (s.lane lane).st ≠ .active) : s.ingestPacket lane framed bs = s := if_pos (by simpa using h)

theorem State.ingestPacket_badFraming (hst : (s.lane lane).st = .active) (h : ¬goodFraming framed bs) :
    s.ingestPacket lane framed bs = s.modLane lane fun l => { l with crcErr := sat32 l.crcErr } := by
  refine (if_neg (by simp [hst])).trans (if_pos ?_)
  by_contra hno
  exact h (by simpa [goodFraming, and_assoc] using hno)

/-- A packet that is whole meets its header check. -/
theorem State.ingestPacket_whole (hst : (s.lane lane).st = .active) (h : goodFraming framed bs) :
    s.ingestPacket lane framed bs =
      let p := parsePacket s.mode4 bs
      if !s.headerOk p then s.modLane lane fun l => { l with hdrErr := sat32 l.hdrErr }
      else match s.localCh (lane / 72) p.ch with
        | none => s.modLane lane fun l => { l with mapErr := sat32 l.mapErr }
        | some ch =>
          let set := (s.die (lane / 72)).setFor p.ctr
          if p.lmset != set || !s.mapOk (lane / 72) (lane % 72) set ch p then
            s.modLane lane fun l => { l with mapErr := sat32 l.mapErr }
          else match (s.lane lane).streams.find? (fun x => x.isOf ch p) with
            | some x =>
              ((s.arrive p.ctr).modLane lane fun l =>
                { l with streams := mapIf (fun z => z.isOf ch p) (fun z => { z with seen := true }) l.streams }).streamPacket
                lane ch { x with seen := true } false p
            | none =>
              if 16 ≤ (s.lane lane).streams.length then s.modLane lane fun l => { l with streamOvf := sat32 l.streamOvf }
              else
                let x : Stream := { ch := ch, sig := p.sig, cnt := p.cnt, next := p.ctr, left := p.ctr }
                ((s.arrive p.ctr).modLane lane fun l => { l with streams := l.streams ++ [x] }).streamPacket lane ch x true p := by
  obtain ⟨hframed, hlen, hcrc⟩ := h
  exact (if_neg (by simp [hst])).trans (if_neg (by simp [hframed, hlen, hcrc]))

end

section
variable {s : State} {lane ch : Nat} {framed : Bool} {bs : List Byte} (hst : (s.lane lane).st = .active) (hgood : goodFraming framed bs)
include hst hgood

theorem State.ingestPacket_badHeader (h : s.headerOk (parsePacket s.mode4 bs) = false) :
    s.ingestPacket lane framed bs = s.modLane lane fun l => { l with hdrErr := sat32 l.hdrErr } :=
  (State.ingestPacket_whole hst hgood).trans (if_pos (by simp [h]))

theorem State.ingestPacket_unmapped (hh : s.headerOk (parsePacket s.mode4 bs) = true)
    (h : ∀ ch, ¬s.mapsTo lane (parsePacket s.mode4 bs) ch) :
    s.ingestPacket lane framed bs = s.modLane lane fun l => { l with mapErr := sat32 l.mapErr } := by
  refine (State.ingestPacket_whole hst hgood).trans ((if_neg (by simp [hh])).trans ?_)
  split
  · rfl
  · rename_i ch hch
    refine if_pos ?_
    by_contra hno
    simp only [Bool.or_eq_true, bne_iff_ne, Bool.not_eq_true', not_or, not_not, Bool.not_eq_false] at hno
    obtain ⟨hset, hmap⟩ := hno
    exact h ch ⟨hch, hset, by rw [hset]; exact hmap⟩

/-- A packet that passes its map check meets the stream table. -/
theorem State.ingestPacket_mapped (hh : s.headerOk (parsePacket s.mode4 bs) = true) (h : s.mapsTo lane (parsePacket s.mode4 bs) ch) :
    s.ingestPacket lane framed bs =
      let p := parsePacket s.mode4 bs
      match (s.lane lane).streams.find? (fun x => x.isOf ch p) with
      | some x =>
        ((s.arrive p.ctr).modLane lane fun l =>
          { l with streams := mapIf (fun z => z.isOf ch p) (fun z => { z with seen := true }) l.streams }).streamPacket
          lane ch { x with seen := true } false p
      | none =>
        if 16 ≤ (s.lane lane).streams.length then s.modLane lane fun l => { l with streamOvf := sat32 l.streamOvf }
        else
          let x : Stream := { ch := ch, sig := p.sig, cnt := p.cnt, next := p.ctr, left := p.ctr }
          ((s.arrive p.ctr).modLane lane fun l => { l with streams := l.streams ++ [x] }).streamPacket lane ch x true p := by
  obtain ⟨hch, hset, hmap⟩ := h
  refine (State.ingestPacket_whole hst hgood).trans ((if_neg (by simp [hh])).trans ?_)
  dsimp only
  rw [hch]
  exact if_neg (by simp [← hset, hmap])

end

/-! ### The next packet of a known stream (R63, Table 2.7) -/

section
variable {s : State} {lane ch : Nat} {x : Stream} {p : Packet}

/-- The lane after its FIFO took a packet that continues stream `x` without a gap. -/
def Lane.takeNext (l : Lane) (ch n period closed : Nat) (x : Stream) (p : Packet) : Lane :=
  let y : Stream := { x with next := p.ctr + n, downOpen := false }
  let m := ({ l with streams := mapIf (fun z => z.isOf ch p) (fun _ => y) l.streams }).pushMarkers period closed
  { m with fifo := m.fifo ++ [] ++ [.pkt ch p.sig p.cnt p.ctr p.invalid p.sat p.samples] }

/-- Where it is the lane's only stream and has no marker, the packet is the last item. -/
theorem Lane.takeNext_only {l : Lane} {n period closed : Nat} (hone : l.streams = [x]) (hof : x.isOf ch p = true)
    (hopen : x.openM = none) (hclosed : x.closedM = none) : l.takeNext ch n period closed x p =
      { l with streams := [{ x with next := p.ctr + n, downOpen := false }],
               fifo := l.fifo ++ [.pkt ch p.sig p.cnt p.ctr p.invalid p.sat p.samples] } := by
  have hmap (y : Stream) : mapIf (fun z => z.isOf ch p) (fun _ => y) l.streams = [y] := by simp [hone, mapIf, hof]
  rw [Lane.takeNext, hmap, Lane.pushMarkers_none (by simp [hopen, hclosed]), List.append_nil]

/-- The state in which a packet meets the FIFO. -/
def State.noted (s : State) (lane : Nat) (p : Packet) : State :=
  (s.modDie (lane / 72) fun d => { (d.reachSwitch p.ctr) with highCtr := some (max p.ctr (d.highCtr.getD 0)) }).modLane lane
    fun l => { l with lastSeq := some (BitVec.ofNat 8 p.laneSeq) }

theorem State.noted_lane (hst : (s.lane lane).st ≠ .down) :
    (s.noted lane p).lane lane = { s.lane lane with lastSeq := some (BitVec.ofNat 8 p.laneSeq) } :=
  State.modLane_lane_ne (f := fun l => { l with lastSeq := some (BitVec.ofNat 8 p.laneSeq) }) hst

theorem State.noted_lane_other {y : Nat} (h : y ≠ lane) : (s.noted lane p).lane y = s.lane y := State.modLane_lane_other h

theorem State.noted_fifoFull (hst : (s.lane lane).st ≠ .down) : (s.noted lane p).fifoFull lane = s.fifoFull lane :=
  State.fifoFull_congr rfl (State.modLane_fifo (f := fun l => { l with lastSeq := some (BitVec.ofNat 8 p.laneSeq) }) hst rfl)

/-- A packet at its stream's expected counter, with room in the FIFO: there is no gap. -/
theorem State.streamPacket_next (hnext : x.next = p.ctr) (hdown : x.downOpen = false) (hroom : (s.noted lane p).fifoFull lane = false) :
    s.streamPacket lane ch x false p = ((s.noted lane p).modDie (lane / 72) fun y => y.feedDirect ch p).modLane lane fun l =>
      l.takeNext ch (s.timeSamples p.cnt) (s.noted lane p).grid.period ((s.noted lane p).die (lane / 72)).closed x p := by
  have hgap : gapOf x (s.lane lane) p = none := by simp [gapOf, hdown, hnext]
  refine (if_neg (by simp [hnext])).trans ?_
  simp only [Bool.false_eq_true, if_false, hgap]
  exact if_neg (ne_true_of_eq_false hroom)

/-- What that packet leaves in the lanes where its stream is the lane's only one and has no marker. -/
theorem State.streamPacket_next_lanes (hst : (s.lane lane).st ≠ .down) (hone : (s.lane lane).streams = [x]) (hof : x.isOf ch p = true)
    (hnext : x.next = p.ctr) (hdown : x.downOpen = false) (hopen : x.openM = none) (hclosed : x.closedM = none)
    (hroom : s.fifoFull lane = false) :
    (s.streamPacket lane ch x false p).lane lane =
        { s.lane lane with lastSeq := some (BitVec.ofNat 8 p.laneSeq),
                           streams := [{ x with next := p.ctr + s.timeSamples p.cnt, downOpen := false }],
                           fifo := (s.lane lane).fifo ++ [.pkt ch p.sig p.cnt p.ctr p.invalid p.sat p.samples] } ∧
      ∀ y, y ≠ lane → (s.streamPacket lane ch x false p).lane y = s.lane y := by
  have hl := State.noted_lane (p := p) hst
  rw [State.streamPacket_next hnext hdown ((State.noted_fifoFull hst).trans hroom)]
  refine ⟨?_, fun y hy => (State.modLane_lane_other hy).trans (State.noted_lane_other hy)⟩
  have htake (n period closed : Nat) := Lane.takeNext_only (l := (s.noted lane p).lane lane) (n := n) (period := period) (closed := closed)
    (by rw [hl]; exact hone) hof hopen hclosed
  refine (State.modLane_lane_ne ?_).trans ((htake _ _ _).trans (by rw [hl]))
  exact (congrArg Lane.st (htake _ _ _)).trans_ne (by rw [hl]; exact hst)

end

/-- Settles O35, by the first check that the packet does not pass. -/
theorem packetsAreCheckedInOrder : Obligations.PacketsAreCheckedInOrder := by
  intro lane framed bs s p out good mapped
  have hout {u : State} (h : s.ingestPacket lane framed bs = u) : exec (.ingestPacket lane framed bs) s = out u :=
    h ▸ rfl
  refine ⟨fun hst => hout (State.ingestPacket_inactive hst), fun hst => ⟨fun hbad => hout (State.ingestPacket_badFraming hst hbad),
    fun hgood hh => hout (State.ingestPacket_badHeader hst hgood hh), fun hgood hh hm => hout (State.ingestPacket_unmapped hst hgood hh hm),
    fun ch hgood hh hm hnew hfull => hout ?full, fun ch x hgood hh hm hone hof hnext hdown hopen hclosed hroom => ?next⟩⟩
  case full =>
    rw [State.ingestPacket_mapped hst hgood hh hm]
    dsimp only
    rw [hnew]
    exact if_pos hfull
  case next =>
    have hup : (s.lane lane).st ≠ .down := by simp [hst]
    have hfind : (s.lane lane).streams.find? (fun z => z.isOf ch p) = some x := by simp [hone, hof]
    generalize hv : ((s.arrive p.ctr).modLane lane fun l =>
      { l with streams := mapIf (fun z => z.isOf ch p) (fun z => { z with seen := true }) l.streams }) = v
    have hexec : exec (.ingestPacket lane framed bs) s = out (v.streamPacket lane ch { x with seen := true } false p) := by
      refine hout ((State.ingestPacket_mapped hst hgood hh hm).trans ?_)
      dsimp only
      rw [hfind, ← hv]
    have hother (y : Nat) (hy : y ≠ lane.val) : v.lane y = s.lane y := by
      rw [← hv, State.modLane_lane_other hy, State.arrive_lane]
    have hlane : v.lane lane = { s.lane lane with streams := [{ x with seen := true }] } := by
      rw [← hv, State.modLane_lane_ne (by simpa using hup), State.arrive_lane, hone]
      simp [mapIf, hof]
    have hcomm : v.comm = s.comm := hv ▸ State.arrive_comm
    have hfifo (y : Nat) : (v.lane y).fifo = (s.lane y).fifo := by
      by_cases hy : y = lane.val
      · rw [hy, hlane]
      · rw [hother y hy]
    obtain ⟨hlast, hrest⟩ := State.streamPacket_next_lanes (s := v) (lane := lane) (x := { x with seen := true })
      (by rw [hlane]; exact hup) (by rw [hlane]) hof hnext hdown hopen hclosed ((State.fifoFull_congr hcomm hfifo).trans hroom)
    refine ⟨_, hexec, ?_, ?_, ?_, fun y hy => (hrest y hy).trans (hother y hy)⟩
    · rw [hlast, hlane]
    · rw [hlast, State.timeSamples_congr hcomm, hdown]
    · rw [hlast]

end Sys2Proof.Machine
end

section
/-! SUPPORT. Proofs about the commands of lanes and gains: LANE_MAP_SWITCH, LANE_GROUP_RESTART, CHN_GAIN_LOAD and CHN_STATS_READ by
the check that decides. -/

namespace Sys2Proof.Machine

open Sys2Proof

section
variable {s : State} {c : RingCmd} {r : CmdRef} {d t : Nat}

/-! ### LANE_MAP_SWITCH (R64) -/

/-- The switch is at a multiple of every running block length of its die, above every counter that the die has met. -/
structure State.SwitchOpen (s : State) (d t : Nat) : Prop where
  aligned : ∀ l ∈ s.blockLens d, t % l = 0
  unmet   : ∀ h, (s.die d).highCtr = some h → h < t

theorem State.SwitchOpen.aligned_any (h : s.SwitchOpen d t) : ((s.blockLens d).any fun l => t % l != 0) = false := by
  simpa using h.aligned

theorem State.SwitchOpen.unmet_any (h : s.SwitchOpen d t) : ((s.die d).highCtr.any fun h => decide (t ≤ h)) = false := by
  cases hm : (s.die d).highCtr with
  | none => rfl
  | some m => simpa using h.unmet m hm

theorem State.laneMapSwitch_open
    (h : s.SwitchOpen (fld c.arg0.toNat 1 0) (c.arg1.toNat + 2 ^ 32 * fld c.arg2.toNat 15 0)) : s.laneMapSwitch c r =
      if (s.die (fld c.arg0.toNat 1 0)).switch.isSome then s.complete r stConflict noField 0
      else (s.modDie (fld c.arg0.toNat 1 0) fun y =>
        { y with switch := some (fld c.arg0.toNat 9 8, c.arg1.toNat + 2 ^ 32 * fld c.arg2.toNat 15 0) }).complete r stOK 0 0 :=
  (if_neg (ne_true_of_eq_false h.aligned_any)).trans (if_neg (ne_true_of_eq_false h.unmet_any))

/-! ### LANE_GROUP_RESTART (R54) -/

/-- The command names an enabled group, of output lanes where bit 8 is set, else of ingest lanes. -/
def State.namesGroup (s : State) (c : RingCmd) : Prop :=
  if bit c.arg0.toNat 8 then fld c.arg0.toNat 5 0 < 8 ∧ s.outEn (fld c.arg0.toNat 5 0) = true
  else fld c.arg0.toNat 5 0 < 36 ∧ s.groupEn (fld c.arg0.toNat 5 0) = true

theorem State.namesGroup_ingest (hb : bit c.arg0.toNat 8 = false) :
    s.namesGroup c ↔ fld c.arg0.toNat 5 0 < 36 ∧ s.groupEn (fld c.arg0.toNat 5 0) = true := by
  simp [State.namesGroup, hb]

theorem State.namesGroup_output (hb : bit c.arg0.toNat 8 = true) :
    s.namesGroup c ↔ fld c.arg0.toNat 5 0 < 8 ∧ s.outEn (fld c.arg0.toNat 5 0) = true := by
  simp [State.namesGroup, hb]

theorem State.laneGroupRestart_ingest (hb : bit c.arg0.toNat 8 = false) (h : s.namesGroup c) : s.laneGroupRestart c r =
    ((s.clearGroup (fld c.arg0.toNat 5 0)).modGroup (fld c.arg0.toNat 5 0) fun x => { x with st := .detect, retry := 0 }).complete r
      stOK 0 0 := by
  obtain ⟨hlt, hen⟩ := (State.namesGroup_ingest hb).mp h
  exact (if_neg (ne_true_of_eq_false hb)).trans (if_pos (by simp [hlt, hen]))

theorem State.laneGroupRestart_output (hb : bit c.arg0.toNat 8 = true) (h : s.namesGroup c) : s.laneGroupRestart c r =
    ((s.removeOut (fld c.arg0.toNat 5 0)).enableOut (fld c.arg0.toNat 5 0)).complete r stOK 0 0 := by
  obtain ⟨hlt, hen⟩ := (State.namesGroup_output hb).mp h
  exact (if_pos hb).trans (if_pos (by simp [hlt, hen]))

theorem State.laneGroupRestart_refused (h : ¬s.namesGroup c) : s.laneGroupRestart c r = s.complete r stConflict (argOff 0) 0 := by
  cases hb : bit c.arg0.toNat 8 with
  | false => exact (if_neg (ne_true_of_eq_false hb)).trans (if_neg (by simpa using mt (State.namesGroup_ingest hb).mpr h))
  | true => exact (if_pos hb).trans (if_neg (by simpa using mt (State.namesGroup_output hb).mpr h))

/-! ### CHN_GAIN_LOAD and CHN_STATS_READ (R81, R83, R84) -/

theorem State.chnGainLoad_waits (hlen : 2 * (4096 * s.chPerDie) ≤ c.buf.length)
    (hctr : s.switchCtr (fld c.arg0.toNat 1 0) (c.arg1.toNat + 2 ^ 32 * fld c.arg2.toNat 15 0) = true)
    (hreq : (s.die (fld c.arg0.toNat 1 0)).requantTo < c.arg1.toNat + 2 ^ 32 * fld c.arg2.toNat 15 0 + s.numF)
    (hnone : (s.die (fld c.arg0.toNat 1 0)).gainLoad = none) : s.chnGainLoad c r =
      (s.modDie (fld c.arg0.toNat 1 0) fun y => { y with gainLoad := some (c.arg1.toNat + 2 ^ 32 * fld c.arg2.toNat 15 0,
        (u16s (c.buf.take (2 * (4096 * s.chPerDie)))).map (BitVec.ofNat 16)) }).complete r stOK 0 0 :=
  (if_neg (Nat.not_lt.mpr hlen)).trans ((if_neg (by rw [hctr]; simpa using hreq)).trans (if_neg (by simp [hnone])))

@[simp] theorem StatIv.bytes_length (x : StatIv) (n : Nat) : (x.bytes n).length = 8 * n := by
  simp [StatIv.bytes, rows, le32, List.length_flatMap, Nat.mul_comm]

/-- The interval that the command names, where the die holds it. -/
def State.heldInterval (s : State) (c : RingCmd) : Option StatIv :=
  (s.die (fld c.arg0.toNat 1 0)).stats.find? fun x => x.firstSlot == c.arg1.toNat + 2 ^ 32 * c.arg2.toNat

theorem State.chnStatsRead_lost (hlen : 8 * (4096 * s.chPerDie) ≤ c.resLen) (h : s.heldInterval c = none) :
    s.chnStatsRead c r = s.complete r stDataLost 0 0 := by
  refine (if_neg (Nat.not_lt.mpr hlen)).trans ?_
  rw [show List.find? _ _ = none from h]

theorem State.chnStatsRead_held {x : StatIv} {w : State} {a : Nat} (hlen : 8 * (4096 * s.chPerDie) ≤ c.resLen)
    (h : s.heldInterval c = some x) (ht : s.translate c.fn c.resIova.toNat true c.resAcc = (w, some a)) : s.chnStatsRead c r =
      (w.emit (.hostWrite c.fn c.resIova.toNat (x.bytes (4096 * s.chPerDie)))).complete r stOK (8 * (4096 * s.chPerDie)) 0 := by
  refine (if_neg (Nat.not_lt.mpr hlen)).trans ?_
  rw [show List.find? _ _ = some x from h]
  exact State.writeRes_fits (by simpa using hlen) ht

end

/-- Settles O38, command by command and by the check that decides. -/
theorem laneAndGainCommands : Obligations.LaneAndGainCommands := by
  intro c s
  have hexec {pf : Bool} {opc : Nat} {body : CmdRef → State → State} {v : State} (hs : s.starts pf c = true)
      (h : body (s.refOf c opc) (s.started c) = v) :
      (.next (s.startCmd opc pf c body) : Host.Outcome State Fault Refusal) = .next v :=
    congrArg Host.Outcome.next ((startCmd_starts hs).trans h)
  refine ⟨fun hs => ?pfCommands, fun hs => ?stats⟩
  case pfCommands =>
    intro u d t
    refine ⟨fun hal hmet => ⟨fun hsw => ?switches, fun hsw => ?pending⟩, ⟨fun hb hlt hen => ?ingest, fun hb hlt hen => ?output,
      or_iff_not_imp_left.mpr fun h => ?refused⟩, fun hlen hctr hreq hnone => ?load⟩
    case switches => exact hexec hs ((State.laneMapSwitch_open ⟨hal, hmet⟩).trans (if_neg (Option.not_isSome_iff_eq_none.mpr hsw)))
    case pending => exact hexec hs ((State.laneMapSwitch_open ⟨hal, hmet⟩).trans (if_pos (Option.isSome_iff_ne_none.mpr hsw)))
    case ingest => exact hexec hs (State.laneGroupRestart_ingest hb ((State.namesGroup_ingest hb).mpr ⟨hlt, hen⟩))
    case output => exact hexec hs (State.laneGroupRestart_output hb ((State.namesGroup_output hb).mpr ⟨hlt, hen⟩))
    case refused => exact hexec hs (State.laneGroupRestart_refused h)
    case load => exact hexec hs (State.chnGainLoad_waits hlen hctr hreq hnone)
  case stats =>
    intro u n held hlen
    exact ⟨fun hno => hexec hs (State.chnStatsRead_lost hlen hno), fun x w a hx ht => hexec hs (State.chnStatsRead_held hlen hx ht)⟩

end Sys2Proof.Machine
end

section
/-! SUPPORT. Proofs about the chain ports: what their error counters make of a port, what a port that turns OFF leaves, and what each
event of Table 12.3 does by the state of the port. -/

namespace Sys2Proof.Machine

open Sys2Proof

section
variable {s t : State} {p q : Nat}

/-! ### Reading a port after a write, in a table of any form -/

theorem State.modPort_port_ne {f : Port → Port} (h : f (s.port p) ≠ {}) : (s.modPort p f).port p = f (s.port p) :=
  getT_setT_ne _ _ _ _ h

theorem State.modPort_port_other {f : Port → Port} (h : q ≠ p) : (s.modPort p f).port q = s.port q := getT_setT_other _ _ _ _ _ h

/-- A port that a write leaves in a state other than OFF reads as written. -/
theorem State.modPort_port_on {f : Port → Port} (h : (f (s.port p)).st ≠ .off) : (s.modPort p f).port p = f (s.port p) :=
  State.modPort_port_ne (ne_of_apply_ne Port.st h)

theorem State.port_congr (h : t.ports = s.ports) (q : Nat) : t.port q = s.port q := by rw [State.port, h]; rfl

theorem Port.isUp_iff {x : Port} : x.isUp = true ↔ x.st = .up ∨ x.st = .caution := by simp [Port.isUp]

theorem Port.isUp_ne_off {x : Port} (h : x.isUp = true) : x.st ≠ .off := by
  rcases Port.isUp_iff.mp h with h | h <;> simp [h]

/-! ### What a port that turns OFF sets off leaves the ports (R316, R342, R347) -/

theorem State.postEvt_ports (s : State) (fn ev st kind id d0 d1 : Nat) : (s.postEvt fn ev st kind id d0 d1).ports = s.ports := by
  rw [s.postEvt_only fn ev st kind id d0 d1]

theorem State.postPort_ports {st : Nat} : (s.postPort p st).ports = s.ports := State.postEvt_ports _ _ _ _ _ _ _ _

theorem State.enterHold_ports {d : Nat} : (s.enterHold d).ports = s.ports := by
  unfold State.enterHold
  split
  · rfl
  · exact State.postEvt_ports _ _ _ _ _ _ _ _

theorem State.holdSrc_ports {src : Nat} : (s.holdSrc src).ports = s.ports := by
  refine State.forEach_same State.ports (fun u d => ?_) _ s
  split
  · exact State.enterHold_ports
  · rfl

theorem State.sideline_ports : s.sideline.ports = s.ports := by
  unfold State.sideline
  dsimp only
  split
  · rfl
  · refine State.holdSrc_ports.trans ?_
    split
    all_goals exact State.postEvt_ports _ _ _ _ _ _ _ _

theorem State.noteUpstream_ports : s.noteUpstream.ports = s.ports := by
  unfold State.noteUpstream
  dsimp only
  split <;> rfl

theorem State.setLoop_ports {m : LoopMode} : (s.setLoop m).ports = s.ports := by
  unfold State.setLoop
  split
  · rfl
  · refine (State.postEvt_ports _ _ _ _ _ _ _ _).trans ?_
    cases m <;> rfl

theorem State.setActive_ports {a : Option Nat} : (s.setActive a).ports = s.ports := by
  unfold State.setActive
  split
  · rfl
  · exact State.postEvt_ports _ _ _ _ _ _ _ _

theorem State.reselect_ports : s.reselect.ports = s.ports := by
  unfold State.reselect
  dsimp only
  repeat' split
  · exact State.setLoop_ports.trans State.setActive_ports
  · exact State.setLoop_ports.trans State.setActive_ports
  all_goals exact State.setActive_ports

/-- A frame sent on one port leaves the other. -/
theorem State.sendOn_port_other {f : Frame} (h : q ≠ p) : (s.sendOn p f).port q = s.port q := by
  unfold State.sendOn
  dsimp only
  split
  · rfl
  split
  · exact State.modPort_port_other h
  · exact (State.port_congr State.emit_ports q).trans (State.modPort_port_other h)

theorem State.postDrops_ports {us : List Unacked} : (s.postDrops p us).ports = s.ports := by
  refine State.forEach_same State.ports (fun u k => ?_) _ s
  dsimp only
  split
  · rfl
  · exact State.postEvt_ports _ _ _ _ _ _ _ _

/-! ### The state of a port by its error counters (R315, R316, Table 12.3) -/

/-- A port whose frames are rerouted or dropped. -/
def Port.emptied (x : Port) : Port :=
  { x with unacked := [], reroute := satTo 255 (x.reroute + (x.unacked.filter fun u => u.f.prio == 0).length),
           drops := satTo 0xFFFF (x.drops + (x.unacked.filter fun u => u.f.prio != 0).length) }

/-- The queue of a port with a counter above 0 is emptied by way of the other port. -/
theorem State.emptyPort_port (hp : p < 2) (h : (s.port p).txErr ≠ 0) : (s.emptyPort p).port p = (s.port p).emptied := by
  have hother : p ≠ 1 - p := by omega
  unfold State.emptyPort
  refine (State.port_congr State.postDrops_ports p).trans ((State.forEach_same (fun u => u.port p)
    (fun u x => State.sendOn_port_other hother) _ _).trans (State.modPort_port_ne (ne_of_apply_ne Port.txErr ?_)))
  exact h

/-- A port that turns OFF: both counters 255, its clock no longer accepted, its queue empty. -/
theorem State.portOff_port (hp : p < 2) (hup : (s.port p).isUp = true) : (s.portOff p).port p =
    { s.port p with st := .off, txErr := 255, rxErr := 255, clkOk := false, good := 0, bad := 0 }.emptied := by
  have hv : (s.modPort p fun x => { x with st := .off, txErr := 255, rxErr := 255, clkOk := false, good := 0, bad := 0 }).port p =
      { s.port p with st := .off, txErr := 255, rxErr := 255, clkOk := false, good := 0, bad := 0 } :=
    State.modPort_port_ne (ne_of_apply_ne Port.txErr (by simp))
  have htail {u v : State} {b : Bool} (h : v.ports = u.ports) : (if b then v.holdSrc 3 else v).noteUpstream.reselect.ports = u.ports := by
    refine State.reselect_ports.trans (State.noteUpstream_ports.trans ?_)
    split
    · exact State.holdSrc_ports.trans h
    · exact h
  rw [State.portOff, if_neg (by simp [hup])]
  refine (State.port_congr (htail (State.sideline_ports.trans State.postPort_ports)) p).trans ?_
  rw [State.emptyPort_port hp (by rw [hv]; exact Nat.succ_ne_zero _), hv]

theorem State.portOff_down (h : (s.port p).isUp = false) : s.portOff p = s := if_pos (by simp [h])

/-- A counter that has reached 255 turns the port OFF. -/
theorem State.checkPort_off (hup : (s.port p).isUp = true) (h : 255 ≤ (s.port p).txErr ∨ 255 ≤ (s.port p).rxErr) :
    s.checkPort p = s.portOff p := if_pos (by simpa [hup] using h)

theorem State.checkPort_grades (htx : (s.port p).txErr < 255) (hrx : (s.port p).rxErr < 255) : s.checkPort p = s.gradePort p :=
  if_neg (by simp [htx, hrx])

/-- Below 255 an UP port is in CAUTION from 128 on. -/
theorem State.gradePort_port (hup : (s.port p).isUp = true) : (s.gradePort p).port p =
    { s.port p with st := if 128 ≤ (s.port p).txErr ∨ 128 ≤ (s.port p).rxErr then .caution else .up } := by
  have hset (st : PortState) (code : Nat) (hst : st ≠ .off) :
      ((s.modPort p fun x => { x with st := st }).postPort p code).port p = { s.port p with st := st } :=
    (State.port_congr State.postPort_ports p).trans (State.modPort_port_on hst)
  have hsame {st : PortState} (h : (s.port p).st = st) : s.port p = { s.port p with st := st } := by rw [← h]
  have hcode : (decide (128 ≤ (s.port p).txErr) || decide (128 ≤ (s.port p).rxErr)) =
      decide (128 ≤ (s.port p).txErr ∨ 128 ≤ (s.port p).rxErr) := (Bool.decide_or ..).symm
  unfold State.gradePort
  dsimp only
  rw [hcode]
  by_cases high : 128 ≤ (s.port p).txErr ∨ 128 ≤ (s.port p).rxErr
  all_goals rcases Port.isUp_iff.mp hup with hst | hst
  · rw [if_pos high, if_pos (by simp only [hst, high]; rfl)]
    exact hset _ _ (by simp)
  · rw [if_pos high, if_neg (by simp [hst]), if_neg (by simp only [hst, high]; decide)]
    exact hsame hst
  · rw [if_neg high, if_neg (by simp only [hst, high]; decide), if_neg (by simp [hst])]
    exact hsame hst
  · rw [if_neg high, if_neg (by simp [hst]), if_pos (by simp only [hst, high]; rfl)]
    exact hset _ _ (by simp)

end

/-! ### Frames and their acknowledgements (R311, R315) -/

section
variable {s : State} {p : Fin 2} {lseq : Byte} {u : Unacked} {us : List Unacked}

theorem exec_chainAck_none (h : takeFirst (fun u => u.f.lseq == lseq) (s.port p).unacked = none) : exec (.chainAck p lseq) s = .next s := by
  show execChainAck p lseq s = _
  rw [execChainAck, h]

theorem exec_chainAckTimeout_none (h : takeFirst (fun u => u.f.lseq == lseq) (s.port p).unacked = none) :
    exec (.chainAckTimeout p lseq) s = .next s := by
  show execChainAckTimeout p lseq s = _
  rw [execChainAckTimeout, h]

theorem exec_chainAck_some (h : takeFirst (fun u => u.f.lseq == lseq) (s.port p).unacked = some (u, us)) : exec (.chainAck p lseq) s =
    .next ((s.modPort p fun y => { y with unacked := us, txErr := y.txErr - 1 }).checkPort p) := by
  show execChainAck p lseq s = _
  rw [execChainAck, h]

/-- A missing acknowledgement counts 8. -/
def State.missedAck (s : State) (p : Nat) : State := s.modPort p fun y => { y with txErr := satTo 255 (y.txErr + 8) }

theorem exec_chainAckTimeout_drops (h : takeFirst (fun u => u.f.lseq == lseq) (s.port p).unacked = some (u, us)) (ht : 3 ≤ u.tries) :
    exec (.chainAckTimeout p lseq) s =
      .next (((s.missedAck p).modPort p fun y => { y with unacked := us, drops := satTo 0xFFFF (y.drops + 1) }).checkPort p) := by
  show execChainAckTimeout p lseq s = _
  rw [execChainAckTimeout, h]
  exact congrArg Host.Outcome.next (if_neg (by omega))

/-- Its frame has been sent once more. -/
def State.triedAgain (s : State) (p : Nat) (lseq : Byte) : State :=
  (s.missedAck p).modPort p fun y =>
    { y with unacked := mapIf (fun u => u.f.lseq == lseq) (fun u => { u with tries := u.tries + 1 }) y.unacked }

theorem State.missedAck_port (hup : (s.port p).isUp = true) :
    (s.missedAck p).port p = { s.port p with txErr := satTo 255 ((s.port p).txErr + 8) } :=
  State.modPort_port_on (f := fun y => { y with txErr := satTo 255 (y.txErr + 8) }) (Port.isUp_ne_off hup)

theorem State.triedAgain_port (hup : (s.port p).isUp = true) : (s.triedAgain p lseq).port p =
    { s.port p with
      txErr := satTo 255 ((s.port p).txErr + 8)
      unacked := mapIf (fun u => u.f.lseq == lseq) (fun u => { u with tries := u.tries + 1 }) (s.port p).unacked } := by
  rw [State.triedAgain, State.modPort_port_on, State.missedAck_port hup]
  rw [State.missedAck_port hup]
  exact Port.isUp_ne_off hup

theorem exec_chainAckTimeout_again (h : takeFirst (fun u => u.f.lseq == lseq) (s.port p).unacked = some (u, us)) (ht : u.tries < 3) :
    exec (.chainAckTimeout p lseq) s = .next (
      let t := (s.triedAgain p lseq).checkPort p
      if (t.port p).isUp then t.emit (.frame p (t.stamp u.f)) else t) := by
  show execChainAckTimeout p lseq s = _
  rw [execChainAckTimeout, h]
  exact congrArg Host.Outcome.next (if_pos ht)

/-- The first three times the frame is sent again where its port stays up. -/
theorem exec_chainAckTimeout_resends (h : takeFirst (fun u => u.f.lseq == lseq) (s.port p).unacked = some (u, us)) (ht : u.tries < 3)
    (htx : (s.port p).txErr + 8 < 255) (hrx : (s.port p).rxErr < 255) (hup : (s.port p).isUp = true) :
    ∃ t, exec (.chainAckTimeout p lseq) s = .next t ∧ t.out.getLast? = some (.frame p (t.stamp u.f)) ∧
      (t.port p).txErr = (s.port p).txErr + 8 ∧ (t.port p).isUp = true := by
  have hport := State.triedAgain_port (lseq := lseq) hup
  have htx8 : satTo 255 ((s.port p).txErr + 8) = (s.port p).txErr + 8 := Nat.min_eq_right (by omega)
  rw [htx8] at hport
  have hgrade := State.gradePort_port (s := s.triedAgain p lseq) (p := p) (by rw [hport]; exact hup)
  have hcheck : (s.triedAgain p lseq).checkPort p = (s.triedAgain p lseq).gradePort p :=
    State.checkPort_grades (by rw [hport]; exact htx) (by rw [hport]; exact hrx)
  have hstays : (((s.triedAgain p lseq).gradePort p).port p).isUp = true := by
    rw [hgrade, Port.isUp_iff]
    dsimp only
    split <;> simp
  refine ⟨((s.triedAgain p lseq).gradePort p).emit (.frame p (((s.triedAgain p lseq).gradePort p).stamp u.f)),
    (exec_chainAckTimeout_again h ht).trans ?_, List.getLast?_concat, ?_, hstays⟩
  · rw [hcheck]
    exact congrArg Host.Outcome.next (if_pos hstays)
  · exact (congrArg Port.txErr hgrade).trans (by rw [hport])

end

/-! ### Bad frames and silence (R315, R316) -/

section
variable {s : State} {p : Fin 2}

theorem exec_badFrame_down (h : (s.port p).isUp = false) : exec (.badFrame p) s = .next s :=
  congrArg Host.Outcome.next (if_neg (by simp [h]))

/-- A bad frame counts 8. -/
def State.badRx (s : State) (p : Nat) : State := s.modPort p fun y => { y with rxErr := satTo 255 (y.rxErr + 8) }

theorem exec_badFrame_up (h : (s.port p).isUp = true) : exec (.badFrame p) s = .next ((s.badRx p).checkPort p) :=
  congrArg Host.Outcome.next (if_pos h)

theorem State.badRx_port (h : (s.port p).isUp = true) : (s.badRx p).port p = { s.port p with rxErr := satTo 255 ((s.port p).rxErr + 8) } :=
  State.modPort_port_on (f := fun y => { y with rxErr := satTo 255 (y.rxErr + 8) }) (Port.isUp_ne_off h)

theorem exec_badFrame_off (h : (s.port p).isUp = true) (hrx : 247 ≤ (s.port p).rxErr) :
    ∃ t, exec (.badFrame p) s = .next t ∧ (t.port p).st = .off := by
  have hport := State.badRx_port h
  have hup : ((s.badRx p).port p).isUp = true := by rw [hport]; exact h
  refine ⟨_, exec_badFrame_up h, ?_⟩
  rw [State.checkPort_off hup (.inr (by rw [hport]; exact Nat.le_min.mpr ⟨Nat.le_refl _, by omega⟩)), State.portOff_port p.isLt hup]
  rfl

theorem exec_badFrame_caution (h : (s.port p).isUp = true) (hlo : 120 ≤ (s.port p).rxErr) (hhi : (s.port p).rxErr < 247)
    (htx : (s.port p).txErr < 255) :
    ∃ t, exec (.badFrame p) s = .next t ∧ (t.port p).st = .caution ∧ (t.port p).rxErr = (s.port p).rxErr + 8 := by
  have hport := State.badRx_port h
  have hrx8 : satTo 255 ((s.port p).rxErr + 8) = (s.port p).rxErr + 8 := Nat.min_eq_right (by omega)
  rw [hrx8] at hport
  have hup : ((s.badRx p).port p).isUp = true := by rw [hport]; exact h
  refine ⟨_, exec_badFrame_up h, ?_⟩
  rw [State.checkPort_grades (by rw [hport]; exact htx) (by rw [hport]; dsimp only; omega), State.gradePort_port hup, hport]
  exact ⟨if_pos (.inr (by dsimp only; omega)), rfl⟩

theorem exec_chainPortSilence_up (h : (s.port p).isUp = true) : ∃ t, exec (.chainPortSilence p) s = .next t ∧ (t.port p).st = .off ∧
    (t.port p).txErr = 255 ∧ (t.port p).rxErr = 255 ∧ (t.port p).unacked = [] := by
  refine ⟨_, rfl, ?_⟩
  rw [State.portOff_port p.isLt h]
  exact ⟨rfl, rfl, rfl, rfl⟩

/-! ### Training (Table 12.3) -/

/-- A port that begins to train anew. -/
def Port.retrained (x : Port) : Port :=
  { x with st := .training, clkOk := false, good := 0, bad := 0, recover := satTo 255 (x.recover + 1) }

/-- A port that may train goes from OFF to TRAINING and counts. -/
theorem State.trainPort_off (hst : (s.port p).st = .off) (hu : s.portUsable p = true) : s.trainPort p true =
    (s.modPort p Port.retrained).unsideline :=
  if_neg (by simp [hst, hu])

theorem exec_chainPortRetry_off (ha : bit (s.reg 0xC00000) 31 = true) (hst : (s.port p).st = .off) (hu : s.portUsable p = true) :
    exec (.chainPortRetry p) s = .next (s.modPort p Port.retrained).unsideline :=
  congrArg Host.Outcome.next ((if_pos ha).trans (State.trainPort_off hst hu))

theorem exec_chainPortRetry_ignored (h : bit (s.reg 0xC00000) 31 = false ∨ (s.port p).st ≠ .off ∨ s.portUsable p = false) :
    exec (.chainPortRetry p) s = .next s := by
  refine congrArg Host.Outcome.next ?_
  rcases h with h | h
  · exact if_neg (ne_true_of_eq_false h)
  · split
    · exact if_pos (by simpa using h)
    · rfl

end

/-! ### Clock windows (R55) -/

section
variable {s : State} {q count : Nat}

/-- A port with the counts of one more window. -/
def Port.counted (x : Port) (count : Nat) : Port := { x with good := goodRun x.good count, bad := badRun x.bad count }

/-- A window: first the rejection of an accepted clock, then the acceptance of another. -/
theorem State.portWindow_counted (h : (s.port q).counted count ≠ {}) : s.portWindow q count =
    let x := (s.port q).counted count
    let v := s.modPort q fun y => y.counted count
    if x.clkOk && x.bad == 2 then
      let v := v.modPort q fun y => { y with clkOk := false }
      if q == 2 then (v.modMgmt fun m => { m with twinUp := false, goodRun := 0 }).loseSync else v.portOff q
    else if !x.clkOk && x.good == 16 then
      let v := v.modPort q fun y => { y with clkOk := true }
      if q == 2 then v.modMgmt fun m => { m with twinUp := true } else v
    else v := by
  have hv : (s.modPort q fun y => y.counted count).port q = (s.port q).counted count := State.modPort_port_ne h
  dsimp only
  rw [← hv]
  rfl

theorem exec_clockWindowEnd_twin (he : s.twinEn = true) (ho : s.chainOut = true) :
    exec (.clockWindowEnd .twin count) s = .next (s.portWindow 2 count) :=
  congrArg Host.Outcome.next (if_pos (by simp [he, ho]))

/-- The 16th good window of the TWIN port. -/
theorem State.portWindow_twin_accepts (hclk : (s.port 2).clkOk = false) (hgood : goodRun (s.port 2).good count = 16) :
    s.portWindow 2 count = ((s.modPort 2 fun y => y.counted count).modPort 2 fun y => { y with clkOk := true }).modMgmt
      fun m => { m with twinUp := true } := by
  have hne : (s.port 2).counted count ≠ {} := ne_of_apply_ne Port.good (by simp [Port.counted, hgood])
  rw [State.portWindow_counted hne]
  simp [Port.counted, hclk, hgood]

end

section
variable {s : State} {p : Fin 2} {count : Nat}

/-- A window of a chain port that is not OFF. -/
theorem exec_clockWindowEnd_chain (h : (s.port p).st ≠ .off) :
    exec (.clockWindowEnd (.chain p) count) s = .next (
      let v := s.modPort p fun y => y.counted count
      if (s.port p).clkOk && badRun (s.port p).bad count == 2 then (v.modPort p fun y => { y with clkOk := false }).portOff p
      else if !(s.port p).clkOk && goodRun (s.port p).good count == 16 then v.modPort p fun y => { y with clkOk := true }
      else v) := by
  have hp : (p.val == 2) = false := by have := p.isLt; simp; omega
  refine congrArg Host.Outcome.next ((if_neg (by simpa using h)).trans ?_)
  rw [State.portWindow_counted (ne_of_apply_ne Port.st h), hp]
  rfl

theorem exec_clockWindowEnd_chain_rejects (h : (s.port p).st ≠ .off) (hclk : (s.port p).clkOk = true)
    (hbad : badRun (s.port p).bad count = 2) : exec (.clockWindowEnd (.chain p) count) s =
      .next (((s.modPort p fun y => y.counted count).modPort p fun y => { y with clkOk := false }).portOff p) :=
  (exec_clockWindowEnd_chain h).trans (congrArg Host.Outcome.next (if_pos (by simp [hclk, hbad])))

theorem exec_clockWindowEnd_chain_accepts (h : (s.port p).st ≠ .off) (hclk : (s.port p).clkOk = false)
    (hgood : goodRun (s.port p).good count = 16) : exec (.clockWindowEnd (.chain p) count) s =
      .next ((s.modPort p fun y => y.counted count).modPort p fun y => { y with clkOk := true }) :=
  (exec_clockWindowEnd_chain h).trans (congrArg Host.Outcome.next ((if_neg (by simp [hclk])).trans (if_pos (by simp [hclk, hgood]))))

theorem exec_clockWindowEnd_chain_keeps (h : (s.port p).st ≠ .off) (hclk : (s.port p).clkOk = true)
    (hbad : badRun (s.port p).bad count < 2) :
    exec (.clockWindowEnd (.chain p) count) s = .next (s.modPort p fun y => y.counted count) :=
  (exec_clockWindowEnd_chain h).trans (congrArg Host.Outcome.next
    ((if_neg (by simpa using fun _ => hbad.ne)).trans (if_neg (by simp [hclk]))))

end

section
variable {s : State} {c : RingCmd} (hs : s.starts true c = true)
include hs

/-- CHAIN_PORT_ON names a port that is not OFF, or none. -/
theorem exec_chainPortOn_refused (h : 1 < c.arg0.toNat ∨ ((s.started c).port c.arg0.toNat).st ≠ .off) :
    exec (.chainPortOn c) s = .next ((s.started c).complete (s.refOf c 0x49) stConflict (argOff 0) 0) :=
  congrArg Host.Outcome.next ((startCmd_starts hs).trans (if_pos (by simpa using h)))

theorem exec_chainPortOn_off (hlt : c.arg0.toNat ≤ 1) (hst : ((s.started c).port c.arg0.toNat).st = .off) : exec (.chainPortOn c) s =
    .next ((((s.started c).modPort c.arg0.toNat fun x => { x with quiet := false }).trainPort c.arg0.toNat true).complete
      (s.refOf c 0x49) stOK 0 0) :=
  congrArg Host.Outcome.next ((startCmd_starts hs).trans (if_neg (by simpa [hst] using hlt)))

end

/-- Settles O57, event by event and by the state of the port. -/
theorem chainPortsTrainAndFail : Obligations.ChainPortsTrainAndFail := by
  intro p lseq count c s x
  refine ⟨fun h => ?unknownAck, fun u us h => ?ack, fun h => ?down, fun h => ?up, fun h => ?training, fun h => ?notTraining, ?trains,
    fun h => congrArg _ (if_pos h), fun h => congrArg _ (if_neg (by simpa using h)), fun h => congrArg _ (if_pos (by simpa using h)),
    fun h => ?windows, fun he ho hclk hgood => ?twin, fun h => ?noTwin⟩
  case unknownAck => exact ⟨exec_chainAck_none h, exec_chainAckTimeout_none h⟩
  case ack => exact ⟨exec_chainAck_some h, exec_chainAckTimeout_drops h, exec_chainAckTimeout_resends h⟩
  case down => exact ⟨exec_badFrame_down h, congrArg _ (State.portOff_down h)⟩
  case up => exact ⟨exec_badFrame_up h, exec_badFrame_off h, fun _ => exec_badFrame_caution h, exec_chainPortSilence_up h⟩
  case training =>
    refine ⟨fun hclk => ?_, fun hclk => ?_, ?_⟩
    · exact congrArg _ (if_pos (by simpa using ⟨h, hclk⟩))
    · exact congrArg _ (if_neg (by simpa using fun _ => hclk))
    · exact congrArg _ (if_pos (by simpa using h))
  case notTraining =>
    refine ⟨congrArg _ (if_neg ?_), congrArg _ (if_neg ?_)⟩
    · simpa using fun hst => absurd hst h
    · simpa using h
  case trains =>
    intro trained
    refine ⟨exec_chainPortRetry_off, exec_chainPortRetry_ignored, fun hs => ?_⟩
    intro u v
    refine ⟨fun hp hst hv hu => ?_, fun h => exec_chainPortOn_refused hs ?_⟩
    · rw [exec_chainPortOn_off hs (by have := p.isLt; omega) (by rw [hp]; exact hst), hp, State.trainPort_off hv hu]
      rfl
    · exact h.imp_right fun ⟨hp, hst⟩ => by rw [hp]; exact hst
  case windows =>
    exact ⟨exec_clockWindowEnd_chain_rejects h, exec_clockWindowEnd_chain_accepts h, exec_clockWindowEnd_chain_keeps h⟩
  case twin =>
    refine ⟨_, (exec_clockWindowEnd_twin he ho).trans (congrArg _ (State.portWindow_twin_accepts hclk hgood)), rfl, ?_⟩
    exact congrArg Port.clkOk (State.modPort_port_ne (s := s.modPort 2 fun y => y.counted count) (f := fun y => { y with clkOk := true })
      (ne_of_apply_ne Port.clkOk (by simp)))
  case noTwin => exact congrArg _ (if_neg (by rcases h with h | h <;> simp [h]))

end Sys2Proof.Machine
end
